-- ==== Sys2Proof/Word.lean ====
section
/-!
DEFINITION. The machine's plain words: the 64-bit scalar word, the byte, the 512-bit beat.
-/

namespace Sys2Proof

/-- A scalar register's value (R205). -/
abbrev Word := BitVec 64

/-- One byte of a memory. -/
abbrev Byte := BitVec 8

/-- One beat of a burst, 512 bits; byte 0 is bits 7..0 (R115, R4). -/
abbrev Beat := BitVec 512

/-- The number of a scalar register s0–s31 (R212). -/
abbrev Reg := BitVec 5

end Sys2Proof
end

