-- ==== Sys2Proof/Config.lean ====
section
/-!
DEFINITION. What the implementation fixes and the values the manual leaves free. A free value is an opaque
constant: no proof can see it, so a claim about the machine is true whatever it is.
-/

namespace Sys2Proof.Config

/-- Free numbers: which free dependence-table entry and which generation a task takes (R305), which entry a
full TLB gives up (R289). Applied to the counter `State.free`. Log 10. -/
opaque freeNat : Nat → Nat

/-- Free choices: whether a cached line or translation that is out of date still answers (R220, R289, R338).
Applied to the counter `State.free`. Log 10. -/
opaque freeBit : Nat → Bool

/-- Fabric cycles that have passed at a step (R211 CYCLE, R242). Log 8. -/
opaque fabricCycles : Nat → Nat

/-- The 16-bit payload that an accumulator keeps of a NaN with a longer one (R39). Log 68. -/
opaque longPay : Nat → BitVec 16

/-- The bytes of a save area whose layout is fixed for DOMLOAD alone (R363): its core state and, in a deep save, its channel
buffers. Applied to the counter `State.free`. Log 32. -/
opaque savedBytes : Nat → List Byte

/-- What DOMLOAD finds the saved state by in those bytes of a save area's cores, given as cells (R363). Log 32. -/
opaque savedKey : List (List (Nat × Byte)) → Nat

/-- The fused SHA-256 digest of the public key that firmware images are signed for (R400). Log 4. -/
opaque fusedKeyDigest : List Byte

/-- The fused secret that the device identity key comes from (R401). Log 4. -/
opaque identitySecret : Nat

/-- The nonces of attestation signatures (R401). Applied to the counter `State.free`. Log 4. -/
opaque attestNonce : Nat → Nat

/-- Bytes that the device attached to each CXL port provides (R277). Log 11. -/
opaque cxlBytes : Nat → Nat

/-- Whether the host die exposes a 64 KiB frame of its range (R277). Log 11. -/
opaque hostFrame : Nat → Bool

/-- Cores of the package grid, 32 rows × 16 columns (R1). -/
def coreCount : Nat := 512

/-- Columns of the package grid (R1). -/
def gridCols : Nat := 16

/-- Rows of the package grid (R1). -/
def gridRows : Nat := 32

end Sys2Proof.Config
end

