-- ==== Sys2Proof/Syntax.lean ====
section
/-!
DEFINITION. The syntax of the machine's steps: one constructor per row of the opcode table. A scalar instruction carries
its operand fields, a stream command its image (R243), a fabric node its record (R48–R57), an event what it happens to.
-/

namespace Sys2Proof

/-- A command image less its code byte: target, flags and words w1–w3 (R243). -/
structure CmdArgs where
  target : BitVec 16
  flags  : BitVec 8
  w1     : BitVec 32
  w2     : BitVec 32
  w3     : BitVec 32
  deriving DecidableEq, Repr

/-- A node record less its opcode byte: w0's modes (R49), w1's inputs (R54), w2's outputs (R55), the constants k0–k3 (R56)
and w7 (R57). -/
structure NodeRec where
  fmt    : BitVec 6
  abs    : BitVec 2
  rnd    : BitVec 2
  bsm    : BitVec 2
  blen   : BitVec 6
  dom    : BitVec 2
  var    : BitVec 4
  inA    : BitVec 8
  inB    : BitVec 8
  inC    : BitVec 8
  ad     : Bool
  bd     : Bool
  cd     : Bool
  aft    : Bool
  rsv1   : BitVec 4
  outX   : BitVec 12
  outY   : BitVec 12
  aftSrc : BitVec 8
  k0     : BitVec 32
  k1     : BitVec 32
  k2     : BitVec 32
  k3     : BitVec 32
  stOff  : BitVec 16
  rsv7   : BitVec 16
  deriving DecidableEq, Repr

/-- Where a corrected soft error lies (R354–R356): a scratchpad bank 0–15 of a tile 0–3 of a core (bank 16 is the spare),
a way of a core's cache slice, an LPDDR6 channel, or other protected state of a core. -/
inductive ErrorSite where
  | bank (core tile bank : Nat)
  | way (core way : Nat)
  | dram (channel : Nat)
  | other (core : Nat)
  deriving DecidableEq, Repr

/-- What firmware retags (R392): a core, a queue, a channel grant of a partition's PVC0 or PVC1 (R391), or a home group. -/
inductive RetagSite where
  | core (core tag : Nat) (assigned : Bool)
  | queue (q tag : Nat) (assigned : Bool)
  | grant (part : Nat) (high : Bool) (value : BitVec 64)
  | homeGroup (g : Nat) (value : BitVec 64)
  deriving DecidableEq, Repr

/-- A firmware image as the boot ROM reads it (R400): its bytes, the public key that comes with it and its signature, its version,
and whether it fits its header. -/
structure FirmwareImage where
  bytes     : List Byte
  key       : List Byte
  signature : List Byte
  version   : Nat
  fits      : Bool
  deriving DecidableEq, Repr

/-- An access of host software to a queue's window (R390): the queue, and the partition that the access comes from. -/
structure QueueAccess where
  queue  : Nat
  source : Nat
  deriving DecidableEq, Repr

/-- A pre-emption that firmware asks for (R358): the team, and the address of its save area. -/
structure StopOrder where
  team : Nat
  area : Nat
  deriving DecidableEq, Repr

/-- The machine's steps, one constructor per row of the opcode table; those without operands stand last. -/
inductive Instr where
  /-- ADD: R214. -/
  | add (d a b : Reg)
  /-- SUB: R214. -/
  | sub (d a b : Reg)
  /-- AND: R214. -/
  | and (d a b : Reg)
  /-- OR: R214. -/
  | or (d a b : Reg)
  /-- XOR: R214. -/
  | xor (d a b : Reg)
  /-- SLL: R214. -/
  | sll (d a b : Reg)
  /-- SRL: R214. -/
  | srl (d a b : Reg)
  /-- SRA: R214. -/
  | sra (d a b : Reg)
  /-- SLT: R214. -/
  | slt (d a b : Reg)
  /-- SLTU: R214. -/
  | sltu (d a b : Reg)
  /-- MUL: R214. -/
  | mul (d a b : Reg)
  /-- MULH: R214. -/
  | mulh (d a b : Reg)
  /-- MULHU: R214. -/
  | mulhu (d a b : Reg)
  /-- DIV: R215. -/
  | div (d a b : Reg)
  /-- DIVU: R215. -/
  | divu (d a b : Reg)
  /-- REM: R215. -/
  | rem (d a b : Reg)
  /-- REMU: R215. -/
  | remu (d a b : Reg)
  /-- MIN: R214. -/
  | min (d a b : Reg)
  /-- MAX: R214. -/
  | max (d a b : Reg)
  /-- MINU: R214. -/
  | minu (d a b : Reg)
  /-- MAXU: R214. -/
  | maxu (d a b : Reg)
  /-- CLZ: R214. -/
  | clz (d a : Reg)
  /-- CTZ: R214. -/
  | ctz (d a : Reg)
  /-- POPC: R214. -/
  | popc (d a : Reg)
  /-- ADDI: R216. -/
  | addi (d a : Reg) (imm : BitVec 16)
  /-- ANDI: R216. -/
  | andi (d a : Reg) (imm : BitVec 16)
  /-- ORI: R216. -/
  | ori (d a : Reg) (imm : BitVec 16)
  /-- XORI: R216. -/
  | xori (d a : Reg) (imm : BitVec 16)
  /-- SLTI: R216. -/
  | slti (d a : Reg) (imm : BitVec 16)
  /-- SLTIU: R216. -/
  | sltiu (d a : Reg) (imm : BitVec 16)
  /-- SLLI: R216. -/
  | slli (d a : Reg) (sh : BitVec 6)
  /-- SRLI: R216. -/
  | srli (d a : Reg) (sh : BitVec 6)
  /-- SRAI: R216. -/
  | srai (d a : Reg) (sh : BitVec 6)
  /-- LUI: R216. -/
  | lui (d : Reg) (imm : BitVec 16)
  /-- LUIH: R216. -/
  | luih (d : Reg) (imm : BitVec 16)
  /-- BEQ: R217. -/
  | beq (a b : Reg) (off : BitVec 16)
  /-- BNE: R217. -/
  | bne (a b : Reg) (off : BitVec 16)
  /-- BLT: R217. -/
  | blt (a b : Reg) (off : BitVec 16)
  /-- BGE: R217. -/
  | bge (a b : Reg) (off : BitVec 16)
  /-- BLTU: R217. -/
  | bltu (a b : Reg) (off : BitVec 16)
  /-- BGEU: R217. -/
  | bgeu (a b : Reg) (off : BitVec 16)
  /-- JAL: R218. -/
  | jal (off : BitVec 26)
  /-- JALR: R218. -/
  | jalr (d a : Reg) (imm : BitVec 16)
  /-- LDB: R219. -/
  | ldb (d a : Reg) (imm : BitVec 16)
  /-- LDBU: R219. -/
  | ldbu (d a : Reg) (imm : BitVec 16)
  /-- LDH: R219. -/
  | ldh (d a : Reg) (imm : BitVec 16)
  /-- LDHU: R219. -/
  | ldhu (d a : Reg) (imm : BitVec 16)
  /-- LDW: R219. -/
  | ldw (d a : Reg) (imm : BitVec 16)
  /-- LDWU: R219. -/
  | ldwu (d a : Reg) (imm : BitVec 16)
  /-- LDD: R219. -/
  | ldd (d a : Reg) (imm : BitVec 16)
  /-- STB: R219. -/
  | stb (r a : Reg) (imm : BitVec 16)
  /-- STH: R219. -/
  | sth (r a : Reg) (imm : BitVec 16)
  /-- STW: R219. -/
  | stw (r a : Reg) (imm : BitVec 16)
  /-- STD: R219. -/
  | std (r a : Reg) (imm : BitVec 16)
  /-- AMOADD: R221. -/
  | amoadd (d a b : Reg) (scope : BitVec 3) (narrow : Bool)
  /-- AMOSWAP: R221. -/
  | amoswap (d a b : Reg) (scope : BitVec 3) (narrow : Bool)
  /-- AMOCAS: R221. -/
  | amocas (d a b : Reg) (scope : BitVec 3) (narrow : Bool)
  /-- AMOMIN: R221. -/
  | amomin (d a b : Reg) (scope : BitVec 3) (narrow : Bool)
  /-- AMOMAX: R221. -/
  | amomax (d a b : Reg) (scope : BitVec 3) (narrow : Bool)
  /-- AMOMINU: R221. -/
  | amominu (d a b : Reg) (scope : BitVec 3) (narrow : Bool)
  /-- AMOMAXU: R221. -/
  | amomaxu (d a b : Reg) (scope : BitVec 3) (narrow : Bool)
  /-- AMOAND: R221. -/
  | amoand (d a b : Reg) (scope : BitVec 3) (narrow : Bool)
  /-- AMOOR: R221. -/
  | amoor (d a b : Reg) (scope : BitVec 3) (narrow : Bool)
  /-- AMOXOR: R221. -/
  | amoxor (d a b : Reg) (scope : BitVec 3) (narrow : Bool)
  /-- FENCE: R222. -/
  | fence (scope : BitVec 3)
  /-- CMDW: R225. -/
  | cmdw (c : BitVec 3) (a b : Reg)
  /-- CMDLD: R225. -/
  | cmdld (c : BitVec 3) (a : Reg) (imm : BitVec 16)
  /-- CMDI: R226. -/
  | cmdi (c : BitVec 3) (target : BitVec 12)
  /-- CMDQ: R227. -/
  | cmdq (d a : Reg) (c : BitVec 3)
  /-- TSEND: R228. -/
  | tsend (a b : Reg) (box : BitVec 3)
  /-- TRECV: R229. -/
  | trecv (d a : Reg) (box : BitVec 3)
  /-- IWAIT: R231. -/
  | iwait (d a : Reg) (dom : BitVec 2)
  /-- BARI: R232. -/
  | bari (a : Reg) (k : BitVec 4)
  /-- BARA: R232. -/
  | bara (a : Reg) (k : BitVec 4)
  /-- BARW: R232. -/
  | barw (d a : Reg) (k : BitVec 4)
  /-- BARAW: R232. -/
  | baraw (d a : Reg) (k : BitVec 4)
  /-- SIG: R234. -/
  | sig (d a b : Reg)
  /-- SPAWN: R234. -/
  | spawn (d a : Reg)
  /-- JOIN: R234. -/
  | join (d a : Reg)
  /-- CSRR: R235. -/
  | csrr (d : Reg) (csr : BitVec 12)
  /-- CSRW: R235. -/
  | csrw (a : Reg) (csr : BitVec 12)
  /-- CSRS: R235. -/
  | csrs (a : Reg) (csr : BitVec 12)
  /-- CSRC: R235. -/
  | csrc (a : Reg) (csr : BitVec 12)
  /-- TRAP: R237. -/
  | trap (code : BitVec 12)
  /-- BRK: R237. -/
  | brk (code : BitVec 12)
  /-- WATCHDOG: R238. -/
  | watchdog (core : Nat)
  /-- HOST_SERVICE_ANSWER: R237. -/
  | hostServiceAnswer (core : Nat) (answer : BitVec 64)
  /-- FEED: R249. -/
  | feed (c : CmdArgs)
  /-- BINDW: R249. -/
  | bindw (c : CmdArgs)
  /-- BOUND: R252. -/
  | bound (c : CmdArgs)
  /-- STEERT: R252. -/
  | steert (c : CmdArgs)
  /-- INJECT: R252. -/
  | inject (c : CmdArgs)
  /-- RETRY: R253. -/
  | retry (c : CmdArgs)
  /-- TARM: R254. -/
  | tarm (c : CmdArgs)
  /-- TFIRE: R255. -/
  | tfire (c : CmdArgs)
  /-- TDISARM: R255. -/
  | tdisarm (c : CmdArgs)
  /-- COPY: R255. -/
  | copy (c : CmdArgs)
  /-- LXRUN: R256. -/
  | lxrun (c : CmdArgs)
  /-- CFGLD: R257. -/
  | cfgld (c : CmdArgs)
  /-- CFGQ: R258. -/
  | cfgq (c : CmdArgs)
  /-- DOMGO: R259. -/
  | domgo (c : CmdArgs)
  /-- DOMSTOP: R259. -/
  | domstop (c : CmdArgs)
  /-- DOMSAVE: R260. -/
  | domsave (c : CmdArgs)
  /-- DOMLOAD: R260. -/
  | domload (c : CmdArgs)
  /-- WHEELDEF: R261. -/
  | wheeldef (c : CmdArgs)
  /-- HUBRD: R262. -/
  | hubrd (c : CmdArgs)
  /-- AMXR: R263. -/
  | amxr (c : CmdArgs)
  /-- CKPT: R265. -/
  | ckpt (c : CmdArgs)
  /-- CKDRAIN: R265. -/
  | ckdrain (c : CmdArgs)
  /-- BKEY: R264. -/
  | bkey (c : CmdArgs)
  /-- LINKCFG: R266. -/
  | linkcfg (c : CmdArgs)
  /-- LINKSTAT: R266. -/
  | linkstat (c : CmdArgs)
  /-- DOMAIN_INSTANT_END: R130. -/
  | domainInstantEnd (region dom : Nat)
  /-- REMOTE_STATUS_RECEIVE: R124. -/
  | remoteStatusReceive (core endpoint : Nat) (parityLost : Bool)
  /-- QUIESCENCE_SAMPLE: R128. -/
  | quiescenceSample (region : Nat)
  /-- PATH_CLOCK_GATE: R133. -/
  | pathClockGate (core tile : Nat)
  /-- BANK_KEY_MOVE: R264. -/
  | bankKeyMove (core bank : Nat)
  /-- PASS: R105. -/
  | pass (r : NodeRec)
  /-- SRC: R144. -/
  | src (r : NodeRec)
  /-- SINK: R145. -/
  | sink (r : NodeRec)
  /-- ESINK: R146. -/
  | esink (r : NodeRec)
  /-- CPYT: R147. -/
  | cpyt (r : NodeRec)
  /-- LTX: R367. -/
  | ltx (r : NodeRec)
  /-- LRX: R368. -/
  | lrx (r : NodeRec)
  /-- SREQ: R372. -/
  | sreq (r : NodeRec)
  /-- RED2: R371. -/
  | red2 (r : NodeRec)
  /-- STATW: R373. -/
  | statw (r : NodeRec)
  /-- AADD: R81. -/
  | aadd (r : NodeRec)
  /-- ASUB: R81. -/
  | asub (r : NodeRec)
  /-- AHAD: R81. -/
  | ahad (r : NodeRec)
  /-- AMAX: R81. -/
  | amax (r : NodeRec)
  /-- AMIN: R81. -/
  | amin (r : NodeRec)
  /-- ASEL: R81. -/
  | asel (r : NodeRec)
  /-- AFMA: R81. -/
  | afma (r : NodeRec)
  /-- ANEG: R85. -/
  | aneg (r : NodeRec)
  /-- AABS: R85. -/
  | aabs (r : NodeRec)
  /-- ARELU: R85. -/
  | arelu (r : NodeRec)
  /-- ASCL: R85. -/
  | ascl (r : NodeRec)
  /-- AMASK: R19. -/
  | amask (r : NodeRec)
  /-- ACLMP: R85. -/
  | aclmp (r : NodeRec)
  /-- AREN: R87. -/
  | aren (r : NodeRec)
  /-- AEXP2: R86. -/
  | aexp2 (r : NodeRec)
  /-- ALOG2: R86. -/
  | alog2 (r : NodeRec)
  /-- ARCP: R86. -/
  | arcp (r : NodeRec)
  /-- ARSQ: R86. -/
  | arsq (r : NodeRec)
  /-- ASQRT: R86. -/
  | asqrt (r : NodeRec)
  /-- ATANH: R86. -/
  | atanh (r : NodeRec)
  /-- ASIGM: R86. -/
  | asigm (r : NodeRec)
  /-- ADOT_W: R97. -/
  | adotW (r : NodeRec)
  /-- ADOT_P: R90. -/
  | adotP (r : NodeRec)
  /-- ADOTT: R97. -/
  | adott (r : NodeRec)
  /-- AOUTR: R99. -/
  | aoutr (r : NodeRec)
  /-- ANRM: R90. -/
  | anrm (r : NodeRec)
  /-- ALSUM: R90. -/
  | alsum (r : NodeRec)
  /-- AMAXR: R94. -/
  | amaxr (r : NodeRec)
  /-- ENC: R88. -/
  | enc (r : NodeRec)
  /-- DEC: R89. -/
  | dec (r : NodeRec)
  /-- ACC: R169. -/
  | acc (r : NodeRec)
  /-- ACC_F: R106. -/
  | accF (r : NodeRec)
  /-- ACCK: R170. -/
  | acck (r : NodeRec)
  /-- DRAIN: R172. -/
  | drain (r : NodeRec)
  /-- DLYB: R175. -/
  | dlyb (r : NodeRec)
  /-- CONV: R176. -/
  | conv (r : NodeRec)
  /-- MRD: R183. -/
  | mrd (r : NodeRec)
  /-- MWR: R184. -/
  | mwr (r : NodeRec)
  /-- MIRD: R104. -/
  | mird (r : NodeRec)
  /-- MIWR: R186. -/
  | miwr (r : NodeRec)
  /-- MRMW: R186. -/
  | mrmw (r : NodeRec)
  /-- MGRP: R189. -/
  | mgrp (r : NodeRec)
  /-- MGLD: R185. -/
  | mgld (r : NodeRec)
  /-- MGST: R185. -/
  | mgst (r : NodeRec)
  /-- MFIFO: R190. -/
  | mfifo (r : NodeRec)
  /-- MLINE: R191. -/
  | mline (r : NodeRec)
  /-- STEER: R148. -/
  | steer (r : NodeRec)
  /-- OMERGE: R151. -/
  | omerge (r : NodeRec)
  /-- PMERGE: R152. -/
  | pmerge (r : NodeRec)
  /-- FILTER: R150. -/
  | filter (r : NodeRec)
  /-- REPL: R158. -/
  | repl (r : NodeRec)
  /-- CNT: R160. -/
  | cnt (r : NodeRec)
  /-- ISECT: R103. -/
  | isect (r : NodeRec)
  /-- UNION: R162. -/
  | union (r : NodeRec)
  /-- PRES: R153. -/
  | pres (r : NodeRec)
  /-- DFLT: R107. -/
  | dflt (r : NodeRec)
  /-- PRE: R157. -/
  | pre (r : NodeRec)
  /-- WHEN: R149. -/
  | when (r : NodeRec)
  /-- SYNC: R154. -/
  | sync (r : NodeRec)
  /-- LEVEL: R159. -/
  | level (r : NodeRec)
  /-- IADD: R164. -/
  | iadd (r : NodeRec)
  /-- ISUB: R164. -/
  | isub (r : NodeRec)
  /-- IMUL: R164. -/
  | imul (r : NodeRec)
  /-- ILOG: R164. -/
  | ilog (r : NodeRec)
  /-- ISHF: R164. -/
  | ishf (r : NodeRec)
  /-- ICMP: R164. -/
  | icmp (r : NodeRec)
  /-- IRNG: R163. -/
  | irng (r : NodeRec)
  /-- IHASH: R165. -/
  | ihash (r : NodeRec)
  /-- PLOG: R164. -/
  | plog (r : NodeRec)
  /-- COPY_START: R292. -/
  | copyStart (core : Nat)
  /-- COPY_COMPLETE: R295. -/
  | copyComplete (core : Nat)
  /-- END_OF_TILE_DELIVERY: R230. -/
  | endOfTileDelivery (core : Nat)
  /-- PAGE_WALK_COMPLETE: R288. -/
  | pageWalkComplete (die part page : Nat)
  /-- TLB_INVALIDATION: R289. -/
  | tlbInvalidation (part : Nat)
  /-- CHECKPOINT_DRAIN_COMPLETE: R265. -/
  | checkpointDrainComplete (part slot : Nat)
  /-- HUB_READ: R341. -/
  | hubRead (core : Nat)
  /-- BARRIER_ARRIVAL: R233. -/
  | barrierArrival (src home k : Nat)
  /-- SIGNAL_ARRIVAL: R320. -/
  | signalArrival (src : Nat)
  /-- QUEUE_RECORD_WRITE: R303. -/
  | queueRecordWrite (q : QueueAccess) (whole : Bool) (record : BitVec 512)
  /-- QKILL: R313. -/
  | qkill (q : QueueAccess) (handle : BitVec 32)
  /-- QERR_CLEAR: R303. -/
  | qerrClear (q : QueueAccess) (ones : BitVec 64)
  /-- HOST_EVENT_WRITE: R306. -/
  | hostEventWrite (part word : Nat) (value : BitVec 64)
  /-- COMPLETION_EVENT_POST: R306. -/
  | completionEventPost (task : Nat)
  /-- PREEMPT: R358. -/
  | preempt (order : StopOrder)
  /-- DEEP_SAVE_TIMEOUT: R358. -/
  | deepSaveTimeout (team : Nat)
  /-- RESUME: R300. -/
  | resume (team : Nat)
  /-- TAGGED_BANK_EVICT: R361. -/
  | taggedBankEvict (core bank : Nat)
  /-- CORRECTED_ERROR: R354. -/
  | correctedError (site : ErrorSite)
  /-- BANK_RETIRE: R355. -/
  | bankRetire (core bank : Nat)
  /-- CORE_FAILED: R357. -/
  | coreFailed (core : Nat)
  /-- DATA_FLIT_RECEIVE: R378. -/
  | dataFlitReceive (port : Nat) (flit : BitVec 512) (damaged : Bool)
  /-- ACK_RECEIVE: R379. -/
  | ackReceive (port : Nat) (flit : BitVec 512)
  /-- REPLAY_REQUEST_RECEIVE: R379. -/
  | replayRequestReceive (port : Nat) (flit : BitVec 512)
  /-- CREDIT_RECEIVE: R377. -/
  | creditReceive (port : Nat) (flit : BitVec 512)
  /-- PORT_DOWN: R380. -/
  | portDown (port : Nat)
  /-- PORT_RETRAIN: R380. -/
  | portRetrain (port : Nat)
  /-- PARTITION_RESET: R395. -/
  | partitionReset (part : Nat)
  /-- RESET_DONE_CLEAR: R391. -/
  | resetDoneClear (part : Nat)
  /-- CORE_REPAIR_TEST: R396. -/
  | coreRepairTest (core : Nat) (passed : Bool)
  /-- RETAG: R392. -/
  | retag (what : RetagSite)
  /-- REGISTER_WRITE: R390. -/
  | registerWrite (offset : Nat) (value : BitVec 64) (privileged : Bool)
  /-- BOUNDARY_DROP: R393. -/
  | boundaryDrop (core route : Nat)
  /-- FIRMWARE_SWITCH: R397. -/
  | firmwareSwitch (part : Nat)
  /-- BOOT: R400. -/
  | boot (image : FirmwareImage)
  /-- ATTESTATION_REQUEST: R401. -/
  | attestationRequest (nonce : BitVec 256) (part : Nat)
  /-- POWER_STATE_REQUEST: R402. -/
  | powerStateRequest (core : Nat) (state : BitVec 2)
  /-- POWER_REFUSAL_CLEAR: R402. -/
  | powerRefusalClear (core : Nat)
  /-- CLOCK_STEP_CHANGE: R403. -/
  | clockStepChange (clk : BitVec 2)
  /-- ILLEGAL_INSTRUCTION: R213. -/
  | illegalInstruction (word : BitVec 32)
  /-- INSTRUCTION_FETCH_FAULT: R218. -/
  | instructionFetchFault (translation : Bool)
  /-- UNASSIGNED_COMMAND_CODE: R247. -/
  | unassignedCommandCode (code : BitVec 8) (c : CmdArgs)
  /-- FIRMWARE_UPDATE: R400. -/
  | firmwareUpdate (image : FirmwareImage)
  /-- SYSTEM_SOFTWARE_PAGE_ANSWER: R350. -/
  | systemSoftwarePageAnswer (core : Nat) (answer : Option (List (Nat × BitVec 64)))
  /-- UNKNOWN_FLIT_TYPE_RECEIVE: R378. -/
  | unknownFlitTypeReceive (port : Nat) (flit : BitVec 512)
  /-- TRET: R237. -/
  | tret
  /-- YIELD: R240. -/
  | yield
  /-- SYNCI: R241. -/
  | synci
  /-- TASK_START: R314. -/
  | taskStart
  /-- ERROR_WINDOW_END: R355. -/
  | errorWindowEnd
  /-- SELF_REFRESH_ENTER: R404. -/
  | selfRefreshEnter
  /-- SELF_REFRESH_EXIT: R404. -/
  | selfRefreshExit
  deriving DecidableEq, Repr

end Sys2Proof
end

