-- ==== Sys2Proof/Machine/State.lean ====
section
/-!
DEFINITION. The state of the package as plain data: memories, cores, regions and teams, the dispatcher, partitions, links,
power and boot; the reasons a step can stop; and the state after reset.
-/

namespace Sys2Proof.Machine

/-- A table by number: rising numbers, none twice. An unlisted number holds the table's default. -/
abbrev Tab (α : Type) := List (Nat × α)

/-! ### The fabric's data -/

/-- A long accumulator (R39). A cleared one is `Acc.zero`. -/
structure Acc where
  w      : Int
  a      : Int
  sticky : Bool
  empty  : Bool
  nan    : Bool
  pay    : BitVec 16
  m      : Int
  deriving DecidableEq, Repr

/-- A burst: its 32-bit header (R115) and its beats. -/
structure Burst where
  hdr   : BitVec 32
  beats : List Beat
  deriving DecidableEq, Repr

/-- A status of one instant: absent, or present with a burst (R119). -/
abbrev Status := Option Burst

/-- A tensor layout record as a command reads it (R267). -/
structure TRec where
  base      : BitVec 64
  fmt       : Nat
  rank      : Nat
  axis      : Nat
  readOnly  : Bool
  blockMode : Nat
  blockLen  : Nat
  plane     : BitVec 64
  texp      : Int
  ext       : List Nat
  str       : List Int
  org       : List Nat
  prog      : Nat
  comp      : Nat
  deriving DecidableEq, Repr

/-- A fault that holds a port or the copy engine: its code 0x31 or 0x32 and the address (R290, R291). -/
structure Hold where
  code : Nat
  addr : Nat
  deriving DecidableEq, Repr


/-- A wheel of a team (R261, R339). -/
structure Wheel where
  fmt     : Nat
  op      : Nat
  error   : Bool
  sat     : Bool
  bar     : Nat
  len     : Nat
  members : List (Nat × Nat)
  deriving DecidableEq, Repr

/-- A hub read under way: the definition it completes under (none: the wheel is undefined), offset, beats, phase, and the
local offset HUBRD writes to (R261, R262, R341). -/
structure HubJob where
  wheel : Option Wheel
  off   : Nat
  beats : Nat
  phase : BitVec 16
  dest  : Nat
  deriving DecidableEq, Repr

/-- A fabric node: its record, its registers, and all it keeps between instants (R77, R137, R167). `shadow` says that its store
waits for a free shadow page (R365), `steered` the RSEL that a DRAIN held before the last token it took, with that token's instant (R174),
`wthen` the weights of an instant of ADOT.W that a mismatch of A did not leave in the node
(R75, R98), `broken` that what it keeps holds an uncorrectable error (R356). `down` is, for an LRX
whose port has gone down, the frames delivered before that it has still to emit (R380). -/
structure Node where
  op      : Nat
  rcd     : NodeRec
  regs    : Tab (BitVec 32)
  inst    : Nat
  phase   : Nat
  d       : Tab Burst
  acc     : Tab Acc
  keys    : List (BitVec 32)
  wts     : List (BitVec 64)
  wbeta   : Int
  wthen   : Option (Nat × List (BitVec 64) × Int)
  bind    : Option TRec
  burst   : Nat
  hold    : Option Hold
  prog    : Nat
  part    : List Nat
  toks    : List (Nat × Nat × Burst)
  exh     : Bool
  emitted : Nat
  hub     : Option HubJob
  hubRes  : Option Burst
  handed  : List Nat
  quiet   : Nat
  shadow  : Bool
  broken  : Bool
  down    : Option Nat
  steered : Option (Nat × BitVec 32) := none
  deriving DecidableEq, Repr

/-- A channel: its table entry (R66), the statuses waiting at the consumer and those on the wire (R114, R124), each with one
more than the producer's instant. The status an input delays (R122) waits here too, ahead of the others, from 0 on. -/
structure Chan where
  ent  : BitVec 64
  q    : List (Nat × Status)
  wire : List (Nat × Status)
  deriving DecidableEq, Repr

/-- A memory-mode record (R66, R177). -/
structure MemMode where
  tile   : Nat
  mode   : Nat
  bufs   : Nat
  owner  : Nat
  base   : Nat
  len    : Nat
  param  : BitVec 32
  deriving DecidableEq, Repr

/-- The configuration of one core (R65): nodes by id, channels by endpoint, routes by id, schedule, modes, and the holder
of each bank's key by 16·tile + bank, with the moves under way (R179, R264); bursts dropped at a boundary guard by route, the node
that sent the last of them, and statuses on their way to one, each with its route and the node that sent it (R393, R394); bindings that memory nodes have given up while others of their tile lagged: node,
instant, first byte and the byte after the last (R331). -/
structure Cfg where
  nodes  : Tab Node
  chans  : Tab Chan
  routes : Tab (BitVec 64)
  sched  : List Nat
  modes  : List MemMode
  keys   : Tab Nat
  moves  : Tab Nat
  drops  : Tab Nat
  dropper : Tab Nat := []
  egress : List (Nat × Nat × Status)
  past   : List (Nat × Nat × Int × Int) := []
  deriving DecidableEq, Repr

/-! ### The core -/

/-- An inbox entry: what TRECV writes to sd (R229), its header, its beats, and whether one of these has an uncorrectable
error (R210). -/
structure InEntry where
  sd    : BitVec 64
  hdr   : BitVec 32
  beats : List Beat
  bad   : Bool := false
  deriving DecidableEq, Repr

/-- A barrier: expected count, arrivals, phase (R205, R233). -/
structure Barrier where
  n : BitVec 16
  a : BitVec 16
  p : BitVec 16
  deriving DecidableEq, Repr

/-- What a controller is doing: idle without a task (R207); running; halted (R237, R357); stopped for pre-emption (R239);
in firmware, waiting for the host's answer (R237) or for system software's (R350). -/
inductive Run where
  | idle
  | running
  | halted
  | stopped
  | service
  | pageWait
  deriving DecidableEq, Repr

/-- A wait that an instruction leaves behind once it has acted (R238, R239): `seq` is the place in the order of issue of the command,
signal or arrival it sent, by which its answer finds it. -/
inductive Pend where
  | none
  | cmdq (d : Reg) (seq : Nat) (result : Option (BitVec 64))
  | sig (d : Reg) (seq : Nat) (result : Option (BitVec 64))
  | baraw (d : Reg) (home k seq : Nat) (round : Option (BitVec 16))
  deriving DecidableEq, Repr

/-- The controller (R205, R211). `kept` holds the waits that traps of the watchdog keep, the last one first (R238); `shadow` INSTRET as it
stood when a store or AMO found that it waits for a shadow (R365). CYCLE counts from the step `start` on, beyond the `cycles` counted before a stop (R239). -/
structure Ctl where
  regs      : Vector (BitVec 64) 32
  ip        : BitVec 64
  cr        : Vector (BitVec 128) 8
  fw        : Bool
  fwPrev    : Bool
  trb       : BitVec 64
  inboxLost : BitVec 32
  psel      : BitVec 4
  tvec      : BitVec 64
  trapCause : BitVec 64
  trapIp    : BitVec 64
  trapVal   : BitVec 64
  tscratch  : BitVec 64
  wdog      : BitVec 32
  instret   : BitVec 64
  start     : Nat
  cycles    : Nat
  inbox     : Vector (List InEntry) 8
  outbox    : Vector (List Status) 8
  bars      : Vector Barrier 16
  run       : Run
  pend      : Pend
  kept      : List Pend
  shadow    : Option (BitVec 64)
  preempt   : Bool
  dcache    : Tab (List Host.Cell)
  icache    : Tab (List Host.Cell)
  deriving DecidableEq, Repr

/-- A queued command: image, issuing core (by position), whether by CMDQ, the issuer's TRB and mode (R244), its place in the
order of issue (R109), and whether the save that it makes waits for a shadow (R365). -/
structure QCmd where
  seq    : Nat
  img    : BitVec 128
  issuer : Nat
  viaQ   : Bool
  trb    : BitVec 64
  fw     : Bool
  waits  : Bool := false
  deriving DecidableEq, Repr

/-- A copy template (R254), with the layout program it runs. -/
structure Template where
  src   : TRec
  dst   : TRec
  red   : Nat
  core  : Nat
  box   : Nat
  once  : Bool
  prog  : List (BitVec 64)
  deriving DecidableEq, Repr

/-- A trigger in placing order (R292): its template, or none for COPY with the job itself. -/
structure Trig where
  tpl   : Option Nat
  job   : Option Template
  level : Nat
  value : BitVec 32
  empty : Bool
  deriving DecidableEq, Repr

/-- A copy that has begun: destination elements performed, the source reads performed for those of the next beat (their bits; none for a
lost beat), the read of the next one's resident value under a reduction, bytes written, beats lost (R291, R295), the listed banks of PIPE hand-overs it wrote, by core position and bank (R312),
and whether all its elements have been performed. -/
structure CopyJob where
  tpl    : Option Nat
  t      : Template
  level  : Nat
  value  : BitVec 32
  empty  : Bool
  done   : Nat
  seen   : List (Option Nat)
  bytes  : Nat
  lost   : List Nat
  wrote  : List (Nat × Nat)
  moved  : Bool
  old    : Option (Option Nat) := none
  deriving DecidableEq, Repr

/-- An end-of-tile that waits for room in an inbox of a logical core (R230), with the listed banks its copy wrote (R312). -/
structure Eot where
  core  : Nat
  box   : Nat
  ent   : InEntry
  gives : List (Nat × Nat)
  deriving DecidableEq, Repr

/-- The copy engine (R292–R295). -/
structure CopyEng where
  templates : Tab Template
  trigs     : List Trig
  jobs      : List CopyJob
  eots      : List Eot
  count     : Nat
  hold      : Option Hold
  deriving DecidableEq, Repr

/-- A held translation: partition, page address, page size, leaf entry (R289). -/
structure TlbEnt where
  part : Nat
  page : Nat
  size : Nat
  pte  : BitVec 64
  deriving DecidableEq, Repr

/-- A core: controller, command unit, copy engine, configuration, power, errors (R112, R205). A failed core is `repaired` once
its partition has been reset, so that firmware may test it, and `dead` once it has failed the test (R396). -/
structure Core where
  ctl      : Ctl
  unit     : List QCmd
  ce       : CopyEng
  cfg      : Option Cfg
  team     : Option Nat
  region   : Option Nat
  tag      : Nat
  assigned : Bool
  failed   : Bool
  repaired : Bool
  dead     : Bool
  power    : BitVec 2
  request  : BitVec 2
  refused  : Bool
  tlb      : List TlbEnt
  walkBad  : List (Nat × Nat)
  hubCmd   : Option HubJob
  bankErr  : Tab Nat
  wayErr   : Tab Nat
  spare    : Tab Nat
  copying  : List Nat
  lostWays : BitVec 16
  gated    : List Nat
  bankTags : Tab (BitVec 32)
  deriving DecidableEq, Repr

/-! ### Regions, teams, tasks -/

/-- A domain of a region (R130, R259): counter, limit, unlimited bit, done, stopped by a fault, and the instants in which
a status was present. -/
structure Dom where
  ctr     : Nat
  lim     : Nat
  unlim   : Bool
  done    : Bool
  stopped : Bool
  live    : List Nat
  deriving DecidableEq, Repr

/-- A region: its rectangle, partition and configuration (R64, R68–R70, R315). -/
structure Region where
  row        : Nat
  col        : Nat
  h          : Nat
  w          : Nat
  part       : Nat
  configured : Bool
  ident      : BitVec 256
  image      : BitVec 64
  doms       : List Dom
  detail     : BitVec 64
  begun      : Bool
  fired      : Bool
  quiet      : Bool
  team       : Option Nat
  kept       : Tab Cfg
  deriving DecidableEq, Repr

/-- Where a team stands: running, being stopped, saved, or ended. -/
inductive TeamSt where
  | running
  | stopping
  | saved
  | ended
  deriving DecidableEq, Repr

/-- What a save holds (R359, R360): each logical core, its scratchpad unless resident, the region's domains with the limits
recorded before the stop; the partition and address of its save area (R363), none where none was given, and the handle that
tags its resident banks (R361); the signals parked in the area that it was read from (R300). -/
structure Saved where
  part     : Nat
  area     : Option Nat
  handle   : BitVec 32
  deep     : Bool
  unloaded : Bool
  resident : Bool
  row      : Nat
  col      : Nat
  cores    : List Core
  scratch  : List (List Host.Cell)
  bad      : List (List Nat)
  region   : Region
  wheels   : Tab Wheel
  parked   : List (Nat × Nat) := []
  deriving DecidableEq, Repr

/-- A team: one leaf of a task on one region (R302, R318). `area` is the save area that firmware gave for its pre-emption (R358),
`doom` the code of a fault that ends it faulted (R351). -/
structure Team where
  task   : Nat
  leaf   : Nat
  region : Nat
  part   : Nat
  row    : Nat
  col    : Nat
  h      : Nat
  w      : Nat
  wheels : Tab Wheel
  st     : TeamSt
  limits : List (Nat × Bool)
  deep   : Bool
  order  : Nat
  save   : Option Saved
  area   : Option Nat
  doom   : Option (BitVec 32)
  deriving DecidableEq, Repr

/-- A launch record (R302). -/
structure LaunchRec where
  plan   : BitVec 64
  arg    : BitVec 64
  prio   : Nat
  deps   : List Nat
  event  : Option Nat
  anyway : Bool
  ident  : BitVec 256
  deriving DecidableEq, Repr

/-- A section entry of a leaf (R309). -/
structure Section where
  src : BitVec 64
  len : Nat
  dst : Nat
  deriving DecidableEq, Repr

/-- A node of a plan (R308, R309), in plan order; the children by their places in the list. -/
structure PlanNode where
  kind     : Nat
  cascade  : Bool
  kids     : List Nat
  hand     : List (BitVec 64)
  hasImage : Bool
  worker   : Option (BitVec 64)
  h        : Nat
  w        : Nat
  image    : BitVec 64
  entry    : BitVec 64
  sections : List Section
  deriving DecidableEq, Repr

/-- How a task or a plan node ended: event states 1 done, 2 faulted, 3 killed (R306), and the fault code (R351). -/
structure End where
  st   : Nat
  code : BitVec 32
  deriving DecidableEq, Repr

/-- A plan node while its task runs: started, ended, its team, and its parked signals (core id, barrier; R300, R320). -/
structure PlanSt where
  started : Bool
  ended   : Option End
  team    : Option Nat
  parked  : List (Nat × Nat)
  deriving DecidableEq, Repr

/-- An entry of the dependence table (R305): `srcCore` the team and the
logical core that spawned it, `srcPos` the position where that core last stood, `queue` its source for the round-robin of
R314 (a queue, or 2,048 + the entry of the spawning task), `waits` the dependence events that have not yet left the pending
state (R307), `seq` its place in the order of acceptance. -/
structure Task where
  gen      : Nat
  part     : Nat
  rcd      : LaunchRec
  plan     : List PlanNode
  nodes    : List PlanSt
  srcCore  : Option (Nat × Nat)
  srcPos   : Nat
  parent   : BitVec 32
  queue    : Nat
  eff      : Nat
  passes   : Nat
  waits    : List Nat
  ended    : Option End
  posted   : Bool
  joined   : Bool
  seq      : Nat
  deriving DecidableEq, Repr

/-- A hardware queue (R303). -/
structure Queue where
  tag      : Nat
  assigned : Bool
  recs     : List (BitVec 512)
  ovf      : BitVec 32
  err      : BitVec 3
  ref      : BitVec 8
  deriving DecidableEq, Repr

/-- An arrival on its way to a barrier (R233): sender, home core (by position), number, whether a BARAW waits on it, and its place
in what cores have sent. -/
structure Arrival where
  src  : Nat
  home : Nat
  k    : Nat
  wait : Bool
  seq  : Nat
  deriving DecidableEq, Repr

/-- A signal on its way (R234, R320), with its place in what cores have sent. -/
structure Signal where
  src    : Nat
  part   : Nat
  handle : BitVec 32
  sb     : BitVec 64
  seq    : Nat
  deriving DecidableEq, Repr

/-! ### Partitions, memory services, links -/

/-- A drain of a checkpoint slot: target address, the team and its notified logical core and inbox, the logical core of the
command unit (R265, R366), and whether every page has been written and only the entry waits for room (R230). -/
structure Drain where
  dest     : Nat
  core     : Nat
  box      : Nat
  engine   : Nat
  team     : Nat
  streamed : Bool
  deriving DecidableEq, Repr

/-- A checkpoint slot in use (R265, R365): range in 64 KiB pages, shadows by granule number of the virtual address. -/
structure Slot where
  base    : Nat
  pages   : Nat
  shadows : Tab Nat
  drain   : Option Drain
  deriving DecidableEq, Repr

/-- A partition's registers (R391) and what firmware holds for it: checkpoint slots and shadow pool (R365), the version and the
SHA-256 of its dispatcher firmware and of a staged one (R397, R401), the source served last at each effective priority (R314). -/
structure Part where
  ptroot    : BitVec 64
  pevt      : BitVec 64
  pfq       : BitVec 64
  pfqW      : Nat
  pfqR      : Nat
  pfqLost   : Nat
  lostFlag  : Bool
  pways     : BitVec 64
  pdram     : BitVec 64
  pvc0      : BitVec 64
  pvc1      : BitVec 64
  resetting : Bool
  resetDone : Bool
  slots     : Tab Slot
  pool      : List Nat
  version   : Nat
  digest    : BitVec 256
  staged    : Option (Nat × BitVec 256)
  robin     : Tab Nat
  deriving DecidableEq, Repr

/-- Who waits on a walk: a core (by position) and a node id 0–95, 96 for the copy engine, 97 for the controller. -/
structure Agent where
  core : Nat
  who  : Nat
  deriving DecidableEq, Repr

/-- A table walk in progress (R289): its die, partition, page number (64 KiB units), and the accesses joined to it. -/
structure Walk where
  die    : Nat
  part   : Nat
  page   : Nat
  joined : List Agent
  deriving DecidableEq, Repr

/-- A peer port (R376–R381). `lastReq` and `reqRun` count replay requests received that name one sequence, `lastAsk` and
`askRun` those sent; `given` counts, by channel, the credits that the far end has been given and has not used (R377). -/
structure Port where
  up       : Bool
  ever     : Bool
  en       : BitVec 8
  comp     : BitVec 8
  farEn    : BitVec 8
  txFrames : Vector Nat 8
  rxFrames : Vector Nat 8
  credits  : Vector Nat 8
  given    : Vector Nat 8
  txSeq    : Nat
  unacked  : List (BitVec 512)
  sent     : List (BitVec 512)
  rxSeq    : Nat
  rxAcked  : Nat
  asking   : Bool
  partials : Vector (List Byte) 8
  slots    : Vector (List Burst) 8
  replays  : Nat
  lastReq  : Nat
  reqRun   : Nat
  lastAsk  : Nat
  askRun   : Nat
  badTypes : Nat
  deriving DecidableEq, Repr

/-- Whose turn it is: a controller, a command unit, a node, or an event; or a memory node, or a copy engine as slot 96, that performs
only some beats of its burst or of its copy, which are not atomic as a whole (R333, log 80). -/
inductive Turn where
  | ctl (core : Nat)
  | cmd (core : Nat)
  | node (core slot : Nat)
  | piece (core slot count : Nat)
  | event (i : Instr)
  deriving DecidableEq, Repr

/-! ### The package -/

/-- The state of the package. `short` marks a state that no step ends in: one that still lacks a shadow (R365). Memory is one list of cells: a physical byte at its physical address (R277), a scratchpad
byte of the core at position p at 2^52 + p·2^22 + offset. An unlisted byte reads 0 (log 1). `areas` holds what the bytes of a
save area stand for in the layout that only DOMLOAD reads (R363), by what it finds there, the newest first (log 32); `spares` the spare cores that each
die has given (R1, R396). -/
structure State where
  mem       : List Host.Cell
  bad       : List Nat
  cores     : Tab Core
  dieTlb    : Tab (List TlbEnt)
  walks     : List Walk
  regions   : Tab Region
  teams     : Tab Team
  areas     : Tab Saved
  tasks     : Tab Task
  gens      : Tab Nat
  order     : Nat
  queues    : Tab Queue
  events    : Tab Nat
  homes     : Tab (BitVec 64)
  parts     : Tab Part
  ports     : Tab Port
  arrivals  : List Arrival
  signals   : List Signal
  irqs      : List (BitVec 64)
  calls     : List (Nat × Bool × BitVec 12)
  pageAsks  : List (Nat × Nat)
  thresh    : Tab Nat
  dramErr   : Tab Nat
  booted    : Bool
  bootst    : BitVec 8
  rollback  : Nat
  spares    : Tab Nat
  fwDigest  : BitVec 256
  mailbox   : List Byte
  clock     : BitVec 2
  refresh   : Bool
  refreshNo : Bool
  agenda    : List Turn
  here      : Nat
  slot      : Nat
  steps     : Nat
  free      : Nat
  short     : Bool
  deriving DecidableEq, Repr

/-! ### Values after reset -/

/-- A cleared accumulator (R39). -/
def Acc.zero : Acc := { w := 0, a := 0, sticky := false, empty := true, nan := false, pay := 0, m := 0 }

/-- The controller after reset: the CSRs at R211's values, everything else as log 6 names it. -/
def Ctl.reset : Ctl :=
  { regs := Vector.replicate 32 0, ip := 0, cr := Vector.replicate 8 0, fw := false, fwPrev := false,
    trb := 0x80000000003E0000, inboxLost := 0, psel := 0, tvec := 0xF000000000000000, trapCause := 0, trapIp := 0,
    trapVal := 0, tscratch := 0, wdog := 0, instret := 0, start := 0, cycles := 0, inbox := Vector.replicate 8 [],
    outbox := Vector.replicate 8 [], bars := Vector.replicate 16 { n := 0, a := 0, p := 0 }, run := .idle, pend := .none,
    kept := [], shadow := none, preempt := false, dcache := [], icache := [] }

/-- An idle copy engine: no template armed, nothing queued. -/
def CopyEng.reset : CopyEng := { templates := [], trigs := [], jobs := [], eots := [], count := 0, hold := none }

/-- A core after reset: unconfigured, in no team, power state RUN (log 5), tag 0 and not assigned (log 3). -/
def Core.reset : Core :=
  { ctl := Ctl.reset, unit := [], ce := CopyEng.reset, cfg := none, team := none, region := none, tag := 0,
    assigned := false, failed := false, repaired := false, dead := false, power := 0, request := 0, refused := false, tlb := [],
    walkBad := [], hubCmd := none, bankErr := [], wayErr := [], spare := [], copying := [],
    lostWays := 0, gated := [], bankTags := [] }

/-- A queue after reset (R303); assigned to no partition (log 3). -/
def Queue.reset : Queue := { tag := 0, assigned := false, recs := [], ovf := 0, err := 0, ref := 0 }

/-- A partition after reset (R391). -/
def Part.reset : Part :=
  { ptroot := 0, pevt := 0, pfq := 0, pfqW := 0, pfqR := 0, pfqLost := 0, lostFlag := false, pways := 0, pdram := 0,
    pvc0 := 0, pvc1 := 0, resetting := false, resetDone := false, slots := [], pool := [], version := 0, digest := 0, staged := none, robin := [] }

/-- A port after reset: never up, nothing enabled (R380). -/
def Port.reset : Port :=
  { up := false, ever := false, en := 0, comp := 0, farEn := 0, txFrames := Vector.replicate 8 0,
    rxFrames := Vector.replicate 8 0, credits := Vector.replicate 8 0, given := Vector.replicate 8 0, txSeq := 0, unacked := [], sent := [], rxSeq := 0,
    rxAcked := 0, asking := false, partials := Vector.replicate 8 [], slots := Vector.replicate 8 [], replays := 0,
    lastReq := 0, reqRun := 0, lastAsk := 0, askRun := 0, badTypes := 0 }

/-- The package right after reset, before the boot ROM has acted (R400): memory lists nothing, every core as
`Core.reset`, every event done (R306), nothing queued, no task. -/
def State.reset : State :=
  { mem := [], bad := [], cores := [], dieTlb := [], walks := [], regions := [], teams := [], areas := [], tasks := [], gens := [],
    order := 0, queues := [], events := [], homes := [], parts := [], ports := [], arrivals := [],
    signals := [], irqs := [], calls := [], pageAsks := [], thresh := [], dramErr := [], booted := false, bootst := 0, rollback := 0, spares := [],
    fwDigest := 0, mailbox := [], clock := 0, refresh := false, refreshNo := false, agenda := [], here := 0, slot := 0,
    steps := 0, free := 0, short := false }

/-! ### Why a step stops -/

/-- Faults that stop the machine. The manual's own traps, rejections and fault records are next states, not these. -/
inductive Fault where
  /-- Raised by the step when the agenda names a core or a node id the package does not have (R1, R61). Safe: the machine
  has no such agent, so nothing is claimed of it. -/
  | noSuchAgent
  deriving DecidableEq, Repr

/-- Refusals: instructions that have no meaning. -/
inductive Refusal where
  /-- Raised by exec's arm of an instruction that has no meaning yet. Safe: nothing is claimed of it. -/
  | notModelled (mnemonic : String)
  deriving DecidableEq, Repr

end Sys2Proof.Machine
end

