-- ==== Sys2Proof/Machine/Table.lean ====
section
/-!
DEFINITION. Tables by number and the one memory list: reading, writing, ranges, and the memory's canonical form.
-/

namespace Sys2Proof.Machine

/-! ### Tables -/

/-- The entry at a number, if listed. -/
def tget {α : Type} : Tab α → Nat → Option α
  | [], _ => none
  | (i, v) :: t, k => if i = k then some v else tget t k

/-- The entry at a number, or a default. -/
def tgetD {α : Type} (d : α) (t : Tab α) (k : Nat) : α := (tget t k).getD d

/-- The table with one entry set; numbers stay in rising order. -/
def tset {α : Type} : Tab α → Nat → α → Tab α
  | [], k, v => [(k, v)]
  | (i, x) :: t, k, v => if i = k then (k, v) :: t else if k < i then (k, v) :: (i, x) :: t else (i, x) :: tset t k v

/-- The table without an entry. -/
def terase {α : Type} (t : Tab α) (k : Nat) : Tab α := t.filter (fun p => p.1 ≠ k)

/-- An entry changed, from the default where it is not listed. -/
def tmod {α : Type} (d : α) (t : Tab α) (k : Nat) (f : α → α) : Tab α := tset t k (f (tgetD d t k))

/-- The numbers a table lists. -/
def tkeys {α : Type} (t : Tab α) : List Nat := t.map Prod.fst

/-- The lowest number not listed, below a bound. -/
def tfree {α : Type} (t : Tab α) (bound : Nat) : Option Nat := (List.range bound).find? (fun k => (tget t k).isNone)

/-- A list with the entry at a place changed. -/
def lmod {α : Type} (l : List α) (k : Nat) (f : α → α) : List α :=
  match l, k with
  | [], _ => []
  | x :: t, 0 => f x :: t
  | x :: t, k + 1 => x :: lmod t k f

/-- A value put into a list sorted by a key, after those of the same key. -/
def insertOn {α : Type} (key : α → Nat) (a : α) : List α → List α
  | [] => [a]
  | b :: t => if key a < key b then a :: b :: t else b :: insertOn key a t

/-- A list sorted by a key. -/
def sortOn {α : Type} (key : α → Nat) (l : List α) : List α := l.foldl (fun r a => insertOn key a r) []

/-! ### Memory -/

/-- A memory: address and byte pairs in canonical form. -/
abbrev Memory := List Host.Cell

/-- What an unlisted address reads as (log 1). -/
def blankByte : Byte := 0

/-- The byte at an address. -/
def readCell : Memory → Nat → Byte
  | [], _ => blankByte
  | (i, v) :: t, k => if i = k then v else if k < i then blankByte else readCell t k

/-- A cell in front of a memory, unless it holds what an unlisted address reads as. -/
def consCell (k : Nat) (v : Byte) (t : Memory) : Memory := if v = blankByte then t else (k, v) :: t

/-- The memory with one byte written. -/
def writeCell : Memory → Nat → Byte → Memory
  | [], k, v => consCell k v []
  | (i, x) :: t, k, v =>
    if i = k then consCell k v t else if k < i then consCell k v ((i, x) :: t) else (i, x) :: writeCell t k v

/-- Whether all addresses of a memory lie at or above a bound, rising, with no blank byte. -/
def wfFrom : Nat → Memory → Bool
  | _, [] => true
  | lo, (i, v) :: t => decide (lo ≤ i) && decide (v ≠ blankByte) && wfFrom (i + 1) t

/-- The canonical form: addresses strictly rising, no entry equal to what an unlisted address reads as. -/
def Memory.wf (m : Memory) : Bool := wfFrom 0 m

/-- The bytes from an address on. -/
def readBytes (m : Memory) (a : Nat) : Nat → List Byte
  | 0 => []
  | n + 1 => readCell m a :: readBytes m (a + 1) n

/-- Bytes written from an address on. -/
def writeBytes (m : Memory) (a : Nat) : List Byte → Memory
  | [] => m
  | b :: t => writeBytes (writeCell m a b) (a + 1) t

/-- The number that little-endian bytes spell (R4). -/
def natOfBytes : List Byte → Nat
  | [] => 0
  | b :: t => b.toNat + 256 * natOfBytes t

/-- A number as little-endian bytes (R4). -/
def bytesOfNat (v : Nat) : Nat → List Byte
  | 0 => []
  | n + 1 => BitVec.ofNat 8 v :: bytesOfNat (v / 256) n

/-- A little-endian number of n bytes at an address. -/
def readNat (m : Memory) (a n : Nat) : Nat := natOfBytes (readBytes m a n)

/-- The cells of a range of addresses, at offsets from its start. -/
def cellsIn (m : Memory) (lo n : Nat) : Memory :=
  (m.filter (fun c => lo ≤ c.1 && c.1 < lo + n)).map (fun c => (c.1 - lo, c.2))

/-- The memory with a range of addresses blank. -/
def blankRange (m : Memory) (lo n : Nat) : Memory := m.filter (fun c => !(lo ≤ c.1 && c.1 < lo + n))

/-- The memory with a range replaced by cells at offsets from its start. -/
def putRange (m : Memory) (lo n : Nat) (cells : Memory) : Memory :=
  (cells.filter (fun c => c.1 < n)).foldl (fun m c => writeCell m (lo + c.1) c.2) (blankRange m lo n)

/-- The memory key of a scratchpad byte: core at position p, offset o (State). -/
def scratchKey (p o : Nat) : Nat := 2 ^ 52 + p * 2 ^ 22 + o

/-- The core whose scratchpad holds a memory key, if it is one. -/
def keyCore (k : Nat) : Option Nat := if 2 ^ 52 ≤ k then some ((k - 2 ^ 52) / 2 ^ 22) else none

/-- Split a list into runs of n. -/
def chunks {α : Type} (n : Nat) : Nat → List α → List (List α)
  | 0, _ => []
  | fuel + 1, l => match l with
    | [] => []
    | _ => l.take n :: chunks n fuel (l.drop n)

/-- Split a list into runs of n. -/
def chunk {α : Type} (n : Nat) (l : List α) : List (List α) := chunks n l.length l

end Sys2Proof.Machine
end

