-- ==== Sys2Proof/Machine/Num.lean ====
section
/-!
DEFINITION. Exact numbers and the arithmetic contract of chapter 02: rounding (R34, R35), CH64 (R36), atoms (R23–R31),
EncodeSearch (R32), long accumulators (R39–R41) and the storage formats (R45–R47).
-/

namespace Sys2Proof.Machine

/-- An element's exact value: a signed magnitude m × 2^e, an infinity, or a NaN with its payload. -/
inductive XVal where
  | num (neg : Bool) (m : Nat) (e : Int)
  | inf (neg : Bool)
  | nan (pay : Nat)
  deriving DecidableEq, Repr

/-- The flags a rounding or an operand raises, in the order of R78: NV, SAT, UF, NX, NF. -/
structure Flg where
  nv  : Bool := false
  sat : Bool := false
  uf  : Bool := false
  nx  : Bool := false
  nf  : Bool := false
  deriving DecidableEq, Repr

/-- Flags of two events together. -/
def orFlg (x y : Flg) : Flg :=
  { nv := x.nv || y.nv, sat := x.sat || y.sat, uf := x.uf || y.uf, nx := x.nx || y.nx, nf := x.nf || y.nf }

/-- Flags of many events together. -/
def orFlgs (l : List Flg) : Flg := l.foldl orFlg {}

/-- The FLAGS bits of R78. -/
def flgBits (f : Flg) : Nat :=
  f.nv.toNat + 2 * f.sat.toNat + 4 * f.uf.toNat + 8 * f.nx.toNat + 16 * f.nf.toNat

/-! ### Dyadic numbers -/

/-- n × 2^e for e ≥ 0, as an integer. -/
def shl (n : Int) (k : Nat) : Int := n * (2 : Int) ^ k

/-- A dyadic number n × 2^e at a lower exponent lo ≤ e. -/
def atExp (n : Int) (e lo : Int) : Int := shl n (e - lo).toNat

/-- The signed mantissa of a finite value. -/
def sgn (neg : Bool) (m : Nat) : Int := if neg then -(m : Int) else m

/-- A dyadic number as a value; zero is +0. -/
def ofDy (n : Int) (e : Int) : XVal := .num (n < 0) n.natAbs e

/-- Zero, +0.0. -/
def xzero : XVal := .num false 0 0

/-- The number of low zero bits of a nonzero number, by fuel. -/
def ctzAux : Nat → Nat → Nat
  | 0, _ => 0
  | fuel + 1, n => if n % 2 = 1 then 0 else 1 + ctzAux fuel (n / 2)

/-- The number of low zero bits of a nonzero number. -/
def ctzNat (n : Nat) : Nat := if n = 0 then 0 else ctzAux (n.log2 + 1) n

/-- LsbExp: the exponent of the least significant set bit (R39). -/
def lsbExp (n : Int) (e : Int) : Int := e + ctzNat n.natAbs

/-- Exact sum of dyadic numbers. -/
def dyAdd (x y : Int × Int) : Int × Int :=
  let lo := min x.2 y.2
  (atExp x.1 x.2 lo + atExp y.1 y.2 lo, lo)

/-- Exact product of dyadic numbers. -/
def dyMul (x y : Int × Int) : Int × Int := (x.1 * y.1, x.2 + y.2)

/-- Exact comparison of dyadic numbers. -/
def dyLt (x y : Int × Int) : Bool :=
  let lo := min x.2 y.2
  atExp x.1 x.2 lo < atExp y.1 y.2 lo

/-- floor(log2 (n/d)) of a positive rational times 2^e. -/
def ratLog2 (n d : Nat) (e : Int) : Int :=
  let k : Int := (n.log2 : Int) - (d.log2 : Int)
  let ok := if 0 ≤ k then d * 2 ^ k.toNat ≤ n else d ≤ n * 2 ^ (-k).toNat
  e + (if ok then k else k - 1)

/-- floor and remainder of (n/d) × 2^e over 2^q: the integer part, and the fraction as a numerator and denominator. -/
def ratAt (n d : Nat) (e q : Int) : Nat × Nat × Nat :=
  let k := e - q
  if 0 ≤ k then
    let n' := n * 2 ^ k.toNat
    (n' / d, n' % d, d)
  else
    let d' := d * 2 ^ (-k).toNat
    (n / d', n % d', d')

/-- Whether a magnitude is raised: the integer part t is truncated with fraction num/den (R34, R35). -/
def raises (mode : Nat) (rnd : Nat) (t num den : Nat) : Bool :=
  if num = 0 then false
  else match mode with
    | 0 => decide (den < 2 * num) || (decide (2 * num = den) && t % 2 == 1)
    | 1 => false
    | 2 => decide (rnd < num * 65536 / den)
    | _ => t % 2 == 0

/-! ### CH64 -/

/-- CH64 (R36). -/
def ch64 (key ctr : BitVec 64) : BitVec 64 :=
  let z := key + ctr * 0x9E3779B97F4A7C15
  let z := (z ^^^ (z >>> 30)) * 0xBF58476D1CE4E5B9
  let z := (z ^^^ (z >>> 27)) * 0x94D049BB133111EB
  z ^^^ (z >>> 31)

/-- The 16 random bits of a stochastic rounding, CH64 [63:48] (R34). -/
def rnd16 (key ctr : BitVec 64) : Nat := ((ch64 key ctr) >>> 48).toNat

/-- The counter (hi << 32) | lo (R37). -/
def ctr32 (hi : BitVec 32) (lo : Nat) : BitVec 64 := (hi.zeroExtend 64 <<< 32) ||| BitVec.ofNat 64 (lo % 2 ^ 32)

/-! ### Binary formats -/

/-- A binary format: significand bits, exponent of the least subnormal, width. -/
structure BinFmt where
  p    : Nat
  qmin : Int
  w    : Nat
  deriving DecidableEq, Repr

/-- binary32. -/
def fp32 : BinFmt := { p := 24, qmin := -149, w := 32 }
/-- bfloat16. -/
def bf16 : BinFmt := { p := 8, qmin := -133, w := 16 }
/-- binary16. -/
def fp16 : BinFmt := { p := 11, qmin := -24, w := 16 }

/-- The exponent field of infinities and NaNs. -/
def BinFmt.emax (f : BinFmt) : Nat := 2 ^ (f.w - f.p) - 1

/-- The exponent of the least significant bit of the largest finite value. -/
def BinFmt.qmax (f : BinFmt) : Int := f.qmin + (f.emax : Int) - 2

/-- The value of a pattern; a NaN's payload is what lies below the quiet bit. -/
def binVal (f : BinFmt) (bits : Nat) : XVal :=
  let mant := bits % 2 ^ (f.p - 1)
  let ex := bits / 2 ^ (f.p - 1) % 2 ^ (f.w - f.p)
  let neg := bits / 2 ^ (f.w - 1) % 2 == 1
  if ex = f.emax then
    if mant = 0 then .inf neg else .nan (mant % 2 ^ (f.p - 2))
  else if ex = 0 then .num neg mant f.qmin
  else .num neg (mant + 2 ^ (f.p - 1)) (f.qmin + ex - 1)

/-- The pattern of sign, significand n < 2^p and exponent q. -/
def binPack (f : BinFmt) (neg : Bool) (n : Nat) (q : Int) : Nat :=
  let s := if neg then 2 ^ (f.w - 1) else 0
  if n < 2 ^ (f.p - 1) then s + n
  else s + ((q - f.qmin).toNat + 1) * 2 ^ (f.p - 1) + (n - 2 ^ (f.p - 1))

/-- The pattern of an infinity. -/
def binInf (f : BinFmt) (neg : Bool) : Nat := (if neg then 2 ^ (f.w - 1) else 0) + f.emax * 2 ^ (f.p - 1)

/-- The quiet NaN with a payload, saturated to the format's room (R47). -/
def binNan (f : BinFmt) (pay : Nat) : Nat :=
  f.emax * 2 ^ (f.p - 1) + 2 ^ (f.p - 2) + min pay (2 ^ (f.p - 2) - 1)

/-- One rounding of a positive rational (n/d) × 2^e to a binary format (R35). On overflow RNE gives infinity, toward zero
and round to odd the largest finite, stochastic infinity when raised past it. A stochastic rounding of a magnitude of 2^(emax+1) or more takes its fraction as if the exponent
had no bound, so that an exact one gives the largest finite (the model's choice, log 20). -/
def binRoundRat (f : BinFmt) (mode rnd : Nat) (neg : Bool) (n d : Nat) (e : Int) : Nat × Flg :=
  if n = 0 then (binPack f neg 0 f.qmin, {})
  else
    let q := max (ratLog2 n d e - (f.p - 1 : Nat)) f.qmin
    let (t, num, den) := ratAt n d e q
    let up := raises mode rnd t num den
    let t' := if up then t + 1 else t
    let (t', q') := if t' = 2 ^ f.p then (2 ^ (f.p - 1), q + 1) else (t', q)
    if f.qmax < q' then
      let toInf := mode == 0 || (mode == 2 && up)
      (if toInf then binInf f neg else binPack f neg (2 ^ f.p - 1) f.qmax,
        { sat := true, nx := true, nf := toInf })
    else (binPack f neg t' q', { nx := num ≠ 0, uf := t' == 0 })

/-- One rounding of a value to a binary format (R35, R47). -/
def binRound (f : BinFmt) (mode rnd : Nat) : XVal → Nat × Flg
  | .num neg m e => binRoundRat f mode rnd neg m 1 e
  | .inf neg => (binInf f neg, { nf := true })
  | .nan pay => (binNan f pay, { nf := true })

/-- A positive rational rounded to an integer magnitude (R35, R47). -/
def intRound (mode rnd : Nat) (n d : Nat) (e : Int) : Nat × Bool :=
  let (t, num, den) := ratAt n d e 0
  (if raises mode rnd t num den then t + 1 else t, num ≠ 0)

/-- An integer target: rounded, saturated to −2^(w−1) … 2^(w−1) − 1; a NaN is stored as 0 and sets NV (R47). -/
def intStore (w : Nat) (mode rnd : Nat) (v : XVal) (d : Nat) (de : Int) : Nat × Flg :=
  let hi : Int := 2 ^ (w - 1) - 1
  let lo : Int := -(2 ^ (w - 1))
  match v with
  | .nan _ => (0, { nv := true })
  | .inf neg => ((if neg then lo else hi).toNat + (if neg then 2 ^ (w - 1) else 0), { sat := true, nx := true })
  | .num neg m e =>
    let (t, inexact) := intRound mode rnd m d (e - de)
    let i := sgn neg t
    let c := max lo (min hi i)
    ((BitVec.ofInt w c).toNat, { sat := c ≠ i, nx := inexact || c ≠ i, uf := m ≠ 0 && t == 0 })

/-! ### Atom formats -/

/-- An atom format (R23). -/
structure AtomFmt where
  l    : Nat
  k    : Nat
  w    : Nat
  idx  : Nat
  g16  : Bool
  deriving DecidableEq, Repr

/-- The atom formats by code (R23). -/
def atomFmt : Nat → Option AtomFmt
  | 1 => some { l := 4, k := 3, w := 2, idx := 8, g16 := false }
  | 2 => some { l := 4, k := 4, w := 2, idx := 8, g16 := false }
  | 3 => some { l := 8, k := 16, w := 4, idx := 24, g16 := false }
  | 4 => some { l := 8, k := 128, w := 8, idx := 48, g16 := true }
  | _ => none

/-- Atoms per beat (R23). -/
def AtomFmt.perBeat (f : AtomFmt) : Nat := 64 / f.w

/-- The gain format as a binary-like format: significand bits and exponent of the least gain (R24). -/
def gainP (g16 : Bool) : Nat := if g16 then 10 else 4
/-- The exponent of the least gain step (R24). -/
def gainQ (g16 : Bool) : Int := if g16 then -71 else -17
/-- The all-ones gain code (R24). -/
def gainOnes (g16 : Bool) : Nat := if g16 then 0xFFFF else 0xFF
/-- The payload a non-canonical atom reads as (R25, R31). -/
def badPay (g16 : Bool) : Nat := if g16 then 0xFFFD else 0xFD

/-- A gain code's value n × 2^e (R24). -/
def gainVal (g16 : Bool) (code : Nat) : Nat × Int :=
  let one := 2 ^ (gainP g16 - 1)
  let ex := code / one
  let m := code % one
  if ex = 0 then (m, gainQ g16) else (one + m, gainQ g16 + ex - 1)

/-- RoundGain of a positive rational (R34): the code, saturated or not. -/
def roundGain (g16 : Bool) (mode rnd : Nat) (n d : Nat) (e : Int) : Nat × Bool :=
  let p := gainP g16
  let q := max (ratLog2 n d e - (p - 1 : Nat)) (gainQ g16)
  let (t, num, den) := ratAt n d e q
  let one := 2 ^ (p - 1)
  let code := if t < one then t else ((q - gainQ g16).toNat + 1) * one + (t - one)
  if gainOnes g16 < code || (code == gainOnes g16 && num ≠ 0) then (gainOnes g16, true)
  else (if raises mode rnd code num den then code + 1 else code, false)

/-- One row of pulse-vector counts from the row before: V(l, k) for k from 0 (R27). -/
def vScan : List Nat → Nat → Nat → List Nat
  | [], _, _ => []
  | x :: t, left, diag => (x + left + diag) :: vScan t (x + left + diag) x

/-- V(l, k) for k = 0 … n (R27). -/
def vRow (n : Nat) : Nat → List Nat
  | 0 => 1 :: List.replicate n 0
  | l + 1 => vScan (vRow n l) 0 0

/-- V(l, k) (R27). -/
def vCount (l k : Nat) : Nat := (vRow k l).getD k 0

/-- The sum of V(l−1, k−j) for j from 1 to n, from a row. -/
def vSum (row : List Nat) (k : Nat) : Nat → Nat
  | 0 => 0
  | n + 1 => row.getD (k - (n + 1)) 0 + vSum row k n

/-- Index (R28) of the elements still to place. -/
def indexOf : List Int → Nat → Nat
  | [], _ => 0
  | y :: t, k =>
    let row := vRow k t.length
    let m := y.natAbs
    let here := if m = 0 then 0
      else row.getD k 0 + 2 * vSum row k (m - 1) + (if y < 0 then row.getD (k - m) 0 else 0)
    here + indexOf t (k - m)

/-- The value of one element and the index left (R29): m tried from 1, with fuel. -/
def unindexElem (row : List Nat) (k : Nat) : Nat → Nat → Nat → Int × Nat
  | 0, m, idx => (m, idx)
  | fuel + 1, m, idx =>
    let v := row.getD (k - m) 0
    if 2 * v ≤ idx then unindexElem row k fuel (m + 1) (idx - 2 * v)
    else if idx < v then (m, idx) else (-m, idx - v)

/-- Unindex (R29) of l elements with k pulses left. -/
def unindex : Nat → Nat → Nat → List Int
  | 0, _, _ => []
  | l + 1, k, idx =>
    let row := vRow k l
    let v0 := row.getD k 0
    if idx < v0 then 0 :: unindex l k idx
    else
      let (y, rest) := unindexElem row k k 1 (idx - v0)
      y :: unindex l (k - y.natAbs) rest

/-- What an atom pattern reads as (R30): a NaN with payload, non-canonical or not, or a gain and a pulse vector. -/
inductive AtomVal where
  | nan (pay : Nat) (bad : Bool)
  | val (g : Nat) (ge : Int) (y : List Int)
  deriving DecidableEq, Repr

/-- Reading an atom (R25, R30). -/
def atomVal (f : AtomFmt) (bits : Nat) : AtomVal :=
  let idx := bits % 2 ^ f.idx
  let gf := bits / 2 ^ f.idx
  if idx = 2 ^ f.idx - 1 then .nan gf false
  else if vCount f.l f.k ≤ idx then .nan (badPay f.g16) true
  else
    let g := gainVal f.g16 gf
    .val g.1 g.2 (if g.1 = 0 then List.replicate f.l 0 else unindex f.l f.k idx)

/-- Decode (R25): L lanes, each a value; a NaN atom gives NaN lanes. -/
def atomLanes (f : AtomFmt) (beta : Int) : AtomVal → List XVal
  | .nan pay _ => List.replicate f.l (.nan pay)
  | .val g ge y => y.map (fun v => ofDy (v * g) (ge + beta))

/-- Whether an atom is non-canonical (sets NV). -/
def atomBad : AtomVal → Bool
  | .nan _ bad => bad
  | .val .. => false

/-- The NaN atom with a payload. -/
def nanAtom (f : AtomFmt) (pay : Nat) : Nat := min pay (gainOnes f.g16) * 2 ^ f.idx + (2 ^ f.idx - 1)

/-- A NaN payload carried from one atom format to another (R87). -/
def payAcross (src dst : Bool) (pay : Nat) : Nat :=
  if src = dst then pay
  else if dst then (if pay = 0xFD then 0xFFFD else pay)
  else (if pay = 0xFFFD then 0xFD else min pay 0xFC)

/-! ### EncodeSearch -/

/-- The best candidate lane to take a pulse: its place, magnitude and pulses (R32); the lowest on a tie. -/
def bestLane (c e : Nat) : List (Nat × Nat) → Nat → Option (Nat × Nat × Nat) → Option (Nat × Nat × Nat)
  | [], _, best => best
  | (a, p) :: t, j, best =>
    let best' :=
      if a = 0 then best
      else match best with
        | none => some (j, a, p)
        | some (_, ba, bp) =>
          if (c + ba) * (c + ba) * (e + 2 * p + 1) < (c + a) * (c + a) * (e + 2 * bp + 1) then some (j, a, p) else best
    bestLane c e t (j + 1) best'

/-- The greedy pulses (R32): r more pulses over lanes of magnitude and pulses. -/
def addPulses : Nat → Nat → Nat → List (Nat × Nat) → Nat × Nat × List (Nat × Nat)
  | 0, c, e, l => (c, e, l)
  | r + 1, c, e, l =>
    match bestLane c e l 0 none with
    | none => (c, e, l)
    | some (j, a, p) => addPulses r (c + a) (e + 2 * p + 1) (lmod l j (fun x => (x.1, x.2 + 1)))

/-- The signed mantissa and exponent of a finite value; zero for the others. -/
def xDy : XVal → Int × Int
  | .num neg m e => (sgn neg m, e)
  | _ => (0, 0)

/-- Whether a value is finite. -/
def xFinite : XVal → Bool
  | .num .. => true
  | _ => false

/-- EncodeSearch (R32): the atom of L exact lanes at burst exponent β, and its flags. `rnd` is CH64 [63:48]. The NaN atom of a NaN or
infinite lane raises NF alone, and not NX beside it (the model's choice, log 85). -/
def encodeSearch (f : AtomFmt) (beta : Int) (mode rnd : Nat) (x : List XVal) : Nat × Flg :=
  if x.any (fun v => !xFinite v) then (nanAtom f 0, { nf := true })
  else
    let ds := x.map xDy
    let lo := (ds.filter (fun d => d.1 ≠ 0)).foldl (fun m d => min m d.2) ((ds.find? (fun d => d.1 ≠ 0)).map Prod.snd |>.getD 0)
    let vs := ds.map (fun d => if d.1 = 0 then 0 else atExp d.1 d.2 lo)
    let mags := vs.map Int.natAbs
    let s := mags.foldl (· + ·) 0
    if s = 0 then (0, {})
    else
      let l0 := mags.map (fun a => (a, f.k * a / s))
      let r := f.k - (l0.map Prod.snd).foldl (· + ·) 0
      let c0 := (l0.map (fun p => p.1 * p.2)).foldl (· + ·) 0
      let e0 := (l0.map (fun p => p.2 * p.2)).foldl (· + ·) 0
      let (c, e, l) := addPulses r c0 e0 l0
      let (code, sat) := roundGain f.g16 mode rnd c e (lo - beta)
      let y := List.zipWith (fun v p => if v < 0 then -(p.2 : Int) else p.2) vs l
      if code = 0 then (0, { uf := true, nx := true })
      else
        let g := gainVal f.g16 code
        let exact := (List.zipWith (fun v p => decide ((dyAdd (p * (g.1 : Int), g.2 + beta) (-v, lo)).1 = 0)) vs y).all id
        (code * 2 ^ f.idx + indexOf y f.k, { sat := sat, nx := !exact })

/-! ### Long accumulators -/

/-- The carry shifts of LAAdd (R39), at most `fuel` of them. -/
def laNorm (bits : Nat) : Nat → Int → Int → Bool → Int × Int × Bool
  | 0, w, a, st => (w, a, st)
  | fuel + 1, w, a, st =>
    if w < -(2 ^ bits) || (2 : Int) ^ bits ≤ w then laNorm bits fuel (w / 2) (a + 1) (st || w % 2 == 1)
    else (w, a, st)

/-- A significand shifted until it fits `bits` bits beside its sign (R39, R93), by as many shifts as it may need. -/
def laFit (bits : Nat) (w a : Int) (st : Bool) : Int × Int × Bool := laNorm bits (w.natAbs.log2 + 1) w a st

/-- LAAdd of a finite term n × 2^e (R39). -/
def laAddDy (c : Acc) (n : Int) (e : Int) : Acc :=
  if c.nan || n = 0 then c
  else
    let lsb := lsbExp n e
    let a := if c.empty then lsb - 48 else c.a
    let m := if c.empty then lsb else min c.m lsb
    let sh := (a - e).toNat
    let add := if a ≤ e then atExp n e a else n / (2 : Int) ^ sh
    let lost := !(decide (a ≤ e)) && n % (2 : Int) ^ sh ≠ 0
    let (w, a', st) := laFit 126 (c.w + add) a (c.sticky || lost)
    { c with w := w, a := a', sticky := st, empty := false, m := m }

/-- A NaN's payload in the 16 bits of an accumulator (R39); a longer one, as a binary32 residual can bring, is a free value (log 68). -/
def pay16 (pay : Nat) : BitVec 16 := if pay < 65536 then BitVec.ofNat 16 pay else Config.longPay pay

/-- An accumulator made NaN (R39). -/
def laNan (c : Acc) (pay : BitVec 16) : Acc := if c.nan then c else { c with nan := true, pay := pay }

/-- LAAdd of a value (R39): an infinite term makes the accumulator NaN with payload 0. -/
def laAdd (c : Acc) : XVal → Acc
  | .num neg m e => laAddDy c (sgn neg m) e
  | .inf _ => laNan c 0
  | .nan pay => laNan c (pay16 pay)

/-- A long-accumulator lane as it stands on a channel (R92): W, a, σ, or empty, or NaN. -/
inductive Lane where
  | empty
  | nan (pay : BitVec 16)
  | val (w a : Int) (sticky : Bool)
  deriving DecidableEq, Repr

/-- The 128 bits of a lane (R92). -/
def laneBits : Lane → Nat
  | .empty => 2 ^ 110
  | .nan pay => 2 ^ 109 + pay.toNat
  | .val w a st => (if st then 2 ^ 108 else 0) + (BitVec.ofInt 12 a).toNat * 2 ^ 96 + (BitVec.ofInt 96 w).toNat

/-- The lane that 128 bits spell (R92). -/
def laneOf (b : Nat) : Lane :=
  if b / 2 ^ 110 % 2 = 1 then .empty
  else if b / 2 ^ 109 % 2 = 1 then .nan (BitVec.ofNat 16 b)
  else .val (BitVec.ofNat 96 b).toInt (BitVec.ofNat 12 (b / 2 ^ 96)).toInt (b / 2 ^ 108 % 2 == 1)

/-- LAAdd of a lane (R39): a sticky lane adds its proxy and leaves σ set. -/
def laAddLane (c : Acc) : Lane → Acc
  | .empty => c
  | .nan pay => laNan c pay
  | .val w a false => laAddDy c w a
  | .val w a true =>
    let c' := laAddDy c (2 * w + 1) (a - 1)
    if c'.nan then c' else { c' with sticky := true }

/-- A lane's significand narrowed to 96 bits. -/
def laneNarrow (w a : Int) (st : Bool) : Lane :=
  let (w', a', st') := laFit 95 w a st
  .val w' a' st'

/-- LALane (R93): the lane of an exact sum of nonzero terms (n, e). -/
def laLane (terms : List (Int × Int)) : Lane :=
  let ts := terms.filter (fun t => t.1 ≠ 0)
  match ts with
  | [] => .empty
  | t :: rest =>
    let a := rest.foldl (fun m x => min m (lsbExp x.1 x.2)) (lsbExp t.1 t.2)
    let total := ts.foldl dyAdd (0, t.2)
    let w := if a ≤ total.2 then atExp total.1 total.2 a else total.1 / (2 : Int) ^ (a - total.2).toNat
    if w = 0 then .empty else laneNarrow w a false

/-- LAEmit (R93). -/
def laEmit (c : Acc) : Lane :=
  if c.nan then .nan c.pay
  else if c.empty || (c.w == 0 && !c.sticky) then .empty
  else if !c.sticky then
    let w := if c.m ≤ c.a then atExp c.w c.a c.m else c.w / (2 : Int) ^ (c.m - c.a).toNat
    laneNarrow w c.m false
  else laneNarrow c.w c.a true

/-- The accumulator that holds a lane (R172). -/
def accOfLane : Lane → Acc
  | .empty => Acc.zero
  | .nan pay => { Acc.zero with nan := true, pay := pay }
  | .val w a st => { w := w, a := a, sticky := st, empty := false, nan := false, pay := 0, m := a }

/-- The proxy value of an accumulator (R41): a NaN with its payload, +0, or W × 2^a + σ × 2^(a−1). -/
def laProxy (c : Acc) : XVal :=
  if c.nan then .nan c.pay.toNat
  else if c.empty || (c.w == 0 && !c.sticky) then xzero
  else ofDy (2 * c.w + (if c.sticky then 1 else 0)) (c.a - 1)

/-- LARound of an L-lane group to an atom (R41): a NaN accumulator gives the NaN atom with the first NaN lane's payload
(log 21), as far as the gain field holds it: a payload above 0xFF gives a G8 atom 0xFF (the model's choice, log 21); otherwise EncodeSearch of the proxies. A sticky lane is never exact (NX). -/
def laRoundAtom (f : AtomFmt) (beta : Int) (mode rnd : Nat) (cs : List Acc) : Nat × Flg :=
  match cs.find? (fun c => c.nan) with
  | some c => (nanAtom f c.pay.toNat, { nf := true })
  | none =>
    let (a, fl) := encodeSearch f beta mode rnd (cs.map laProxy)
    (a, { fl with nx := fl.nx || cs.any (fun c => c.sticky) })

/-! ### Storage formats -/

/-- Bits of an element: storage formats (R45), PRED bits excepted, INDEX tokens. -/
def laneWidth : Nat → Nat
  | 0x10 => 4
  | 0x11 => 2
  | 0x12 => 2
  | 0x13 => 1
  | 0x14 => 4
  | 0x21 => 4
  | 0x20 => 64
  | 0x22 => 16
  | f => match atomFmt f with
    | some a => a.w
    | none => 64

/-- Whether a code names an atom format, a storage format (R58). -/
def isAtom (f : Nat) : Bool := (atomFmt f).isSome
/-- Storage codes 0x10–0x14 (R58). -/
def isStorage (f : Nat) : Bool := decide (0x10 ≤ f ∧ f ≤ 0x14)
/-- Whether FMT may hold the code in a column "any" (R60). -/
def isAny (f : Nat) : Bool := isAtom f || isStorage f || f == 0x20 || f == 0x21

/-- The binary format of a floating storage code. -/
def binOf : Nat → Option BinFmt
  | 0x10 => some fp32
  | 0x11 => some bf16
  | 0x12 => some fp16
  | _ => none

/-- A positive finite binary32 scale as m × 2^e, if it is one (R46, R88). -/
def scaleOf (bits : BitVec 32) : Option (Nat × Int) :=
  match binVal fp32 bits.toNat with
  | .num false m e => if m = 0 then none else some (m, e)
  | _ => none

/-- A storage lane's exact value (R45); `s` is the INT8 scale. -/
def storVal (fmt : Nat) (s : Nat × Int) (bits : Nat) : XVal :=
  match binOf fmt with
  | some f => binVal f bits
  | none =>
    if fmt = 0x13 then ofDy ((BitVec.ofNat 8 bits).toInt * s.1) s.2
    else ofDy (BitVec.ofNat 32 bits).toInt 0

/-- A value converted to a storage lane (R47). -/
def storPack (fmt : Nat) (s : Nat × Int) (mode rnd : Nat) (v : XVal) : Nat × Flg :=
  match binOf fmt with
  | some f => binRound f mode rnd v
  | none => if fmt = 0x13 then intStore 8 mode rnd v s.1 s.2 else intStore 32 mode rnd v 1 0

/-! ### Sums, products and comparisons of values -/

/-- The exact sum of two values; opposite infinities make a NaN of payload 0. -/
def xAdd : XVal → XVal → XVal
  | .nan p, _ => .nan p
  | _, .nan p => .nan p
  | .inf a, .inf b => if a = b then .inf a else .nan 0
  | .inf a, _ => .inf a
  | _, .inf b => .inf b
  | .num a m e, .num b n k =>
    let r := dyAdd (sgn a m, e) (sgn b n, k)
    if r.1 = 0 then .num (a && b && m == 0 && n == 0) 0 0 else ofDy r.1 r.2

/-- The negated value. -/
def xNeg : XVal → XVal
  | .num a m e => .num (!a) m e
  | .inf a => .inf (!a)
  | .nan p => .nan p

/-- The magnitude. -/
def xAbs : XVal → XVal
  | .num _ m e => .num false m e
  | .inf _ => .inf false
  | .nan p => .nan p

/-- The exact product of two finite values. -/
def xMul : XVal → XVal → XVal
  | .nan p, _ => .nan p
  | _, .nan p => .nan p
  | .inf a, .inf b => .inf (a != b)
  | .inf a, .num b n _ => if n = 0 then .nan 0 else .inf (a != b)
  | .num a m _, .inf b => if m = 0 then .nan 0 else .inf (a != b)
  | .num a m e, .num b n k => .num (a != b) (m * n) (e + k)

/-- x < y of non-NaN values, −0 below +0. -/
def xLt : XVal → XVal → Bool
  | .inf a, .inf b => a && !b
  | .inf a, .num .. => a
  | .num .., .inf b => !b
  | .num a m e, .num b n k =>
    if m = 0 && n = 0 then a && !b else dyLt (sgn a m, e) (sgn b n, k)
  | _, _ => false

/-- x ≤ y of finite values, −0 equal to +0. -/
def xLe : XVal → XVal → Bool
  | .num a m e, .num b n k => !dyLt (sgn b n, k) (sgn a m, e)
  | _, _ => false

/-- The larger value, the first on equality; a NaN operand gives the first NaN. -/
def xMax : XVal → XVal → XVal
  | .nan p, _ => .nan p
  | _, .nan p => .nan p
  | x, y => if xLt x y then y else x

/-- The smaller value, the first on equality; a NaN operand gives the first NaN. -/
def xMin : XVal → XVal → XVal
  | .nan p, _ => .nan p
  | _, .nan p => .nan p
  | x, y => if xLt y x then y else x

/-- Block scale β of a largest magnitude (R42): clamp(floor(log2 M) − τ, −32, 31), 0 for M = 0, 31 for infinity. -/
def blockBeta (g16 : Bool) : XVal → Int
  | .num _ m e => if m = 0 then 0 else max (-32) (min 31 (ratLog2 m 1 e - (if g16 then 30 else 12)))
  | .inf _ => 31
  | .nan _ => 0

end Sys2Proof.Machine
end

