-- ==== Sys2Proof/Machine/Flags.lean ====
section
/-!
DEFINITION. Conditions and flags. The controller has no flag register: branches and set instructions compare (R214, R217).
A node's FLAGS register is sticky (R78).
-/

namespace Sys2Proof.Machine

/-- s(a) < s(b) (R214). -/
def ltS (a b : BitVec 64) : Bool := decide (a.toInt < b.toInt)

/-- u(a) < u(b) (R214). -/
def ltU (a b : BitVec 64) : Bool := decide (a.toNat < b.toNat)

/-- 1 if a condition holds, else 0 (R214). -/
def bit64 (b : Bool) : BitVec 64 := if b then 1 else 0

/-- FLAGS with the flags of an instant added; its bits are sticky (R78). -/
def stickFlags (old : BitVec 32) (f : Flg) : BitVec 32 := old ||| BitVec.ofNat 32 (flgBits f)

end Sys2Proof.Machine
end

