-- ==== Sys2Proof/Machine/Operands.lean ====
section
/-!
DEFINITION. The operand forms of the scalar instructions (R212): immediates, branch and jump targets, effective addresses,
and the scopes of atomics and fences (R221).
-/

namespace Sys2Proof.Machine

/-- A signed 16-bit immediate (R212). -/
def simm (i : BitVec 16) : BitVec 64 := i.signExtend 64

/-- An unsigned 16-bit immediate (R212). -/
def uimm (i : BitVec 16) : BitVec 64 := i.zeroExtend 64

/-- A branch target: ip + 4 + 4 × SExt(off16) (R212). -/
def branchTarget (ip : BitVec 64) (off : BitVec 16) : BitVec 64 := ip + 4 + 4 * off.signExtend 64

/-- A JAL target: ip + 4 + 4 × SExt(off26) (R212). -/
def jumpTarget (ip : BitVec 64) (off : BitVec 26) : BitVec 64 := ip + 4 + 4 * off.signExtend 64

/-- An effective address: base + SExt(imm16) (R219). -/
def effAddr (base : BitVec 64) (i : BitVec 16) : BitVec 64 := base + simm i

/-- A shift distance: the low six bits (R214). -/
def shiftBy (b : BitVec 64) : Nat := b.toNat % 64

end Sys2Proof.Machine
end

