-- ==== Sys2Proof/Machine/Base.lean ====
section
/-!
DEFINITION. Reaching into the package: cores, controllers, teams, partitions; bytes with their uncorrectable words and
bank tags; page tables, translation look-aside buffers and walks; inboxes; fault records and interrupt messages.
-/

namespace Sys2Proof.Machine

/-! ### Cores and teams -/

/-- The core at a physical position. -/
def State.coreAt (s : State) (p : Nat) : Core := tgetD Core.reset s.cores p

/-- The package with one core replaced. -/
def State.setCore (s : State) (p : Nat) (c : Core) : State := { s with cores := tset s.cores p c }

/-- The package with one core changed. -/
def State.modCore (s : State) (p : Nat) (f : Core → Core) : State := s.setCore p (f (s.coreAt p))

/-- The controller of a core. -/
def State.ctlAt (s : State) (p : Nat) : Ctl := (s.coreAt p).ctl

/-- The package with one controller changed. -/
def State.modCtl (s : State) (p : Nat) (f : Ctl → Ctl) : State := s.modCore p (fun c => { c with ctl := f c.ctl })

/-- The controller whose turn it is. -/
def State.me (s : State) : Ctl := s.ctlAt s.here

/-- The package with the controller whose turn it is changed. -/
def State.modMe (s : State) (f : Ctl → Ctl) : State := s.modCtl s.here f

/-- The package with one core's copy engine changed. -/
def State.modCe (s : State) (p : Nat) (f : CopyEng → CopyEng) : State := s.modCore p (fun c => { c with ce := f c.ce })

/-- The register of a node with a number (R77, R137, R167). -/
def Node.reg (n : Node) (k : Nat) : BitVec 32 := tgetD 0 n.regs k

/-- Domain of a node (R49). -/
def Node.dom (n : Node) : Nat := n.rcd.dom.toNat

/-- The package with one core's configuration changed. -/
def State.modCfg (s : State) (p : Nat) (f : Cfg → Cfg) : State := s.modCore p (fun c => { c with cfg := c.cfg.map f })

/-- A region changed. -/
def State.modRegion (s : State) (r : Nat) (f : Region → Region) : State :=
  match tget s.regions r with
  | some g => { s with regions := tset s.regions r (f g) }
  | none => s

/-- The node at an id of a core. -/
def Core.node (c : Core) (id : Nat) : Option Node := c.cfg.bind (fun g => tget g.nodes id)

/-- The partition with a number. -/
def State.partAt (s : State) (p : Nat) : Part := tgetD Part.reset s.parts p

/-- The package with one partition changed. -/
def State.modPart (s : State) (p : Nat) (f : Part → Part) : State := { s with parts := tset s.parts p (f (s.partAt p)) }

/-- Row and column of a physical position (R211 PCORE). -/
def rowOf (p : Nat) : Nat := p / Config.gridCols
/-- Column of a physical position. -/
def colOf (p : Nat) : Nat := p % Config.gridCols
/-- The die of a position: 16 rows by 8 columns each (R280). -/
def dieOf (p : Nat) : Nat := 2 * (rowOf p / 16) + colOf p / 8

/-- The team a core without a team counts as: itself alone. -/
def loneTeam (p : Nat) : Team :=
  { task := 0, leaf := 0, region := 0, part := 0, row := rowOf p, col := colOf p, h := 1, w := 1, wheels := [],
    st := .ended, limits := [], deep := false, order := 0, save := none, area := none, doom := none }

/-- The team bound to a core. -/
def State.teamAt (s : State) (p : Nat) : Team :=
  match (s.coreAt p).team with
  | some t => (tget s.teams t).getD (loneTeam p)
  | none => loneTeam p

/-- The package with the team of a core changed. -/
def State.modTeamAt (s : State) (p : Nat) (f : Team → Team) : State :=
  match (s.coreAt p).team with
  | some t => match tget s.teams t with
    | some tm => { s with teams := tset s.teams t (f tm) }
    | none => s
  | none => s

/-- The node at an id of a core, unless the core belongs to a team whose region holds no configuration on it (R297). -/
def State.teamNode (s : State) (p id : Nat) : Option Node :=
  let c := s.coreAt p
  if c.team.isSome && c.region != some (s.teamAt p).region then none else c.node id

/-- The configuration of a core, unless the core belongs to a team whose region holds none on it (R297). -/
def State.teamCfg (s : State) (p : Nat) : Option Cfg :=
  let c := s.coreAt p
  if c.team.isSome && c.region != some (s.teamAt p).region then none else c.cfg

/-- Cores of a team. -/
def Team.count (t : Team) : Nat := t.h * t.w
/-- Physical position of a logical core, row-major from the north-west (R318). -/
def Team.posOf (t : Team) (l : Nat) : Nat := (t.row + l / t.w) * Config.gridCols + t.col + l % t.w
/-- Logical id of a physical position (R318). -/
def Team.lidOf (t : Team) (p : Nat) : Nat := (rowOf p - t.row) * t.w + (colOf p - t.col)
/-- Positions of a team's cores in logical order. -/
def Team.cores (t : Team) : List Nat := (List.range t.count).map t.posOf

/-- Logical id of a core in its team. -/
def State.lid (s : State) (p : Nat) : Nat := (s.teamAt p).lidOf p

/-- Positions of a region's cores, row-major. -/
def Region.cores (r : Region) : List Nat :=
  (List.range (r.h * r.w)).map (fun l => (r.row + l / r.w) * Config.gridCols + r.col + l % r.w)

/-- The handle of a dependence-table entry (R305). -/
def State.handle (s : State) (t : Nat) : BitVec 32 :=
  match tget s.tasks t with
  | some k => BitVec.ofNat 32 (k.gen * 2 ^ 14 + t)
  | none => 0

/-- The entry a handle names, if it is live (R305). -/
def State.taskOf (s : State) (h : BitVec 32) : Option Nat :=
  let i := h.toNat % 2 ^ 14
  match tget s.tasks i with
  | some k => if k.gen = h.toNat / 2 ^ 14 then some i else none
  | none => none

/-- The handle of the task that runs on a core. -/
def State.handleAt (s : State) (p : Nat) : BitVec 32 :=
  match (s.coreAt p).team with
  | some _ => s.handle (s.teamAt p).task
  | none => 0

/-- The partition of a core: its team's, else its tag. -/
def State.partOf (s : State) (p : Nat) : Nat :=
  match (s.coreAt p).team with
  | some _ => (s.teamAt p).part
  | none => (s.coreAt p).tag

/-! ### Free values -/

/-- One free value drawn. -/
def State.draw (s : State) : State := { s with free := s.free + 1 }

/-! ### Bytes, uncorrectable words, bank tags -/

/-- Whether some uncorrectable word has a byte in a range of memory keys (R405). -/
def State.badIn (s : State) (k n : Nat) : Bool := s.bad.any (fun w => decide (w < k + n) && decide (k < w + 8))

/-- Bytes written at a memory key; words written whole are cured (R405). -/
def State.poke (s : State) (k : Nat) (bytes : List Byte) : State :=
  { s with mem := writeBytes s.mem k bytes,
           bad := s.bad.filter (fun w => !(decide (k ≤ w) && decide (w + 8 ≤ k + bytes.length))) }

/-- Bytes at a memory key. -/
def State.peek (s : State) (k n : Nat) : List Byte := readBytes s.mem k n

/-- A little-endian number at a memory key. -/
def State.peekNat (s : State) (k n : Nat) : Nat := readNat s.mem k n

/-- Bytes of a scratchpad bank (R177). -/
def bankBytes : Nat := 65536

/-- Bytes of the scratchpad of a core. -/
def State.peekLocal (s : State) (p o n : Nat) : List Byte := readBytes s.mem (scratchKey p o) n

/-- A little-endian number in the scratchpad of a core. -/
def State.peekLocalNat (s : State) (p o n : Nat) : Nat := readNat s.mem (scratchKey p o) n

/-- The 64 bytes of a beat as 512 bits, byte 0 lowest. -/
def beatOfBytes (l : List Byte) : Beat := BitVec.ofNat 512 (natOfBytes l)

/-- The 64 bytes of a beat. -/
def bytesOfBeat (b : Beat) : List Byte := bytesOfNat b.toNat 64

/-- The beats at a scratchpad offset. -/
def State.peekBeats (s : State) (p o n : Nat) : List Beat :=
  (List.range n).map (fun i => beatOfBytes (s.peekLocal p (o + 64 * i) 64))

/-- Local offset of a record of the table that a TRB names (R173, R245). -/
def recOffset (trb : BitVec 64) (n : Nat) : Nat := (trb &&& 0x3FFF00).toNat + 256 * n

/-! ### Page tables (R277, R286–R288) -/

/-- Whether a physical address lies in a populated range (R277): LPDDR6, a CXL port's device, the host as it is exposed. -/
def physOk (pa : Nat) : Bool :=
  decide (pa < 0x1E000000000) ||
  (decide (0x100000000000 ≤ pa ∧ pa < 0x100000000000 + 4 * 0x40000000000) &&
    decide ((pa - 0x100000000000) % 0x40000000000 < Config.cxlBytes ((pa - 0x100000000000) / 0x40000000000))) ||
  (decide (0x200000000000 ≤ pa ∧ pa < 0x400000000000) && Config.hostFrame (pa / 65536))

/-- Bits hi … lo of a number. -/
def bitsOf (n hi lo : Nat) : Nat := n / 2 ^ lo % 2 ^ (hi + 1 - lo)

/-- ADDR of an entry as a byte address (R287). -/
def pteAddr (e : BitVec 64) : Nat := bitsOf e.toNat 51 8 * 256
/-- LEAF (R287). -/
def pteLeaf (e : BitVec 64) : Bool := e.getLsbD 61
/-- V (R287). -/
def pteValid (e : BitVec 64) : Bool := e.getLsbD 0
/-- COW (R287). -/
def pteCow (e : BitVec 64) : Bool := e.getLsbD 55
/-- X (R287). -/
def pteX (e : BitVec 64) : Bool := e.getLsbD 54
/-- W (R287). -/
def pteW (e : BitVec 64) : Bool := e.getLsbD 53
/-- RD (R287). -/
def pteRd (e : BitVec 64) : Bool := e.getLsbD 52
/-- HC (R287). -/
def pteHc (e : BitVec 64) : Bool := e.getLsbD 60
/-- HOME (R287). -/
def pteHome (e : BitVec 64) : Nat := bitsOf e.toNat 57 56
/-- DIE (R287). -/
def pteDie (e : BitVec 64) : Nat := bitsOf e.toNat 59 58
/-- GROUP (R287). -/
def pteGroup (e : BitVec 64) : Nat := bitsOf e.toNat 7 1

/-- Index of an address at a table level (R286). -/
def pageIndex (va : Nat) : Nat → Nat
  | 0 => bitsOf va 56 43
  | 1 => bitsOf va 42 30
  | 2 => bitsOf va 29 21
  | _ => bitsOf va 20 16

/-- Page size of a leaf at a level (R286). -/
def pageSize : Nat → Nat
  | 1 => 2 ^ 30
  | 2 => 2 ^ 21
  | _ => 2 ^ 16

/-- Alignment of the table below a level (R286). -/
def tableAlign : Nat → Nat
  | 0 => 65536
  | 1 => 4096
  | _ => 256

/-- Whether an entry at a level is malformed (R287); a leaf with the reserved homing counts as one (R280). -/
def pteMalformed (level : Nat) (e : BitVec 64) : Bool :=
  e.getLsbD 63 || e.getLsbD 62 ||
  (if pteLeaf e then level == 0 || pteAddr e % pageSize level != 0 || pteHome e == 3
   else level == 3 || pteAddr e % tableAlign level != 0 ||
     e.getLsbD 60 || bitsOf e.toNat 59 52 != 0 || bitsOf e.toNat 7 1 != 0)

/-- The walk of R288 from a level on: where the leaf entry lies, the entry and its page size; none is a translation
fault, which an entry with an uncorrectable error gives too (R405; log 72). -/
def walkFrom (s : State) (va : Nat) : Nat → Nat → Nat → Option (Nat × BitVec 64 × Nat)
  | 0, _, _ => none
  | fuel + 1, level, a =>
    let e := BitVec.ofNat 64 (s.peekNat a 8)
    if s.badIn a 8 || !pteValid e || pteMalformed level e then none
    else if pteLeaf e then some (a, e, pageSize level)
    else walkFrom s va fuel (level + 1) (pteAddr e + 8 * pageIndex va (level + 1))

/-- The leaf entry of an address in a partition's table (R288). -/
def State.walkTable (s : State) (part va : Nat) : Option (Nat × BitVec 64 × Nat) :=
  walkFrom s va 4 0 (bitsOf (s.partAt part).ptroot.toNat 51 17 * 2 ^ 17 + 8 * pageIndex va 0)

/-- How a memory access names what it does: read, write or fetch (R288). -/
inductive Acc3 where
  | read
  | write
  | fetch
  deriving DecidableEq, Repr

/-- Whether an entry allows an access (R288). -/
def pteAllows (e : BitVec 64) : Acc3 → Bool
  | .read => pteRd e
  | .write => pteW e
  | .fetch => pteX e

/-- What a translation answers. -/
inductive Xlat where
  | ok (pa : Nat) (pte : BitVec 64)
  | transFault
  | accessFault
  deriving DecidableEq, Repr

/-- The end of R288: rights and populated ranges. -/
def finishXlat (va : Nat) (kind : Acc3) (pte : BitVec 64) (size : Nat) : Xlat :=
  if !pteAllows pte kind then .accessFault
  else
    let pa := pteAddr pte + va % size
    if physOk pa then .ok pa pte else .accessFault

/-- Translation by the table alone, as firmware, the dispatcher and the loader translate. -/
def State.xlatTable (s : State) (part va : Nat) (kind : Acc3) : Xlat :=
  match s.walkTable part va with
  | none => .transFault
  | some (_, e, size) => finishXlat va kind e size

/-! ### Home slices (R280) -/

/-- The XOR of the successive k-bit fields of a number. -/
def foldFields (k : Nat) : Nat → Nat → Nat
  | 0, _ => 0
  | fuel + 1, n => (n % 2 ^ k) ^^^ foldFields k fuel (n / 2 ^ k)

/-- The fold F_k of a physical address: of the fields of its bits 51 to 10 (R280). -/
def foldOf (k pa : Nat) : Nat := foldFields k 42 (bitsOf pa 51 10)

/-- The position of the home slice of a line by its page's entry (R280): over the package, over one die, or over the rectangle of
a home group, and over the package while the group is unbound. Nothing a program observes depends on it (log 60). -/
def State.homeSlice (s : State) (pa : Nat) (e : BitVec 64) : Nat :=
  let spread := foldOf 9 pa
  match pteHome e with
  | 1 =>
    let q := foldOf 7 pa
    (16 * (pteDie e / 2) + q / 8) * Config.gridCols + 8 * (pteDie e % 2) + q % 8
  | 2 =>
    let g := (tgetD 0 s.homes (pteGroup e)).toNat
    let w := bitsOf g 36 32
    let n := bitsOf g 29 24 * w
    if n = 0 then spread
    else
      let l := foldOf 12 pa % n
      (bitsOf g 12 8 + l / w) * Config.gridCols + bitsOf g 19 16 + l % w
  | _ => spread

/-! ### TLBs and walks (R289) -/

/-- The agent number of the copy engine. -/
def whoCopy : Nat := 96
/-- The agent number of the controller. -/
def whoCtl : Nat := 97

/-- Whether an entry holds the translation of an address. -/
def TlbEnt.covers (t : TlbEnt) (part va : Nat) : Bool :=
  t.part == part && decide (t.page ≤ va) && decide (va < t.page + t.size)

/-- An entry put into a buffer of a capacity; a full buffer gives up a free choice of entry. -/
def tlbPut (cap pick : Nat) (l : List TlbEnt) (e : TlbEnt) : List TlbEnt :=
  if l.length < cap then e :: l else e :: l.eraseIdx (pick % cap)

/-- The page a miss walks for: the page the table maps, or 64 KiB where it maps none. -/
def State.walkPage (s : State) (part va : Nat) : Nat :=
  match s.walkTable part va with
  | some (_, _, size) => va / size * size / 65536
  | none => va / 65536

/-- Whether an agent's walk of a page ended in a translation fault that it has not yet taken. -/
def State.walkFailed (s : State) (p who page : Nat) : Bool := (s.coreAt p).walkBad.contains (who, page)

/-- What a translation through the buffers answers: done, or wait for a walk. -/
inductive Via where
  | done (x : Xlat)
  | wait
  deriving DecidableEq, Repr

/-- A translation by a held entry: while the table says otherwise, either may be used (R289). -/
def State.useEntry (s : State) (part va : Nat) (kind : Acc3) (t : TlbEnt) : Xlat × State :=
  match s.walkTable part va with
  | some (_, e, size) =>
    if e = t.pte && size = t.size then (finishXlat va kind e size, s)
    else if Config.freeBit s.free then (finishXlat va kind t.pte t.size, s.draw)
    else (finishXlat va kind e size, s.draw)
  | none => if Config.freeBit s.free then (finishXlat va kind t.pte t.size, s.draw) else (.transFault, s.draw)

/-- An agent joins the walk of a page, or starts it while its die has fewer than 256 (R289). -/
def State.joinWalk (s : State) (p part page who : Nat) : State :=
  let die := dieOf p
  let ag : Agent := { core := p, who := who }
  let here := fun w : Walk => w.die == die && w.part == part && w.page == page
  if s.walks.any here then
    { s with walks := s.walks.map (fun w => if here w && !w.joined.contains ag then { w with joined := w.joined ++ [ag] } else w) }
  else if (s.walks.filter (fun w => w.die == die)).length < 256 then
    { s with walks := s.walks ++ [{ die := die, part := part, page := page, joined := [ag] }] }
  else s

/-- An agent's results of walks for other pages than the one it now accesses given up. -/
def State.dropStale (s : State) (p who page : Nat) : State :=
  if (s.coreAt p).walkBad.any (fun w => w.1 == who && w.2 != page) then
    s.modCore p (fun c => { c with walkBad := c.walkBad.filter (fun w => !(w.1 == who && w.2 != page)) })
  else s

/-- A global access of an agent translated through the core's buffer, the die's, or a walk (R289). -/
def State.translate (s0 : State) (p part va : Nat) (kind : Acc3) (who : Nat) : Via × State :=
  let page := s0.walkPage part va
  let s := s0.dropStale p who page
  if s.walkFailed p who page then
    (.done .transFault, s.modCore p (fun c => { c with walkBad := c.walkBad.erase (who, page) }))
  else
    match (s.coreAt p).tlb.find? (fun t => t.covers part va) with
    | some t => let r := s.useEntry part va kind t; (.done r.1, r.2)
    | none =>
      match (tgetD [] s.dieTlb (dieOf p)).find? (fun t => t.covers part va) with
      | some t =>
        let s' := (s.modCore p (fun c => { c with tlb := tlbPut 256 (Config.freeNat s.free) c.tlb t })).draw
        let r := s'.useEntry part va kind t
        (.done r.1, r.2)
      | none => (.wait, s.joinWalk p part page who)

/-- A partition's TLB entries dropped (R289). -/
def State.tlbDrop (s : State) (part : Nat) : State :=
  let keep := fun l : List TlbEnt => l.filter (fun t => t.part != part)
  { s with
    dieTlb := s.dieTlb.map (fun d => (d.1, keep d.2)),
    cores := s.cores.map (fun c => (c.1, { c.2 with tlb := keep c.2.tlb })) }

/-- The held copies of a partition let go, to attempt their access once more (R291). -/
def State.retryCopies (s : State) (part : Nat) : State :=
  { s with cores := s.cores.map (fun c =>
      let mine := (match c.2.team with
        | some t => ((tget s.teams t).map Team.part).getD c.2.tag
        | none => c.2.tag) == part
      (c.1, if mine then { c.2 with ce := { c.2.ce with hold := none } } else c.2)) }

/-- Firmware's invalidation of a partition's TLB entries, after which its held copies try again (R289, R291). -/
def State.tlbInvalidate (s : State) (part : Nat) : State := (s.tlbDrop part).retryCopies part

/-! ### Copy-on-write (R365) -/

/-- The slots whose frozen ranges hold a granule that their drains have not passed, and of which they have no shadow yet. -/
def Part.cowSlots (pt : Part) (va : Nat) : List (Nat × Slot) :=
  pt.slots.filter (fun x => decide (x.2.base ≤ va / 65536) && decide (va / 65536 < x.2.base + x.2.pages) &&
    !(x.2.drain.any (fun d => d.streamed)) && (tget x.2.shadows (va / 65536)).isNone)

/-- A granule copied to the next free shadow page of a slot; none where the pool is empty (R365). -/
def State.shadowFor (s : State) (part va pa : Nat) (x : Nat × Slot) : Option State :=
  match (s.partAt part).pool with
  | [] => none
  | sh :: rest =>
    let from_ := pa / 65536 * 65536
    let s' := s.modPart part (fun pt => { pt with
      pool := rest, slots := tset pt.slots x.1 { x.2 with shadows := tset x.2.shadows (va / 65536) sh } })
    let moved := s.bad.filterMap (fun w => if from_ ≤ w && w < from_ + 65536 then some (sh + (w - from_)) else none)
    some { s' with
      mem := putRange s'.mem sh 65536 (cellsIn s'.mem from_ 65536),
      bad := s'.bad.filter (fun w => !(decide (sh ≤ w) && decide (w < sh + 65536))) ++ moved }

/-- Shadows made for slots, one after the other. -/
def State.shadowsFor (s : State) (part va pa : Nat) : List (Nat × Slot) → Option State
  | [] => some s
  | x :: t => match s.shadowFor part va pa x with
    | none => none
    | some z => z.shadowsFor part va pa t

/-- Before a write to a page with COW set: the granule copied to a shadow for every slot that still needs one, or a wait while
the pool has too few (R265, R365). -/
def State.cowBefore (s : State) (part va pa : Nat) : Option State := s.shadowsFor part va pa ((s.partAt part).cowSlots va)

/-! ### Ranges of global memory -/

/-- A range of global memory cut at granules: addresses and lengths. -/
def granules (va n : Nat) : List (Nat × Nat) :=
  (List.range ((65535 + n + va) / 65536 - va / 65536)).map (fun i =>
    let lo := max va ((va / 65536 + i) * 65536)
    (lo, min (va + n) ((va / 65536 + i + 1) * 65536) - lo))

/-- A range of global memory as pieces within granules: address, length, cells at offsets from it. -/
def pieces (va n : Nat) (cells : Memory) : List (Nat × Nat × Memory) :=
  (granules va n).map (fun x => (x.1, x.2, cellsIn cells (x.1 - va) x.2))

/-- The state in which a page of global memory may be written (R365): its granule copied first where its entry has COW set; while the
pool has too few shadows the state is marked `short`, and the step that comes to it leaves all undone, to be tried again (the model's choice,
log 95). -/
def State.readyPage (s : State) (part va pa : Nat) (pte : BitVec 64) : State :=
  if pteCow pte then (s.cowBefore part va pa).getD { s with short := true } else s

/-- Where pieces of global memory lie, each made ready to be written (R365); none where one cannot be written. -/
def State.reach (s : State) (part : Nat) (l : List Nat) : Option (State × List Nat) :=
  l.foldl (fun z va => z.bind (fun y => match y.1.xlatTable part va .write with
    | .ok pa pte => some (y.1.readyPage part va pa pte, y.2 ++ [pa])
    | _ => none)) (some (s, []))

/-- A range of physical memory replaced by cells at offsets from its start; words wholly written are whole again (R405). -/
def State.putCells (s : State) (pa n : Nat) (cells : Memory) : State :=
  { s with
    mem := putRange s.mem pa n cells,
    bad := s.bad.filter (fun w => !(decide (pa ≤ w) && decide (w + 8 ≤ pa + n))) }

/-- Pieces of global memory replaced, once all have been reached; none where one cannot be written, and nothing written while a shadow
is lacking (R365). -/
def State.putPieces (s : State) (part : Nat) (l : List (Nat × Nat × Memory)) : Option State :=
  (s.reach part (l.map Prod.fst)).map (fun r =>
    if r.1.short then r.1 else (l.zip r.2).foldl (fun z x => z.putCells x.2 x.1.2.1 x.1.2.2) r.1)

/-- A range of global memory replaced by cells at offsets from its start; none where it cannot be written. -/
def State.putGlobal (s : State) (part va n : Nat) (cells : Memory) : Option State := s.putPieces part (pieces va n cells)

/-- A range of global memory as cells at offsets from its start; none where it cannot be read. -/
def State.takeGlobal (s : State) (part va n : Nat) : Option Memory :=
  (granules va n).foldl (fun z x => z.bind (fun m => match s.xlatTable part x.1 .read with
    | .ok pa _ => if s.badIn pa x.2 then none else some (m ++ (cellsIn s.mem pa x.2).map (fun c => (c.1 + (x.1 - va), c.2)))
    | _ => none)) (some [])

/-! ### Tagged banks (R361) -/

/-- Where core c's record starts in a save area (R363). -/
def coreRecord (c : Nat) : Nat := 0x10000 + c * 0x480000

/-- The logical core of a save that stood at a position, if its region held it. -/
def Saved.logical (v : Saved) (p : Nat) : Option Nat :=
  if v.row ≤ rowOf p ∧ rowOf p < v.row + v.region.h ∧ v.col ≤ colOf p ∧ colOf p < v.col + v.region.w then
    some ((rowOf p - v.row) * v.region.w + (colOf p - v.col))
  else none

/-- Whether a bank tagged with a handle at a position belongs to a save. -/
def Saved.owns (v : Saved) (h : BitVec 32) (p : Nat) : Bool := v.resident && v.handle == h && (v.logical p).isSome

/-- A save with a bank's cells and uncorrectable words in it. -/
def Saved.withBank (v : Saved) (l b : Nat) (cells : Memory) (lost : List Nat) : Saved :=
  { v with
    scratch := lmod v.scratch l (fun m => putRange m (b * bankBytes) bankBytes cells),
    bad := lmod v.bad l (fun x => x ++ lost) }

/-- The save that owns a tagged bank: a pre-empted team's, else the newest one in a save area. -/
def State.ownerOf (s : State) (h : BitVec 32) (p : Nat) : Option Saved :=
  match s.teams.findSome? (fun t => t.2.save.bind (fun v => if v.owns h p then some v else none)) with
  | some v => some v
  | none => (s.areas.find? (fun a => a.2.owns h p)).map Prod.snd

/-- A bank's bytes written to a save area, where it can be written. -/
def State.areaBank (s : State) (v : Saved) (l b : Nat) (cells : Memory) : State :=
  match v.area with
  | some a => (s.putGlobal v.part (a + coreRecord l + b * bankBytes) bankBytes cells).getD s
  | none => s

/-- A tagged bank written to its owner's save area, and its tag cleared (R361). -/
def State.evictBank (s : State) (p b : Nat) : State :=
  match tget (s.coreAt p).bankTags b with
  | none => s
  | some h =>
    let key := scratchKey p (b * bankBytes)
    let cells := cellsIn s.mem key bankBytes
    let lost := s.bad.filterMap (fun w => if key ≤ w ∧ w < key + bankBytes then some (w - scratchKey p 0) else none)
    let owner := s.ownerOf h p
    let put := fun (v : Saved) =>
      if v.owns h p && owner.any (fun o => o.area == v.area) then v.withBank ((v.logical p).getD 0) b cells lost else v
    let s1 := match owner with
      | some v => s.areaBank v ((v.logical p).getD 0) b cells
      | none => s
    let s2 := s1.modCore p (fun c => { c with bankTags := terase c.bankTags b })
    { s2 with
      teams := s2.teams.map (fun t => (t.1, { t.2 with save := t.2.save.map put })),
      areas := s2.areas.map (fun a => (a.1, put a.2)) }

/-- The bank at a scratchpad offset made ready for the task of its core: another task's tag is evicted first (R361). -/
def State.touch (s : State) (p o : Nat) : State :=
  match (s.coreAt p).bankTags with
  | [] => s
  | tags => match tget tags (o / bankBytes) with
    | none => s
    | some h => if h = s.handleAt p then s else s.evictBank p (o / bankBytes)

/-- The banks of a range of a scratchpad made ready for the task of its core (R361). -/
def State.touchSpan (s : State) (p o n : Nat) : State :=
  ((List.range ((o + n - 1) / bankBytes + 1 - o / bankBytes)).map (fun i => (o / bankBytes + i) * bankBytes)).foldl (fun z b => z.touch p b) s

/-- Bytes written to the scratchpad of a core. -/
def State.pokeLocal (s : State) (p o : Nat) (bytes : List Byte) : State :=
  (s.touchSpan p o bytes.length).poke (scratchKey p o) bytes

/-! ### Inboxes (R145, R230) -/

/-- Beats that the entries of an inbox hold. -/
def boxBeats (l : List InEntry) : Nat := (l.map (fun e => e.beats.length)).foldl (· + ·) 0

/-- Whether an inbox has room for an entry (R230). -/
def boxRoom (l : List InEntry) (e : InEntry) : Bool :=
  decide (l.length < 16) && decide (boxBeats l + e.beats.length ≤ 64)

/-- Entries of an inbox. -/
def Ctl.box (c : Ctl) (b : Nat) : List InEntry := c.inbox.toList.getD b []

/-- An inbox with an entry appended. -/
def Ctl.putBox (c : Ctl) (b : Nat) (e : InEntry) : Ctl :=
  { c with inbox := Vector.ofFn (fun i => if i.val = b then c.inbox[i] ++ [e] else c.inbox[i]) }

/-- One of INBOXLOST's counts raised, saturating at 2^16 − 1 (R211). -/
def lostUp (v : BitVec 32) (high : Bool) : BitVec 32 :=
  if high then (if v.toNat / 65536 = 65535 then v else v + 65536) else (if v.toNat % 65536 = 65535 then v else v + 1)

/-- A done token or error token put into inbox 6 or 7, or dropped and counted (R230). -/
def Ctl.putOrDrop (c : Ctl) (b : Nat) (e : InEntry) : Ctl :=
  if boxRoom (c.box b) e then c.putBox b e else { c with inboxLost := lostUp c.inboxLost (b == 7) }

/-! ### Interrupt messages and fault records (R352, R399) -/

/-- An interrupt message (R399). -/
def irqMsg (kind part arg : Nat) : BitVec 64 := BitVec.ofNat 64 (kind % 256 + part % 32 * 256 + arg % 65536 * 65536)

/-- An interrupt message sent. -/
def State.irq (s : State) (kind part arg : Nat) : State := { s with irqs := s.irqs ++ [irqMsg kind part arg] }

/-- The fields of a fault record (R352). -/
structure FaultRec where
  code    : Nat
  cont    : Bool
  stopped : Bool
  dom     : Nat
  handle  : BitVec 32
  lid     : Nat
  pos     : Nat
  node    : Nat
  kind    : Nat
  bank    : Nat
  inst    : Nat
  addr    : Nat
  hdr     : BitVec 32
  count   : Nat
  detail  : List Byte
  deriving DecidableEq, Repr

/-- The 64 bytes of a record (R352). -/
def FaultRec.bytes (f : FaultRec) (lost : Bool) (part : Nat) : List Byte :=
  bytesOfNat f.code 1 ++ bytesOfNat (f.cont.toNat + 2 * lost.toNat + 4 * f.stopped.toNat) 1 ++ bytesOfNat part 1 ++
  bytesOfNat f.dom 1 ++ bytesOfNat f.handle.toNat 4 ++ bytesOfNat f.lid 2 ++ bytesOfNat f.pos 2 ++ bytesOfNat f.node 1 ++
  bytesOfNat f.kind 1 ++ bytesOfNat f.bank 1 ++ bytesOfNat 0 1 ++ bytesOfNat (f.inst % 2 ^ 48) 8 ++ bytesOfNat f.addr 8 ++
  bytesOfNat f.hdr.toNat 4 ++ bytesOfNat f.count 4 ++ (f.detail ++ List.replicate 24 0).take 24

/-- A fault record written to a partition's ring with its interrupt message, or dropped and counted (R352). -/
def State.fault (s : State) (part : Nat) (f : FaultRec) : State :=
  let pt := s.partAt part
  if (pt.pfqW + 1) % 1024 = pt.pfqR then
    s.modPart part (fun q => { q with pfqLost := min (q.pfqLost + 1) 65535, lostFlag := true })
  else
    let a := pt.pfq.toNat + 64 * pt.pfqW
    let s' := if physOk a then s.poke a (f.bytes pt.lostFlag part) else s
    (s'.modPart part (fun q => { q with pfqW := (q.pfqW + 1) % 1024, lostFlag := false })).irq 1 part ((pt.pfqW + 1) % 1024)

/-- A record of a fault on a core, its place and task filled in; the other fields blank. -/
def State.recAt (s : State) (p code node dom : Nat) : FaultRec :=
  { code := code, cont := false, stopped := false, dom := dom, handle := s.handleAt p, lid := s.lid p, pos := p, node := node,
    kind := 0, bank := 0, inst := 0, addr := 0, hdr := 0, count := 0, detail := [] }

/-- A fault record of a memory node (R352): access kind, address, and the bank of a local offset. -/
def State.portFault (s : State) (p id : Nat) (n : Node) (code kind addr : Nat) (localBank : Bool) (idx : List Nat) : State :=
  s.fault (s.partOf p)
    { s.recAt p code id n.dom with
      inst := n.inst, kind := kind, addr := addr, bank := if localBank then 64 + addr / bankBytes else 0,
      detail := idx.flatMap (fun i => bytesOfNat i 2) }

end Sys2Proof.Machine
end

