-- ==== Sys2Proof/Machine/Guard.lean ====
section
/-!
DEFINITION. Boundary guards (R393, R394): statuses dropped at the egress port of a core, and the records of a route that
drops.
-/

namespace Sys2Proof.Machine

/-- The node of a core that has sent on a route whose statuses are dropped, with its id: that of the last status dropped, else that
of the oldest on its way to the guard (R174, R394). -/
def State.senderOf (s : State) (p route : Nat) : Option (Nat × Node) :=
  match (s.coreAt p).cfg with
  | none => none
  | some g =>
    let id := match tget g.dropper route with
      | some i => some i
      | none => (g.egress.find? (fun (x : Nat × Nat × Status) => x.1 == route)).map (fun (x : Nat × Nat × Status) => x.2.1)
    id.bind (fun i => (tget g.nodes i).map (fun n => (i, n)))

/-- The count field of a boundary record (R353): the route, and the bursts it has dropped, saturating. -/
def guardCount (route drops : Nat) : Nat := route % 2 ^ 12 + min drops (2 ^ 20 - 1) * 2 ^ 12

/-- The bursts that a route of a core has dropped since load. -/
def State.dropsOf (s : State) (p route : Nat) : Nat :=
  match (s.coreAt p).cfg with
  | some g => tgetD 0 g.drops route
  | none => 0

/-- A boundary record of a route, to the sending partition's ring (R394). -/
def State.guardRecord (s : State) (p route : Nat) (hdr : BitVec 32) : State :=
  let base := match s.senderOf p route with
    | some (id, n) => { s.recAt p 0x30 id n.dom with inst := n.inst }
    | none => s.recAt p 0x30 0xFF 0xFF
  s.fault (s.partOf p) { base with hdr := hdr, count := guardCount route (s.dropsOf p route) }

/-- The oldest status on its way to a guard by a route dropped there; the first burst dropped is recorded (R393, R394). -/
def State.guardDrop (s : State) (p route : Nat) : State :=
  match (s.coreAt p).cfg with
  | none => s
  | some g => match g.egress.find? (fun x => x.1 == route) with
    | none => s
    | some x =>
      let s1 := s.modCfg p (fun g => { g with egress := g.egress.erase x })
      match x.2.2 with
      | none => s1
      | some b =>
        let n := tgetD 0 g.drops route + 1
        let s2 := s1.modCfg p (fun g => { g with drops := tset g.drops route n, dropper := tset g.dropper route x.2.1 })
        if n = 1 then s2.guardRecord p route b.hdr else s2

/-- The last record of a route of a core whose domain will send nothing more: what is under way is dropped first (R394). -/
def State.guardLast (s : State) (p route : Nat) : State :=
  match (s.coreAt p).cfg with
  | none => s
  | some g =>
    let s1 := (List.range g.egress.length).foldl (fun z _ => z.guardDrop p route) s
    if s1.dropsOf p route = 0 then s1
    else (s1.guardRecord p route 0).modCfg p (fun g => { g with drops := terase g.drops route, dropper := terase g.dropper route })

/-- The last records of the routes of a region's domain, or of all its domains (R394). -/
def State.guardClose (s : State) (r : Region) (dom : Option Nat) : State :=
  r.cores.foldl (fun z p => match (z.coreAt p).cfg with
    | none => z
    | some g =>
      let routes := (g.drops.map Prod.fst ++ g.egress.map Prod.fst).eraseDups
      routes.foldl (fun y rt =>
        let mine := match dom, y.senderOf p rt with
          | some d, some (_, n) => n.dom == d
          | _, _ => true
        if mine then y.guardLast p rt else y) z) s

/-- The last records of a region that a wave discards (R394). -/
def State.guardWave (s : State) (k : Nat) : State :=
  match tget s.regions k with
  | some r => s.guardClose r none
  | none => s

/-- BOUNDARY_DROP: the oldest status on its way to a guard by a route is dropped (R393, R394). -/
def execBoundaryDrop (core route : Nat) (s : State) : Host.Outcome State Fault Refusal := .next (s.guardDrop core route)

end Sys2Proof.Machine
end

