-- ==== Sys2Proof/Machine/Ending.lean ====
section
/-!
DEFINITION. How leaves, plan nodes and tasks end (R310, R313, R319, R350, R351): a team stopped, statuses passed up the plan,
cascades, and dependence-table entries given up.
-/

namespace Sys2Proof.Machine

/-- The event states of an end (R306). -/
def endDone : Nat := 1
/-- Faulted (R306). -/
def endFaulted : Nat := 2
/-- Killed (R306). -/
def endKilled : Nat := 3

/-- A core after its team has been stopped: the controller rests, its command unit and copy engine hold nothing. -/
def Core.stopped (c : Core) : Core :=
  { c with
    ctl := { c.ctl with run := .idle, pend := .none, kept := [], preempt := false },
    unit := [], ce := CopyEng.reset, team := none, walkBad := [], hubCmd := none }

/-- A configuration whose channels hold nothing. -/
def Cfg.emptied (g : Cfg) : Cfg := { g with chans := g.chans.map (fun c => (c.1, { c.2 with q := [], wire := [] })) }

/-- The region a team leaves: free, its channel buffers discarded (R313, R393). -/
def State.freeRegion (s : State) (r : Nat) : State :=
  match tget s.regions r with
  | none => s
  | some g =>
    let s' := { s with regions := tset s.regions r { g with team := none } }
    if g.configured then
      g.cores.foldl (fun z p => z.modCore p (fun c => if c.region = some r then { c with cfg := c.cfg.map Cfg.emptied } else c)) s'
    else s'

/-- A region's record without a configuration. -/
def Region.bare (r : Region) : Region :=
  { r with
    configured := false, ident := 0, image := 0, doms := [], begun := false, fired := false, quiet := false, kept := [] }

/-- A region whose configuration is discarded: every core unconfigured (R70, R367). -/
def State.unconfigure (s : State) (k : Nat) : State :=
  match tget s.regions k with
  | none => s
  | some r =>
    let s1 := r.cores.foldl (fun z p => z.modCore p (fun c => if c.region = some k then { c with cfg := none, region := none } else c)) s
    { s1 with regions := tset s1.regions k r.bare }

/-- A team stopped at once (R313): its cores released, its region freed, arrivals still on their way to it dropped;
a signal it has sent goes on, with no controller that waits for its outcome. -/
def State.stopTeam (s : State) (t : Nat) : State :=
  match tget s.teams t with
  | none => s
  | some tm =>
    let mine := tm.cores.filter (fun p => (s.coreAt p).team == some t)
    let s1 := mine.foldl (fun z p => z.modCore p Core.stopped) s
    let s2 := if mine.isEmpty then s1 else s1.freeRegion tm.region
    { s2 with
      teams := terase s2.teams t,
      arrivals := s2.arrivals.filter (fun a => !mine.contains a.home),
      signals := s2.signals.map (fun g => if mine.contains g.src then { g with src := Config.coreCount } else g),
      walks := s2.walks.map (fun w => { w with joined := w.joined.filter (fun j => !mine.contains j.core) }) }

/-- The package with one task changed. -/
def State.modTask (s : State) (t : Nat) (f : Task → Task) : State :=
  match tget s.tasks t with
  | some k => { s with tasks := tset s.tasks t (f k) }
  | none => s

/-- The status of a plan node while its task runs. -/
def Task.nodeAt (k : Task) (i : Nat) : PlanSt :=
  k.nodes.getD i { started := false, ended := none, team := none, parked := [] }

/-- The children of a plan node. -/
def Task.kidsOf (k : Task) (i : Nat) : List Nat :=
  match k.plan[i]? with
  | some n => n.kids
  | none => []

/-- The parent of a plan node. -/
def Task.parentOf (k : Task) (i : Nat) : Option Nat := (List.range k.plan.length).find? (fun j => (k.kidsOf j).contains i)

/-- A team stopped on its region: the last boundary records written (R394), and, where a kill or a fault stops it, the region's
configuration discarded (R313, R350, R367). -/
def State.endTeam (s : State) (t : Nat) (discard : Bool) : State :=
  match tget s.teams t with
  | none => s
  | some tm =>
    if (tget s.regions tm.region).any (fun r => r.team == some t) then
      let s' := (s.guardWave tm.region).stopTeam t
      if discard then s'.unconfigure tm.region else s'
    else s.stopTeam t

/-- A plan node marked ended, its team stopped and its parked signals dropped (R320). -/
def State.markEnd (s : State) (t i : Nat) (e : End) : State :=
  match tget s.tasks t with
  | none => s
  | some k =>
    let s' := match (k.nodeAt i).team with
      | some tm => s.endTeam tm (e.st != endDone)
      | none => s
    s'.modTask t (fun q => { q with nodes := lmod q.nodes i (fun x => { x with ended := some e, team := none, parked := [] }) })

/-- The status a node takes from its children: the first that is not done, in child order (R310). -/
def firstBad : List (Option End) → End
  | [] => { st := endDone, code := 0 }
  | some e :: l => if e.st = endDone then firstBad l else e
  | none :: l => firstBad l

/-- The ends of a plan node's children, in child order. -/
def Task.kidEnds (k : Task) (i : Nat) : List (Option End) := (k.kidsOf i).map (fun q => (k.nodeAt q).ended)

/-- The end of a plan node that a kill reaches: a leaf's killed, an inner node's that of its children, once they have ended
(R310, R313). -/
def State.killedEnd (s : State) (t i : Nat) : End :=
  match tget s.tasks t with
  | none => { st := endKilled, code := 0 }
  | some k => if (k.kidsOf i).isEmpty then { st := endKilled, code := 0 } else firstBad (k.kidEnds i)

/-- A plan node and everything below it that has not ended, killed, from the leaves up (R310, R313). -/
def State.killTree : Nat → State → Nat → Nat → State
  | 0, s, _, _ => s
  | fuel + 1, s, t, i =>
    match tget s.tasks t with
    | none => s
    | some k =>
      if (k.nodeAt i).ended.isSome then s
      else
        let z := (k.kidsOf i).foldl (fun z j => State.killTree fuel z t j) s
        z.markEnd t i (z.killedEnd t i)

/-- Whether a parent task is alive (R305, R319). -/
def State.taskLive (s : State) (h : BitVec 32) : Bool :=
  match s.taskOf h with
  | some t => match tget s.tasks t with
    | some k => k.ended.isNone
    | none => false
  | none => false

/-- Whether a task still holds its entry (R305): until it has ended and posted, and has been joined or its parent has
ended. -/
def State.holdsEntry (s : State) (k : Task) : Bool :=
  k.ended.isNone || !k.posted || (k.srcCore.isSome && !k.joined && s.taskLive k.parent)

/-- Entries given up (R305); the generation last given is kept. -/
def State.sweep (s : State) : State :=
  let gone := s.tasks.filter (fun x => !s.holdsEntry x.2)
  { s with tasks := s.tasks.filter (fun x => s.holdsEntry x.2),
           gens := gone.foldl (fun g x => tset g x.1 x.2.gen) s.gens }

/-- A plan node ends, and what follows up the plan (R310); the root's status is the task's. -/
def State.endNode : Nat → State → Nat → Nat → End → State
  | 0, s, _, _, _ => s
  | fuel + 1, s, t, i, e =>
    match tget s.tasks t with
    | none => s
    | some k =>
      if (k.nodeAt i).ended.isSome then s
      else
        let s1 := s.markEnd t i e
        if i = 0 then (s1.modTask t (fun q => { q with ended := some e })).sweep
        else match k.parentOf i with
          | none => s1
          | some j =>
            let cascade := match k.plan[j]? with
              | some n => n.cascade
              | none => false
            let s2 := if cascade && e.st != endDone then (k.kidsOf j).foldl (fun z q => z.killTree 10 t q) s1 else s1
            match tget s2.tasks t with
            | none => s2
            | some k2 =>
              let ends := k2.kidEnds j
              if ends.all Option.isSome then State.endNode fuel s2 t j (firstBad ends) else s2

/-- The leaf that a core's team runs ends (R310, R351). -/
def State.endLeaf (s : State) (p : Nat) (e : End) : State :=
  let tm := s.teamAt p
  match (s.coreAt p).team with
  | some t => match tget s.tasks tm.task with
    | some _ => s.endNode 10 tm.task tm.leaf e
    | none => s.stopTeam t
  | none => s

/-- The end of a task's root, which is the task's (R310); a task without one counts as killed. -/
def Task.rootEnd (k : Task) : End := (k.nodeAt 0).ended.getD { st := endKilled, code := 0 }

/-- A task killed (R313): every leaf that has not ended ends killed, and the statuses go up the plan to the task's (R310). -/
def State.killTask (s : State) (t : Nat) : State :=
  match tget s.tasks t with
  | none => s
  | some k =>
    if k.ended.isSome then s
    else ((s.killTree 10 t 0).modTask t (fun q => { q with ended := some q.rootEnd })).sweep

/-- A fault code with the logical core where it arose (R351). -/
def faultWord (code lid : Nat) (extra : Nat) : BitVec 32 := BitVec.ofNat 32 (code % 256 + lid % 1024 * 256 + extra % 2 ^ 14 * 2 ^ 18)

/-- A fault marked "ends faulted" noted for the task of a core's team: its first code counts (R351, R353). -/
def State.doomAt (s : State) (p code : Nat) : State :=
  s.modTeamAt p (fun t => { t with doom := some (t.doom.getD (faultWord code (s.lid p) 0)) })

/-- A turn added at the end of the agenda. -/
def State.later (s : State) (t : Turn) : State := { s with agenda := s.agenda ++ [t] }

end Sys2Proof.Machine
end

