-- ==== Sys2Proof/WellFormed.lean ====
section
/-!
DEFINITION. Which instructions are well formed: field values the encodings do not admit, and events that name nothing the
package has, are refused here.
-/

namespace Sys2Proof

/-- The scope codes of R221: 5–7 are illegal. -/
def scopeOk (scope : BitVec 3) : Bool := decide (scope.toNat ≤ 4)

/-- The package grid has 512 visible cores (R1). -/
def coreOk (core : Nat) : Bool := decide (core < 512)

/-- Partitions 0–31 (R389). -/
def partOk (part : Nat) : Bool := decide (part < 32)

/-- Peer ports 0–15 (R376). -/
def portOk (port : Nat) : Bool := decide (port < 16)

/-- Queues 0–2047 (R303). -/
def queueOk (q : Nat) : Bool := decide (q < 2048)

/-- Where a save area may stand: global, aligned on 4 KiB (R260). -/
def areaOk (a : Nat) : Bool := decide (a % 4096 = 0) && decide (a < 2 ^ 57)

/-- The type nibble of a flit (R378). -/
def flitType (flit : BitVec 512) : Nat := (flit.extractLsb' 0 4).toNat

/-- The places of a corrected error (R354, R355). -/
def siteOk : ErrorSite → Bool
  | .bank core tile bank => coreOk core && decide (tile < 4) && decide (bank < 16)
  | .way core way => coreOk core && decide (way < 16)
  | .dram channel => decide (channel < 160)
  | .other core => coreOk core

/-- The objects of a retag (R392). -/
def retagOk : RetagSite → Bool
  | .core core tag _ => coreOk core && partOk tag
  | .queue q tag _ => queueOk q && partOk tag
  | .grant part _ _ => partOk part
  | .homeGroup g _ => decide (g < 128)

/-- The assigned command codes of R247. -/
def commandCodes : List Nat :=
  [0x01, 0x02, 0x03, 0x04, 0x05, 0x06, 0x08, 0x09, 0x0A, 0x0B, 0x10, 0x11, 0x12, 0x13, 0x14, 0x15, 0x18, 0x19, 0x20, 0x21, 0x22, 0x23, 0x24, 0x28, 0x29]

/-- Whether an instruction's fields are ones its encoding or the package admits. -/
def wfInstr : Instr → Bool
  | .add _ _ _ => true
  | .sub _ _ _ => true
  | .and _ _ _ => true
  | .or _ _ _ => true
  | .xor _ _ _ => true
  | .sll _ _ _ => true
  | .srl _ _ _ => true
  | .sra _ _ _ => true
  | .slt _ _ _ => true
  | .sltu _ _ _ => true
  | .mul _ _ _ => true
  | .mulh _ _ _ => true
  | .mulhu _ _ _ => true
  | .div _ _ _ => true
  | .divu _ _ _ => true
  | .rem _ _ _ => true
  | .remu _ _ _ => true
  | .min _ _ _ => true
  | .max _ _ _ => true
  | .minu _ _ _ => true
  | .maxu _ _ _ => true
  | .clz _ _ => true
  | .ctz _ _ => true
  | .popc _ _ => true
  | .addi _ _ _ => true
  | .andi _ _ _ => true
  | .ori _ _ _ => true
  | .xori _ _ _ => true
  | .slti _ _ _ => true
  | .sltiu _ _ _ => true
  | .slli _ _ _ => true
  | .srli _ _ _ => true
  | .srai _ _ _ => true
  | .lui _ _ => true
  | .luih _ _ => true
  | .beq _ _ _ => true
  | .bne _ _ _ => true
  | .blt _ _ _ => true
  | .bge _ _ _ => true
  | .bltu _ _ _ => true
  | .bgeu _ _ _ => true
  | .jal _ => true
  | .jalr _ _ _ => true
  | .ldb _ _ _ => true
  | .ldbu _ _ _ => true
  | .ldh _ _ _ => true
  | .ldhu _ _ _ => true
  | .ldw _ _ _ => true
  | .ldwu _ _ _ => true
  | .ldd _ _ _ => true
  | .stb _ _ _ => true
  | .sth _ _ _ => true
  | .stw _ _ _ => true
  | .std _ _ _ => true
  | .amoadd _ _ _ scope _ => scopeOk scope
  | .amoswap _ _ _ scope _ => scopeOk scope
  | .amocas _ _ _ scope _ => scopeOk scope
  | .amomin _ _ _ scope _ => scopeOk scope
  | .amomax _ _ _ scope _ => scopeOk scope
  | .amominu _ _ _ scope _ => scopeOk scope
  | .amomaxu _ _ _ scope _ => scopeOk scope
  | .amoand _ _ _ scope _ => scopeOk scope
  | .amoor _ _ _ scope _ => scopeOk scope
  | .amoxor _ _ _ scope _ => scopeOk scope
  | .fence scope => scopeOk scope
  | .cmdw _ _ _ => true
  | .cmdld _ _ _ => true
  | .cmdi _ _ => true
  | .cmdq _ _ _ => true
  | .tsend _ _ _ => true
  | .trecv _ _ _ => true
  | .iwait _ _ _ => true
  | .bari _ _ => true
  | .bara _ _ => true
  | .barw _ _ _ => true
  | .baraw _ _ _ => true
  | .sig _ _ _ => true
  | .spawn _ _ => true
  | .join _ _ => true
  | .csrr _ _ => true
  | .csrw _ _ => true
  | .csrs _ _ => true
  | .csrc _ _ => true
  | .trap _ => true
  | .tret => true
  | .yield => true
  | .synci => true
  | .brk _ => true
  | .watchdog core => coreOk core
  | .hostServiceAnswer core _ => coreOk core
  | .feed _ => true
  | .bindw _ => true
  | .bound _ => true
  | .steert _ => true
  | .inject _ => true
  | .retry _ => true
  | .tarm _ => true
  | .tfire _ => true
  | .tdisarm _ => true
  | .copy _ => true
  | .lxrun _ => true
  | .cfgld _ => true
  | .cfgq _ => true
  | .domgo _ => true
  | .domstop _ => true
  | .domsave _ => true
  | .domload _ => true
  | .wheeldef _ => true
  | .hubrd _ => true
  | .amxr _ => true
  | .ckpt _ => true
  | .ckdrain _ => true
  | .bkey _ => true
  | .linkcfg _ => true
  | .linkstat _ => true
  | .domainInstantEnd _ dom => decide (dom < 4)
  | .remoteStatusReceive core endpoint _ => coreOk core && decide (endpoint < 256)
  | .quiescenceSample _ => true
  | .pathClockGate core tile => coreOk core && decide (tile < 4)
  | .bankKeyMove core bank => coreOk core && decide (bank < 64)
  | .pass _ => true
  | .src _ => true
  | .sink _ => true
  | .esink _ => true
  | .cpyt _ => true
  | .ltx _ => true
  | .lrx _ => true
  | .sreq _ => true
  | .red2 _ => true
  | .statw _ => true
  | .aadd _ => true
  | .asub _ => true
  | .ahad _ => true
  | .amax _ => true
  | .amin _ => true
  | .asel _ => true
  | .afma _ => true
  | .aneg _ => true
  | .aabs _ => true
  | .arelu _ => true
  | .ascl _ => true
  | .amask _ => true
  | .aclmp _ => true
  | .aren _ => true
  | .aexp2 _ => true
  | .alog2 _ => true
  | .arcp _ => true
  | .arsq _ => true
  | .asqrt _ => true
  | .atanh _ => true
  | .asigm _ => true
  | .adotW r => !r.var.getLsbD 0
  | .adotP r => r.var.getLsbD 0
  | .adott _ => true
  | .aoutr _ => true
  | .anrm _ => true
  | .alsum _ => true
  | .amaxr _ => true
  | .enc _ => true
  | .dec _ => true
  | .acc r => !r.var.getLsbD 0
  | .accF r => r.var.getLsbD 0
  | .acck _ => true
  | .drain _ => true
  | .dlyb _ => true
  | .conv _ => true
  | .mrd _ => true
  | .mwr _ => true
  | .mird _ => true
  | .miwr _ => true
  | .mrmw _ => true
  | .mgrp _ => true
  | .mgld _ => true
  | .mgst _ => true
  | .mfifo _ => true
  | .mline _ => true
  | .steer _ => true
  | .omerge _ => true
  | .pmerge _ => true
  | .filter _ => true
  | .repl _ => true
  | .cnt _ => true
  | .isect _ => true
  | .union _ => true
  | .pres _ => true
  | .dflt _ => true
  | .pre _ => true
  | .when _ => true
  | .sync _ => true
  | .level _ => true
  | .iadd _ => true
  | .isub _ => true
  | .imul _ => true
  | .ilog _ => true
  | .ishf _ => true
  | .icmp _ => true
  | .irng _ => true
  | .ihash _ => true
  | .plog _ => true
  | .copyStart core => coreOk core
  | .copyComplete core => coreOk core
  | .endOfTileDelivery core => coreOk core
  | .pageWalkComplete die part _ => decide (die < 4) && partOk part
  | .tlbInvalidation part => partOk part
  | .checkpointDrainComplete part slot => partOk part && decide (slot < 8)
  | .hubRead core => coreOk core
  | .barrierArrival src home k => coreOk src && coreOk home && decide (k < 16)
  | .signalArrival src => decide (src ≤ 512)
  | .queueRecordWrite q _ _ => queueOk q.queue && partOk q.source
  | .qkill q _ => queueOk q.queue && partOk q.source
  | .qerrClear q _ => queueOk q.queue && partOk q.source
  | .hostEventWrite part word _ => partOk part && decide (word < 2048)
  | .taskStart => true
  | .completionEventPost task => decide (task < 16384)
  | .preempt order => areaOk order.area
  | .deepSaveTimeout _ => true
  | .resume _ => true
  | .taggedBankEvict core bank => coreOk core && decide (bank < 64)
  | .correctedError site => siteOk site
  | .errorWindowEnd => true
  | .bankRetire core bank => coreOk core && decide (bank < 64)
  | .coreFailed core => coreOk core
  | .dataFlitReceive port flit _ => portOk port && flitType flit == 1
  | .ackReceive port flit => portOk port && flitType flit == 2
  | .replayRequestReceive port flit => portOk port && flitType flit == 3
  | .creditReceive port flit => portOk port && flitType flit == 4
  | .portDown port => portOk port
  | .portRetrain port => portOk port
  | .partitionReset part => partOk part
  | .resetDoneClear part => partOk part
  | .coreRepairTest core _ => coreOk core
  | .retag what => retagOk what
  | .registerWrite _ _ _ => true
  | .boundaryDrop core route => coreOk core && decide (route < 4095)
  | .firmwareSwitch part => partOk part
  | .boot _ => true
  | .attestationRequest _ part => partOk part
  | .powerStateRequest core _ => coreOk core
  | .powerRefusalClear core => coreOk core
  | .clockStepChange _ => true
  | .selfRefreshEnter => true
  | .selfRefreshExit => true
  | .illegalInstruction _ => true
  | .instructionFetchFault _ => true
  | .unassignedCommandCode code _ => !commandCodes.contains code.toNat
  | .firmwareUpdate _ => true
  | .systemSoftwarePageAnswer core _ => coreOk core
  | .unknownFlitTypeReceive port flit => portOk port && decide (5 ≤ flitType flit)

end Sys2Proof
end

