-- ==== Sys2Proof/Machine/Ops.lean ====
section
/-!
DEFINITION. The named operations that instructions share: registers (R205), completion, traps and firmware's policy (R236,
R350), the return from a trap (R237), and the controller's accesses to memory (R208–R210, R220).
-/

namespace Sys2Proof.Machine

/-! ### Registers and completion -/

/-- A register's value; s0 reads as zero (R205). -/
def Ctl.get (c : Ctl) (r : Reg) : BitVec 64 := if r = 0 then 0 else c.regs[r.toNat]

/-- A register written; writes to s0 are discarded (R205). -/
def Ctl.put (c : Ctl) (r : Reg) (v : BitVec 64) : Ctl := if r = 0 then c else { c with regs := c.regs.set r.toNat v }

/-- An instruction completed: ip moves on, INSTRET counts it. -/
def Ctl.done (c : Ctl) : Ctl := { c with ip := c.ip + 4, instret := c.instret + 1 }

/-- A jump or taken branch completed. -/
def Ctl.goto (c : Ctl) (t : BitVec 64) : Ctl := { c with ip := t, instret := c.instret + 1 }

/-- A register written and the instruction completed. -/
def Ctl.result (c : Ctl) (d : Reg) (v : BitVec 64) : Ctl := (c.put d v).done

/-- The register of the controller whose turn it is. -/
def State.reg (s : State) (r : Reg) : BitVec 64 := s.me.get r

/-- An instruction that writes one register and completes. -/
def State.result (s : State) (d : Reg) (v : BitVec 64) : State := s.modMe (fun c => c.result d v)

/-- An instruction that completes. -/
def State.retire (s : State) : State := s.modMe Ctl.done

/-- An acquire: the whole data cache is invalidated (R224). -/
def State.acquire (s : State) : State := s.modMe (fun c => { c with dcache := [] })

/-! ### Traps -/

/-- The access kinds of TRAPCAUSE (R236). -/
inductive TrapKind where
  | load
  | store
  | amo
  | fetch
  deriving DecidableEq, Repr

/-- The code of an access kind (R236). -/
def TrapKind.code : TrapKind → Nat
  | .load => 0
  | .store => 1
  | .amo => 2
  | .fetch => 3

/-- TRAPCAUSE of a cause, kind, error code and wait-only bit (R236). -/
def trapWord (cause : Nat) (kind : TrapKind) (err : Nat) (waits : Bool) : BitVec 64 :=
  BitVec.ofNat 64 (cause % 256 + kind.code * 256 + err % 256 * 65536 + waits.toNat * 2 ^ 24)

/-- Entry to a trap (R236): TRAPIP, TRAPCAUSE and TRAPVAL filled, MODE[1] from MODE[0], MODE[0] set, on at TVEC. -/
def Ctl.trapEntry (c : Ctl) (cause : BitVec 64) (val : BitVec 64) : Ctl :=
  { c with trapIp := c.ip, trapCause := cause, trapVal := val, fwPrev := c.fw, fw := true, ip := c.tvec }

/-- The return from a trap (R237): ip from TRAPIP (a multiple of 4, R205), MODE[0] from MODE[1], MODE[1] cleared; where TRAPCAUSE [24] is
set, the wait that was kept last goes on, and else the instruction at TRAPIP is executed (R238). -/
def Ctl.trapReturn (c : Ctl) : Ctl :=
  { c with
    ip := c.trapIp &&& ~~~3, fw := c.fwPrev, fwPrev := false, pend := if c.trapCause.getLsbD 24 then c.kept.headD .none else .none,
    kept := if c.trapCause.getLsbD 24 then c.kept.drop 1 else c.kept }

/-- Firmware's answer to a trap raised in team mode (R350), on the state after the entry. -/
def State.firmware (s : State) (p cause : Nat) (val : BitVec 64) : State :=
  let lid := s.lid p
  if cause = 4 then
    { s.modCtl p (fun c => { c with run := .pageWait }) with pageAsks := s.pageAsks ++ [(p, val.toNat)] }
  else if cause = 5 then
    { s.modCtl p (fun c => { c with run := .service }) with calls := s.calls ++ [(p, true, BitVec.ofNat 12 val.toNat)] }
  else if cause = 6 then
    if val ≠ 0 then
      { s.modCtl p (fun c => { c with run := .service }) with calls := s.calls ++ [(p, false, BitVec.ofNat 12 val.toNat)] }
    else if lid ≠ 0 then s.modCtl p (fun c => { c with run := .halted })
    else
      let s1 := (s.ctlAt p).get 1
      if s1 ≠ 0 then s.endLeaf p { st := endFaulted, code := faultWord 0x7F lid s1.toNat }
      else match (s.teamAt p).doom with
        | some w => s.endLeaf p { st := endFaulted, code := w }
        | none => s.endLeaf p { st := endDone, code := 0 }
  else s.endLeaf p { st := endFaulted, code := faultWord (0x80 + cause) lid 0 }

/-- A trap of the controller at a position (R236): the entry, and in team mode firmware's answer (R350). -/
def State.trapAt (s : State) (p cause : Nat) (kind : TrapKind) (err : Nat) (val : BitVec 64) (waits : Bool) : State :=
  let team := !(s.ctlAt p).fw
  let s' := s.modCtl p (fun c => c.trapEntry (trapWord cause kind err waits) val)
  if team then s'.firmware p cause val else s'

/-- A trap raised by the instruction whose turn it is (R236). -/
def State.trap (s : State) (cause : Nat) (kind : TrapKind) (err : Nat) (val : BitVec 64) : State :=
  s.trapAt s.here cause kind err val false

/-- An illegal-instruction trap; TRAPVAL holds the word (R213). -/
def State.illegal (s : State) (word : BitVec 32) : State := s.trap 1 .load 0 (word.zeroExtend 64)

/-! ### Address spaces (R208) -/

/-- The space of an effective address (R208). -/
inductive Space where
  | global (va : Nat)
  | localMem (off : Nat)
  | peer (lid off : Nat)
  | hub (wheel off : Nat)
  | bad
  deriving DecidableEq, Repr

/-- The space that bits [63:60] select, every unassigned bit zero (R208). -/
def spaceOf (a : BitVec 64) : Space :=
  let n := a.toNat
  match n / 2 ^ 60 with
  | 0x0 => if n / 2 ^ 57 = 0 then .global n else .bad
  | 0x8 => if bitsOf n 59 22 = 0 then .localMem (n % 2 ^ 22) else .bad
  | 0x9 => if bitsOf n 59 32 = 0 then .peer (bitsOf n 31 22) (n % 2 ^ 22) else .bad
  | 0xA => if bitsOf n 59 28 = 0 ∧ bitsOf n 23 22 = 0 then .hub (bitsOf n 27 24) (n % 2 ^ 22) else .bad
  | _ => .bad

/-- Where an access takes place: a memory key, and for a global access its address and entry. -/
inductive Loc where
  | key (k : Nat)
  | line (pa va : Nat) (pte : BitVec 64)
  | trap (cause err : Nat)
  | wait
  deriving DecidableEq, Repr

/-- The place of a controller's access (R208), translated where it is global (R288). -/
def State.locate (s : State) (a : BitVec 64) (kind : Acc3) (peers : Bool) : Loc × State :=
  let p := s.here
  match spaceOf a with
  | .global va =>
    match s.translate p (s.partOf p) va kind whoCtl with
    | (.wait, s') => (.wait, s')
    | (.done .transFault, s') => (.trap 4 0, s')
    | (.done .accessFault, s') => (.trap 3 0, s')
    | (.done (.ok pa pte), s') => (.line pa va pte, s')
  | .localMem off => (.key (scratchKey p off), s.touch p off)
  | .peer l off =>
    let tm := s.teamAt p
    if !peers || tm.count ≤ l then (.trap 3 0, s)
    else
      let q := tm.posOf l
      if (s.coreAt q).failed then (.trap 3 0x13, s) else (.key (scratchKey q off), s.touch q off)
  | .hub _ _ => (.trap 3 0, s)
  | .bad => (.trap 3 0, s)

/-! ### The data cache (R220) -/

/-- Bytes of a data-cache line. -/
def lineBytes : Nat := 1024

/-- A global read through the data cache: a line filled earlier may answer (R220); else memory does and fills the line, so that no older
value follows (R334). Every read of an uncorrectable word reports it, and a line with such a word is not kept (R405): none. -/
def State.readLine (s : State) (pa n : Nat) : Option (List Byte) × State :=
  let ln := pa / lineBytes
  let now := s.peek pa n
  let fill := fun z : State =>
    if z.badIn (ln * lineBytes) lineBytes then (some now, z.modMe (fun c => { c with dcache := terase c.dcache ln }))
    else (some now, z.modMe (fun c => { c with dcache := tset c.dcache ln (cellsIn s.mem (ln * lineBytes) lineBytes) }))
  if s.badIn pa n then (none, s)
  else match tget s.me.dcache ln with
    | none => fill s
    | some cells =>
      let old := readBytes cells (pa % lineBytes) n
      if old = now then (some now, s)
      else if Config.freeBit s.free then (some old, s.draw)
      else fill s.draw

/-- A global write through the data cache to memory (R205, R220). -/
def State.writeLine (s : State) (pa : Nat) (bytes : List Byte) : State :=
  let ln := pa / lineBytes
  (s.poke pa bytes).modMe (fun c =>
    match tget c.dcache ln with
    | some cells => { c with dcache := tset c.dcache ln (writeBytes cells (pa % lineBytes) bytes) }
    | none => c)

/-! ### Loads, stores and atomics -/

/-- What an access gives: a value and the state after it, or a trap, or a wait. -/
inductive Got (α : Type) where
  | ok (v : α) (s : State)
  | trap (cause err : Nat) (s : State)
  | wait (s : State)

/-- A load of n bytes by the controller (R219, R220); `align` is its alignment. -/
def State.load (s : State) (a : BitVec 64) (n align : Nat) (peers : Bool) : Got (List Byte) :=
  if a.toNat % align ≠ 0 then .trap 2 0 s
  else match s.locate a .read peers with
    | (.wait, s') => .wait s'
    | (.trap c e, s') => .trap c e s'
    | (.key k, s') => if s'.badIn k n then .trap 3 0x10 s' else .ok (s'.peek k n) s'
    | (.line pa _ _, s') =>
      match s'.readLine pa n with
      | (none, s2) => .trap 3 0x10 s2
      | (some v, s2) => .ok v s2

/-- Bytes put at a place that has been located: a copy-on-write granule first (R365). -/
def State.storeAt (s : State) (l : Loc) (bytes : List Byte) : Option State :=
  match l with
  | .key k => some (s.poke k bytes)
  | .line pa va pte =>
    if pteCow pte then (s.cowBefore (s.partOf s.here) va pa).map (fun z => z.writeLine pa bytes)
    else some (s.writeLine pa bytes)
  | _ => some s

/-- The access of the instruction at ip waits for a shadow (R365): marked by INSTRET, which no instruction has moved on while it waits, so
that it counts among the region's outstanding requests (R128). -/
def State.awaitShadow (s : State) : State := s.modMe (fun c => { c with shadow := some c.instret })

/-- A store by the controller (R219); it waits while a shadow is lacking (R365). -/
def State.store (s : State) (a : BitVec 64) (bytes : List Byte) : Got Unit :=
  if a.toNat % bytes.length ≠ 0 then .trap 2 0 s
  else match s.locate a .write true with
    | (.wait, s') => .wait s'
    | (.trap c e, s') => .trap c e s'
    | (l, s') => match s'.storeAt l bytes with
      | none => .wait s'.awaitShadow
      | some s2 => .ok () s2

/-- An atomic read, combination and write of n bytes (R221); a page's rights are those of a write (R288), and it waits while a shadow is
lacking (R365). -/
def State.atomic (s : State) (a : BitVec 64) (n : Nat) (f : Nat → Nat) : Got Nat :=
  if a.toNat % n ≠ 0 then .trap 2 0 s
  else match s.locate a .write true with
    | (.wait, s') => .wait s'
    | (.trap c e, s') => .trap c e s'
    | (l, s') =>
      let k := match l with
        | .key k => k
        | .line pa _ _ => pa
        | _ => 0
      if s'.badIn k n then .trap 3 0x10 s'
      else
        let old := s'.peekNat k n
        match s'.storeAt l (bytesOfNat (f old) n) with
        | none => .wait s'.awaitShadow
        | some s2 => .ok old s2

/-- An instruction over an access: its value used, its trap taken with the address, its wait left to a later turn. -/
def Got.after {α : Type} (g : Got α) (kind : TrapKind) (addr : BitVec 64) (use : α → State → State) : State :=
  match g with
  | .ok v s => use v s
  | .trap c e s => s.trap c kind e addr
  | .wait s => s

/-! ### Instruction fetch (R208, R241) -/

/-- What a fetch gives. -/
inductive Fetch where
  | word (w : BitVec 32)
  | fault (translation : Bool)
  | wait
  deriving DecidableEq, Repr

/-- The memory key of an instruction (R208). -/
def State.fetchKey (s : State) (a : BitVec 64) : Loc × State :=
  match spaceOf a with
  | .global _ => s.locate a .fetch false
  | .localMem off => if 0x3E0000 ≤ off then (.key (scratchKey s.here off), s.touch s.here off) else (.trap 3 0, s)
  | _ => (.trap 3 0, s)

/-- A fetch through the instruction cache (R205, R241, R338): a beat held there may answer with old words, each word of it by
itself old or new. Every fetch of an uncorrectable word reports it, and a beat with such a word is not kept (R405). -/
def State.fetchAt (s : State) (k : Nat) : Fetch × State :=
  let ln := k / 64
  let now := s.peekNat k 4
  let answer := Fetch.word (BitVec.ofNat 32 now)
  let keep := fun (z : State) (beat : Memory) => z.modMe (fun c => { c with icache := tset c.icache ln beat })
  if s.badIn k 4 then (.fault false, s)
  else match tget s.me.icache ln with
    | none => (answer, if s.badIn (ln * 64) 64 then s else keep s (cellsIn s.mem (ln * 64) 64))
    | some cells =>
      let old := readNat cells (k % 64) 4
      if old = now then (answer, s)
      else if Config.freeBit s.free then (.word (BitVec.ofNat 32 old), s.draw)
      else (answer, keep s.draw (writeBytes cells (k % 64) (s.peek k 4)))

/-- The instruction at ip. -/
def State.fetch (s : State) : Fetch × State :=
  match s.fetchKey s.me.ip with
  | (.wait, s') => (.wait, s')
  | (.trap c _, s') => (.fault (c == 4), s')
  | (.key k, s') => s'.fetchAt k
  | (.line pa _ _, s') => s'.fetchAt pa

end Sys2Proof.Machine
end

