-- ==== Sys2Proof/Machine/Alu.lean ====
section
/-!
DEFINITION. Integer arithmetic (R214–R216): every result is a 64-bit value modulo 2^64, and nothing traps.
-/

namespace Sys2Proof.Machine

/-- The step's answer of an instruction: a next state. -/
abbrev Answer := Host.Outcome State Fault Refusal

/-- An instruction that writes one value to a register and completes. -/
def State.writes (s : State) (d : Reg) (v : BitVec 64) : Answer := .next (s.result d v)

/-- The high 64 bits of the signed product (R214). -/
def mulHighS (a b : BitVec 64) : BitVec 64 := BitVec.ofInt 64 (a.toInt * b.toInt / 2 ^ 64)

/-- The high 64 bits of the unsigned product (R214). -/
def mulHighU (a b : BitVec 64) : BitVec 64 := BitVec.ofNat 64 (a.toNat * b.toNat / 2 ^ 64)

/-- The signed quotient; −1 for a divisor of 0 (R215). −2^63 / −1 wraps to −2^63. -/
def divS (a b : BitVec 64) : BitVec 64 := if b = 0 then -1 else BitVec.ofInt 64 (a.toInt.tdiv b.toInt)

/-- The unsigned quotient; 2^64 − 1 for a divisor of 0 (R215). -/
def divU (a b : BitVec 64) : BitVec 64 := if b = 0 then -1 else BitVec.ofNat 64 (a.toNat / b.toNat)

/-- The signed remainder; sa for a divisor of 0 (R215). -/
def remS (a b : BitVec 64) : BitVec 64 := if b = 0 then a else BitVec.ofInt 64 (a.toInt.tmod b.toInt)

/-- The unsigned remainder; sa for a divisor of 0 (R215). -/
def remU (a b : BitVec 64) : BitVec 64 := if b = 0 then a else BitVec.ofNat 64 (a.toNat % b.toNat)

/-- The signed minimum (R214, R221). -/
def minS {w : Nat} (a b : BitVec w) : BitVec w := if b.toInt < a.toInt then b else a
/-- The signed maximum (R214, R221). -/
def maxS {w : Nat} (a b : BitVec w) : BitVec w := if a.toInt < b.toInt then b else a
/-- The unsigned minimum (R214, R221). -/
def minU {w : Nat} (a b : BitVec w) : BitVec w := if b.toNat < a.toNat then b else a
/-- The unsigned maximum (R214, R221). -/
def maxU {w : Nat} (a b : BitVec w) : BitVec w := if a.toNat < b.toNat then b else a

/-- Leading zero bits; 64 for zero (R214). -/
def clz64 (a : BitVec 64) : BitVec 64 := BitVec.ofNat 64 (if a = 0 then 64 else 63 - a.toNat.log2)
/-- Trailing zero bits; 64 for zero (R214). -/
def ctz64 (a : BitVec 64) : BitVec 64 := BitVec.ofNat 64 (if a = 0 then 64 else ctzNat a.toNat)
/-- Set bits (R214). -/
def popc64 (a : BitVec 64) : BitVec 64 := BitVec.ofNat 64 ((List.range 64).filter (fun i => a.getLsbD i)).length

/-- ADD: sa + sb (R214). -/
def execAdd (d a b : Reg) (s : State) : Answer := s.writes d (s.reg a + s.reg b)

/-- SUB: sa − sb (R214). -/
def execSub (d a b : Reg) (s : State) : Answer := s.writes d (s.reg a - s.reg b)

/-- AND: sa & sb (R214). -/
def execAnd (d a b : Reg) (s : State) : Answer := s.writes d (s.reg a &&& s.reg b)

/-- OR: sa | sb (R214). -/
def execOr (d a b : Reg) (s : State) : Answer := s.writes d (s.reg a ||| s.reg b)

/-- XOR: sa ⊕ sb (R214). -/
def execXor (d a b : Reg) (s : State) : Answer := s.writes d (s.reg a ^^^ s.reg b)

/-- SLL: sa << sb[5:0] (R214). -/
def execSll (d a b : Reg) (s : State) : Answer := s.writes d (s.reg a <<< shiftBy (s.reg b))

/-- SRL: sa >> sb[5:0], logical (R214). -/
def execSrl (d a b : Reg) (s : State) : Answer := s.writes d (s.reg a >>> shiftBy (s.reg b))

/-- SRA: sa >> sb[5:0], arithmetic (R214). -/
def execSra (d a b : Reg) (s : State) : Answer := s.writes d ((s.reg a).sshiftRight (shiftBy (s.reg b)))

/-- SLT: 1 if s(sa) < s(sb), else 0 (R214). -/
def execSlt (d a b : Reg) (s : State) : Answer := s.writes d (bit64 (ltS (s.reg a) (s.reg b)))

/-- SLTU: 1 if u(sa) < u(sb), else 0 (R214). -/
def execSltu (d a b : Reg) (s : State) : Answer := s.writes d (bit64 (ltU (s.reg a) (s.reg b)))

/-- MUL: the low 64 bits of the product (R214). -/
def execMul (d a b : Reg) (s : State) : Answer := s.writes d (s.reg a * s.reg b)

/-- MULH: the high 64 bits of the signed product (R214). -/
def execMulh (d a b : Reg) (s : State) : Answer := s.writes d (mulHighS (s.reg a) (s.reg b))

/-- MULHU: the high 64 bits of the unsigned product (R214). -/
def execMulhu (d a b : Reg) (s : State) : Answer := s.writes d (mulHighU (s.reg a) (s.reg b))

/-- DIV: the signed quotient, rounded toward zero (R214, R215). -/
def execDiv (d a b : Reg) (s : State) : Answer := s.writes d (divS (s.reg a) (s.reg b))

/-- DIVU: the unsigned quotient (R214, R215). -/
def execDivu (d a b : Reg) (s : State) : Answer := s.writes d (divU (s.reg a) (s.reg b))

/-- REM: the signed remainder, with the dividend's sign (R214, R215). -/
def execRem (d a b : Reg) (s : State) : Answer := s.writes d (remS (s.reg a) (s.reg b))

/-- REMU: the unsigned remainder (R214, R215). -/
def execRemu (d a b : Reg) (s : State) : Answer := s.writes d (remU (s.reg a) (s.reg b))

/-- MIN: the smaller of s(sa) and s(sb) (R214). -/
def execMin (d a b : Reg) (s : State) : Answer := s.writes d (minS (s.reg a) (s.reg b))

/-- MAX: the larger of s(sa) and s(sb) (R214). -/
def execMax (d a b : Reg) (s : State) : Answer := s.writes d (maxS (s.reg a) (s.reg b))

/-- MINU: the smaller of u(sa) and u(sb) (R214). -/
def execMinu (d a b : Reg) (s : State) : Answer := s.writes d (minU (s.reg a) (s.reg b))

/-- MAXU: the larger of u(sa) and u(sb) (R214). -/
def execMaxu (d a b : Reg) (s : State) : Answer := s.writes d (maxU (s.reg a) (s.reg b))

/-- CLZ: leading zero bits of sa; 64 when sa = 0 (R214). -/
def execClz (d a : Reg) (s : State) : Answer := s.writes d (clz64 (s.reg a))

/-- CTZ: trailing zero bits of sa; 64 when sa = 0 (R214). -/
def execCtz (d a : Reg) (s : State) : Answer := s.writes d (ctz64 (s.reg a))

/-- POPC: set bits of sa (R214). -/
def execPopc (d a : Reg) (s : State) : Answer := s.writes d (popc64 (s.reg a))

/-- ADDI: sa + SExt(imm) (R216). -/
def execAddi (d a : Reg) (imm : BitVec 16) (s : State) : Answer := s.writes d (s.reg a + simm imm)

/-- ANDI: sa & ZExt(imm) (R216). -/
def execAndi (d a : Reg) (imm : BitVec 16) (s : State) : Answer := s.writes d (s.reg a &&& uimm imm)

/-- ORI: sa | ZExt(imm) (R216). -/
def execOri (d a : Reg) (imm : BitVec 16) (s : State) : Answer := s.writes d (s.reg a ||| uimm imm)

/-- XORI: sa ⊕ ZExt(imm) (R216). -/
def execXori (d a : Reg) (imm : BitVec 16) (s : State) : Answer := s.writes d (s.reg a ^^^ uimm imm)

/-- SLTI: 1 if s(sa) < s(SExt(imm)), else 0 (R216). -/
def execSlti (d a : Reg) (imm : BitVec 16) (s : State) : Answer := s.writes d (bit64 (ltS (s.reg a) (simm imm)))

/-- SLTIU: 1 if u(sa) < u(SExt(imm)), else 0 (R216). -/
def execSltiu (d a : Reg) (imm : BitVec 16) (s : State) : Answer := s.writes d (bit64 (ltU (s.reg a) (simm imm)))

/-- SLLI: sa << imm[5:0] (R216). -/
def execSlli (d a : Reg) (sh : BitVec 6) (s : State) : Answer := s.writes d (s.reg a <<< sh.toNat)

/-- SRLI: sa >> imm[5:0], logical (R216). -/
def execSrli (d a : Reg) (sh : BitVec 6) (s : State) : Answer := s.writes d (s.reg a >>> sh.toNat)

/-- SRAI: sa >> imm[5:0], arithmetic (R216). -/
def execSrai (d a : Reg) (sh : BitVec 6) (s : State) : Answer := s.writes d ((s.reg a).sshiftRight sh.toNat)

/-- LUI: imm << 16, the whole register (R216). -/
def execLui (d : Reg) (imm : BitVec 16) (s : State) : Answer := s.writes d (uimm imm <<< 16)

/-- LUIH: imm << 48, the whole register (R216). -/
def execLuih (d : Reg) (imm : BitVec 16) (s : State) : Answer := s.writes d (uimm imm <<< 48)

end Sys2Proof.Machine
end

