-- ==== Sys2Proof/Machine/Burst.lean ====
section
/-!
DEFINITION. Burst headers (R115–R117): their fields, the statuses a channel receives, error tokens.
-/

namespace Sys2Proof.Machine

/-- Length field [5:0] (R115). -/
def hdrLen (h : BitVec 32) : Nat := h.toNat % 64
/-- Closing level [8:6] (R115). -/
def hdrLevel (h : BitVec 32) : Nat := h.toNat / 64 % 8
/-- β [14:9], signed (R115). -/
def hdrBeta (h : BitVec 32) : Int := (h.extractLsb' 9 6).toInt
/-- Kind [17:15] (R115). -/
def hdrKind (h : BitVec 32) : Nat := h.toNat / 2 ^ 15 % 8
/-- aux [31:18] (R115). -/
def hdrAux (h : BitVec 32) : Nat := h.toNat / 2 ^ 18

/-- A header of its fields (R115). -/
def mkHdr (kind level : Nat) (beta : Int) (len aux : Nat) : BitVec 32 :=
  BitVec.ofNat 32 (len % 64 + level % 8 * 64 + (BitVec.ofInt 6 beta).toNat * 512 + kind % 8 * 2 ^ 15 + aux % 2 ^ 14 * 2 ^ 18)

/-- A header with its β replaced. -/
def withBeta (h : BitVec 32) (beta : Int) : BitVec 32 :=
  mkHdr (hdrKind h) (hdrLevel h) beta (hdrLen h) (hdrAux h)

/-- A header with its closing level replaced. -/
def withLevel (h : BitVec 32) (level : Nat) : BitVec 32 :=
  mkHdr (hdrKind h) level (hdrBeta h) (hdrLen h) (hdrAux h)

/-- A data burst (R116). -/
def dataBurst (level : Nat) (beta : Int) (beats : List Beat) : Burst :=
  { hdr := mkHdr 0 level beta (beats.length - 1) 0, beats := beats }

/-- An empty fibre (R116). -/
def emptyFibre (level : Nat) (beta : Int) : Burst := { hdr := mkHdr 1 level beta 0 0, beats := [] }

/-- An error token: β 0 (R116, R117). -/
def errToken (code detail level : Nat) : Burst := { hdr := mkHdr 2 level 0 0 (code + 256 * detail), beats := [] }

/-- Beats that a header announces (R116). -/
def beatsOf (h : BitVec 32) : Nat :=
  match hdrKind h with
  | 0 => hdrLen h + 1
  | 3 => 1
  | 5 => 1
  | _ => 0

/-- Whether a receiving channel replaces a header by an error token (R116). -/
def hdrBad (h : BitVec 32) : Bool :=
  hdrKind h == 7 || hdrLevel h == 5 || hdrLevel h == 6 ||
  ((hdrKind h == 1 || hdrKind h == 2 || hdrKind h == 4 || hdrKind h == 6) && hdrLen h != 0)

/-- A status as a channel delivers it (R116, R408): a bad header becomes error token 0x22, a burst longer than the
channel's burst length becomes error token 0x21, each with its closing level; a header of kind 6 is an absence (R124). -/
def asReceived (maxBeats : Nat) : Status → Status
  | none => none
  | some b =>
    if hdrBad b.hdr then some (errToken 0x22 0 (hdrLevel b.hdr))
    else if hdrKind b.hdr = 6 then none
    else if maxBeats < b.beats.length then some (errToken 0x21 0 (hdrLevel b.hdr))
    else some b

/-- Numbers of a byte width laid side by side, the first lowest. -/
def packWidth (w : Nat) : List Nat → Nat
  | [] => 0
  | v :: t => v % 2 ^ (8 * w) + 2 ^ (8 * w) * packWidth w t

/-- A one-beat INDEX burst whose first tokens are given, the rest a fill. -/
def indexBeat (toks : List Nat) (fill : Nat) : Beat :=
  BitVec.ofNat 512 (packWidth 4 (toks ++ List.replicate (16 - toks.length) fill))

/-- Token i of a beat. -/
def tokenOf (b : Beat) (i : Nat) : BitVec 32 := b.extractLsb' (32 * i) 32

/-- Lanes of a byte width that a list of beats holds, lowest first. -/
def lanesOfBeats (w : Nat) (beats : List Beat) : List Nat :=
  beats.flatMap (fun b => (List.range (64 / w)).map (fun i => (b.extractLsb' (8 * w * i) (8 * w)).toNat))

/-- Beats from lanes of a byte width; the last is filled with zero lanes. -/
def beatsOfLanes (w : Nat) (lanes : List Nat) : List Beat :=
  (chunk (64 / w) lanes).map (fun g => BitVec.ofNat 512 (packWidth w g))

end Sys2Proof.Machine
end

