-- ==== Sys2Proof/Machine/Fabric.lean ====
section
/-!
DEFINITION. The fabric: routes and channels (R66, R114, R124), how an input resolves (R119–R122, R132, R251), when a node may
begin an instant (R130, R259), and how a firing ends.
-/

namespace Sys2Proof.Machine

/-! ### Channel and route entries (R66) -/

/-- Format of a channel entry. -/
def entFmt (e : BitVec 64) : Nat := bitsOf e.toNat 5 0
/-- Class of a channel entry. -/
def entClass (e : BitVec 64) : Nat := bitsOf e.toNat 7 6
/-- Burst slots of a remote channel. -/
def entSlots (e : BitVec 64) : Nat := bitsOf e.toNat 10 8 + 1
/-- The longest burst a channel carries, in beats. -/
def entBeats (e : BitVec 64) : Nat := bitsOf e.toNat 17 12 + 1
/-- Domain of the consumer. -/
def entDom (e : BitVec 64) : Nat := bitsOf e.toNat 19 18

/-- Kind of a route: 0 local, 1 remote, 2 engine endpoint, 3 sibling (R66, R311). -/
def routeKind (e : BitVec 64) : Nat := bitsOf e.toNat 1 0
/-- Destination endpoint of a route. -/
def routeEp (e : BitVec 64) : Nat := bitsOf e.toNat 15 8
/-- Destination logical core of a route. -/
def routeCore (e : BitVec 64) : Nat := bitsOf e.toNat 25 16
/-- Whether a sibling route leads to the previous child (R311). -/
def routePrev (e : BitVec 64) : Bool := e.getLsbD 26

/-- The unconnected route id (R55). -/
def noRoute : Nat := 0xFFF

/-! ### Regions of cores -/

/-- The region whose configuration a core holds. -/
def State.fabricOf (s : State) (p : Nat) : Option (Nat × Region) :=
  match (s.coreAt p).region with
  | some r => (tget s.regions r).map (fun g => (r, g))
  | none => none

/-- Position of a logical core of a region. -/
def Region.posOf (r : Region) (l : Nat) : Nat := (r.row + l / r.w) * Config.gridCols + r.col + l % r.w

/-- Logical id of a position of a region. -/
def Region.lidOf (r : Region) (p : Nat) : Nat := (rowOf p - r.row) * r.w + (colOf p - r.col)

/-- The leaf of the next or previous child of the STRM or PIPE that a leaf is a child of, by the plan (R310, R311). -/
def Task.sibling (k : Task) (leaf : Nat) (prev : Bool) : Option PlanNode :=
  match k.parentOf leaf with
  | none => none
  | some j =>
    let kids := k.kidsOf j
    let at_ := kids.idxOf leaf
    if prev && at_ == 0 then none
    else match kids[if prev then at_ - 1 else at_ + 1]? with
      | some q => k.plan[q]?
      | none => none

/-- The kind of the parent of a leaf: 2 PIPE, 3 STRM (R308). -/
def Task.parentKind (k : Task) (leaf : Nat) : Nat :=
  match k.parentOf leaf with
  | some j => ((k.plan[j]?).map PlanNode.kind).getD 0
  | none => 0

/-- The core of the neighbouring child that a sibling route names: its children stand side by side, north edges aligned
(R310, R311). -/
def State.siblingPos (s : State) (r : Region) (l : Nat) (prev : Bool) : Option Nat :=
  match r.team with
  | none => none
  | some t => match tget s.teams t with
    | none => none
    | some tm => match tget s.tasks tm.task with
      | none => none
      | some k => match k.sibling tm.leaf prev with
        | none => none
        | some n =>
          if n.w = 0 ∨ n.h * n.w ≤ l then none
          else
            let col := if prev then r.col - n.w else r.col + r.w
            some ((r.row + l / n.w) * Config.gridCols + col + l % n.w)

/-! ### Where an output leads -/

/-- Where a route of a core leads: core position, endpoint, whether it travels between cores, whether to a sibling. -/
structure Dest where
  core    : Nat
  ep      : Nat
  remote  : Bool
  sibling : Bool
  deriving DecidableEq, Repr

/-- The destination of a route of a core's route table. -/
def State.destOf (s : State) (p route : Nat) : Option Dest :=
  match (s.coreAt p).cfg, s.fabricOf p with
  | some g, some (_, r) =>
    match tget g.routes route with
    | none => none
    | some e => match routeKind e with
      | 1 => some { core := r.posOf (routeCore e), ep := routeEp e, remote := true, sibling := false }
      | 3 => (s.siblingPos r (routeCore e) (routePrev e)).map
          (fun q => { core := q, ep := routeEp e, remote := true, sibling := true })
      | _ => some { core := p, ep := routeEp e, remote := false, sibling := false }
  | _, _ => none

/-- A channel of a core. -/
def State.chanAt (s : State) (p ep : Nat) : Option Chan :=
  match (s.coreAt p).cfg with
  | some g => tget g.chans ep
  | none => none

/-- The package with one channel changed. -/
def State.modChan (s : State) (p ep : Nat) (f : Chan → Chan) : State :=
  s.modCfg p (fun g => match tget g.chans ep with
    | some c => { g with chans := tset g.chans ep (f c) }
    | none => g)

/-- The package with one node replaced. -/
def State.setNode (s : State) (p id : Nat) (n : Node) : State := s.modCfg p (fun g => { g with nodes := tset g.nodes id n })

/-- The package with one node changed. -/
def State.modNode (s : State) (p id : Nat) (f : Node → Node) : State :=
  match (s.coreAt p).node id with
  | some n => s.setNode p id (f n)
  | none => s

/-! ### Inputs (R119–R122, R132, R251) -/

/-- Which of A, B and C an operation reads (R80, R143, R168, R367–R373). -/
def opUses (op : Nat) (r : NodeRec) : Bool × Bool × Bool :=
  let v := r.var.toNat
  let k0 := r.k0.toNat
  match op with
  | 0x01 | 0x80 | 0x86 | 0x91 => (false, false, false)
  | 0x15 | 0x16 | 0x61 => (true, true, true)
  | 0x10 | 0x11 | 0x12 | 0x13 | 0x14 | 0x30 | 0x32 | 0x44 | 0x62 | 0x64 | 0x65 | 0x66 | 0x67 | 0x68 | 0x69 | 0x93 => (true, true, false)
  | 0x41 | 0x60 | 0x63 | 0x6B | 0x83 | 0x84 => (true, false, true)
  | 0x42 => (true, v % 2 == 1, true)
  | 0x70 | 0x71 | 0x72 | 0x73 | 0x74 | 0x75 | 0x78 => (true, v / 2 % 2 == 0, false)
  | 0x6C | 0x94 => (k0 % 2 == 1, k0 / 2 % 2 == 1, k0 / 4 % 2 == 1)
  | 0x90 => (true, v % 2 == 1, false)
  | 0x92 => (true, v % 2 == 1, v / 2 % 2 == 1)
  | _ => (true, false, false)

/-- The inputs of a node: 0 A, 1 B, 2 C, 3 the after-ordering input. -/
def inputEp (r : NodeRec) : Nat → Nat
  | 0 => r.inA.toNat
  | 1 => r.inB.toNat
  | 2 => r.inC.toNat
  | _ => r.aftSrc.toNat

/-- Whether an input is delayed (R54). -/
def inputDelayed (r : NodeRec) : Nat → Bool
  | 0 => r.ad
  | 1 => r.bd
  | 2 => r.cd
  | _ => false

/-- Whether a node reads an input. -/
def inputUsed (op : Nat) (r : NodeRec) : Nat → Bool
  | 0 => (opUses op r).1
  | 1 => (opUses op r).2.1
  | 2 => (opUses op r).2.2
  | _ => r.aft

/-- The nodes of a region with their positions and ids. -/
def State.nodesOf (s : State) (r : Region) : List (Nat × Nat × Node) :=
  r.cores.flatMap (fun p => match (s.coreAt p).cfg with
    | some g => g.nodes.map (fun n => (p, n.1, n.2))
    | none => [])

/-- Whether an output of a node leads to an endpoint. -/
def State.leadsTo (s : State) (p : Nat) (route : BitVec 12) (q ep : Nat) : Bool :=
  match s.destOf p route.toNat with
  | some d => d.core == q && d.ep == ep && !d.sibling
  | none => false

/-- The node of the region that feeds an endpoint by OUTX or OUTY. -/
def State.producerOf (s : State) (r : Region) (q ep : Nat) : Option (Nat × Nat × Node) :=
  (s.nodesOf r).find? (fun x => s.leadsTo x.1 x.2.2.rcd.outX q ep || s.leadsTo x.1 x.2.2.rcd.outY q ep)

/-- The DRAINs of the region on cores that have a route to an endpoint (R174). -/
def State.steerersOf (s : State) (r : Region) (q ep : Nat) : List Node :=
  ((s.nodesOf r).filter (fun x => x.2.2.op == 0x42 && (match (s.coreAt x.1).cfg with
    | some g => g.routes.any (fun rt => match s.destOf x.1 rt.1 with
      | some d => d.core == q && d.ep == ep && !d.sibling
      | none => false)
    | none => false))).map (fun x => x.2.2)

/-- A command input: a class 2 entry of a node in n0–n79 (R251). -/
def isCommandInput (id : Nat) (e : BitVec 64) : Bool := entClass e == 2 && decide (id < 80)

/-- How an input stands in an instant: unused, not yet resolved, or resolved. -/
inductive Inp where
  | unused
  | unknown
  | st (x : Status)
  deriving DecidableEq, Repr

/-- The status of a resolved input; absent where the input is unused. -/
def Inp.get : Inp → Status
  | .st x => x
  | _ => none

/-- Whether an input is settled: resolved, or not read. -/
def Inp.known : Inp → Bool
  | .unknown => false
  | _ => true

/-- Whether an input is present. -/
def Inp.present : Inp → Bool
  | .st (some _) => true
  | _ => false

/-- A status as the channel delivers it (R116, R408). -/
def Chan.deliver (c : Chan) (x : Status) : Status := asReceived (entBeats c.ent) x

/-- How a channel that only DRAINs of its own domain steer to resolves: the status sent for the instant, or absence once every
such DRAIN has finished it (R123, R174) and the instant's burst is not still on the wire (R124). -/
def steeredInput (c : Chan) (steerers : List Node) (want : Nat) : Inp :=
  match c.q.find? (fun x => x.1 == want) with
  | some (_, x) => .st (c.deliver x)
  | none => if !c.wire.any (fun x => x.1 == want) && steerers.all (fun n => decide (want ≤ n.inst)) then .st none else .unknown

/-- The children next to a leaf in a STRM (R310, R311). -/
def Task.neighbours (k : Task) (leaf : Nat) : List Nat :=
  match k.parentOf leaf with
  | none => []
  | some j =>
    if ((k.plan[j]?).map PlanNode.kind) ≠ some 3 then []
    else
      let kids := k.kidsOf j
      let at_ := kids.idxOf leaf
      (if at_ = 0 then [] else (kids[at_ - 1]?).toList) ++ (kids[at_ + 1]?).toList

/-- The routes on which a node may emit: OUTX and OUTY, and for a DRAIN any of its core's (R174). -/
def State.xRoutes (s : State) (x : Nat × Nat × Node) : List Nat :=
  [x.2.2.rcd.outX.toNat, x.2.2.rcd.outY.toNat] ++ (if x.2.2.op = 0x42 then match (s.coreAt x.1).cfg with
    | some g => g.routes.map Prod.fst
    | none => [] else [])

/-- Whether a neighbouring child sends nothing more to an endpoint of a core (R132, R311): it has ended, or the domains of
its nodes that lead there, or may be steered there, are done. -/
def State.siblingQuiet (s : State) (k : Task) (i p ep : Nat) : Bool :=
  let st := k.nodeAt i
  if st.ended.isSome then true
  else match st.team.bind (fun t => tget s.teams t) with
    | none => false
    | some tm => match tget s.regions tm.region with
      | none => false
      | some r => r.configured && ((s.nodesOf r).filter (fun x =>
          (s.xRoutes x).any (fun rt => match s.destOf x.1 rt with
            | some d => d.sibling && d.core == p && d.ep == ep
            | none => false))).all (fun x => match r.doms[x.2.2.rcd.dom.toNat]? with
              | some d => d.done
              | none => true)

/-- Whether an input that no node of its region feeds comes from a neighbouring child, and whether all of these are quiet:
none where the leaf has no neighbour. -/
def State.siblingFeed (s : State) (r : Region) (p ep : Nat) : Option Bool :=
  match r.team.bind (fun t => tget s.teams t) with
  | none => none
  | some tm => match tget s.tasks tm.task with
    | none => none
    | some k => match k.neighbours tm.leaf with
      | [] => none
      | l => some (l.all (fun i => s.siblingQuiet k i p ep))

/-- An asynchronous input (R132): the oldest burst, or absence once its producer can send no more. -/
def asyncInput (c : Chan) (ended : Bool) : Inp :=
  match c.q, c.wire with
  | (_, x) :: _, _ => .st (c.deliver x)
  | [], [] => if ended then .st none else .unknown
  | [], _ => .unknown

/-- Whether some of the DRAINs that steer to a channel lie in another domain than its consumer, so that it is asynchronous
(R132). -/
def steersAcross (steerers : List Node) (n : Node) : Bool := steerers.any (fun m => m.dom != n.dom)

/-- Whether the DRAINs that steer to a channel send nothing more for an instant: a domain is done, or a DRAIN of the consumer's
own has finished the instant. -/
def steeringOver (r : Region) (steerers : List Node) (n : Node) (want : Nat) : Bool :=
  steerers.all (fun m => if m.dom = n.dom then decide (want ≤ m.inst) else match r.doms[m.dom]? with
    | some d => d.done
    | none => true)

/-- Whether an input is asynchronous: its producer lies in another domain or in a neighbouring child (R132, R311). -/
def State.isAsync (s : State) (p : Nat) (n : Node) (i : Nat) : Bool :=
  match s.fabricOf p with
  | none => false
  | some (_, r) => match s.producerOf r p (inputEp n.rcd i) with
    | some (_, _, m) => m.dom != n.dom
    | none => match s.steerersOf r p (inputEp n.rcd i) with
      | [] => (s.siblingFeed r p (inputEp n.rcd i)).isSome
      | l => steersAcross l n

/-- Instants by which an input lags behind its channel (R122). -/
def lagOf (r : NodeRec) (i : Nat) : Nat := if inputDelayed r i then 1 else 0

/-- The number that the status of a node's instant bears in an input's channel: one more than the producer's instant. -/
def Node.wants (n : Node) (i : Nat) : Nat := n.inst + 1 - lagOf n.rcd i

/-- How a command input stands (R251, R122): the token queued for the instant, for a delayed one that of the instant before, and
in instant 0 its initial status. -/
def commandInput (c : Chan) (n : Node) (i : Nat) : Inp :=
  if inputDelayed n.rcd i && n.inst == 0 then .st ((c.q.head?).bind (fun x => c.deliver x.2))
  else .st ((n.toks.find? (fun t => t.1 == i && t.2.1 + lagOf n.rcd i == n.inst)).bind (fun t => c.deliver (some t.2.2)))

/-- How an input of a node stands in the node's instant. -/
def State.input (s : State) (p id : Nat) (n : Node) (i : Nat) : Inp :=
  if !inputUsed n.op n.rcd i then .unused
  else
    let ep := inputEp n.rcd i
    match s.chanAt p ep with
    | none => .st none
    | some c =>
      if isCommandInput id c.ent then commandInput c n i
      else
        let head := match c.q with
          | (_, x) :: _ => Inp.st (c.deliver x)
          | [] => .unknown
        match s.fabricOf p with
        | none => head
        | some (_, r) =>
          match s.producerOf r p ep with
          | some (_, _, m) =>
            if m.dom = n.dom then head
            else asyncInput c (match r.doms[m.dom]? with
              | some d => d.done
              | none => true)
          | none =>
            match s.steerersOf r p ep with
            | [] => match s.siblingFeed r p ep with
              | some ended => asyncInput c ended
              | none => head
            | l => if steersAcross l n then asyncInput c (steeringOver r l n (n.wants i)) else steeredInput c l (n.wants i)

/-- A channel after its consumer has taken the status of an instant: the oldest, of a steered channel the one sent for the
instant, if there is one. -/
def Chan.taken (c : Chan) (steered : Bool) (want : Nat) : Chan :=
  { c with q := if steered then c.q.filter (fun x => x.1 != want) else c.q.drop 1 }

/-- An input of a node consumed (R119). -/
def State.consume (s : State) (p id : Nat) (n : Node) (i : Nat) : State :=
  if !inputUsed n.op n.rcd i then s
  else
    let ep := inputEp n.rcd i
    match s.chanAt p ep with
    | none => s
    | some c =>
      if isCommandInput id c.ent then
        let z := s.modNode p id (fun m => { m with toks := m.toks.filter (fun t => !(t.1 == i && decide (t.2.1 + lagOf n.rcd i ≤ n.inst))) })
        if inputDelayed n.rcd i then z.modChan p ep (fun c => { c with q := [] }) else z
      else
        let steered := match s.fabricOf p with
          | some (_, r) => (s.producerOf r p ep).isNone && !(s.steerersOf r p ep).isEmpty && !steersAcross (s.steerersOf r p ep) n
          | none => false
        s.modChan p ep (fun c => c.taken steered (n.wants i))

/-! ### Outputs -/

/-- Whether some node of a core reads an endpoint as a delayed input. -/
def Cfg.delayedAt (g : Cfg) (ep : Nat) : Bool :=
  g.nodes.any (fun n => (List.range 3).any (fun i => inputUsed n.2.op n.2.rcd i && inputDelayed n.2.rcd i && inputEp n.2.rcd i == ep))

/-- Statuses a channel holds at most (R114, R125), one more where its consumer delays it. -/
def Cfg.depth (g : Cfg) (ep : Nat) (c : Chan) : Nat :=
  (if entClass c.ent = 1 then entSlots c.ent else 1) + (if g.delayedAt ep then 1 else 0)

/-- Whether a destination crosses a boundary guard: its core carries another tag (R393). -/
def State.guarded (s : State) (p : Nat) (d : Dest) : Bool := d.remote && (s.coreAt d.core).tag != (s.coreAt p).tag

/-- Whether a sibling destination still runs its child of the same task: its region holds the configuration it was given. -/
def State.siblingLive (s : State) (p : Nat) (d : Dest) : Bool :=
  match (s.coreAt p).team, (s.coreAt d.core).team with
  | some a, some b => match tget s.teams a, tget s.teams b with
    | some x, some y => x.task == y.task
    | _, _ => false
  | _, _ => false

/-- Whether an output can take a status (R125). A guard takes every token (R393). -/
def State.room (s : State) (p route : Nat) : Bool :=
  if route = noRoute then true
  else match s.destOf p route with
    | none => true
    | some d =>
      if s.guarded p d then true
      else if d.sibling && !s.siblingLive p d then false
      else match (s.coreAt d.core).cfg with
        | none => true
        | some g => match tget g.chans d.ep with
          | none => true
          | some c => decide (c.q.length + c.wire.length < g.depth d.ep c)

/-- Whether the channel a route leads to crosses domains: it carries only present bursts (R132). -/
def State.crosses (s : State) (d : Dest) (dom : Nat) : Bool :=
  d.sibling || (match s.chanAt d.core d.ep with
    | some c => entDom c.ent != dom
    | none => false)

/-- A status emitted on a route by the node whose turn it is (R119, R124, R132): to the channel, to the wire between cores, or
towards a guard. -/
def State.emit (s : State) (p route dom inst : Nat) (x : Status) : State :=
  if route = noRoute then s
  else match s.destOf p route with
    | none => s
    | some d =>
      if s.crosses d dom && x.isNone then s
      else if s.guarded p d then s.modCfg p (fun g => { g with egress := g.egress ++ [(route, s.slot, x)] })
      else if d.remote then s.modChan d.core d.ep (fun c => { c with wire := c.wire ++ [(inst + 1, x)] })
      else s.modChan d.core d.ep (fun c => { c with q := c.q ++ [(inst + 1, x)] })

/-! ### Firing -/

/-- The domain record of a node's region. -/
def State.domOf (s : State) (p : Nat) (n : Node) : Option Dom :=
  match s.fabricOf p with
  | some (_, r) => r.doms[n.dom]?
  | none => none

/-- Whether a region's nodes may react: its team runs or is stopping (R358), its cores work. -/
def State.regionRuns (s : State) (r : Region) : Bool :=
  match r.team with
  | some t => match tget s.teams t with
    | some tm => tm.st == .running || tm.st == .stopping
    | none => false
  | none => false

/-- Whether a node stands in the middle of an instant. -/
def Node.mid (n : Node) : Bool := decide (0 < n.phase) || decide (0 < n.prog) || n.hub.isSome || n.hubRes.isSome

/-- Whether a node has begun an instant (R252, R259). -/
def Node.begun (n : Node) (t : Nat) : Bool := decide (t < n.inst) || (n.inst == t && (n.mid || n.hold.isSome))

/-- Whether a domain lets a node begin its next instant (R130, R131, R259): below the limit, and every earlier instant known
not to be the quiet one that ends the domain. -/
def Dom.lets (d : Dom) (inst : Nat) : Bool :=
  !d.done && !d.stopped && (d.unlim || decide (inst < d.lim)) &&
  (List.range (inst - d.ctr)).all (fun i => d.live.contains (d.ctr + i))

/-- Whether the node whose turn it is may go on (R129, R130, R357). -/
def State.mayFire (s : State) (p : Nat) (n : Node) : Bool :=
  match s.fabricOf p with
  | none => false
  | some (_, r) =>
    s.regionRuns r && !(s.coreAt p).failed && n.hold.isNone &&
    (match r.doms[n.dom]? with
      | some d => !d.stopped && !d.done && (n.mid || d.lets n.inst)
      | none => false)

/-- What a firing leaves: the node, its outputs, fault records to write (code and header), for a DRAIN the route that
takes X, and whether X has been sent earlier in the instant (R120). -/
structure React where
  node   : Node
  x      : Status
  y      : Status
  faults : List (Nat × BitVec 32)
  route  : Option Nat
  sent   : Bool := false

/-- A fault record of a node (R352, R353). -/
def State.nodeFault (s : State) (p id : Nat) (n : Node) (code : Nat) (hdr : BitVec 32) : State :=
  s.fault (s.partOf p) { s.recAt p code id n.dom with inst := n.inst, hdr := hdr }

/-- A domain of a region stopped by a fault, its last boundary records written (R129, R394). -/
def State.stopDom (s : State) (k : Nat) (r : Region) (dom : Nat) : State :=
  (s.modRegion k (fun g => { g with doms := lmod g.doms dom (fun d => { d with stopped := true }) })).guardClose r (some dom)

/-- A node whose state, delay register, accumulator, weights or input latch holds an uncorrectable error (R353, R356): record
0x12, its domain stopped, its task to end faulted; firmware then marks the core failed (R357). -/
def State.nodeLost (s : State) (p id : Nat) (n : Node) : State :=
  let s1 := s.fault (s.partOf p) { s.recAt p 0x12 id n.dom with stopped := true, inst := n.inst }
  let s2 := match s1.fabricOf p with
    | some (k, r) => s1.stopDom k r n.dom
    | none => s1
  (s2.doomAt p 0x12).later (.event (.coreFailed p))

/-- A register of a node set. -/
def Node.setReg (n : Node) (k : Nat) (v : BitVec 32) : Node := { n with regs := tset n.regs k v }

/-- A saturating count (R77 DROPS). -/
def satAdd (v : BitVec 32) (k : Nat) : BitVec 32 := BitVec.ofNat 32 (min (v.toNat + k) (2 ^ 32 - 1))

/-- DROPS raised. -/
def Node.drop (n : Node) (k : Nat) : Node := n.setReg 1 (satAdd (n.reg 1) k)

/-- FLAGS with flags added (R78). -/
def Node.flag (n : Node) (f : Flg) : Node := n.setReg 0 (stickFlags (n.reg 0) f)

/-- Whether a node is a source that is not exhausted (R131). -/
def Node.liveSource (n : Node) : Bool :=
  match n.op with
  | 0x01 | 0x91 => !n.exh
  | 0x80 | 0x86 => n.reg 17 == 1
  | _ => false

/-- The tile of a compute node (R61). -/
def tileOf (id : Nat) : Nat := id / 16

/-- Routes of a core that lead only where a DRAIN may steer: no OUTX or OUTY of the region feeds them (R174). -/
def State.steerable (s : State) (p route : Nat) : Bool :=
  match s.destOf p route, s.fabricOf p with
  | some d, some (_, r) => !d.sibling && (s.producerOf r d.core d.ep).isNone
  | _, _ => false

/-- The route on which a node emits X: OUTX, for a DRAIN the one that RSEL holds (R172). -/
def Node.xRoute (n : Node) : Nat := if n.op = 0x42 ∧ (n.reg 5).getLsbD 31 then (n.reg 5).toNat % 4096 else n.rcd.outX.toNat

/-- Whether a route leads to a channel to which DRAINs of other domains than a node's steer too, so that it carries no absence (R132). -/
def State.sharedAcross (s : State) (p route : Nat) (n : Node) : Bool :=
  match s.destOf p route, s.fabricOf p with
  | some d, some (_, r) => steersAcross (s.steerersOf r d.core d.ep) n
  | _, _ => false

/-- The output routes of a node's X: the selected route, which carries each instant's status whether present or absent (R119, R125), and
absence on OUTX where another is selected. -/
def State.emitX (s : State) (p : Nat) (n : Node) (r : React) : State :=
  if r.sent then s
  else
    let rt := r.route.getD n.xRoute
    if rt = n.rcd.outX.toNat then s.emit p rt n.dom n.inst r.x
    else
      let s' := s.emit p n.rcd.outX.toNat n.dom n.inst none
      if r.x.isSome || !s.sharedAcross p rt n then s'.emit p rt n.dom n.inst r.x else s'

/-- Whether a burst emitted on X counts in BCNT: not an error token of ACC, ACCK or DRAIN, whose steps alone count (R106,
R169, R170, R172). -/
def React.counts (r : React) : Bool :=
  !r.sent && (match r.x with
    | some b => !(hdrKind b.hdr == 2 && decide (0x40 ≤ r.node.op ∧ r.node.op ≤ 0x42))
    | none => false)

/-- BCNT counts a burst emitted on X (R77, R137). -/
def React.counted (r : React) : Node := if r.counts then r.node.setReg 2 (r.node.reg 2 + 1) else r.node

/-- An instant marked as one in which a status was present or a source not exhausted (R131). -/
def Dom.mark (d : Dom) (t : Nat) : Dom := if d.live.contains t then d else { d with live := d.live ++ [t] }

/-- The end of a firing: outputs emitted, the inputs `take` consumed, the node one instant on, faults recorded. `busy` says
whether a status of the instant was present. -/
def State.settleTaking (s : State) (take : List Nat) (p id : Nat) (n : Node) (r : React) (busy : Bool) : State :=
  let s1 := take.foldl (fun z i => z.consume p id n i) s
  let toks := match (s1.coreAt p).node id with
    | some m => m.toks
    | none => n.toks
  let m := { r.counted with
    inst := n.inst + 1, phase := 0, prog := 0, part := [], hub := none, hubRes := none, toks := toks,
    quiet := if busy then 0 else r.node.quiet + 1 }
  let s2 := (s1.setNode p id m)
  let s3 := (s2.emitX p n r).emit p n.rcd.outY.toNat n.dom n.inst r.y
  let s4 := r.faults.foldl (fun z f => z.nodeFault p id n f.1 f.2) s3
  let live := busy || r.x.isSome || r.y.isSome || m.liveSource
  let s5 := match s4.fabricOf p with
    | some (k, _) => s4.modRegion k (fun g => { g with
        fired := true, doms := if live then lmod g.doms n.dom (fun d => d.mark n.inst) else g.doms })
    | none => s4
  if busy && decide (id < 64) then s5.modCore p (fun c => { c with gated := c.gated.erase (tileOf id) }) else s5

/-- The end of a firing that consumes every input. -/
def State.settle (s : State) (p id : Nat) (n : Node) (r : React) (busy : Bool) : State :=
  s.settleTaking [0, 1, 2, 3] p id n r busy

/-- The node whose turn it is, with the record its instruction carries. -/
def State.nodeHere (s : State) (op : Nat) (r : NodeRec) : Option Node :=
  ((s.coreAt s.here).node s.slot).map (fun n => { n with op := op, rcd := r })

/-- Whether both outputs of a node can take a status; a DRAIN also needs its selected route. -/
def State.outRoom2 (s : State) (p : Nat) (n : Node) : Bool :=
  s.room p n.rcd.outX.toNat && s.room p n.rcd.outY.toNat &&
  s.room p n.xRoute

/-- The statuses of A, B and C. -/
structure Ins where
  a : Status
  b : Status
  c : Status
  deriving DecidableEq, Repr

/-- Whether no input is present. -/
def Ins.quiet (i : Ins) : Bool := i.a.isNone && i.b.isNone && i.c.isNone

/-- A firing that emits absence and changes nothing (R121). -/
def quietReact (n : Node) : React := { node := n, x := none, y := none, faults := [], route := none }

/-- The firing of a strict node (R120): every input resolved, room on every output; `f` gives the state and what the firing
leaves, or none where it does not end in this turn. With every input absent it emits absence (R121) unless `always`. -/
def State.fireSlow (s : State) (op : Nat) (rc : NodeRec) (always : Bool)
    (f : State → Node → Ins → State × Option React) : State :=
  let p := s.here
  let id := s.slot
  match s.nodeHere op rc with
  | none => s
  | some n =>
    if !s.mayFire p n then s
    else if n.broken then s.nodeLost p id n
    else
      let a := s.input p id n 0
      let b := s.input p id n 1
      let c := s.input p id n 2
      let aft := s.input p id n 3
      if !(a.known && b.known && c.known && aft.known) || !s.outRoom2 p n then s
      else
        let i : Ins := { a := a.get, b := b.get, c := c.get }
        let busy := !i.quiet || aft.present
        if i.quiet && !always then s.settle p id n (quietReact n) busy
        else match f s n i with
          | (s', none) => s'
          | (s', some r) => s'.settle p id n r (busy || r.x.isSome || r.y.isSome)

/-- A firing that either ends or changes nothing. -/
def State.fireWith (s : State) (op : Nat) (rc : NodeRec) (always : Bool)
    (f : State → Node → Ins → Option (State × React)) : State :=
  s.fireSlow op rc always (fun z n i => match f z n i with
    | none => (z, none)
    | some (z', r) => (z', some r))

/-- X sent before the rest of a constructive node's instant is known (R120, R156). -/
def State.sendEarly (s : State) (p id : Nat) (n : Node) (x : Status) : State :=
  let r : React := { node := { n with phase := 1 }, x := x, y := none, faults := [], route := none }
  let s1 := (s.setNode p id r.counted).emitX p n r
  match s1.fabricOf p with
  | some (k, _) => s1.modRegion k (fun g => { g with
      fired := true, doms := if x.isSome then lmod g.doms n.dom (fun d => d.mark n.inst) else g.doms })
  | none => s1

/-- The firing of a node whose X goes out as soon as `early` determines it (R120, R156, R190); the instant ends when every
input is known, with `f`, whose X is the one sent. -/
def State.fireEarlyS (s : State) (op : Nat) (rc : NodeRec) (early : State → Node → Inp → Inp → Inp → Option Status)
    (f : State → Node → Ins → State × React) : State :=
  let p := s.here
  let id := s.slot
  match s.nodeHere op rc with
  | none => s
  | some n =>
    if !s.mayFire p n then s
    else if n.broken then s.nodeLost p id n
    else
      let a := s.input p id n 0
      let b := s.input p id n 1
      let c := s.input p id n 2
      let aft := s.input p id n 3
      let i : Ins := { a := a.get, b := b.get, c := c.get }
      let known := a.known && b.known && c.known && aft.known
      let busy := !i.quiet || aft.present
      if n.phase = 1 then
        if known then
          let r := f s n i
          r.1.settle p id n { r.2 with sent := true } (busy || r.2.x.isSome)
        else s
      else if !s.room p rc.outX.toNat then s
      else if known then
        let r := f s n i
        r.1.settle p id n r.2 (busy || r.2.x.isSome)
      else match early s n a b c with
        | some x => s.sendEarly p id n x
        | none => s

/-- The firing of a constructive node whose reaction only concerns itself (R120). -/
def State.fireEarly (s : State) (op : Nat) (rc : NodeRec) (early : Node → Inp → Inp → Inp → Option Status)
    (f : Node → Ins → React) : State :=
  s.fireEarlyS op rc (fun _ => early) (fun z n i => (z, f n i))

/-- The firing of a strict node whose reaction only concerns itself. -/
def State.firePure (s : State) (op : Nat) (rc : NodeRec) (f : Node → Ins → React) : State :=
  s.fireWith op rc false (fun z n i => some (z, f n i))

end Sys2Proof.Machine
end

