-- ==== Sys2Proof/Machine/Sync.lean ====
section
/-!
DEFINITION. What all nodes with synchronised inputs share: kinds (R73), absence policies (R126, R84), lengths (R74, R75),
closing levels and β (R76, R53), and the random counters of a node (R37).
-/

namespace Sys2Proof.Machine

/-! ### Fields of a record -/

/-- BLEN in beats (R49). -/
def blenOf (r : NodeRec) : Nat := if r.blen = 0 then 64 else r.blen.toNat

/-- The seed k3:k2 (R37). -/
def seedOf (r : NodeRec) : BitVec 64 := r.k3 ++ r.k2

/-- The 16 random bits of position i of the burst being formed, where RND is stochastic (R37). -/
def Node.rnd (n : Node) (i : Nat) : Nat :=
  if n.rcd.rnd = 2 then rnd16 (seedOf n.rcd) (ctr32 (n.reg 2) i) else 0

/-- The rounding mode (R52). -/
def Node.mode (n : Node) : Nat := n.rcd.rnd.toNat

/-- β of an output burst by BSM 0, 1 and 3 (R53, R76); `ins` are the synchronised inputs in the order A, B, C. -/
def betaOut (r : NodeRec) (ins : List Status) : Int :=
  match r.bsm.toNat with
  | 1 => match ins.findSome? id with
    | some b => hdrBeta b.hdr
    | none => 0
  | 3 => (r.k3.extractLsb' 0 6).toInt
  | _ => 0

/-! ### Statuses -/

/-- The present bursts among statuses. -/
def presentOf (l : List Status) : List Burst := l.filterMap id

/-- The largest closing level among bursts; 0 for none (R76). -/
def maxLevel (l : List Burst) : Nat := (l.map (fun b => hdrLevel b.hdr)).foldl Nat.max 0

/-- The longest of some bursts, in beats. -/
def maxBeats (l : List Burst) : Nat := (l.map (fun b => b.beats.length)).foldl Nat.max 0

/-- The level of an output whose longest operand has `top` beats: one-beat bursts beside longer ones do not count under
broadcast (R76). -/
def levelUnder (bcast : Bool) (top : Nat) (l : List Burst) : Nat :=
  maxLevel (if bcast && decide (1 < top) then l.filter (fun b => b.beats.length != 1) else l)

/-- The level of an output made from bursts (R76). -/
def outLevel (bcast : Bool) (l : List Burst) : Nat := levelUnder bcast (maxBeats l) l

/-- An input's error token passed on: its aux, at the level the output would have had (R73, R117). -/
def passToken (b : Burst) (level : Nat) : Burst := { hdr := mkHdr 2 level 0 0 (hdrAux b.hdr), beats := [] }

/-- Whether a burst is an error token. -/
def isErr (b : Burst) : Bool := hdrKind b.hdr == 2

/-- Whether a burst is data or an empty fibre, the kinds of R73. -/
def isData (b : Burst) : Bool := hdrKind b.hdr == 0 || hdrKind b.hdr == 1

/-- Whether a burst is an empty fibre. -/
def isEmpty (b : Burst) : Bool := hdrKind b.hdr == 1

/-- The error token that kinds call for (R73 steps 1 and 2). -/
def kindToken (l : List Status) (level : Nat) : Option Burst :=
  let p := presentOf l
  match p.find? isErr with
  | some b => some (passToken b level)
  | none => if p.all isData then none else some (errToken 0x22 0 level)

/-- What the absence policy makes of synchronised inputs: nothing to do, bursts dropped, a mismatch, or the statuses to
compute with, none where an identity stands in. -/
inductive Gate where
  | quiet
  | drop (n : Nat)
  | mismatch
  | go (l : List Status)
  deriving DecidableEq, Repr

/-- Statuses with the kept bursts in the place of absent ones. -/
def fillKept : List Status → List Status → List Status
  | x :: t, k :: u => (if x.isSome then x else k) :: fillKept t u
  | l, _ => l

/-- The absence policy (R126); `kept` are the kept bursts of the hold policy (R84). -/
def absGate (abs : Nat) (ins kept : List Status) : Gate :=
  if ins.all Option.isNone then .quiet
  else if ins.all Option.isSome then .go ins
  else match abs with
    | 0 => .drop (presentOf ins).length
    | 1 => .go ins
    | 3 =>
      let l := fillKept ins kept
      if l.all Option.isSome then .go l else .mismatch
    | _ => .mismatch

/-- The kept bursts of a node (R84): d0, d1 and d2. -/
def Node.kept (n : Node) : List Status := [tget n.d 0, tget n.d 1, tget n.d 2]

/-- A burst kept in a delay register. -/
def Node.keep (n : Node) (k : Nat) (x : Status) : Node :=
  match x with
  | some b => { n with d := tset n.d k b }
  | none => n

/-- The present bursts of A, B and C kept under ABS 3 (R84). -/
def Node.keepAll (n : Node) (l : List Status) : Node :=
  if n.rcd.abs = 3 then ((n.keep 0 (l.getD 0 none)).keep 1 (l.getD 1 none)).keep 2 (l.getD 2 none) else n

/-- Bit N of a predicate; a one-beat one repeats under broadcast (R82, R140). -/
def predBit (b : Burst) (reuse : Bool) (k : Nat) : Bool :=
  match b.beats[if reuse then 0 else k / 512]? with
  | some x => x.getLsbD (k % 512)
  | none => false

/-! ### Outcomes -/

/-- A firing that emits one status on X and a copy on Y (R9); an unconnected Y discards it. -/
def both (n : Node) (x : Status) : React := { node := n, x := x, y := x, faults := [], route := none }

/-- A firing that emits on X alone. -/
def onX (n : Node) (x : Status) : React := { node := n, x := x, y := none, faults := [], route := none }

/-- A firing that emits on X and Y. -/
def onXY (n : Node) (x y : Status) : React := { node := n, x := x, y := y, faults := [], route := none }

/-- A fault with its error token on every output (R75, R84, R142). -/
def failed (n : Node) (code level : Nat) : React :=
  let t := errToken code 0 level
  { node := n, x := some t, y := some t, faults := [(code, t.hdr)], route := none }

/-- The shared beginning of a reaction (R72–R76, R84): kinds, then the absence policy with its fault code, then the
computation on what the policy leaves. An instant whose present inputs are all empty fibres emits an empty fibre, also for ASEL under
ABS 1 with A and B absent, where R83 could call it a length mismatch; but where ABS 3 puts a kept data burst beside an empty fibre,
the burst counts as present and the two mismatch (R74, R84): both the model's choice (log 81). -/
def syncReact (n : Node) (ins : List Status) (level code : Nat) (f : Node → List Status → React) : React :=
  match kindToken ins level with
  | some t => both n (some t)
  | none =>
    let m := n.keepAll ins
    match absGate n.rcd.abs.toNat ins n.kept with
    | .quiet => quietReact n
    | .drop k => onX (m.drop k) none
    | .mismatch => failed m code level
    | .go l =>
      if (presentOf l).all isEmpty then both m (some (emptyFibre level (betaOut n.rcd ins))) else f m l

end Sys2Proof.Machine
end

