-- ==== Sys2Proof/Machine/Trans.lean ====
section
/-!
DEFINITION. The binary32 lane functions of R86, each correctly rounded RNE: the function is evaluated in fixed point with
384 fraction bits, and an irrational result is rounded as lying just beside that value (log 22).
-/

namespace Sys2Proof.Machine

/-- Fraction bits of the evaluation. -/
def fixBits : Nat := 384

/-- 1 in fixed point. -/
def fixOne : Nat := 2 ^ fixBits

/-- A product of fixed-point numbers, truncated. -/
def fixMul (a b : Nat) : Nat := a * b / fixOne

/-- The series of e^r: term, its index, and the sum so far. -/
def expSeries (r : Nat) : Nat → Nat → Nat → Nat → Nat
  | 0, _, _, acc => acc
  | fuel + 1, term, k, acc => expSeries r fuel (fixMul term r / (k + 1)) (k + 1) (acc + term)

/-- e^r for 0 ≤ r < 1. -/
def fixExp (r : Nat) : Nat := expSeries r 100 fixOne 0 0

/-- The series of artanh: z^(2k+1), 2k + 1, and the sum so far. -/
def atanhSeries (zz : Nat) : Nat → Nat → Nat → Nat → Nat
  | 0, _, _, acc => acc
  | fuel + 1, term, k, acc => atanhSeries zz fuel (fixMul term zz) (k + 2) (acc + term / k)

/-- ln (n/d) for 1 ≤ n/d < 2: 2 artanh ((n − d) / (n + d)). -/
def fixLn (n d : Nat) : Nat :=
  let z := (n - d) * fixOne / (n + d)
  2 * atanhSeries (fixMul z z) 140 z 1 0

/-- ln 2. -/
def fixLn2 : Nat := 2 * atanhSeries (fixMul (fixOne / 3) (fixOne / 3)) 140 (fixOne / 3) 1 0

/-- A positive rational rounded RNE to binary32 as a value; `beside` says that the function's value lies strictly above it,
closer than any boundary. -/
def toFp32 (neg : Bool) (n d : Nat) (e : Int) (beside : Bool) : XVal × Flg :=
  let r := binRoundRat fp32 0 0 neg (if beside then n * 2 ^ 64 + 1 else n) d (if beside then e - 64 else e)
  let v := binVal fp32 r.1
  (match v with
    | .num _ m q => .num (neg && m ≠ 0) m q
    | x => x, r.2)

/-- A value too small for binary32: zero, underflowed. -/
def tinyFp32 : XVal × Flg := (xzero, { nx := true, uf := true })

/-- An infinity as a lane result: SAT (R86). -/
def infLane (neg : Bool) (inexact : Bool) : XVal × Flg := (.inf neg, { sat := true, nx := inexact })

/-- A domain violation (R86). -/
def nanLane : XVal × Flg := (.nan 0, { nv := true })

/-- e^(n/d) for n/d ≥ 0 as a fixed-point mantissa and a power of two. -/
def expOf (n d : Nat) : Nat × Nat :=
  let t := n * fixOne / d
  (fixExp (t % fixLn2), t / fixLn2)

/-- A dyadic number as a numerator and denominator of its magnitude. -/
def dyRat (m : Int) (e : Int) : Nat × Nat :=
  if 0 ≤ e then (m.natAbs * 2 ^ e.toNat, 1) else (m.natAbs, 2 ^ (-e).toNat)

/-- AEXP2: 2^x (R86). -/
def fnExp2 (m e : Int) : XVal × Flg :=
  if m = 0 then toFp32 false 1 1 0 false
  else
    let fl := if 0 ≤ e then shl m e.toNat else m / (2 : Int) ^ (-e).toNat
    if 200 < fl then infLane false true
    else if fl < -400 then tinyFp32
    else
      let k := (-e).toNat
      let fr := if 0 ≤ e then 0 else (m - fl * (2 : Int) ^ k).toNat
      if fr = 0 then
        let r := toFp32 false 1 1 fl false
        if 127 < fl then infLane false true else r
      else
        let r := toFp32 false (fixExp (fr * fixLn2 / 2 ^ k)) 1 (fl - fixBits) true
        match r.1 with
        | .inf _ => infLane false true
        | _ => r

/-- ALOG2: log2 x (R86). -/
def fnLog2 (m e : Int) : XVal × Flg :=
  if m = 0 then infLane true false
  else if m < 0 then nanLane
  else
    let n := m.toNat
    let top := n.log2
    let whole : Int := e + top
    if n = 2 ^ top then
      if whole = 0 then (xzero, {}) else toFp32 (whole < 0) whole.natAbs 1 0 false
    else
      let f : Int := (fixLn n (2 ^ top) * fixOne / fixLn2 : Nat)
      let t := whole * fixOne + f
      if 0 ≤ t then toFp32 false t.toNat 1 (-(fixBits : Int)) true
      else toFp32 true (2 * (-t).toNat - 1) 1 (-(fixBits : Int) - 1) false

/-- ARCP: 1/x (R86). -/
def fnRcp (m e : Int) : XVal × Flg :=
  if m = 0 then infLane false false
  else toFp32 (m < 0) 1 m.natAbs (-e) false

/-- The square root's integer part of n. -/
def sqrtAux : Nat → Nat → Nat → Nat
  | 0, _, r => r
  | bit + 1, n, r =>
    let c := r + 2 ^ bit
    if c * c ≤ n then sqrtAux bit n c else sqrtAux bit n r

/-- ⌊√n⌋. -/
def natSqrt (n : Nat) : Nat := sqrtAux (n.log2 / 2 + 1) n 0

/-- √(m × 2^e) for m > 0: a mantissa, an exponent, and whether it is inexact. -/
def sqrtOf (m : Nat) (e : Int) : Nat × Int × Bool :=
  let m1 := if e % 2 = 0 then m else 2 * m
  let e1 := if e % 2 = 0 then e else e - 1
  let s := natSqrt (m1 * 2 ^ 200)
  (s, e1 / 2 - 100, s * s ≠ m1 * 2 ^ 200)

/-- ASQRT: √x (R86). -/
def fnSqrt (m e : Int) : XVal × Flg :=
  if m = 0 then (xzero, {})
  else if m < 0 then nanLane
  else
    let r := sqrtOf m.toNat e
    toFp32 false r.1 1 r.2.1 r.2.2

/-- ARSQ: 1/√x (R86). -/
def fnRsq (m e : Int) : XVal × Flg :=
  if m = 0 then infLane false false
  else if m < 0 then nanLane
  else
    let r := sqrtOf m.toNat e
    if r.2.2 then toFp32 false (2 ^ 400 / r.1) 1 (-400 - r.2.1) true
    else toFp32 false 1 r.1 (-r.2.1) false

/-- ATANH: tanh x (R86). Below 2^−14 the value lies just inside x; above 40 just inside 1. -/
def fnTanh (m e : Int) : XVal × Flg :=
  if m = 0 then (xzero, {})
  else
    let neg : Bool := m < 0
    let mag := ratLog2 m.natAbs 1 e
    if mag < -14 then toFp32 neg (m.natAbs * 2 ^ 40 - 1) 1 (e - 40) false
    else if 6 ≤ mag then toFp32 neg (2 ^ 40 - 1) 1 (-40) false
    else
      let q := dyRat m (e + 1)
      let x := expOf q.1 q.2
      let big := x.1 * 2 ^ x.2
      toFp32 neg (big - fixOne) (big + fixOne) 0 true

/-- ASIGM: 1/(1 + e^(−x)) (R86). -/
def fnSigm (m e : Int) : XVal × Flg :=
  if m = 0 then toFp32 false 1 1 (-1) false
  else
    let mag := ratLog2 m.natAbs 1 e
    if m < 0 then
      if 8 ≤ mag then tinyFp32
      else
        let q := dyRat m e
        let x := expOf q.1 q.2
        toFp32 false fixOne (fixOne + x.1 * 2 ^ x.2) 0 true
    else if 6 ≤ mag then toFp32 false (2 ^ 40 - 1) 1 (-40) false
    else
      let q := dyRat m e
      let x := expOf q.1 q.2
      let big := x.1 * 2 ^ x.2
      toFp32 false big (big + fixOne) 0 true

end Sys2Proof.Machine
end

