-- ==== Sys2Proof/Machine/Atoms.lean ====
section
/-!
DEFINITION. The atom operation nodes of chapter 04: element-wise nodes (R81–R87), conversions (R88, R89), per-atom reductions
(R90–R93), AMAXR (R94) and the pulse array (R95–R99).
-/

namespace Sys2Proof.Machine

/-! ### Atoms of bursts -/

/-- The atom format a code names; the loader lets no other code through (R60). -/
def atomFmtD (f : Nat) : AtomFmt := (atomFmt f).getD { l := 4, k := 3, w := 2, idx := 8, g16 := false }

/-- The atom patterns of a burst, in order. -/
def atomsIn (f : AtomFmt) (b : Burst) : List Nat := lanesOfBeats f.w b.beats

/-- The NaN payload that an operand atom brings (R31); none for a number. -/
def AtomVal.pay : AtomVal → Option Nat
  | .nan p _ => some p
  | .val .. => none

/-- An operand of an element-wise node at one position: its lanes, and what reading it gave. -/
structure Operand where
  lanes : List XVal
  pay   : Option Nat
  bad   : Bool

/-- An atom as an operand. -/
def operandOf (f : AtomFmt) (beta : Int) (bits : Nat) : Operand :=
  let v := atomVal f bits
  { lanes := atomLanes f beta v, pay := v.pay, bad := atomBad v }

/-- An identity operand: lanes of one value (R83). -/
def identOperand (f : AtomFmt) (v : XVal) : Operand := { lanes := List.replicate f.l v, pay := none, bad := false }

/-- One output atom of an element-wise node (R81, R31): the first NaN operand's atom, or its lanes encoded once. -/
def elementAtom (n : Node) (f : AtomFmt) (beta : Int) (j : Nat) (ops : List Operand) (z : List XVal) (fl : Flg) : Nat × Flg :=
  match ops.findSome? Operand.pay with
  | some p => (nanAtom f p, { nv := ops.any Operand.bad, nf := true })
  | none =>
    let r := encodeSearch f beta n.mode (n.rnd j) z
    (r.1, orFlg fl r.2)

/-- An element-wise result as a burst: atoms packed, the last beat filled with canonical zero atoms (R17, R81). -/
def atomBurst (f : AtomFmt) (level : Nat) (beta : Int) (atoms : List Nat) : Burst :=
  dataBurst level beta (beatsOfLanes f.w atoms)

/-- A node that emits data and raises the flags of its parts. -/
def Node.emits (n : Node) (fl : Flg) (b : Burst) : React := both (n.flag fl) (some b)

/-! ### Element-wise binary nodes (R81–R84) -/

/-- The identity of an absent input (R83), by opcode and input. -/
def identLane (op k : Nat) : XVal :=
  match op with
  | 0x12 => .num false 1 0
  | 0x13 => .inf true
  | 0x14 => .inf false
  | 0x16 => if k = 2 then xzero else .num false 1 0
  | _ => xzero

/-- Operand j of an input of the element-wise nodes: its own atom, a broadcast one, or the identity. -/
def operandAt (f : AtomFmt) (op which top j : Nat) (atoms : List Nat) : Status → Operand
  | none => identOperand f (identLane op which)
  | some b =>
    let k := if b.beats.length = 1 ∧ 1 < top then j % f.perBeat else j
    operandOf f (hdrBeta b.hdr) (atoms.getD k 0)

/-- The atoms of a status. -/
def atomsOf (f : AtomFmt) : Status → List Nat
  | none => []
  | some b => atomsIn f b

/-- Lane by lane over three lists. -/
def zip3 (g : XVal → XVal → XVal → XVal) : List XVal → List XVal → List XVal → List XVal
  | x :: a, y :: b, z :: c => g x y z :: zip3 g a b c
  | _, _, _ => []

/-- AtomBinary (R81) with the lengths of R74 and R82 checked: data inputs A, B and for AFMA C; the predicate of ASEL is C. -/
def binaryCore (g : XVal → XVal → XVal → XVal) (n : Node) (present : List Status) (l : List Status) : React :=
  let op := n.op
  let f := atomFmtD n.rcd.fmt.toNat
  let bcast := n.rcd.var.getLsbD 0
  let data := if op = 0x16 then l else l.take 2
  let bs := presentOf data
  let pred := if op = 0x15 then (l.getD 2 none) else none
  let top := if bs.isEmpty then blenOf n.rcd else maxBeats bs
  let shown := presentOf (if op = 0x15 then present.take 2 else present)
  let level := levelUnder bcast top shown
  let m := top * f.perBeat
  let lanes := m * f.l
  let reuse := match pred with
    | some c => bcast && c.beats.length == 1
    | none => false
  let predOk := match pred with
    | some c => reuse || c.beats.length == (lanes + 511) / 512
    | none => true
  let lenOk := bs.all (fun b => b.beats.length == top || (bcast && b.beats.length == 1))
  if !lenOk || !predOk || top ≠ blenOf n.rcd then failed n 0x21 level
  else
    let beta := betaOut n.rcd present
    let ats := data.map (atomsOf f)
    let out := (List.range m).map (fun j =>
      let ops := (List.range data.length).map (fun k => operandAt f op k top j (ats.getD k []) (data.getD k none))
      let ln := fun k => ((ops[k]?).map Operand.lanes).getD []
      let third := if op = 0x16 then ln 2
        else (List.range f.l).map (fun i =>
          let bit := match pred with
            | some c => predBit c reuse (j * f.l + i)
            | none => false
          if bit then .num false 1 0 else xzero)
      elementAtom n f beta j ops (zip3 g (ln 0) (ln 1) third) {})
    n.emits (orFlgs (out.map Prod.snd)) (atomBurst f level beta (out.map Prod.fst))

/-- An element-wise binary node (R81–R84): `g` combines lanes of A, B and C. -/
def binaryReact (g : XVal → XVal → XVal → XVal) (n : Node) (i : Ins) : React :=
  let wide := n.op = 0x15 ∨ n.op = 0x16
  let ins := if wide then [i.a, i.b, i.c] else [i.a, i.b]
  let shown := presentOf (if n.op = 0x15 then [i.a, i.b] else ins)
  syncReact n ins (outLevel (n.rcd.var.getLsbD 0) shown) 0x20 (fun m l => binaryCore g m ins l)

/-- A − B on lanes. -/
def xSub (x y : XVal) : XVal := xAdd x (xNeg y)

/-- AADD: xA + xB (R81). -/
def execAadd (r : NodeRec) (s : State) : Answer := .next (s.firePure 0x10 r (binaryReact (fun x y _ => xAdd x y)))

/-- ASUB: xA − xB (R81). -/
def execAsub (r : NodeRec) (s : State) : Answer := .next (s.firePure 0x11 r (binaryReact (fun x y _ => xSub x y)))

/-- AHAD: xA × xB (R81). -/
def execAhad (r : NodeRec) (s : State) : Answer := .next (s.firePure 0x12 r (binaryReact (fun x y _ => xMul x y)))

/-- AMAX: max(xA, xB) (R81). -/
def execAmax (r : NodeRec) (s : State) : Answer := .next (s.firePure 0x13 r (binaryReact (fun x y _ => xMax x y)))

/-- AMIN: min(xA, xB) (R81). -/
def execAmin (r : NodeRec) (s : State) : Answer := .next (s.firePure 0x14 r (binaryReact (fun x y _ => xMin x y)))

/-- ASEL: xA where the predicate bit is 1, else xB (R81, R82). -/
def execAsel (r : NodeRec) (s : State) : Answer :=
  .next (s.firePure 0x15 r (binaryReact (fun x y c => if c = xzero then y else x)))

/-- AFMA: xA × xB + xC, rounded once (R81). -/
def execAfma (r : NodeRec) (s : State) : Answer :=
  .next (s.firePure 0x16 r (binaryReact (fun x y z => xAdd (xMul x y) z)))

/-! ### Unary nodes (R85, R86) -/

/-- A unary node: `g i x` is lane i's result with its flags. -/
def unaryReact (g : NodeRec → Nat → XVal → XVal × Flg) (n : Node) (i : Ins) : React :=
  let ins := [i.a]
  let level := outLevel false (presentOf ins)
  syncReact n ins level 0x20 (fun m l =>
    match l.getD 0 none with
    | none => quietReact n
    | some b =>
      if b.beats.length ≠ blenOf m.rcd then failed m 0x21 level
      else
        let f := atomFmtD m.rcd.fmt.toNat
        let beta := betaOut m.rcd ins
        let out := ((atomsIn f b).zipIdx).map (fun x =>
          let o := operandOf f (hdrBeta b.hdr) x.1
          let z := o.lanes.zipIdx.map (fun y => g m.rcd y.2 y.1)
          elementAtom m f beta x.2 [o] (z.map Prod.fst) (orFlgs (z.map Prod.snd)))
        m.emits (orFlgs (out.map Prod.snd)) (atomBurst f level beta (out.map Prod.fst)))

/-- A lane result that raises no flag. -/
def exactLane (v : XVal) : XVal × Flg := (v, {})

/-- A function of R86 on a finite lane. -/
def onFinite (g : Int → Int → XVal × Flg) : XVal → XVal × Flg
  | .num neg m e => g (sgn neg m) e
  | v => (v, {})

/-- ANEG: −x (R85). -/
def execAneg (r : NodeRec) (s : State) : Answer := .next (s.firePure 0x20 r (unaryReact (fun _ _ x => exactLane (xNeg x))))

/-- AABS: |x| (R85). -/
def execAabs (r : NodeRec) (s : State) : Answer := .next (s.firePure 0x21 r (unaryReact (fun _ _ x => exactLane (xAbs x))))

/-- ARELU: max(x, 0) (R85). -/
def execArelu (r : NodeRec) (s : State) : Answer :=
  .next (s.firePure 0x22 r (unaryReact (fun _ _ x => exactLane (xMax x xzero))))

/-- ASCL: x × c with c = k0 as binary32 (R85). -/
def execAscl (r : NodeRec) (s : State) : Answer :=
  .next (s.firePure 0x23 r (unaryReact (fun q _ x => exactLane (xMul x (binVal fp32 q.k0.toNat)))))

/-- AMASK: 0 where bit i of k0 is set (R19, R85). -/
def execAmask (r : NodeRec) (s : State) : Answer :=
  .next (s.firePure 0x24 r (unaryReact (fun q i x => exactLane (if q.k0.getLsbD i then xzero else x))))

/-- ACLMP: min(max(x, lo), hi) (R85). -/
def execAclmp (r : NodeRec) (s : State) : Answer :=
  .next (s.firePure 0x25 r (unaryReact (fun q _ x =>
    exactLane (xMin (xMax x (binVal fp32 q.k0.toNat)) (binVal fp32 q.k1.toNat)))))

/-- AEXP2: 2^x (R86). -/
def execAexp2 (r : NodeRec) (s : State) : Answer := .next (s.firePure 0x28 r (unaryReact (fun _ _ x => onFinite fnExp2 x)))

/-- ALOG2: log2 x (R86). -/
def execAlog2 (r : NodeRec) (s : State) : Answer := .next (s.firePure 0x29 r (unaryReact (fun _ _ x => onFinite fnLog2 x)))

/-- ARCP: 1/x (R86). -/
def execArcp (r : NodeRec) (s : State) : Answer := .next (s.firePure 0x2A r (unaryReact (fun _ _ x => onFinite fnRcp x)))

/-- ARSQ: 1/√x (R86). -/
def execArsq (r : NodeRec) (s : State) : Answer := .next (s.firePure 0x2B r (unaryReact (fun _ _ x => onFinite fnRsq x)))

/-- ASQRT: √x (R86). -/
def execAsqrt (r : NodeRec) (s : State) : Answer := .next (s.firePure 0x2C r (unaryReact (fun _ _ x => onFinite fnSqrt x)))

/-- ATANH: tanh x (R86). -/
def execAtanh (r : NodeRec) (s : State) : Answer := .next (s.firePure 0x2D r (unaryReact (fun _ _ x => onFinite fnTanh x)))

/-- ASIGM: 1/(1 + e^(−x)) (R86). -/
def execAsigm (r : NodeRec) (s : State) : Answer := .next (s.firePure 0x2E r (unaryReact (fun _ _ x => onFinite fnSigm x)))

/-! ### Regrouping: AREN and ENC (R87, R88) -/

/-- Lanes grouped L at a time and encoded once (R87, R88): a NaN that an operand brought keeps its payload; of
two in one group the first in lane order is taken (the model's choice, log 21). -/
def encodeGroups (n : Node) (f : AtomFmt) (beta : Int) (keep : Bool) (lanes : List XVal) : List (Nat × Flg) :=
  (chunk f.l lanes).zipIdx.map (fun g =>
    match (if keep then g.1.findSome? (fun v => match v with
      | .nan p => some p
      | _ => none) else none) with
    | some p => (nanAtom f p, { nf := true })
    | none => encodeSearch f beta n.mode (n.rnd g.2) g.1)

/-- AREN: atoms of format k0 decoded and encoded once into FMT (R87). -/
def arenReact (n : Node) (i : Ins) : React :=
  let ins := [i.a]
  let level := outLevel false (presentOf ins)
  syncReact n ins level 0x20 (fun m l =>
    match l.getD 0 none with
    | none => quietReact n
    | some b =>
      let src := atomFmtD (m.rcd.k0.extractLsb' 0 6).toNat
      let f := atomFmtD m.rcd.fmt.toNat
      let ops := (atomsIn src b).map (operandOf src (hdrBeta b.hdr))
      let lanes := ops.flatMap (fun o => match o.pay with
        | some p => List.replicate src.l (.nan (payAcross src.g16 f.g16 p))
        | none => o.lanes)
      let per := f.perBeat * f.l
      if (lanes.length + per - 1) / per ≠ blenOf m.rcd then failed m 0x21 level
      else
        let beta := betaOut m.rcd ins
        let out := encodeGroups m f beta true lanes
        m.emits (orFlg { nv := ops.any Operand.bad } (orFlgs (out.map Prod.snd))) (atomBurst f level beta (out.map Prod.fst)))

/-- AREN (R87). -/
def execAren (r : NodeRec) (s : State) : Answer := .next (s.firePure 0x26 r arenReact)

/-- The INT8 scale of a record's k1; 1 where it names none (R46, R88). -/
def scaleIn (k : BitVec 32) : Nat × Int := (scaleOf k).getD (1, 0)

/-- ENC: storage lanes of format k0 grouped and encoded into FMT (R88). A beat of A8K16 is 16 atoms of 8 lanes, 128 lanes (R23, R80),
which are 8 beats of FP32, where R17 speaks of 4 (the model's choice, log 78). -/
def encReact (n : Node) (i : Ins) : React :=
  let ins := [i.a]
  let level := outLevel false (presentOf ins)
  syncReact n ins level 0x20 (fun m l =>
    match l.getD 0 none with
    | none => quietReact n
    | some b =>
      let src := (m.rcd.k0.extractLsb' 0 6).toNat
      let f := atomFmtD m.rcd.fmt.toNat
      let lanes := (lanesOfBeats (laneWidth src) b.beats).map (storVal src (scaleIn m.rcd.k1))
      let per := f.perBeat * f.l
      if (lanes.length + per - 1) / per ≠ blenOf m.rcd then failed m 0x21 level
      else
        let beta := betaOut m.rcd ins
        let out := encodeGroups m f beta false lanes
        m.emits (orFlgs (out.map Prod.snd)) (atomBurst f level beta (out.map Prod.fst)))

/-- ENC (R88). -/
def execEnc (r : NodeRec) (s : State) : Answer := .next (s.firePure 0x50 r encReact)

/-- DEC: atoms of format k0 decoded into storage lanes of FMT (R89). -/
def decReact (n : Node) (i : Ins) : React :=
  let ins := [i.a]
  let level := outLevel false (presentOf ins)
  syncReact n ins level 0x20 (fun m l =>
    match l.getD 0 none with
    | none => quietReact n
    | some b =>
      let f := atomFmtD (m.rcd.k0.extractLsb' 0 6).toNat
      let dst := m.rcd.fmt.toNat
      let w := laneWidth dst
      let ops := (atomsIn f b).map (operandOf f (hdrBeta b.hdr))
      let lanes := ops.flatMap Operand.lanes
      if lanes.length * w / 64 ≠ blenOf m.rcd then failed m 0x21 level
      else
        let out := lanes.zipIdx.map (fun x => storPack dst (scaleIn m.rcd.k1) m.mode (m.rnd x.2) x.1)
        m.emits (orFlg { nv := ops.any Operand.bad } (orFlgs (out.map Prod.snd)))
          (dataBurst level 0 (beatsOfLanes w (out.map Prod.fst))))

/-- DEC (R89). -/
def execDec (r : NodeRec) (s : State) : Answer := .next (s.firePure 0x51 r decReact)

/-! ### Reductions (R90–R93) -/

/-- An exact value with its terms: a sum, or a NaN. -/
inductive Sum where
  | nan (pay : Nat)
  | terms (l : List (Int × Int))

/-- The exact value of a sum. -/
def Sum.total : Sum → XVal
  | .nan p => .nan p
  | .terms l =>
    let t := l.foldl dyAdd (0, 0)
    if t.1 = 0 then xzero else ofDy t.1 t.2

/-- A sum as an output lane: binary32 rounded once, or an LA lane (R91–R93). -/
def sumLane (n : Node) (la : Bool) (j : Nat) (v : Sum) : Nat × Flg :=
  if la then match v with
    | .nan p => (laneBits (.nan (pay16 p)), { nf := true })
    | .terms l => (laneBits (laLane l), {})
  else binRound fp32 n.mode (n.rnd j) v.total

/-- The output burst of sums (R91): the last beat filled with +0.0 or empty lanes. -/
def sumBurst (n : Node) (level : Nat) (sums : List Sum) : Burst × Flg :=
  let la := (n.rcd.k0.extractLsb' 0 6) == 0x22
  let out := sums.zipIdx.map (fun x => sumLane n la x.2 x.1)
  let w := if la then 16 else 4
  let per := 64 / w
  let fill := List.replicate ((per - out.length % per) % per) (if la then laneBits .empty else 0)
  (dataBurst level 0 (beatsOfLanes w (out.map Prod.fst ++ fill)), orFlgs (out.map Prod.snd))

/-- Beats of the output of m sums (R91). -/
def sumBeats (n : Node) (m : Nat) : Nat :=
  if (n.rcd.k0.extractLsb' 0 6) == 0x22 then (m + 3) / 4 else (m + 15) / 16

/-- PulseDot (R38). -/
def pulseDot (a b : AtomVal) (beta : Int) : Sum :=
  match a, b with
  | .nan p _, _ => .nan p
  | _, .nan p _ => .nan p
  | .val g ge y, .val h he z =>
    .terms [((g * h : Nat) * (List.zipWith (· * ·) y z).foldl (· + ·) 0, ge + he + beta)]

/-- ANRM's value: g² × 2^(2β) × Σ y² (R90). -/
def anrmSum (a : AtomVal) (beta : Int) : Sum :=
  match a with
  | .nan p _ => .nan p
  | .val g ge y => .terms [((g * g : Nat) * (y.map (fun v => v * v)).foldl (· + ·) 0, 2 * (ge + beta))]

/-- ALSUM's value: g × 2^β × Σ y (R90). -/
def alsumSum (a : AtomVal) (beta : Int) : Sum :=
  match a with
  | .nan p _ => .nan p
  | .val g ge y => .terms [((g : Int) * y.foldl (· + ·) 0, ge + beta)]

/-- The atoms of a burst as values. -/
def valsIn (f : AtomFmt) (b : Burst) : List AtomVal := (atomsIn f b).map (atomVal f)

/-- ANRM and ALSUM (R90, R91). -/
def atomReduce (g : AtomVal → Int → Sum) (n : Node) (i : Ins) : React :=
  let ins := [i.a]
  let level := outLevel false (presentOf ins)
  syncReact n ins level 0x20 (fun m l =>
    match l.getD 0 none with
    | none => quietReact n
    | some b =>
      let vs := valsIn (atomFmtD m.rcd.fmt.toNat) b
      if sumBeats m vs.length ≠ blenOf m.rcd then failed m 0x21 level
      else
        let r := sumBurst m level (vs.map (fun v => g v (hdrBeta b.hdr)))
        m.emits (orFlg { nv := vs.any atomBad } r.2) r.1)

/-- ANRM (R90). -/
def execAnrm (r : NodeRec) (s : State) : Answer := .next (s.firePure 0x33 r (atomReduce anrmSum))

/-- ALSUM (R90). -/
def execAlsum (r : NodeRec) (s : State) : Answer := .next (s.firePure 0x34 r (atomReduce alsumSum))

/-- ADOT.P: pulse dots position by position (R18, R90); under .PB a one-beat operand repeats. -/
def adotPReact (n : Node) (i : Ins) : React :=
  let ins := [i.a, i.b]
  let bcast := n.rcd.var.getLsbD 1
  let shown := presentOf ins
  syncReact n ins (outLevel bcast shown) 0x20 (fun m l =>
    match l with
    | [some a, some b] =>
      let f := atomFmtD m.rcd.fmt.toNat
      let top := maxBeats [a, b]
      let level := levelUnder bcast top shown
      let ok := fun x : Burst => x.beats.length == top || (bcast && x.beats.length == 1)
      if !(ok a && ok b) || sumBeats m (top * f.perBeat) ≠ blenOf m.rcd then failed m 0x21 level
      else
        let at_ := fun (x : Burst) (v : List AtomVal) (j : Nat) =>
          v.getD (if x.beats.length = 1 then j % f.perBeat else j) (.val 0 0 [])
        let va := valsIn f a
        let vb := valsIn f b
        let sums := (List.range (top * f.perBeat)).map (fun j =>
          pulseDot (at_ a va j) (at_ b vb j) (hdrBeta a.hdr + hdrBeta b.hdr))
        let r := sumBurst m level sums
        m.emits (orFlg { nv := va.any atomBad || vb.any atomBad } r.2) r.1
    | _ => quietReact n)

/-- ADOT.P (R90). -/
def execAdotP (r : NodeRec) (s : State) : Answer := .next (s.firePure 0x30 r adotPReact)

/-! ### AMAXR (R94) -/

/-- The largest magnitude of lanes; NaN lanes are ignored. -/
def maxMag (l : List XVal) : XVal :=
  l.foldl (fun m v => match v with
    | .nan _ => m
    | x => xMax m (xAbs x)) xzero

/-- AMAXR: one beat with M, β and zeros; the header carries β (R94). -/
def amaxrReact (n : Node) (i : Ins) : React :=
  let ins := [i.a]
  let level := outLevel false (presentOf ins)
  match i.a with
  | some b =>
    if isEmpty b then both n (some (emptyFibre level 0))
    else syncReact n ins level 0x20 (fun m _ =>
      let src := m.rcd.fmt.toNat
      let tgt := atomFmtD (m.rcd.k0.extractLsb' 0 6).toNat
      let ops := match atomFmt src with
        | some f => (atomsIn f b).map (operandOf f (hdrBeta b.hdr))
        | none => []
      let lanes := match atomFmt src with
        | some _ => ops.flatMap Operand.lanes
        | none => (lanesOfBeats (laneWidth src) b.beats).map (storVal src (scaleIn m.rcd.k1))
      let r := binRound fp32 0 0 (maxMag lanes)
      let beta := blockBeta tgt.g16 (binVal fp32 r.1)
      let beat := packWidth 4 [r.1, (BitVec.ofInt 32 beta).toNat]
      m.emits (orFlg { nv := ops.any Operand.bad } r.2) (dataBurst level beta [BitVec.ofNat 512 beat]))
  | none => quietReact n

/-- AMAXR (R94). -/
def execAmaxr (r : NodeRec) (s : State) : Answer := .next (s.firePure 0x35 r amaxrReact)

/-! ### The pulse array (R95–R99) -/

/-- Atom k of a node's weights; canonical zero until loaded (R95). -/
def weightVals (f : AtomFmt) (w : List (BitVec 64)) : List AtomVal :=
  (List.range 512).map (fun k => atomVal f ((w.getD k 0).toNat))

/-- The weights that a burst on B carries, if it is a data burst of 512 atoms (R95). -/
def weightBurst (f : AtomFmt) (b : Burst) : Option (List (BitVec 64)) :=
  if hdrKind b.hdr = 0 ∧ b.beats.length = 512 / f.perBeat then some ((atomsIn f b).map (BitVec.ofNat 64)) else none

/-- One row of ArrayForward (R97): the lowest column whose pair is NaN, or the terms of the row. -/
def rowSum (v w : List AtomVal) (beta : Int) : Sum :=
  (List.zipWith (fun x y => pulseDot x y beta) v w).foldl (fun acc t => match acc, t with
    | .nan p, _ => .nan p
    | _, .nan p => .nan p
    | .terms a, .terms b => .terms (a ++ b)) (.terms [])

/-- The node that ADOTT names on its core reads the same weights (R98): a second reader still before this instant. -/
def State.readerBehind (s : State) (p id : Nat) (n : Node) : Bool :=
  match (s.coreAt p).cfg with
  | none => false
  | some g => g.nodes.any (fun x => x.2.op == 0x31 && (x.2.rcd.k1.extractLsb' 0 6).toNat == id && x.2.dom == n.dom &&
      decide (x.2.inst < n.inst))

/-- ADOT.W with its weights already those of the instant (R96, R97). -/
def forwardReact (n : Node) (i : Ins) : React :=
  let ins := [i.a]
  let level := outLevel false (presentOf ins)
  syncReact n ins level 0x20 (fun m l =>
    match l.getD 0 none with
    | none => quietReact n
    | some a =>
      let f := atomFmtD m.rcd.fmt.toNat
      let vs := valsIn f a
      if vs.length % 16 ≠ 0 ∨ sumBeats m (vs.length / 16 * 32) ≠ blenOf m.rcd then failed m 0x21 level
      else
        let ws := weightVals f m.wts
        let rows := chunk 16 ws
        let sums := (chunk 16 vs).flatMap (fun v => rows.map (fun w => rowSum v w (hdrBeta a.hdr + m.wbeta)))
        let r := sumBurst m level sums
        m.emits (orFlg { nv := vs.any atomBad || ws.any atomBad } r.2) r.1)

/-- ADOT.W's instant (R95): a weight burst on B first, of the right length or a mismatch, which an empty fibre is too (R73). A
mismatch of A keeps the weights of before the instant (R75), though the instant's own weights are the burst's (R98). -/
def adotWReact (n : Node) (i : Ins) : React :=
  let f := atomFmtD n.rcd.fmt.toNat
  match i.b with
  | some b =>
    if !isData b then forwardReact n { i with b := none }
    else match weightBurst f b with
      | some w =>
        let r := forwardReact { n with wts := w, wbeta := hdrBeta b.hdr } { i with b := none }
        if r.faults.isEmpty then r else { r with node := { r.node with wts := n.wts, wbeta := n.wbeta, wthen := some (n.inst, w, hdrBeta b.hdr) } }
      | none => failed n 0x21 (maxLevel (presentOf [i.a]))
  | none => forwardReact n i

/-- ADOT.W (R95–R97). It does not begin an instant while an ADOTT of its tile still reads the weights before it (R98). -/
def execAdotW (r : NodeRec) (s : State) : Answer :=
  .next (s.fireWith 0x30 r false (fun z n i =>
    if z.readerBehind z.here z.slot n then none else some (z, adotWReact n i)))

/-- The weights and the weight exponent of an instant (R98), with their format, that of ADOT.W (R95); none while ADOT.W's input B is not resolved. Of an ADOT.W in another
domain the weights held at the moment are read (the model's choice, log 69). -/
def State.weightsAt (s : State) (p id : Nat) (n : Node) : Option (AtomFmt × List (BitVec 64) × Int) :=
  match (s.coreAt p).node id with
  | none => some (atomFmtD n.rcd.fmt.toNat, [], 0)
  | some m =>
    let f := atomFmtD m.rcd.fmt.toNat
    if m.dom ≠ n.dom then some (f, m.wts, m.wbeta)
    else if n.inst < m.inst then (match m.wthen with
      | some (t, w) => some (f, if t = n.inst then w else (m.wts, m.wbeta))
      | none => some (f, m.wts, m.wbeta))
    else if m.inst < n.inst then none
    else match s.input p id m 1 with
      | .unknown => none
      | x => match x.get with
        | some b => match weightBurst f b with
          | some w => some (f, w, hdrBeta b.hdr)
          | none => some (f, m.wts, m.wbeta)
        | none => some (f, m.wts, m.wbeta)

/-- Column c of ArrayTranspose (R97): L sums over the rows, L of the weights' format. -/
def columnSums (f : AtomFmt) (e : List XVal) (pay : Option Nat) (col : List AtomVal) (beta : Int) : List Sum :=
  match pay, col.findSome? AtomVal.pay with
  | some p, _ => List.replicate f.l (.nan p)
  | none, some p => List.replicate f.l (.nan p)
  | none, none =>
    let lanes := col.map (atomLanes f beta)
    (List.range f.l).map (fun i =>
      .terms (List.zipWith (fun x (w : List XVal) => dyMul (xDy x) (xDy (w.getD i xzero))) e lanes))

/-- ADOTT over given weights of a format (R96, R97): its vectors are atoms of its own FMT, the weights of ADOT.W's. Where the two have
another L, a column gives the lanes that a weight has, 16·L of ADOT.W's L in all (the model's choice, log 86). -/
def adottReact (wf : AtomFmt) (w : List (BitVec 64)) (wbeta : Int) (n : Node) (i : Ins) : React :=
  let ins := [i.a]
  let level := outLevel false (presentOf ins)
  syncReact n ins level 0x20 (fun m l =>
    match l.getD 0 none with
    | none => quietReact n
    | some a =>
      let f := atomFmtD m.rcd.fmt.toNat
      let vs := valsIn f a
      let per := 32 / f.l
      if vs.length % per ≠ 0 ∨ sumBeats m (vs.length / per * (16 * wf.l)) ≠ blenOf m.rcd then failed m 0x21 level
      else
        let ws := weightVals wf w
        let rows := chunk 16 ws
        let cols := (List.range 16).map (fun c => rows.map (fun r => r.getD c (.val 0 0 [])))
        let sums := (chunk per vs).flatMap (fun v =>
          let e := v.flatMap (atomLanes f (hdrBeta a.hdr))
          cols.flatMap (fun col => columnSums wf e (v.findSome? AtomVal.pay) col wbeta))
        let r := sumBurst m level sums
        m.emits (orFlg { nv := vs.any atomBad || ws.any atomBad } r.2) r.1)

/-- ADOTT (R96–R98): it waits until the ADOT.W that k1 names has resolved its input B. -/
def execAdott (r : NodeRec) (s : State) : Answer :=
  .next (s.fireWith 0x31 r false (fun z n i =>
    (z.weightsAt z.here (n.rcd.k1.extractLsb' 0 6).toNat n).map (fun w => (z, adottReact w.1 w.2.1 w.2.2 n i))))

/-- The values of a table from one number on, a default where none is listed. -/
def tdense {α : Type} (d : α) : Nat → Nat → Tab α → List α
  | 0, _, _ => []
  | n + 1, k, [] => d :: tdense d n (k + 1) []
  | n + 1, k, (i, v) :: t => if i = k then v :: tdense d n (k + 1) t else d :: tdense d n (k + 1) ((i, v) :: t)

/-- A table that lists values from number 0 on. -/
def tlist {α : Type} (l : List α) : Tab α := l.zipIdx.map (fun x => (x.2, x.1))

/-- The term of an outer product: an element of B times an activation lane of A; of two NaNs A's gives the payload (R31). -/
def outerTerm (e x : XVal) : XVal := xMul x e

/-- One pair of vectors added to all cells (R99): cell (r, c) adds e_r × x_c lane by lane. -/
def outerStep (e : List XVal) (x : List (List XVal)) (acc : List Acc) : List Acc :=
  List.zipWith laAdd acc (e.flatMap (fun er => x.flatMap (fun xc => xc.map (outerTerm er))))

/-- AOUTR's instant on both bursts (R99); a mismatch's token has the level of the inputs present. `burst` holds the release
counter Q. -/
def aoutrCore (n : Node) (shown : Nat) (a b : Burst) : React :=
  let f := atomFmtD n.rcd.fmt.toNat
  let level := hdrLevel a.hdr
  let va := valsIn f a
  let vb := valsIn f b
  let per := 32 / f.l
  if va.length % 16 ≠ 0 ∨ vb.length % per ≠ 0 ∨ va.length / 16 ≠ vb.length / per then
    failed n 0x21 shown
  else
    let pairs := List.zip (chunk 16 va) (chunk per vb)
    let start := tdense Acc.zero (512 * f.l) 0 n.acc
    let acc := pairs.foldl (fun z p =>
      outerStep (p.2.flatMap (atomLanes f (hdrBeta b.hdr))) (p.1.map (atomLanes f (hdrBeta a.hdr))) z) start
    let q := n.burst + pairs.length
    let count := (n.rcd.k0.extractLsb' 0 16).toNat
    let rel := (n.rcd.k1.extractLsb' 0 3).toNat
    let bad : Flg := { nv := va.any atomBad || vb.any atomBad }
    if (count ≠ 0 ∧ count ≤ q) ∨ (rel ≠ 0 ∧ rel ≤ level) then
      let beta := betaOut n.rcd []
      let out := (chunk f.l acc).zipIdx.map (fun g => laRoundAtom f beta n.mode (n.rnd g.2) g.1)
      onX ({ n with acc := [], burst := 0 }.flag (orFlg bad (orFlgs (out.map Prod.snd))))
        (some (atomBurst f level beta (out.map Prod.fst)))
    else onX ({ n with acc := tlist acc, burst := q }.flag bad) none

/-- AOUTR (R96, R99): empty fibres add nothing, but the closing level of A is tested. -/
def aoutrReact (n : Node) (i : Ins) : React :=
  let ins := [i.a, i.b]
  let level := outLevel false (presentOf ins)
  match kindToken ins level with
  | some t => both n (some t)
  | none =>
    let m := n.keepAll ins
    match absGate n.rcd.abs.toNat ins n.kept with
    | .quiet => quietReact n
    | .drop k => onX (m.drop k) none
    | .mismatch => failed m 0x20 level
    | .go [some a, some b] => aoutrCore m level a b
    | .go _ => quietReact m

/-- AOUTR (R99). -/
def execAoutr (r : NodeRec) (s : State) : Answer := .next (s.firePure 0x32 r aoutrReact)

end Sys2Proof.Machine
end

