-- ==== Sys2Proof/Machine/AccNodes.lean ====
section
/-!
DEFINITION. Accumulators, drains and block scale (R106, R167–R176): ACC, ACC.F, ACCK, DRAIN, DLYB and CONV.
-/

namespace Sys2Proof.Machine

/-! ### Lanes in, lanes out (R92, R169) -/

/-- A lane of input: an LA lane, or an atom's exact lane. -/
inductive InLane where
  | la (l : Lane)
  | exact (v : XVal)
  deriving DecidableEq, Repr

/-- A lane added to an accumulator (R39). -/
def addLane (c : Acc) : InLane → Acc
  | .la l => laAddLane c l
  | .exact v => laAdd c v

/-- Whether a lane adds something. That an atom's lane of exact zero counts as an empty lane (R106) is the model's choice (log 81). -/
def InLane.some? : InLane → Bool
  | .la .empty => false
  | .la _ => true
  | .exact v => v != xzero && (match v with
    | .num _ m _ => m != 0
    | _ => true)

/-- The lanes of a burst, and NV where an atom is non-canonical: LA lanes, or under .A atoms of the format. -/
def inLanes (f : AtomFmt) (atoms : Bool) (b : Burst) : List InLane × Flg :=
  if atoms then
    let ops := (atomsIn f b).map (operandOf f (hdrBeta b.hdr))
    (ops.flatMap (fun o => o.lanes.map InLane.exact), { nv := ops.any Operand.bad })
  else ((lanesOfBeats 16 b.beats).map (fun x => .la (laneOf x)), {})

/-- Whether each lane of a burst comes from a non-canonical atom. -/
def badLanes (f : AtomFmt) (atoms : Bool) (b : Burst) : List Bool :=
  if atoms then (atomsIn f b).flatMap (fun x => List.replicate f.l (atomBad (atomVal f x))) else []

/-- The accumulators released as one burst (R169): atoms by LARound with β by BSM, or LA lanes under .L with β 0. -/
def releaseBurst (n : Node) (level : Nat) (acc : List Acc) : Burst × Flg :=
  let f := atomFmtD n.rcd.fmt.toNat
  if n.rcd.var.getLsbD 2 then
    let lanes := acc.map laEmit
    (dataBurst level 0 (beatsOfLanes 16 (lanes.map laneBits)), { nf := acc.any (fun c => c.nan) })
  else
    let beta := betaOut n.rcd []
    let out := (chunk f.l acc).zipIdx.map (fun g => laRoundAtom f beta n.mode (n.rnd g.2) g.1)
    (atomBurst f level beta (out.map Prod.fst), orFlgs (out.map Prod.snd))

/-- Accumulators of an ACC (R169): BLEN × P × L, or 4 × BLEN under .L. -/
def accSize (r : NodeRec) : Nat :=
  let f := atomFmtD r.fmt.toNat
  if r.var.getLsbD 2 then 4 * blenOf r else blenOf r * f.perBeat * f.l

/-! ### ACC and ACC.F (R169, R106) -/

/-- A token in place of ACC's outputs, with its accumulators and counters as given. -/
def accClear (n : Node) : Node := ({ n with acc := [] }.setReg 3 0).setReg 4 0

/-- AccStep (R169): register 3 is Q. -/
def accStep (n : Node) (a : Burst) : React :=
  let f := atomFmtD n.rcd.fmt.toNat
  let size := accSize n.rcd
  let lanes := inLanes f (n.rcd.var.getLsbD 1) a
  let level := hdrLevel a.hdr
  if size < lanes.1.length then failed (accClear n) 0x21 level
  else
    let start := tdense Acc.zero size 0 n.acc
    let acc := List.zipWith addLane start lanes.1 ++ start.drop lanes.1.length
    let q := n.reg 3 + 1
    let count := (n.rcd.k0.extractLsb' 0 16).toNat
    let rel := (n.rcd.k1.extractLsb' 0 3).toNat
    if (count ≠ 0 ∧ count ≤ q.toNat) ∨ (rel ≠ 0 ∧ rel ≤ level) then
      let r := releaseBurst n level acc
      onXY ((accClear n).flag (orFlg lanes.2 r.2)) (some r.1) (some (emptyFibre level 0))
    else onXY (({ n with acc := tlist acc }.setReg 3 q).flag lanes.2) none none

/-- AccFibreStep (R106): register 4 is the lane pointer q. -/
def accFibreStep (n : Node) (a : Burst) : React :=
  let f := atomFmtD n.rcd.fmt.toNat
  let size := accSize n.rcd
  let lanes := inLanes f (n.rcd.var.getLsbD 1) a
  let level := hdrLevel a.hdr
  let rel := (n.rcd.k1.extractLsb' 0 3).toNat
  let q := (n.reg 4).toNat
  if size ≤ q ∧ (lanes.1.any InLane.some? ∨ (1 ≤ level ∧ level < rel)) then failed (accClear n) 0x21 level
  else
    let start := tdense Acc.zero size 0 n.acc
    let acc := lmod start q (fun c => lanes.1.foldl addLane c)
    if rel ≤ level then
      if q = 0 then onXY ((accClear n).flag lanes.2) none (some (emptyFibre level 0))
      else
        let r := releaseBurst n level acc
        onXY ((accClear n).flag (orFlg lanes.2 r.2)) (some r.1) (some (emptyFibre level 0))
    else
      let q' := if 1 ≤ level then n.reg 4 + 1 else n.reg 4
      onXY ((({ n with acc := tlist acc }.setReg 3 (n.reg 3 + 1)).setReg 4 q').flag lanes.2) none none

/-- ACC's instant: kinds (R73), then the step; an empty fibre adds nothing but is counted and tested. -/
def accReact (step : Node → Burst → React) (n : Node) (i : Ins) : React :=
  match i.a with
  | none => quietReact n
  | some a => match kindToken [i.a] (hdrLevel a.hdr) with
    | some t => both n (some t)
    | none => step n a

/-- ACC (R169). -/
def execAcc (r : NodeRec) (s : State) : Answer := .next (s.firePure 0x40 r (accReact accStep))

/-- ACC.F: one lane per closed fibre (R106). -/
def execAccF (r : NodeRec) (s : State) : Answer := .next (s.firePure 0x40 r (accReact accFibreStep))

/-! ### ACCK (R170, R171) -/

/-- What ACCK holds in an instant: its node and its rows, keys counted in `keys`; the faults raised. -/
structure Acck where
  node   : Node
  rows   : List Acc
  faults : List (Nat × BitVec 32)

/-- One key's row of lanes added (R170): the row allocated to it, or a new one, or fault 0x27. NV is set where a lane that is
added comes from a non-canonical atom (R78). -/
def acckAdd (rho rows : Nat) (z : Acck) (key : BitVec 32) (lanes : List InLane) (bad : List Bool) : Acck :=
  if key = 0xFFFFFFFF then z
  else
    let put := fun (k : Nat) (n : Node) (cells : List Acc) =>
      let pre := cells.take (k * rho)
      let row := (cells.drop (k * rho)).take rho
      { z with node := n.flag { nv := bad.any id }, rows := pre ++ (List.zipWith addLane row lanes ++ row.drop lanes.length) ++ cells.drop ((k + 1) * rho) }
    if z.node.keys.contains key then put (z.node.keys.idxOf key) z.node z.rows
    else if z.node.keys.length = rows then { z with node := z.node.drop 1, faults := z.faults ++ [(0x27, 0)] }
    else
      let n := { z.node with keys := z.node.keys ++ [key] }
      put z.node.keys.length (n.setReg 3 (BitVec.ofNat 32 n.keys.length)) z.rows

/-- The keys with their lane rows, added in token order. -/
def acckAll (rho rows : Nat) : Acck → List (BitVec 32) → List InLane → List Bool → Acck
  | z, [], _, _ => z
  | z, k :: t, lanes, bad =>
    acckAll rho rows (acckAdd rho rows z k (lanes.take rho) (bad.take rho)) t (lanes.drop rho) (bad.drop rho)

/-- AcckStep (R170). -/
def acckCore (n : Node) (a c : Burst) : React :=
  let f := atomFmtD n.rcd.fmt.toNat
  let rho := (n.rcd.k0.extractLsb' 0 16).toNat
  let first := (n.rcd.k0.extractLsb' 16 4).toNat
  let count := (n.rcd.k0.extractLsb' 20 4).toNat + 1
  let rows := (n.rcd.k1.extractLsb' 0 11).toNat
  let rel := (n.rcd.k1.extractLsb' 16 3).toNat
  let atoms := n.rcd.var.getLsbD 1
  let level := maxLevel [a, c]
  let perIn := if atoms then f.perBeat * f.l else 4
  if a.beats.length ≠ (count * rho + perIn - 1) / perIn then failed n 0x21 level
  else
    let toks := if c.beats.isEmpty then [] else (List.range count).map (fun u => tokenOf (c.beats.headD 0) (first + u))
    let start := tdense Acc.zero (rows * rho) 0 n.acc
    let z := acckAll rho rows { node := n, rows := start, faults := [] } toks (inLanes f atoms a).1 (badLanes f atoms a)
    if rel ≤ level then
      let m := { z.node with acc := [], keys := [] }.setReg 3 0
      let keys := z.node.keys
      if keys.isEmpty then { onXY m none (some (emptyFibre level 0)) with faults := z.faults }
      else
        let r := releaseBurst z.node level z.rows
        let fill := List.replicate ((16 * ((rows + 15) / 16)) - keys.length) (0xFFFFFFFF : Nat)
        let y := dataBurst level 0 (beatsOfLanes 4 (keys.map BitVec.toNat ++ fill))
        { onXY (m.flag r.2) (some r.1) (some y) with faults := z.faults }
    else { onXY { z.node with acc := tlist z.rows } none none with faults := z.faults }

/-- ACCK's instant (R73, R126). -/
def acckReact (n : Node) (i : Ins) : React :=
  let ins := [i.a, i.c]
  let level := outLevel false (presentOf ins)
  match kindToken ins level with
  | some t => both n (some t)
  | none => match absGate n.rcd.abs.toNat ins [] with
    | .quiet => quietReact n
    | .drop k => onX (n.drop k) none
    | .mismatch => failed n 0x20 level
    | .go [some a, some c] => acckCore n a c
    | .go _ => quietReact n

/-- ACCK (R170). -/
def execAcck (r : NodeRec) (s : State) : Answer := .next (s.firePure 0x41 r acckReact)

/-! ### DRAIN (R172–R174) -/

/-- An accumulator multiplied exactly by m × 2^e, renormalised as LAAdd does (R172). -/
def accScale (c : Acc) (m : Int) (e : Int) : Acc :=
  if c.nan || c.empty then c
  else
    let r := laFit 126 (c.w * m) (c.a + e) c.sticky
    { c with w := r.1, a := r.2.1, sticky := r.2.2 }

/-- The largest |proxy| over the lanes that are not NaN, as binary32 bits (R173). -/
def amaxOf (v : List Acc) : Nat := (binRound fp32 0 0 (maxMag (v.map laProxy))).1

/-- AmaxUpdate (R173): the unsigned maximum at 0xA0, the NaN flag and the saturating update count at 0xA4 (R267). An uncorrectable
word there is reported by record 0x10 and left as it is (R405, log 12). -/
def State.amaxUpdate (s : State) (p id : Nat) (n : Node) (k : Nat) (v : List Acc) : State :=
  let at_ := recOffset (s.ctlAt p).trb k + 0xA0
  let z := s.touch p at_
  let old := z.peekLocalNat p at_ 8
  let m := max (old % 2 ^ 32) (amaxOf v)
  let nan := old / 2 ^ 32 % 2 = 1 ∨ v.any (fun c => c.nan)
  let count := min (old / 2 ^ 33 + 1) (2 ^ 31 - 1)
  if z.badIn (scratchKey p at_) 8 then z.portFault p id n 0x10 2 at_ true []
  else z.pokeLocal p at_ (bytesOfNat (m + (if nan then 2 ^ 32 else 0) + count * 2 ^ 33) 8)

/-- Whether a route leads to the channel of a destination, by whatever way: within the core, between cores, or to a sibling. -/
def State.feeds (s : State) (p route : Nat) (d : Dest) : Bool := match s.destOf p route with
  | some e => e.core == d.core && e.ep == d.ep
  | none => false

/-- What a DRAIN of a core holds in RSEL. -/
structure Held where
  core : Nat
  id   : Nat
  rsel : BitVec 32
  deriving DecidableEq, Repr

/-- Whether an RSEL feeds the channel of a destination (R174). -/
def State.heldFeeds (s : State) (d : Dest) (h : Held) : Bool := h.rsel.getLsbD 31 && s.feeds h.core (h.rsel.toNat % 4096) d

/-- Whether a route that a steering token names may be taken (R174) beside what DRAINs hold: unconnected, the DRAIN's own OUTX, or a
route of the table that leads to a channel which no OUTX or OUTY of the region and no other DRAIN's RSEL feeds. -/
def State.steerOk (s : State) (held : List Held) (p id : Nat) (n : Node) (route : Nat) : Bool :=
  if route = noRoute ∨ route = n.rcd.outX.toNat then true
  else match (s.coreAt p).cfg, s.fabricOf p with
    | some g, some (_, r) =>
      decide (route < g.routes.length) && (match s.destOf p route with
        | none => true
        | some d => (s.nodesOf r).all (fun x => !s.feeds x.1 x.2.2.rcd.outX.toNat d && !s.feeds x.1 x.2.2.rcd.outY.toNat d) &&
          held.all (fun h => (h.core == p && h.id == id) || !s.heldFeeds d h))
    | _, _ => false

/-- RSEL after a DRAIN has met a status on C, beside what DRAINs hold (R174). -/
def State.steerWord (s : State) (held : List Held) (p id : Nat) (n : Node) (c : Status) : BitVec 32 :=
  match c with
  | some b => if hdrKind b.hdr = 4 ∧ s.steerOk held p id n (hdrAux b.hdr % 4096) = true then BitVec.ofNat 32 (2 ^ 31 + hdrAux b.hdr % 4096) else n.reg 5
  | none => n.reg 5

/-- What a DRAIN held in RSEL before an instant of its domain. -/
def Node.rselBefore (n : Node) (t : Nat) : BitVec 32 :=
  match n.steered with
  | some (u, v) => if u = t ∧ t < n.inst then v else n.reg 5
  | none => n.reg 5

/-- One DRAIN's word in a list of what DRAINs hold. -/
def holdAs (held : List Held) (p id : Nat) (w : BitVec 32) : List Held :=
  held.map (fun h => if h.core = p ∧ h.id = id then { h with rsel := w } else h)

/-- What the DRAINs of a region hold when one of them meets a steering token (R125, R174): the tokens that DRAINs of its domain meet in
one instant apply in the order of core and node (the model's choice, log 93), whichever fires first, so that each DRAIN before it holds what
its token of this instant gave it and each one after it what it held before. None while some DRAIN of the domain has yet to come to the
instant, or the input C of one before it is not resolved. -/
def State.heldBy (s : State) (p id : Nat) (n : Node) (r : Region) : Option (List Held) :=
  let all := (s.nodesOf r).filter (fun x => x.2.2.op == 0x42)
  let mine := all.filter (fun x => x.2.2.dom == n.dom)
  let start := all.map (fun x => { core := x.1, id := x.2.1, rsel := if x.2.2.dom = n.dom then x.2.2.rselBefore n.inst else x.2.2.reg 5 })
  if !mine.all (fun x => decide (n.inst ≤ x.2.2.inst)) then none
  else (mine.takeWhile (fun x => !(x.1 == p && x.2.1 == id))).foldl (fun (h : Option (List Held)) x => h.bind (fun held =>
    if n.inst < x.2.2.inst then some (holdAs held x.1 x.2.1 (x.2.2.reg 5))
    else match s.input x.1 x.2.1 x.2.2 2 with
      | .unknown => none
      | c => some (holdAs held x.1 x.2.1 (s.steerWord held x.1 x.2.1 x.2.2 c.get)))) (some start)

/-- What the DRAINs hold when one of them meets a status on C; only a steering token makes it look, and wait. -/
def State.heldFor (s : State) (p id : Nat) (n : Node) (c : Status) : Option (List Held) :=
  match c, s.fabricOf p with
  | some b, some (_, r) => if hdrKind b.hdr = 4 then s.heldBy p id n r else some []
  | _, _ => some []

/-- SteerFrom(C) (R174) beside what DRAINs hold: register 5 is RSEL. -/
def State.steerFrom (s : State) (held : List Held) (p id : Nat) (n : Node) (c : Status) : Node × List (Nat × BitVec 32) :=
  match c with
  | none => (n, [])
  | some b =>
    if hdrKind b.hdr ≠ 4 then (n.drop 1, [])
    else
      let m := { n with steered := some (n.inst, n.reg 5) }.setReg 5 (s.steerWord held p id n c)
      (m, if s.steerOk held p id n (hdrAux b.hdr % 4096) then [] else [(0x29, b.hdr)])

/-- One lane of a DRAIN after residual and dropout (R172). -/
def drainLane (n : Node) (atoms : Bool) (j : Nat) (lane : Lane) (res : Option XVal) : Acc :=
  let t := match res with
    | some v => laAdd (accOfLane lane) v
    | none => accOfLane lane
  if n.rcd.var.getLsbD 1 then
    let col := if atoms then (n.reg 4).toNat * (atomFmtD n.rcd.fmt.toNat).l + j else (n.reg 4).toNat + j
    let z := ch64 (seedOf n.rcd) (ctr32 (n.reg 3) col)
    if (n.rcd.k1.extractLsb' 0 24).toNat ≤ (z.extractLsb' 40 24).toNat then
      let c := xDy (binVal fp32 n.rcd.k0.toNat)
      let e := lsbExp c.1 c.2
      accScale t (c.1 / 2 ^ (e - c.2).toNat) e
    else Acc.zero
  else t

/-- The random bits of a drain's position (R37): row and column of the output tensor. -/
def drainRnd (n : Node) (k : Nat) : Nat :=
  if n.rcd.rnd = 2 then rnd16 (seedOf n.rcd) (ctr32 (n.reg 3) ((n.reg 4).toNat + k)) else 0

/-- A tile encoded (R172): atoms, or storage lanes; the last beat is filled. -/
def drainBurst (n : Node) (level : Nat) (v : List Acc) : Burst × Flg :=
  let fmt := n.rcd.fmt.toNat
  match atomFmt fmt with
  | some f =>
    let beta := betaOut n.rcd []
    let out := (chunk f.l v).zipIdx.map (fun g => laRoundAtom f beta n.mode (drainRnd n g.2) g.1)
    (atomBurst f level beta (out.map Prod.fst), orFlgs (out.map Prod.snd))
  | none =>
    let out := v.zipIdx.map (fun x =>
      let r := storPack fmt (1, 0) n.mode (drainRnd n x.2) (laProxy x.1)
      (r.1, { r.2 with nx := r.2.nx || x.1.sticky }))
    (dataBurst level 0 (beatsOfLanes (laneWidth fmt) (out.map Prod.fst)), orFlgs (out.map Prod.snd))

/-- Lanes of a residual burst (R172): atoms with B's β, storage lanes at face value. -/
def residualLanes (fmt : Nat) (b : Burst) : List XVal × Flg :=
  match atomFmt fmt with
  | some f =>
    let ops := (atomsIn f b).map (operandOf f (hdrBeta b.hdr))
    (ops.flatMap Operand.lanes, { nv := ops.any Operand.bad })
  | none => ((lanesOfBeats (laneWidth fmt) b.beats).map (storVal fmt (1, 0)), {})

/-- Lanes that a beat of a format holds. -/
def lanesPerBeat (fmt : Nat) : Nat :=
  match atomFmt fmt with
  | some f => f.perBeat * f.l
  | none => 64 / laneWidth fmt

/-- DrainStep on resolved operands (R172), an absent A or B being zero: the reaction and the accumulators measured. The burst has
level `level`, a mismatch's token that of the inputs present, `shown` (R117). -/
def drainCore (n : Node) (a b : Status) (level shown : Nat) : React × Option (List Acc) :=
  let fmt := n.rcd.fmt.toNat
  let atoms := isAtom fmt
  let per := lanesPerBeat fmt
  let lanes := match a with
    | some x => (lanesOfBeats 16 x.beats).map laneOf
    | none => List.replicate (match b with
      | some y => y.beats.length * per
      | none => 0) .empty
  let len := lanes.length
  let res := match b with
    | some y => if n.rcd.var.getLsbD 0 then some (residualLanes fmt y) else none
    | none => none
  let resOk := match res with
    | some x => x.1.length == len
    | none => true
  let unit := if atoms then (atomFmtD fmt).l else 1
  if !resOk || len % unit ≠ 0 || (len + per - 1) / per ≠ blenOf n.rcd then (failed n 0x21 shown, none)
  else
    let v := lanes.zipIdx.map (fun x => drainLane n atoms x.2 x.1 (match res with
      | some y => some (y.1.getD x.2 xzero)
      | none => none))
    let r := drainBurst n level v
    let fl := match res with
      | some y => orFlg y.2 r.2
      | none => r.2
    (onX ((n.setReg 3 (n.reg 3 + 1)).flag fl) (some r.1), some v)

/-- DRAIN's instant (R172–R174) beside what DRAINs hold: steering, then A and B, the tile on the selected route. -/
def drainBeside (s : State) (held : List Held) (n : Node) (i : Ins) : Option (State × React) :=
  let st := s.steerFrom held s.here s.slot n i.c
  let m := st.1
  let ins := if n.rcd.var.getLsbD 0 then [i.a, i.b] else [i.a]
  let level := outLevel false (presentOf ins)
  let route := if (m.reg 5).getLsbD 31 then (m.reg 5).toNat % 4096 else m.rcd.outX.toNat
  let out : State × React := match kindToken ins level with
    | some t => (s, onX m (some t))
    | none =>
      let k := m.keepAll [i.a, if n.rcd.var.getLsbD 0 then i.b else none, none]
      match absGate n.rcd.abs.toNat ins n.kept with
      | .quiet => (s, quietReact m)
      | .drop q => (s, onX (k.drop q) none)
      | .mismatch => (s, { failed k 0x20 level with y := none })
      | .go l =>
        let lv := match l.getD 0 none with
          | some a => hdrLevel a.hdr
          | none => level
        let r := drainCore k (l.getD 0 none) (l.getD 1 none) (if (l.getD 0 none).isSome then lv else level) level
        match r.2 with
        | some v =>
          (if n.rcd.var.getLsbD 2 then s.amaxUpdate s.here s.slot n (n.rcd.k1.extractLsb' 24 8).toNat v else s, r.1)
        | none => (s, { r.1 with y := none })
  if !s.room s.here route then none
  else some (out.1, { out.2 with faults := st.2 ++ out.2.faults, route := some route })

/-- DRAIN's instant (R172–R174): it waits until what the DRAINs of its domain hold in the instant is known. -/
def drainReact (s : State) (n : Node) (i : Ins) : Option (State × React) :=
  (s.heldFor s.here s.slot n i.c).bind (fun held => drainBeside s held n i)

/-- DRAIN (R172–R174). -/
def execDrain (r : NodeRec) (s : State) : Answer := .next (s.fireWith 0x42 r false drainReact)

/-! ### Block scale (R175, R176) -/

/-- DLYB: the status of A, unless it is longer than the depth (R175); it has no synchronised input, so that the mismatch's token has
level 0 (R117). -/
def dlybReact (n : Node) (i : Ins) : React :=
  match i.a with
  | some a => if blenOf n.rcd < a.beats.length then failed n 0x21 0 else onX n i.a
  | none => quietReact n

/-- DLYB (R175). -/
def execDlyb (r : NodeRec) (s : State) : Answer := .next (s.firePure 0x43 r dlybReact)

/-- The lanes of CONV's input block (R87, R88), and NV. -/
def convLanes (n : Node) (f : AtomFmt) (a : Burst) : List XVal × Bool × Flg :=
  let src := (n.rcd.k0.extractLsb' 0 6).toNat
  match atomFmt src with
  | some g =>
    let ops := (atomsIn g a).map (operandOf g (hdrBeta a.hdr))
    (ops.flatMap (fun o => match o.pay with
      | some p => List.replicate g.l (.nan (payAcross g.g16 f.g16 p))
      | none => o.lanes), true, { nv := ops.any Operand.bad })
  | none => ((lanesOfBeats (laneWidth src) a.beats).map (storVal src (scaleIn n.rcd.k1)), false, {})

/-- CONV on two present bursts (R176). -/
def convCore (n : Node) (a b : Burst) (level : Nat) : React :=
  let beta := hdrBeta b.hdr
  if isEmpty a then onX n (some (emptyFibre level beta))
  else match atomFmt n.rcd.fmt.toNat with
    | none =>
      if a.beats.length ≠ blenOf n.rcd then failed n 0x21 level else onX n (some (dataBurst level beta a.beats))
    | some f =>
      let x := convLanes n f a
      let per := f.perBeat * f.l
      if (x.1.length + per - 1) / per ≠ blenOf n.rcd then failed n 0x21 level
      else
        let out := encodeGroups n f beta x.2.1 x.1
        onX (n.flag (orFlg x.2.2 (orFlgs (out.map Prod.snd)))) (some (atomBurst f level beta (out.map Prod.fst)))

/-- CONV's instant (R176): error tokens and A's kind (R73), B's kind and length, then absence. -/
def convReact (n : Node) (i : Ins) : React :=
  let ins := [i.a, i.b]
  let level := outLevel false (presentOf ins)
  let bKind := match i.b with
    | some b => isErr b || isData b
    | none => true
  let token := match (presentOf ins).find? isErr with
    | some t => some (passToken t level)
    | none => kindToken [i.a] level
  match token with
  | some t => onX n (some t)
  | none =>
    if !bKind then failed n 0x21 level
    else match absGate n.rcd.abs.toNat ins [] with
      | .quiet => quietReact n
      | .drop k => onX (n.drop k) none
      | .mismatch => failed n 0x20 level
      | .go [some a, some b] =>
        if (isEmpty b && !isEmpty a) || decide (1 < b.beats.length) then failed n 0x21 level else convCore n a b level
      | .go _ => quietReact n

/-- CONV (R176). -/
def execConv (r : NodeRec) (s : State) : Answer := .next (s.firePure 0x44 r convReact)

end Sys2Proof.Machine
end

