-- ==== Sys2Proof/Machine/Csr.lean ====
section
/-!
DEFINITION. Control and status registers (R211, R235): which exist, who may read and write them, and what they hold.
-/

namespace Sys2Proof.Machine

/-- Which mode may reach a CSR, and whether it can be written (R211). -/
structure CsrKind where
  fw : Bool
  rw : Bool
  deriving DecidableEq, Repr

/-- The CSRs of R211. -/
def csrKind (n : BitVec 12) : Option CsrKind :=
  match n.toNat with
  | 0x010 | 0x011 | 0x012 | 0x013 | 0x014 => some { fw := false, rw := false }
  | 0x018 => some { fw := true, rw := false }
  | 0x020 => some { fw := false, rw := true }
  | 0x021 | 0x022 => some { fw := false, rw := false }
  | 0x023 => some { fw := false, rw := true }
  | 0x028 | 0x029 | 0x030 => some { fw := false, rw := false }
  | 0x031 => some { fw := false, rw := true }
  | 0x032 => some { fw := false, rw := false }
  | 0x040 | 0x041 | 0x042 | 0x043 | 0x044 | 0x045 | 0x046 => some { fw := true, rw := true }
  | _ => none

/-- Entry counts at five bits each (R211 INBOX, OUTBOX). -/
def fiveBits : List Nat → Nat
  | [] => 0
  | n :: t => n % 32 + 32 * fiveBits t

/-- HPORT: the memory nodes held by a fault, and the copy engine's hold (R211, R291). -/
def State.hport (s : State) (p : Nat) : BitVec 64 :=
  let bits := (List.range 16).foldl (fun a i =>
    match s.teamNode p (64 + i) with
    | some n => if n.hold.isSome then a + 2 ^ i else a
    | none => a) 0
  BitVec.ofNat 64 (bits + if (s.coreAt p).ce.hold.isSome then 65536 else 0)

/-- PIDX: the loop indices of the selected memory node (R211). -/
def State.pidx (s : State) (p : Nat) : BitVec 64 :=
  match s.teamNode p (64 + (s.ctlAt p).psel.toNat) with
  | some n => (List.range 4).foldl (fun a i => a ||| (((n.reg (12 + i)).extractLsb' 0 16).zeroExtend 64 <<< (16 * i))) 0
  | none => 0

/-- The handle of the task that spawned the one on a core (R211 PARENT). -/
def State.parentAt (s : State) (p : Nat) : BitVec 32 :=
  match (s.coreAt p).team with
  | some _ => match tget s.tasks (s.teamAt p).task with
    | some k => k.parent
    | none => 0
  | none => 0

/-- CYCLE at a step: the fabric cycles since the task started, a stop for pre-emption left out (R211, R239). -/
def Ctl.cycle (c : Ctl) (now : Nat) : Nat := c.cycles + (Config.fabricCycles now - Config.fabricCycles c.start)

/-- A controller whose CYCLE is held at a step (R239). -/
def Ctl.holdCycle (c : Ctl) (now : Nat) : Ctl := { c with cycles := c.cycle now, start := now }

/-- A controller stopped for pre-emption at a step (R239). -/
def Ctl.stopAt (c : Ctl) (now : Nat) : Ctl := { c.holdCycle now with run := .stopped }

/-- The value of a CSR of the controller whose turn it is (R211). -/
def State.csr (s : State) (n : BitVec 12) : BitVec 64 :=
  let p := s.here
  let c := s.me
  let tm := s.teamAt p
  match n.toNat with
  | 0x010 => BitVec.ofNat 64 (s.lid p % 1024)
  | 0x011 => BitVec.ofNat 64 tm.w
  | 0x012 => BitVec.ofNat 64 tm.h
  | 0x013 => (s.handleAt p).zeroExtend 64
  | 0x014 => (s.parentAt p).zeroExtend 64
  | 0x018 => BitVec.ofNat 64 p
  | 0x020 => c.trb
  | 0x021 => BitVec.ofNat 64 (fiveBits (c.inbox.toList.map List.length))
  | 0x022 => BitVec.ofNat 64 (fiveBits (c.outbox.toList.map List.length))
  | 0x023 => c.inboxLost.zeroExtend 64
  | 0x028 => BitVec.ofNat 64 (c.cycle s.steps)
  | 0x029 => c.instret
  | 0x030 => s.hport p
  | 0x031 => c.psel.zeroExtend 64
  | 0x032 => s.pidx p
  | 0x040 => BitVec.ofNat 64 (c.fw.toNat + 2 * c.fwPrev.toNat)
  | 0x041 => c.tvec
  | 0x042 => c.trapCause
  | 0x043 => c.trapIp
  | 0x044 => c.trapVal
  | 0x045 => c.tscratch
  | 0x046 => c.wdog.zeroExtend 64
  | _ => 0

/-- A CSR written; bits that R211 does not let be written keep their values. -/
def Ctl.csrSet (c : Ctl) (n : BitVec 12) (v : BitVec 64) : Ctl :=
  match n.toNat with
  | 0x020 => { c with trb := 0x8000000000000000 ||| (v &&& 0x3FFF00) }
  | 0x023 => { c with inboxLost := v.extractLsb' 0 32 }
  | 0x031 => { c with psel := v.extractLsb' 0 4 }
  | 0x040 => { c with fw := v.getLsbD 0, fwPrev := v.getLsbD 1 }
  | 0x041 => { c with tvec := v &&& ~~~3 }
  | 0x042 => { c with trapCause := v }
  | 0x043 => { c with trapIp := v }
  | 0x044 => { c with trapVal := v }
  | 0x045 => { c with tscratch := v }
  | 0x046 => { c with wdog := v.extractLsb' 0 32 }
  | _ => c

/-- Whether an access to a CSR is legal for the controller (R211). -/
def Ctl.csrOk (c : Ctl) (n : BitVec 12) (write : Bool) : Bool :=
  match csrKind n with
  | none => false
  | some k => (!k.fw || c.fw) && (!write || k.rw)

/-- The word of a CSR instruction (R212, R235). -/
def csrWord (d a : Reg) (csr : BitVec 12) (fn : BitVec 4) : BitVec 32 := 0x38#6 ++ d ++ a ++ csr ++ fn

/-- An instruction that writes a CSR from its value and sa, or traps as illegal (R211, R235). -/
def State.csrWrite (s : State) (a : Reg) (csr : BitVec 12) (fn : BitVec 4) (f : BitVec 64 → BitVec 64 → BitVec 64) : State :=
  if s.me.csrOk csr true then
    let v := f (s.csr csr) (s.reg a)
    s.modMe (fun c => (c.csrSet csr v).done)
  else s.illegal (csrWord 0 a csr fn)

/-- CSRR: sd ← csr (R235). -/
def execCsrr (d : Reg) (csr : BitVec 12) (s : State) : Answer :=
  .next (if s.me.csrOk csr false then s.result d (s.csr csr) else s.illegal (csrWord d 0 csr 0))

/-- CSRW: csr ← sa (R235). -/
def execCsrw (a : Reg) (csr : BitVec 12) (s : State) : Answer := .next (s.csrWrite a csr 1 (fun _ v => v))

/-- CSRS: csr ← csr | sa (R235). -/
def execCsrs (a : Reg) (csr : BitVec 12) (s : State) : Answer := .next (s.csrWrite a csr 2 (fun o v => o ||| v))

/-- CSRC: csr ← csr & ~sa (R235). -/
def execCsrc (a : Reg) (csr : BitVec 12) (s : State) : Answer := .next (s.csrWrite a csr 3 (fun o v => o &&& ~~~v))

end Sys2Proof.Machine
end

