-- ==== Sys2Proof/Machine/Records.lean ====
section
/-!
DEFINITION. Launch records and plans (R302–R310): their fields, the checks of R305, acceptance into the dependence table,
events (R306) and readiness (R307).
-/

namespace Sys2Proof.Machine

/-! ### Reading a record and its plan -/

/-- A source of plan reads: the partition, and the team and logical core whose local space selector 0x8 names, if any
(R304), with the position where that core last stood. -/
structure PlanSrc where
  part : Nat
  core : Option (Nat × Nat)
  pos  : Nat
  deriving DecidableEq, Repr

/-- Bytes of global memory by runs that stay within one 64-byte beat; none where some byte cannot be read. -/
def State.readGlobal (s : State) (part : Nat) : Nat → Nat → Nat → Option (List Byte)
  | 0, _, n => if n = 0 then some [] else none
  | fuel + 1, va, n =>
    if n = 0 then some []
    else
      let run := min n (64 - va % 64)
      match s.xlatTable part va .read with
      | .ok pa _ =>
        if s.badIn pa run then none
        else (s.readGlobal part fuel (va + run) (n - run)).map (fun t => s.peek pa run ++ t)
      | _ => none

/-- Bytes of the scratchpad of a logical core of a team, wherever it stands: on its core, or in its save (R309, R361); once
the team has ended, of the core where it last stood. -/
def State.spawnBytes (s : State) (t l pos off n : Nat) : Option (List Byte) :=
  match tget s.teams t with
  | none => if s.badIn (scratchKey pos off) n then none else some (s.peekLocal pos off n)
  | some tm => match tm.save with
    | none =>
      let p := tm.posOf l
      if s.badIn (scratchKey p off) n then none else some (s.peekLocal p off n)
    | some sv =>
      let p := (sv.row + l / tm.w) * Config.gridCols + sv.col + l % tm.w
      let tags := (s.coreAt p).bankTags
      let cells := sv.scratch.getD l []
      let here := fun o => sv.resident && tget tags (o / bankBytes) == some (s.handle tm.task)
      if (sv.bad.getD l []).any (fun w => decide (w < off + n) && decide (off < w + 8)) then none
      else some ((List.range n).map (fun i =>
        if here (off + i) then readCell s.mem (scratchKey p (off + i)) else readCell cells (off + i)))

/-- Bytes at an address of a record or plan (R304, R305 reason 0x02). -/
def State.planBytes (s : State) (src : PlanSrc) (a : BitVec 64) (n : Nat) : Option (List Byte) :=
  match spaceOf a with
  | .global va => if va + n ≤ 2 ^ 57 then s.readGlobal src.part (n / 64 + 2) va n else none
  | .localMem off => match src.core with
    | some (t, l) => if off + n ≤ 2 ^ 22 then s.spawnBytes t l src.pos off n else none
    | none => none
  | _ => none

/-- Whether an address has a selector that R304 allows. -/
def planAddrOk (src : PlanSrc) (a : BitVec 64) : Bool :=
  match spaceOf a with
  | .global _ => true
  | .localMem _ => src.core.isSome
  | _ => false

/-- A little-endian field of a list of bytes. -/
def fieldOf (l : List Byte) (off n : Nat) : Nat := natOfBytes ((l.drop off).take n)

/-- Whether bytes off … off + n − 1 are zero. -/
def zeroAt (l : List Byte) (off n : Nat) : Bool := fieldOf l off n == 0

/-- Whether an entry is an address in 0x3E_0000–0x3F_FFFF of local space, on a word (R304, R205). -/
def entryOk (a : BitVec 64) : Bool :=
  match spaceOf a with
  | .localMem off => decide (0x3E0000 ≤ off) && off % 4 == 0
  | _ => false

/-- What the reading of a plan holds so far: its nodes in plan order, its leaves, and the lowest refusal reason, 0 for
none. -/
structure PlanRead where
  nodes  : List PlanNode
  leaves : Nat
  reason : Nat
  deriving DecidableEq, Repr

/-- The lower of two refusal reasons, 0 for none (R305). -/
def lowerReason (a b : Nat) : Nat := if a = 0 then b else if b = 0 then a else min a b

/-- The reason joined to what was read. -/
def PlanRead.bad (r : PlanRead) (reason : Nat) : PlanRead := { r with reason := lowerReason r.reason reason }

/-- The reason joined where a check fails. -/
def PlanRead.check (r : PlanRead) (ok : Bool) (reason : Nat) : PlanRead := if ok then r else r.bad reason

/-- Whether the partition has a rectangle of its cores of a shape, none of them failed (R305, R309, R357). -/
def State.shapeExists (s : State) (part h w : Nat) : Bool :=
  (List.range Config.coreCount).any (fun p =>
    decide (rowOf p + h ≤ Config.gridRows) && decide (colOf p + w ≤ Config.gridCols) &&
    ((List.range (h * w)).all (fun l =>
      let q := (rowOf p + l / w) * Config.gridCols + colOf p + l % w
      let c := s.coreAt q
      c.assigned && c.tag == part && !c.failed)))

/-- A section entry (R309); none where it is malformed. -/
def readSection (l : List Byte) : Option Section :=
  let len := fieldOf l 8 4
  let dst := fieldOf l 12 4
  if len ≤ 2 ^ 22 ∧ dst < 2 ^ 22 then some { src := BitVec.ofNat 64 (fieldOf l 0 8), len := len, dst := dst } else none

/-- A leaf node read (R309). -/
def State.readLeaf (s : State) (src : PlanSrc) (r : PlanRead) (b : List Byte) : PlanRead :=
  let flags := fieldOf b 1 1
  let h := fieldOf b 2 1
  let w := fieldOf b 3 1
  let n := fieldOf b 4 4
  let image := BitVec.ofNat 64 (fieldOf b 8 8)
  let entry := BitVec.ofNat 64 (fieldOf b 0x10 8)
  let worker := BitVec.ofNat 64 (fieldOf b 0x18 8)
  let table := BitVec.ofNat 64 (fieldOf b 0x20 8)
  let hasImage := flags % 2 == 1
  let hasWorker := flags / 2 % 2 == 1
  let raw := if n = 0 then some [] else s.planBytes src table (16 * n)
  let rows := chunk 16 (raw.getD [])
  let secs := rows.map readSection
  let node : PlanNode :=
    { kind := 0, cascade := false, kids := [], hand := [], hasImage := hasImage,
      worker := if hasWorker then some worker else none, h := h, w := w, image := image, entry := entry,
      sections := secs.filterMap id }
  let r1 := { r with nodes := r.nodes ++ [node], leaves := r.leaves + 1 }
  let r2 := r1.check (decide (flags < 4) && zeroAt b 0x28 24 && decide (n ≤ 64) && decide (1 ≤ h ∧ h ≤ 32) &&
    decide (1 ≤ w ∧ w ≤ 16) && (hasImage || image == 0) && (hasWorker || worker == 0) && secs.all Option.isSome &&
    decide (r1.leaves ≤ 64)) 6
  let r3 := r2.check (s.shapeExists src.part h w) 6
  let r4 := r3.check (raw.isSome && entryOk entry && (!hasWorker || entryOk worker)) 2
  let r5 := r4.check (!hasImage || (planAddrOk src image && image.toNat % 64 == 0)) 2
  r5.check (rows.all (fun x => planAddrOk src (BitVec.ofNat 64 (fieldOf x 0 8)))) 2

/-- The 8-byte entries of an array of bytes. -/
def entriesOf (l : List Byte) : List (BitVec 64) := (chunk 8 l).map (fun x => BitVec.ofNat 64 (natOfBytes x))

/-- Whether an inner node's fixed fields are in their limits (R308). -/
def innerOk (b : List Byte) : Bool :=
  let kind := fieldOf b 0 1
  let n := fieldOf b 2 2
  let hn := fieldOf b 0x18 4
  decide (fieldOf b 1 1 < 2) && zeroAt b 4 4 && zeroAt b 0x1C 36 && decide (n ≤ 16) && decide ((if kind = 1 then 1 else 2) ≤ n) &&
  (if kind = 2 then decide (1 ≤ hn ∧ hn ≤ 64) else zeroAt b 0x10 8 && hn == 0)

/-- A plan node of which nothing is known but its place: it cannot be read, is of no kind, or lies too deep. -/
def PlanNode.unknown : PlanNode :=
  { kind := 4, cascade := false, kids := [], hand := [], hasImage := false, worker := none, h := 0, w := 0, image := 0, entry := 0, sections := [] }

/-- The reason of a node of which nothing is known joined to what was read. -/
def PlanRead.lost (r : PlanRead) (reason : Nat) : PlanRead := { r.bad reason with nodes := r.nodes ++ [PlanNode.unknown] }

/-- The bytes of a plan node; none where its address is misaligned, not allowed or cannot be read (R304, R305). -/
def State.nodeBytes (s : State) (src : PlanSrc) (a : BitVec 64) : Option (List Byte) :=
  if a.toNat % 64 ≠ 0 then none else s.planBytes src a 64

/-- A plan read from a node address (R308), at most 8 levels deep (R305): a node of the ninth level is read, but not what it names.
The index is the node's place in plan order. All that a malformed node names is read as well, for a lower reason that applies
(R305); of children whose array cannot be read nothing is known. -/
def State.readPlan (s : State) (src : PlanSrc) : Nat → PlanRead → BitVec 64 → PlanRead
  | 0, r, a => match s.nodeBytes src a with
    | none => (r.lost 2).bad 6
    | some b => if fieldOf b 0 1 = 0 then (s.readLeaf src r b).bad 6 else r.lost 6
  | fuel + 1, r, a =>
    match s.nodeBytes src a with
    | none => r.lost 2
    | some b =>
      let kind := fieldOf b 0 1
      if kind = 0 then s.readLeaf src r b
      else if 3 < kind then r.lost 6
      else
        let n := fieldOf b 2 2
        let hn := fieldOf b 0x18 4
        let hand := if kind = 2 then s.planBytes src (BitVec.ofNat 64 (fieldOf b 0x10 8)) (8 * hn) else some []
        let arr := s.planBytes src (BitVec.ofNat 64 (fieldOf b 8 8)) (8 * n)
        let me := r.nodes.length
        let node : PlanNode :=
          { kind := kind, cascade := fieldOf b 1 1 == 1, kids := [], hand := entriesOf (hand.getD []), hasImage := false, worker := none,
            h := 0, w := 0, image := 0, entry := 0, sections := [] }
        let r0 := ({ r with nodes := r.nodes ++ [node] }.check (innerOk b) 6).check hand.isSome 2
        let r1 := if arr.isSome then r0 else r0.lost 2
        let go := (entriesOf (arr.getD [])).foldl
          (fun (z : PlanRead × List Nat) k => (State.readPlan s src fuel z.1 k, z.2 ++ [z.1.nodes.length])) (r1, [])
        { go.1 with nodes := lmod go.1.nodes me (fun x => { x with kids := go.2 }) }

/-! ### Checking a record (R302, R305) -/

/-- The dependence count of a record. -/
def recDeps (b : List Byte) : Nat := fieldOf b 0x11 1 % 8

/-- The fields of a record, however malformed. -/
def recordOf (b : List Byte) : LaunchRec :=
  { plan := BitVec.ofNat 64 (fieldOf b 0 8), arg := BitVec.ofNat 64 (fieldOf b 8 8), prio := fieldOf b 0x10 1 % 4,
    deps := (List.range (min 4 (recDeps b))).map (fun i => fieldOf b (0x18 + 2 * i) 2),
    event := if fieldOf b 0x11 1 / 8 % 2 = 1 then some (fieldOf b 0x14 2) else none,
    anyway := fieldOf b 0x11 1 / 16 % 2 == 1, ident := BitVec.ofNat 256 (fieldOf b 0x20 32) }

/-- Whether a record's fixed fields are in their limits: reason 0x01 otherwise (R302, R305). -/
def recordFieldsOk (b : List Byte) : Bool :=
  decide (fieldOf b 0x10 1 < 4) && decide (fieldOf b 0x11 1 < 32) && decide (recDeps b ≤ 4) && zeroAt b 0x12 2 &&
  zeroAt b 0x16 2 && (fieldOf b 0x11 1 / 8 % 2 == 1 || zeroAt b 0x14 2) &&
  zeroAt b (0x18 + 2 * recDeps b) (8 - 2 * min 4 (recDeps b))

/-- Events of a partition (R391 PEVT). -/
def Part.events (p : Part) : Nat := bitsOf p.pevt.toNat 31 16

/-- The global number of a partition's event (R306, R391). -/
def Part.event (p : Part) (i : Nat) : Nat := (bitsOf p.pevt.toNat 15 0 + i) % 65536

/-- The state of an event; every event is done from boot (R306). -/
def State.eventAt (s : State) (e : Nat) : Nat := tgetD endDone s.events e

/-- Unjoined children of a task (R319). -/
def State.children (s : State) (h : BitVec 32) : Nat :=
  (s.tasks.filter (fun x => x.2.srcCore.isSome && x.2.parent == h && !x.2.joined)).length

/-- The plan of a record, read and checked (R305). -/
def State.planOf (s : State) (src : PlanSrc) (b : List Byte) : PlanRead :=
  s.readPlan src 8 { nodes := [], leaves := 0, reason := 0 } (recordOf b).plan

/-- Whether the first leaf in plan order is known to have no image: no node before it is unknown. -/
def firstBare (l : List PlanNode) : Bool :=
  match l.find? (fun n => n.kind == 0 || n.kind == 4) with
  | some n => n.kind == 0 && !n.hasImage
  | none => false

/-- The refusal reason of a record, 0 where it is accepted (R305): the lowest that applies. -/
def State.refusal (s : State) (src : PlanSrc) (b : List Byte) (kids : Nat) : Nat :=
  let r := recordOf b
  let pt := s.partAt src.part
  let plan := s.planOf src b
  let evOk := (r.deps ++ r.event.toList).all (fun e => decide (e < pt.events))
  let identOk := !firstBare plan.nodes || r.ident == 0
  let r1 := if recordFieldsOk b && identOk then 0 else 1
  let r3 := if evOk then 0 else 3
  let r4 := if s.tasks.length < 16384 then 0 else 4
  let r5 := if src.core.isSome && decide (64 ≤ kids) then 5 else 0
  [r1, r3, r4, r5].foldl lowerReason plan.reason

/-! ### Acceptance (R305, R306) -/

/-- A free entry, and a generation other than the last one given for it: both left to the dispatcher (R305). -/
def State.pickEntry (s : State) : Nat × Nat :=
  let free := (List.range 16384).filter (fun i => (tget s.tasks i).isNone)
  let i := free.getD (Config.freeNat s.free % max 1 free.length) 0
  let last := tgetD 0 s.gens i
  let g := 1 + Config.freeNat (s.free + 1) % (2 ^ 18 - 1)
  (i, if g = last then (if last = 2 ^ 18 - 1 then 1 else last + 1) else g)

/-- An accepted record as a task (R305): its completion event becomes pending (R306). -/
def State.addTask (s : State) (src : PlanSrc) (b : List Byte) (parent : BitVec 32) (source : Nat) : State × BitVec 32 :=
  let (i, g) := s.pickEntry
  let r := recordOf b
  let plan := (s.planOf src b).nodes
  let blank : PlanSt := { started := false, ended := none, team := none, parked := [] }
  let k : Task :=
    { gen := g, part := src.part, rcd := r, plan := plan, nodes := List.replicate plan.length blank, srcCore := src.core, srcPos := src.pos,
      parent := parent, queue := source, eff := r.prio, passes := 0, waits := r.deps, ended := none, posted := false, joined := false, seq := s.order }
  let ev := match r.event with
    | some e => tset s.events ((s.partAt src.part).event e) 0
    | none => s.events
  ({ s with tasks := tset s.tasks i k, events := ev, order := s.order + 1, free := s.free + 2 }, BitVec.ofNat 32 (g * 2 ^ 14 + i))

/-! ### Readiness (R307) -/

/-- Whether a task has started a leaf, or holds a team. -/
def Task.begun (k : Task) : Bool := k.nodes.any (fun n => n.started)

/-- The state of a dependence event of a task. -/
def State.depAt (s : State) (k : Task) (e : Nat) : Nat := s.eventAt ((s.partAt k.part).event e)

/-- Whether a dependence that a task still awaits is found faulted or killed (R307). -/
def State.depsFailed (s : State) (k : Task) : Bool :=
  !k.rcd.anyway && k.waits.any (fun e => s.depAt k e == endFaulted || s.depAt k e == endKilled)

/-- The dependences that a task still awaits: those pending (R307). Once an event has left that state its setting pending anew does
not count (log 73). -/
def State.awaited (s : State) (k : Task) : List Nat := k.waits.filter (fun e => s.depAt k e == 0)

/-- Whether a task is ready (R307): every dependence has left the pending state. -/
def Task.ready (k : Task) : Bool := k.waits.isEmpty

/-- A task that has not started looks at its dependences (R307): a failed one ends it killed. -/
def State.lookDeps (s : State) (t : Nat) : State :=
  match tget s.tasks t with
  | none => s
  | some k =>
    if k.ended.isSome || k.begun then s
    else if s.depsFailed k then s.killTask t
    else s.modTask t (fun q => { q with waits := s.awaited k })

/-- Every task's dependences looked at (R307). -/
def State.failDeps (s : State) : State := (s.tasks.map Prod.fst).foldl State.lookDeps s

end Sys2Proof.Machine
end

