-- ==== Sys2Proof/Machine/Hub.lean ====
section
/-!
DEFINITION. Hub reads: phases of a barrier (R233, R341) and the spoke tree (R343–R348).
-/

namespace Sys2Proof.Machine

/-- Whether phase q is complete at a barrier whose P is p (R233). -/
def phaseDone (p q : BitVec 16) : Bool := decide ((p - q).toNat ≤ 32767)

/-- One element lane in the tree: a binary32 value or an INT32 value (R344). -/
inductive HubVal where
  | fp (v : XVal)
  | int (n : Int)
  deriving DecidableEq, Repr

/-- A node of the tree: the lowest rank among its members, and its lanes. -/
structure HubNode where
  low   : Nat
  lanes : List HubVal
  deriving DecidableEq, Repr

/-- An INT32 result: wrapped, or saturated (R344). -/
def hubInt (sat : Bool) (n : Int) : Int :=
  if sat then max (-(2 ^ 31)) (min (2 ^ 31 - 1) n) else (BitVec.ofInt 32 n).toInt

/-- A value rounded RNE to binary32 (R344). -/
def round32 (v : XVal) : XVal := binVal fp32 (binRound fp32 0 0 v).1

/-- Two binary32 lanes combined; a NaN keeps the smaller payload, one that arises takes the lowest rank (R345). -/
def hubFp (op low : Nat) : XVal → XVal → XVal
  | .nan a, .nan b => .nan (min a b)
  | .nan a, _ => .nan a
  | _, .nan b => .nan b
  | x, y => match op with
    | 0 => match xAdd x y with
      | .nan _ => .nan low
      | v => round32 v
    | 2 => xMin x y
    | _ => xMax x y

/-- Two lanes combined at an inner node (R344, R345); of INT32 lanes AMAX takes the larger magnitude, which a wrapped −2^31 has. -/
def hubLane (op : Nat) (sat : Bool) (low : Nat) : HubVal → HubVal → HubVal
  | .fp x, .fp y => .fp (hubFp op low x y)
  | .int x, .int y => .int (match op with
    | 0 => hubInt sat (x + y)
    | 2 => min x y
    | 3 => if x.natAbs < y.natAbs then y else x
    | _ => max x y)
  | x, _ => x

/-- An inner node; padding and an absent member pass the other child (R343). -/
def hubJoin (op : Nat) (sat : Bool) : Option HubNode → Option HubNode → Option HubNode
  | none, y => y
  | x, none => x
  | some x, some y =>
    let low := min x.low y.low
    some { low := low, lanes := List.zipWith (hubLane op sat low) x.lanes y.lanes }

/-- One level of the tree; an odd last node stands for a pair with padding. -/
def hubLevel (op : Nat) (sat : Bool) : List (Option HubNode) → List (Option HubNode)
  | x :: y :: t => hubJoin op sat x y :: hubLevel op sat t
  | l => l

/-- The spoke tree over the leaves in rank order (R343): six levels take 64 leaves to one. -/
def hubTree (op : Nat) (sat : Bool) : Nat → List (Option HubNode) → Option HubNode
  | 0, l => (l.head?).getD none
  | n + 1, l => hubTree op sat n (hubLevel op sat l)

/-- A leaf lane: a NaN takes the rank (R345), AMAX takes the magnitude (R344). -/
def hubLeafFp (op rank : Nat) : XVal → HubVal
  | .nan _ => .fp (.nan rank)
  | v => .fp (if op = 3 then xAbs v else v)

/-- The lanes of a member's beat (R344). -/
def hubLeaf (wh : Wheel) (rank : Nat) (beat : Nat) : List HubVal :=
  match atomFmt wh.fmt with
  | some f =>
    (List.range f.perBeat).flatMap (fun i =>
      (atomLanes f 0 (atomVal f (beat / 2 ^ (8 * f.w * i) % 2 ^ (8 * f.w)))).map (hubLeafFp wh.op rank))
  | none =>
    let w := laneWidth wh.fmt
    (List.range (64 / w)).map (fun i =>
      let b := beat / 2 ^ (8 * w * i) % 2 ^ (8 * w)
      if wh.fmt = 0x14 then
        let n := (BitVec.ofNat 32 b).toInt
        .int (if wh.op = 3 then hubInt wh.sat n.natAbs else n)
      else hubLeafFp wh.op rank (storVal wh.fmt (1, 0) b))

/-- The bits of a root lane of a floating or integer wheel (R344, R345). -/
def hubRootLane (fmt : Nat) : HubVal → Nat
  | .int n => (BitVec.ofInt 32 n).toNat
  | .fp v => match binOf fmt with
    | some f => (binRound f 0 0 v).1
    | none => 0

/-- The value of a lane; an integer has none. -/
def hubFpOf : HubVal → XVal
  | .fp v => v
  | .int n => ofDy n 0

/-- The payload of a NaN lane. -/
def nanPayOf : XVal → Option Nat
  | .nan p => some p
  | _ => none

/-- An atom at the root: EncodeSearch with β 0, or the NaN atom of its lowest payload (R344, R345). -/
def hubRootAtom (f : AtomFmt) (lanes : List XVal) : Nat :=
  match lanes.filterMap nanPayOf with
  | [] => (encodeSearch f 0 0 0 lanes).1
  | p :: t => nanAtom f (t.foldl min p)

/-- The result beat of a tree; with every member absent each element is zero (R346). -/
def hubRoot (wh : Wheel) : Option HubNode → Beat
  | none => 0
  | some n => match atomFmt wh.fmt with
    | some f => BitVec.ofNat 512 (packWidth f.w ((chunk f.l n.lanes).map (fun g => hubRootAtom f (g.map hubFpOf))))
    | none => BitVec.ofNat 512 (packWidth (laneWidth wh.fmt) (n.lanes.map (hubRootLane wh.fmt)))

/-- The members of a wheel with their ranks, positions and window bases. -/
def State.hubMembers (s : State) (p : Nat) (wh : Wheel) : List (Nat × Nat × Nat) :=
  let tm := s.teamAt p
  (List.range wh.members.length).zipWith (fun r m => (r, tm.posOf m.1, m.2)) wh.members

/-- One beat of a hub read at a window offset (R343–R347): the beat, or the lowest error code that applies and its aux [13:8]
(R348); the members' beat is read where it lies in the window, though the read as a whole goes past it. -/
def State.hubBeat (s : State) (p : Nat) (wh : Wheel) (o : Nat) (past : Bool) : Except (Nat × Nat) Beat :=
  let ms := s.hubMembers p wh
  let absent := fun m : Nat × Nat × Nat => (s.coreAt m.2.1).failed
  match (if wh.error then ms.find? absent else none) with
  | some m => .error (0x41, m.1)
  | none =>
    let readable := !past || decide (o + 64 ≤ wh.len)
    match ms.find? (fun m => readable && !absent m && s.badIn (scratchKey m.2.1 (m.2.2 + o)) 64) with
    | some m => .error (0x42, m.1)
    | none =>
      if past then .error (0x43, 0)
      else
        .ok (hubRoot wh (hubTree wh.op wh.sat 6 (ms.map (fun m =>
          if absent m then none
          else some { low := m.1, lanes := hubLeaf wh m.1 (s.peekLocalNat m.2.1 (m.2.2 + o) 64) }))))

/-- The wheel of a core's team. -/
def State.wheelAt (s : State) (p w : Nat) : Option Wheel := tget (s.teamAt p).wheels w

/-- The phase P of a wheel's barrier, in the core of rank 0 (R339). -/
def State.wheelPhase (s : State) (p : Nat) (wh : Wheel) : BitVec 16 :=
  match wh.members with
  | [] => 0
  | m :: _ => match (s.ctlAt ((s.teamAt p).posOf m.1)).bars.toList[wh.bar]? with
    | some b => b.p
    | none => 0

/-- The banks of the members' windows made ready for the team's task (R361). -/
def State.hubTouch (s : State) (p : Nat) (wh : Wheel) (o : Nat) : State :=
  (s.hubMembers p wh).foldl (fun z m => z.touch m.2.1 (m.2.2 + o)) s

/-- The banks that a hub LDD reads made ready for the team's task (R361). -/
def State.hubOpen (s : State) (p w o : Nat) : State :=
  match s.wheelAt p w with
  | some wh => s.hubTouch p wh (o / 64 * 64)
  | none => s

/-- The value of a hub LDD (R340, R342): 8 bytes of the reduced beat, or an error code. -/
def State.hubLoad (s : State) (p w o : Nat) : Except Nat (BitVec 64) :=
  match s.wheelAt p w with
  | none => .error 0x40
  | some wh =>
    match s.hubBeat p wh (o / 64 * 64) (decide (wh.len < o + 8)) with
    | .error e => .error e.1
    | .ok b => .ok (b.extractLsb' (o % 64 * 8) 64)

end Sys2Proof.Machine
end

