-- ==== Sys2Proof/Machine/Scalar.lean ====
section
/-!
DEFINITION. Branches and jumps (R217, R218), loads and stores (R219, R220), atomics and fences (R221, R222).
-/

namespace Sys2Proof.Machine

/-- A branch: to its target when the condition holds, else on (R217). -/
def State.branch (s : State) (c : Bool) (off : BitVec 16) : State :=
  if c then s.modMe (fun k => k.goto (branchTarget k.ip off)) else s.retire

/-- BEQ: sa = sb (R217). -/
def execBeq (a b : Reg) (off : BitVec 16) (s : State) : Answer := .next (s.branch (decide (s.reg a = s.reg b)) off)

/-- BNE: sa ≠ sb (R217). -/
def execBne (a b : Reg) (off : BitVec 16) (s : State) : Answer := .next (s.branch (decide (s.reg a ≠ s.reg b)) off)

/-- BLT: s(sa) < s(sb) (R217). -/
def execBlt (a b : Reg) (off : BitVec 16) (s : State) : Answer := .next (s.branch (ltS (s.reg a) (s.reg b)) off)

/-- BGE: s(sa) ≥ s(sb) (R217). -/
def execBge (a b : Reg) (off : BitVec 16) (s : State) : Answer := .next (s.branch (!ltS (s.reg a) (s.reg b)) off)

/-- BLTU: u(sa) < u(sb) (R217). -/
def execBltu (a b : Reg) (off : BitVec 16) (s : State) : Answer := .next (s.branch (ltU (s.reg a) (s.reg b)) off)

/-- BGEU: u(sa) ≥ u(sb) (R217). -/
def execBgeu (a b : Reg) (off : BitVec 16) (s : State) : Answer := .next (s.branch (!ltU (s.reg a) (s.reg b)) off)

/-- JAL: s31 ← ip + 4, then ip ← the target (R218). -/
def execJal (off : BitVec 26) (s : State) : Answer :=
  .next (s.modMe (fun c => (c.put 31 (c.ip + 4)).goto (jumpTarget c.ip off)))

/-- JALR: t ← sa + SExt(imm); a misaligned t traps, as a fetch address, and nothing is written; else sd ← ip + 4 and ip ← t
(R218). -/
def execJalr (d a : Reg) (imm : BitVec 16) (s : State) : Answer :=
  let t := effAddr (s.reg a) imm
  .next (if t.toNat % 4 ≠ 0 then s.trap 2 .fetch 0 t else s.modMe (fun c => (c.put d (c.ip + 4)).goto t))

/-- A loaded value extended to 64 bits (R219). -/
def extendLoad (n : Nat) (signed : Bool) (bytes : List Byte) : BitVec 64 :=
  let v := natOfBytes bytes
  if signed && decide (2 ^ (8 * n - 1) ≤ v) then BitVec.ofNat 64 (v + (2 ^ 64 - 2 ^ (8 * n))) else BitVec.ofNat 64 v

/-- A load of n bytes into a register (R219). -/
def State.loadTo (s : State) (n : Nat) (signed : Bool) (d a : Reg) (imm : BitVec 16) : State :=
  let ad := effAddr (s.reg a) imm
  (s.load ad n n true).after .load ad (fun v z => z.result d (extendLoad n signed v))

/-- A store of the low n bytes of a register (R219). -/
def State.storeFrom (s : State) (n : Nat) (r a : Reg) (imm : BitVec 16) : State :=
  let ad := effAddr (s.reg a) imm
  (s.store ad (bytesOfNat (s.reg r).toNat n)).after .store ad (fun _ z => z.retire)

/-- LDB: 1 byte, sign-extended (R219). -/
def execLdb (d a : Reg) (imm : BitVec 16) (s : State) : Answer := .next (s.loadTo 1 true d a imm)

/-- LDBU: 1 byte, zero-extended (R219). -/
def execLdbu (d a : Reg) (imm : BitVec 16) (s : State) : Answer := .next (s.loadTo 1 false d a imm)

/-- LDH: 2 bytes, sign-extended (R219). -/
def execLdh (d a : Reg) (imm : BitVec 16) (s : State) : Answer := .next (s.loadTo 2 true d a imm)

/-- LDHU: 2 bytes, zero-extended (R219). -/
def execLdhu (d a : Reg) (imm : BitVec 16) (s : State) : Answer := .next (s.loadTo 2 false d a imm)

/-- LDW: 4 bytes, sign-extended (R219). -/
def execLdw (d a : Reg) (imm : BitVec 16) (s : State) : Answer := .next (s.loadTo 4 true d a imm)

/-- LDWU: 4 bytes, zero-extended (R219). -/
def execLdwu (d a : Reg) (imm : BitVec 16) (s : State) : Answer := .next (s.loadTo 4 false d a imm)

/-- LDD: the 8 bytes (R219); of a hub address, the 8 bytes of the reduced beat, its error code an access fault (R210,
R340). -/
def execLdd (d a : Reg) (imm : BitVec 16) (s : State) : Answer :=
  let ad := effAddr (s.reg a) imm
  match spaceOf ad with
  | .hub w o =>
    if ad.toNat % 8 ≠ 0 then .next (s.trap 2 .load 0 ad)
    else
      let z := s.hubOpen s.here w o
      match z.hubLoad s.here w o with
      | .error code => .next (z.trap 3 .load code ad)
      | .ok v => .next (z.result d v)
  | _ => .next (s.loadTo 8 false d a imm)

/-- STB: the low 1 byte of the register (R219). -/
def execStb (r a : Reg) (imm : BitVec 16) (s : State) : Answer := .next (s.storeFrom 1 r a imm)

/-- STH: the low 2 bytes of the register (R219). -/
def execSth (r a : Reg) (imm : BitVec 16) (s : State) : Answer := .next (s.storeFrom 2 r a imm)

/-- STW: the low 4 bytes of the register (R219). -/
def execStw (r a : Reg) (imm : BitVec 16) (s : State) : Answer := .next (s.storeFrom 4 r a imm)

/-- STD: the low 8 bytes of the register (R219). -/
def execStd (r a : Reg) (imm : BitVec 16) (s : State) : Answer := .next (s.storeFrom 8 r a imm)

/-! ### Atomics (R221) -/

/-- An AMO at its width: `narrow` uses the low 32 bits and returns the old word sign-extended; it acquires (R224). -/
def State.amo (s : State) (d a b : Reg) (narrow : Bool) (op : (w : Nat) → BitVec w → BitVec w → BitVec w) : State :=
  let ad := s.reg a
  let w := if narrow then 32 else 64
  let v := BitVec.ofNat w (s.reg b).toNat
  (s.atomic ad (w / 8) (fun old => (op w (BitVec.ofNat w old) v).toNat)).after .amo ad
    (fun old z => (z.acquire).result d ((BitVec.ofNat w old).signExtend 64))

/-- AMOADD: the new value is old + sb (R221). In a machine of whole steps the scope adds nothing (log 9). -/
def execAmoadd (d a b : Reg) (_scope : BitVec 3) (narrow : Bool) (s : State) : Answer :=
  .next (s.amo d a b narrow (fun _ x y => x + y))

/-- AMOSWAP: the new value is sb (R221). In a machine of whole steps the scope adds nothing (log 9). -/
def execAmoswap (d a b : Reg) (_scope : BitVec 3) (narrow : Bool) (s : State) : Answer :=
  .next (s.amo d a b narrow (fun _ _ y => y))

/-- AMOMIN: the new value is the signed minimum (R221). In a machine of whole steps the scope adds nothing (log 9). -/
def execAmomin (d a b : Reg) (_scope : BitVec 3) (narrow : Bool) (s : State) : Answer :=
  .next (s.amo d a b narrow (fun _ x y => minS x y))

/-- AMOMAX: the new value is the signed maximum (R221). In a machine of whole steps the scope adds nothing (log 9). -/
def execAmomax (d a b : Reg) (_scope : BitVec 3) (narrow : Bool) (s : State) : Answer :=
  .next (s.amo d a b narrow (fun _ x y => maxS x y))

/-- AMOMINU: the new value is the unsigned minimum (R221). In a machine of whole steps the scope adds nothing (log 9). -/
def execAmominu (d a b : Reg) (_scope : BitVec 3) (narrow : Bool) (s : State) : Answer :=
  .next (s.amo d a b narrow (fun _ x y => minU x y))

/-- AMOMAXU: the new value is the unsigned maximum (R221). In a machine of whole steps the scope adds nothing (log 9). -/
def execAmomaxu (d a b : Reg) (_scope : BitVec 3) (narrow : Bool) (s : State) : Answer :=
  .next (s.amo d a b narrow (fun _ x y => maxU x y))

/-- AMOAND: the new value is old & sb (R221). In a machine of whole steps the scope adds nothing (log 9). -/
def execAmoand (d a b : Reg) (_scope : BitVec 3) (narrow : Bool) (s : State) : Answer :=
  .next (s.amo d a b narrow (fun _ x y => x &&& y))

/-- AMOOR: the new value is old | sb (R221). In a machine of whole steps the scope adds nothing (log 9). -/
def execAmoor (d a b : Reg) (_scope : BitVec 3) (narrow : Bool) (s : State) : Answer :=
  .next (s.amo d a b narrow (fun _ x y => x ||| y))

/-- AMOXOR: the new value is old ⊕ sb (R221). In a machine of whole steps the scope adds nothing (log 9). -/
def execAmoxor (d a b : Reg) (_scope : BitVec 3) (narrow : Bool) (s : State) : Answer :=
  .next (s.amo d a b narrow (fun _ x y => x ^^^ y))

/-- AMOCAS: the new value is sb if old = sd, else old (R221). In a machine of whole steps the scope adds nothing (log 9). -/
def execAmocas (d a b : Reg) (_scope : BitVec 3) (narrow : Bool) (s : State) : Answer :=
  .next (s.amo d a b narrow (fun w x y => if x = BitVec.ofNat w (s.reg d).toNat then y else x))

/-- FENCE: every earlier access has been performed; it acquires (R222, R224). -/
def execFence (_scope : BitVec 3) (s : State) : Answer := .next (s.acquire).retire

/-- SYNCI: the instruction cache is invalidated (R241). -/
def execSynci (s : State) : Answer := .next (s.modMe (fun c => { c with icache := [] })).retire

end Sys2Proof.Machine
end

