-- ==== Sys2Proof/Machine/Control.lean ====
section
/-!
DEFINITION. Commands sent, outboxes and inboxes, instants, barriers, tasks and traps: R225–R234, R237–R240, and the events of
a controller that waits.
-/

namespace Sys2Proof.Machine

/-! ### Commands (R225–R227) -/

/-- A command register. -/
def Ctl.cmd (c : Ctl) (k : BitVec 3) : BitVec 128 := c.cr[k.toNat]

/-- A command register written. -/
def Ctl.putCmd (c : Ctl) (k : BitVec 3) (v : BitVec 128) : Ctl := { c with cr := c.cr.set k.toNat v }

/-- CMDW: cr[63:0] ← sa, cr[127:64] ← sb (R225). -/
def execCmdw (k : BitVec 3) (a b : Reg) (s : State) : Answer :=
  .next (s.modMe (fun c => (c.putCmd k (c.get b ++ c.get a)).done))

/-- CMDLD: 16 bytes into cr, w0 lowest (R225). Peer space is not among its spaces (R208). -/
def execCmdld (k : BitVec 3) (a : Reg) (imm : BitVec 16) (s : State) : Answer :=
  let ad := effAddr (s.reg a) imm
  .next ((s.load ad 16 16 false).after .load ad
    (fun v z => z.modMe (fun c => (c.putCmd k (BitVec.ofNat 128 (natOfBytes v))).done)))

/-- A command put into the queue of a core's command unit (R244). -/
def State.issue (s : State) (target : Nat) (img : BitVec 128) (viaQ : Bool) : State :=
  let q : QCmd := { seq := s.order, img := img, issuer := s.here, viaQ := viaQ, trb := s.me.trb, fw := s.me.fw }
  ({ s with order := s.order + 1 } : State).modCore target (fun c => { c with unit := c.unit ++ [q] })

/-- Commands that a command unit's queue holds (R226, R244). -/
def unitSize : Nat := 16

/-- CMDI: a copy of cr to the command unit of logical core `target` (R226); waits while that queue is full. -/
def execCmdi (k : BitVec 3) (target : BitVec 12) (s : State) : Answer :=
  let tm := s.teamAt s.here
  if tm.count ≤ target.toNat then .next (s.trap 7 .load 0 (target.zeroExtend 64))
  else
    let q := tm.posOf target.toNat
    if unitSize ≤ (s.coreAt q).unit.length then .next s
    else .next (s.issue q (s.me.cmd k) false).retire

/-- CMDQ: a copy of cr to logical core sa[9:0], then a wait for its effect (R227). -/
def execCmdq (d a : Reg) (k : BitVec 3) (s : State) : Answer :=
  let tm := s.teamAt s.here
  let target := (s.reg a).toNat % 1024
  if tm.count ≤ target then .next (s.trap 7 .load 0 (BitVec.ofNat 64 target))
  else
    let q := tm.posOf target
    if unitSize ≤ (s.coreAt q).unit.length then .next s
    else .next ((s.issue q (s.me.cmd k) true).modMe (fun c => { c with pend := .cmdq d s.order none }))

/-! ### Outboxes and inboxes (R228, R229) -/

/-- The statuses of an outbox. -/
def Ctl.out (c : Ctl) (b : Nat) : List Status := c.outbox.toList.getD b []

/-- An outbox with a status appended. -/
def Ctl.putOut (c : Ctl) (b : Nat) (x : Status) : Ctl :=
  { c with outbox := Vector.ofFn (fun i => if i.val = b then c.outbox[i] ++ [x] else c.outbox[i]) }

/-- Beats that an outbox holds. -/
def outBeats (l : List Status) : Nat := (l.map (fun x => match x with
  | some b => b.beats.length
  | none => 0)).foldl (· + ·) 0

/-- Whether an outbox has room for a status of n beats (R205, R228). -/
def outRoom (l : List Status) (n : Nat) : Bool := decide (l.length < 16) && decide (outBeats l + n ≤ 64)

/-- TSEND: one status to an outbox; its beats are copied from the local scratchpad at sb (R228). -/
def execTsend (a b : Reg) (box : BitVec 3) (s : State) : Answer :=
  let h := (s.reg a).extractLsb' 0 32
  let n := beatsOf h
  let ad := s.reg b
  let send := fun (z : State) (x : Status) =>
    if outRoom (z.me.out box.toNat) n then z.modMe (fun c => (c.putOut box.toNat x).done) else z
  if n = 0 then .next (send s (if hdrKind h = 6 then none else some { hdr := h, beats := [] }))
  else if ad.toNat % 64 ≠ 0 then .next (s.trap 2 .load 0 ad)
  else match spaceOf ad with
    | .localMem off =>
      if 2 ^ 22 < off + 64 * n then .next (s.trap 3 .load 0 ad)
      else if s.badIn (scratchKey s.here off) (64 * n) then .next (s.trap 3 .load 0x10 ad)
      else
        let z := s.touchSpan s.here off (64 * n)
        .next (send z (some { hdr := h, beats := z.peekBeats s.here off n }))
    | _ => .next (s.trap 3 .load 0 ad)

/-- An inbox with its oldest entry removed. -/
def Ctl.popBox (c : Ctl) (b : Nat) : Ctl :=
  { c with inbox := Vector.ofFn (fun i => if i.val = b then c.inbox[i].drop 1 else c.inbox[i]) }

/-- TRECV completed: the entry removed, its beats written, sd written; it acquires (R224, R229). -/
def State.receive (s : State) (d : Reg) (b : Nat) (e : InEntry) : State :=
  s.modMe (fun c => { (c.popBox b).result d e.sd with dcache := [] })

/-- TRECV: waits for an entry of an inbox, then takes the oldest (R229); a beat with an uncorrectable error that it reads raises
an access fault, and the entry stays (R210). -/
def execTrecv (d a : Reg) (box : BitVec 3) (s : State) : Answer :=
  match s.me.box box.toNat with
  | [] => .next s
  | e :: _ =>
    if a = 0 ∨ e.beats = [] then .next (s.receive d box.toNat e)
    else
      let ad := s.reg a
      if ad.toNat % 64 ≠ 0 then .next (s.trap 2 .store 0 ad)
      else match spaceOf ad with
        | .localMem off =>
          if 2 ^ 22 < off + 64 * e.beats.length then .next (s.trap 3 .store 0 ad)
          else if e.bad then .next (s.trap 3 .load 0x10 ad)
          else .next ((s.pokeLocal s.here off (e.beats.flatMap bytesOfBeat)).receive d box.toNat e)
        | _ => .next (s.trap 3 .store 0 ad)

/-! ### Instants (R231) -/

/-- The region of the team of a core. -/
def State.regionAt (s : State) (p : Nat) : Option Region :=
  match (s.coreAt p).team with
  | some _ => tget s.regions (s.teamAt p).region
  | none => none

/-- A domain of the region of a core's team, if it is configured. -/
def State.domAt (s : State) (p k : Nat) : Option Dom :=
  match s.regionAt p with
  | some r => if r.configured then r.doms[k]? else none
  | none => none

/-- IWAIT: waits until the counter reaches sa[47:0], or the domain is done, stopped or not configured (R231). -/
def execIwait (d a : Reg) (dom : BitVec 2) (s : State) : Answer :=
  let want := (s.reg a).toNat % 2 ^ 48
  let (ctr, ended) := match s.domAt s.here dom.toNat with
    | some x => (x.ctr % 2 ^ 48, x.done || x.stopped)
    | none => (0, true)
  if want ≤ ctr then .next ((s.acquire).result d (BitVec.ofNat 64 ctr))
  else if ended then .next ((s.acquire).result d (BitVec.ofNat 64 (2 ^ 63 + ctr)))
  else .next s

/-! ### Barriers (R232, R233) -/

/-- A controller's barrier. -/
def Ctl.bar (c : Ctl) (k : Nat) : Barrier := c.bars.toList.getD k { n := 0, a := 0, p := 0 }

/-- A controller's barrier replaced. -/
def Ctl.putBar (c : Ctl) (k : Nat) (b : Barrier) : Ctl :=
  { c with bars := Vector.ofFn (fun i => if i.val = k then b else c.bars[i]) }

/-- One arrival counted (R233): A rises; when it reaches N the round completes. -/
def Barrier.arrive (b : Barrier) : Barrier :=
  if b.a + 1 = b.n then { b with p := b.p + 1, a := 0 } else { b with a := b.a + 1 }

/-- The core that a barrier instruction names, if it is in the team (R232). -/
def State.barHome (s : State) (a : Reg) : Option Nat :=
  let l := (s.reg a).toNat % 1024
  if l < (s.teamAt s.here).count then some ((s.teamAt s.here).posOf l) else none

/-- The access fault of a core id beyond the team (R232). -/
def State.barFault (s : State) (a : Reg) : State := s.trap 3 .load 0 (BitVec.ofNat 64 ((s.reg a).toNat % 1024))

/-- BARI: the own core's barrier k restarts with N from sa[15:0], or the team's core count (R232). -/
def execBari (a : Reg) (k : BitVec 4) (s : State) : Answer :=
  let v := (s.reg a).extractLsb' 0 16
  let n := if v = 0 then BitVec.ofNat 16 (s.teamAt s.here).count else v
  .next (s.modMe (fun c => (c.putBar k.toNat { n := n, a := 0, p := 0 }).done))

/-- An arrival sent to a barrier of a core (R233). -/
def State.sendArrival (s : State) (home k : Nat) (wait : Bool) : State :=
  { s with arrivals := s.arrivals ++ [{ src := s.here, home := home, k := k, wait := wait, seq := s.order }], order := s.order + 1 }

/-- BARA: one arrival sent to barrier k of core sa[9:0] (R232). -/
def execBara (a : Reg) (k : BitVec 4) (s : State) : Answer :=
  match s.barHome a with
  | none => .next (s.barFault a)
  | some home => .next (s.sendArrival home k.toNat false).retire

/-- BARW: waits for the round that collects while P = sa[31:16], then sd ← P (R232). -/
def execBarw (d a : Reg) (k : BitVec 4) (s : State) : Answer :=
  match s.barHome a with
  | none => .next (s.barFault a)
  | some home =>
    let p := ((s.ctlAt home).bar k.toNat).p
    let round := (s.reg a).extractLsb' 16 16
    if phaseDone p (round + 1) then .next ((s.acquire).result d (p.zeroExtend 64)) else .next s

/-- BARAW: as BARA, then waits for the round in which its arrival counts (R232). -/
def execBaraw (d a : Reg) (k : BitVec 4) (s : State) : Answer :=
  match s.barHome a with
  | none => .next (s.barFault a)
  | some home =>
    .next ((s.sendArrival home k.toNat true).modMe (fun c => { c with pend := .baraw d ((s.reg a).toNat % 1024) k.toNat s.order none }))

/-! ### Tasks (R234) -/

/-- SIG: one arrival sent to a barrier of a task's core, then a wait for the outcome (R234). -/
def execSig (d a b : Reg) (s : State) : Answer :=
  let g : Signal := { src := s.here, part := s.partOf s.here, handle := (s.reg a).extractLsb' 0 32, sb := s.reg b, seq := s.order }
  .next (({ s with signals := s.signals ++ [g], order := s.order + 1 } : State).modMe (fun c => { c with pend := .sig d s.order none }))

/-- The spawning core as the source of a record's local addresses (R304). -/
def State.spawnSrc (s : State) : PlanSrc :=
  { part := s.partOf s.here, core := some (((s.coreAt s.here).team).getD (2 ^ 32), s.lid s.here), pos := s.here }

/-- A record handed to the dispatcher: refused with a reason, or accepted (R305). -/
def State.spawn (s : State) (d : Reg) (b : List Byte) : State :=
  let src := s.spawnSrc
  let h := s.handleAt s.here
  let why := s.refusal src b (s.children h)
  if why ≠ 0 then s.result d (BitVec.ofNat 64 (2 ^ 63 + why))
  else
    let (s', child) := s.addTask src b h (2048 + (s.teamAt s.here).task)
    (s'.result d (child.zeroExtend 64)).failDeps

/-- SPAWN: the 64-byte record at sa handed to the dispatcher; sd gets the handle or the refusal (R234). -/
def execSpawn (d a : Reg) (s : State) : Answer :=
  let ad := s.reg a
  .next ((s.load ad 64 64 false).after .load ad (fun v z => z.spawn d v))

/-- JOIN: waits until an unjoined child has ended; sd gets its status and fault code, 3 for a handle that is none; it acquires
(R224, R234, R319). -/
def execJoin (d a : Reg) (s : State) : Answer :=
  let h := (s.reg a).extractLsb' 0 32
  match s.taskOf h with
  | none => .next ((s.acquire).result d 3)
  | some t => match tget s.tasks t with
    | none => .next ((s.acquire).result d 3)
    | some k =>
      if k.srcCore.isNone || k.parent != s.handleAt s.here || k.joined then .next ((s.acquire).result d 3)
      else match k.ended with
        | none => .next s
        | some e =>
          let code := if e.st = endFaulted then e.code.toNat else 0
          .next ((((s.modTask t (fun x => { x with joined := true })).acquire).result d
            (BitVec.ofNat 64 (e.st - 1 + code * 2 ^ 32))).sweep)

/-! ### Traps and the watchdog (R237, R238) -/

/-- TRAP: cause 6, TRAPVAL the code; code 0 ends the task in the leader and halts any other controller (R237). -/
def execTrap (code : BitVec 12) (s : State) : Answer := .next (s.trap 6 .load 0 (code.zeroExtend 64))

/-- BRK: cause 5, TRAPVAL the code (R237). -/
def execBrk (code : BitVec 12) (s : State) : Answer := .next (s.trap 5 .load 0 (code.zeroExtend 64))

/-- The word of TRET. -/
def tretWord : BitVec 32 := 0x3A#6 ++ 0#26

/-- TRET: legal only in firmware mode (R237). -/
def execTret (s : State) : Answer :=
  .next (if s.me.fw then s.modMe (fun c => { c.trapReturn with instret := c.instret + 1 }) else s.illegal tretWord)

/-- YIELD: completes; with a pre-emption of the team pending the controller stops after it (R240). -/
def execYield (s : State) : Answer :=
  .next (s.modMe (fun c => if c.preempt && !c.fw then c.done.stopAt s.steps else c.done))

/-- ILLEGAL_INSTRUCTION: a word that is no instruction traps; TRAPVAL holds it (R213). -/
def execIllegalInstruction (word : BitVec 32) (s : State) : Answer := .next (s.illegal word)

/-- INSTRUCTION_FETCH_FAULT: the fetch at ip traps with kind fetch, TRAPIP and TRAPVAL both ip (R208, R218); an
uncorrectable word has code 0x10 (R356). -/
def execInstructionFetchFault (translation : Bool) (s : State) : Answer :=
  let ip := s.me.ip
  let err := match (s.fetchKey ip).1 with
    | .key k => if s.badIn k 4 then 0x10 else 0
    | .line pa _ _ => if s.badIn pa 4 then 0x10 else 0
    | _ => 0
  .next (s.trap (if translation then 4 else 3) .fetch (if translation then 0 else err) ip)

/-- WATCHDOG: a controller that completes nothing within its limit traps with cause 8 (R238). An instruction that has acted
keeps its wait; one that waits on a host answer counts too. Nothing happens while WDOG is 0 or no instruction waits. -/
def execWatchdog (core : Nat) (s : State) : Answer :=
  let c := s.ctlAt core
  if c.wdog = 0 then .next s
  else match c.run with
    | .running =>
      let acted := c.pend ≠ .none
      let keep := fun (x : Ctl) => { x with kept := (if acted then [x.pend] else []) ++ x.kept, pend := .none }
      .next ((s.modCtl core keep).trapAt core 8 .load 0 c.ip acted)
    | .service | .pageWait =>
      let entered := s.modCtl core (fun x => ({ x with ip := x.trapIp }).trapEntry (trapWord 8 .load 0 false) x.trapIp)
      .next (entered.firmware core 8 c.trapIp)
    | _ => .next s

/-- The controller that waits in firmware goes on at the trapped instruction or the next (R237, R350). -/
def Ctl.resumeFrom (c : Ctl) (skip : Bool) : Ctl :=
  let c' := if skip then { c with trapIp := c.trapIp + 4 } else c
  { c'.trapReturn with run := .running, dcache := [] }

/-- HOST_SERVICE_ANSWER: the host's answer to a service call; s1 gets it and the controller goes on past the TRAP or BRK
(R237, R350); its resume acquires (R337). -/
def execHostServiceAnswer (core : Nat) (answer : BitVec 64) (s : State) : Answer :=
  match (s.ctlAt core).run with
  | .service =>
    .next ({ s.modCtl core (fun c => (c.resumeFrom true).put 1 answer) with calls := s.calls.filter (fun x => x.1 != core) })
  | _ => .next s

/-- The table entries that system software writes before it answers. -/
def State.mapPages (s : State) : List (Nat × BitVec 64) → State
  | [] => s
  | (a, v) :: t => (s.poke a (bytesOfNat v.toNat 8)).mapPages t

/-- SYSTEM_SOFTWARE_PAGE_ANSWER: the page is mapped, the partition's TLB entries are invalidated and the instruction is
executed again; or the software refuses, and the task ends as for cause 3 (R350). -/
def execSystemSoftwarePageAnswer (core : Nat) (answer : Option (List (Nat × BitVec 64))) (s : State) : Answer :=
  match (s.ctlAt core).run with
  | .pageWait =>
    let s1 := { s with pageAsks := s.pageAsks.filter (fun x => x.1 != core) }
    match answer with
    | some writes => .next (((s1.mapPages writes).tlbInvalidate (s.partOf core)).modCtl core (fun c => c.resumeFrom false))
    | none => .next (s1.endLeaf core { st := endFaulted, code := faultWord 0x83 (s.lid core) 0 })
  | _ => .next s

/-! ### Waits that resolve (R238, R239) -/

/-- The controller's pending wait, if what it waits for has come (R227, R234, R232). -/
def State.pendTurn (s : State) : State :=
  match s.me.pend with
  | .none => s
  | .cmdq d _ (some v) => s.modMe (fun c => { c.result d v with pend := .none })
  | .sig d _ (some v) => s.modMe (fun c => { c.result d v with pend := .none })
  | .baraw d home k _ (some q) =>
    let p := ((s.ctlAt ((s.teamAt s.here).posOf home)).bar k).p
    if phaseDone p (q + 1) then
      (s.acquire).modMe (fun c => { c.result d (p.zeroExtend 64) with pend := .none })
    else s
  | _ => s

/-- The answer of the command or signal issued as number `seq`, put into the wait that expects it (R238). -/
def Pend.answer (seq : Nat) (v : BitVec 64) : Pend → Pend
  | .cmdq d q Option.none => .cmdq d q (if q = seq then some v else Option.none)
  | .sig d q Option.none => .sig d q (if q = seq then some v else Option.none)
  | p => p

/-- The round in which the arrival issued as number `seq` counted, put into the wait of its BARAW. -/
def Pend.counted (seq : Nat) (r : BitVec 16) : Pend → Pend
  | .baraw d h k q Option.none => .baraw d h k q (if q = seq then some r else Option.none)
  | p => p

/-- A controller's waits changed, the pending one and those that traps keep (R238). -/
def Ctl.onWaits (c : Ctl) (f : Pend → Pend) : Ctl := { c with pend := f c.pend, kept := c.kept.map f }

/-- A controller given the answer of a command or signal. -/
def Ctl.answer (c : Ctl) (seq : Nat) (v : BitVec 64) : Ctl := c.onWaits (Pend.answer seq v)

end Sys2Proof.Machine
end

