-- ==== Sys2Proof/Machine/MemPorts.lean ====
section
/-!
DEFINITION. What memory nodes share (R177–R188, R331): patterns, indices, keys of operand-store banks, order within a tile,
reads and writes of the scratchpad, completion tokens.
-/

namespace Sys2Proof.Machine

/-! ### Patterns (R180) -/

/-- Bytes of an element of a port (R180): a PRED element is a whole beat. -/
def portWidth (fmt : Nat) : Nat := laneWidth fmt

/-- A four-level pattern: base, counts and byte strides, level 0 innermost (R180). -/
structure Pattern where
  base : Nat
  cnt  : List Nat
  str  : List Int
  deriving DecidableEq, Repr

/-- The elements of a pattern. -/
def Pattern.total (q : Pattern) : Nat := q.cnt.foldl (· * ·) 1

/-- The loop indices of element k; the outermost has no bound, so that the end of a pattern has indices too. -/
def indicesOf : List Nat → Nat → List Nat
  | [], _ => []
  | [_], k => [k]
  | c :: t, k => k % max 1 c :: indicesOf t (k / max 1 c)

/-- The element at loop indices. -/
def elementOf : List Nat → List Nat → Nat
  | c :: t, i :: u => i + c * elementOf t u
  | _, _ => 0

/-- The address of element k (R180). -/
def Pattern.at (q : Pattern) (k : Nat) : Nat :=
  ((q.base : Int) + (List.zipWith (fun (i : Nat) (s : Int) => (i : Int) * s) (indicesOf q.cnt k) q.str).foldl (· + ·) 0).toNat

/-- The extremes of a pattern: first byte, and the byte after the last (R181). -/
def Pattern.span (q : Pattern) (w : Nat) : Int × Int :=
  let ends := List.zipWith (fun (c : Nat) (s : Int) => ((c : Int) - 1) * s) q.cnt q.str
  ((q.base : Int) + (ends.map (min 0)).foldl (· + ·) 0, (q.base : Int) + (ends.map (max 0)).foldl (· + ·) 0 + w)

/-- A signed 24-bit stride (R167). -/
def stride24 (v : BitVec 32) : Int := (v.extractLsb' 0 24).toInt

/-- The pattern that a port walks: its registers 5–11, or for MGLD and MGST its binding (R167, R185). -/
def Node.pattern (n : Node) : Pattern :=
  if n.op = 0x86 ∨ n.op = 0x87 then match n.bind with
    | some r => { base := r.base.toNat, cnt := r.ext, str := r.str }
    | none => { base := 0, cnt := [], str := [] }
  else
    { base := (n.reg 5).toNat % 2 ^ 22,
      cnt := [((n.reg 6).extractLsb' 0 16).toNat + 1, ((n.reg 6).extractLsb' 16 16).toNat + 1,
              ((n.reg 7).extractLsb' 0 16).toNat + 1, ((n.reg 7).extractLsb' 16 16).toNat + 1],
      str := [stride24 (n.reg 8), stride24 (n.reg 9), stride24 (n.reg 10), stride24 (n.reg 11)] }

/-- The next element of a port by its loop indices (R167). -/
def Node.pos (n : Node) : Nat := elementOf n.pattern.cnt ((List.range 4).map (fun l => (n.reg (12 + l)).toNat))

/-- The loop indices written. -/
def Node.setIndices (n : Node) : Nat → List Nat → Node
  | _, [] => n
  | l, i :: t => (n.setReg (12 + l) (BitVec.ofNat 32 i)).setIndices (l + 1) t

/-- The loop indices set to those of an element. -/
def Node.setPos (n : Node) (k : Nat) : Node := n.setIndices 0 (indicesOf n.pattern.cnt k)

/-- Whether a port is bound (R167). -/
def Node.bound (n : Node) : Bool := n.reg 17 == 1

/-- β that a port's binding gives to burst j (R183, R269): the tensor exponent, or 0 under a state block. -/
def Node.texp (n : Node) : Int :=
  match n.bind with
  | some r => r.texp
  | none => 0

/-- Bytes of the exponent plane of a pattern walked in bursts of `beats` beats: one for each (R269). -/
def Pattern.planeLen (q : Pattern) (w beats : Nat) : Nat := (q.total * w + 64 * beats - 1) / (64 * beats)

/-- The exponent-plane byte of burst j of a binding of MRD or MWR, if it has one (R269): its local offset. The plane has a byte for each
burst of the block length, and R181 lets a port reach no other: a burst beyond them, which bursts shorter than the block length leave, has
none (the model's choice, log 94). -/
def Node.planeAt (n : Node) (j : Nat) : Option Nat :=
  match n.bind with
  | some r =>
    if r.blockMode = 1 ∧ j < n.pattern.planeLen (portWidth n.rcd.fmt.toNat) (blenOf n.rcd) then some (r.plane.toNat % 2 ^ 22 + j) else none
  | none => none

/-! ### Order within a tile (R331) -/

/-- The tile of a memory node (R61). -/
def memTile (id : Nat) : Nat := (id - 64) / 4

/-- Local-space offset at which a memory mode's region begins (R66, R208). -/
def MemMode.start (m : MemMode) : Nat := m.tile * 2 ^ 20 + m.base

/-- The region of a mode that a node owns (R177). -/
def Cfg.regionOf (g : Cfg) (mode id : Nat) : Option MemMode := g.modes.find? (fun m => m.mode == mode && m.owner == id)

/-- Whether a node is a memory node that accesses its tile (R332). -/
def onTile (id op : Nat) : Bool := decide (64 ≤ id ∧ id < 80) && !(op == 0x85 || op == 0x86 || op == 0x87)

/-- Elements of one burst of a port. -/
def perBurst (r : NodeRec) : Nat := blenOf r * 64 / portWidth r.fmt.toNat

/-- The offsets of a port's next k elements (R180). -/
def Node.walk (n : Node) (k : Nat) : List Nat := (List.range k).map (fun j => n.pattern.at (n.pos + j))

/-- Bytes of a tile: an interval of local offsets, the end not in it. -/
abbrev Span := Int × Int

/-- The bytes of elements of w bytes at offsets. -/
def spansOf (w : Nat) (offs : List Nat) : List Span := offs.map (fun (o : Nat) => (Int.ofNat o, Int.ofNat (o + w)))

/-- Whether two sets of intervals meet. -/
def meets (x y : List Span) : Bool := x.any (fun a => y.any (fun b => decide (a.1 < b.2) && decide (b.1 < a.2)))

/-- The longest burst that the channel of a node's input A delivers, in beats (R408). -/
def Cfg.beatsA (g : Cfg) (n : Node) : Nat := ((tget g.chans (inputEp n.rcd 0)).map (fun c => entBeats c.ent)).getD 0

/-- The bytes of its tile that a memory node may still access in `k` instants from the one it is in, as it is bound: the next elements
and exponent-plane bytes of MRD and MWR, which takes at most its channel's burst length in an instant, the whole extent of an indexed port,
the region of a FIFO or a line buffer. -/
def Node.mayReach (g : Cfg) (id : Nat) (n : Node) (k : Nat) : List Span :=
  let w := portWidth n.rcd.fmt.toNat
  let next := fun (most : Nat) =>
    spansOf w (n.walk (min (most * k) (n.pattern.total - n.pos))) ++
      spansOf 1 ((List.range k).flatMap (fun j => (n.planeAt (n.burst + j)).toList))
  let region := fun (mode : Nat) => match g.regionOf mode id with
    | some m => [(Int.ofNat m.start, Int.ofNat (m.start + m.len))]
    | none => []
  match n.op with
  | 0x80 => if n.bound then next (perBurst n.rcd) else []
  | 0x81 => if n.bound then next (g.beatsA n * 64 / w) else []
  | 0x82 | 0x83 | 0x84 => if n.bound then [n.pattern.span w] else []
  | 0x88 => region 2
  | 0x89 => region 3
  | _ => []

/-- The other memory nodes of a node's tile and domain, whose accesses are ordered with its own (R331). -/
def Cfg.mates (g : Cfg) (id : Nat) (n : Node) : List (Nat × Node) :=
  g.nodes.filter (fun x => x.1 != id && onTile x.1 x.2.op && memTile x.1 == memTile id && x.2.dom == n.dom)

/-- Instants that one node must have finished before another with an id does its accesses of instant t (R331). -/
def mustFinish (mate id t : Nat) : Nat := if mate < id then t + 1 else t

/-- Whether it is a memory node's turn to access bytes of its tile (R331): of the nodes of its tile and domain, those at lower ports
have finished the instant and those at higher ports the one before, or may access none of these bytes until then. -/
def State.tileTurn (s : State) (p id : Nat) (n : Node) (mine : List Span) : Bool :=
  match (s.coreAt p).cfg with
  | none => true
  | some g => (g.mates id n).all (fun x => !meets mine (x.2.mayReach g x.1 (mustFinish x.1 id n.inst - x.2.inst)))

/-- The bytes that a memory node's bindings let it access: as it is bound, and as it was bound in an instant from t on, while others
of its tile lagged (R331). -/
def Cfg.reached (g : Cfg) (id : Nat) (n : Node) (t : Nat) : List Span :=
  (if n.reg 17 = 0 then [] else [n.pattern.span (portWidth n.rcd.fmt.toNat)]) ++
    (g.past.filter (fun e => e.1 == id && decide (t < e.2.1))).map (fun e => e.2.2)

/-- Whether a binding of a memory node to a pattern keeps the order of R331: no node of its tile and domain that is ahead of it has
accessed bytes of the pattern in an instant, or at a port, whose turn comes after the binding's first (log 49); a burst that a node has
performed in part counts. -/
def Cfg.bindClear (g : Cfg) (id : Nat) (n : Node) (q : Pattern) : Bool :=
  !onTile id n.op || (g.mates id n).all (fun x =>
    let from_ := mustFinish x.1 id n.inst
    decide (x.2.inst < from_ ∨ x.2.inst = from_ ∧ x.2.prog = 0) || !meets [q.span (portWidth n.rcd.fmt.toNat)] (g.reached x.1 x.2 from_))

/-- A binding that a memory node gives up, kept while nodes of its tile lag behind it. -/
def Cfg.retire (g : Cfg) (id : Nat) (n : Node) : Cfg :=
  let mates := (g.mates id n).map (fun x => x.2.inst)
  let past := (if n.reg 17 = 0 then [] else [(id, n.inst, n.pattern.span (portWidth n.rcd.fmt.toNat))]) ++ g.past
  { g with past := past.filter (fun e => e.1 != id || mates.any (fun t => decide (t ≤ e.2.1))) }

/-! ### Keys of operand-store banks (R179, R312) -/

/-- The bank, 16·tile + bank, of a local offset. -/
def bankOf (o : Nat) : Nat := o / bankBytes

/-- Whether a bank lies in an operand-store region (R177, R179). -/
def Cfg.keyed (g : Cfg) (bank : Nat) : Bool :=
  g.modes.any (fun m => m.mode == 1 && decide (m.start ≤ bank * bankBytes) && decide (bank * bankBytes < m.start + m.len))

/-- The holder of a bank's key; 0xFF for none (R66, R179). -/
def Cfg.holder (g : Cfg) (bank : Nat) : Nat := tgetD 0xFF g.keys bank

/-- Whether a node holds the keys of all operand-store banks among some (R179). -/
def State.keysHeld (s : State) (p id : Nat) (banks : List Nat) : Bool :=
  match (s.coreAt p).cfg with
  | none => true
  | some g => banks.all (fun b => !g.keyed b || g.holder b == id)

/-- An entry of a PIPE's hand-over table (R312): logical core, bank, receiver. -/
structure HandEntry where
  core : Nat
  bank : Nat
  recv : Nat
  deriving DecidableEq, Repr

/-- The fields of a hand-over entry (R312). -/
def handEntry (e : BitVec 64) : HandEntry :=
  { core := bitsOf e.toNat 9 0, bank := 16 * bitsOf e.toNat 13 12 + bitsOf e.toNat 19 16, recv := bitsOf e.toNat 31 24 }

/-- The hand-over entries whose banks lie in a leaf, if it is a child of a PIPE after the first: the table's entries stand in
child order, an equal share for each child (log 17). -/
def Task.handInto (k : Task) (leaf : Nat) : List HandEntry :=
  match k.parentOf leaf with
  | none => []
  | some j => match k.plan[j]? with
    | none => []
    | some n =>
      if n.kind ≠ 2 then []
      else
        let at_ := n.kids.idxOf leaf
        let share := (n.hand.length + n.kids.length - 2) / max 1 (n.kids.length - 1)
        if at_ = 0 then [] else ((n.hand.drop ((at_ - 1) * share)).take share).map handEntry

/-- The hand-over entries that name banks of a core (R312). -/
def State.listedAt (s : State) (p : Nat) : List HandEntry :=
  match (s.coreAt p).team with
  | none => []
  | some _ =>
    let tm := s.teamAt p
    match tget s.tasks tm.task with
    | none => []
    | some k => (k.handInto tm.leaf).filter (fun e => e.core == tm.lidOf p)

/-- Keys handed over at the end of an instant (R179): every accessed operand-store bank to the receiver of k1[7:0]; a bank
that a PIPE lists becomes unheld (R312). -/
def State.handOver (s : State) (p id : Nat) (n : Node) (level : Nat) : State × Node :=
  let at_ := (n.rcd.k1.extractLsb' 8 3).toNat
  if at_ = 0 ∨ level < at_ then (s, n)
  else
    let listed := (s.listedAt p).map HandEntry.bank
    let dest := (n.rcd.k1.extractLsb' 0 8).toNat
    let give := fun (g : Cfg) => { g with keys := n.handed.foldl (fun t b =>
      if g.keyed b && g.holder b == id then tset t b (if listed.contains b then 0xFF else dest) else t) g.keys }
    (s.modCfg p give, { n with handed := [] })

/-- Banks added to those a node has accessed since it last handed over (R179). -/
def Node.used (n : Node) (banks : List Nat) : Node :=
  { n with handed := banks.foldl (fun l b => if l.contains b then l else l ++ [b]) n.handed }

/-! ### Scratchpad accesses -/

/-- Banks that elements at offsets touch. -/
def banksOf (offs : List Nat) : List Nat := (offs.map bankOf).eraseDups

/-- The banks of offsets made ready for the core's task (R361). -/
def State.touchAll (s : State) (p : Nat) (offs : List Nat) : State :=
  (banksOf offs).foldl (fun z b => z.touch p (b * bankBytes)) s

/-- The first element with a byte in an uncorrectable word (R405). -/
def State.badElem (s : State) (p w : Nat) (offs : List Nat) : Option Nat := offs.find? (fun o => s.badIn (scratchKey p o) w)

/-- The first offset of a burst's elements, or of its exponent byte, that lies in an uncorrectable word (R183, R269, R405). -/
def State.badRead (s : State) (p w : Nat) (offs : List Nat) (plane : Option Nat) : Option Nat :=
  match s.badElem p w offs with
  | some o => some o
  | none => plane.filter (fun o => s.badIn (scratchKey p o) 1)

/-- Elements read in order, as bytes. -/
def State.readElems (s : State) (p w : Nat) (offs : List Nat) : List Byte := offs.flatMap (fun o => s.peekLocal p o w)

/-- Uncorrectable words whose 8 bytes all lie in written ranges are cured (R405). -/
def State.cure (s : State) (ranges : List (Nat × Nat)) : State :=
  { s with bad := s.bad.filter (fun w =>
      !(List.range 8).all (fun i => ranges.any (fun r => decide (r.1 ≤ w + i) && decide (w + i < r.1 + r.2)))) }

/-- Elements written in order, cut from bytes; words they cover together are cured. -/
def State.writeElems (s : State) (p w : Nat) (offs : List Nat) (bytes : List Byte) : State :=
  let z := (List.zip offs (chunk w bytes)).foldl (fun z x => { z with mem := writeBytes z.mem (scratchKey p x.1) x.2 }) s
  z.cure (offs.map (fun o => (scratchKey p o, w)))

/-- Beats of a length from bytes, the rest zero. -/
def beatsOfBytes (n : Nat) (bytes : List Byte) : List Beat :=
  let full := bytes ++ List.replicate (64 * n - bytes.length) 0
  (chunk 64 full).map beatOfBytes

/-- Bytes of a burst. -/
def bytesOfBurst (b : Burst) : List Byte := b.beats.flatMap bytesOfBeat

/-- A completion token (R187). -/
def doneToken (count level : Nat) : Burst := dataBurst level 0 [indexBeat [count] 0]

/-- ECNT raised and ELAST set (R184). -/
def Node.noteError (n : Node) (h : BitVec 32) : Node := (n.setReg 3 (n.reg 3 + 1)).setReg 4 h

end Sys2Proof.Machine
end

