-- ==== Sys2Proof/Machine/LoadRules.lean ====
section
/-!
DEFINITION. What the loader accepts of one node record (R49–R60, R69): slots, formats, variants, policies, constants, outputs,
the registers a state block may set, and the formats of a node's inputs and outputs (R59).
-/

namespace Sys2Proof.Machine

/-! ### The rows of the opcode map (R60, R80, R143, R168, R367–R373) -/

/-- What a row of the node tables says: accepted FMT, slots, defined VAR bits, ABS and BSM values, whether X and Y may be
connected, and how many registers a state block may set. -/
structure OpRow where
  fmt  : Nat → Bool
  lo   : Nat
  hi   : Nat
  var  : Nat
  abs  : List Nat
  bsm  : List Nat
  x    : Bool
  y    : Bool
  regs : Nat

/-- Formats of the element ports: A, S, I or P (R60). -/
def isPort (f : Nat) : Bool := isAtom f || isStorage f || f == 0x20 || f == 0x21

/-- A or S except INT8 (R60, R168). -/
def isDrain (f : Nat) : Bool := isAtom f || (isStorage f && f != 0x13)

/-- The wheel formats (R261). -/
def isWheelFmt (f : Nat) : Bool := isAtom f || f == 0x10 || f == 0x11 || f == 0x12 || f == 0x14

/-- A row of compute slots with X alone. -/
def rowC (fmt : Nat → Bool) (var : Nat) (abs bsm : List Nat) (regs : Nat) : OpRow :=
  { fmt := fmt, lo := 0, hi := 63, var := var, abs := abs, bsm := bsm, x := true, y := false, regs := regs }

/-- A row of endpoint slots. -/
def rowE (fmt : Nat → Bool) (var : Nat) (abs : List Nat) (x y : Bool) (regs : Nat) : OpRow :=
  { fmt := fmt, lo := 80, hi := 95, var := var, abs := abs, bsm := [0], x := x, y := y, regs := regs }

/-- A row of memory slots. -/
def rowM (fmt : Nat → Bool) (abs : List Nat) (y : Bool) (regs : Nat) : OpRow :=
  { fmt := fmt, lo := 64, hi := 79, var := 0, abs := abs, bsm := [0], x := true, y := y, regs := regs }

/-- A row with Y. -/
def OpRow.withY (r : OpRow) : OpRow := { r with y := true }

/-- BSM codes of a node of FMT `f` that carries bursts (R53): 0 where no output carries atoms; of an atom FMT also pass and fixed,
since R143 names the nodes that require BSM 0 and these are not among them. Which codes they accept, and that the code leaves a carried
header's β as it is, is the model's choice (log 82). -/
def carryBsm (f : Nat) : List Nat := if isAtom f then [0, 1, 3] else [0]

/-- The row of an opcode, as its record selects it; none where the opcode is unassigned (R60). -/
def opRow (op : Nat) (r : NodeRec) : Option OpRow :=
  let v := r.var.toNat
  let none0 := fun f : Nat => f == 0
  let index := fun f : Nat => f == 0x21
  let pred := fun f : Nat => f == 0x20
  let all := [0, 1, 2, 3]
  let carried := carryBsm r.fmt.toNat
  match op with
  | 0x00 => some (rowC isAny 0 [0] carried 3).withY
  | 0x01 => some { rowE isAny 0 [0] true false 3 with bsm := carried }
  | 0x02 => some (rowE isAny 0 [0] false false 3)
  | 0x03 => some (rowE none0 0 [0] false false 4)
  | 0x04 => some (rowE none0 0 [0] false false 5)
  | 0x10 | 0x11 | 0x12 | 0x13 | 0x14 | 0x15 | 0x16 => some (rowC isAtom 1 all [0, 1, 3] 3)
  | 0x20 | 0x21 | 0x22 | 0x23 | 0x24 | 0x25 | 0x26 | 0x28 | 0x29 | 0x2A | 0x2B | 0x2C | 0x2D | 0x2E =>
    some (rowC isAtom 0 [0] [0, 1, 3] 3).withY
  | 0x30 => some (rowC isAtom (if v % 2 = 1 then 3 else 0) (if v % 2 = 1 then [0, 2, 3] else [0]) [0] 3)
  | 0x31 => some (rowC isAtom 0 [0] [0] 3)
  | 0x32 => some (rowC isAtom 0 [0, 2, 3] [0, 3] 3)
  | 0x33 | 0x34 => some (rowC isAtom 0 [0] [0] 3).withY
  | 0x35 => some (rowC (fun f => isAtom f || isStorage f) 0 [0] [0] 3).withY
  | 0x40 => some (rowC isAtom 7 [0] (if v / 4 % 2 = 1 then [0] else [0, 3]) 3).withY
  | 0x41 => some (rowC isAtom 6 [0, 2] (if v / 4 % 2 = 1 then [0] else [0, 3]) 3).withY
  | 0x42 => some (rowC isDrain 7 (if v % 2 = 1 then all else [0]) (if isAtom r.fmt.toNat then [0, 3] else [0]) 5)
  | 0x43 => some (rowC isAny 0 [0] [0] 3)
  | 0x44 => some (rowC (fun f => isAtom f || isStorage f) 0 [0, 2] [2] 3)
  | 0x50 => some (rowC isAtom 0 [0] [0, 1, 3] 3).withY
  | 0x51 => some (rowC isStorage 0 [0] [0] 3).withY
  | 0x60 => some (rowC isAny 0 all carried 3).withY
  | 0x61 => some (rowC isAny 0 [0, 2] carried 3)
  | 0x62 => some (rowC isAny 1 [0] [0] 3)
  | 0x63 => some (rowC isAny 1 all carried 3)
  | 0x64 => some (rowC isAny 0 [0] [0] 4)
  | 0x65 => some (rowC index 0 [0] [0] 13)
  | 0x66 | 0x67 => some (rowC index 0 [0] [0] 8).withY
  | 0x68 => some (rowC pred 0 [0] [0] 3)
  | 0x69 => some (rowC isAny 1 [0] (if v % 2 = 1 && isAtom r.fmt.toNat then [0, 3] else [0]) 3)
  | 0x6A => some (rowC isAny 0 [0] [0] 3)
  | 0x6B => some (rowC isAny 1 all carried 3)
  | 0x6C => some (rowC isAny 1 (if v % 2 = 1 then [0] else [0, 2, 3]) (if v % 2 = 1 then [0] else carried) 3)
  | 0x6D => some (rowC isAny 0 [0] carried 3)
  | 0x70 | 0x71 | 0x72 => some (rowC index 7 (if v / 2 % 2 = 1 then [0] else all) [0] 3)
  | 0x73 | 0x74 | 0x75 => some (rowC index 3 (if v / 2 % 2 = 1 then [0] else all) [0] 3)
  | 0x76 | 0x77 => some (rowC index 0 [0] [0] 3)
  | 0x78 => some (rowC pred 3 (if v / 2 % 2 = 1 then [0] else all) [0] 3)
  | 0x80 => some (rowM isPort [0] true 18)
  | 0x81 => some (rowM isPort [0] false 18)
  | 0x82 => some (rowM isPort [0] true 18)
  | 0x83 => some (rowM isPort [0, 2] false 18)
  | 0x84 => some (rowM isDrain [0, 2] false 18)
  | 0x85 => some (rowM isWheelFmt [0] false 3)
  | 0x86 => some (rowM isPort [0] true 5)
  | 0x87 => some (rowM isPort [0] false 5)
  | 0x88 => some (rowM isAny [0] false 3)
  | 0x89 => some (rowM isDrain [0] false 3)
  | 0x90 => some (rowE isAny 1 (if v % 2 = 1 then [0, 2] else [0]) false false 3)
  | 0x91 => some { rowE isAny 1 [0] true true 3 with bsm := carried }
  | 0x92 => some (rowC isAtom 3 (if v = 0 then [0] else [0, 2]) [0] 3).withY
  | 0x93 => some (rowC isAtom 3 [0, 2] [0] 3)
  | 0x94 => some (rowC index 0 [0, 2] [0] 3).withY
  | _ => none

/-- Which of A, B and C are synchronised (R80, R143, R168, R367–R373). -/
def syncInputs (op : Nat) (r : NodeRec) : List Nat :=
  let v := r.var.toNat
  let k0 := r.k0.toNat
  match op with
  | 0x10 | 0x11 | 0x12 | 0x13 | 0x14 | 0x32 | 0x44 | 0x93 => [0, 1]
  | 0x15 | 0x16 | 0x61 => [0, 1, 2]
  | 0x30 => if v % 2 = 1 then [0, 1] else [0]
  | 0x41 | 0x60 | 0x63 | 0x6B | 0x83 | 0x84 => [0, 2]
  | 0x42 => if v % 2 = 1 then [0, 1] else [0]
  | 0x6C => if v % 2 = 1 then [] else (List.range 3).filter (fun i => k0 / 2 ^ i % 2 == 1)
  | 0x70 | 0x71 | 0x72 | 0x73 | 0x74 | 0x75 | 0x78 => if v / 2 % 2 = 1 then [0] else [0, 1]
  | 0x90 => if v % 2 = 1 then [0, 1] else []
  | 0x92 => [0] ++ (if v % 2 = 1 then [1] else []) ++ (if v / 2 % 2 = 1 then [2] else [])
  | 0x94 => (List.range 3).filter (fun i => k0 / 2 ^ i % 2 == 1)
  | _ => []

/-! ### Constants (R56, R80, R143, R168) -/

/-- Whether an operation is one whose k3:k2 holds a seed under RND 2 (R37, R80, R168). -/
def seeds (op : Nat) : Bool := (decide (0x10 ≤ op) && decide (op ≤ 0x51)) || (decide (0x80 ≤ op) && decide (op ≤ 0x89))

/-- Defined bits of k0 and k1. -/
def maskK01 (op : Nat) (r : NodeRec) : Nat × Nat :=
  let full := 2 ^ 32 - 1
  let v := r.var.toNat
  let imm := if v / 2 % 2 = 1 then full else 0
  match op with
  | 0x01 | 0x02 => (7, 0)
  | 0x03 => (full, 0x7FF)
  | 0x04 => (0x1F, 0)
  | 0x23 => (full, 0)
  | 0x24 => (0xFF, 0)
  | 0x25 => (full, full)
  | 0x26 | 0x30 | 0x33 | 0x34 => (0x3F, 0)
  | 0x31 => (0x3F, 0x3F)
  | 0x32 => (0xFFFF, 7)
  | 0x35 | 0x44 | 0x50 | 0x51 => (0x3F, full)
  | 0x40 => (if v % 2 = 1 then 0 else 0xFFFF, 7)
  | 0x41 => (0xFFFFFF, 0x707FF)
  | 0x42 => (if v / 2 % 2 = 1 then full else 0, (if v / 2 % 2 = 1 then 0xFFFFFF else 0) + (if v / 4 % 2 = 1 then 0xFF000000 else 0))
  | 0x64 => (7, 0)
  | 0x65 => (full, full)
  | 0x69 => if v % 2 = 1 then (full, full) else (0, 0)
  | 0x6C => (7, 0)
  | 0x6D => (full, 0)
  | 0x70 | 0x71 | 0x72 => (imm, 0)
  | 0x73 => (imm, 0xF)
  | 0x74 => (imm, 3)
  | 0x75 => (imm, 7)
  | 0x77 => (0, 0x3F)
  | 0x78 => (if v / 2 % 2 = 1 then 1 else 0, 0xF)
  | 0x80 | 0x81 => (0, 0x7FF)
  | 0x82 | 0x83 => (0xFF, 0x7FF)
  | 0x84 => (0x7FF, 0x7FF)
  | 0x85 => (0xF, 0)
  | 0x90 => (0x7F, 0)
  | 0x91 => (0x7F, 0xFFFF)
  | 0x92 => (full, full)
  | 0x93 => (full, 0)
  | 0x94 => (7, 0)
  | _ => (0, 0)

/-- Whether an operation is one whose k3 holds the fixed β under BSM 3 (R53): a node that makes atoms; of the nodes of chapter 07,
where k3 is zero elsewhere, DFLT.F alone (R143). -/
def fixesBeta (op : Nat) : Bool := seeds op || op == 0x69

/-- Defined bits of k2 and k3: a seed, CNT's count M, the fixed β of BSM 3, or none. -/
def maskK23 (op : Nat) (r : NodeRec) : Nat × Nat :=
  let full := 2 ^ 32 - 1
  if op = 0x77 ∨ op = 0x92 ∨ (r.rnd = 2 ∧ seeds op = true) then (full, full)
  else if op = 0x65 then (full, 0)
  else if r.bsm = 3 ∧ fixesBeta op = true then (0, 0x3F)
  else (0, 0)

/-- Whether a word has only bits of a mask. -/
def within (v : BitVec 32) (mask : Nat) : Bool := v &&& BitVec.ofNat 32 mask == v

/-- Whether every constant has only defined bits. -/
def constsOk (op : Nat) (r : NodeRec) : Bool :=
  let a := maskK01 op r
  let b := maskK23 op r
  within r.k0 a.1 && within r.k1 a.2 && within r.k2 b.1 && within r.k3 b.2

/-- A finite binary32. -/
def finite32 (b : BitVec 32) : Bool := xFinite (binVal fp32 b.toNat)

/-- A finite, positive binary32. -/
def positive32 (b : BitVec 32) : Bool := finite32 b && xLt xzero (binVal fp32 b.toNat)

/-- The INT8 scale in k1: finite and positive where INT8 is scaled, zero elsewhere (R88). -/
def scaleOk (fmt : Nat) (k : BitVec 32) : Bool := if fmt = 0x13 then positive32 k else k == 0

/-- The format field k0[5:0]. -/
def k0Fmt (r : NodeRec) : Nat := (r.k0.extractLsb' 0 6).toNat

/-- Whether a format code in a constant field is accepted: status 0x07 otherwise (R80, R154, R176). -/
def constFmtOk (op : Nat) (r : NodeRec) : Bool :=
  let f := k0Fmt r
  match op with
  | 0x26 | 0x35 | 0x51 => isAtom f
  | 0x50 => isStorage f
  | 0x30 | 0x31 | 0x33 | 0x34 => f == 0x10 || f == 0x22
  | 0x44 => (isAtom f || isStorage f) && (isAtom r.fmt.toNat || f == r.fmt.toNat)
  | 0x6C => r.var.toNat % 2 == 0 || r.fmt == 0x20
  | _ => true

/-- Bits that are set in the three input bits of a mask. -/
def maskCount (k : BitVec 32) : Nat := ((List.range 3).filter (fun i => k.getLsbD i)).length

/-- The fill element of DFLT.F: canonical, and no wider than an element (R155). An atom of gain 0 whose index is not 0, which R30 decodes
as a zero and not as a non-canonical atom, is accepted (the model's choice, log 89). -/
def fillOk (r : NodeRec) : Bool :=
  let fmt := r.fmt.toNat
  let v := r.k1.toNat * 2 ^ 32 + r.k0.toNat
  let bits := if fmt = 0x20 then 1 else 8 * laneWidth fmt
  decide (v < 2 ^ bits) && (match atomFmt fmt with
    | some f => !atomBad (atomVal f v)
    | none => true)

/-- Lanes of an output beat: of atoms, or 4 under `.L`. -/
def outLanes (r : NodeRec) (la : Bool) : Nat :=
  if la then 4
  else match atomFmt r.fmt.toNat with
    | some f => f.perBeat * f.l
    | none => 4

/-- Whether a memory node's hand-over field names a receiver only at a level above 0 (R168). -/
def handFieldOk (r : NodeRec) : Bool := r.k1.extractLsb' 8 3 != 0 || r.k1.extractLsb' 0 8 == 0

/-- Token fields f and c − 1 of an indexed port (R104). -/
def tokensOk (r : NodeRec) : Bool := decide ((r.k0.extractLsb' 0 4).toNat + (r.k0.extractLsb' 4 4).toNat + 1 ≤ 16)

/-- The limits that the tables and the node descriptions set on fields and constants: status 0x08 otherwise. That ISECT's BLEN must be
1 is such a limit (R103); UNION's, whose length rules are those of its run (R162, R141), is tested there (the model's choice, log 91). -/
def valuesOk (op : Nat) (r : NodeRec) : Bool :=
  let v := r.var.toNat
  let one := r.blen == 1
  let rnd0 := r.rnd == 0
  match op with
  | 0x02 => decide (r.k0.toNat < 6)
  | 0x03 =>
    let n := r.k1.toNat
    r.k0.toNat % 64 == 0 && decide (1 ≤ n ∧ n ≤ 1024) && 2 ^ n.log2 == n && decide (0x3E0000 ≤ r.k0.toNat) &&
    decide (r.k0.toNat + 64 * n ≤ 0x400000)
  | 0x23 => finite32 r.k0
  | 0x24 => match atomFmt r.fmt.toNat with
    | some f => f.l != 4 || decide (r.k0.toNat < 16)
    | none => true
  | 0x25 => finite32 r.k0 && finite32 r.k1 && xLe (binVal fp32 r.k0.toNat) (binVal fp32 r.k1.toNat)
  | 0x32 => (r.k0 != 0 || r.k1 != 0) && (match atomFmt r.fmt.toNat with
    | some f => blenOf r == 512 / f.perBeat
    | none => true)
  | 0x35 => one && scaleOk r.fmt.toNat r.k1
  | 0x44 | 0x50 => scaleOk (k0Fmt r) r.k1
  | 0x51 => scaleOk r.fmt.toNat r.k1
  | 0x40 =>
    let lvl := (r.k1.extractLsb' 0 3).toNat
    (if v % 2 = 1 then decide (2 ≤ lvl) else r.k0 != 0 || lvl != 0) && decide (blenOf r * outLanes r (v / 4 % 2 == 1) ≤ 1024)
  | 0x41 =>
    let rho := (r.k0.extractLsb' 0 16).toNat
    let rows := (r.k1.extractLsb' 0 11).toNat
    let out := outLanes r (v / 4 % 2 == 1)
    let l := match atomFmt r.fmt.toNat with
      | some f => f.l
      | none => 1
    rho != 0 && rho % l == 0 && decide (1 ≤ rows ∧ rows ≤ 1024) && decide (rows * rho ≤ 64 * out) &&
    rows * rho == blenOf r * out && (r.k1.extractLsb' 16 3) != 0 &&
    decide ((r.k0.extractLsb' 16 4).toNat + (r.k0.extractLsb' 20 4).toNat + 1 ≤ 16)
  | 0x42 => v / 2 % 2 == 0 || positive32 r.k0
  | 0x62 | 0x64 | 0x65 | 0x67 | 0x68 | 0x6A => rnd0
  | 0x66 => rnd0 && one
  | 0x69 => rnd0 && (v % 2 == 0 || fillOk r)
  | 0x6C => if v % 2 = 1 then rnd0 else r.k0.getLsbD 0 && decide (2 ≤ maskCount r.k0)
  | 0x6D => (List.range 8).all (fun l =>
      let o := (r.k0.extractLsb' (4 * l) 4).toNat
      if l = 5 ∨ l = 6 then o == 0 else decide (o ≤ 4) || o == 7)
  | 0x75 => decide (r.k1.toNat ≤ 5)
  | 0x77 => rnd0 && decide (1 ≤ r.k1.toNat ∧ r.k1.toNat ≤ 32)
  | 0x80 | 0x81 => handFieldOk r
  | 0x82 | 0x83 => handFieldOk r && tokensOk r
  | 0x84 => handFieldOk r && tokensOk r && r.k0.extractLsb' 8 2 != 3
  | 0x92 => r.rnd == 2
  | 0x93 => rnd0
  | 0x94 => one && decide (2 ≤ maskCount r.k0)
  | _ => true

/-- Whether the delay bits are allowed: only on used inputs, on none that ABS 3 keeps (R122), and not on PRE's A (R157). That the
bit of an unused input is a field value, 0x08, and no reserved bit, is the model's choice (log 77). -/
def delaysOk (op : Nat) (r : NodeRec) : Bool :=
  (List.range 3).all (fun i => !inputDelayed r i || (inputUsed op r i && op != 0x6A && (r.abs != 3 || !(syncInputs op r).contains i)))

/-- Whether a record passes the checks of status 0x08 that concern it alone (R69). A connected OUTX or OUTY that the node does not have,
for which R143 and R168 name no code, is among them (the model's choice, log 84). -/
def fieldsOk (op id doms : Nat) (row : OpRow) (r : NodeRec) : Bool :=
  decide (row.lo ≤ id ∧ id ≤ row.hi) && (r.var.toNat &&& row.var) == r.var.toNat && decide (r.dom.toNat < doms) &&
  row.abs.contains r.abs.toNat && row.bsm.contains r.bsm.toNat && !(r.rnd == 2 && r.bsm == 3) && constsOk op r && valuesOk op r &&
  delaysOk op r && (row.x || r.outX == 0xFFF) && (row.y || r.outY == 0xFFF)

/-- Whether the reserved bits of a record are zero: status 0x05 otherwise (R54, R55, R57). -/
def reservedOk (r : NodeRec) : Bool := r.rsv1 == 0 && r.rsv7 == 0 && (r.aft || r.aftSrc == 0)

/-! ### Formats of inputs and outputs (R59) -/

/-- The format an operation accepts on an input; none for any. -/
def inFmt (op : Nat) (r : NodeRec) (i : Nat) : Option Nat :=
  let f := r.fmt.toNat
  let v := r.var.toNat
  match i with
  | 0 => match op with
    | 0x03 | 0x04 | 0x65 | 0x68 => none
    | 0x26 | 0x44 | 0x50 | 0x51 => some (k0Fmt r)
    | 0x40 | 0x41 => some (if v / 2 % 2 = 1 then f else 0x22)
    | 0x42 | 0x92 => some 0x22
    | 0x6C => if v % 2 = 1 then none else some f
    | 0x82 | 0x85 => some 0x21
    | _ => some f
  | 1 => match op with
    | 0x64 | 0x68 | 0x69 | 0x6C => none
    | 0x65 | 0x90 | 0x92 => some 0x21
    | 0x44 => some 0x10
    | _ => some f
  | 2 => match op with
    | 0x15 | 0x60 | 0x61 | 0x63 | 0x6B => some 0x20
    | 0x16 => some f
    | 0x41 | 0x83 | 0x84 | 0x92 | 0x94 => some 0x21
    | _ => none
  | _ => some 0x21

/-- The format an operation emits on X or Y. -/
def outFmt (op : Nat) (r : NodeRec) (y : Bool) : Nat :=
  let f := r.fmt.toNat
  let v := r.var.toNat
  if y then match op with
    | 0x40 | 0x41 | 0x66 | 0x67 | 0x80 | 0x82 | 0x86 | 0x91 | 0x92 | 0x94 => 0x21
    | 0x33 | 0x34 => k0Fmt r
    | 0x35 => 0x10
    | _ => f
  else match op with
    | 0x30 | 0x31 | 0x33 | 0x34 => k0Fmt r
    | 0x35 => 0x10
    | 0x40 | 0x41 => if v / 4 % 2 = 1 then 0x22 else f
    | 0x68 | 0x75 | 0x78 => 0x20
    | 0x81 | 0x83 | 0x84 | 0x87 => 0x21
    | 0x93 => 0x22
    | _ => f

/-- Whether a format code of a channel entry is assigned (R58). -/
def chanFmtOk (f : Nat) : Bool := isAny f || f == 0x22

/-- Whether an operation is constructive (R120, R156). -/
def constructive (op : Nat) (r : NodeRec) : Bool := op == 0x62 || op == 0x68 || op == 0x69 || (op == 0x6C && r.var.toNat % 2 == 1)

/-! ### Regions of memory tiles (R177, R178, R181) -/

/-- Whether a mode record is within its limits (R66, R177); the overlaps are checked beside it. A FIFO or a line buffer over
control memory, which no memory node reaches (R178), is outside its tile's limits too (log 70). -/
def modeOk (ids : List Nat) (m : MemMode) : Bool :=
  let inTile := decide (64 ≤ m.owner ∧ m.owner < 80) && memTile m.owner == m.tile && ids.contains m.owner
  let any := m.owner == 0xFF || inTile
  (decide (m.mode < 2) || decide (m.start + m.len ≤ 0x3E0000)) &&
  m.base % 64 == 0 && decide (0 < m.len) && m.len % 64 == 0 && decide (m.base + m.len ≤ 2 ^ 20) &&
  (match m.mode with
   | 0 => any && m.param == 0
   | 1 => any && m.param == 0 && m.base % bankBytes == 0 && m.len % (m.bufs * bankBytes) == 0
   | 2 => inTile && m.param == 0
   | _ =>
     let w := (m.param.extractLsb' 0 16).toNat
     inTile && m.param.extractLsb' 19 1 == 0 && m.param.extractLsb' 23 9 == 0 && decide (1 ≤ w ∧ w ≤ 4096) &&
     decide ((m.param.extractLsb' 20 3).toNat + 1 ≤ w))

/-- Whether the bytes from lo to hi may be reached by a memory node: within one region of its tile that it may access, and
clear of control memory (R178, R181). -/
def spanOk (modes : List MemMode) (id : Nat) (lo hi : Int) : Bool :=
  let t := memTile id
  let inside := decide ((t * 2 ^ 20 : Nat) ≤ lo) && decide (hi ≤ ((t + 1) * 2 ^ 20 : Nat)) && decide (hi ≤ 0x3E0000)
  inside && (match modes.find? (fun m => m.tile == t && decide ((m.start : Int) < hi) && decide (lo < ((m.start + m.len : Nat) : Int))) with
    | none => true
    | some m => (m.owner == id || m.owner == 0xFF) && decide ((m.start : Int) ≤ lo) && decide (hi ≤ ((m.start + m.len : Nat) : Int)))

end Sys2Proof.Machine
end

