-- ==== Sys2Proof/Machine/Layout.lean ====
section
/-!
DEFINITION. Tensor layout records (R267, R268) and the layout engine (R271–R274): a copy's views, its program, the stream of
source elements that its LXEMITs give.
-/

namespace Sys2Proof.Machine

/-! ### Tensor layout records (R267) -/

/-- A signed 64-bit field. -/
def signed64 (v : Nat) : Int := (BitVec.ofNat 64 v).toInt

/-- Whether the fields of a record are within their limits (R267). -/
def recBytesOk (b : List Byte) : Bool :=
  let f := fun o n => fieldOf b o n
  let base := BitVec.ofNat 64 (f 0 8)
  let fmt := f 8 1
  let rank := f 9 1
  let mode := f 0x0C 1
  let texp := (BitVec.ofNat 8 (f 0x18 1)).toInt
  let axes := List.range 8
  (match spaceOf base with
    | .global _ => true
    | .localMem _ => true
    | .peer _ _ => true
    | _ => false) &&
  isAny fmt && base.toNat % portWidth fmt == 0 && decide (1 ≤ rank ∧ rank ≤ 8) && decide (f 0x0A 1 < rank) &&
  (isAtom fmt || f 0x0A 1 == 0) && decide (f 0x0B 1 < 2) && decide (mode < 2) &&
  (if mode = 1 then decide (1 ≤ f 0x0D 1 ∧ f 0x0D 1 ≤ 64) else f 0x0D 1 == 0 && zeroAt b 0x10 8) && zeroAt b 0x0E 2 &&
  decide (-32 ≤ texp ∧ texp ≤ 31) && zeroAt b 0x19 7 &&
  axes.all (fun a =>
    let e := f (0x20 + 4 * a) 4
    let o := f (0x80 + 4 * a) 4
    if a < rank then decide (1 ≤ e) && decide (o < e) else e == 0 && o == 0 && zeroAt b (0x40 + 8 * a) 8) &&
  f 0xB0 8 / 2 ^ 22 % 2 ^ 10 == 0 && decide (f 0xB0 8 / 2 ^ 32 < 2) && zeroAt b 0xB8 72

/-- The fields of a record (R267). -/
def recFields (b : List Byte) : TRec :=
  let rank := fieldOf b 9 1
  { base := BitVec.ofNat 64 (fieldOf b 0 8), fmt := fieldOf b 8 1, rank := rank, axis := fieldOf b 0x0A 1,
    readOnly := fieldOf b 0x0B 1 == 1, blockMode := fieldOf b 0x0C 1, blockLen := fieldOf b 0x0D 1,
    plane := BitVec.ofNat 64 (fieldOf b 0x10 8), texp := (BitVec.ofNat 8 (fieldOf b 0x18 1)).toInt,
    ext := (List.range rank).map (fun a => fieldOf b (0x20 + 4 * a) 4),
    str := (List.range rank).map (fun a => signed64 (fieldOf b (0x40 + 8 * a) 8)),
    org := (List.range rank).map (fun a => fieldOf b (0x80 + 4 * a) 4),
    prog := fieldOf b 0xB0 4 % 2 ^ 22, comp := fieldOf b 0xB0 8 / 2 ^ 32 }

/-- A record of a core's scratchpad (R245): none where it is malformed, cannot be read or lies beyond the scratchpad. -/
def State.readRec (s : State) (p : Nat) (trb : BitVec 64) (n : Nat) : Option TRec :=
  let o := recOffset trb n
  if 2 ^ 22 < o + 256 ∨ s.badIn (scratchKey p o) 256 then none
  else
    let b := s.peekLocal p o 256
    if recBytesOk b then some (recFields b) else none

/-- Axis counts of a record's window: extent less origin (R249, R271). -/
def TRec.window (r : TRec) : List Nat := List.zipWith (· - ·) r.ext r.org

/-- Byte offset of a window's first element from the record base. -/
def TRec.start (r : TRec) : Int := (List.zipWith (fun (o : Nat) (t : Int) => (o : Int) * t) r.org r.str).foldl (· + ·) 0

/-- Lanes that an element of a format counts as (R268). -/
def lanesPer (fmt : Nat) : Nat :=
  match atomFmt fmt with
  | some f => f.l
  | none => 1

/-- Elements of a window. -/
def TRec.size (r : TRec) : Nat := r.window.foldl (· * ·) 1

/-- Elements of a window as copies count them (R268). -/
def TRec.count (r : TRec) : Nat := r.size * lanesPer r.fmt

/-! ### Indices -/

/-- The number of an index, axis 0 fastest. -/
def rankIndex : List Nat → List Nat → Nat
  | n :: ns, i :: is => i + n * rankIndex ns is
  | _, _ => 0

/-- The index with a number, axis 0 fastest. -/
def unrankIndex : List Nat → Nat → List Nat
  | [], _ => []
  | n :: ns, k => k % max 1 n :: unrankIndex ns (k / max 1 n)

/-- Extents with one axis taken L times as long: the storage view of atoms (R268). -/
def widen (l ax : Nat) (ext : List Nat) : List Nat := lmod ext ax (· * l)

/-- Byte offset of an index. -/
def strideSum (idx : List Nat) (str : List Int) : Int :=
  (List.zipWith (fun (i : Nat) (t : Int) => (i : Int) * t) idx str).foldl (· + ·) 0

/-- Byte offset from the record base of element k of a record's window. -/
def TRec.offsetOf (r : TRec) (k : Nat) : Int := r.start + strideSum (unrankIndex r.window k) r.str

/-- The reach of axes: the least and the largest byte offset. -/
def reachOf (axes : List (Nat × Int)) : Int × Int :=
  axes.foldl (fun z a => (z.1 + min 0 (((a.1 : Int) - 1) * a.2), z.2 + max 0 (((a.1 : Int) - 1) * a.2))) (0, 0)

/-- Whether a byte offset is one of the sums of axes, each a count and a stride. -/
def isElement : List (Nat × Int) → Int → Bool
  | [], x => x == 0
  | (n, st) :: rest, x =>
    let r := reachOf rest
    if st = 0 then isElement rest x
    else
      -- indices i with r.1 ≤ x − i·st ≤ r.2
      let a := x - r.2
      let b := x - r.1
      let t : Int := st.natAbs
      let lo := if 0 < st then -((-a) / t) else -(b / t)
      let hi := if 0 < st then b / t else (-a) / t
      let lo' := (max 0 lo).toNat
      let cnt := (min ((n : Int) - 1) hi + 1 - (lo' : Int)).toNat
      (List.range cnt).any (fun i => isElement rest (x - ((lo' + i : Nat) : Int) * st))

/-- Axes by falling length of their strides, so that few indices of each come into question. -/
def insertAxis (a : Nat × Int) : List (Nat × Int) → List (Nat × Int)
  | [] => [a]
  | b :: t => if b.2.natAbs < a.2.natAbs then a :: b :: t else b :: insertAxis a t

/-- The axes of a record, longest stride first. -/
def TRec.axes (r : TRec) : List (Nat × Int) := (List.zip r.ext r.str).foldr insertAxis []

/-! ### Views (R271) -/

/-- A view: each axis with its extent, stride (in bytes, like the base) and pads; the swizzle; the conversion's rounding mode
and INT8 scale; the axis along which atoms lie. -/
structure View where
  ext   : List Nat
  str   : List Int
  lo    : List Nat
  hi    : List Nat
  base  : Int
  mask  : Nat
  sh    : Nat
  mode  : Nat
  scale : BitVec 32
  ax    : Nat
  deriving DecidableEq, Repr

/-- The view at the start of a program (R271). -/
def TRec.view (r : TRec) : View :=
  { ext := r.window, str := r.str, lo := List.replicate r.rank 0, hi := List.replicate r.rank 0, base := r.start, mask := 0,
    sh := 0, mode := 0, scale := 0x3F800000, ax := r.axis }

/-- Extents of a view with its pads. -/
def View.full (v : View) : List Nat :=
  List.zipWith (· + ·) (List.zipWith (· + ·) v.lo v.ext) v.hi

/-- Elements that an LXEMIT of a view streams. -/
def View.size (v : View) : Nat := v.full.foldl (· * ·) 1

/-- What a view index reads: a byte offset from the record base, or a pad (R271). -/
def View.at (v : View) (idx : List Nat) : Option Int :=
  let inside := (List.zipWith (fun (i : Nat) (x : Nat × Nat) => decide (x.1 ≤ i) && decide (i < x.1 + x.2)) idx (List.zip v.lo v.ext)).all id
  if inside then some (v.base + strideSum (List.zipWith (· - ·) idx v.lo) v.str) else none

/-- Element k of a view. -/
def View.elem (v : View) (k : Nat) : Option Int := v.at (unrankIndex v.full k)

/-- Lane k of a view's storage view, for atoms of L lanes: the element's place and the lane in it (R268). -/
def View.lane (v : View) (l k : Nat) : Option Int × Nat :=
  let idx := unrankIndex (widen l v.ax v.full) k
  let x := idx.getD v.ax 0
  (v.at (lmod idx v.ax (fun _ => x / max 1 l)), x % max 1 l)

/-! ### Instructions (R272) -/

/-- A program under way: its view, the emits so far (the last first) with the elements of each, lanes emitted. -/
structure LxRun where
  view  : View
  emits : List (View × Nat)
  count : Nat
  ctrs  : List Nat
  deriving DecidableEq, Repr

/-- Bits hi … lo of an instruction. -/
def lxBits (i : BitVec 64) (hi lo : Nat) : Nat := bitsOf i.toNat hi lo

/-- A list with an entry put in at a place. -/
def insertAt {α : Type} (l : List α) (k : Nat) (x : α) : List α := l.take k ++ x :: l.drop k

/-- LXPERM's new order of a list. -/
def permute {α : Type} (d : α) (f : List Nat) (l : List α) : List α := f.map (fun i => l.getD i d)

/-- What an instruction does to the view (R272): none where an operand is out of its range or an unnamed bit is set (check
code 1). Flow, LXEMIT and LXEND are handled beside it. -/
def View.exec (v : View) (w : Nat) (i : BitVec 64) : Option View :=
  let rank := v.ext.length
  let a := lxBits i 57 55
  let inAxis := decide (a < rank)
  let pads := v.lo.getD a 0 == 0 && v.hi.getD a 0 == 0
  match lxBits i 63 58 with
  | 0x01 =>
    let e := lxBits i 31 0
    if inAxis && lxBits i 54 32 == 0 && decide (1 ≤ e) then some { v with ext := lmod v.ext a (fun _ => e) } else none
  | 0x02 =>
    let t : Int := (i.extractLsb' 0 40).toInt * w
    if inAxis && lxBits i 54 40 == 0 then some { v with str := lmod v.str a (fun _ => t) } else none
  | 0x03 =>
    let f := (List.range 8).map (fun k => lxBits i (3 * k + 2) (3 * k))
    let own := f.take rank
    let ok := lxBits i 57 24 == 0 && (List.range rank).all (fun k => own.contains k) &&
      (List.range 8).all (fun k => decide (k < rank) || f.getD k 0 == k)
    if ok then
      some { v with
        ext := permute 1 own v.ext, str := permute 0 own v.str, lo := permute 0 own v.lo, hi := permute 0 own v.hi,
        ax := own.idxOf v.ax }
    else none
  | 0x04 =>
    let t := lxBits i 31 0
    let e := v.ext.getD a 1
    if inAxis && lxBits i 54 32 == 0 && pads && decide (rank < 8) && decide (1 ≤ t) && e % max 1 t == 0 then
      some { v with
        ext := insertAt (lmod v.ext a (fun _ => t)) (a + 1) (e / t),
        str := insertAt v.str (a + 1) ((t : Int) * v.str.getD a 0), lo := insertAt v.lo (a + 1) 0,
        hi := insertAt v.hi (a + 1) 0, ax := if a < v.ax then v.ax + 1 else v.ax }
    else none
  | 0x05 =>
    if inAxis && lxBits i 54 48 == 0 then
      some { v with lo := lmod v.lo a (· + lxBits i 47 24), hi := lmod v.hi a (· + lxBits i 23 0) }
    else none
  | 0x06 =>
    let l := lxBits i 47 24
    let h := lxBits i 23 0
    if inAxis && lxBits i 54 48 == 0 && pads && decide (l + h < v.ext.getD a 0) then
      some { v with base := v.base + (l : Int) * v.str.getD a 0, ext := lmod v.ext a (fun e => e - l - h) }
    else none
  | 0x07 =>
    let rnd := lxBits i 47 46
    if lxBits i 57 48 == 0 && lxBits i 45 32 == 0 && rnd != 2 && positive32 (i.extractLsb' 0 32) then
      some { v with mode := rnd, scale := i.extractLsb' 0 32 }
    else none
  | 0x08 =>
    let sh := lxBits i 37 32
    let m := lxBits i 31 0
    if lxBits i 57 38 == 0 && decide (1 ≤ sh ∧ sh ≤ 31) && decide (m < 2 ^ sh) then some { v with mask := m, sh := sh } else none
  | 0x09 =>
    let n := lxBits i 31 0
    if decide (a ≤ rank) && lxBits i 54 32 == 0 && decide (1 ≤ n) && decide (rank < 8) then
      some { v with
        ext := insertAt v.ext a n, str := insertAt v.str a 0, lo := insertAt v.lo a 0, hi := insertAt v.hi a 0,
        ax := if a ≤ v.ax then v.ax + 1 else v.ax }
    else none
  | _ => none

/-! ### Running a program (R273, R274) -/

/-- How a program ends: what it emits, or the check code and the index of the instruction that fails, with what was emitted
before it. -/
structure LxEnd where
  emits : List (View × Nat)
  code  : Nat
  at_   : Nat
  count : Nat
  deriving DecidableEq, Repr

/-- The two records of a copy with what of them the checks need. -/
structure LxPair where
  src : TRec
  dst : TRec
  deriving DecidableEq, Repr

/-- Whether a copy moves its elements unchanged: equal formats and no reduction (R201, R294). -/
def LxPair.raw (x : LxPair) (red : Nat) : Bool := x.src.fmt == x.dst.fmt && red == 0

/-- The extremes in bytes of a record's window from its base: first byte and the byte after the last. -/
def TRec.bounds (r : TRec) : Int × Int :=
  let q := reachOf (List.zip r.window r.str)
  (r.start + q.1, r.start + q.2 + portWidth r.fmt)

/-- Where the element of `w` bytes at a byte offset of the destination is written under a swizzle (R273): none where its
bytes do not all lie within the destination, so that no program passing its check writes outside its records (R274). -/
def swizzled (b : Int × Int) (w mask sh : Nat) (o : Int) : Option Int :=
  if mask = 0 then some o
  else
    let d := (o - b.1).toNat
    let x := d / 64
    let y := x ^^^ ((x / 2 ^ sh) &&& mask)
    if 64 * y + d % 64 + w ≤ (b.2 - b.1).toNat then some (b.1 + (64 * y + d % 64 : Nat)) else none

/-- The check of one LXEMIT (R274): every non-pad index within the source's elements (3), no more elements than the
destination has (4), swizzled beats within it (5); `at_` is the number of lanes emitted before. -/
def emitCheck (x : LxPair) (v : View) (before : Nat) : Nat :=
  let n := v.size
  let lanes := n * lanesPer x.src.fmt
  if !(List.range n).all (fun k => match v.elem k with
      | some o => isElement x.src.axes o
      | none => true) then 3
  else if x.dst.count < before + lanes then 4
  else if v.mask = 0 then 0
  else
    let per := lanesPer x.dst.fmt
    let first := before / per
    let b := x.dst.bounds
    if (List.range ((before + lanes + per - 1) / per - first)).all (fun k => (swizzled b (portWidth x.dst.fmt) v.mask v.sh (x.dst.offsetOf (first + k))).isSome)
    then 0 else 5

/-- A program run from an instruction on (R273), checked as it runs (R274). -/
def lxRun (x : LxPair) (prog : List (BitVec 64)) : Nat → Nat → LxRun → LxEnd
  | 0, k, r => { emits := r.emits, code := 2, at_ := min k 31, count := r.count }
  | fuel + 1, k, r =>
    let stop := fun code => ({ emits := r.emits, code := code, at_ := min k 31, count := r.count } : LxEnd)
    match prog[k]? with
    | none => stop 2
    | some i =>
      let op := lxBits i 63 58
      if op = 0 then
        if lxBits i 57 0 ≠ 0 then stop 1 else if r.count ≠ x.dst.count then stop 4 else stop 0
      else if op = 0x0B then
        if lxBits i 57 0 ≠ 0 then stop 1
        else
          let c := emitCheck x r.view r.count
          if c ≠ 0 then stop c
          else
            let n := r.view.size
            lxRun x prog fuel (k + 1) { r with emits := (r.view, n) :: r.emits, count := r.count + n * lanesPer x.src.fmt }
      else if op = 0x0A then
        let t := lxBits i 57 53
        let n := lxBits i 47 24
        let d : Int := (i.extractLsb' 0 24).toInt * portWidth x.src.fmt
        if lxBits i 52 48 ≠ 0 ∨ k ≤ t ∨ n = 0 then stop 1
        else
          let c := match r.ctrs.getD k 0 with
            | 0 => n
            | c => c
          if 1 < c then lxRun x prog fuel t { r with ctrs := lmod r.ctrs k (fun _ => c - 1), view := { r.view with base := r.view.base + d } }
          else lxRun x prog fuel (k + 1) { r with ctrs := lmod r.ctrs k (fun _ => n) }
      else match r.view.exec (portWidth x.src.fmt) i with
        | none => stop 1
        | some v => lxRun x prog fuel (k + 1) { r with view := v }

/-- More steps than any program of 32 instructions takes: each loop runs at most 2^24 times. -/
def lxFuel : Nat := 2 ^ 900

/-- A program run from its start. -/
def lxProgram (x : LxPair) (prog : List (BitVec 64)) : LxEnd :=
  lxRun x prog lxFuel 0 { view := x.src.view, emits := [], count := 0, ctrs := List.replicate 32 0 }

/-- The emits of a copy in order: those of its program, or one of the whole window where it has none (R201). -/
def copyEmits (x : LxPair) (prog : List (BitVec 64)) : List (View × Nat) :=
  if prog = [] then [(x.src.view, x.src.size)] else (lxProgram x prog).emits.reverse

/-- Element k of a stream: its view, and the number in it; L is 1 for elements, else the lanes of an atom. -/
def streamAt (l : Nat) : List (View × Nat) → Nat → Option (View × Nat)
  | [], _ => none
  | (v, n) :: t, k => if k < n * l then some (v, k) else streamAt l t (k - n * l)

end Sys2Proof.Machine
end

