-- ==== Sys2Proof/Machine/Copy.lean ====
section
/-!
DEFINITION. The copy engine (R292–R295, R312): triggers, copies with their conversions and reductions, end-of-tiles; CPYT
(R147).
-/

namespace Sys2Proof.Machine

/-! ### Triggers (R147, R255, R292) -/

/-- Triggers that a template's queue holds (R292). -/
def trigSize : Nat := 16

/-- Triggers queued for a template. -/
def CopyEng.queued (e : CopyEng) (t : Nat) : Nat := (e.trigs.filter (fun x => x.tpl == some t)).length

/-- A trigger of a template placed. -/
def CopyEng.place (e : CopyEng) (x : Trig) : CopyEng := { e with trigs := e.trigs ++ [x] }

/-- A template disarmed, its queued triggers discarded (R255). -/
def CopyEng.disarm (e : CopyEng) (t : Nat) : CopyEng :=
  { e with templates := terase e.templates t, trigs := e.trigs.filter (fun x => x.tpl != some t) }

/-- CPYT's instant (R147): a trigger for data, an end-of-tile or a counted empty fibre; other kinds counted. ERRS counts modulo 2^32 as
FIRES does, and a trigger dropped at an unarmed template leaves FIRES as it is (the model's choice, log 88). -/
def cpytReact (s : State) (n : Node) (i : Ins) : Option (State × React) :=
  match i.a with
  | none => some (s, quietReact n)
  | some b =>
    let k := hdrKind b.hdr
    let t := (n.rcd.k0.extractLsb' 0 4).toNat
    if k = 0 ∨ k = 5 ∨ (k = 1 ∧ n.rcd.k0.getLsbD 4 = true) then
      let e := (s.coreAt s.here).ce
      if (tget e.templates t).isNone then some (s, quietReact (n.drop 1))
      else if trigSize ≤ e.queued t then none
      else
        let x : Trig := { tpl := some t, job := none, level := hdrLevel b.hdr, value := n.reg 3, empty := k == 1 }
        some (s.modCe s.here (fun e => e.place x), quietReact (n.setReg 3 (n.reg 3 + 1)))
    else if k = 1 then some (s, quietReact n)
    else some (s, quietReact (n.setReg 4 (n.reg 4 + 1)))

/-- CPYT (R147, R199). -/
def execCpyt (r : NodeRec) (s : State) : Answer := .next (s.fireWith 0x04 r false cpytReact)

/-! ### Where an element lies -/

/-- Where an access of the copy engine takes place: a memory key, with the core and bank of a listed bank it writes; a fault
code; or a wait. -/
inductive CopyPlace where
  | key (k : Nat) (listed : Option (Nat × Nat))
  | fault (code : Nat)
  | wait
  deriving DecidableEq, Repr

/-- The core that a peer base names: one of the team, or of the next child of a PIPE (R312). -/
def State.copyPeer (s : State) (p l : Nat) : Option Nat :=
  let tm := s.teamAt p
  if l < tm.count then some (tm.posOf l)
  else match tget s.tasks tm.task, tget s.regions tm.region with
    | some k, some r =>
      if k.parentKind tm.leaf = 2 then match s.siblingPos r (l - tm.count) false with
        | some q => if (s.coreAt q).team.isSome && (s.teamAt q).task == tm.task then some q else none
        | none => none
      else none
    | _, _ => none

/-- A scratchpad byte of a core as a place; a write to a listed bank waits until no node holds its key (R312). -/
def State.copyLocal (s : State) (q off : Nat) (write : Bool) : CopyPlace × State :=
  let b := bankOf off
  let listed := write && (s.listedAt q).any (fun e => e.bank == b)
  let held := match s.teamCfg q with
    | some g => g.holder b != 0xFF
    | none => false
  if (s.coreAt q).failed then (.fault 0x32, s)
  else if listed && held then (.wait, s)
  else (.key (scratchKey q off) (if listed then some (q, b) else none), s.touch q off)

/-- The place of an access of the copy engine of a core (R291, R292, R365). -/
def State.copyPlace (s : State) (p : Nat) (a : BitVec 64) (write : Bool) : CopyPlace × State :=
  match spaceOf a with
  | .global va =>
    let part := s.partOf p
    match s.translate p part va (if write then .write else .read) whoCopy with
    | (.wait, z) => (.wait, z)
    | (.done .transFault, z) => (.fault 0x31, z)
    | (.done .accessFault, z) => (.fault 0x32, z)
    | (.done (.ok pa pte), z) =>
      if write && pteCow pte then match z.cowBefore part va pa with
        | some z2 => (.key pa none, z2)
        | none => (.wait, z)
      else (.key pa none, z)
  | .localMem off => s.copyLocal p off write
  | .peer l off => match s.copyPeer p l with
    | some q => s.copyLocal q off write
    | none => (.fault 0x32, s)
  | _ => (.fault 0x32, s)

/-! ### One destination element (R201, R268, R294) -/

/-- A copy while it moves: the state, the job, the reads of its next element gone through, ranges written, the fault that holds
it, whether it waits. -/
structure Mover where
  s     : State
  job   : CopyJob
  pos   : Nat
  wrote : List (Nat × Nat)
  hold  : Option (Nat × Nat × BitVec 64)
  stuck : Bool

/-- What a source access gives: bits, a lost beat, or nothing because the copy cannot go on. -/
inductive Gotten where
  | bits (v : Nat)
  | lost
  | stop
  deriving DecidableEq, Repr

/-- A fault record of the copy engine (R352, R353): node 0xFE, no domain. -/
def State.copyFault (s : State) (p code kind : Nat) (a : BitVec 64) : State :=
  let r := s.recAt p code 0xFE 0xFF
  let off := a.toNat % 2 ^ 22
  match spaceOf a with
  | .localMem _ => s.fault (s.partOf p) { r with kind := kind, addr := off, bank := if code = 0x10 then 64 + bankOf off else 0 }
  | .peer _ _ => s.fault (s.partOf p) { r with kind := kind, addr := off, bank := if code = 0x10 then 64 + bankOf off else 0 }
  | _ => s.fault (s.partOf p) { r with kind := kind, addr := a.toNat }

/-- What a read performed for an element gave: bits, or a lost beat. -/
def Gotten.of : Option Nat → Gotten
  | some b => .bits b
  | none => .lost

/-- A source read performed for the next beat, kept until its element is done, so that none is repeated (R291). -/
def Mover.note (m : Mover) (v : Option Nat) : Mover := { m with pos := m.pos + 1, job := { m.job with seen := m.job.seen ++ [v] } }

/-- An element of w bytes read at an address (R294): its bits, or none inside for a beat with an uncorrectable error, which is lost and
recorded once; none outside where the copy cannot go on. -/
def Mover.access (m : Mover) (p : Nat) (a : BitVec 64) (w kind : Nat) : Option (Option Nat) × Mover :=
  match m.s.copyPlace p a (kind != 0) with
  | (.wait, z) => (none, { m with s := z, stuck := true })
  | (.fault c, z) => (none, { m with s := z, stuck := true, hold := some (c, kind, a) })
  | (.key k _, z) =>
    let beat := k / 64
    if z.badIn (64 * beat) 64 || z.badIn k w then
      if m.job.lost.contains beat then (some none, { m with s := z })
      else (some none, { m with s := z.copyFault p 0x10 kind a, job := { m.job with lost := m.job.lost ++ [beat] } })
    else (some (some (z.peekNat k w)), { m with s := z })

/-- A source element read (R294). A read performed before a hold or a wait is not repeated (R291). -/
def Mover.fetch (m : Mover) (p : Nat) (a : BitVec 64) (w : Nat) : Gotten × Mover :=
  match m.job.seen[m.pos]? with
  | some v => (Gotten.of v, { m with pos := m.pos + 1 })
  | none => match m.access p a w 0 with
    | (none, x) => (.stop, x)
    | (some v, x) => (Gotten.of v, x.note v)

/-- The resident value of the destination element of a reduction, read once (R291, R294). -/
def Mover.resident (m : Mover) (p : Nat) (a : BitVec 64) (w : Nat) : Gotten × Mover :=
  match m.job.old with
  | some v => (Gotten.of v, m)
  | none => match m.access p a w 2 with
    | (none, x) => (.stop, x)
    | (some v, x) => (Gotten.of v, { x with job := { x.job with old := some v } })

/-- The lanes gathered for a destination element so far. -/
structure Gather where
  m     : Mover
  lanes : List XVal
  lost  : Bool

/-- The value of a lane of a source element (R201): an atom's by the record's tensor exponent, a storage lane's by the scale. -/
def laneValue (r : TRec) (scale : BitVec 32) (bits lane : Nat) : XVal :=
  match atomFmt r.fmt with
  | some f => (atomLanes f r.texp (atomVal f bits)).getD lane xzero
  | none => storVal r.fmt (scaleIn scale) bits

/-- One lane gathered from the stream; a pad is zero (R271). -/
def Gather.step (p : Nat) (emits : List (View × Nat)) (g : Gather) (k : Nat) : Gather :=
  if g.m.stuck then g
  else
    let src := g.m.job.t.src
    let l := lanesPer src.fmt
    match streamAt l emits k with
    | none => { g with lanes := g.lanes ++ [xzero] }
    | some (v, i) =>
      match v.lane l i with
      | (none, _) => { g with lanes := g.lanes ++ [xzero] }
      | (some o, lane) =>
        let a := src.base + BitVec.ofInt 64 o
        match g.m.fetch p a (portWidth src.fmt) with
        | (.bits b, m) => { g with m := m, lanes := g.lanes ++ [laneValue src v.scale b lane] }
        | (.lost, m) => { g with m := m, lost := true }
        | (.stop, m) => { g with m := m }

/-- The lanes of destination element k in the stream's order (R268): one for a storage element, L for an atom. -/
def TRec.lanesOf (r : TRec) (k : Nat) : List Nat :=
  let l := lanesPer r.fmt
  let idx := unrankIndex r.window k
  (List.range l).map (fun i => rankIndex (widen l r.axis r.window) (lmod idx r.axis (fun x => x * l + i)))

/-- A combination by a destination reduction, the resident value first (R294). -/
def copyRed (red : Nat) (resident new : XVal) : XVal :=
  match red with
  | 1 => xAdd resident new
  | 2 => xMax resident new
  | _ => xMin resident new

/-- A NaN's payload carried between gain classes. -/
def carryNan (src dst : Bool) : XVal → XVal
  | .nan p => .nan (payAcross src dst p)
  | v => v

/-- The bits of an integer that wraps (R294): rounded in the mode, then modulo 2^32. -/
def wrapInt32 (mode : Nat) : XVal → Nat
  | .num neg m e => (BitVec.ofInt 32 (sgn neg (intRound mode 0 m 1 e).1)).toNat
  | v => (intStore 32 mode 0 v 1 0).1

/-- The payload of the first NaN of a list. -/
def firstNan (l : List XVal) : Option Nat := l.findSome? (fun v => match v with
  | .nan p => some p
  | _ => none)

/-- The bits of a destination element from the resident lanes and the source's (R201, R294): an atom encoded once with β, a
NaN atom where an operand atom, the resident one first, brings one (R31); a storage lane rounded once. -/
def destBits (src dst : TRec) (red mode : Nat) (scale : BitVec 32) (old new : List XVal) : Nat :=
  let kept := match atomFmt src.fmt, atomFmt dst.fmt with
    | some g, some f => new.map (carryNan g.g16 f.g16)
    | _, _ => new
  let lanes := if red = 0 then kept else List.zipWith (copyRed red) old kept
  match atomFmt dst.fmt with
  | some f =>
    match (firstNan old <|> if isAtom src.fmt then firstNan kept else none) with
    | some p => nanAtom f p
    | none => (encodeSearch f (if red = 0 then src.texp else dst.texp) mode 0 lanes).1
  | none =>
    let v := lanes.headD xzero
    if dst.fmt = 0x14 ∧ red = 1 then wrapInt32 mode v else (storPack dst.fmt (scaleIn scale) mode 0 v).1

/-- Bits written to a destination element. -/
def Mover.write (m : Mover) (p : Nat) (a : BitVec 64) (w bits : Nat) : Mover :=
  match m.s.copyPlace p a true with
  | (.wait, z) => { m with s := z, stuck := true }
  | (.fault c, z) => { m with s := z, stuck := true, hold := some (c, 1, a) }
  | (.key k listed, z) =>
    let j := m.job
    { m with
      s := { z with mem := writeBytes z.mem k (bytesOfNat bits w) }, wrote := m.wrote ++ [(k, w)],
      job := { j with
        done := j.done + 1, seen := j.seen.drop m.pos, old := none, bytes := j.bytes + w,
        wrote := match listed with
          | some b => if j.wrote.contains b then j.wrote else j.wrote ++ [b]
          | none => j.wrote } }

/-- A destination element passed over: a lost beat is not written (R294). -/
def Mover.skip (m : Mover) : Mover := { m with job := { m.job with done := m.job.done + 1, seen := m.job.seen.drop m.pos, old := none } }

/-- What the source gives for a destination element: nothing to write, bits as they stand, lanes under a view, or nothing because the
copy cannot go on; with the byte offset of the element. -/
inductive Sourced where
  | skip
  | bits (o : Int) (v : Nat)
  | lanes (o : Int) (v : View) (l : List XVal)
  | stop

/-- The source of destination element k read (R201, R268, R271). -/
def Mover.source (p : Nat) (emits : List (View × Nat)) (m : Mover) (k : Nat) : Sourced × Mover :=
  let src := m.job.t.src
  let dst := m.job.t.dst
  let raw := ({ src := src, dst := dst } : LxPair).raw m.job.t.red
  let ls := if raw then [k] else dst.lanesOf k
  match streamAt (if raw then 1 else lanesPer src.fmt) emits (ls.headD 0) with
  | none => (.skip, m)
  | some (v, i) =>
    match swizzled dst.bounds (portWidth dst.fmt) v.mask v.sh (dst.offsetOf k) with
    | none => (.skip, m)
    | some o =>
      if raw then match v.elem i with
        | none => (.bits o 0, m)
        | some so => match m.fetch p (src.base + BitVec.ofInt 64 so) (portWidth dst.fmt) with
          | (.bits b, m1) => (.bits o b, m1)
          | (.lost, m1) => (.skip, m1)
          | (.stop, m1) => (.stop, m1)
      else
        let g := ls.foldl (Gather.step p emits) { m := m, lanes := [], lost := false }
        if g.m.stuck then (.stop, g.m) else if g.lost then (.skip, g.m) else (.lanes o v g.lanes, g.m)

/-- The next destination element performed. -/
def Mover.step (p : Nat) (emits : List (View × Nat)) (m0 : Mover) : Mover :=
  if m0.stuck then m0
  else
    let dst := m0.job.t.dst
    let w := portWidth dst.fmt
    let red := m0.job.t.red
    let at_ := fun (o : Int) => dst.base + BitVec.ofInt 64 o
    match Mover.source p emits { m0 with pos := 0 } m0.job.done with
    | (.skip, m) => m.skip
    | (.stop, m) => m
    | (.bits o b, m) => m.write p (at_ o) w b
    | (.lanes o v l, m) =>
      if red = 0 then m.write p (at_ o) w (destBits m0.job.t.src dst 0 v.mode v.scale [] l)
      else match m.resident p (at_ o) w with
        | (.bits b, m1) =>
          let old := (List.range (lanesPer dst.fmt)).map (laneValue dst v.scale b)
          m1.write p (at_ o) w (destBits m0.job.t.src dst red v.mode v.scale old l)
        | (.lost, m1) => m1.skip
        | (.stop, m1) => m1

/-- The source of a destination element read ahead of its writing. -/
def Mover.ahead (p : Nat) (emits : List (View × Nat)) (m : Mover) (k : Nat) : Mover :=
  if m.stuck then m else (Mover.source p emits m k).2

/-- Destination elements of a copy's beat of 64 bytes that are left, from the next one on; the last beat of a copy is masked (R295). -/
def CopyJob.beatLeft (j : CopyJob) : Nat :=
  let per := max 1 (64 / portWidth j.t.dst.fmt)
  min j.t.dst.size ((j.done / per + 1) * per) - j.done

/-- The next beat of a copy performed (R295): the sources of all its elements are read before the first one is written, so that no other
agent sees it half written (R333). -/
def Mover.beat (p : Nat) (emits : List (View × Nat)) (m : Mover) : Mover :=
  if m.stuck then m
  else
    let n := m.job.beatLeft
    let r := (List.range n).foldl (fun (x : Mover) i => x.ahead p emits (m.job.done + i)) { m with pos := 0 }
    if r.stuck then r else (List.range n).foldl (fun (x : Mover) _ => x.step p emits) r

/-! ### Copies (R291, R292, R295) -/

/-- A copy's job from its trigger: none where its template is no longer armed. -/
def CopyEng.begin (e : CopyEng) (x : Trig) : Option CopyJob :=
  (match x.tpl with
    | some t => tget e.templates t
    | none => x.job).map (fun t =>
      { tpl := x.tpl, t := t, level := x.level, value := x.value, empty := x.empty, done := 0, seen := [], bytes := 0, lost := [], wrote := [],
        moved := x.empty })

/-- Whether an engine is in the middle of a copy. -/
def CopyEng.moving (e : CopyEng) : Bool := e.jobs.any (fun j => !j.moved)

/-- The next copy begun in trigger order (R292); a one-shot template disarms (R254). At 16 completed copies that await
delivery none begins (R230). -/
def CopyEng.next (e : CopyEng) : CopyEng :=
  if e.moving || decide (16 ≤ e.eots.length + e.jobs.length) then e
  else match e.trigs with
    | [] => e
    | x :: t =>
      let e1 := { e with trigs := t }
      match e.begin x with
      | none => e1
      | some j =>
        let e2 := { e1 with jobs := e1.jobs ++ [j] }
        match x.tpl with
        | some k => if j.t.once then e2.disarm k else e2
        | none => e2

/-- A copy carried on by at most `most` beats. -/
def CopyJob.run (j : CopyJob) (s : State) (p most : Nat) : Mover :=
  (List.range most).foldl (fun (m : Mover) _ => m.beat p (copyEmits { src := j.t.src, dst := j.t.dst } j.t.prog))
    { s := s, job := j, pos := 0, wrote := [], hold := none, stuck := false }

/-- A moving copy carried on by at most `most` beats (R291, R333), to a hold or a wait. -/
def State.copySome (s : State) (p most : Nat) : State :=
  match (s.coreAt p).ce.jobs.find? (fun j => !j.moved) with
  | none => s
  | some j =>
    let m := j.run s p most
    let j2 := { m.job with moved := decide (j.t.dst.size ≤ m.job.done) }
    let s1 := (m.s.cure m.wrote).modCe p (fun e => { e with jobs := e.jobs.map (fun q => if q.moved then q else j2) })
    match m.hold with
    | some (c, kind, a) => (s1.modCe p (fun e => { e with hold := some { code := c, addr := a.toNat } })).copyFault p c kind a
    | none => s1

/-- A moving copy carried on as far as it goes (R291): all its elements performed, a hold, or a wait. -/
def State.copyMove (s : State) (p : Nat) : State :=
  s.copySome p (match (s.coreAt p).ce.jobs.find? (fun j => !j.moved) with
    | some j => (j.t.dst.size - j.done) / max 1 (64 / portWidth j.t.dst.fmt) + 2
    | none => 0)

/-- Whether the copy engine of a core may begin copies: its core works and its team is not being stopped (R358). -/
def State.copiesRun (s : State) (p : Nat) : Bool :=
  !(s.coreAt p).failed && (match (s.coreAt p).team with
    | some _ => (s.teamAt p).st == .running
    | none => true)

/-- COPY_START: the engine begins the next copy in trigger order and moves its elements, or carries on one that waited
(R291, R292). -/
def execCopyStart (core : Nat) (s : State) : Answer :=
  if (s.coreAt core).failed || (s.coreAt core).ce.hold.isSome then .next s
  else
    let s1 := if s.copiesRun core then s.modCe core CopyEng.next else s
    .next (s1.copyMove core)

/-- The end-of-tile of a copy (R201, R295): its entry in the notified inbox. -/
def eotEntry (lid count : Nat) (j : CopyJob) : InEntry :=
  let t := j.tpl.getD 0
  let beat := bytesOfNat j.bytes 4 ++ bytesOfNat (j.tpl.getD 0xFF) 1 ++ bytesOfNat lid 2 ++ bytesOfNat j.level 1 ++
    bytesOfNat j.value.toNat 4 ++ bytesOfNat (min j.lost.length 65535) 2 ++ List.replicate 50 0
  { sd := BitVec.ofNat 64 (j.bytes % 2 ^ 32 + t % 16 * 2 ^ 32 + lid % 1024 * 2 ^ 36 + (if j.tpl.isNone then 2 ^ 47 else 0)),
    hdr := mkHdr 5 0 0 0 count, beats := [beatOfBytes beat] }

/-- COPY_COMPLETE: the oldest copy whose writes have been performed forms its end-of-tile (R295). -/
def execCopyComplete (core : Nat) (s : State) : Answer :=
  match (s.coreAt core).ce.jobs with
  | [] => .next s
  | j :: t =>
    if !j.moved then .next s
    else
      let lid := s.lid core
      .next (s.modCe core (fun e =>
        let n := (e.count + 1) % 2 ^ 14
        { e with
          jobs := t, count := n,
          eots := e.eots ++ [{ core := j.t.core, box := j.t.box, ent := eotEntry lid n j, gives := j.wrote }] }))

/-- The listed banks that a copy wrote pass to their receiving nodes (R312). -/
def State.giveBanks (s : State) : List (Nat × Nat) → State
  | [] => s
  | (q, b) :: t =>
    let s1 := match (s.listedAt q).find? (fun e => e.bank == b) with
      | some e => s.modCfg q (fun g => { g with keys := tset g.keys b e.recv })
      | none => s
    s1.giveBanks t

/-- END_OF_TILE_DELIVERY: the oldest end-of-tile is delivered once the notified inbox has room (R230). -/
def execEndOfTileDelivery (core : Nat) (s : State) : Answer :=
  match (s.coreAt core).ce.eots with
  | [] => .next s
  | e :: t =>
    let q := (s.teamAt core).posOf e.core
    if !boxRoom ((s.ctlAt q).box e.box) e.ent then .next s
    else .next (((s.modCe core (fun c => { c with eots := t })).modCtl q (fun c => c.putBox e.box e.ent)).giveBanks e.gives)

end Sys2Proof.Machine
end

