-- ==== Sys2Proof/Machine/Links.lean ====
section
/-!
DEFINITION. Peer ports (R369, R376–R383): frames, flits, replay, credits, ports that go down and come up.
-/

namespace Sys2Proof.Machine

/-! ### Frames (R369, R381, R382) -/

/-- The bytes of a block under mode 3: the mask of its nonzero bytes, then these (R369). -/
def sparseBytes (l : List Byte) : List Byte :=
  bytesOfNat (l.zipIdx.foldl (fun m x => if x.1 = 0 then m else m + 2 ^ x.2) 0) 8 ++ l.filter (· ≠ 0)

/-- The mode and bytes of a block on a compressed channel: the smallest, ties to the lowest code (R369). -/
def packBlock (prev : Option (List Byte)) (l : List Byte) : Nat × List Byte :=
  if l.all (· == 0) then (1, [])
  else if prev = some l then (2, [])
  else
    let sp := sparseBytes l
    if sp.length < l.length then (3, sp) else (0, l)

/-- The modes and bytes of the blocks of a frame, in order. -/
def packBlocks (comp : Bool) : Option (List Byte) → List (List Byte) → List (Nat × List Byte)
  | _, [] => []
  | prev, l :: t => (if comp then packBlock prev l else (0, l)) :: packBlocks comp (some l) t

/-- The mode map: two bits a block (R369). -/
def modeMap : List Nat → Nat
  | [] => 0
  | m :: t => m + 4 * modeMap t

/-- The frame of a burst (R369). -/
def frameOf (b : Burst) (vc seq : Nat) (comp : Bool) : List Byte :=
  let blocks := packBlocks comp none (b.beats.map bytesOfBeat)
  bytesOfNat b.hdr.toNat 4 ++ bytesOfNat (vc % 8) 1 ++ bytesOfNat (seq % 2 ^ 24) 3 ++
  bytesOfNat (modeMap (blocks.map Prod.fst)) 16 ++ blocks.flatMap Prod.snd

/-- The bytes of a sparse block: the given bytes at the set bits of the mask, zeros elsewhere. -/
def spreadBytes (mask : Nat) : Nat → List Byte → List Byte
  | 0, _ => []
  | n + 1, l =>
    if mask % 2 = 1 then l.headD 0 :: spreadBytes (mask / 2) n (l.drop 1) else 0 :: spreadBytes (mask / 2) n l

/-- Ones of a 64-bit mask. -/
def onesOf (mask : Nat) : Nat := ((List.range 64).filter (fun i => mask / 2 ^ i % 2 == 1)).length

/-- The blocks that a mode map and block bytes spell; none where the bytes run short or past (R381). -/
def unpackBlocks : Nat → Nat → List Byte → List Byte → Option (List (List Byte))
  | 0, _, _, l => if l.isEmpty then some [] else none
  | n + 1, map, prev, l =>
    let next := fun (b : List Byte) (rest : List Byte) => (unpackBlocks n (map / 4) b rest).map (fun t => b :: t)
    match map % 4 with
    | 0 => if l.length < 64 then none else next (l.take 64) (l.drop 64)
    | 1 => next (List.replicate 64 0) l
    | 2 => next prev l
    | _ =>
      let mask := natOfBytes (l.take 8)
      let k := onesOf mask
      if l.length < 8 + k then none else next (spreadBytes mask 64 (l.drop 8)) (l.drop (8 + k))

/-- The blocks of a frame by its header: the length field and one for kinds 0, 3 and 5, none for the others (R381). -/
def frameBlocks (h : BitVec 32) : Nat := if hdrKind h = 0 ∨ hdrKind h = 3 ∨ hdrKind h = 5 then hdrLen h + 1 else 0

/-- The burst of a received frame, or error token 0x45 with its closing level where it is malformed (R381); `seq` frames
have been received on the channel. -/
def burstOfFrame (seq : Nat) (fr : List Byte) : Burst :=
  let h := BitVec.ofNat 32 (natOfBytes (fr.take 4))
  let bad := errToken 0x45 0 (hdrLevel h)
  let n := frameBlocks h
  let map := natOfBytes ((fr.drop 8).take 16)
  if fr.length < 24 ∨ natOfBytes ((fr.drop 5).take 3) ≠ seq % 2 ^ 24 ∨ map / 4 ^ n ≠ 0 ∨ (0 < n ∧ map % 4 = 2) then bad
  else match unpackBlocks n map [] (fr.drop 24) with
    | some l => { hdr := h, beats := l.map beatOfBytes }
    | none => bad

/-! ### Flits (R378) -/

/-- A flit of its bytes. -/
def flitOf (l : List Byte) : BitVec 512 := BitVec.ofNat 512 (natOfBytes l)

/-- Byte i of a flit. -/
def flitByte (f : BitVec 512) (i : Nat) : Nat := (f.extractLsb' (8 * i) 8).toNat

/-- A little-endian field of a flit. -/
def flitNat (f : BitVec 512) (i n : Nat) : Nat := f.toNat / 2 ^ (8 * i) % 2 ^ (8 * n)

/-- A data flit (R378). -/
def dataFlit (vc : Nat) (last : Bool) (seq : Nat) (bytes : List Byte) : BitVec 512 :=
  flitOf (bytesOfNat (1 + 16 * (vc % 8) + 128 * last.toNat) 1 ++ bytesOfNat bytes.length 1 ++ bytesOfNat seq 2 ++ bytes)

/-- An acknowledgement or a replay request (R378). -/
def seqFlit (type seq : Nat) : BitVec 512 := flitOf (bytesOfNat type 4 ++ bytesOfNat seq 2)

/-- A credit flit that releases slots of one channel (R378). -/
def creditFlit (vc k : Nat) : BitVec 512 := flitOf (bytesOfNat 4 4 ++ (List.range 8).flatMap (fun v => bytesOfNat (if v = vc then k else 0) 1))

/-- The data flits of a frame: 60 bytes each, the last with what is left (R378). -/
def flitsOf (vc seq : Nat) (fr : List Byte) : List (BitVec 512) :=
  let parts := chunk 60 fr
  parts.zipIdx.map (fun x => dataFlit vc (x.2 + 1 == parts.length) (seq + x.2) x.1)

/-! ### Ports -/

/-- A port. -/
def State.portAt (s : State) (p : Nat) : Port := tgetD Port.reset s.ports p

/-- The package with one port changed. -/
def State.modPort (s : State) (p : Nat) (f : Port → Port) : State := { s with ports := tset s.ports p (f (s.portAt p)) }

/-- An entry of an eight-entry list. -/
def vget {α : Type} (d : α) (v : Vector α 8) (k : Nat) : α := v.toList.getD k d

/-- An eight-entry list with an entry changed. -/
def vmod {α : Type} (v : Vector α 8) (k : Nat) (f : α → α) : Vector α 8 := Vector.ofFn (fun i => if i.val = k then f v[i] else v[i])

/-- Flits put on the wire. -/
def Port.send (p : Port) (l : List (BitVec 512)) : Port := { p with sent := p.sent ++ l }

/-- Channels of a port granted to a partition (R391 PVC0, PVC1). -/
def Part.grant (pt : Part) (port : Nat) : BitVec 8 := ((if port < 8 then pt.pvc0 else pt.pvc1) >>> (8 * (port % 8))).extractLsb' 0 8

/-- A bit of a channel mask. -/
def chanBit (m : BitVec 8) (v : Nat) : Bool := m.getLsbD v

/-- Whether a port can take frames on a channel (R367, R377, R379): enabled at both ends, credits, room to keep the flits. -/
def Port.takes (p : Port) (vc : Nat) (frames : List (List Byte)) : Bool :=
  chanBit p.en vc && chanBit p.farEn vc && decide (frames.length ≤ vget 0 p.credits vc) &&
  decide (p.unacked.length + ((frames.map (fun f => (f.length + 59) / 60)).foldl (· + ·) 0) ≤ 4096)

/-- A frame handed to a port (R378, R379). -/
def Port.handFrame (p : Port) (vc : Nat) (fr : List Byte) : Port :=
  let l := flitsOf vc p.txSeq fr
  { p.send l with
    unacked := p.unacked ++ l, txSeq := (p.txSeq + l.length) % 65536,
    txFrames := vmod p.txFrames vc (· + 1), credits := vmod p.credits vc (· - 1) }

/-- The frames of bursts on a channel, numbered from the frames sent so far. -/
def Port.framesOf (p : Port) (vc : Nat) (l : List Burst) : List (List Byte) :=
  l.zipIdx.map (fun x => frameOf x.1 vc (vget 0 p.txFrames vc + x.2) (chanBit p.comp vc))

/-- Port of a link endpoint (R367, R368). -/
def Node.port (n : Node) : Nat := (n.rcd.k0.extractLsb' 0 4).toNat

/-- Channel of a link endpoint (R367, R368). -/
def Node.vc (n : Node) : Nat := (n.rcd.k0.extractLsb' 4 3).toNat

/-- An LRX told that its port has gone down, with the frames delivered before that it has still to emit (R380). -/
def Node.portLost (p : Nat) (q : Port) (n : Node) : Node :=
  if n.op = 0x91 && n.port == p && !n.exh && n.down.isNone then { n with down := some (vget [] q.slots n.vc).length } else n

/-- A core told that a port has gone down. -/
def Core.portLost (p : Nat) (q : Port) (c : Core) : Core :=
  { c with cfg := c.cfg.map (fun g => { g with nodes := g.nodes.map (fun n => (n.1, n.2.portLost p q)) }) }

/-- A save told that a port has gone down: its LRX resume as those of a running team (R360, R380). -/
def Saved.portLost (p : Nat) (q : Port) (v : Saved) : Saved := { v with cores := v.cores.map (Core.portLost p q) }

/-- A port down (R380): its channels disabled, frames not wholly received lost, each LRX of it told, saved ones too, one fault
record for each partition that holds a channel. -/
def State.portFails (s : State) (p : Nat) : State :=
  let q := s.portAt p
  if !q.up then s
  else
    let s1 := s.modPort p (fun q => { Port.reset with ever := true, slots := q.slots, sent := q.sent, badTypes := q.badTypes })
    let s2 : State := { s1 with
      cores := s1.cores.map (fun c => (c.1, c.2.portLost p q)),
      teams := s1.teams.map (fun t => (t.1, { t.2 with save := t.2.save.map (Saved.portLost p q) })),
      areas := s1.areas.map (fun a => (a.1, a.2.portLost p q)) }
    (List.range 32).foldl (fun z t =>
      let g := (z.partAt t).grant p
      if g = 0 then z
      else z.fault t { code := 0x44, cont := false, stopped := false, dom := 0xFF, handle := 0, lid := 0, pos := 0, node := 0xFF,
                       kind := 0, bank := 0, inst := 0, addr := 0, hdr := 0, count := p + 256 * g.toNat, detail := [] }) s2

/-- A port that has come up again (R380): it carries frames only after a new LINKCFG; sequences restart at 0. -/
def Port.retrained (q : Port) : Port := { Port.reset with up := true, ever := true, slots := q.slots, sent := q.sent }

/-- Replay requests in a row that name one sequence: the run after one more. -/
def runOf (last run seq : Nat) : Nat := if last = seq then run + 1 else 1

/-- A replay request sent for the first sequence lacking (R379); the eighth in a row for one sequence brings the port down
(R380). -/
def State.askReplay (s : State) (p : Nat) : State :=
  let q := s.portAt p
  let run := runOf q.lastAsk q.askRun q.rxSeq
  let s1 := s.modPort p (fun q => { q.send [seqFlit 3 q.rxSeq] with asking := true, lastAsk := q.rxSeq, askRun := run })
  if 8 ≤ run then s1.portFails p else s1

/-- A whole frame at its receiver, which has used a credit of its channel (R377, R381): decoded into a slot of the channel, or
discarded and counted on a channel that is not enabled. -/
def Port.deliver (q : Port) (vc : Nat) (fr : List Byte) : Port :=
  let q1 := { q with partials := vmod q.partials vc (fun _ => []), given := vmod q.given vc (· - 1) }
  if chanBit q.en vc then
    { q1 with
      slots := vmod q1.slots vc (fun l => l ++ [burstOfFrame (vget 0 q.rxFrames vc) fr]),
      rxFrames := vmod q1.rxFrames vc (· + 1) }
  else { q1 with replays := min (q1.replays + 1) (2 ^ 31 - 1) }

/-- A data flit in sequence (R378, R379): its bytes join the frame of its channel; flits are acknowledged at the end of
a frame, and by sixty-fours. -/
def Port.takeFlit (q : Port) (f : BitVec 512) : Port :=
  let vc := flitByte f 0 / 16 % 8
  let bytes := vget [] q.partials vc ++ bytesOfNat (flitNat f 4 60) (min 60 (flitByte f 1))
  let q1 := { q with rxSeq := (q.rxSeq + 1) % 65536, asking := false }
  let q2 := if 128 ≤ flitByte f 0 then q1.deliver vc bytes else { q1 with partials := vmod q1.partials vc (fun _ => bytes) }
  if flitByte f 0 < 128 ∧ (q2.rxSeq + 65536 - q2.rxAcked) % 65536 < 64 then q2
  else { q2.send [seqFlit 2 ((q2.rxSeq + 65535) % 65536)] with rxAcked := q2.rxSeq }

/-! ### Events of a port -/

/-- DATA_FLIT_RECEIVE: taken in sequence, or discarded with a replay request; while one is out, only a damaged flit asks
again (R378, R379). -/
def execDataFlitReceive (port : Nat) (flit : BitVec 512) (damaged : Bool) (s : State) : Answer :=
  let q := s.portAt port
  if !q.up then .next s
  else if damaged then .next (s.askReplay port)
  else if flitNat flit 2 2 ≠ q.rxSeq then .next (if q.asking then s else s.askReplay port)
  else .next (s.modPort port (fun q => q.takeFlit flit))

/-- The sequence of the oldest flit kept. -/
def Port.oldest (q : Port) : Nat := (q.txSeq + 65536 - q.unacked.length % 65536) % 65536

/-- ACK_RECEIVE: the flits up to the sequence are released (R379). -/
def execAckReceive (port : Nat) (flit : BitVec 512) (s : State) : Answer :=
  .next (if !(s.portAt port).up then s
    else s.modPort port (fun q =>
      let k := (flitNat flit 4 2 + 65536 - q.oldest + 1) % 65536
      if k ≤ q.unacked.length then { q with unacked := q.unacked.drop k } else q))

/-- REPLAY_REQUEST_RECEIVE: every flit from the sequence on is sent again and counted; the eighth request in a row for one
sequence brings the port down (R379, R380). -/
def execReplayRequestReceive (port : Nat) (flit : BitVec 512) (s : State) : Answer :=
  let q := s.portAt port
  if !q.up then .next s
  else
    let seq := flitNat flit 4 2
    let again := q.unacked.drop ((seq + 65536 - q.oldest) % 65536)
    let run := runOf q.lastReq q.reqRun seq
    let s1 := s.modPort port (fun q =>
      { q.send again with replays := min (q.replays + again.length) (2 ^ 31 - 1), lastReq := seq, reqRun := run })
    .next (if 8 ≤ run then s1.portFails port else s1)

/-- Slots released to a channel (R377); the first release tells this end that the far end has enabled it (log 23). -/
def Port.credit (q : Port) (vc k : Nat) : Port :=
  if k = 0 then q
  else { q with farEn := q.farEn ||| BitVec.ofNat 8 (2 ^ vc), credits := vmod q.credits vc (fun c => min 8 (c + k)) }

/-- CREDIT_RECEIVE: slots released for channels 0–7 (R377, R378). -/
def execCreditReceive (port : Nat) (flit : BitVec 512) (s : State) : Answer :=
  .next (if !(s.portAt port).up then s
    else s.modPort port (fun q => (List.range 8).foldl (fun z v => z.credit v (flitByte flit (4 + v))) q))

/-- UNKNOWN_FLIT_TYPE_RECEIVE: discarded, and counted (R378). -/
def execUnknownFlitTypeReceive (port : Nat) (_ : BitVec 512) (s : State) : Answer :=
  .next (if !(s.portAt port).up then s else s.modPort port (fun q => { q with badTypes := q.badTypes + 1 }))

/-- PORT_DOWN (R380). -/
def execPortDown (port : Nat) (s : State) : Answer := .next (s.portFails port)

/-- PORT_RETRAIN: a port comes up (R380). -/
def execPortRetrain (port : Nat) (s : State) : Answer :=
  .next (if (s.portAt port).up then s else s.modPort port Port.retrained)

/-- Slots of a channel released to the far end by a credit flit (R377, R378). -/
def Port.release (q : Port) (vc k : Nat) : Port := { q.send [creditFlit vc k] with given := vmod q.given vc (· + k) }

/-- The slots of a channel that are free and that the far end has no credit for (R377). -/
def Port.unreleased (q : Port) (vc : Nat) : Nat := 8 - (vget [] q.slots vc).length - vget 0 q.given vc

/-- Channels of a port set by LINKCFG for a partition's grant (R266, R369, R377): a newly enabled channel restarts its sequences
and releases its free slots to the far end, but for those that the far end still has credits for. -/
def Port.configure (q : Port) (grant en comp : BitVec 8) : Port :=
  let fresh := (List.range 8).filter (fun v => chanBit en v && !chanBit q.en v)
  let q1 := { q with en := (q.en &&& ~~~grant) ||| en, comp := (q.comp &&& ~~~grant) ||| comp }
  if !q.up then q
  else fresh.foldl (fun z v =>
    { z.release v (z.unreleased v) with
      txFrames := vmod z.txFrames v (fun _ => 0), rxFrames := vmod z.rxFrames v (fun _ => 0),
      partials := vmod z.partials v (fun _ => []) }) q1

/-- LINKSTAT's result (R266). -/
def Port.linkstat (q : Port) (grant : BitVec 8) : BitVec 64 :=
  BitVec.ofNat 64 ((q.en &&& grant).toNat + 256 * (q.comp &&& grant).toNat + 65536 * q.up.toNat + 2 ^ 32 * min q.replays (2 ^ 31 - 1))

end Sys2Proof.Machine
end

