-- ==== Sys2Proof/Decode.lean ====
section
/-!
DEFINITION. Decoding, total on any bits: a scalar word (R212–R213), a command image (R243, R247) or a node record
(R48–R60) becomes an instruction or is refused by name; and after it the encoders of well-formed instructions, written
from the same tables.
-/

namespace Sys2Proof

/-- Why bits are no instruction (R213 for words, R60 for records). -/
inductive DecodeError where
  | unassignedOpcode
  | unassignedFn
  | nonzeroField
  | fieldOutOfRange
  deriving DecidableEq, Repr

/-- An instruction whose required-zero fields are checked (R213). -/
def zeroed (c : Bool) (i : Instr) : Except DecodeError Instr :=
  if c then .ok i else .error .nonzeroField

/-- The RR ALU instructions, opcode 0x00, by fn (R214). -/
def decodeAlu (w : BitVec 32) : Except DecodeError Instr :=
  let d : Reg := w.extractLsb' 21 5
  let a : Reg := w.extractLsb' 16 5
  let b : Reg := w.extractLsb' 11 5
  match (w.extractLsb' 0 11).toNat with
  | 0x00 => .ok (.add d a b)
  | 0x01 => .ok (.sub d a b)
  | 0x02 => .ok (.and d a b)
  | 0x03 => .ok (.or d a b)
  | 0x04 => .ok (.xor d a b)
  | 0x05 => .ok (.sll d a b)
  | 0x06 => .ok (.srl d a b)
  | 0x07 => .ok (.sra d a b)
  | 0x08 => .ok (.slt d a b)
  | 0x09 => .ok (.sltu d a b)
  | 0x0A => .ok (.mul d a b)
  | 0x0B => .ok (.mulh d a b)
  | 0x0C => .ok (.mulhu d a b)
  | 0x0D => .ok (.div d a b)
  | 0x0E => .ok (.divu d a b)
  | 0x0F => .ok (.rem d a b)
  | 0x10 => .ok (.remu d a b)
  | 0x11 => .ok (.min d a b)
  | 0x12 => .ok (.max d a b)
  | 0x13 => .ok (.minu d a b)
  | 0x14 => .ok (.maxu d a b)
  | 0x15 => zeroed (b == 0) (.clz d a)
  | 0x16 => zeroed (b == 0) (.ctz d a)
  | 0x17 => zeroed (b == 0) (.popc d a)
  | _ => .error .unassignedFn

/-- The AMO format, opcode 0x24 (R212, R221). -/
def decodeAmo (w : BitVec 32) : Except DecodeError Instr :=
  let d : Reg := w.extractLsb' 21 5
  let a : Reg := w.extractLsb' 16 5
  let b : Reg := w.extractLsb' 11 5
  let scope : BitVec 3 := w.extractLsb' 8 3
  let narrow := w.getLsbD 4
  let ok (i : Instr) : Except DecodeError Instr :=
    if w.extractLsb' 5 3 ≠ 0 then .error .nonzeroField
    else if scopeOk scope then .ok i else .error .fieldOutOfRange
  match (w.extractLsb' 0 4).toNat with
  | 0x0 => ok (.amoadd d a b scope narrow)
  | 0x1 => ok (.amoswap d a b scope narrow)
  | 0x2 => ok (.amocas d a b scope narrow)
  | 0x3 => ok (.amomin d a b scope narrow)
  | 0x4 => ok (.amomax d a b scope narrow)
  | 0x5 => ok (.amominu d a b scope narrow)
  | 0x6 => ok (.amomaxu d a b scope narrow)
  | 0x7 => ok (.amoand d a b scope narrow)
  | 0x8 => ok (.amoor d a b scope narrow)
  | 0x9 => ok (.amoxor d a b scope narrow)
  | _ => .error .unassignedFn

/-- The shift immediates, opcode 0x07 (R216). -/
def decodeShift (w : BitVec 32) : Except DecodeError Instr :=
  let d : Reg := w.extractLsb' 21 5
  let a : Reg := w.extractLsb' 16 5
  let sh : BitVec 6 := w.extractLsb' 0 6
  let z := w.extractLsb' 6 8 == 0
  match (w.extractLsb' 14 2).toNat with
  | 0 => zeroed z (.slli d a sh)
  | 1 => zeroed z (.srli d a sh)
  | 2 => zeroed z (.srai d a sh)
  | _ => .error .fieldOutOfRange

/-- The barrier instructions, opcode 0x2F (R232). -/
def decodeBarrier (w : BitVec 32) : Except DecodeError Instr :=
  let d : Reg := w.extractLsb' 21 5
  let a : Reg := w.extractLsb' 16 5
  let k : BitVec 4 := w.extractLsb' 4 4
  let z := w.extractLsb' 8 8 == 0
  match (w.extractLsb' 0 4).toNat with
  | 0 => zeroed (z && d == 0) (.bari a k)
  | 1 => zeroed (z && d == 0) (.bara a k)
  | 2 => zeroed z (.barw d a k)
  | 3 => zeroed z (.baraw d a k)
  | _ => .error .unassignedFn

/-- The CSR instructions, opcode 0x38 (R235). -/
def decodeCsr (w : BitVec 32) : Except DecodeError Instr :=
  let d : Reg := w.extractLsb' 21 5
  let a : Reg := w.extractLsb' 16 5
  let csr : BitVec 12 := w.extractLsb' 4 12
  match (w.extractLsb' 0 4).toNat with
  | 0 => zeroed (a == 0) (.csrr d csr)
  | 1 => zeroed (d == 0) (.csrw a csr)
  | 2 => zeroed (d == 0) (.csrs a csr)
  | 3 => zeroed (d == 0) (.csrc a csr)
  | _ => .error .unassignedFn

/-- A scalar instruction word, by its major opcode (R213). -/
def decodeWord (w : BitVec 32) : Except DecodeError Instr :=
  let d : Reg := w.extractLsb' 21 5
  let a : Reg := w.extractLsb' 16 5
  let b : Reg := w.extractLsb' 11 5
  let imm : BitVec 16 := w.extractLsb' 0 16
  let fn : BitVec 11 := w.extractLsb' 0 11
  let cr : BitVec 3 := w.extractLsb' 23 3
  match (w.extractLsb' 26 6).toNat with
  | 0x00 => decodeAlu w
  | 0x01 => .ok (.addi d a imm)
  | 0x02 => .ok (.andi d a imm)
  | 0x03 => .ok (.ori d a imm)
  | 0x04 => .ok (.xori d a imm)
  | 0x05 => .ok (.slti d a imm)
  | 0x06 => .ok (.sltiu d a imm)
  | 0x07 => decodeShift w
  | 0x08 => zeroed (a == 0) (.lui d imm)
  | 0x09 => zeroed (a == 0) (.luih d imm)
  | 0x10 => .ok (.beq d a imm)
  | 0x11 => .ok (.bne d a imm)
  | 0x12 => .ok (.blt d a imm)
  | 0x13 => .ok (.bge d a imm)
  | 0x14 => .ok (.bltu d a imm)
  | 0x15 => .ok (.bgeu d a imm)
  | 0x16 => .ok (.jal (w.extractLsb' 0 26))
  | 0x17 => .ok (.jalr d a imm)
  | 0x18 => .ok (.ldb d a imm)
  | 0x19 => .ok (.ldbu d a imm)
  | 0x1A => .ok (.ldh d a imm)
  | 0x1B => .ok (.ldhu d a imm)
  | 0x1C => .ok (.ldw d a imm)
  | 0x1D => .ok (.ldwu d a imm)
  | 0x1E => .ok (.ldd d a imm)
  | 0x20 => .ok (.stb d a imm)
  | 0x21 => .ok (.sth d a imm)
  | 0x22 => .ok (.stw d a imm)
  | 0x23 => .ok (.std d a imm)
  | 0x24 => decodeAmo w
  | 0x25 =>
    if w.extractLsb' 7 19 ≠ 0 || w.extractLsb' 0 4 ≠ 0 then .error .nonzeroField
    else if scopeOk (w.extractLsb' 4 3) then .ok (.fence (w.extractLsb' 4 3)) else .error .fieldOutOfRange
  | 0x28 => zeroed (w.extractLsb' 21 2 == 0 && fn == 0) (.cmdw cr a b)
  | 0x29 => zeroed (w.extractLsb' 21 2 == 0) (.cmdld cr a imm)
  | 0x2A => zeroed (fn == 0) (.cmdi cr (w.extractLsb' 11 12))
  | 0x2B => zeroed (w.extractLsb' 14 2 == 0 && fn == 0) (.cmdq d a (w.extractLsb' 11 3))
  | 0x2C => zeroed (d == 0 && w.extractLsb' 3 8 == 0) (.tsend a b (w.extractLsb' 0 3))
  | 0x2D => zeroed (w.extractLsb' 7 9 == 0 && w.extractLsb' 0 4 == 0) (.trecv d a (w.extractLsb' 4 3))
  | 0x2E => zeroed (w.extractLsb' 6 10 == 0 && w.extractLsb' 0 4 == 0) (.iwait d a (w.extractLsb' 4 2))
  | 0x2F => decodeBarrier w
  | 0x30 => zeroed (fn == 0) (.sig d a b)
  | 0x31 => zeroed (b == 0 && fn == 0) (.spawn d a)
  | 0x32 => zeroed (b == 0 && fn == 0) (.join d a)
  | 0x38 => decodeCsr w
  | 0x39 => zeroed (d == 0 && a == 0 && w.extractLsb' 0 4 == 0) (.trap (w.extractLsb' 4 12))
  | 0x3A => zeroed (w.extractLsb' 0 26 == 0) .tret
  | 0x3B => zeroed (w.extractLsb' 0 26 == 0) .yield
  | 0x3C => zeroed (w.extractLsb' 0 26 == 0) .synci
  | 0x3D => zeroed (d == 0 && a == 0 && w.extractLsb' 0 4 == 0) (.brk (w.extractLsb' 4 12))
  | _ => .error .unassignedOpcode

/-- The fields of a command image (R243). -/
def commandArgs (w : BitVec 128) : CmdArgs :=
  { target := w.extractLsb' 16 16, flags := w.extractLsb' 8 8, w1 := w.extractLsb' 32 32,
    w2 := w.extractLsb' 64 32, w3 := w.extractLsb' 96 32 }

/-- A command image, by its code (R247); an unassigned code is an instruction of its own, which the unit rejects. -/
def decodeCommand (w : BitVec 128) : Instr :=
  let c := commandArgs w
  match (w.extractLsb' 0 8).toNat with
  | 0x01 => .feed c
  | 0x02 => .bindw c
  | 0x03 => .bound c
  | 0x04 => .steert c
  | 0x05 => .inject c
  | 0x06 => .retry c
  | 0x08 => .tarm c
  | 0x09 => .tfire c
  | 0x0A => .tdisarm c
  | 0x0B => .copy c
  | 0x10 => .cfgld c
  | 0x11 => .cfgq c
  | 0x12 => .domgo c
  | 0x13 => .domstop c
  | 0x14 => .domsave c
  | 0x15 => .domload c
  | 0x18 => .wheeldef c
  | 0x19 => .hubrd c
  | 0x20 => .lxrun c
  | 0x21 => .amxr c
  | 0x22 => .ckpt c
  | 0x23 => .ckdrain c
  | 0x24 => .bkey c
  | 0x28 => .linkcfg c
  | 0x29 => .linkstat c
  | _ => .unassignedCommandCode (w.extractLsb' 0 8) c

/-- The fields of a node record (R49, R54–R57). -/
def nodeFields (w : BitVec 256) : NodeRec :=
  { fmt := w.extractLsb' 8 6, abs := w.extractLsb' 14 2, rnd := w.extractLsb' 16 2, bsm := w.extractLsb' 18 2,
    blen := w.extractLsb' 20 6, dom := w.extractLsb' 26 2, var := w.extractLsb' 28 4,
    inA := w.extractLsb' 32 8, inB := w.extractLsb' 40 8, inC := w.extractLsb' 48 8,
    ad := w.getLsbD 56, bd := w.getLsbD 57, cd := w.getLsbD 58, aft := w.getLsbD 59, rsv1 := w.extractLsb' 60 4,
    outX := w.extractLsb' 64 12, outY := w.extractLsb' 76 12, aftSrc := w.extractLsb' 88 8,
    k0 := w.extractLsb' 96 32, k1 := w.extractLsb' 128 32, k2 := w.extractLsb' 160 32, k3 := w.extractLsb' 192 32,
    stOff := w.extractLsb' 224 16, rsv7 := w.extractLsb' 240 16 }

/-- The instruction of a node opcode with the record's fields (R60); VAR bit 0 parts ADOT.W from ADOT.P and ACC from
ACC.F. -/
def decodeNodeOp (op : Nat) (r : NodeRec) : Except DecodeError Instr :=
  match op with
  | 0x00 => .ok (.pass r)
  | 0x01 => .ok (.src r)
  | 0x02 => .ok (.sink r)
  | 0x03 => .ok (.esink r)
  | 0x04 => .ok (.cpyt r)
  | 0x10 => .ok (.aadd r)
  | 0x11 => .ok (.asub r)
  | 0x12 => .ok (.ahad r)
  | 0x13 => .ok (.amax r)
  | 0x14 => .ok (.amin r)
  | 0x15 => .ok (.asel r)
  | 0x16 => .ok (.afma r)
  | 0x20 => .ok (.aneg r)
  | 0x21 => .ok (.aabs r)
  | 0x22 => .ok (.arelu r)
  | 0x23 => .ok (.ascl r)
  | 0x24 => .ok (.amask r)
  | 0x25 => .ok (.aclmp r)
  | 0x26 => .ok (.aren r)
  | 0x28 => .ok (.aexp2 r)
  | 0x29 => .ok (.alog2 r)
  | 0x2A => .ok (.arcp r)
  | 0x2B => .ok (.arsq r)
  | 0x2C => .ok (.asqrt r)
  | 0x2D => .ok (.atanh r)
  | 0x2E => .ok (.asigm r)
  | 0x30 => .ok (if r.var.getLsbD 0 then .adotP r else .adotW r)
  | 0x31 => .ok (.adott r)
  | 0x32 => .ok (.aoutr r)
  | 0x33 => .ok (.anrm r)
  | 0x34 => .ok (.alsum r)
  | 0x35 => .ok (.amaxr r)
  | 0x40 => .ok (if r.var.getLsbD 0 then .accF r else .acc r)
  | 0x41 => .ok (.acck r)
  | 0x42 => .ok (.drain r)
  | 0x43 => .ok (.dlyb r)
  | 0x44 => .ok (.conv r)
  | 0x50 => .ok (.enc r)
  | 0x51 => .ok (.dec r)
  | 0x60 => .ok (.steer r)
  | 0x61 => .ok (.omerge r)
  | 0x62 => .ok (.pmerge r)
  | 0x63 => .ok (.filter r)
  | 0x64 => .ok (.repl r)
  | 0x65 => .ok (.cnt r)
  | 0x66 => .ok (.isect r)
  | 0x67 => .ok (.union r)
  | 0x68 => .ok (.pres r)
  | 0x69 => .ok (.dflt r)
  | 0x6A => .ok (.pre r)
  | 0x6B => .ok (.when r)
  | 0x6C => .ok (.sync r)
  | 0x6D => .ok (.level r)
  | 0x70 => .ok (.iadd r)
  | 0x71 => .ok (.isub r)
  | 0x72 => .ok (.imul r)
  | 0x73 => .ok (.ilog r)
  | 0x74 => .ok (.ishf r)
  | 0x75 => .ok (.icmp r)
  | 0x76 => .ok (.irng r)
  | 0x77 => .ok (.ihash r)
  | 0x78 => .ok (.plog r)
  | 0x80 => .ok (.mrd r)
  | 0x81 => .ok (.mwr r)
  | 0x82 => .ok (.mird r)
  | 0x83 => .ok (.miwr r)
  | 0x84 => .ok (.mrmw r)
  | 0x85 => .ok (.mgrp r)
  | 0x86 => .ok (.mgld r)
  | 0x87 => .ok (.mgst r)
  | 0x88 => .ok (.mfifo r)
  | 0x89 => .ok (.mline r)
  | 0x90 => .ok (.ltx r)
  | 0x91 => .ok (.lrx r)
  | 0x92 => .ok (.sreq r)
  | 0x93 => .ok (.red2 r)
  | 0x94 => .ok (.statw r)
  | _ => .error .unassignedOpcode

/-- A node record, 256 bits, w0 lowest (R48). -/
def decodeNode (w : BitVec 256) : Except DecodeError Instr :=
  decodeNodeOp (w.extractLsb' 0 8).toNat (nodeFields w)

/-- The instruction this decoder reads from bits numbered as the opcode table numbers them: a scalar word of 32 bits, a
command image of 128 or a node record of 256. An illegal word is no instruction of the table's encodings. -/
def decodeTableWord (nbits w : Nat) : Option Instr :=
  if nbits ≤ 32 then (decodeWord (BitVec.ofNat 32 w)).toOption
  else if nbits ≤ 128 then some (decodeCommand (BitVec.ofNat 128 w))
  else if nbits ≤ 256 then (decodeNode (BitVec.ofNat 256 w)).toOption
  else none

/-! ### Encoders -/

/-- The bits that encode an instruction; an event has none. -/
inductive Code where
  | scalar (w : BitVec 32)
  | command (w : BitVec 128)
  | node (w : BitVec 256)
  | event
  deriving DecidableEq, Repr

/-- A word of the formats whose fields are op, sd, sa and a low half (R212). -/
def wordOf (op : BitVec 6) (d a : Reg) (low : BitVec 16) : BitVec 32 := op ++ d ++ a ++ low

/-- The low half of the RR format (R212). -/
def lowRR (b : Reg) (fn : BitVec 11) : BitVec 16 := b ++ fn

/-- The low half of the SYS format (R212). -/
def lowSys (imm : BitVec 12) (fn : BitVec 4) : BitVec 16 := imm ++ fn

/-- The low half of the AMO format (R212, R221). -/
def lowAmo (b : Reg) (scope : BitVec 3) (narrow : Bool) (fn : BitVec 4) : BitVec 16 :=
  b ++ scope ++ 0#3 ++ BitVec.ofBool narrow ++ fn

/-- The immediate of a shift (R216). -/
def lowShift (kind : BitVec 2) (sh : BitVec 6) : BitVec 16 := kind ++ 0#8 ++ sh

/-- The word of a jump (R212). -/
def wordJ (op : BitVec 6) (off : BitVec 26) : BitVec 32 := op ++ off

/-- A command register's number in the sd field (R225, R226). -/
def crField (c : BitVec 3) : BitVec 5 := c ++ 0#2

/-- The word of a CMDI (R226). -/
def wordCmdi (op : BitVec 6) (c : BitVec 3) (target : BitVec 12) : BitVec 32 := op ++ c ++ target ++ 0#11

/-- The RR format (R212). -/
def encRR (op : BitVec 6) (d a b : Reg) (fn : BitVec 11) : Code := .scalar (wordOf op d a (lowRR b fn))

/-- The RI, MEM and BR formats (R212). -/
def encRI (op : BitVec 6) (d a : Reg) (imm : BitVec 16) : Code := .scalar (wordOf op d a imm)

/-- The AMO format (R212, R221). -/
def encAmo (fn : BitVec 4) (d a b : Reg) (scope : BitVec 3) (narrow : Bool) : Code :=
  .scalar (wordOf 0x24 d a (lowAmo b scope narrow fn))

/-- The SYS format (R212). -/
def encSys (op : BitVec 6) (d a : Reg) (imm : BitVec 12) (fn : BitVec 4) : Code := .scalar (wordOf op d a (lowSys imm fn))

/-- The image of a command (R243). -/
def commandWord (code : BitVec 8) (c : CmdArgs) : BitVec 128 := c.w3 ++ c.w2 ++ c.w1 ++ c.target ++ c.flags ++ code

/-- A command image (R243). -/
def encCmd (code : BitVec 8) (c : CmdArgs) : Code := .command (commandWord code c)

/-- Word w0 of a record (R49). -/
def NodeRec.word0 (op : BitVec 8) (r : NodeRec) : BitVec 32 :=
  r.var ++ r.dom ++ r.blen ++ r.bsm ++ r.rnd ++ r.abs ++ r.fmt ++ op

/-- Word w1 of a record (R54). -/
def NodeRec.word1 (r : NodeRec) : BitVec 32 :=
  r.rsv1 ++ BitVec.ofBool r.aft ++ BitVec.ofBool r.cd ++ BitVec.ofBool r.bd ++ BitVec.ofBool r.ad ++ r.inC ++ r.inB ++ r.inA

/-- Word w2 of a record (R55). -/
def NodeRec.word2 (r : NodeRec) : BitVec 32 := r.aftSrc ++ r.outY ++ r.outX

/-- Word w7 of a record (R57). -/
def NodeRec.word7 (r : NodeRec) : BitVec 32 := r.rsv7 ++ r.stOff

/-- The bits of a node record, w0 lowest (R48). -/
def nodeWord (op : BitVec 8) (r : NodeRec) : BitVec 256 :=
  r.word7 ++ r.k3 ++ r.k2 ++ r.k1 ++ r.k0 ++ r.word2 ++ r.word1 ++ r.word0 op

/-- A node record (R48). -/
def encNode (op : BitVec 8) (r : NodeRec) : Code := .node (nodeWord op r)

/-- The bits of an instruction, from the encodings of R212–R241, R243–R247 and R48–R60. -/
def encode : Instr → Code
  | .add d a b => encRR 0x00 d a b 0x000
  | .sub d a b => encRR 0x00 d a b 0x001
  | .and d a b => encRR 0x00 d a b 0x002
  | .or d a b => encRR 0x00 d a b 0x003
  | .xor d a b => encRR 0x00 d a b 0x004
  | .sll d a b => encRR 0x00 d a b 0x005
  | .srl d a b => encRR 0x00 d a b 0x006
  | .sra d a b => encRR 0x00 d a b 0x007
  | .slt d a b => encRR 0x00 d a b 0x008
  | .sltu d a b => encRR 0x00 d a b 0x009
  | .mul d a b => encRR 0x00 d a b 0x00A
  | .mulh d a b => encRR 0x00 d a b 0x00B
  | .mulhu d a b => encRR 0x00 d a b 0x00C
  | .div d a b => encRR 0x00 d a b 0x00D
  | .divu d a b => encRR 0x00 d a b 0x00E
  | .rem d a b => encRR 0x00 d a b 0x00F
  | .remu d a b => encRR 0x00 d a b 0x010
  | .min d a b => encRR 0x00 d a b 0x011
  | .max d a b => encRR 0x00 d a b 0x012
  | .minu d a b => encRR 0x00 d a b 0x013
  | .maxu d a b => encRR 0x00 d a b 0x014
  | .clz d a => encRR 0x00 d a 0 0x015
  | .ctz d a => encRR 0x00 d a 0 0x016
  | .popc d a => encRR 0x00 d a 0 0x017
  | .addi d a imm => encRI 0x01 d a imm
  | .andi d a imm => encRI 0x02 d a imm
  | .ori d a imm => encRI 0x03 d a imm
  | .xori d a imm => encRI 0x04 d a imm
  | .slti d a imm => encRI 0x05 d a imm
  | .sltiu d a imm => encRI 0x06 d a imm
  | .slli d a sh => encRI 0x07 d a (lowShift 0 sh)
  | .srli d a sh => encRI 0x07 d a (lowShift 1 sh)
  | .srai d a sh => encRI 0x07 d a (lowShift 2 sh)
  | .lui d imm => encRI 0x08 d 0 imm
  | .luih d imm => encRI 0x09 d 0 imm
  | .beq a b off => encRI 0x10 a b off
  | .bne a b off => encRI 0x11 a b off
  | .blt a b off => encRI 0x12 a b off
  | .bge a b off => encRI 0x13 a b off
  | .bltu a b off => encRI 0x14 a b off
  | .bgeu a b off => encRI 0x15 a b off
  | .jal off => .scalar (wordJ 0x16 off)
  | .jalr d a imm => encRI 0x17 d a imm
  | .ldb d a imm => encRI 0x18 d a imm
  | .ldbu d a imm => encRI 0x19 d a imm
  | .ldh d a imm => encRI 0x1A d a imm
  | .ldhu d a imm => encRI 0x1B d a imm
  | .ldw d a imm => encRI 0x1C d a imm
  | .ldwu d a imm => encRI 0x1D d a imm
  | .ldd d a imm => encRI 0x1E d a imm
  | .stb r a imm => encRI 0x20 r a imm
  | .sth r a imm => encRI 0x21 r a imm
  | .stw r a imm => encRI 0x22 r a imm
  | .std r a imm => encRI 0x23 r a imm
  | .amoadd d a b scope narrow => encAmo 0x0 d a b scope narrow
  | .amoswap d a b scope narrow => encAmo 0x1 d a b scope narrow
  | .amocas d a b scope narrow => encAmo 0x2 d a b scope narrow
  | .amomin d a b scope narrow => encAmo 0x3 d a b scope narrow
  | .amomax d a b scope narrow => encAmo 0x4 d a b scope narrow
  | .amominu d a b scope narrow => encAmo 0x5 d a b scope narrow
  | .amomaxu d a b scope narrow => encAmo 0x6 d a b scope narrow
  | .amoand d a b scope narrow => encAmo 0x7 d a b scope narrow
  | .amoor d a b scope narrow => encAmo 0x8 d a b scope narrow
  | .amoxor d a b scope narrow => encAmo 0x9 d a b scope narrow
  | .fence scope => encSys 0x25 0 0 (0#9 ++ scope) 0
  | .cmdw c a b => encRR 0x28 (crField c) a b 0
  | .cmdld c a imm => encRI 0x29 (crField c) a imm
  | .cmdi c target => .scalar (wordCmdi 0x2A c target)
  | .cmdq d a c => encRR 0x2B d a (0#2 ++ c) 0
  | .tsend a b box => encRR 0x2C 0 a b (0#8 ++ box)
  | .trecv d a box => encSys 0x2D d a (0#9 ++ box) 0
  | .iwait d a dom => encSys 0x2E d a (0#10 ++ dom) 0
  | .bari a k => encSys 0x2F 0 a (0#8 ++ k) 0
  | .bara a k => encSys 0x2F 0 a (0#8 ++ k) 1
  | .barw d a k => encSys 0x2F d a (0#8 ++ k) 2
  | .baraw d a k => encSys 0x2F d a (0#8 ++ k) 3
  | .sig d a b => encRR 0x30 d a b 0
  | .spawn d a => encRR 0x31 d a 0 0
  | .join d a => encRR 0x32 d a 0 0
  | .csrr d csr => encSys 0x38 d 0 csr 0
  | .csrw a csr => encSys 0x38 0 a csr 1
  | .csrs a csr => encSys 0x38 0 a csr 2
  | .csrc a csr => encSys 0x38 0 a csr 3
  | .trap code => encSys 0x39 0 0 code 0
  | .tret => .scalar (wordJ 0x3A 0)
  | .yield => .scalar (wordJ 0x3B 0)
  | .synci => .scalar (wordJ 0x3C 0)
  | .brk code => encSys 0x3D 0 0 code 0
  | .watchdog _ => .event
  | .hostServiceAnswer _ _ => .event
  | .feed c => encCmd 0x01 c
  | .bindw c => encCmd 0x02 c
  | .bound c => encCmd 0x03 c
  | .steert c => encCmd 0x04 c
  | .inject c => encCmd 0x05 c
  | .retry c => encCmd 0x06 c
  | .tarm c => encCmd 0x08 c
  | .tfire c => encCmd 0x09 c
  | .tdisarm c => encCmd 0x0A c
  | .copy c => encCmd 0x0B c
  | .lxrun c => encCmd 0x20 c
  | .cfgld c => encCmd 0x10 c
  | .cfgq c => encCmd 0x11 c
  | .domgo c => encCmd 0x12 c
  | .domstop c => encCmd 0x13 c
  | .domsave c => encCmd 0x14 c
  | .domload c => encCmd 0x15 c
  | .wheeldef c => encCmd 0x18 c
  | .hubrd c => encCmd 0x19 c
  | .amxr c => encCmd 0x21 c
  | .ckpt c => encCmd 0x22 c
  | .ckdrain c => encCmd 0x23 c
  | .bkey c => encCmd 0x24 c
  | .linkcfg c => encCmd 0x28 c
  | .linkstat c => encCmd 0x29 c
  | .domainInstantEnd _ _ => .event
  | .remoteStatusReceive _ _ _ => .event
  | .quiescenceSample _ => .event
  | .pathClockGate _ _ => .event
  | .bankKeyMove _ _ => .event
  | .pass r => encNode 0x00 r
  | .src r => encNode 0x01 r
  | .sink r => encNode 0x02 r
  | .esink r => encNode 0x03 r
  | .cpyt r => encNode 0x04 r
  | .ltx r => encNode 0x90 r
  | .lrx r => encNode 0x91 r
  | .sreq r => encNode 0x92 r
  | .red2 r => encNode 0x93 r
  | .statw r => encNode 0x94 r
  | .aadd r => encNode 0x10 r
  | .asub r => encNode 0x11 r
  | .ahad r => encNode 0x12 r
  | .amax r => encNode 0x13 r
  | .amin r => encNode 0x14 r
  | .asel r => encNode 0x15 r
  | .afma r => encNode 0x16 r
  | .aneg r => encNode 0x20 r
  | .aabs r => encNode 0x21 r
  | .arelu r => encNode 0x22 r
  | .ascl r => encNode 0x23 r
  | .amask r => encNode 0x24 r
  | .aclmp r => encNode 0x25 r
  | .aren r => encNode 0x26 r
  | .aexp2 r => encNode 0x28 r
  | .alog2 r => encNode 0x29 r
  | .arcp r => encNode 0x2A r
  | .arsq r => encNode 0x2B r
  | .asqrt r => encNode 0x2C r
  | .atanh r => encNode 0x2D r
  | .asigm r => encNode 0x2E r
  | .adotW r => encNode 0x30 r
  | .adotP r => encNode 0x30 r
  | .adott r => encNode 0x31 r
  | .aoutr r => encNode 0x32 r
  | .anrm r => encNode 0x33 r
  | .alsum r => encNode 0x34 r
  | .amaxr r => encNode 0x35 r
  | .enc r => encNode 0x50 r
  | .dec r => encNode 0x51 r
  | .acc r => encNode 0x40 r
  | .accF r => encNode 0x40 r
  | .acck r => encNode 0x41 r
  | .drain r => encNode 0x42 r
  | .dlyb r => encNode 0x43 r
  | .conv r => encNode 0x44 r
  | .mrd r => encNode 0x80 r
  | .mwr r => encNode 0x81 r
  | .mird r => encNode 0x82 r
  | .miwr r => encNode 0x83 r
  | .mrmw r => encNode 0x84 r
  | .mgrp r => encNode 0x85 r
  | .mgld r => encNode 0x86 r
  | .mgst r => encNode 0x87 r
  | .mfifo r => encNode 0x88 r
  | .mline r => encNode 0x89 r
  | .steer r => encNode 0x60 r
  | .omerge r => encNode 0x61 r
  | .pmerge r => encNode 0x62 r
  | .filter r => encNode 0x63 r
  | .repl r => encNode 0x64 r
  | .cnt r => encNode 0x65 r
  | .isect r => encNode 0x66 r
  | .union r => encNode 0x67 r
  | .pres r => encNode 0x68 r
  | .dflt r => encNode 0x69 r
  | .pre r => encNode 0x6A r
  | .when r => encNode 0x6B r
  | .sync r => encNode 0x6C r
  | .level r => encNode 0x6D r
  | .iadd r => encNode 0x70 r
  | .isub r => encNode 0x71 r
  | .imul r => encNode 0x72 r
  | .ilog r => encNode 0x73 r
  | .ishf r => encNode 0x74 r
  | .icmp r => encNode 0x75 r
  | .irng r => encNode 0x76 r
  | .ihash r => encNode 0x77 r
  | .plog r => encNode 0x78 r
  | .copyStart _ => .event
  | .copyComplete _ => .event
  | .endOfTileDelivery _ => .event
  | .pageWalkComplete _ _ _ => .event
  | .tlbInvalidation _ => .event
  | .checkpointDrainComplete _ _ => .event
  | .hubRead _ => .event
  | .barrierArrival _ _ _ => .event
  | .signalArrival _ => .event
  | .queueRecordWrite _ _ _ => .event
  | .qkill _ _ => .event
  | .qerrClear _ _ => .event
  | .hostEventWrite _ _ _ => .event
  | .taskStart => .event
  | .completionEventPost _ => .event
  | .preempt _ => .event
  | .deepSaveTimeout _ => .event
  | .resume _ => .event
  | .taggedBankEvict _ _ => .event
  | .correctedError _ => .event
  | .errorWindowEnd => .event
  | .bankRetire _ _ => .event
  | .coreFailed _ => .event
  | .dataFlitReceive _ _ _ => .event
  | .ackReceive _ _ => .event
  | .replayRequestReceive _ _ => .event
  | .creditReceive _ _ => .event
  | .portDown _ => .event
  | .portRetrain _ => .event
  | .partitionReset _ => .event
  | .resetDoneClear _ => .event
  | .coreRepairTest _ _ => .event
  | .retag _ => .event
  | .registerWrite _ _ _ => .event
  | .boundaryDrop _ _ => .event
  | .firmwareSwitch _ => .event
  | .boot _ => .event
  | .attestationRequest _ _ => .event
  | .powerStateRequest _ _ => .event
  | .powerRefusalClear _ => .event
  | .clockStepChange _ => .event
  | .selfRefreshEnter => .event
  | .selfRefreshExit => .event
  | .illegalInstruction word => .scalar word
  | .instructionFetchFault _ => .event
  | .unassignedCommandCode code c => encCmd code c
  | .firmwareUpdate _ => .event
  | .systemSoftwarePageAnswer _ _ => .event
  | .unknownFlitTypeReceive _ _ => .event

/-- Decoding of encoded bits: an illegal word is the instruction the table gives it (R213). -/
def decodeCode : Code → Option Instr
  | .scalar w =>
    match decodeWord w with
    | .ok i => some i
    | .error _ => some (.illegalInstruction w)
  | .command w => some (decodeCommand w)
  | .node w => (decodeNode w).toOption
  | .event => none

end Sys2Proof
end

