-- ==== Sys2Proof/Machine/Sha.lean ====
section
/-!
DEFINITION. SHA-256 over bytes (R64, R400, R401), structurally recursive. Its constants are computed from the primes they stand
for: the first 32 bits of the fractional parts of square and cube roots.
-/

namespace Sys2Proof.Machine

/-- A big-endian number of bytes. -/
def beNat (l : List Byte) : Nat := l.foldl (fun n b => 256 * n + b.toNat) 0

/-- A number as big-endian bytes. -/
def beBytes (v n : Nat) : List Byte := (bytesOfNat v n).reverse

/-- The first 64 primes: the numbers up to 311 that no smaller prime below 18 divides. -/
def shaPrimes : List Nat :=
  (List.range 312).filter (fun n => decide (2 ≤ n) && [2, 3, 5, 7, 11, 13, 17].all (fun p => n == p || n % p != 0))

/-- The largest root of at most `n` bits above `r` whose power `e` does not pass `v`, found from its highest bit down. -/
def rootUp (e v : Nat) : Nat → Nat → Nat
  | 0, r => r
  | n + 1, r => rootUp e v n (if (r + 2 ^ n) ^ e ≤ v then r + 2 ^ n else r)

/-- The first 32 bits of the fractional part of the root of order `e` of `p`. -/
def rootFrac (e p : Nat) : BitVec 32 := BitVec.ofNat 32 (rootUp e (p * 2 ^ (32 * e)) 40 0)

/-- What is added in each round: the cube roots. -/
def shaCubes : List (BitVec 32) := shaPrimes.map (rootFrac 3)

/-- The hash value before the first block: the square roots of the first eight primes. -/
def shaStart : List (BitVec 32) := (shaPrimes.take 8).map (rootFrac 2)

/-- A word turned right by two or three amounts, the turns summed bit by bit. -/
def turned (x : BitVec 32) (l : List Nat) : BitVec 32 := (l.map x.rotateRight).foldl (· ^^^ ·) 0

/-- `n` more words of a message schedule that is held with its newest word first. -/
def schedule : Nat → List (BitVec 32) → List (BitVec 32)
  | 0, w => w
  | n + 1, w =>
    let old := fun i => w.getD (i - 1) 0
    let near := turned (old 2) [17, 19] ^^^ (old 2 >>> 10)
    let far := turned (old 15) [7, 18] ^^^ (old 15 >>> 3)
    schedule n ((old 16 + far + old 7 + near) :: w)

/-- One round on the eight working words, with the sum of the round's constant and schedule word. -/
def shaTurn : List (BitVec 32) → BitVec 32 → List (BitVec 32)
  | [a, b, c, d, e, f, g, h], k =>
    let pick := g ^^^ (e &&& (f ^^^ g))
    let most := (a &&& b) ||| (c &&& (a ||| b))
    let add := k + pick + h + turned e [6, 11, 25]
    [most + turned a [2, 13, 22] + add, a, b, c, add + d, e, f, g]
  | z, _ => z

/-- The hash value after one block of 64 bytes. -/
def shaBlock (z : List (BitVec 32)) (block : List Byte) : List (BitVec 32) :=
  let w := (chunk 4 block).map (fun b => BitVec.ofNat 32 (beNat b))
  let sums := List.zipWith (· + ·) shaCubes (schedule 48 w.reverse).reverse
  List.zipWith (· + ·) z (sums.foldl shaTurn z)

/-- A message padded to whole blocks. -/
def shaPad (l : List Byte) : List Byte :=
  l ++ 0x80 :: List.replicate ((119 - l.length % 64) % 64) 0 ++ beBytes (8 * l.length) 8

/-- The SHA-256 digest of a message, 32 bytes. -/
def sha256 (l : List Byte) : List Byte :=
  ((chunk 64 (shaPad l)).foldl shaBlock shaStart).flatMap (fun w => beBytes w.toNat 4)

end Sys2Proof.Machine
end

