-- ==== Sys2Proof/Machine/Loader.lean ====
section
/-!
DEFINITION. The loader: an image and its sections (R64–R67), the checks of R69 with the detail word of R70, and the
configuration a successful wave leaves (R134, R135, R316).
-/

namespace Sys2Proof.Machine

/-! ### Failures (R69, R70) -/

/-- A failed check: its code, logical core, what it names (R70 [33:30]) and the index. -/
structure LoadFail where
  code : Nat
  core : Nat
  kind : Nat
  idx  : Nat
  deriving DecidableEq, Repr

/-- The place of a failure in the order of R69: code, core, nodes before table entries, index; an index counts at most 16 bits, as
the table sizes of R65. -/
def LoadFail.rank (f : LoadFail) : Nat := ((f.code * 1024 + f.core) * 16 + f.kind) * 65536 + f.idx % 65536

/-- The failure that R69 reports. -/
def firstFail : List LoadFail → Option LoadFail
  | [] => none
  | f :: t => match firstFail t with
    | some g => if g.rank < f.rank then some g else some f
    | none => some f

/-- The detail word of a failure (R70). An index of 4,096 or more, which [29:18] does not hold, is shown modulo 4,096 (the model's
choice, log 77). -/
def LoadFail.detail (f : LoadFail) : BitVec 64 :=
  BitVec.ofNat 64 (f.code % 256 + f.core % 1024 * 2 ^ 8 + f.idx % 4096 * 2 ^ 18 + f.kind % 16 * 2 ^ 30)

/-- A failure that names a header or nothing (R70). -/
def headFail (code core : Nat) : LoadFail := { code := code, core := core, kind := 7, idx := 0 }

/-- Failures where a check does not hold. -/
def failUnless (ok : Bool) (code core kind idx : Nat) : List LoadFail :=
  if ok then [] else [{ code := code, core := core, kind := kind, idx := idx }]

/-! ### The image (R64) -/

/-- The fields of an image header. -/
structure ImgHead where
  len    : Nat
  h      : Nat
  w      : Nat
  doms   : Nat
  ident  : BitVec 256
  table  : Nat
  count  : Nat
  sound  : Bool
  zero   : Bool
  deriving DecidableEq, Repr

/-- The header of an image; `sound` says whether the fields of check 0x02 meet R64 and R134, `zero` whether its reserved bytes are
zero. -/
def imgHead (b : List Byte) : ImgHead :=
  let len := fieldOf b 8 4
  let h := fieldOf b 0x0C 1
  let w := fieldOf b 0x0D 1
  let d := fieldOf b 0x0E 1
  let t := fieldOf b 0x30 4
  let n := fieldOf b 0x34 2
  { len := len, h := h, w := w, doms := d, ident := BitVec.ofNat 256 (fieldOf b 0x10 32), table := t, count := n,
    sound := fieldOf b 0 4 == 0x31435144 && fieldOf b 4 2 == 1 && fieldOf b 6 2 == 0 && len % 64 == 0 &&
      decide (64 ≤ len ∧ len ≤ 4194304) && t % 8 == 0 && n == h * w && decide (t + 8 * n ≤ len),
    zero := zeroAt b 0x0F 1 && zeroAt b 0x36 10 }

/-- The identity that an image's bytes have: SHA-256 with bytes 0x10–0x2F taken as zero (R64), byte 0 lowest. -/
def imgIdentity (b : List Byte) : BitVec 256 :=
  BitVec.ofNat 256 (natOfBytes (sha256 (b.take 16 ++ List.replicate 32 0 ++ b.drop 48)))

/-! ### Sections (R65–R67) -/

/-- A core section. -/
structure Sect where
  core   : Nat
  bytes  : List Byte
  nodes  : List (Nat × Nat × NodeRec)
  chans  : List (BitVec 64)
  routes : List (BitVec 64)
  sched  : List Nat
  modes  : List MemMode
  words  : List (BitVec 32)
  keys   : List Nat
  delays : List (BitVec 64)
  zero   : Bool
  deriving DecidableEq, Repr

/-- The entries of a table of a section. -/
def tableOf (b : List Byte) (off n w : Nat) : List Nat :=
  (chunk w ((b.drop off).take (n * w))).map natOfBytes

/-- Whether a table lies in its section, on its boundary (R48, R65). -/
def tableOk (len off n align : Nat) : Bool := off % align == 0 && decide (off + n ≤ len)

/-- A memory-mode record of its 16 bytes (R66). -/
def memModeOf (v : Nat) : MemMode :=
  { tile := v % 4, mode := v / 4 % 4, bufs := v / 16 % 4 + 1, owner := v / 256 % 256, base := v / 2 ^ 32 % 2 ^ 32,
    len := v / 2 ^ 64 % 2 ^ 32, param := BitVec.ofNat 32 (v / 2 ^ 96) }

/-- A node of its id and its 256-bit record. -/
def recordNode (x : Nat × Nat) : Nat × Nat × NodeRec := (x.1, x.2 % 256, nodeFields (BitVec.ofNat 256 x.2))

/-- The section of a logical core, or none where the section table, its header or its tables are malformed: 0x02 for that core,
which of a section's own header is the model's choice (log 77). -/
def sectOf (img : List Byte) (hd : ImgHead) (c : Nat) : Option Sect :=
  let off := fieldOf img (hd.table + 8 * c) 4
  let len := fieldOf img (hd.table + 8 * c + 4) 4
  let b := (img.drop off).take len
  let mask := fieldOf b 4 12
  let ids := (List.range 96).filter (fun i => mask / 2 ^ i % 2 == 1)
  let at2 := fun o => fieldOf b o 2
  let at4 := fun o => fieldOf b o 4
  let ok := off % 64 == 0 && decide (64 ≤ len) && decide (off + len ≤ hd.len) && at2 0 == c &&
    decide (at2 0x14 ≤ 256) && decide (at2 0x16 ≤ 4095) && decide (at2 0x26 ≤ 64) &&
    tableOk len (at4 0x10) (32 * ids.length) 32 && tableOk len (at4 0x18) (8 * at2 0x14) 8 &&
    tableOk len (at4 0x1C) (8 * at2 0x16) 8 && tableOk len (at4 0x20) (at2 0x24) 8 &&
    tableOk len (at4 0x28) (16 * at2 0x26) 8 && tableOk len (at4 0x2C) 64 8 && tableOk len (at4 0x30) (8 * at2 0x34) 8
  if !ok then none
  else
    let raw := tableOf b (at4 0x28) (at2 0x26) 16
    some
      { core := c, bytes := b,
        nodes := (List.zip ids (tableOf b (at4 0x10) ids.length 32)).map recordNode,
        chans := (tableOf b (at4 0x18) (at2 0x14) 8).map (BitVec.ofNat 64),
        routes := (tableOf b (at4 0x1C) (at2 0x16) 8).map (BitVec.ofNat 64),
        sched := tableOf b (at4 0x20) (at2 0x24) 1,
        modes := raw.map memModeOf, words := raw.map (fun v => BitVec.ofNat 32 v),
        keys := tableOf b (at4 0x2C) 64 1,
        delays := (tableOf b (at4 0x30) (at2 0x34) 8).map (BitVec.ofNat 64),
        zero := zeroAt b 2 2 && zeroAt b 0x36 10 }

/-- A node of a section. -/
def Sect.node (x : Sect) (id : Nat) : Option (Nat × NodeRec) := (x.nodes.find? (fun n => n.1 == id)).map (fun n => n.2)

/-- A channel entry that a record may name: present and not zero (R69, R197). -/
def Sect.chan (x : Sect) (ep : Nat) : Option (BitVec 64) := (x.chans[ep]?).filter (fun e => e != 0)

/-! ### What a load knows beside the image -/

/-- The surroundings of a load: what CFGLD's w3 names, if a command loads (R257), the region's shape, whether the region has
a next and a previous child in a STRM, with their sizes (R311), ports and channels of LTX and LRX in other regions (R367). -/
structure LoadEnv where
  shape : Option (Nat × Nat × Nat)
  h     : Nat
  w     : Nat
  next  : Option Nat
  prev  : Option Nat
  taken : List (Nat × Nat)
  deriving DecidableEq, Repr

/-! ### Reserved bits (0x05) -/

/-- Whether the reserved bits of a channel entry are zero (R66). Class 3, which R66 does not assign, and slots or a buffer offset
where the entry is not remote count as reserved bits (the model's choice, log 70). -/
def chanZero (e : BitVec 64) : Bool :=
  e &&& 0xFFFFF000FFF00800 == 0 && entClass e != 3 && (entClass e == 1 || (e.extractLsb' 8 3 == 0 && e.extractLsb' 32 32 == 0))

/-- Whether the reserved bits of a route entry are zero (R66, R311). -/
def routeZero (e : BitVec 64) : Bool :=
  bitsOf e.toNat 7 3 == 0 && e.toNat / 2 ^ 27 == 0 && (routeKind e == 3 || !e.getLsbD 26)

/-- The failures of code 0x05 in a section's header and tables. -/
def Sect.reserved (x : Sect) : List LoadFail :=
  (if x.zero then [] else [headFail 5 x.core]) ++
  (List.range x.chans.length).flatMap (fun i => failUnless (chanZero (x.chans.getD i 0)) 5 x.core 1 i) ++
  (List.range x.routes.length).flatMap (fun i => failUnless (routeZero (x.routes.getD i 0)) 5 x.core 2 i) ++
  (List.range x.words.length).flatMap (fun i => failUnless (x.words.getD i 0 &&& 0xFFFF00C0 == 0) 5 x.core 4 i) ++
  (List.range x.delays.length).flatMap (fun i => failUnless (bitsOf (x.delays.getD i 0).toNat 15 9 == 0) 5 x.core 6 i)

/-! ### State blocks (R67, R182) -/

/-- The state words of a node's block; none where the block is malformed (R67, R77, R137, R167). -/
def Sect.block (x : Sect) (row : OpRow) (r : NodeRec) : Option (List (BitVec 32)) :=
  if r.stOff = 0 then some []
  else
    let o := 32 * r.stOff.toNat
    let n := fieldOf x.bytes o 2
    if o + 4 + 4 * n ≤ x.bytes.length ∧ 1 ≤ n ∧ n ≤ min 1024 row.regs then
      some ((tableOf x.bytes (o + 4) n 4).map (BitVec.ofNat 32))
    else none

/-- The registers that a block gives; the bits of FLAGS that R78 reserves read zero. -/
def blockRegs (l : List (BitVec 32)) : Tab (BitVec 32) :=
  (List.range l.length).map (fun i => (i, if i = 0 then l.getD i 0 &&& 0x1F else l.getD i 0))

/-- A node of a record and its initial registers (R57, R135). -/
def freshNode (op : Nat) (r : NodeRec) (regs : Tab (BitVec 32)) : Node :=
  { op := op, rcd := r, regs := regs, inst := 0, phase := 0, d := [], acc := [], keys := [], wts := [], wbeta := 0, wthen := none,
    bind := none, burst := 0, hold := none, prog := 0, part := [], toks := [], exh := false, emitted := 0, hub := none,
    hubRes := none, handed := [], quiet := 0, shadow := false, broken := false, down := none }

/-- Whether an opcode is a port on a memory tile, which a block may bind (R182). -/
def tilePort (op : Nat) : Bool := decide (0x80 ≤ op ∧ op ≤ 0x84)

/-- The failures of a port's block: BOUND, indices, alignment, and BASE [31:22], which R167 has zero (0x11, log 70), extremes
(0x0A) (R180–R182). -/
def Sect.portBlock (x : Sect) (id op : Nat) (r : NodeRec) (l : List (BitVec 32)) : List LoadFail :=
  if !tilePort op then []
  else
    let n := freshNode op r (blockRegs l)
    let q := n.pattern
    let w := portWidth r.fmt.toNat
    let inRange := (List.range 4).all (fun k => decide ((n.reg (12 + k)).toNat < q.cnt.getD k 1))
    let aligned := q.base % w == 0 && q.str.all (fun s => s % (w : Int) == 0)
    let sp := q.span w
    failUnless (decide ((n.reg 17).toNat ≤ 1) && decide ((n.reg 5).toNat < 2 ^ 22) && inRange && (!n.bound || aligned)) 0x11 x.core 0 id ++
    failUnless (!n.bound || spanOk x.modes id sp.1 sp.2) 0x0A x.core 0 id

/-! ### One record -/

/-- What may stand only once on a core: ADOT.W, ADOTT and AOUTR by tile (R71), SRC by outbox, SINK by inbox (R144, R145),
LTX and LRX by port and channel (R367). -/
def soleKey (id op : Nat) (r : NodeRec) : Option (Nat × Nat) :=
  match op with
  | 0x30 => if r.var.toNat % 2 = 0 then some (op, tileOf id) else none
  | 0x31 | 0x32 => some (op, tileOf id)
  | 0x01 | 0x02 => some (op, r.k0.toNat)
  | 0x90 | 0x91 => some (op, r.k0.toNat)
  | _ => none

/-- Whether an earlier node of the section holds the same key; a link's also on an earlier core or in another region. -/
def soleTaken (env : LoadEnv) (all : List Sect) (x : Sect) (id : Nat) (k : Nat × Nat) : Bool :=
  x.nodes.any (fun n => decide (n.1 < id) && soleKey n.1 n.2.1 n.2.2 == some k) ||
  (decide (0x90 ≤ k.1) && (env.taken.contains k ||
    all.any (fun y => decide (y.core < x.core) && y.nodes.any (fun n => soleKey n.1 n.2.1 n.2.2 == some k))))

/-- The nodes that a record's constants name: ADOTT's ADOT.W (R98), the receiver of a hand-over (R168). -/
def Sect.namesOk (x : Sect) (id op : Nat) (r : NodeRec) : Bool :=
  if op = 0x31 then
    let k := (r.k1.extractLsb' 0 6).toNat
    match x.node k with
    | some (o, m) => o == 0x30 && m.var.toNat % 2 == 0 && tileOf k == tileOf id
    | none => false
  else if tilePort op && r.k1.extractLsb' 8 3 != 0 then
    let k := (r.k1.extractLsb' 0 8).toNat
    match x.node k with
    | some (o, _) => decide (0x80 ≤ o ∧ o ≤ 0x89) && decide (64 ≤ k ∧ k < 80) && memTile k == memTile id
    | none => false
  else true

/-- MLINE's output length, by its region's row width and window (R191). -/
def Sect.lineOk (x : Sect) (id op : Nat) (r : NodeRec) : Bool :=
  if op ≠ 0x89 then true
  else match x.modes.find? (fun m => m.mode == 3 && m.owner == id) with
    | none => true
    | some m =>
      let w := (m.param.extractLsb' 0 16).toNat
      let kh := (m.param.extractLsb' 16 3).toNat + 1
      let kw := (m.param.extractLsb' 20 3).toNat + 1
      blenOf r == ((w + 1 - kw) * kh * kw * portWidth r.fmt.toNat + 63) / 64

/-- CNT's active counts K, N and M: registers 6, 7 and 8 of its block, else k0, k1 and k2 (R160). -/
def countsOf (r : NodeRec) (blk : List (BitVec 32)) : List (BitVec 32) :=
  [blk.getD 6 r.k0, blk.getD 7 r.k1, blk.getD 8 r.k2]

/-- The failures of a record that concern it and its own section alone. -/
def Sect.recordFails (x : Sect) (env : LoadEnv) (all : List Sect) (doms : Nat) (id op : Nat) (r : NodeRec) : List LoadFail :=
  failUnless (reservedOk r && (r.stOff == 0 || zeroAt x.bytes (32 * r.stOff.toNat + 2) 2)) 5 x.core 0 id ++
  match opRow op r with
  | none => failUnless false 6 x.core 0 id
  | some row =>
    let sole := match soleKey id op r with
      | some k => !soleTaken env all x id k
      | none => true
    let blk := x.block row r
    let counts := op != 0x65 || (countsOf r (blk.getD [])).all (fun v => v != 0)
    failUnless (row.fmt r.fmt.toNat && constFmtOk op r) 7 x.core 0 id ++
    failUnless (fieldsOk op id doms row r && sole && counts && x.lineOk id op r) 8 x.core 0 id ++
    failUnless (x.namesOk id op r) 9 x.core 0 id ++
    failUnless blk.isSome 0x11 x.core 0 id ++
    x.portBlock id op r (blk.getD [])

/-! ### Channels between records (R59, R66, R69) -/

/-- A record's use of an endpoint as input i. -/
structure Use where
  core : Nat
  id   : Nat
  op   : Nat
  rcd  : NodeRec
  i    : Nat
  ep   : Nat
  deriving DecidableEq, Repr

/-- A record's output by a route. -/
structure Feed where
  core  : Nat
  id    : Nat
  op    : Nat
  rcd   : NodeRec
  y     : Bool
  route : Nat
  deriving DecidableEq, Repr

/-- The inputs of all records. -/
def usesOf (all : List Sect) : List Use :=
  all.flatMap (fun x => x.nodes.flatMap (fun n =>
    ((List.range 4).filter (inputUsed n.2.1 n.2.2)).map (fun i =>
      { core := x.core, id := n.1, op := n.2.1, rcd := n.2.2, i := i, ep := inputEp n.2.2 i })))

/-- The connected outputs of all records. -/
def feedsOf (all : List Sect) : List Feed :=
  all.flatMap (fun x => x.nodes.flatMap (fun n =>
    ([(false, n.2.2.outX), (true, n.2.2.outY)].filter (fun o => o.2 != 0xFFF)).map (fun o =>
      { core := x.core, id := n.1, op := n.2.1, rcd := n.2.2, y := o.1, route := o.2.toNat })))

/-- The section of a logical core. -/
def sectAt (all : List Sect) (c : Nat) : Option Sect := all.find? (fun x => x.core == c)

/-- The core and endpoint that an output leads to, within the region. -/
def Feed.dest (all : List Sect) (f : Feed) : Option (Nat × Nat) :=
  match (sectAt all f.core).bind (fun x => x.routes[f.route]?) with
  | none => none
  | some e => if routeKind e = 3 then none else if routeKind e = 1 then some (routeCore e, routeEp e) else some (f.core, routeEp e)

/-- An input as the destination of outputs: the outputs that feed it. -/
def feedersOf (dests : List (Feed × Option (Nat × Nat))) (core ep : Nat) : List Feed :=
  (dests.filter (fun d => d.2 == some (core, ep))).map Prod.fst

/-- Whether an input's status may come in the same instant from its producer: not delayed, not PRE's or MFIFO's A (R157,
R190), the producer in the same domain (R132). -/
def Use.instantFrom (u : Use) (f : Feed) : Bool :=
  !inputDelayed u.rcd u.i && !(u.i == 0 && (u.op == 0x6A || u.op == 0x88)) && f.rcd.dom == u.rcd.dom

/-- The domains of the DRAINs of a region whose cores have a route to an endpoint (R174). -/
def steeringDoms (all : List Sect) (core ep : Nat) : List (BitVec 2) :=
  (all.filter (fun x => x.routes.any (fun e => routeKind e != 3 && routeEp e == ep &&
    (if routeKind e = 1 then routeCore e else x.core) == core))).flatMap (fun x =>
      (x.nodes.filter (fun n => n.2.1 == 0x42)).map (fun n => n.2.2.dom))

/-- Whether an input is asynchronous (R132, R311): fed from another domain, or without a feeder in the region steered to from
another domain, or left to a neighbouring child's sibling routes. -/
def Use.async (env : LoadEnv) (all : List Sect) (from_ : List Feed) (u : Use) (e : BitVec 64) : Bool :=
  match from_ with
  | [] => match steeringDoms all u.core u.ep with
    | [] => entClass e == 1 && (env.next.isSome || env.prev.isSome)
    | l => l.any (fun d => d != u.rcd.dom)
  | l => l.any (fun f => f.rcd.dom != u.rcd.dom)

/-- The failures of one input. That a used remote entry without slots is a field value out of range, and that it names the
channel entry, is the model's choice (log 70). -/
def useFails (env : LoadEnv) (all : List Sect) (dests : List (Feed × Option (Nat × Nat))) (u : Use) : List LoadFail :=
  match (sectAt all u.core).bind (fun x => x.chan u.ep) with
  | none => failUnless false 9 u.core 0 u.id
  | some e =>
    let from_ := feedersOf dests u.core u.ep
    let fits := (match inFmt u.op u.rcd u.i with
      | some f => f == entFmt e
      | none => true) && from_.all (fun f => outFmt f.op f.rcd f.y == entFmt e)
    failUnless (chanFmtOk (entFmt e)) 7 u.core 1 u.ep ++
    failUnless fits 7 u.core 0 u.id ++
    failUnless (entClass e != 1 || e.extractLsb' 8 3 != 0) 8 u.core 1 u.ep ++
    failUnless (!inputDelayed u.rcd u.i || !u.async env all from_ e) 8 u.core 0 u.id ++
    failUnless (u.op != 0x43 || u.i != 0 || entBeats e == blenOf u.rcd) 0x0B u.core 0 u.id

/-- The failures of one output: a route of kind 0 or 2 to another core, in the region or beyond it, or to an entry of another class
(R66); a route that no record names is not checked (R197). That a remote route may not name a class-2 entry either is the model's
choice (log 70), and that a remote route may name a class-0 entry and a local one a class-1 entry (log 83). -/
def feedFails (all : List Sect) (uses : List Use) (f : Feed) : List LoadFail :=
  match (sectAt all f.core).bind (fun x => x.routes[f.route]?) with
  | none => failUnless false 9 f.core 0 f.id
  | some e =>
    let k := routeKind e
    if k = 3 then []
    else if k ≠ 1 ∧ routeCore e ≠ f.core then failUnless false 9 f.core 2 f.route
    else if all.length ≤ routeCore e then []
    else match (sectAt all (routeCore e)).bind (fun x => x.chans[routeEp e]?) with
      | none => failUnless false 9 f.core 2 f.route
      | some ch =>
        let users := uses.filter (fun u => u.core == routeCore e && u.ep == routeEp e)
        let engine := entClass ch == 2 && users.any (fun u => decide (80 ≤ u.id))
        failUnless (if k = 2 then engine else entClass ch != 2) 9 f.core 2 f.route

/-! ### The schedule (0x09, 0x0C) and the cycles (0x0D) -/

/-- The failures of a section's schedule bytes. A failure of code 0x0C names the node that is missing or listed twice, or the
consumer listed too early, and no schedule byte (the model's choice, log 70). -/
def Sect.schedFails (x : Sect) : List LoadFail :=
  (List.range x.sched.length).flatMap (fun i => failUnless ((x.node (x.sched.getD i 0)).isSome) 9 x.core 3 i) ++
  x.nodes.flatMap (fun n => failUnless (x.sched.count n.1 == 1) 0x0C x.core 0 n.1)

/-- An edge from a producer to a consumer in the same instant. -/
structure Edge where
  core : Nat
  id   : Nat
  toC  : Nat
  toId : Nat
  deriving DecidableEq, Repr

/-- The edges that channels make. -/
def channelEdges (uses : List Use) (dests : List (Feed × Option (Nat × Nat))) : List (Edge × Bool) :=
  uses.flatMap (fun u => ((feedersOf dests u.core u.ep).filter u.instantFrom).map (fun f =>
    ({ core := f.core, id := f.id, toC := u.core, toId := u.id }, !(constructive f.op f.rcd) && !(constructive u.op u.rcd))))

/-- The edges from an ADOT.W to the ADOTT that names it (R98). -/
def Sect.arrayEdges (x : Sect) : List Edge :=
  (x.nodes.filter (fun n => n.2.1 == 0x31)).map (fun n =>
    { core := x.core, id := (n.2.2.k1.extractLsb' 0 6).toNat, toC := x.core, toId := n.1 })

/-- The edges from each port of a tile to the higher ports of its tile and domain (R332). -/
def Sect.portEdges (x : Sect) : List Edge :=
  let ns := x.nodes.filter (fun n => onTile n.1 n.2.1)
  ns.flatMap (fun a => (ns.filter (fun b => decide (a.1 < b.1) && memTile a.1 == memTile b.1 && a.2.2.dom == b.2.2.dom)).map
    (fun b => { core := x.core, id := a.1, toC := x.core, toId := b.1 }))

/-- The failures of consumers that stand before their producers (R69). -/
def orderFails (all : List Sect) (edges : List Edge) : List LoadFail :=
  edges.flatMap (fun e => match sectAt all e.core with
    | some x =>
      let late := e.core == e.toC && x.sched.contains e.id && x.sched.contains e.toId &&
        decide (x.sched.idxOf e.toId < x.sched.idxOf e.id)
      failUnless (!late) 0x0C e.core 0 e.toId
    | none => [])

/-- Edges that no cycle contains removed: those from a node nothing leads to, and to a node that leads nowhere. -/
def trimEdges (l : List Edge) : List Edge :=
  l.filter (fun e => l.any (fun f => f.toC == e.core && f.toId == e.id) && l.any (fun f => f.core == e.toC && f.id == e.toId))

/-- Trimmed until nothing changes, at most n times. -/
def trimAll : Nat → List Edge → List Edge
  | 0, l => l
  | n + 1, l =>
    let t := trimEdges l
    if t.length = l.length then l else trimAll n t

/-- The nodes reached from some by at most n edges. -/
def reachFrom (l : List Edge) : Nat → List (Nat × Nat) → List (Nat × Nat)
  | 0, seen => seen
  | n + 1, seen =>
    let more := ((l.filter (fun e => seen.contains (e.core, e.id))).map (fun e => (e.toC, e.toId))).filter (fun x => !seen.contains x)
    if more.isEmpty then seen else reachFrom l n (seen ++ more.eraseDups)

/-- The failures of instantaneous cycles of strict nodes: the nodes that reach themselves (R69). -/
def cycleFails (edges : List Edge) : List LoadFail :=
  let l := trimAll edges.length edges
  let on := (l.map (fun e => (e.core, e.id))).eraseDups.filter (fun v =>
    (reachFrom l l.length ((l.filter (fun e => (e.core, e.id) == v)).map (fun e => (e.toC, e.toId))).eraseDups).contains v)
  on.map (fun v => { code := 0x0D, core := v.1, kind := 0, idx := v.2 })

/-! ### Other tables -/

/-- The failures of a section's routes that leave the region (R69, R311). -/
def Sect.guardFails (x : Sect) (env : LoadEnv) (n : Nat) : List LoadFail :=
  (List.range x.routes.length).flatMap (fun i =>
    let e := x.routes.getD i 0
    let ok := if routeKind e = 3 then (match (if routePrev e then env.prev else env.next) with
        | some m => decide (routeCore e < m)
        | none => false)
      else decide (routeCore e < n)
    failUnless ok 0x0E x.core 2 i)

/-- Buffers of the remote channels received at a section's core: offset, bytes, endpoint (R69, R197). -/
def buffersOf (x : Sect) : List (Nat × Nat × Nat) :=
  (List.range x.chans.length).filterMap (fun ep => match x.chan ep with
    | some e => if entClass e = 1 then some (64 * bitsOf e.toNat 43 32, 64 * entSlots e * entBeats e, ep) else none
    | none => none)

/-- Bytes of channel buffer memory of a core (R112). -/
def chanMemory : Nat := 262144

/-- The failures of a section's channel buffers: the sum, which names no entry, and the buffers that overlap or end beyond the
memory, of two that overlap the later one's entry (the model's choice, log 70). -/
def Sect.bufferFails (x : Sect) : List LoadFail :=
  let l := buffersOf x
  let sum := (l.map (fun b => b.2.1)).foldl (· + ·) 0
  (if chanMemory < sum then [headFail 0x0F x.core] else []) ++
  l.flatMap (fun b =>
    let clash := l.any (fun a => (decide (a.1 < b.1) || (a.1 == b.1 && decide (a.2.2 < b.2.2))) && decide (b.1 < a.1 + a.2.1))
    failUnless (!clash && decide (b.1 + b.2.1 ≤ chanMemory)) 0x0F x.core 1 b.2.2)

/-- The failures of memory modes (R66, R177), bank keys and delay initialisation (R66). A bank-key byte that is neither a memory
node's id nor 0xFF, and a delay-initialisation entry that names no endpoint or lies outside the section, count as references
that fail, 0x09 (the model's choice, log 70). -/
def Sect.tableFails (x : Sect) : List LoadFail :=
  let ids := x.nodes.map Prod.fst
  let lineLen := fun m : MemMode => m.mode != 3 || (match x.node m.owner with
    | some (_, r) =>
      let row := ((m.param.extractLsb' 0 16).toNat * portWidth r.fmt.toNat + 63) / 64 * 64
      decide (((m.param.extractLsb' 16 3).toNat + 1) * row ≤ m.len)
    | none => true)
  let kindOk := fun m : MemMode => (m.mode != 2 || ((x.node m.owner).map Prod.fst) == some 0x88) &&
    (m.mode != 3 || ((x.node m.owner).map Prod.fst) == some 0x89)
  let apart := fun (i : Nat) (m : MemMode) => (List.range x.modes.length).all (fun j => j == i || (match x.modes[j]? with
    | some o => o.tile != m.tile || decide (o.base + o.len ≤ m.base) || decide (m.base + m.len ≤ o.base)
    | none => true))
  (List.range x.modes.length).flatMap (fun i => match x.modes[i]? with
    | some m => failUnless (modeOk ids m && lineLen m && kindOk m && apart i m) 0x10 x.core 4 i
    | none => []) ++
  (List.range x.keys.length).flatMap (fun i =>
    let k := x.keys.getD i 0xFF
    failUnless (k == 0xFF || decide (64 ≤ k ∧ k < 80)) 9 x.core 5 i) ++
  (List.range x.delays.length).flatMap (fun i =>
    let d := (x.delays.getD i 0)
    let beats := if d.getLsbD 8 then beatsOf (d.extractLsb' 32 32) else 0
    failUnless (decide (bitsOf d.toNat 7 0 < x.chans.length) &&
      decide (64 * (bitsOf d.toNat 31 16 + beats) ≤ x.bytes.length)) 9 x.core 6 i)

/-! ### All checks of R69 -/

/-- The failures of an image whose header and sections could be read. A domain count off R64's limits is of the shape's code, 0x04 (the
model's choice, log 84). -/
def imageFails (env : LoadEnv) (hd : ImgHead) (img : List Byte) (all : List Sect) : List LoadFail :=
  let uses := usesOf all
  let dests := (feedsOf all).map (fun f => (f, f.dest all))
  let edges := channelEdges uses dests
  let arrays := all.flatMap Sect.arrayEdges
  let shapeOk := hd.h == env.h && hd.w == env.w && decide (1 ≤ hd.doms ∧ hd.doms ≤ 4) && (match env.shape with
    | some (h, w, d) => hd.h == h && hd.w == w && hd.doms == d
    | none => true)
  (if hd.zero then [] else [headFail 5 0]) ++
  (if imgIdentity img = hd.ident then [] else [headFail 3 0]) ++
  (if shapeOk then [] else [headFail 4 0]) ++
  all.flatMap (fun x => x.reserved ++ x.nodes.flatMap (fun n => x.recordFails env all hd.doms n.1 n.2.1 n.2.2) ++
    x.schedFails ++ x.guardFails env all.length ++ x.bufferFails ++ x.tableFails) ++
  uses.flatMap (useFails env all dests) ++ (feedsOf all).flatMap (feedFails all uses) ++
  orderFails all (edges.map Prod.fst ++ arrays) ++
  cycleFails ((edges.filter Prod.snd).map Prod.fst ++ arrays ++ all.flatMap Sect.portEdges)

/-- What the loader makes of an image: the sections, or the failure it reports. -/
def checkImage (env : LoadEnv) (img : List Byte) : Except LoadFail (List Sect) :=
  let hd := imgHead img
  if !hd.sound then .error (headFail 2 0)
  else
    let l := (List.range hd.count).map (sectOf img hd)
    match (List.range hd.count).find? (fun c => (l.getD c none).isNone) with
    | some c => .error (headFail 2 c)
    | none =>
      let all := l.filterMap id
      match firstFail (imageFails env hd img all) with
      | some f => .error f
      | none => .ok all

/-! ### The configuration that a load leaves (R54, R67, R135, R160) -/

/-- A node as a load leaves it, CNT with its active counts in registers 6–8 (R160). -/
def Sect.loadNode (x : Sect) (op : Nat) (r : NodeRec) : Node :=
  let l := match opRow op r with
    | some row => (x.block row r).getD []
    | none => []
  let n := freshNode op r (blockRegs l)
  if op = 0x65 then (countsOf r l).zipIdx.foldl (fun m c => m.setReg (6 + c.2) c.1) n else n

/-- The status that the delay-initialisation table gives an endpoint (R54, R66); of several entries for one endpoint the first counts
(the model's choice, log 77). -/
def Sect.initial (x : Sect) (ep : Nat) : Status :=
  match x.delays.find? (fun d => bitsOf d.toNat 7 0 == ep) with
  | some d =>
    if d.getLsbD 8 then
      let hdr := d.extractLsb' 32 32
      some { hdr := hdr, beats := (chunk 64 ((x.bytes.drop (64 * bitsOf d.toNat 31 16)).take (64 * beatsOf hdr))).map beatOfBytes }
    else none
  | none => none

/-- The configuration of one core (R65). An initial status for an endpoint that no delayed input reads has no effect (the model's
choice, log 77). -/
def Sect.cfg (x : Sect) : Cfg :=
  let g : Cfg :=
    { nodes := x.nodes.map (fun n => (n.1, x.loadNode n.2.1 n.2.2)), chans := [],
      routes := (List.range x.routes.length).map (fun i => (i, x.routes.getD i 0)), sched := x.sched, modes := x.modes,
      keys := (List.range x.keys.length).filterMap (fun i =>
        let k := x.keys.getD i 0xFF
        if k = 0xFF then none else some (i, k)),
      moves := [], drops := [], egress := [] }
  { g with chans := (List.range x.chans.length).filterMap (fun i => (x.chan i).map (fun e =>
      (i, { ent := e, q := if g.delayedAt i then [(0, x.initial i)] else [], wire := [] }))) }

/-- A domain at load (R130, R134). -/
def Dom.fresh : Dom := { ctr := 0, lim := 0, unlim := false, done := false, stopped := false, live := [] }

/-! ### The wave (R134) -/

/-- Bytes of an image that a core loads from local or global space (R257). -/
def State.imageBytes (s : State) (p : Nat) (a : BitVec 64) (n : Nat) : Option (List Byte) :=
  match spaceOf a with
  | .global va => if va + n ≤ 2 ^ 57 then s.readGlobal (s.partOf p) (n / 64 + 2) va n else none
  | .localMem off => if off + n ≤ 2 ^ 22 ∧ s.badIn (scratchKey p off) n = false then some (s.peekLocal p off n) else none
  | _ => none

/-- A leaf's neighbour in its STRM: its number of cores (R311). -/
def State.neighbourSize (s : State) (r : Region) (prev : Bool) : Option Nat :=
  match r.team.bind (fun t => tget s.teams t) with
  | none => none
  | some tm => match tget s.tasks tm.task with
    | none => none
    | some k => if k.parentKind tm.leaf = 3 then (k.sibling tm.leaf prev).map (fun n => n.h * n.w) else none

/-- The LTX and LRX of the partition's other configured regions, by opcode and constant k0; a region that shares a core with the
one loaded is discarded by the wave and does not count (R367). -/
def State.linksElsewhere (s : State) (k : Nat) (r : Region) : List (Nat × Nat) :=
  (s.regions.filter (fun g => g.1 != k && g.2.configured && g.2.part == r.part && !g.2.cores.any (fun p => r.cores.contains p))).flatMap (fun g =>
    (s.nodesOf g.2).filterMap (fun n => if n.2.2.op = 0x90 ∨ n.2.2.op = 0x91 then some (n.2.2.op, n.2.2.rcd.k0.toNat) else none))

/-- The surroundings of a load into a region. -/
def State.loadEnv (s : State) (k : Nat) (r : Region) (shape : Option (Nat × Nat × Nat)) : LoadEnv :=
  { shape := shape, h := r.h, w := r.w, next := s.neighbourSize r false, prev := s.neighbourSize r true,
    taken := s.linksElsewhere k r }

/-- A core given a configuration as a wave leaves it; an LRX whose port is not up has only its port-down token to emit
(R380). -/
def State.configure (s : State) (k p : Nat) (g : Cfg) : State :=
  let fix := fun (n : Node) => if n.op = 0x91 && !(s.portAt (n.rcd.k0.toNat % 16)).up then { n with down := some 0 } else n
  s.modCore p (fun c => { c with
    cfg := some { g with nodes := g.nodes.map (fun n => (n.1, fix n.2)) }, region := some k, gated := [] })

/-- The wheels of the team on a region discarded, as a reset of the region does (R339). -/
def State.dropWheels (s : State) (k : Nat) : State :=
  match (tget s.regions k).bind Region.team with
  | some t => match tget s.teams t with
    | some tm => { s with teams := tset s.teams t { tm with wheels := [] } }
    | none => s
  | none => s

/-- A region configured by sections kept at a load: counters and everything else as the image says (R134, R135), the wheels of its
team discarded (R316, R339). -/
def State.configureAll (s : State) (k : Nat) (kept : Tab Cfg) (ident : BitVec 256) (image : BitVec 64) (doms : Nat) : State :=
  match tget s.regions k with
  | none => s
  | some r =>
    let s1 := kept.foldl (fun z x => z.configure k (r.posOf x.1) x.2) s
    (s1.dropWheels k).modRegion k (fun r =>
      { r with
        configured := true, ident := ident, image := image, doms := List.replicate doms Dom.fresh, detail := 0,
        begun := false, fired := false, quiet := false, kept := kept })

/-- Other regions that share a core with one: their configurations go when a wave passes over it. -/
def State.clearOverlaps (s : State) (k : Nat) (r : Region) : State :=
  (s.regions.filter (fun g => g.1 != k && g.2.configured && g.2.cores.any (fun p => r.cores.contains p))).foldl
    (fun z g => z.unconfigure g.1) s

/-- A failed load: the region unconfigured, its detail word recorded (R70). -/
def State.loadFails (s : State) (k : Nat) (f : LoadFail) : State × BitVec 64 :=
  let s1 := ((s.guardWave k).unconfigure k).dropWheels k
  let s2 := match tget s1.regions k with
    | some r => s1.clearOverlaps k r
    | none => s1
  (s2.modRegion k (fun r => { r with detail := f.detail }), f.detail)

/-- A load that is not refused into region k, the image read by `read` (R68–R70, R134, R316): the state, and the detail
word. -/
def State.loadBy (s : State) (k : Nat) (read : Nat → Option (List Byte)) (a : BitVec 64) (shape : Option (Nat × Nat × Nat)) :
    State × BitVec 64 :=
  match tget s.regions k, read 64 with
  | none, _ => (s, 0)
  | some _, none => s.loadFails k (headFail 0x12 0)
  | some r, some h =>
    let hd := imgHead h
    if r.configured && hd.ident == r.ident && !r.kept.isEmpty then
      ((s.guardWave k).configureAll k r.kept r.ident a r.doms.length, 0)
    else if hd.len % 64 ≠ 0 ∨ hd.len < 64 ∨ 4194304 < hd.len then s.loadFails k (headFail 2 0)
    else match read hd.len with
      | none => s.loadFails k (headFail 0x12 0)
      | some img =>
        match checkImage (s.loadEnv k r shape) img with
        | .error f => s.loadFails k f
        | .ok all =>
          ((((s.guardWave k).unconfigure k).clearOverlaps k r).configureAll k (all.map (fun x => (x.core, x.cfg))) hd.ident a hd.doms, 0)

/-- A load that is not refused, by the core at p into region k (R257). -/
def State.loadImage (s : State) (k p : Nat) (a : BitVec 64) (shape : Option (Nat × Nat × Nat)) : State × BitVec 64 :=
  s.loadBy k (s.imageBytes p a) a shape

/-! ### Drained regions (R135) -/

/-- Whether a domain's nodes rest at one instant boundary. -/
def restsAt (d : Dom) (nodes : List Node) : Bool :=
  d.done || d.stopped || (!d.unlim && decide (d.lim ≤ d.ctr) && nodes.all (fun n => n.inst == d.ctr && !n.mid && n.hold.isNone))

/-- Whether a node reads an endpoint as a delayed input within its domain's queue of one initial status. -/
def Cfg.chanEmpty (g : Cfg) (ep : Nat) (c : Chan) : Bool :=
  c.wire.isEmpty && decide (c.q.length ≤ (if g.delayedAt ep then 1 else 0))

/-- Whether the domain that consumes an endpoint has been stopped by a fault (R129). -/
def Region.stoppedInto (r : Region) (c : Chan) : Bool :=
  match r.doms[entDom c.ent]? with
  | some d => d.stopped
  | none => false

/-- Whether a controller's store or AMO, or the save of the command at the head of a unit, waits for a shadow (R365). -/
def Core.awaitsShadow (c : Core) : Bool :=
  (c.ctl.run == .running && c.ctl.shadow == some c.ctl.instret) || c.unit.any QCmd.waits

/-- Whether the region's cores have no request under way: walks, copies, hub reads, held ports, writes that wait for a shadow,
unacknowledged frames on a channel of an LTX (R128, R135, R365, R367). -/
def State.noRequests (s : State) (r : Region) : Bool :=
  let ps := r.cores
  let ports := ((s.nodesOf r).filter (fun n => n.2.2.op == 0x90)).map (fun n => (n.2.2.rcd.k0.toNat % 16, n.2.2.rcd.k0.toNat / 16 % 8))
  !s.walks.any (fun w => w.joined.any (fun a => ps.contains a.core)) &&
  ps.all (fun p =>
    let c := s.coreAt p
    c.ce.jobs.isEmpty && c.ce.eots.isEmpty && c.ce.hold.isNone && c.hubCmd.isNone && !c.awaitsShadow &&
    (match c.cfg with
      | some g => g.egress.isEmpty && g.nodes.all (fun n => n.2.hold.isNone && n.2.hub.isNone && n.2.hubRes.isNone && !n.2.shadow)
      | none => true)) &&
  ports.all (fun q => !(s.portAt q.1).unacked.any (fun f => f.toNat / 16 % 8 == q.2))

/-- Whether a region counts as drained (R129, R135). -/
def State.drained (s : State) (k : Nat) : Bool :=
  match tget s.regions k with
  | none => true
  | some r =>
    if !r.configured then true
    else
      let ns := s.nodesOf r
      (List.range r.doms.length).all (fun i => match r.doms[i]? with
        | some d => restsAt d ((ns.filter (fun n => n.2.2.dom == i)).map (fun n => n.2.2))
        | none => true) &&
      r.cores.all (fun p => match (s.coreAt p).cfg with
        | some g => g.chans.all (fun c => r.stoppedInto c.2 || g.chanEmpty c.1 c.2)
        | none => true) &&
      s.noRequests r

end Sys2Proof.Machine
end

