-- ==== Sys2Proof/Machine/MemNodes.lean ====
section
/-!
DEFINITION. The memory nodes (R183–R191, R104): ports bound by pattern, indexed ports, global ports, hub reads, the FIFO and
the line buffer.
-/

namespace Sys2Proof.Machine

/-! ### Read ports: MRD (R183) -/

/-- LEFT counted down and BOUND set once the limit or the end of the pattern is reached (R183). -/
def Node.readDone (n : Node) : Node :=
  let left := n.reg 16
  let m := if left = 0 then n else n.setReg 16 (left - 1)
  let m' := { m with burst := m.burst + 1 }
  if left = 1 ∨ n.pattern.total ≤ n.pos then m'.setReg 17 2 else m'

/-- The bytes of a burst that a reading port performs (R333): those that it holds, then the elements left. -/
def State.readRest (s : State) (p w : Nat) (n : Node) (offs : List Nat) : List Byte :=
  n.part.map (BitVec.ofNat 8) ++ s.readElems p w (offs.drop n.prog)

/-- The elements left of a burst that a writing port performs (R333), written. -/
def State.writeRest (s : State) (p w : Nat) (n : Node) (offs : List Nat) (bytes : List Byte) : State :=
  s.writeElems p w (offs.drop n.prog) (bytes.drop (w * n.prog))

/-- MRD's instant while it is bound (R183, R187, R269). -/
def mrdReact (s : State) (n : Node) (_ : Ins) : Option (State × React) :=
  let p := s.here
  let id := s.slot
  if !n.bound then some (s, quietReact n)
  else
    let w := portWidth n.rcd.fmt.toNat
    let q := n.pattern
    let k := min (perBurst n.rcd) (q.total - n.pos)
    let offs := n.walk k
    let plane := n.planeAt n.burst
    let banks := banksOf (offs ++ plane.toList)
    if !s.keysHeld p id banks || !s.tileTurn p id n (spansOf w offs ++ spansOf 1 plane.toList) then none
    else
      let z := s.touchAll p (offs ++ plane.toList)
      let beta := match plane with
        | some o => (BitVec.ofNat 8 (z.peekLocalNat p o 1)).toInt
        | none => n.texp
      let m := ((n.setPos (n.pos + k)).readDone).used banks
      let y := some (doneToken k 0)
      match z.badRead p w (offs.drop n.prog) plane with
      | some o =>
        let h := z.handOver p id m 0
        some (h.1.portFault p id n 0x10 0 o true [], onXY h.2 (some (errToken 0x10 0 0)) y)
      | none =>
        let h := z.handOver p id m 0
        some (h.1, onXY h.2 (some (dataBurst 0 beta (beatsOfBytes (blenOf n.rcd) (z.readRest p w n offs)))) y)

/-- MRD (R183). -/
def execMrd (r : NodeRec) (s : State) : Answer := .next (s.fireWith 0x80 r true mrdReact)

/-! ### Write ports: MWR (R184) -/

/-- MWR's instant on a data burst (R184, R187, R269): the elements that fit, the rest dropped and noted. -/
def mwrData (s : State) (n : Node) (b : Burst) : Option (State × React) :=
  let p := s.here
  let id := s.slot
  let level := hdrLevel b.hdr
  let past := (errToken 0x28 0 level).hdr
  if !n.bound then some (s, onX (n.noteError past) (some (doneToken 0 level)))
  else
    let w := portWidth n.rcd.fmt.toNat
    let q := n.pattern
    let have_ := b.beats.length * 64 / w
    let k := min have_ (q.total - n.pos)
    let offs := n.walk k
    let plane := n.planeAt n.burst
    let banks := banksOf (offs ++ plane.toList)
    if !s.keysHeld p id banks || !s.tileTurn p id n (spansOf w offs ++ spansOf 1 plane.toList) then none
    else
      let z := (s.touchAll p (offs ++ plane.toList)).writeRest p w n offs (bytesOfBurst b)
      let z2 := match plane with
        | some o => z.pokeLocal p o [(BitVec.ofInt 8 (hdrBeta b.hdr))]
        | none => z
      let m := { (n.setPos (n.pos + k)).used banks with burst := n.burst + 1 }
      let m2 := if k < have_ then m.noteError past else m
      let h := z2.handOver p id m2 level
      some (h.1, onX h.2 (some (doneToken k level)))

/-- What a writer makes of a burst that carries no data (R184): an error token noted, kinds 3–5 counted. -/
def writerOther (n : Node) (b : Burst) : Node :=
  if isErr b then n.noteError b.hdr else if isData b then n else n.drop 1

/-- MWR's instant (R184). -/
def mwrReact (s : State) (n : Node) (i : Ins) : Option (State × React) :=
  match i.a with
  | none => some (s, quietReact n)
  | some b =>
    if hdrKind b.hdr = 0 then mwrData s n b
    else
      let level := hdrLevel b.hdr
      let h := s.handOver s.here s.slot (writerOther n b) level
      some (h.1, onX h.2 (some (doneToken 0 level)))

/-- MWR (R184). -/
def execMwr (r : NodeRec) (s : State) : Answer := .next (s.fireWith 0x81 r false mwrReact)

/-! ### Indexed ports (R104, R186) -/

/-- What an indexed port selects from (R104): base, axes with extent and stride, axis 0 first; none while unbound. A state block gives
no record, so that the rank and the outermost axis of a port bound by one are the model's choice (log 81): the highest loop level whose
count exceeds 1 is the outermost axis, level 0 where none does. -/
def Node.target (n : Node) : Option (Nat × List (Nat × Int)) :=
  if !n.bound then none
  else match n.bind with
    | some r => some (r.base.toNat % 2 ^ 22, List.zip (r.ext.take r.rank) (r.str.take r.rank))
    | none =>
      let q := n.pattern
      let rank := 1 + ((List.range 4).filter (fun l => 1 < q.cnt.getD l 1)).foldl Nat.max 0
      some (q.base, List.zip (q.cnt.take rank) (q.str.take rank))

/-- The offsets of a sub-tensor, axis 0 fastest (R104). -/
def subOffsets : List (Nat × Int) → List Int
  | [] => [0]
  | (e, st) :: rest => (subOffsets rest).flatMap (fun o => (List.range e).map (fun (i : Nat) => o + (i : Int) * st))

/-- The offsets that tokens select (R104), or the place of the first failing token, counted from the first token used. -/
def selectAll (base : Nat) (axes : List (Nat × Int)) : List Nat → Nat → Except Nat (List Nat)
  | [], _ => .ok []
  | t :: rest, at_ =>
    match axes.getLast? with
    | none => .error at_
    | some (e, st) =>
      if e ≤ t then .error at_
      else
        match selectAll base axes rest (at_ + 1) with
        | .error k => .error k
        | .ok l => .ok ((subOffsets axes.dropLast).map (fun o => ((base : Int) + (t : Int) * st + o).toNat) ++ l)

/-- The selection of an index burst by tokens f to f + c − 1 of its first beat (R104, R186). -/
def Node.select (n : Node) (b : Burst) : Except Nat (List Nat) :=
  let f := (n.rcd.k0.extractLsb' 0 4).toNat
  let c := (n.rcd.k0.extractLsb' 4 4).toNat + 1
  match n.target with
  | none => .error 0
  | some (base, axes) => selectAll base axes ((List.range c).map (fun u => (tokenOf (b.beats.headD 0) (f + u)).toNat)) 0

/-- MIRD's instant (R104, R187); an error token is passed on with β 0, as every error token has (R117). The empty fibre has the β of an
output burst of data (the model's choice, log 87). -/
def mirdReact (s : State) (n : Node) (i : Ins) : Option (State × React) :=
  let p := s.here
  let id := s.slot
  match i.a with
  | none => some (s, quietReact n)
  | some a =>
    let level := hdrLevel a.hdr
    let nothing := fun (x : Burst) =>
      let h := s.handOver p id n level
      some (h.1, onXY h.2 (some x) (some (doneToken 0 level)))
    if isErr a then nothing (passToken a level)
    else if isEmpty a then nothing (emptyFibre level n.texp)
    else if hdrKind a.hdr ≠ 0 then nothing (errToken 0x22 0 level)
    else match n.select a with
      | .error k => nothing (errToken 0x24 k level)
      | .ok offs =>
        let w := portWidth n.rcd.fmt.toNat
        let banks := banksOf offs
        if 64 * blenOf n.rcd < offs.length * w then
          let h := s.handOver p id n level
          some (h.1, { failed h.2 0x21 level with y := some (doneToken 0 level) })
        else if !s.keysHeld p id banks || !s.tileTurn p id n (spansOf w offs) then none
        else
          let z := s.touchAll p offs
          let h := z.handOver p id (n.used banks) level
          let y := some (doneToken offs.length level)
          match z.badElem p w (offs.drop n.prog) with
          | some o => some (h.1.portFault p id n 0x10 0 o true [], onXY h.2 (some (errToken 0x10 0 level)) y)
          | none =>
            some (h.1, onXY h.2 (some (dataBurst level n.texp (beatsOfBytes (blenOf n.rcd) (z.readRest p w n offs)))) y)

/-- MIRD (R104). -/
def execMird (r : NodeRec) (s : State) : Answer := .next (s.fireWith 0x82 r false mirdReact)

/-- The beginning of MIWR and MRMW (R186): tokens and kinds, absence, the selection, the elements; then `f` on the selected
offsets and the burst. A mismatch is recorded, and X, the completion output, still carries its token (R187). -/
def indexedWrite (f : State → Node → List Nat → Burst → State × Node × Nat) (s : State) (n : Node) (i : Ins) :
    Option (State × React) :=
  let p := s.here
  let id := s.slot
  let ins := [i.a, i.c]
  let pres := presentOf ins
  let level := maxLevel pres
  let ends := fun (z : State) (m : Node) (count : Nat) =>
    let h := z.handOver p id m level
    some (h.1, onX h.2 (some (doneToken count level)))
  let fails := fun (code : Nat) =>
    let h := s.handOver p id n level
    some (h.1, { onX h.2 (some (doneToken 0 level)) with faults := [(code, (errToken code 0 level).hdr)] })
  let odd := pres.filter (fun b => !isErr b && !isData b)
  match pres.find? isErr with
  | some t => ends s ((n.noteError t.hdr).drop odd.length) 0
  | none =>
    if !odd.isEmpty then ends s (n.drop odd.length) 0
    else match absGate n.rcd.abs.toNat ins [] with
      | .quiet => some (s, quietReact n)
      | .drop k =>
        let h := s.handOver p id (n.drop k) level
        some (h.1, onX h.2 none)
      | .mismatch => fails 0x20
      | .go [some a, some c] =>
        if isEmpty a || isEmpty c then ends s n 0
        else match n.select c with
          | .error k => ends s (n.noteError (errToken 0x24 k level).hdr) 0
          | .ok offs =>
            let w := portWidth n.rcd.fmt.toNat
            let banks := banksOf offs
            if a.beats.length * 64 < offs.length * w then fails 0x21
            else if !s.keysHeld p id banks || !s.tileTurn p id n (spansOf w offs) then none
            else
              let r := f (s.touchAll p offs) (n.used banks) offs a
              ends r.1 r.2.1 r.2.2
      | .go _ => some (s, quietReact n)

/-- MIWR: runs of A written where the tokens select (R186). -/
def miwrCore (s : State) (n : Node) (offs : List Nat) (a : Burst) : State × Node × Nat :=
  let w := portWidth n.rcd.fmt.toNat
  (s.writeRest s.here w n offs ((bytesOfBurst a).take (w * offs.length)), n, offs.length)

/-- MIWR (R186). -/
def execMiwr (r : NodeRec) (s : State) : Answer := .next (s.fireWith 0x83 r false (indexedWrite miwrCore))

/-- MRMW's operation on values: ADD, MAX, MIN (R186). -/
def rmwValue (op : Nat) (old new : XVal) : XVal :=
  match op with
  | 0 => xAdd old new
  | 1 => xMax old new
  | _ => xMin old new

/-- A stored element combined with element j of A (R186): its new bits and flags. -/
def rmwElem (n : Node) (beta : Int) (j old new : Nat) : Nat × Flg :=
  let fmt := n.rcd.fmt.toNat
  let op := (n.rcd.k0.extractLsb' 8 2).toNat
  match atomFmt fmt with
  | some f =>
    let o := operandOf f beta old
    let a := operandOf f beta new
    elementAtom n f beta j [o, a] (List.zipWith (rmwValue op) o.lanes a.lanes) {}
  | none =>
    if fmt = 0x14 then
      let x := (BitVec.ofNat 32 old).toInt
      let y := (BitVec.ofNat 32 new).toInt
      match op with
      | 0 =>
        let t := x + y
        let c := max (-(2 ^ 31)) (min (2 ^ 31 - 1) t)
        if n.rcd.k0.getLsbD 10 then ((BitVec.ofInt 32 c).toNat, { sat := c ≠ t }) else ((BitVec.ofInt 32 t).toNat, {})
      | 1 => ((BitVec.ofInt 32 (max x y)).toNat, {})
      | _ => ((BitVec.ofInt 32 (min x y)).toNat, {})
    else storPack fmt (1, 0) n.mode (n.rnd j) (rmwValue op (storVal fmt (1, 0) old) (storVal fmt (1, 0) new))

/-- What MRMW holds while it combines the elements of an instant. -/
structure Rmw where
  s     : State
  node  : Node
  beats : List Nat
  count : Nat

/-- One element of MRMW (R186): a beat with an uncorrectable error is left unchanged, noted once. -/
def rmwStep (w : Nat) (beta : Int) (z : Rmw) (x : (Nat × List Byte) × Nat) : Rmw :=
  let p := z.s.here
  let o := x.1.1
  let beat := o / 64
  if z.beats.contains beat then z
  else if z.s.badIn (scratchKey p (64 * beat)) 64 then
    { z with
      s := z.s.portFault p z.s.slot z.node 0x10 2 o true [],
      node := z.node.noteError (errToken 0x10 0 0).hdr, beats := beat :: z.beats }
  else
    let r := rmwElem z.node beta x.2 (z.s.peekLocalNat p o w) (natOfBytes x.1.2)
    { z with
      s := { z.s with mem := writeBytes z.s.mem (scratchKey p o) (bytesOfNat r.1 w) },
      node := z.node.flag r.2, count := z.count + 1 }

/-- MRMW's next elements combined in token order, each onto the result before it (R186): at most `most`, from those performed already
on, for which `part` holds their count and the beats left unchanged (R333). -/
def mrmwRun (s : State) (n : Node) (offs : List Nat) (a : Burst) (most : Nat) : Rmw :=
  let w := portWidth n.rcd.fmt.toNat
  ((((List.zip offs (chunk w (bytesOfBurst a))).zipIdx).drop n.prog).take most).foldl (rmwStep w (hdrBeta a.hdr))
    { s := s, node := n, beats := n.part.drop 1, count := n.part.headD 0 }

/-- MRMW: the elements combined (R186). -/
def mrmwCore (s : State) (n : Node) (offs : List Nat) (a : Burst) : State × Node × Nat :=
  let z := mrmwRun s n offs a offs.length
  (z.s, z.node, z.count)

/-- MRMW (R186). -/
def execMrmw (r : NodeRec) (s : State) : Answer := .next (s.fireWith 0x84 r false (indexedWrite mrmwCore))

/-- The offsets that a tile port reaches in an instant with given inputs, whose banks' keys it needs first (R179). -/
def Node.reach (n : Node) (i : Ins) : List Nat :=
  let walk := fun (most : Nat) =>
    if n.bound then n.walk (min most (n.pattern.total - n.pos)) ++ (n.planeAt n.burst).toList else []
  let chosen := fun (x : Status) => match x with
    | some b => if hdrKind b.hdr = 0 then (n.select b).toOption.getD [] else []
    | none => []
  match n.op with
  | 0x80 => walk (perBurst n.rcd)
  | 0x81 => match i.a with
    | some b => if hdrKind b.hdr = 0 then walk (b.beats.length * 64 / portWidth n.rcd.fmt.toNat) else []
    | none => []
  | 0x82 => chosen i.a
  | 0x83 | 0x84 => if i.a.isSome then chosen i.c else []
  | _ => []

/-! ### Global ports: MGLD and MGST (R185, R290) -/

/-- Where a global port stands in an instant: the state, its node with `prog` elements performed and the bytes read so far,
and whether it must wait. -/
structure Walkr where
  s     : State
  node  : Node
  stuck : Bool

/-- A global port held at a faulting access (R290): its record, and its loop indices at that element. -/
def State.holdPort (s : State) (n : Node) (code kind va : Nat) : State × Node :=
  let m := { n with hold := some { code := code, addr := va } }
  (s.portFault s.here s.slot m code kind va false ((List.range 4).map (fun l => (m.reg (12 + l)).toNat)), m)

/-- One element of MGLD read, or of MGST written (R185): translated, then performed. -/
def globalElem (write : Bool) (w : Nat) (bytes : List Byte) (z : Walkr) (j : Nat) : Walkr :=
  if z.stuck || decide (j < z.node.prog) then z
  else
    let p := z.s.here
    let n := z.node
    let va := n.pattern.at n.pos
    let part := z.s.partOf p
    match z.s.translate p part va (if write then .write else .read) z.s.slot with
    | (.wait, s') => { z with s := s', stuck := true }
    | (.done .transFault, s') =>
      let h := s'.holdPort n 0x31 write.toNat va
      { s := h.1, node := h.2, stuck := true }
    | (.done .accessFault, s') =>
      let h := s'.holdPort n 0x32 write.toNat va
      { s := h.1, node := h.2, stuck := true }
    | (.done (.ok pa pte), s') =>
      let m := { n.setPos (n.pos + 1) with prog := n.prog + 1, shadow := false }
      if write then
        match (if pteCow pte then s'.cowBefore part va pa else some s') with
        | none => { s := s', node := { n with shadow := true }, stuck := true }
        | some s2 =>
          let s3 : State := { s2 with mem := writeBytes s2.mem pa ((bytes.drop (w * j)).take w) }
          { z with
            s := s3.cure ((m.part ++ [pa]).map (fun a => (a, w))),
            node := { m with part := m.part ++ [pa] } }
      else
        let bad := s'.badIn pa w
        let m2 := { m with part := m.part ++ (s'.peek pa w).map BitVec.toNat, phase := if bad || n.phase = 2 then 2 else 0 }
        { z with
          s := if bad && n.phase ≠ 2 then s'.portFault p z.s.slot n 0x10 0 va false [] else s', node := m2 }

/-- MGLD's instant (R183, R185). -/
def mgldReact (s : State) (n : Node) (_ : Ins) : State × Option React :=
  if !n.bound then (s, some (quietReact n))
  else
    let p := s.here
    let w := portWidth n.rcd.fmt.toNat
    let k := min (perBurst n.rcd) (n.pattern.total - (n.pos - n.prog))
    let z := (List.range k).foldl (globalElem false w []) { s := s, node := n, stuck := false }
    if z.stuck then (z.s.setNode p s.slot z.node, none)
    else
      let x := if z.node.phase = 2 then errToken 0x10 0 0
        else dataBurst 0 n.texp (beatsOfBytes (blenOf n.rcd) (z.node.part.map (BitVec.ofNat 8)))
      (z.s, some (onXY z.node.readDone (some x) (some (doneToken k 0))))

/-- MGLD (R185). -/
def execMgld (r : NodeRec) (s : State) : Answer := .next (s.fireSlow 0x86 r true mgldReact)

/-- MGST's instant (R184, R185). -/
def mgstReact (s : State) (n : Node) (i : Ins) : State × Option React :=
  match i.a with
  | none => (s, some (quietReact n))
  | some b =>
    let level := hdrLevel b.hdr
    let past := (errToken 0x28 0 level).hdr
    if hdrKind b.hdr ≠ 0 then (s, some (onX (writerOther n b) (some (doneToken 0 level))))
    else if !n.bound then (s, some (onX (n.noteError past) (some (doneToken 0 level))))
    else
      let p := s.here
      let w := portWidth n.rcd.fmt.toNat
      let have_ := b.beats.length * 64 / w
      let k := min have_ (n.pattern.total - (n.pos - n.prog))
      let z := (List.range k).foldl (globalElem true w (bytesOfBurst b)) { s := s, node := n, stuck := false }
      if z.stuck then (z.s.setNode p s.slot z.node, none)
      else
        let m := { z.node with burst := n.burst + 1 }
        (z.s, some (onX (if k < have_ then m.noteError past else m) (some (doneToken k level))))

/-- MGST (R185). -/
def execMgst (r : NodeRec) (s : State) : Answer := .next (s.fireSlow 0x87 r false mgstReact)

/-! ### Hub reads: MGRP (R189, R340–R348) -/

/-- The burst that a hub read gives: its beats at an offset, or the error token of the lowest code (R347, R348). -/
def State.hubBurst (s : State) (p : Nat) (wh : Wheel) (off beats level : Nat) : Burst :=
  let bad := off % 64 ≠ 0 ∨ wh.len < off + 64 * beats
  let rs := (List.range beats).map (fun i => s.hubBeat p wh (off + 64 * i) (decide bad))
  let errs := rs.filterMap (fun r => match r with
    | .error e => some e
    | .ok _ => none)
  match errs with
  | [] => dataBurst level 0 (rs.filterMap (fun r => match r with
    | .ok b => some b
    | .error _ => none))
  | e :: t =>
    let best := t.foldl (fun (m x : Nat × Nat) => if x.1 < m.1 ∨ (x.1 = m.1 ∧ x.2 < m.2) then x else m) e
    errToken best.1 best.2 level

/-- MGRP's instant (R189): a trigger starts the read; HUB_READ performs it; then the burst goes out. -/
def mgrpReact (s : State) (n : Node) (i : Ins) : State × Option React :=
  let level := match i.a with
    | some a => hdrLevel a.hdr
    | none => 0
  match n.hubRes with
  | some b => (s, some (onX n (some b)))
  | none => match kindToken [i.a] level with
    | some t => (s, some (onX n (some t)))
    | none => match i.a with
      | none => (s, some (quietReact n))
      | some a =>
        if a.beats.length ≠ 1 then (s, some { failed n 0x21 level with y := none })
        else match n.hub with
          | some _ => (s, none)
          | none =>
            let w := s.wheelAt s.here (n.rcd.k0.extractLsb' 0 4).toNat
            let ok := match w with
              | some wh => wh.fmt == n.rcd.fmt.toNat
              | none => false
            if !ok then (s, some (onX n (some (errToken 0x40 0 level))))
            else
              let job : HubJob :=
                { wheel := w, off := (tokAt1 a 0).toNat, beats := blenOf n.rcd, phase := (tokAt1 a 1).extractLsb' 0 16, dest := 0 }
              (s.setNode s.here s.slot { n with hub := some job }, none)
where
  /-- Token k of a one-beat burst. -/
  tokAt1 (b : Burst) (k : Nat) : BitVec 32 := tokenOf (b.beats.headD 0) k

/-- MGRP (R189). -/
def execMgrp (r : NodeRec) (s : State) : Answer := .next (s.fireSlow 0x85 r false mgrpReact)

/-! ### FIFO: MFIFO (R190) -/

/-- The bytes of a FIFO's region from an offset on, around its end: 64-byte slots. -/
def fifoSlot (m : MemMode) (o k : Nat) : Nat := m.start + (o + 64 * k) % m.len

/-- The offset of the first slot of a FIFO's oldest entry that holds an uncorrectable word (R405). -/
def State.fifoBad (s : State) (p : Nat) (m : MemMode) (n : Node) : Option Nat :=
  if n.reg 5 = 0 then none
  else
    let o := (n.reg 3).toNat
    let h := BitVec.ofNat 32 (s.peekLocalNat p (fifoSlot m o 0) 4)
    ((List.range (beatsOf h + 1)).map (fifoSlot m o)).find? (fun a => s.badIn (scratchKey p a) 64)

/-- The oldest entry of a FIFO (R190): its burst, or the error token of one with an uncorrectable word. -/
def State.fifoHead (s : State) (p : Nat) (m : MemMode) (n : Node) : Status :=
  if n.reg 5 = 0 then none
  else
    let o := (n.reg 3).toNat
    let h := BitVec.ofNat 32 (s.peekLocalNat p (fifoSlot m o 0) 4)
    let offs := (List.range (beatsOf h)).map (fun k => fifoSlot m o (k + 1))
    if (s.fifoBad p m n).isSome then
      some (errToken 0x10 0 (hdrLevel h))
    else some { hdr := h, beats := offs.map (fun a => beatOfBytes (s.peekLocal p a 64)) }

/-- Bytes that the oldest entry takes. -/
def State.fifoTake (s : State) (p : Nat) (m : MemMode) (n : Node) : Nat :=
  64 * (1 + beatsOf (BitVec.ofNat 32 (s.peekLocalNat p (fifoSlot m (n.reg 3).toNat 0) 4)))

/-- The oldest entry removed: HEAD, TAIL and USED are registers 3, 4 and 5. -/
def State.fifoPop (s : State) (p : Nat) (m : MemMode) (n : Node) : Node :=
  if n.reg 5 = 0 then n
  else
    let k := s.fifoTake p m n
    (n.setReg 3 (BitVec.ofNat 32 (((n.reg 3).toNat + k) % m.len))).setReg 5 (BitVec.ofNat 32 ((n.reg 5).toNat - k))

/-- A burst appended to a FIFO, or dropped where it finds no room (R190): a slot for its header, one per beat. -/
def State.fifoPush (s : State) (p : Nat) (m : MemMode) (n : Node) (b : Burst) : State × Node :=
  let k := 64 * (1 + b.beats.length)
  if m.len < (n.reg 5).toNat + k then (s, (n.drop 1).flag { sat := true })
  else
    let o := (n.reg 4).toNat
    let z := s.pokeLocal p (fifoSlot m o 0) (bytesOfNat b.hdr.toNat 64)
    let z2 := b.beats.zipIdx.foldl (fun z x => z.pokeLocal p (fifoSlot m o (x.2 + 1)) (bytesOfBeat x.1)) z
    (z2, (n.setReg 4 (BitVec.ofNat 32 ((o + k) % m.len))).setReg 5 (BitVec.ofNat 32 ((n.reg 5).toNat + k)))

/-- The region of a node's FIFO or line buffer. -/
def State.modeRegion (s : State) (p mode id : Nat) : Option MemMode :=
  match (s.coreAt p).cfg with
  | some g => g.regionOf mode id
  | none => none

/-- MFIFO's X: the oldest entry held at the start of the instant (R190), not read before an after-input is resolved (R188). -/
def mfifoEarly (s : State) (n : Node) (_ _ _ : Inp) : Option Status :=
  if !(s.input s.here s.slot n 3).known then none
  else match s.modeRegion s.here 2 s.slot with
    | some m => some (s.fifoHead s.here m n)
    | none => some none

/-- MFIFO's instant: the oldest entry out, then A appended (R190). Without a mode-2 region, for which R190 gives no effect, X is absent and
A is consumed (the model's choice, log 92). -/
def mfifoReact (s : State) (n : Node) (i : Ins) : State × React :=
  match s.modeRegion s.here 2 s.slot with
  | none => (s, quietReact n)
  | some m =>
    let z := s.touchAll s.here ((List.range (m.len / bankBytes + 1)).map (fun k => min (m.start + k * bankBytes) (m.start + m.len - 1)))
    let x := z.fifoHead s.here m n
    let n1 := z.fifoPop s.here m n
    let z1 := match z.fifoBad s.here m n with
      | some o => z.portFault s.here s.slot n 0x10 0 o true []
      | none => z
    match i.a with
    | none => (z1, onX n1 x)
    | some b =>
      let r := z1.fifoPush s.here m n1 b
      (r.1, onX r.2 x)

/-- MFIFO (R190). -/
def execMfifo (r : NodeRec) (s : State) : Answer := .next (s.fireEarlyS 0x88 r mfifoEarly mfifoReact)

/-! ### Line buffer: MLINE (R191) -/

/-- The elements of a row of a line buffer. -/
def State.lineRow (s : State) (p : Nat) (m : MemMode) (row width w : Nat) : List (List Byte) :=
  let len := (width * w + 63) / 64 * 64
  (List.range width).map (fun i => s.peekLocal p (m.start + row * len + i * w) w)

/-- Every window of a line buffer in order (R191): kh rows, oldest first, columns x to x + kw − 1. -/
def windowsOf (rows : List (List (List Byte))) (width kw : Nat) : List Byte :=
  (List.range (width + 1 - kw)).flatMap (fun x =>
    rows.flatMap (fun r => ((r.drop x).take kw).flatMap id))

/-- RC reset by a closing level (R191). -/
def lineReset (n : Node) (level : Nat) : Node := if 1 ≤ level then n.setReg 3 0 else n

/-- MLINE's instant (R191): register 3 is RC. A burst of any kind that closes a level on A resets it after the instant. -/
def mlineReact (s : State) (n : Node) (i : Ins) : Option (State × React) :=
  let p := s.here
  match i.a with
  | none => some (s, quietReact n)
  | some a =>
    let level := hdrLevel a.hdr
    match kindToken [i.a] level with
    | some t => some (s, onX (lineReset n level) (some t))
    | none =>
      if isEmpty a then some (s, onX (lineReset n level) (some (emptyFibre level 0)))
      else match s.modeRegion p 3 s.slot with
        | none => some (s, quietReact (lineReset n level))
        | some m =>
          let width := (m.param.extractLsb' 0 16).toNat
          let kh := (m.param.extractLsb' 16 3).toNat + 1
          let kw := (m.param.extractLsb' 20 3).toNat + 1
          let w := portWidth n.rcd.fmt.toNat
          let len := (width * w + 63) / 64 * 64
          if a.beats.length * 64 ≠ len then some (s, { failed (lineReset n level) 0x21 level with y := none })
          else
            let rc := (n.reg 3).toNat
            let z := s.pokeLocal p (m.start + rc % kh * len) (bytesOfBurst a)
            let n1 := n.setReg 3 (BitVec.ofNat 32 (rc + 1))
            if rc + 1 < kh then some (z, onX (lineReset n1 level) none)
            else
              let order := (List.range kh).map (fun k => (rc + 1 + k) % kh)
              let m1 := lineReset n1 level
              match (order.map (fun r => m.start + r * len)).find? (fun o => z.badIn (scratchKey p o) len) with
              | some o => some (z.portFault p s.slot n 0x10 0 o true [], onX m1 (some (errToken 0x10 0 level)))
              | none =>
                let rows := order.map (fun r => z.lineRow p m r width w)
                some (z, onX m1 (some (dataBurst level 0 (beatsOfBytes (blenOf n.rcd) (windowsOf rows width kw)))))

/-- MLINE (R191). -/
def execMline (r : NodeRec) (s : State) : Answer := .next (s.fireWith 0x89 r false mlineReact)

end Sys2Proof.Machine
end

