-- ==== Sys2Proof/Machine/Commands.lean ====
section
/-!
DEFINITION. The stream commands (R243–R266): each acts for the command unit of the core whose turn it is, on the oldest
command of its queue, which it finishes, rejects, or leaves waiting.
-/

namespace Sys2Proof.Machine

/-! ### Results and rejections (R227, R246, R247) -/

/-- The oldest command of a core's unit. -/
def State.headOf (s : State) (p : Nat) : Option QCmd := (s.coreAt p).unit.head?

/-- The oldest command removed. -/
def State.popCmd (s : State) (p : Nat) : State := s.modCore p (fun c => { c with unit := c.unit.drop 1 })

/-- The oldest command of a unit has taken effect: CMDQ gets its result word (R227). -/
def State.cmdDone (s : State) (p : Nat) (result : BitVec 64) : State :=
  match s.headOf p with
  | none => s
  | some q =>
    let s1 := s.popCmd p
    if q.viaQ then s1.modCtl q.issuer (fun c => c.answer q.seq result) else s1

/-- The oldest command of a unit rejected (R246): CMDQ gets bit 63 and the token's header (R227), CMDI's issuer an entry in
inbox 7 (R229, R230). -/
def State.cmdReject (s : State) (p code word : Nat) : State :=
  match s.headOf p with
  | none => s
  | some q =>
    let t := errToken code word 0
    let s1 := s.popCmd p
    if q.viaQ then s1.modCtl q.issuer (fun c => c.answer q.seq (0x8000000000000000 ||| t.hdr.zeroExtend 64))
    else
      let sd := BitVec.ofNat 64 (t.hdr.toNat + q.img.toNat % 256 * 2 ^ 32 + s.lid p % 1024 * 2 ^ 40)
      s1.modCtl q.issuer (fun c => c.putOrDrop 7 { sd := sd, hdr := t.hdr, beats := [] })

/-- A check of a command: whether it holds, else the code and the word that holds the offending field (R246). -/
structure Chk where
  ok   : Bool
  code : Nat
  word : Nat
  deriving DecidableEq, Repr

/-- The rejection that R246 reports: the lowest code, at the first offending field. -/
def firstBad' : List Chk → Option (Nat × Nat)
  | [] => none
  | c :: t =>
    if c.ok then firstBad' t
    else match firstBad' t with
      | some (a, b) => if a < c.code ∨ (a = c.code ∧ b < c.word) then some (a, b) else some (c.code, c.word)
      | none => some (c.code, c.word)

/-- A command of the unit whose turn it is: rejected by the first failing check, else `act` on it. -/
def State.runCmd (s : State) (checks : QCmd → List Chk) (act : QCmd → State) : Answer :=
  match s.headOf s.here with
  | none => .next s
  | some q => match firstBad' (checks q) with
    | some (c, w) => .next (s.cmdReject s.here c w)
    | none => .next (act q)

/-- Bits hi … lo of a command word. -/
def wBits (w : BitVec 32) (hi lo : Nat) : Nat := bitsOf w.toNat hi lo

/-- A check that a word has no bits above a number. -/
def upTo (w : BitVec 32) (bits word : Nat) : Chk := { ok := decide (w.toNat < 2 ^ bits), code := 0x51, word := word }

/-- A check that a command word is zero. -/
def zeroWord (w : BitVec 32) (word : Nat) : Chk := { ok := w == 0, code := 0x51, word := word }

/-- A check that a command's flags have only some bits. -/
def flagsIn (c : CmdArgs) (mask : BitVec 8) : Chk := { ok := c.flags &&& mask == c.flags, code := 0x51, word := 0 }

/-- A 64-bit value of w2:w1. -/
def cmdAddr (c : CmdArgs) : BitVec 64 := c.w2 ++ c.w1

/-- The node that a command names on the core of the unit. -/
def State.cmdNode (s : State) (id : Nat) : Option Node := s.teamNode s.here id

/-- The region of the team of the unit's core, with its number. -/
def State.cmdRegion (s : State) : Option (Nat × Region) :=
  match (s.coreAt s.here).team with
  | some _ =>
    let r := (s.teamAt s.here).region
    (tget s.regions r).map (fun g => (r, g))
  | none => s.fabricOf s.here

/-! ### Ports: FEED, BINDW, RETRY (R249, R250, R253) -/

/-- Whether a node is a global port. -/
def globalOp (op : Nat) : Bool := op == 0x86 || op == 0x87

/-- Whether a node is an indexed port (R104, R186). -/
def indexedOp (op : Nat) : Bool := op == 0x82 || op == 0x83 || op == 0x84

/-- Steps 2 and 3 of R249: an axis merged into the one before it where its stride continues it. -/
def mergeAxes : List (Nat × Int) → List (Nat × Int)
  | a :: t => match mergeAxes t with
    | [] => [a]
    | _ => mergeInto a t
  | [] => []
where
  /-- The axes from one on, as much merged into it as continues it. -/
  mergeInto : Nat × Int → List (Nat × Int) → List (Nat × Int)
    | a, [] => [a]
    | a, b :: t => if b.2 = (a.1 : Int) * a.2 then mergeInto (a.1 * b.1, a.2) t else a :: mergeInto b t

/-- The pattern that R249 forms from a record and its origins: none where it fits no port of element width w, of which BASE and
every stride must be multiples (R180). -/
def formPattern (r : TRec) (org : List Nat) (w : Nat) : Option Pattern :=
  let cnt := List.zipWith (· - ·) r.ext org
  let base := strideSum org r.str
  let merged := (mergeAxes (List.zip cnt r.str)).filter (fun a => decide (1 < a.1))
  let start : Int := match spaceOf r.base with
    | .localMem off => (off : Int) + base
    | .global va => (va : Int) + base
    | _ => -1
  if decide (merged.length ≤ 4) && decide (0 ≤ start) && start % (w : Int) == 0 && merged.all (fun a => decide (a.1 ≤ 65536) && decide (-(2 ^ 23) ≤ a.2 ∧ a.2 < 2 ^ 23) && a.2 % (w : Int) == 0) then
    some
      { base := start.toNat,
        cnt := merged.map Prod.fst ++ List.replicate (4 - merged.length) 1,
        str := merged.map Prod.snd ++ List.replicate (4 - merged.length) 0 }
  else none

/-- The origins of a binding (R249): overridden on axes 0 and 1; ignored by indexed ports. -/
def bindOrigins (op : Nat) (shifted : Bool) (c : CmdArgs) (r : TRec) : List Nat :=
  if indexedOp op then List.replicate r.rank 0
  else if shifted then lmod (lmod r.org 0 (fun _ => c.w2.toNat)) 1 (fun _ => c.w3.toNat)
  else r.org

/-- Whether a record suits a port (R15, R185, R249, R269), and its pattern passes R181. A global port accesses no tile (R178), so that
a record with an exponent plane does not suit it (log 79). -/
def bindRecOk (modes : List MemMode) (id : Nat) (n : Node) (r : TRec) (org : List Nat) : Bool :=
  let w := portWidth n.rcd.fmt.toNat
  let spaceOk := match spaceOf r.base with
    | .global _ => globalOp n.op && decide (r.rank ≤ 4)
    | .localMem off => !globalOp n.op && decide (off / 2 ^ 20 = memTile id)
    | _ => false
  r.fmt == n.rcd.fmt.toNat && spaceOk &&
  (match formPattern r org w with
    | none => false
    | some q =>
      let sp := q.span w
      (if globalOp n.op then decide (0 ≤ sp.1) && decide (sp.2 ≤ 2 ^ 57) else spanOk modes id sp.1 sp.2) &&
      (r.blockMode == 0 || indexedOp n.op ||
        (!globalOp n.op && r.blockLen == blenOf n.rcd && (match spaceOf r.plane with
          | .localMem o => spanOk modes id o (o + q.planeLen w (blenOf n.rcd) : Nat)
          | _ => false))))

/-- The checks of FEED and BINDW (R249). -/
def State.bindChecks (s : State) (c : CmdArgs) (ops : List Nat) (limit : Bool) (q : QCmd) : List Chk :=
  let id := c.target.toNat
  let shifted := c.flags.getLsbD 0
  let modes := match s.teamCfg s.here with
    | some g => g.modes
    | none => []
  [flagsIn c 1, { ok := limit || wBits c.w1 31 8 == 0, code := 0x51, word := 1 },
   { ok := shifted || c.w2 == 0, code := 0x51, word := 2 }, { ok := shifted || c.w3 == 0, code := 0x51, word := 3 }] ++
  (match s.cmdNode id with
    | none => [{ ok := false, code := 0x52, word := 0 }]
    | some n =>
      if !ops.contains n.op then [{ ok := false, code := 0x52, word := 0 }]
      else match (s.touch s.here (recOffset q.trb (wBits c.w1 7 0))).readRec s.here q.trb (wBits c.w1 7 0) with
        | none => [{ ok := false, code := 0x53, word := 1 }]
        | some r =>
          let org := bindOrigins n.op shifted c r
          let axis0 := !shifted || indexedOp n.op || decide (c.w2.toNat < r.ext.getD 0 1)
          let axis1 := !shifted || indexedOp n.op || (if r.rank = 1 then c.w3 == 0 else decide (c.w3.toNat < r.ext.getD 1 1))
          [{ ok := axis0, code := 0x53, word := 2 }, { ok := axis1, code := 0x53, word := 3 },
           { ok := (limit || !r.readOnly) && (!(axis0 && axis1) || bindRecOk modes id n r org), code := 0x53, word := 1 }])

/-- A node bound to a record (R167, R182, R185, R250): a global port keeps its pattern in the binding. -/
def Node.bindTo (n : Node) (r : TRec) (q : Pattern) (left : Nat) : Node :=
  let cnt := fun i => BitVec.ofNat 32 (q.cnt.getD i 1 - 1)
  let str := fun i => (BitVec.ofInt 24 (q.str.getD i 0)).zeroExtend 32
  let m := if globalOp n.op then n
    else
      (((((((n.setReg 5 (BitVec.ofNat 32 q.base)).setReg 6 (cnt 0 + cnt 1 * 65536)).setReg 7 (cnt 2 + cnt 3 * 65536)).setReg 8 (str 0)).setReg 9
        (str 1)).setReg 10 (str 2)).setReg 11 (str 3))
  { (((m.setIndices 0 [0, 0, 0, 0]).setReg 16 (BitVec.ofNat 32 left)).setReg 17 1) with
    bind := some (if globalOp n.op then { r with base := BitVec.ofNat 64 q.base, ext := q.cnt, str := q.str } else r),
    burst := 0, prog := 0, part := [], exh := false }

/-- Whether a node of a core may be bound to a pattern now (R331). -/
def State.bindClear (s : State) (p id : Nat) (n : Node) (q : Pattern) : Bool := match (s.coreAt p).cfg with
  | some g => g.bindClear id n q
  | none => true

/-- The effect of FEED and BINDW once the node has finished every instant it has begun (R250), and the order of its tile's accesses
lets it (R331): a binding in a done domain has none. -/
def State.bindPort (s : State) (c : CmdArgs) (left : Nat) (q : QCmd) : State :=
  let p := s.here
  let id := c.target.toNat
  match s.cmdNode id with
  | none => s
  | some n =>
    if n.mid || n.hold.isSome then s
    else match s.readRec p q.trb (wBits c.w1 7 0) with
      | none => s
      | some r =>
        let org := bindOrigins n.op (c.flags.getLsbD 0) c r
        let ended := match s.domOf p n with
          | some d => d.done
          | none => false
        match formPattern r org (portWidth n.rcd.fmt.toNat) with
        | some pat =>
          if ended then s.cmdDone p 0
          else if !s.bindClear p id n pat then s
          else ((s.modCfg p (fun g => g.retire id n)).setNode p id (n.bindTo r pat left)).cmdDone p 0
        | none => s

/-- FEED: binds a read node (R249, R250). -/
def execFeed (c : CmdArgs) (s : State) : Answer :=
  s.runCmd (s.bindChecks c [0x80, 0x82, 0x86] true) (s.bindPort c (wBits c.w1 31 8))

/-- BINDW: binds a write node (R249, R250). -/
def execBindw (c : CmdArgs) (s : State) : Answer :=
  s.runCmd (s.bindChecks c [0x81, 0x83, 0x84, 0x87] false) (s.bindPort c 0)

/-- RETRY: the held access of a port is attempted again (R253, R290). -/
def execRetry (c : CmdArgs) (s : State) : Answer :=
  let id := c.target.toNat
  s.runCmd (fun _ =>
    [flagsIn c 0, zeroWord c.w1 1, zeroWord c.w2 2, zeroWord c.w3 3,
     { ok := decide (64 ≤ id ∧ id < 80) && (s.cmdNode id).isSome, code := 0x52, word := 0 },
     { ok := (s.cmdNode id).any (fun n => n.hold.isSome), code := 0x54, word := 0 }])
    (fun _ => (s.modNode s.here id (fun n => { n with hold := none })).cmdDone s.here 0)

/-! ### Tokens: BOUND, STEERT, INJECT (R251, R252) -/

/-- The instant that w1 and w2[15:0] name (R252, R259). -/
def cmdInstant (c : CmdArgs) : Nat := c.w1.toNat + c.w2.toNat % 2 ^ 16 * 2 ^ 32

/-- The instant that a 48-bit number names beside a counter: counters run on in the model and are read modulo 2^48, and the
number names an instant of the same turn of the counter (R130, log 71). -/
def instantNear (ctr t : Nat) : Nat := ctr / 2 ^ 48 * 2 ^ 48 + t

/-- The tokens queued on a command input: a token that its instant has taken is queued no more (R251). -/
def Node.queued (n : Node) (i : Nat) : List (Nat × Nat × Burst) :=
  n.toks.filter (fun k => k.1 == i && !n.begun (k.2.1 + lagOf n.rcd i))

/-- The checks that the three token commands share (R252): `fits` says whether the node and the input suit the command. -/
def State.tokenChecks (s : State) (c : CmdArgs) (fits : Node → Nat → Bool) : List Chk :=
  let id := c.target.toNat % 128
  let i := bitsOf c.target.toNat 9 8
  [flagsIn c 0, { ok := bitsOf c.target.toNat 15 10 == 0 && bitsOf c.target.toNat 7 7 == 0, code := 0x51, word := 0 },
   { ok := wBits c.w2 31 16 == 0, code := 0x51, word := 2 }] ++
  (match s.cmdNode id with
    | none => [{ ok := false, code := 0x52, word := 0 }]
    | some n =>
      let isInput := decide (i < 3) && inputUsed n.op n.rcd i && (match s.chanAt s.here (inputEp n.rcd i) with
        | some ch => isCommandInput id ch.ent
        | none => false)
      let mine := n.queued i
      let t := instantNear n.inst (cmdInstant c)
      [{ ok := isInput && fits n i, code := 0x52, word := 0 },
       { ok := !mine.any (fun k => k.2.1 == t), code := 0x54, word := 1 },
       { ok := !n.begun t, code := 0x55, word := 1 },
       { ok := decide (mine.length < 4), code := 0x57, word := 0 }])

/-- A token queued on a command input (R251); in a done domain no instant reaches it. -/
def State.queueToken (s : State) (c : CmdArgs) (b : Burst) : State :=
  let id := c.target.toNat % 128
  let i := bitsOf c.target.toNat 9 8
  let ended := match s.cmdNode id with
    | some n => (s.domOf s.here n).any (fun (d : Dom) => d.done)
    | none => true
  (if ended then s else s.modNode s.here id (fun n => { n with toks := n.toks ++ [(i, instantNear n.inst (cmdInstant c), b)] })).cmdDone s.here 0

/-- A token of a header and beats of the scratchpad queued on a command input (R252); where one of `checked` bytes from an offset on
cannot be corrected, the error token instead, with record 0x10 (R117, R353). -/
def State.queueBlock (s : State) (c : CmdArgs) (at_ checked off level : Nat) (hdr : BitVec 32) : State :=
  if s.badIn (scratchKey s.here at_) checked then
    (s.fault (s.partOf s.here) { s.recAt s.here 0x10 0xFF 0xFF with addr := at_, bank := 64 + bankOf at_ }).queueToken c (errToken 0x10 0 level)
  else s.queueToken c { hdr := hdr, beats := s.peekBeats s.here off (beatsOf hdr) }

/-- BOUND: a bound token on input B of a CNT (R252, R160). -/
def execBound (c : CmdArgs) (s : State) : Answer :=
  let off := c.w3.toNat % 2 ^ 22
  s.runCmd (fun _ => s.tokenChecks c (fun n i => n.op == 0x65 && i == 1) ++ [upTo c.w3 22 3, { ok := off % 64 == 0, code := 0x51, word := 3 }])
    (fun _ =>
      let z := s.touch s.here off
      z.queueBlock c off 64 off 0 (mkHdr 3 0 0 0 0))

/-- STEERT: a steering token on input C of a DRAIN (R252, R174). -/
def execSteert (c : CmdArgs) (s : State) : Answer :=
  s.runCmd (fun _ => s.tokenChecks c (fun n i => n.op == 0x42 && i == 2) ++ [upTo c.w3 12 3])
    (fun _ => s.queueToken c { hdr := mkHdr 4 0 0 0 (c.w3.toNat % 2 ^ 12), beats := [] })

/-- INJECT: a header and its beats from the scratchpad on any command input (R252). -/
def execInject (c : CmdArgs) (s : State) : Answer :=
  let off := c.w3.toNat % 2 ^ 22
  let z := s.touch s.here off
  let hdr := BitVec.ofNat 32 (z.peekLocalNat s.here off 4)
  s.runCmd (fun _ => s.tokenChecks c (fun _ _ => true) ++
    [upTo c.w3 22 3, { ok := off % 64 == 0 && decide (hdrKind hdr ≤ 5) && decide (off + 64 + 64 * beatsOf hdr ≤ 2 ^ 22), code := 0x51, word := 3 }])
    (fun _ =>
      let z1 := z.touch s.here (off + 64 * beatsOf hdr)
      if z.badIn (scratchKey s.here off) 4 then z1.queueBlock c off 4 (off + 64) 0 hdr
      else z1.queueBlock c (off + 64) (64 * beatsOf hdr) (off + 64) (hdrLevel hdr) hdr)

/-! ### Copies: TARM, TFIRE, TDISARM, COPY, LXRUN (R254–R256) -/

/-- Whether an offset may hold a layout program: on 8 bytes in control memory (R271). -/
def progOffOk (o : Nat) : Bool := o % 8 == 0 && decide (0x3E0000 ≤ o ∧ o < 2 ^ 22)

/-- The words of a layout program, at most 32 (R271). -/
def State.readProg (s : State) (p o : Nat) : List (BitVec 64) :=
  (List.range (min 32 ((2 ^ 22 - o) / 8))).map (fun k => BitVec.ofNat 64 (s.peekLocalNat p (o + 8 * k) 8))

/-- Whether a record's base names cores of the team, or of the next child of a PIPE (R254, R312). -/
def State.copyBaseOk (s : State) (p : Nat) (r : TRec) : Bool :=
  match spaceOf r.base with
  | .peer l _ =>
    let tm := s.teamAt p
    decide (l < tm.count) || (match tget s.tasks tm.task with
      | some k => k.parentKind tm.leaf == 2 && (k.sibling tm.leaf false).any (fun n => decide (l - tm.count < n.h * n.w))
      | none => false)
  | _ => true

/-- Whether two formats may be paired in a copy (R254). -/
def pairOk (a b : Nat) : Bool := a == b || !(a == 0x20 || a == 0x21 || b == 0x20 || b == 0x21)

/-- The records and the program that a copy command names: the template, once its checks hold (R254). -/
def State.copyTemplate (s : State) (c : CmdArgs) (q : QCmd) : Option Template :=
  let p := s.here
  match s.readRec p q.trb (wBits c.w1 7 0), s.readRec p q.trb (wBits c.w1 15 8) with
  | some src, some dst =>
    let o := if c.w3.toNat % 2 ^ 22 = 0 then src.prog else c.w3.toNat % 2 ^ 22
    some
      { src := src, dst := dst, red := wBits c.w1 17 16, core := wBits c.w2 9 0, box := wBits c.w2 12 10,
        once := c.flags.getLsbD 0, prog := if o = 0 then [] else s.readProg p o }
  | _, _ => none

/-- Whether a copy command asks for a reduction into an INDEX or PRED destination (R254): the destination's record alone
tells, whatever becomes of the source's. -/
def State.copyReduces (s : State) (c : CmdArgs) (q : QCmd) : Bool :=
  wBits c.w1 17 16 != 0 && match s.readRec s.here q.trb (wBits c.w1 15 8) with
    | some dst => dst.fmt == 0x20 || dst.fmt == 0x21
    | none => false

/-- The checks that TARM and COPY share (R200, R254, R268, R274). -/
def State.copyChecks (s : State) (c : CmdArgs) (q : QCmd) : List Chk :=
  let p := s.here
  let w3 := c.w3.toNat % 2 ^ 22
  [upTo c.w1 18 1, { ok := decide (c.w2.toNat < 2 ^ 13) && decide (wBits c.w2 12 10 ≤ 5) && decide (wBits c.w2 9 0 < (s.teamAt p).count), code := 0x51, word := 2 },
   upTo c.w3 22 3, { ok := w3 == 0 || progOffOk w3, code := 0x51, word := 3 },
   { ok := !s.copyReduces c q, code := 0x51, word := 1 }] ++
  (match s.copyTemplate c q with
    | none => [{ ok := false, code := 0x53, word := 1 }]
    | some t =>
      let x : LxPair := { src := t.src, dst := t.dst }
      let o := if w3 = 0 then t.src.prog else w3
      [{ ok := !t.dst.readOnly && s.copyBaseOk p t.src && s.copyBaseOk p t.dst && pairOk t.src.fmt t.dst.fmt, code := 0x53, word := 1 },
       { ok := o != 0 || t.src.count == t.dst.count, code := 0x53, word := 1 },
       { ok := o == 0 || (progOffOk o && !s.badIn (scratchKey p o) (8 * t.prog.length) && (lxProgram x t.prog).code == 0), code := 0x53, word := 3 }])

/-- TARM: arms a template (R254). -/
def execTarm (c : CmdArgs) (s : State) : Answer :=
  let p := s.here
  let t := c.target.toNat
  let e := (s.coreAt p).ce
  s.runCmd (fun q => [flagsIn c 1, { ok := decide (t < 16), code := 0x52, word := 0 }] ++ s.copyChecks c q ++
    [{ ok := e.queued t == 0 && !e.jobs.any (fun j => j.tpl == some t), code := 0x57, word := 0 }])
    (fun q => match s.copyTemplate c q with
      | some tpl => (s.modCe p (fun e => { e with templates := tset e.templates t tpl })).cmdDone p 0
      | none => s)

/-- TFIRE: places a trigger, once the template's queue has room (R255). -/
def execTfire (c : CmdArgs) (s : State) : Answer :=
  let p := s.here
  let t := c.target.toNat
  let e := (s.coreAt p).ce
  s.runCmd (fun _ => [flagsIn c 0, zeroWord c.w1 1, zeroWord c.w2 2, zeroWord c.w3 3, { ok := decide (t < 16), code := 0x52, word := 0 },
      { ok := (tget e.templates t).isSome, code := 0x54, word := 0 }])
    (fun _ =>
      if trigSize ≤ e.queued t then s
      else (s.modCe p (fun e => e.place { tpl := some t, job := none, level := 0, value := 0, empty := false })).cmdDone p 0)

/-- TDISARM: disarms a template and discards its triggers (R255). -/
def execTdisarm (c : CmdArgs) (s : State) : Answer :=
  let p := s.here
  s.runCmd (fun _ => [flagsIn c 0, zeroWord c.w1 1, zeroWord c.w2 2, zeroWord c.w3 3, { ok := decide (c.target.toNat < 16), code := 0x52, word := 0 }])
    (fun _ => (s.modCe p (fun e => e.disarm c.target.toNat)).cmdDone p 0)

/-- COPY: one copy without a template (R255). -/
def execCopy (c : CmdArgs) (s : State) : Answer :=
  let p := s.here
  s.runCmd (fun q => [flagsIn c 0, { ok := c.target == 0, code := 0x51, word := 0 }] ++ s.copyChecks c q)
    (fun q => match s.copyTemplate c q with
      | some tpl => (s.modCe p (fun e => e.place { tpl := none, job := some tpl, level := 0, value := 0, empty := false })).cmdDone p 0
      | none => s)

/-- LXRUN's result word (R256). -/
def lxResult (dst : TRec) (e : LxEnd) : BitVec 64 :=
  BitVec.ofNat 64 (e.count / lanesPer dst.fmt * portWidth dst.fmt % 2 ^ 32 + (if e.code = 0 then 0 else e.at_ * 2 ^ 32) + e.code * 2 ^ 40)

/-- LXRUN: checks a layout program (R256). A program with an uncorrectable word is rejected as one of TARM is (R405, log 12). -/
def execLxrun (c : CmdArgs) (s : State) : Answer :=
  let p := s.here
  let o := c.w3.toNat
  s.runCmd (fun q =>
    [flagsIn c 0, { ok := c.target == 0, code := 0x51, word := 0 }, upTo c.w1 16 1, zeroWord c.w2 2,
     { ok := decide (o < 2 ^ 22) && progOffOk o, code := 0x51, word := 3 },
     { ok := (s.readRec p q.trb (wBits c.w1 7 0)).isSome && (s.readRec p q.trb (wBits c.w1 15 8)).isSome, code := 0x53, word := 1 },
     { ok := !s.badIn (scratchKey p o) (8 * (s.readProg p o).length), code := 0x53, word := 3 }])
    (fun q => match s.readRec p q.trb (wBits c.w1 7 0), s.readRec p q.trb (wBits c.w1 15 8) with
      | some a, some b => s.cmdDone p (lxResult b (lxProgram { src := a, dst := b } (s.readProg p o)))
      | _, _ => s)

/-! ### Configuration and domains: CFGLD, CFGQ, DOMGO, DOMSTOP (R257–R259) -/

/-- CFGLD: refused with the lowest code, 0x01, while its region is not drained, else checked (R246, R257), and a wave with the
loader's checks (R68–R70, R134). -/
def execCfgld (c : CmdArgs) (s : State) : Answer :=
  let p := s.here
  let a := cmdAddr c
  let spaceOk := match spaceOf a with
    | .global _ => true
    | .localMem _ => true
    | _ => false
  let rests := match s.cmdRegion with
    | some (k, _) => s.drained k
    | none => true
  s.runCmd (fun _ => if !rests then [] else [flagsIn c 0, { ok := c.target == 0, code := 0x51, word := 0 }, { ok := a.toNat % 64 == 0, code := 0x51, word := 1 },
      { ok := spaceOk, code := 0x51, word := 2 }, upTo c.w3 18 3, { ok := s.cmdRegion.isSome, code := 0x54, word := 0 }])
    (fun _ => match s.cmdRegion with
      | none => s
      | some (k, _) =>
        if !s.drained k then (s.modRegion k (fun r => { r with detail := 1 })).cmdReject p 1 0
        else
          let r := s.loadImage k p a (some (wBits c.w3 7 0, wBits c.w3 15 8, wBits c.w3 17 16 + 1))
          if r.2 = 0 then r.1.cmdDone p 0 else r.1.cmdReject p (r.2.toNat % 256) 0)

/-- Registers that a node defines (R77, R137, R167). -/
def regCount (n : Node) : Nat :=
  match n.op with
  | 0x40 => 5
  | 0x41 => 4
  | 0x42 => 6
  | 0x86 | 0x87 => 18
  | 0x88 => 6
  | 0x89 => 4
  | op => match opRow op n.rcd with
    | some row => row.regs
    | none => 0

/-- Whether CFGQ may clear a register (R258): FLAGS, DROPS, a port's ECNT. -/
def clearable (n : Node) (k : Nat) : Bool := decide (k < 2) || (k == 3 && decide (0x80 ≤ n.op ∧ n.op ≤ 0x87) && n.op != 0x85)

/-- The status of a domain as CFGQ reads it (R258). -/
def domStatus : Option Dom → BitVec 64
  | none => 0
  | some d =>
    let st := if d.stopped then 4 else if d.done then 3 else if !d.unlim && decide (d.lim ≤ d.ctr) then 1 else 2
    BitVec.ofNat 64 (d.ctr % 2 ^ 48 + st * 2 ^ 48)

/-- CFGQ: reads a node register, a domain's status or the detail word (R258). -/
def execCfgq (c : CmdArgs) (s : State) : Answer :=
  let p := s.here
  let t := c.target.toNat
  let k := wBits c.w1 15 0
  let clear := c.flags.getLsbD 0
  let node := if t < 96 then s.cmdNode t else none
  let reg := s.cmdRegion
  s.runCmd (fun _ =>
    [flagsIn c 1, upTo c.w1 16 1, zeroWord c.w2 2, zeroWord c.w3 3] ++
    (if t < 96 then match node with
      | none => [{ ok := false, code := 0x52, word := 0 }]
      | some n => [{ ok := decide (k < regCount n), code := 0x52, word := 1 }, { ok := !clear || clearable n k, code := 0x52, word := 0 }]
     else [{ ok := decide (0x100 ≤ t ∧ t < 0x104) || t == 0x200, code := 0x52, word := 0 }, { ok := k == 0, code := 0x51, word := 1 },
       { ok := !clear, code := 0x52, word := 0 }]))
    (fun _ =>
      if t < 96 then match node with
        | none => s
        | some n =>
          if n.mid || n.hold.isSome then s
          else
            let s1 := if clear then s.setNode p t (n.setReg k 0) else s
            s1.cmdDone p ((n.reg k).zeroExtend 64)
      else if t = 0x200 then s.cmdDone p (match reg with
        | some (_, r) => r.detail
        | none => 0)
      else s.cmdDone p (domStatus (reg.bind (fun r => r.2.doms[t - 0x100]?))))

/-- The limit as a command returns it (R259). -/
def Dom.result (d : Dom) : BitVec 64 := if d.unlim then 0xFFFFFFFFFFFF else BitVec.ofNat 64 (d.lim % 2 ^ 48)

/-- DOMGO's grant (R259): a done domain is unaffected. -/
def Dom.grant (d : Dom) (n : Nat) : Dom :=
  if d.done then d else if n = 0 then { d with unlim := true } else if d.unlim then d else { d with lim := d.lim + n }

/-- The instants that a domain of a region has begun (R259). -/
def State.begunIn (s : State) (r : Region) (i : Nat) (d : Dom) : Nat :=
  (((s.nodesOf r).filter (fun n => n.2.2.dom == i)).map (fun n => n.2.2.inst + (if n.2.2.mid || n.2.2.hold.isSome then 1 else 0))).foldl Nat.max d.ctr

/-- DOMSTOP's limit (R259): after instant T, or, with every bit of T set, after the instants begun. -/
def Dom.stopAt (d : Dom) (t begun : Nat) : Dom :=
  let l := if t = 2 ^ 48 - 1 then begun else max (instantNear d.ctr t + 1) begun
  if d.unlim || decide (l < d.lim) then { d with lim := l, unlim := false } else d

/-- The checks of DOMGO and DOMSTOP (R259). -/
def State.domChecks (s : State) (c : CmdArgs) : List Chk :=
  let i := c.target.toNat % 4
  [flagsIn c 0, { ok := decide (c.target.toNat < 4), code := 0x51, word := 0 }, upTo c.w2 16 2, zeroWord c.w3 3,
   { ok := (s.cmdRegion.bind (fun r => r.2.doms[i]?)).isSome, code := 0x54, word := 0 }]

/-- DOMGO: grants instants (R259). -/
def execDomgo (c : CmdArgs) (s : State) : Answer :=
  let i := c.target.toNat % 4
  s.runCmd (fun _ => s.domChecks c) (fun _ => match s.cmdRegion with
    | none => s
    | some (k, r) => match r.doms[i]? with
      | none => s
      | some d =>
        let d' := d.grant (cmdInstant c)
        (s.modRegion k (fun r => { r with doms := lmod r.doms i (fun _ => d'), begun := true })).cmdDone s.here d'.result)

/-- DOMSTOP: bounds a domain's instants (R259). -/
def execDomstop (c : CmdArgs) (s : State) : Answer :=
  let i := c.target.toNat % 4
  s.runCmd (fun _ => s.domChecks c) (fun _ => match s.cmdRegion with
    | none => s
    | some (k, r) => match r.doms[i]? with
      | none => s
      | some d =>
        let d' := d.stopAt (cmdInstant c) (s.begunIn r i d)
        (s.modRegion k (fun r => { r with doms := lmod r.doms i (fun _ => d') })).cmdDone s.here d'.result)

/-! ### Wheels: WHEELDEF, HUBRD (R261, R262) -/

/-- The member table of a wheel: rank order, each a logical core and a window base (R261). -/
def State.wheelMembers (s : State) (off n : Nat) : List (BitVec 64) :=
  (List.range n).map (fun k => BitVec.ofNat 64 (s.peekLocalNat s.here (off + 8 * k) 8))

/-- Whether a member entry is within its limits (R261). -/
def memberOk (count len : Nat) (e : BitVec 64) : Bool :=
  bitsOf e.toNat 31 10 == 0 && bitsOf e.toNat 63 54 == 0 && decide (bitsOf e.toNat 9 0 < count) && decide (bitsOf e.toNat 53 32 + len ≤ 0x3E0000)

/-- WHEELDEF: defines a wheel of the team (R261, R339). -/
def execWheeldef (c : CmdArgs) (s : State) : Answer :=
  let p := s.here
  let fmt := wBits c.w1 5 0
  let n := wBits c.w1 22 16
  let len := wBits c.w2 21 0
  let off := wBits c.w3 21 0
  let s1 := s.touchSpan p off (8 * n)
  let table := s1.wheelMembers off n
  let ids := table.map (fun e => bitsOf e.toNat 9 0)
  s.runCmd (fun _ =>
    [flagsIn c 0, { ok := decide (c.target.toNat < 16), code := 0x52, word := 0 },
     { ok := isWheelFmt fmt && wBits c.w1 11 10 == 0 && wBits c.w1 31 23 == 0 && (fmt == 0x14 || wBits c.w1 9 9 == 0) && decide (2 ≤ n ∧ n ≤ 64),
       code := 0x51, word := 1 },
     { ok := decide (c.w2.toNat < 2 ^ 22) && len != 0 && len % 64 == 0, code := 0x51, word := 2 },
     { ok := decide (c.w3.toNat < 2 ^ 22) && off % 8 == 0 && decide (off + 8 * n ≤ 2 ^ 22) && !s.badIn (scratchKey p off) (8 * n) &&
         table.all (memberOk (s.teamAt p).count len) && ids.eraseDups.length == ids.length, code := 0x51, word := 3 }])
    (fun _ =>
      let wh : Wheel :=
        { fmt := fmt, op := wBits c.w1 7 6, error := wBits c.w1 8 8 == 1, sat := wBits c.w1 9 9 == 1, bar := wBits c.w1 15 12, len := len,
          members := table.map (fun e => (bitsOf e.toNat 9 0, bitsOf e.toNat 53 32)) }
      (s1.modTeamAt p (fun t => { t with wheels := tset t.wheels c.target.toNat wh })).cmdDone p 0)

/-- HUBRD: begins a hub read, under the wheel's definition of now; HUB_READ performs it once its phase is complete (R261,
R262, R341). -/
def execHubrd (c : CmdArgs) (s : State) : Answer :=
  let p := s.here
  let w := s.wheelAt p c.target.toNat
  let off := wBits c.w1 21 0
  let beats := wBits c.w2 21 16 + 1
  let dest := wBits c.w3 21 0
  if (s.coreAt p).hubCmd.isSome then .next s
  else s.runCmd (fun _ =>
    [flagsIn c 0, { ok := decide (c.w1.toNat < 2 ^ 22) && off % 64 == 0, code := 0x51, word := 1 }, upTo c.w2 22 2,
     { ok := decide (c.w3.toNat < 2 ^ 22) && dest % 64 == 0 && decide (dest + 64 * beats ≤ 2 ^ 22), code := 0x51, word := 3 },
     { ok := decide (c.target.toNat < 16) && w.isSome, code := 0x52, word := 0 }])
    (fun _ => s.modCore p (fun k => { k with hubCmd := some { wheel := w, off := off, beats := beats, phase := c.w2.extractLsb' 0 16, dest := dest } }))

/-! ### AMXR, CKPT, CKDRAIN, BKEY (R263–R265) -/

/-- AMXR: reads and resets a record's amax register (R263). -/
def execAmxr (c : CmdArgs) (s : State) : Answer :=
  let p := s.here
  let trb := (s.ctlAt p).trb
  let n := c.target.toNat % 256
  let o := recOffset trb n
  let z := s.touch p o
  s.runCmd (fun _ => [flagsIn c 0, { ok := decide (c.target.toNat < 256), code := 0x51, word := 0 }, zeroWord c.w1 1, zeroWord c.w2 2, zeroWord c.w3 3,
      { ok := (z.readRec p trb n).isSome, code := 0x53, word := 0 }])
    (fun _ =>
      let m := z.peekLocalNat p (o + 0xA0) 4
      let f := z.peekLocalNat p (o + 0xA4) 4
      (z.poke (scratchKey p (o + 0xA0)) (List.replicate 8 0)).cmdDone p
        (BitVec.ofNat 64 (m + f % 2 * 2 ^ 32 + min (f / 2) (2 ^ 30 - 1) * 2 ^ 33)))

/-- The leaf entries of the pages of a range of granules, if every page is mapped writable (R265). -/
def State.rangeLeaves (s : State) (part base : Nat) : Nat → Option (List Nat)
  | 0 => some []
  | n + 1 => match s.walkTable part (65536 * (base + n)) with
    | some (a, e, _) => if pteW e then (s.rangeLeaves part base n).map (fun l => if l.contains a then l else a :: l) else none
    | none => none

/-- COW set in or cleared from a page-table entry (R287). -/
def State.markCow (s : State) (a : Nat) (on : Bool) : State :=
  let e := BitVec.ofNat 64 (s.peekNat a 8)
  let bit : BitVec 64 := 1 <<< 55
  s.poke a (bytesOfNat (if on then e ||| bit else e &&& ~~~bit).toNat 8)

/-- CKPT: marks a range copy-on-write and binds it to a slot (R265, R365). -/
def execCkpt (c : CmdArgs) (s : State) : Answer :=
  let p := s.here
  let part := s.partOf p
  let k := c.target.toNat
  let a := cmdAddr c
  let pages := c.w3.toNat
  let leaves := s.rangeLeaves part (a.toNat / 65536) pages
  let isGlobal := match spaceOf a with
    | .global va => decide (va + 65536 * pages ≤ 2 ^ 57)
    | _ => false
  s.runCmd (fun _ =>
    [flagsIn c 0, { ok := a.toNat % 65536 == 0, code := 0x51, word := 1 }, { ok := isGlobal, code := 0x51, word := 2 },
     { ok := pages != 0, code := 0x51, word := 3 }, { ok := decide (k < 8), code := 0x52, word := 0 },
     { ok := leaves.isSome, code := 0x53, word := 1 }, { ok := (tget (s.partAt part).slots k).isNone, code := 0x57, word := 0 }])
    (fun _ =>
      let s1 := (leaves.getD []).foldl (fun z l => z.markCow l true) (s.tlbDrop part)
      (s1.modPart part (fun pt => { pt with slots := tset pt.slots k { base := a.toNat / 65536, pages := pages, shadows := [], drain := none } })).cmdDone p 0)

/-- CKDRAIN: queues the drain of a slot (R265). -/
def execCkdrain (c : CmdArgs) (s : State) : Answer :=
  let p := s.here
  let part := s.partOf p
  let k := c.target.toNat
  let a := cmdAddr c
  let isGlobal := match spaceOf a with
    | .global _ => true
    | _ => false
  let slot := tget (s.partAt part).slots k
  s.runCmd (fun _ =>
    [flagsIn c 0, { ok := isGlobal, code := 0x51, word := 2 },
     { ok := decide (c.w3.toNat < 2 ^ 13) && decide (wBits c.w3 12 10 ≤ 5) && decide (wBits c.w3 9 0 < (s.teamAt p).count), code := 0x51, word := 3 },
     { ok := decide (k < 8), code := 0x52, word := 0 }, { ok := slot.isSome, code := 0x54, word := 0 },
     { ok := slot.any (fun x => x.drain.isNone) || slot.isNone, code := 0x57, word := 0 }])
    (fun _ =>
      let d : Drain := { dest := a.toNat, core := wBits c.w3 9 0, box := wBits c.w3 12 10, engine := s.lid p, team := ((s.coreAt p).team).getD 0, streamed := false }
      (s.modPart part (fun pt => { pt with slots := pt.slots.map (fun x => if x.1 = k then (x.1, { x.2 with drain := some d }) else x) })).cmdDone p 0)

/-- BKEY: hands a bank's key over; a key that a node holds moves with BANK_KEY_MOVE (R264). -/
def execBkey (c : CmdArgs) (s : State) : Answer :=
  let p := s.here
  let b := c.target.toNat
  let dest := wBits c.w1 7 0
  let keyed := match s.teamCfg p with
    | some g => g.keyed b
    | none => false
  let holderOk := dest == 0xFF || (decide (64 ≤ dest ∧ dest < 80) && memTile dest == b / 16)
  s.runCmd (fun _ =>
    [flagsIn c 0, { ok := decide (b < 64), code := 0x51, word := 0 }, { ok := decide (c.w1.toNat < 256) && holderOk, code := 0x51, word := 1 }, zeroWord c.w2 2, zeroWord c.w3 3, { ok := keyed, code := 0x52, word := 0 }])
    (fun _ => match s.teamCfg p with
      | none => s
      | some g =>
        if g.holder b = 0xFF then (s.modCfg p (fun g => { g with keys := tset g.keys b dest })).cmdDone p 0
        else s.modCfg p (fun g => { g with moves := tset g.moves b dest }))

/-! ### Links: LINKCFG, LINKSTAT (R266) -/

/-- LINKCFG: enables and compresses channels of a port (R266, R377). -/
def execLinkcfg (c : CmdArgs) (s : State) : Answer :=
  let p := s.here
  let grant := (s.partAt (s.partOf p)).grant c.target.toNat
  let en := c.w1.extractLsb' 0 8
  let comp := c.w1.extractLsb' 8 8
  s.runCmd (fun _ =>
    [flagsIn c 0, { ok := decide (c.w1.toNat < 2 ^ 16) && comp &&& en == comp, code := 0x51, word := 1 }, zeroWord c.w2 2, zeroWord c.w3 3,
     { ok := decide (c.target.toNat < 16), code := 0x52, word := 0 }, { ok := en &&& grant == en, code := 0x56, word := 1 }])
    (fun _ => (s.modPort c.target.toNat (fun q => q.configure grant en comp)).cmdDone p 0)

/-- LINKSTAT: reads a port's state (R266). -/
def execLinkstat (c : CmdArgs) (s : State) : Answer :=
  let p := s.here
  s.runCmd (fun _ => [flagsIn c 0, zeroWord c.w1 1, zeroWord c.w2 2, zeroWord c.w3 3, { ok := decide (c.target.toNat < 16), code := 0x52, word := 0 }])
    (fun _ => s.cmdDone p ((s.portAt c.target.toNat).linkstat ((s.partAt (s.partOf p)).grant c.target.toNat)))

/-- UNASSIGNED_COMMAND_CODE: rejected with 0x50 (R246, R247). -/
def execUnassignedCommandCode (_code : BitVec 8) (_c : CmdArgs) (s : State) : Answer := .next (s.cmdReject s.here 0x50 0)

end Sys2Proof.Machine
end

