-- ==== Sys2Proof/Machine/ControlNodes.lean ====
section
/-!
DEFINITION. The control, presence and index nodes of chapter 07, and ISECT (R103): carried bursts, predicates, counters,
walkers, index arithmetic, and the endpoints of the controller.
-/

namespace Sys2Proof.Machine

/-! ### Endpoints of the controller (R105, R144–R146) -/

/-- PASS: each burst unchanged on X, a copy on Y (R105). -/
def execPass (r : NodeRec) (s : State) : Answer := .next (s.firePure 0x00 r (fun n i => both n i.a))

/-- The oldest entry of an outbox removed. -/
def Ctl.popOut (c : Ctl) (b : Nat) : Ctl :=
  { c with outbox := Vector.ofFn (fun i => if i.val = b then c.outbox[i].drop 1 else c.outbox[i]) }

/-- SRC: the oldest status of the outbox k0; it waits while the outbox is empty, and is exhausted after level 7 (R144). -/
def srcReact (s : State) (n : Node) (_ : Ins) : Option (State × React) :=
  if n.exh then some (s, quietReact n)
  else
    let box := (n.rcd.k0.extractLsb' 0 3).toNat
    match (s.ctlAt s.here).out box with
    | [] => none
    | x :: _ =>
      let last := match x with
        | some b => hdrLevel b.hdr == 7
        | none => false
      some (s.modCtl s.here (fun c => c.popOut box), onX { n with exh := last } x)

/-- SRC (R144). -/
def execSrc (r : NodeRec) (s : State) : Answer := .next (s.fireWith 0x01 r true srcReact)

/-- What TRECV writes to sd for a burst that SINK delivered (R229). -/
def sinkWord (h : BitVec 32) : BitVec 64 := BitVec.ofNat 64 (2 ^ 63 + h.toNat)

/-- SINK: a present burst to the inbox k0; it waits while the inbox lacks room (R145). -/
def sinkReact (s : State) (n : Node) (i : Ins) : Option (State × React) :=
  match i.a with
  | none => some (s, quietReact n)
  | some b =>
    let box := (n.rcd.k0.extractLsb' 0 3).toNat
    let e : InEntry := { sd := sinkWord b.hdr, hdr := b.hdr, beats := b.beats }
    if boxRoom ((s.ctlAt s.here).box box) e then some (s.modCtl s.here (fun c => c.putBox box e), quietReact n) else none

/-- SINK (R145). -/
def execSink (r : NodeRec) (s : State) : Answer := .next (s.fireWith 0x02 r false sinkReact)

/-- The report of an error token (R146). -/
def esinkReport (lid id : Nat) (n : Node) (b : Burst) : List Byte :=
  bytesOfNat b.hdr.toNat 4 ++ bytesOfNat n.dom 1 ++ bytesOfNat n.rcd.inA.toNat 1 ++ bytesOfNat id 1 ++ bytesOfNat 0 1 ++
  bytesOfNat (n.inst % 2 ^ 48) 8 ++ bytesOfNat lid 2 ++ bytesOfNat 0 2 ++ bytesOfNat (n.reg 3).toNat 4 ++ bytesOfNat 0 40

/-- ESINK: an error token's report to the ring; other bursts dropped and counted (R146). -/
def esinkReact (s : State) (n : Node) (i : Ins) : Option (State × React) :=
  match i.a with
  | none => some (s, quietReact n)
  | some b =>
    if isErr b then
      let entries := (n.rcd.k1.extractLsb' 0 11).toNat
      let at_ := n.rcd.k0.toNat + 64 * ((n.reg 3).toNat % entries)
      some (s.pokeLocal s.here at_ (esinkReport (s.lid s.here) s.slot n b), quietReact (n.setReg 3 (n.reg 3 + 1)))
    else some (s, quietReact (n.drop 1))

/-- ESINK (R146). -/
def execEsink (r : NodeRec) (s : State) : Answer := .next (s.fireWith 0x03 r false esinkReact)

/-! ### Selecting by predicate (R148–R151) -/

/-- What a predicate input's kind calls for (R138): its error token, or 0x22. -/
def predToken (c : Status) (level : Nat) : Option Burst := kindToken [c] level

/-- The bit of a per-burst predicate: exactly one beat (R140). -/
def predOne (c : Burst) : Option Bool :=
  match c.beats with
  | [x] => some (x.getLsbD 0)
  | _ => none

/-- Whether a burst breaks BLEN where a node's output is one beat of data (R141). -/
def offLength (r : NodeRec) (b : Burst) : Bool := hdrKind b.hdr == 0 && blenOf r != 1

/-- A one-beat output under BLEN: the mismatch's error token in its place (R141, R75); these nodes have no synchronised input,
so its level is 0 (R117). -/
def oneBeat (r : NodeRec) (b : Burst) : Burst := if offLength r b then errToken 0x21 0 0 else b

/-- A reaction with a one-beat output under BLEN: a mismatch keeps the node's state (R141, R75). -/
def React.oneBeat (n : Node) (r : React) : React :=
  if (presentOf [r.x]).any (offLength n.rcd) then failed n 0x21 0 else r

/-- Level of a status; 0 for absence. -/
def levelOf (x : Status) : Nat := maxLevel (presentOf [x])

/-- A node steered by a per-burst predicate (R148, R149): the predicate's kind, then absence, then `f` on the burst and its
bit. An absent predicate is 0 under ABS 1 and the kept one under ABS 3. -/
def steerReact (f : Node → Burst → Bool → React) (n : Node) (i : Ins) : React :=
  let level := levelOf i.a
  match predToken i.c level with
  | some t => both n (some t)
  | none =>
    let m := if n.rcd.abs = 3 then n.keep 2 i.c else n
    let use := fun (a c : Burst) => match predOne c with
      | some b => f m a b
      | none => failed m 0x21 level
    match i.a, i.c with
    | none, _ => quietReact m
    | some a, some c => use a c
    | some a, none => match n.rcd.abs.toNat with
      | 0 => onX (m.drop 1) none
      | 1 => f m a false
      | 3 => match tget m.d 2 with
        | some c => use a c
        | none => failed m 0x23 level
      | _ => failed m 0x23 level

/-- STEER: A to X where the bit is 0, to Y where it is 1 (R148). -/
def execSteer (r : NodeRec) (s : State) : Answer :=
  .next (s.firePure 0x60 r (steerReact (fun n a bit => if bit then onXY n none (some a) else onXY n (some a) none)))

/-- WHEN: A passes where the bit is 1, under .N where it is 0 (R149). -/
def execWhen (r : NodeRec) (s : State) : Answer :=
  .next (s.firePure 0x6B r (steerReact (fun n a bit => onX n (if bit != n.rcd.var.getLsbD 0 then some a else none))))

/-- Width of an element in bits (R140). -/
def elemBits (fmt : Nat) : Nat := if fmt = 0x20 then 1 else 8 * laneWidth fmt

/-- Elements of a burst in order (R140). -/
def elemsOf (fmt : Nat) (b : Burst) : List Nat :=
  let w := elemBits fmt
  b.beats.flatMap (fun x => (List.range (512 / w)).map (fun i => (x.extractLsb' (w * i) w).toNat))

/-- Numbers of a bit width laid side by side, the first lowest. -/
def packBits (w : Nat) : List Nat → Nat
  | [] => 0
  | v :: t => v % 2 ^ w + 2 ^ w * packBits w t

/-- Elements packed into beats, the last filled with a padding element. -/
def beatsOfElems (fmt pad : Nat) (l : List Nat) : List Beat :=
  let w := elemBits fmt
  let per := 512 / w
  (chunk per (l ++ List.replicate ((per - l.length % per) % per) pad)).map (fun g => BitVec.ofNat 512 (packBits w g))

/-- FILTER's elements kept and packed (R150), atoms with A's β whatever BSM is (log 82); an absent predicate under ABS 1 keeps none. -/
def filterCore (n : Node) (a : Burst) (c : Status) : React :=
  let fmt := n.rcd.fmt.toNat
  let level := hdrLevel a.hdr
  let es := elemsOf fmt a
  let reuse := match c with
    | some p => n.rcd.var.getLsbD 0 && p.beats.length == 1
    | none => false
  let ok := match c with
    | some p => reuse || p.beats.length == (es.length + 511) / 512
    | none => true
  let beta := if isAtom fmt then hdrBeta a.hdr else 0
  if !ok then failed n 0x21 level
  else
    let kept := match c with
      | some p => (es.zipIdx.filter (fun x => predBit p reuse x.2)).map Prod.fst
      | none => []
    if kept.isEmpty then onX n (some (emptyFibre level beta))
    else
      let beats := beatsOfElems fmt (if fmt = 0x21 then 0xFFFFFFFF else 0) kept
      if beats.length ≠ blenOf n.rcd then failed n 0x21 level else onX n (some (dataBurst level beta beats))

/-- FILTER's instant (R138, R150): kinds of A and C, then absence as for STEER. -/
def filterReact (n : Node) (i : Ins) : React :=
  let level := levelOf i.a
  match kindToken [i.a, i.c] level with
  | some t => onX n (some t)
  | none =>
    let m := if n.rcd.abs = 3 then n.keep 2 i.c else n
    match i.a, i.c with
    | none, _ => quietReact m
    | some a, some c => filterCore m a (some c)
    | some a, none => match n.rcd.abs.toNat with
      | 0 => onX (m.drop 1) none
      | 1 => filterCore m a none
      | 3 => match tget m.d 2 with
        | some c => filterCore m a (some c)
        | none => failed m 0x23 level
      | _ => failed m 0x23 level

/-- FILTER (R150). -/
def execFilter (r : NodeRec) (s : State) : Answer := .next (s.firePure 0x63 r filterReact)

/-- OMERGE's mismatch (R151): the present bursts dropped and counted, or a fault with its error token. -/
def omergeBad (n : Node) (l : List Burst) : React :=
  if n.rcd.abs = 2 then failed n 0x23 (maxLevel l) else onX (n.drop l.length) none

/-- OMERGE's instant once what it needs is known: `seen` are the synchronous A and B that are present; `chosen` is the
selected input and `other` the synchronous other (R151). -/
def omergeReact (n : Node) (seen : List Burst) (chosen other : Status) : React :=
  match chosen with
  | none => omergeBad n seen
  | some x => match other with
    | none => onX n (some x)
    | some o => omergeBad n [x, o]

/-- OMERGE (R151): C first; an asynchronous A or B is consulted only when it is chosen. -/
def execOmerge (r : NodeRec) (s : State) : Answer :=
  let p := s.here
  let id := s.slot
  match s.nodeHere 0x61 r with
  | none => .next s
  | some n =>
    if !s.mayFire p n then .next s
    else if n.broken then .next (s.nodeLost p id n)
    else if !s.outRoom2 p n then .next s
    else
      let c := s.input p id n 2
      let aft := s.input p id n 3
      let free := fun k => s.isAsync p n k
      let sync := (List.range 2).filter (fun k => !free k)
      let at_ := fun k => s.input p id n k
      if !c.known || !aft.known || !sync.all (fun k => (at_ k).known) then .next s
      else
        let seen := presentOf (sync.map (fun k => (at_ k).get))
        let level := maxLevel seen
        let busy := c.present || aft.present || !seen.isEmpty
        let done := fun (take : List Nat) (q : React) => s.settleTaking (take ++ [2, 3]) p id n q (busy || q.x.isSome)
        match c.get with
        | none => .next (done sync (if seen.isEmpty then quietReact n else omergeBad n seen))
        | some cb =>
          match predToken c.get level, predOne cb with
          | some t, _ => .next (done sync (onX n (some t)))
          | none, none => .next (done sync (failed n 0x21 level))
          | none, some bit =>
            let k := if bit then 1 else 0
            let o := 1 - k
            if !(at_ k).known then .next s
            else .next (done (if sync.contains k then sync else sync ++ [k])
              (omergeReact n seen (at_ k).get (if free o then none else (at_ o).get)))

/-! ### Presence and constructive nodes (R152–R157) -/

/-- PMERGE on resolved inputs: A before B; B beside A is dropped and counted, without .P with a fault (R152, R142). -/
def pmergeReact (n : Node) (i : Ins) : React :=
  match i.a, i.b with
  | some a, some b =>
    let m := n.drop 1
    { onX m (some a) with faults := if n.rcd.var.getLsbD 0 then [] else [(0x25, b.hdr)] }
  | some a, none => onX n (some a)
  | none, x => onX n x

/-- X follows A as soon as A is present (R156). -/
def earlyA (g : NodeRec → Burst → Burst) (n : Node) (a _ _ : Inp) : Option Status :=
  match a with
  | .st (some x) => some (some (g n.rcd x))
  | _ => none

/-- PMERGE (R152, R156). -/
def execPmerge (r : NodeRec) (s : State) : Answer := .next (s.fireEarly 0x62 r (earlyA (fun _ b => b)) pmergeReact)

/-- A one-beat PRED burst with bit 0 as given (R153). -/
def presBurst (bit : Bool) (level : Nat) : Burst := dataBurst level 0 [if bit then 1 else 0]

/-- What PRES makes of a present burst (R153). -/
def presOf (bit : Bool) (b : Burst) : Burst := if isErr b then b else presBurst bit (hdrLevel b.hdr)

/-- PRES on resolved inputs (R153). -/
def presReact (n : Node) (i : Ins) : React :=
  match i.a, i.b with
  | some a, _ => onX n (some (presOf true a))
  | none, some b => onX n (some (presOf false b))
  | none, none => quietReact n

/-- PRES (R153, R156, R141). -/
def execPres (r : NodeRec) (s : State) : Answer :=
  .next (s.fireEarly 0x68 r (earlyA (fun q b => oneBeat q (presOf true b))) (fun n i => (presReact n i).oneBeat n))

/-- The fill burst of DFLT (R107) and DFLT.F (R155). -/
def fillBurst (r : NodeRec) (level : Nat) : Burst :=
  let fmt := r.fmt.toNat
  if r.var.getLsbD 0 then
    let v := (r.k1 ++ r.k0 : BitVec 64).toNat
    let w := elemBits fmt
    let el := if fmt = 0x20 then v % 2 else v % 2 ^ w
    let beat := BitVec.ofNat 512 (packBits w (List.replicate (512 / w) el))
    dataBurst level (betaOut r []) (List.replicate (blenOf r) beat)
  else dataBurst level 0 (List.replicate (blenOf r) 0)

/-- DFLT on resolved inputs: A, else the fill for a present B, else absence (R107, R155). -/
def dfltReact (n : Node) (i : Ins) : React :=
  match i.a, i.b with
  | some a, _ => onX n (some a)
  | none, some b => onX n (some (if isErr b then b else fillBurst n.rcd (hdrLevel b.hdr)))
  | none, none => quietReact n

/-- DFLT (R107, R155, R156). -/
def execDflt (r : NodeRec) (s : State) : Answer := .next (s.fireEarly 0x69 r (earlyA (fun _ b => b)) dfltReact)

/-- PRE: X is the status A carried one instant ago, held in d0 (R157). -/
def preReact (n : Node) (i : Ins) : React :=
  onX (match i.a with
    | some b => { n with d := tset n.d 0 b }
    | none => { n with d := terase n.d 0 }) (tget n.d 0)

/-- PRE (R157): X goes out before A is known. -/
def execPre (r : NodeRec) (s : State) : Answer :=
  .next (s.fireEarly 0x6A r (fun n _ _ _ => some (tget n.d 0)) preReact)

/-- SYNC without .ANY: A's burst with the largest closing level among the named inputs (R154). -/
def syncAllReact (n : Node) (i : Ins) : React :=
  let named := fun k => n.rcd.k0.getLsbD k
  let pick := fun (l : List Status) => ((l.zipIdx).filter (fun x => named x.2)).map Prod.fst
  let ins := pick [i.a, i.b, i.c]
  let level := maxLevel (presentOf ins)
  let m := n.keepAll [i.a, i.b, i.c]
  match absGate n.rcd.abs.toNat ins (pick n.kept) with
  | .quiet => quietReact n
  | .drop k => onX (m.drop k) none
  | .mismatch => failed m 0x20 level
  | .go l => match l with
    | some a :: _ => onX m (some { a with hdr := withLevel a.hdr (maxLevel (presentOf l)) })
    | _ => quietReact m

/-- SYNC.ANY on resolved inputs: 1 where any named input is present (R154). -/
def syncAnyReact (n : Node) (i : Ins) : React :=
  if i.quiet then quietReact n else onX n (some (presBurst true 0))

/-- SYNC.ANY resolves X from the first input that is present (R156). -/
def earlyAny (n : Node) (a b c : Inp) : Option Status :=
  if a.present || b.present || c.present then some (some (oneBeat n.rcd (presBurst true 0))) else none

/-- SYNC (R154, R156, R141). -/
def execSync (r : NodeRec) (s : State) : Answer :=
  .next (if r.var.getLsbD 0 then s.fireEarly 0x6C r earlyAny (fun n i => (syncAnyReact n i).oneBeat n)
    else s.firePure 0x6C r syncAllReact)

/-- REPL's instant (R158): register 3 is HELD, d0 the held burst. Held data of another length than BLEN is a length mismatch,
which keeps the node's state (R141, R75). REPL has no synchronised input, so that the tokens R117 names have level 0; 0x26, which
it does not name, stands where the held burst would, with B's level (log 55). Of two error tokens X carries A's, and an error token comes
before 0x22 (the model's choice, log 90). -/
def replReact (n : Node) (i : Ins) : React :=
  let ins := presentOf [i.a, i.b]
  let level := levelOf i.b
  match ins.find? isErr with
  | some t => onX n (some (passToken t 0))
  | none =>
    if !ins.all isData then onX n (some (errToken 0x22 0 0))
    else
      let m := match i.a with
        | some a => { n with d := tset n.d 0 a }.setReg 3 1
        | none => n
      match i.b with
      | none => onX m none
      | some _ =>
        let rel := (n.rcd.k0.extractLsb' 0 3).toNat
        let held := if m.reg 3 = 1 then tget m.d 0 else none
        let out := match held with
          | some h => { h with hdr := withLevel h.hdr level }
          | none => errToken 0x26 0 level
        let gone := rel ≠ 0 ∧ rel ≤ level
        if hdrKind out.hdr = 0 ∧ out.beats.length ≠ blenOf n.rcd then failed n 0x21 0
        else onX (if gone then { m with d := terase m.d 0 }.setReg 3 0 else m) (some out)

/-- REPL (R158). -/
def execRepl (r : NodeRec) (s : State) : Answer := .next (s.firePure 0x64 r replReact)

/-- LEVEL: the closing level mapped by nibble (R159). -/
def levelReact (n : Node) (i : Ins) : React :=
  onX n (i.a.map (fun b => { b with hdr := withLevel b.hdr (n.rcd.k0.toNat / 16 ^ hdrLevel b.hdr % 16) }))

/-- LEVEL (R159). -/
def execLevel (r : NodeRec) (s : State) : Answer := .next (s.firePure 0x6D r levelReact)

/-! ### Counters and walkers (R160–R162, R103) -/

/-- A one-beat INDEX burst of given tokens, the rest zero. -/
def tokBurst (toks : List Nat) (level : Nat) : Burst := dataBurst level 0 [indexBeat toks 0]

/-- Registers set from a number on. -/
def Node.setRegs (n : Node) (k : Nat) : List (BitVec 32) → Node
  | [] => n
  | v :: t => (n.setReg k v).setRegs (k + 1) t

/-- Token k of a burst's first beat. -/
def tokAt (b : Burst) (k : Nat) : BitVec 32 :=
  match b.beats with
  | x :: _ => tokenOf x k
  | [] => 0

/-- CNT's bound token taken as pending counts (R160). -/
def cntPend (n : Node) (b : Burst) : Node := n.setRegs 9 [tokAt b 0, tokAt b 1, tokAt b 2, 1]

/-- A count replaced by its pending value unless that is zero (R160). -/
def pendOr (pending old : BitVec 32) : BitVec 32 := if pending = 0 then old else pending

/-- Pending counts taken between reductions (R160). -/
def cntReload (n : Node) : Node :=
  if n.reg 3 = 0 ∧ n.reg 12 ≠ 0 then
    let k := pendOr (n.reg 9) (n.reg 6)
    let nn := pendOr (n.reg 10) (n.reg 7)
    let m := pendOr (n.reg 11) (n.reg 8)
    let cn := if nn ≤ n.reg 4 then 0 else n.reg 4
    let cm := if nn ≤ n.reg 4 then n.reg 5 + 1 else n.reg 5
    (n.setRegs 4 [cn, if m ≤ cm then 0 else cm, k, nn, m]).setReg 12 0
  else n

/-- CNT's coordinates emitted and advanced (R160). -/
def cntEmit (n : Node) (level : Nat) : React :=
  let ck := n.reg 3
  let cn := n.reg 4
  let cm := n.reg 5
  let endK := ck = n.reg 6 - 1
  let endN := cn = n.reg 7 - 1
  let endM := cm = n.reg 8 - 1
  let lvl := if endK then (if endN then (if endM then 3 else 2) else 1) else 0
  let ck' := if ck + 1 = n.reg 6 then 0 else ck + 1
  let cn1 := if ck + 1 = n.reg 6 then cn + 1 else cn
  let cn' := if cn1 = n.reg 7 then 0 else cn1
  let cm1 := if cn1 = n.reg 7 then cm + 1 else cm
  let cm' := if cm1 = n.reg 8 then 0 else cm1
  onX (n.setRegs 3 [ck', cn', cm']) (some (tokBurst [ck.toNat, cn.toNat, cm.toNat] (max lvl level)))

/-- CNT's instant (R160); an error token of its own carries level 0, as no input of it is synchronised (R117). -/
def cntReact (n : Node) (i : Ins) : React :=
  let level := levelOf i.a
  let go := fun m : Node => match i.a with
    | none => onX m none
    | some a =>
      if isErr a then onX m (some a)
      else if !isData a then onX m (some (errToken 0x22 0 0))
      else cntEmit (cntReload m) level
  match i.b with
  | none => go n
  | some b =>
    if hdrKind b.hdr = 3 then go (cntPend n b)
    else if isErr b then onX n (some b)
    else onX n (some (errToken 0x22 0 0))

/-- CNT (R160, R141). -/
def execCnt (r : NodeRec) (s : State) : Answer := .next (s.firePure 0x65 r (fun n i => (cntReact n i).oneBeat n))

/-- SE, the end of a fibre (R102). -/
def tokSE : BitVec 32 := 0xFFFFFFFF
/-- EM, the end of a run (R102). -/
def tokEM : BitVec 32 := 0xFFFFFFFE

/-- The positions of a walker (R103): registers 3 to 7. -/
structure Walker where
  pa  : BitVec 32
  pb  : BitVec 32
  pa0 : BitVec 32
  pb0 : BitVec 32
  pae : BitVec 32
  deriving DecidableEq, Repr

/-- A node's walker. -/
def Node.walker (n : Node) : Walker := { pa := n.reg 3, pb := n.reg 4, pa0 := n.reg 5, pb0 := n.reg 6, pae := n.reg 7 }

/-- The walker's registers written. -/
def Node.setWalker (n : Node) (w : Walker) : Node := n.setRegs 3 [w.pa, w.pb, w.pa0, w.pb0, w.pae]

/-- Pair(pa, pb) (R103). -/
def Walker.pair (w : Walker) : Burst := tokBurst [w.pa.toNat, w.pb.toNat] 0

/-- IsectStep on a head pair (R103): the walker after it and Y. -/
def isectStep (w : Walker) (ca cb : BitVec 32) : Walker × Status :=
  if cb = tokEM then ({ w with pa := w.pae + 1, pa0 := w.pae + 1, pb := w.pb0 }, some (emptyFibre 2 0))
  else if ca = tokSE ∧ w.pa = w.pa0 then ({ w with pa := w.pa + 1, pa0 := w.pa + 1, pb := w.pb0 }, some (emptyFibre 2 0))
  else if ca = tokSE ∧ cb = tokSE then ({ w with pae := w.pa, pa := w.pa0, pb := w.pb + 1 }, some (emptyFibre 1 0))
  else if ca = cb then ({ w with pa := w.pa + 1, pb := w.pb + 1 }, some w.pair)
  else if ca < cb then ({ w with pa := w.pa + 1 }, none)
  else ({ w with pb := w.pb + 1 }, none)

/-- UnionStep on a head pair (R162): the walker after it and Y. -/
def unionStep (w : Walker) (ca cb : BitVec 32) : Walker × Status :=
  let tri := fun (p q : BitVec 32) (s : Nat) => some (tokBurst [p.toNat, q.toNat, s] 0)
  if cb = tokEM then ({ w with pa := w.pae + 1, pa0 := w.pae + 1, pb := w.pb0 }, some (emptyFibre 2 0))
  else if ca = tokSE ∧ cb = tokSE then ({ w with pae := w.pa, pa := w.pa0, pb := w.pb + 1 }, some (emptyFibre 1 0))
  else if ca = cb then ({ w with pa := w.pa + 1, pb := w.pb + 1 }, tri w.pa w.pb 3)
  else if ca < cb then ({ w with pa := w.pa + 1 }, tri w.pa 0 1)
  else ({ w with pb := w.pb + 1 }, tri 0 w.pb 2)

/-- A walker's instant (R103), whose outputs have level 0 (R161, R117): what breaks off the walk, a start pair, absence, the end of
the segment, then a step. A present A of any length beside a start pair is discarded, and a start pair longer than one beat gives its
first two tokens: the model's choice where R103 leaves it open (log 81). -/
def walkReact (step : Walker → BitVec 32 → BitVec 32 → Walker × Status) (n : Node) (i : Ins) : React :=
  let ins := presentOf [i.a, i.b]
  match ins.find? isErr with
  | some t => onXY n none (some (passToken t 0))
  | none =>
    if !ins.all (fun b => hdrKind b.hdr == 0) then onXY n none (some (errToken 0x22 0 0))
    else match i.b, i.a with
      | some b, _ =>
        let w : Walker := { pa := tokAt b 0, pb := tokAt b 1, pa0 := tokAt b 0, pb0 := tokAt b 1, pae := n.reg 7 }
        onXY (n.setWalker w) (some w.pair) none
      | none, none => quietReact n
      | none, some a =>
        if a.beats.length ≠ 1 then
          let t := errToken 0x21 0 0
          { onXY n none (some t) with faults := [(0x21, t.hdr)] }
        else if tokAt a 0 = tokEM then onXY n none none
        else
          let r := step n.walker (tokAt a 0) (tokAt a 1)
          onXY (n.setWalker r.1) (some r.1.pair) r.2

/-- ISECT (R103, R161). -/
def execIsect (r : NodeRec) (s : State) : Answer := .next (s.firePure 0x66 r (walkReact isectStep))

/-- UNION (R162, R141). -/
def execUnion (r : NodeRec) (s : State) : Answer :=
  .next (s.firePure 0x67 r (fun n i => (walkReact unionStep n i).oneBeat n))

/-- IRNG: BLEN beats of s + i·d for i < c, the rest 0xFFFF_FFFF (R163). -/
def irngReact (n : Node) (i : Ins) : React :=
  let level := levelOf i.a
  syncReact n [i.a] level 0x20 (fun m l =>
    match l.getD 0 none with
    | none => quietReact m
    | some a =>
      let st := tokAt a 0
      let c := (tokAt a 1).toNat
      let d := tokAt a 2
      if a.beats.length ≠ 1 ∨ 16 * blenOf m.rcd < c then failed m 0x21 level
      else if c = 0 then onX m (some (emptyFibre level 0))
      else
        let toks := (List.range (16 * blenOf m.rcd)).map (fun k =>
          if k < c then (st + BitVec.ofNat 32 k * d).toNat else 0xFFFFFFFF)
        onX m (some (dataBurst level 0 (beatsOfElems 0x21 0 toks))))

/-- IRNG (R163). -/
def execIrng (r : NodeRec) (s : State) : Answer := .next (s.firePure 0x76 r irngReact)

/-! ### Index and predicate arithmetic (R164, R165) -/

/-- A bitwise function by its truth table: bit x of a and bit y of b give bit 2x + y (R164). -/
def truth {w : Nat} (tt : Nat) (a b : BitVec w) : BitVec w :=
  (if tt / 8 % 2 = 1 then a &&& b else 0) ||| (if tt / 4 % 2 = 1 then a &&& ~~~b else 0) |||
  (if tt / 2 % 2 = 1 then ~~~a &&& b else 0) ||| (if tt % 2 = 1 then ~~~a &&& ~~~b else 0)

/-- An exact integer as a token: modulo 2^32, or saturated with SAT under .S (R164). -/
def indexFit (sat : Bool) (v : Int) : Nat × Flg :=
  if sat && (decide (v < 0) || decide (2 ^ 32 ≤ v)) then (if v < 0 then 0 else 2 ^ 32 - 1, { sat := true })
  else ((BitVec.ofInt 32 v).toNat, {})

/-- IADD, ISUB and IMUL on tokens (R164). -/
def indexArith (g : Int → Int → Int) (r : NodeRec) (a b : Nat) : Nat × Flg := indexFit (r.var.getLsbD 2) (g a b)

/-- ISHF on tokens (R164): shift left, logical right, arithmetic right, rotate left, by b[4:0]. -/
def indexShift (r : NodeRec) (a b : Nat) : Nat × Flg :=
  let x := BitVec.ofNat 32 a
  let k := b % 32
  ((match r.k1.toNat % 4 with
    | 0 => x <<< k
    | 1 => x >>> k
    | 2 => x.sshiftRight k
    | _ => x.rotateLeft k).toNat, {})

/-- ICMP's condition (R164). -/
def indexCond (r : NodeRec) (a b : Nat) : Nat × Flg :=
  let x := BitVec.ofNat 32 a
  let y := BitVec.ofNat 32 b
  ((match r.k1.toNat % 8 with
    | 0 => decide (x = y)
    | 1 => decide (x ≠ y)
    | 2 => decide (x.toNat < y.toNat)
    | 3 => decide (y.toNat ≤ x.toNat)
    | 4 => decide (x.toInt < y.toInt)
    | _ => decide (y.toInt ≤ x.toInt)).toNat, {})

/-- IndexOp on resolved operands (R164): `out` is the format of the output, `ident` the identity of an absent operand. -/
def indexCore (src out ident : Nat) (f : NodeRec → Nat → Nat → Nat × Flg) (n : Node) (a b : Status) (level : Nat) : React :=
  let byK := n.rcd.var.getLsbD 1
  let byB := n.rcd.var.getLsbD 0
  let len := match a, b with
    | some x, _ => x.beats.length
    | none, some y => y.beats.length
    | none, none => 0
  let reuse := match b with
    | some y => byB && y.beats.length == 1 && decide (1 < len)
    | none => false
  let lenOk := match b with
    | some y => reuse || y.beats.length == len
    | none => true
  let e := 512 / elemBits src
  let m := len * e
  let outLen := (m * elemBits out + 511) / 512
  if !lenOk || outLen ≠ blenOf n.rcd then failed n 0x21 level
  else
    let as := match a with
      | some x => elemsOf src x
      | none => List.replicate m ident
    let bs := match b with
      | some y => elemsOf src y
      | none => []
    let imm := if src = 0x20 then n.rcd.k0.toNat % 2 else n.rcd.k0.toNat
    let res := as.zipIdx.map (fun x =>
      f n.rcd x.1 (if byK then imm else if b.isNone then ident else bs.getD (if reuse then x.2 % e else x.2) 0))
    onX (n.flag (orFlgs (res.map Prod.snd))) (some (dataBurst level 0 (beatsOfElems out 0 (res.map Prod.fst))))

/-- An index or predicate operation's instant (R164, R73, R126). -/
def indexReact (src out ident : Nat) (f : NodeRec → Nat → Nat → Nat × Flg) (n : Node) (i : Ins) : React :=
  let byK := n.rcd.var.getLsbD 1
  let ins := if byK then [i.a] else [i.a, i.b]
  let shown := presentOf ins
  let level := outLevel (n.rcd.var.getLsbD 0) shown
  syncReact n ins level 0x20 (fun m l =>
    let a := l.getD 0 none
    let b := l.getD 1 none
    let top := maxBeats (presentOf l)
    indexCore src out ident f m a b (levelUnder (n.rcd.var.getLsbD 0) top shown))

/-- IADD (R164). -/
def execIadd (r : NodeRec) (s : State) : Answer :=
  .next (s.firePure 0x70 r (indexReact 0x21 0x21 0 (indexArith (· + ·))))

/-- ISUB (R164). -/
def execIsub (r : NodeRec) (s : State) : Answer :=
  .next (s.firePure 0x71 r (indexReact 0x21 0x21 0 (indexArith (· - ·))))

/-- IMUL (R164). -/
def execImul (r : NodeRec) (s : State) : Answer :=
  .next (s.firePure 0x72 r (indexReact 0x21 0x21 1 (indexArith (· * ·))))

/-- A truth table on elements of a width (R164). -/
def indexTruth (w : Nat) (r : NodeRec) (a b : Nat) : Nat × Flg :=
  ((truth (r.k1.toNat % 16) (BitVec.ofNat w a) (BitVec.ofNat w b)).toNat, {})

/-- ILOG (R164). -/
def execIlog (r : NodeRec) (s : State) : Answer := .next (s.firePure 0x73 r (indexReact 0x21 0x21 0 (indexTruth 32)))

/-- ISHF (R164). -/
def execIshf (r : NodeRec) (s : State) : Answer := .next (s.firePure 0x74 r (indexReact 0x21 0x21 0 indexShift))

/-- ICMP: one predicate bit per token (R164). -/
def execIcmp (r : NodeRec) (s : State) : Answer := .next (s.firePure 0x75 r (indexReact 0x21 0x20 0 indexCond))

/-- PLOG (R164). -/
def execPlog (r : NodeRec) (s : State) : Answer := .next (s.firePure 0x78 r (indexReact 0x20 0x20 0 (indexTruth 1)))

/-- IHASH: the top bits of CH64(k3:k2, a) (R165). -/
def indexHash (r : NodeRec) (a _ : Nat) : Nat × Flg :=
  let b := (r.k1.extractLsb' 0 6).toNat
  ((ch64 (seedOf r) (BitVec.ofNat 64 a)).toNat / 2 ^ (64 - b) % 2 ^ 32, {})

/-- IHASH (R165). -/
def execIhash (r : NodeRec) (s : State) : Answer :=
  .next (s.firePure 0x77 r (fun n i =>
    let level := levelOf i.a
    syncReact n [i.a] level 0x20 (fun m l => indexCore 0x21 0x21 0 indexHash m (l.getD 0 none) none level)))

end Sys2Proof.Machine
end

