-- ==== Sys2Proof/Machine/FabricEvents.lean ====
section
/-!
DEFINITION. The events of a region and of its cores' hub reads and signals: instant ends (R130, R131), statuses arriving
(R118, R124), quiescence (R128, R129), clock gating (R133), key moves (R264), hub reads (R341, R349), signals (R320).
-/

namespace Sys2Proof.Machine

/-! ### The end of an instant (R130, R131) -/

/-- The nodes of a domain of a region, with their positions and ids. -/
def State.domNodes (s : State) (r : Region) (dom : Nat) : List (Nat × Nat × Node) :=
  (s.nodesOf r).filter (fun n => n.2.2.dom == dom)

/-- Whether a domain may complete the instant its counter names: it runs, the limit lets the instant begin (R259), and every
node has finished it (R130). -/
def State.instantOver (s : State) (r : Region) (dom : Nat) (d : Dom) : Bool :=
  r.configured && s.regionRuns r && !d.done && !d.stopped && (d.unlim || decide (d.ctr < d.lim)) &&
  (s.domNodes r dom).all (fun n => decide (d.ctr < n.2.2.inst))

/-- The done token of a domain (R110, R229). -/
def doneEntry (ctr dom : Nat) : InEntry := { sd := BitVec.ofNat 64 (ctr % 2 ^ 48 + dom * 2 ^ 48), hdr := 0, beats := [] }

/-- A domain done: its counter one above the quiet instant, the tokens queued on its command inputs discarded (R251), the last
boundary records written (R394), its done token in inbox 6 of the leader (R110, R230). -/
def State.domDone (s : State) (k : Nat) (r : Region) (dom : Nat) (d : Dom) : State :=
  let s1 := s.modRegion k (fun g => { g with doms := lmod g.doms dom (fun d => { d with ctr := d.ctr + 1, done := true, live := [] }) })
  let s2 := (s.domNodes r dom).foldl (fun z n => z.modNode n.1 n.2.1 (fun m => { m with toks := [] })) s1
  (s2.guardClose r (some dom)).modCtl (r.posOf 0) (fun c => c.putOrDrop 6 (doneEntry (d.ctr + 1) dom))

/-- DOMAIN_INSTANT_END: every node has finished the instant, the counter advances; an instant in which every source was
exhausted and every status absent ends the domain (R130, R131). -/
def execDomainInstantEnd (region dom : Nat) (s : State) : Answer :=
  match tget s.regions region with
  | none => .next s
  | some r => match r.doms[dom]? with
    | none => .next s
    | some d =>
      if !s.instantOver r dom d then .next s
      else if d.live.contains d.ctr then
        .next (s.modRegion region (fun g => { g with doms := lmod g.doms dom (fun d => { d with ctr := d.ctr + 1, live := d.live.erase d.ctr }) }))
      else .next (s.domDone region r dom d)

/-! ### Statuses between cores (R118, R124) -/

/-- The core and the route that lead to an endpoint of a core. -/
def State.routeInto (s : State) (q ep : Nat) : Option (Nat × Nat) :=
  s.cores.findSome? (fun c => match c.2.cfg with
    | none => none
    | some g => (g.routes.find? (fun rt => match s.destOf c.1 rt.1 with
        | some d => d.core == q && d.ep == ep
        | none => false)).map (fun rt => (c.1, rt.1)))

/-- The record of a burst that parity lost (R118, R353): it names the node that reads the endpoint and the route. -/
def State.parityRecord (s : State) (q ep : Nat) (hdr : BitVec 32) : State :=
  let reader := (s.coreAt q).cfg.bind (fun g => g.nodes.find? (fun n =>
    (List.range 4).any (fun i => inputUsed n.2.op n.2.rcd i && inputEp n.2.rcd i == ep)))
  let base := match reader with
    | some (id, n) => { s.recAt q 0x11 id n.dom with inst := n.inst }
    | none => s.recAt q 0x11 0xFF 0xFF
  s.fault (s.partOf q) { base with hdr := hdr, count := ((s.routeInto q ep).map Prod.snd).getD noRoute }

/-- REMOTE_STATUS_RECEIVE: the oldest status under way on a remote channel reaches its consumer's buffer (R124); one that
parity lost for good comes as an error token 0x11 (R118). -/
def execRemoteStatusReceive (core endpoint : Nat) (parityLost : Bool) (s : State) : Answer :=
  match s.chanAt core endpoint with
  | none => .next s
  | some c => match c.wire with
    | [] => .next s
    | (t, x) :: rest =>
      let land := fun (z : State) (y : Status) => z.modChan core endpoint (fun c => { c with q := c.q ++ [(t, y)], wire := rest })
      match x with
      | some b =>
        if parityLost then .next (land (s.parityRecord core endpoint b.hdr) (some (errToken 0x11 0 (hdrLevel b.hdr))))
        else .next (land s x)
      | none => .next (land s none)

/-! ### Quiescence and causality cycles (R128, R129) -/

/-- Whether a node has not finished the instant that its domain's counter names. -/
def Node.blocks (n : Node) (dom ctr : Nat) : Bool := n.dom == dom && n.inst == ctr

/-- Whether a node whose inputs are all resolved waits for the key of a bank that a blocking node holds (R179). -/
def State.waitsOnKey (s : State) (ctr : Nat) (x : Nat × Nat × Node) : Bool :=
  let (p, id, n) := x
  let at_ := s.input p id n
  (List.range 4).all (fun i => (at_ i).known) && (match (s.coreAt p).cfg with
    | none => false
    | some g => (banksOf (n.reach { a := (at_ 0).get, b := (at_ 1).get, c := (at_ 2).get })).any (fun b =>
        g.keyed b && g.holder b != id && ((s.coreAt p).node (g.holder b)).any (fun m => m.blocks n.dom ctr)))

/-- Whether a memory node whose inputs are all resolved waits for its turn in its tile (R331): for a node that blocks, since all
others have finished the instant before. R332 counts such an order as an edge between the two. -/
def State.waitsOnTurn (s : State) (x : Nat × Nat × Node) : Bool :=
  let (p, id, n) := x
  let at_ := s.input p id n
  onTile id n.op && (List.range 4).all (fun i => (at_ i).known) &&
    !s.tileTurn p id n (spansOf (portWidth n.rcd.fmt.toNat) (n.reach { a := (at_ 0).get, b := (at_ 1).get, c := (at_ 2).get }))

/-- Whether an input of a node is unresolved, and the status it waits on is produced by a blocking node of its own domain. -/
def State.inputBlocked (s : State) (r : Region) (ctr : Nat) (p id : Nat) (n : Node) (i : Nat) : Bool :=
  s.input p id n i == .unknown && (match s.producerOf r p (inputEp n.rcd i) with
    | some (_, _, m) => m.blocks n.dom ctr
    | none => (s.steerersOf r p (inputEp n.rcd i)).any (fun m => m.blocks n.dom ctr))

/-- Whether an ADOTT waits for a blocking node to produce the status of its ADOT.W's B (R98). -/
def State.waitsOnWeights (s : State) (r : Region) (ctr : Nat) (x : Nat × Nat × Node) : Bool :=
  let (p, _, n) := x
  let k := (n.rcd.k1.extractLsb' 0 6).toNat
  n.op == 0x31 && ((s.coreAt p).node k).any (fun m => m.dom == n.dom && m.inst == n.inst && s.inputBlocked r ctr p k m 1)

/-- Whether a DRAIN whose inputs are all resolved waits until what the DRAINs of its domain hold is known (R174): for one that blocks. -/
def State.waitsOnSteering (s : State) (x : Nat × Nat × Node) : Bool :=
  let (p, id, n) := x
  n.op == 0x42 && (List.range 4).all (fun i => (s.input p id n i).known) && (s.heldFor p id n (s.input p id n 2).get).isNone

/-- Whether a node consults an input in its instant: OMERGE its asynchronous A or B only once C has chosen it (R151). -/
def State.consults (s : State) (p id : Nat) (n : Node) (i : Nat) : Bool :=
  n.op != 0x61 || decide (2 ≤ i) || !s.isAsync p n i || (match (s.input p id n 2).get with
    | some c => (predToken (some c) 0).isNone && predOne c == some (decide (i = 1))
    | none => false)

/-- Whether a node waits on a status that a blocking node of its own domain and region produces, and on no asynchronous channel
(R128); the key of a bank counts as a status that its holder produces (R179), and so do a turn in a tile and a steering token's. -/
def State.waitsOnBlocked (s : State) (r : Region) (ctr : Nat) (x : Nat × Nat × Node) : Bool :=
  let (p, id, n) := x
  (s.waitsOnKey ctr x || s.waitsOnTurn x || s.waitsOnWeights r ctr x || s.waitsOnSteering x ||
    (List.range 4).any (s.inputBlocked r ctr p id n)) &&
  (List.range 4).all (fun i => s.input p id n i != .unknown || !s.isAsync p n i || !s.consults p id n i)

/-- The nodes that block a domain's instant, if all of them wait on statuses of blocking nodes: the domain stands in a
causality cycle (R128). -/
def State.cycleOf (s : State) (r : Region) (dom : Nat) : List (Nat × Nat × Node) :=
  match r.doms[dom]? with
  | none => []
  | some d =>
    let l := (s.domNodes r dom).filter (fun x => x.2.2.blocks dom d.ctr)
    if d.lets d.ctr && l.all (s.waitsOnBlocked r d.ctr) then l else []

/-- Whether nothing is in flight on a region's routes (R128). -/
def State.nothingInFlight (s : State) (r : Region) : Bool :=
  r.cores.all (fun p => match (s.coreAt p).cfg with
    | some g => g.egress.isEmpty && g.chans.all (fun c => c.2.wire.isEmpty)
    | none => true)

/-- Whether a sample of a region is quiescent (R128). -/
def State.quiescent (s : State) (r : Region) : Bool :=
  r.configured && !r.fired && s.regionRuns r && s.nothingInFlight r && s.noRequests r &&
  (List.range r.doms.length).any (fun i => !(s.cycleOf r i).isEmpty)

/-- The records of a causality cycle: six blocked nodes in each, the further ones as continuations (R352, R353). -/
def State.cycleRecords (s : State) (r : Region) (dom ctr count : Nat) : Bool → List (List Nat) → State
  | _, [] => s
  | cont, g :: rest =>
    let rec_ : FaultRec := { s.recAt (r.posOf 0) 0x01 0xFF dom with
      cont := cont, stopped := true, inst := ctr, count := count, detail := g.flatMap (fun e => bytesOfNat e 4) }
    State.cycleRecords (s.fault r.part rec_) r dom ctr count true rest

/-- The causality-cycle fault of a domain (R128, R129): the blocked nodes recorded in order of logical core and node, the
domain stopped. -/
def State.cycleFault (s : State) (k : Nat) (r : Region) (dom : Nat) : State :=
  match s.cycleOf r dom, r.doms[dom]? with
  | [], _ => s
  | l, some d =>
    let entries := l.map (fun x => r.lidOf x.1 % 1024 + x.2.1 * 2 ^ 16)
    (s.cycleRecords r dom d.ctr l.length false (chunk 6 entries)).stopDom k r dom
  | _, none => s

/-- QUIESCENCE_SAMPLE: a second quiescent sample in a row raises the causality-cycle fault (R128). -/
def execQuiescenceSample (region : Nat) (s : State) : Answer :=
  match tget s.regions region with
  | none => .next s
  | some r =>
    let q := s.quiescent r
    let s1 := s.modRegion region (fun g => { g with fired := false, quiet := q && !r.quiet })
    if q && r.quiet then .next ((List.range r.doms.length).foldl (fun z i => z.cycleFault region r i) s1) else .next s1

/-! ### Clock gating (R133) -/

/-- PATH_CLOCK_GATE: a compute tile whose nodes have seen only absence for 64 instants is gated until its first present
status; timing and power only (R133). -/
def execPathClockGate (core tile : Nat) (s : State) : Answer :=
  match (s.coreAt core).cfg with
  | none => .next s
  | some g =>
    let mine := g.nodes.filter (fun n => decide (n.1 < 64) && tileOf n.1 == tile)
    if !mine.isEmpty && mine.all (fun n => decide (64 ≤ n.2.quiet)) && !(s.coreAt core).gated.contains tile then
      .next (s.modCore core (fun c => { c with gated := c.gated ++ [tile] }))
    else .next s

/-! ### Bank keys (R264) -/

/-- Whether the command at the head of a unit is a BKEY of a bank. -/
def State.headIsBkey (s : State) (p bank : Nat) : Bool :=
  match s.headOf p with
  | some q => decide (q.img.toNat % 256 = 0x24) && (q.img.extractLsb' 16 16).toNat == bank
  | none => false

/-- BANK_KEY_MOVE: a key that BKEY moves passes once its holder has finished its instant; the command has then taken effect
(R264). -/
def execBankKeyMove (core bank : Nat) (s : State) : Answer :=
  match (s.coreAt core).cfg with
  | none => .next s
  | some g => match tget g.moves bank with
    | none => .next s
    | some heir =>
      let busy := match (s.coreAt core).node (g.holder bank) with
        | some n => n.mid || n.hold.isSome
        | none => false
      if busy then .next s
      else
        let s1 := s.modCfg core (fun g => { g with keys := tset g.keys bank heir, moves := terase g.moves bank })
        .next (if s1.headIsBkey core bank then s1.cmdDone core 0 else s1)

/-! ### Hub reads (R341, R262, R189) -/

/-- Whether a hub read's phase is complete; phase 0 never waits (R341). -/
def State.hubReady (s : State) (p : Nat) (j : HubJob) : Bool :=
  match j.wheel with
  | some wh => j.phase == 0 || phaseDone (s.wheelPhase p wh) j.phase
  | none => true

/-- The members' windows made ready for a read of some beats (R361). -/
def State.hubTouchAll (s : State) (p : Nat) (wh : Wheel) (off beats : Nat) : State :=
  (List.range beats).foldl (fun z i => z.hubTouch p wh (off + 64 * i)) s

/-- What HUBRD has written so far: bytes, error beats, the first code. -/
structure HubSum where
  bytes : Nat
  errs  : Nat
  first : Nat
  deriving DecidableEq, Repr

/-- HUBRD's beats written, an error beat's destination left alone, and the result word's parts (R262). -/
def State.hubWrite (s : State) (p : Nat) (off : Nat) (c : HubSum) : List (Except (Nat × Nat) Beat) → State × HubSum
  | [] => (s, c)
  | .ok b :: t => State.hubWrite (s.pokeLocal p off (bytesOfBeat b)) p (off + 64) { c with bytes := c.bytes + 64 } t
  | .error e :: t => State.hubWrite s p (off + 64) { c with errs := c.errs + 1, first := if c.errs = 0 then e.1 else c.first } t

/-- HUBRD performed (R262, R341). -/
def State.hubCommand (s : State) (p : Nat) (j : HubJob) : State :=
  match j.wheel with
  | none => s
  | some wh =>
    let s1 := s.hubTouchAll p wh j.off j.beats
    let past := decide (wh.len < j.off + 64 * j.beats)
    let rs := (List.range j.beats).map (fun i => s1.hubBeat p wh (j.off + 64 * i) past)
    let r := s1.hubWrite p j.dest { bytes := 0, errs := 0, first := 0 } rs
    let s2 := r.1.modCore p (fun c => { c with hubCmd := none })
    s2.cmdDone p (BitVec.ofNat 64 (r.2.bytes + r.2.errs * 2 ^ 32 + r.2.first * 2 ^ 40))

/-- An MGRP's read performed: its burst, at the trigger's level (R189, R341, R347). -/
def State.hubNode (s : State) (p id : Nat) (n : Node) (j : HubJob) : State :=
  match j.wheel with
  | none => s
  | some wh =>
    let level := match (s.input p id n 0).get with
      | some b => hdrLevel b.hdr
      | none => 0
    let s1 := s.hubTouchAll p wh j.off j.beats
    s1.modNode p id (fun m => { m with hubRes := some (s1.hubBurst p wh j.off j.beats level) })

/-- The MGRPs of a core whose hub reads wait, by id. -/
def State.hubNodes (s : State) (p : Nat) : List (Nat × Node × HubJob) :=
  match (s.coreAt p).cfg with
  | none => []
  | some g => g.nodes.filterMap (fun n => match n.2.hub, n.2.hubRes with
    | some j, none => some (n.1, n.2, j)
    | _, _ => none)

/-- HUB_READ: a hub read of a core whose phase is complete is performed (R341): HUBRD's, else the lowest node's. -/
def execHubRead (core : Nat) (s : State) : Answer :=
  let nodes := (s.hubNodes core).filter (fun x => s.hubReady core x.2.2)
  match (s.coreAt core).hubCmd with
  | some j =>
    if s.hubReady core j then .next (s.hubCommand core j)
    else match nodes with
      | (id, n, k) :: _ => .next (s.hubNode core id n k)
      | [] => .next s
  | none => match nodes with
    | (id, n, k) :: _ => .next (s.hubNode core id n k)
    | [] => .next s

/-! ### Signals (R234, R300, R320) -/

/-- The leaves of a plan in plan order, by their places among its nodes. -/
def Task.leaves (k : Task) : List Nat := (List.range k.plan.length).filter (fun i => ((k.plan[i]?).map PlanNode.kind) == some 0)

/-- The running team and the leaf's cores that a signal names, with its plan node (R320): none where it is dropped. -/
def State.signalLeaf (s : State) (g : Signal) : Option (Nat × Nat × PlanSt) :=
  match s.taskOf g.handle with
  | none => none
  | some t => match tget s.tasks t with
    | none => none
    | some k =>
      if k.part ≠ g.part || k.ended.isSome || (s.partAt k.part).resetting then none
      else match k.leaves[bitsOf g.sb.toNat 31 28]? with
        | none => none
        | some i => match k.plan[i]? with
          | none => none
          | some leaf =>
            let st := k.nodeAt i
            if leaf.h * leaf.w ≤ bitsOf g.sb.toNat 25 16 || st.ended.isSome then none else some (t, i, st)

/-- The core whose barrier a signal reaches now, where its team is running (R320). -/
def State.signalHome (s : State) (g : Signal) : Option Nat :=
  match s.signalLeaf g with
  | none => none
  | some (_, _, st) => match st.team.bind (fun x => tget s.teams x) with
    | some tm => if tm.st = .saved then none else some (tm.posOf (bitsOf g.sb.toNat 25 16))
    | none => none

/-- A parked signal as a save area holds it (R363): logical core and barrier. -/
def parkedEntry (x : Nat × Nat) : List Byte := bytesOfNat (x.2 % 16 + x.1 % 1024 * 2 ^ 16) 8

/-- A signal parked for a leaf, and in the save record of its team, where that stands in memory (R300, R363). -/
def State.park (s : State) (t leaf : Nat) (st : PlanSt) (x : Nat × Nat) : State :=
  let n := st.parked.length
  let s1 := s.modTask t (fun q => { q with nodes := lmod q.nodes leaf (fun y => { y with parked := y.parked ++ [x] }) })
  match (st.team.bind (fun u => tget s.teams u)).bind Team.save with
  | some sv => match sv.area with
    | some a =>
      ((s1.putGlobal sv.part (a + 0x0A) 2 (writeBytes [] 0 (bytesOfNat (n + 1) 2))).bind (fun z =>
        z.putGlobal sv.part (a + 0x40 + 8 * n) 8 (writeBytes [] 0 (parkedEntry x)))).getD s1
    | none => s1
  | none => s1

/-- What becomes of a signal (R320): the state, and the outcome that SIG reports. -/
def State.signalTo (s : State) (g : Signal) : State × Nat :=
  let bar := bitsOf g.sb.toNat 3 0
  match s.signalLeaf g with
  | none => (s, 2)
  | some (t, i, st) => match s.signalHome g with
    | some home => (s.modCtl home (fun c => c.putBar bar (c.bar bar).arrive), 0)
    | none =>
      if 64 ≤ st.parked.length then (s, 3)
      else (s.park t i st (bitsOf g.sb.toNat 25 16, bar), 1)

/-- Whether a signal must let an earlier arrival from its core to the same barrier count first (R233). -/
def State.signalBehind (s : State) (g : Signal) : Bool :=
  s.arrivals.any (fun a => a.src == g.src && decide (a.seq < g.seq) && s.signalHome g == some a.home && bitsOf g.sb.toNat 3 0 == a.k)

/-- Whether an arrival must let an earlier signal from its core to the same barrier count first (R233). -/
def State.arrivalBehind (s : State) (a : Arrival) : Bool :=
  s.signals.any (fun g => g.src == a.src && decide (g.seq < a.seq) && s.signalHome g == some a.home && bitsOf g.sb.toNat 3 0 == a.k)

/-- SIGNAL_ARRIVAL: the oldest signal from a core reaches its task, and SIG gets its outcome (R234, R320); it waits behind the core's
earlier arrivals at the same barrier (R233). -/
def execSignalArrival (src : Nat) (s : State) : Answer :=
  match s.signals.find? (fun g => g.src == src) with
  | none => .next s
  | some g =>
    if s.signalBehind g then .next s
    else
      let r := ({ s with signals := s.signals.erase g } : State).signalTo g
      .next (if src < Config.coreCount then r.1.modCtl src (fun c => c.answer g.seq (BitVec.ofNat 64 r.2)) else r.1)

/-! ### Barriers (R233) -/

/-- BARRIER_ARRIVAL: the oldest arrival from a core on its way to a barrier counts there (R233), after the core's earlier signals to
it. -/
def execBarrierArrival (src home k : Nat) (s : State) : Answer :=
  match s.arrivals.find? (fun a => a.src == src && a.home == home && a.k == k) with
  | none => .next s
  | some a =>
    if s.arrivalBehind a then .next s
    else
      let s1 := { s with arrivals := s.arrivals.erase a }
      let q := ((s.ctlAt home).bar k).p
      let s2 := s1.modCtl home (fun c => c.putBar k (c.bar k).arrive)
      .next (if a.wait then s2.modCtl src (fun c => c.onWaits (Pend.counted a.seq q)) else s2)

end Sys2Proof.Machine
end

