-- ==== Sys2Proof/Machine/Dispatcher.lean ====
section
/-!
DEFINITION. The task dispatcher: queues (R303), acceptance (R305), events (R306, R307), kills (R313), and the choice, binding
and start of leaves (R309–R318).
-/

namespace Sys2Proof.Machine

/-! ### Queues (R303) -/

/-- The queue with a number. -/
def State.queueAt (s : State) (q : Nat) : Queue := tgetD Queue.reset s.queues q

/-- The package with one queue changed. -/
def State.modQueue (s : State) (q : Nat) (f : Queue → Queue) : State := { s with queues := tset s.queues q (f (s.queueAt q)) }

/-- The dispatcher takes a queue's oldest record: accepted, or refused with QERR[2] and QREF (R305). -/
def State.acceptFrom (s : State) (q : Nat) : State :=
  match (s.queueAt q).recs with
  | [] => s
  | r :: rest =>
    let s1 := s.modQueue q (fun x => { x with recs := rest })
    let src : PlanSrc := { part := (s.queueAt q).tag, core := none, pos := 0 }
    let b := bytesOfNat r.toNat 64
    let why := s1.refusal src b 0
    if why ≠ 0 then s1.modQueue q (fun x => { x with err := x.err ||| 4, ref := BitVec.ofNat 8 why })
    else (s1.addTask src b 0 q).1.failDeps

/-- Whether an access from the host software of a partition to a queue's window is dropped (R390): the queue belongs to another
partition. -/
def Queue.foreign (x : Queue) (source : Nat) : Bool := x.assigned && x.tag != source

/-- QUEUE_RECORD_WRITE: a 64-byte write to a queue's window (R303, R398): dropped and reported, or queued; the dispatcher takes
the queue's records in order (R305). One from another partition than the queue's is dropped (R390). -/
def execQueueRecordWrite (at_ : QueueAccess) (whole : Bool) (record : BitVec 512) (s : State) : Answer :=
  let q := at_.queue
  if 2048 ≤ q || (s.queueAt q).foreign at_.source then .next s
  else
    let x := s.queueAt q
    if !whole || !x.assigned then .next (s.modQueue q (fun x => { x with err := x.err ||| 2 }))
    else if 32 ≤ x.recs.length then
      .next ((s.modQueue q (fun x => { x with ovf := satAdd x.ovf 1, err := x.err ||| 1 })).irq 2 x.tag q)
    else
      let s1 := s.modQueue q (fun x => { x with recs := x.recs ++ [record] })
      .next ((List.range (x.recs.length + 1)).foldl (fun z _ => z.acceptFrom q) s1)

/-- QKILL: a live task of the queue's partition is killed (R303, R313), on a write from that partition (R390). -/
def execQkill (at_ : QueueAccess) (handle : BitVec 32) (s : State) : Answer :=
  let x := s.queueAt at_.queue
  match s.taskOf handle with
  | none => .next s
  | some t => match tget s.tasks t with
    | some k => .next (if at_.queue < 2048 && x.assigned && x.tag == at_.source && k.part == x.tag then s.killTask t else s)
    | none => .next s

/-- QERR_CLEAR: bits of QERR written with 1 are cleared (R303), on a write from the queue's partition (R390). -/
def execQerrClear (at_ : QueueAccess) (ones : BitVec 64) (s : State) : Answer :=
  let q := at_.queue
  .next (if q < 2048 && (s.queueAt q).assigned && (s.queueAt q).tag == at_.source then s.modQueue q (fun x => { x with err := x.err &&& ~~~(ones.extractLsb' 0 3) }) else s)

/-! ### Events (R306, R307) -/

/-- An event given a state. -/
def State.setEvent (s : State) (e st : Nat) : State := { s with events := tset s.events e st }

/-- Whether a global event belongs to a partition's block (R391 PEVT). -/
def Part.owns (p : Part) (e : Nat) : Bool :=
  let first := bitsOf p.pevt.toNat 15 0
  decide (first ≤ e) && decide (e < first + p.events)

/-- HOST_EVENT_WRITE: host software of a partition sets the states of its events in an 8-byte word (R306, R390); tasks whose
dependences have failed end killed (R307). -/
def execHostEventWrite (part word : Nat) (value : BitVec 64) (s : State) : Answer :=
  if 2048 ≤ word then .next s
  else
    let pt := s.partAt part
    .next (((List.range 32).foldl (fun (z : State) i =>
      let e := 32 * word + i
      if pt.owns e then z.setEvent e (bitsOf value.toNat (2 * i + 1) (2 * i)) else z) s).failDeps)

/-- COMPLETION_EVENT_POST: a task that has ended sets its completion event to its status (R306); tasks that depend on it
become ready, or end killed (R307). -/
def execCompletionEventPost (task : Nat) (s : State) : Answer :=
  match tget s.tasks task with
  | none => .next s
  | some k => match k.ended with
    | none => .next s
    | some e =>
      if k.posted then .next s
      else
        let s1 := match k.rcd.event with
          | some i => s.setEvent ((s.partAt k.part).event i) e.st
          | none => s
        .next ((s1.modTask task (fun x => { x with posted := true })).sweep.failDeps)

/-! ### What waits to start (R310, R314) -/

/-- A leaf's place in a group that starts or resumes together: its row and its column, south and east of the group's north-west
corner (R310, R317). -/
structure Place where
  leaf : Nat
  south : Nat
  east : Nat
  h    : Nat
  w    : Nat
  deriving DecidableEq, Repr

/-- The north-west core of a place, the group's corner at a position. -/
def Place.from_ (x : Place) (p : Nat) : Nat := p + x.south * Config.gridCols + x.east

/-- Whether two places have no core in common. -/
def Place.apart (x y : Place) : Bool :=
  decide (x.south + x.h ≤ y.south) || decide (y.south + y.h ≤ x.south) || decide (x.east + x.w ≤ y.east) || decide (y.east + y.w ≤ x.east)

/-- Leaves that wait to start, or saved teams that wait to resume, together: rows of places, each with a corner of its own. -/
structure Item where
  task   : Nat
  eff    : Nat
  source : Nat
  seq    : Nat
  saved  : Bool
  rows   : List (List Place)
  deriving DecidableEq, Repr

/-- The places of an item. -/
def Item.places (i : Item) : List Place := i.rows.flatten

/-- The places of an item with the north-west cores they have where its rows stand at given positions. -/
def Item.seats (i : Item) (at_ : List Nat) : List (Place × Nat) :=
  (List.zip i.rows at_).flatMap (fun x => x.1.map (fun y => (y, y.from_ x.2)))

/-- The leaves that start with a plan node (R310): a leaf itself, a SEQ's first child, every child of a PIPE or STRM. -/
def Task.firsts (k : Task) : Nat → Nat → List Nat
  | 0, _ => []
  | fuel + 1, i => match k.plan[i]? with
    | none => []
    | some n =>
      if n.kind = 0 then [i]
      else if n.kind = 1 then (n.kids.take 1).flatMap (Task.firsts k fuel)
      else n.kids.flatMap (Task.firsts k fuel)

/-- Whether some leaf below a plan node has started or ended. -/
def Task.touched (k : Task) : Nat → Nat → Bool
  | 0, _ => false
  | fuel + 1, i =>
    let st := k.nodeAt i
    st.started || st.ended.isSome || (k.kidsOf i).any (Task.touched k fuel)

/-- The groups of leaves below a plan node that may start now (R310). -/
def Task.groups (k : Task) : Nat → Nat → List (List Nat)
  | 0, _ => []
  | fuel + 1, i =>
    if (k.nodeAt i).ended.isSome then []
    else match k.plan[i]? with
      | none => []
      | some n =>
        if n.kind = 0 then (if (k.nodeAt i).started then [] else [[i]])
        else if n.kind = 1 then
          ((n.kids.find? (fun c => (k.nodeAt c).ended.isNone)).toList).flatMap (Task.groups k fuel)
        else if Task.touched k fuel i then n.kids.flatMap (Task.groups k fuel)
        else [n.kids.flatMap (Task.firsts k fuel)]

/-- Leaves side by side, from a column on (R310). -/
def Task.sideBySide (k : Task) : Nat → List Nat → List Place
  | _, [] => []
  | east, i :: t => match k.plan[i]? with
    | some n => { leaf := i, south := 0, east := east, h := n.h, w := n.w } :: Task.sideBySide k (east + n.w) t
    | none => Task.sideBySide k east t

/-- The outermost PIPE or STRM above a plan node, if there is one (R317). -/
def Task.bundle (k : Task) : Nat → Nat → Option Nat
  | 0, _ => none
  | fuel + 1, i => match k.parentOf i with
    | none => none
    | some j => match Task.bundle k fuel j with
      | some b => some b
      | none => if ((k.plan[j]?).map PlanNode.kind).getD 0 ≥ 2 then some j else none

/-- Whether two leaves are pre-empted and resumed together (R317). -/
def Task.together (k : Task) (a b : Nat) : Bool := a == b || (match k.bundle 10 a with
  | some x => k.bundle 10 b == some x
  | none => false)

/-- The saved teams of a task, with their numbers, in plan order. -/
def State.savedOf (s : State) (t : Nat) : List (Nat × Team) :=
  let l := s.teams.filter (fun x => x.2.task == t && x.2.st == .saved)
  match tget s.tasks t with
  | none => []
  | some k => k.leaves.flatMap (fun i => l.filter (fun x => x.2.leaf == i))

/-- The leaves that start side by side with a leaf (R310): those of the outermost PIPE or STRM above it with which it starts; `best` are
those found so far below node `i`. -/
def Task.rowFrom (k : Task) (leaf : Nat) : Nat → Nat → List Nat → List Nat
  | 0, _, best => best
  | fuel + 1, i, best => match k.parentOf i with
    | none => best
    | some j =>
      let l := k.firsts 10 j
      Task.rowFrom k leaf fuel j (if 2 ≤ ((k.plan[j]?).map PlanNode.kind).getD 0 ∧ l.contains leaf = true then l else best)

/-- The leaves that start side by side with a leaf, by the plan. -/
def Task.row (k : Task) (leaf : Nat) : List Nat := k.rowFrom leaf 10 leaf [leaf]

/-- The longest stretches of a list whose members all are in another. -/
def stretches (l keep : List Nat) : List (List Nat) :=
  (l.foldr (fun i acc => if keep.contains i then match acc with
    | r :: t => (i :: r) :: t
    | [] => [[i]] else [] :: acc) [[]]).filter (fun r => !r.isEmpty)

/-- Saved teams as the rows that they take when they resume together: children of a PIPE or STRM that started side by side and are next
to each other are neighbours again (R310, R317), and every other leaf, as a SEQ's later child, stands where R315 allows (log 28). -/
def Task.rowsOf (k : Task) (l : List (Nat × Team)) : List (List Place) :=
  let leaves := l.map (fun x => x.2.leaf)
  (((leaves.map k.row).eraseDups).flatMap (fun r => stretches r leaves)).map (k.sideBySide 0)

/-- The saved groups of a task. -/
def State.savedGroups (s : State) (t : Nat) (k : Task) : List (List (Nat × Team)) :=
  let l := s.savedOf t
  ((l.map (fun x => l.filter (fun y => k.together x.2.leaf y.2.leaf)))).eraseDups

/-- Everything that waits to start or resume in a partition, of tasks that are ready (R307, R314, R317). -/
def State.items (s : State) (part : Nat) : List Item :=
  s.tasks.flatMap (fun x =>
    let k := x.2
    if k.part ≠ part || k.ended.isSome || (!k.begun && !k.ready) then []
    else
      let mk := fun (saved : Bool) (rows : List (List Place)) =>
        ({ task := x.1, eff := k.eff, source := k.queue, seq := k.seq, saved := saved, rows := rows } : Item)
      (s.savedGroups x.1 k).map (fun g => mk true (k.rowsOf g)) ++ (k.groups 10 0).map (fun g => mk false [k.sideBySide 0 g]))

/-! ### Binding (R315, R318) -/

/-- Whether a core may be bound for a partition (R315, R318, R357, R402). -/
def State.bindable (s : State) (part p : Nat) : Bool :=
  let c := s.coreAt p
  c.assigned && c.tag == part && c.team.isNone && !c.failed && c.power == 0

/-- The cores of a rectangle whose north-west core stands at a position. -/
def rectCores (p h w : Nat) : List Nat := (List.range (h * w)).map (fun l => p + l / w * Config.gridCols + l % w)

/-- Whether a rectangle lies on the grid and all its cores may be bound. -/
def State.rectFree (s : State) (part p h w : Nat) : Bool :=
  decide (rowOf p + h ≤ Config.gridRows) && decide (colOf p + w ≤ Config.gridCols) && (rectCores p h w).all (s.bindable part)

/-- The records of a partition's regions on a rectangle: one with a resident configuration, one without. -/
def State.regionsOn (s : State) (part p h w : Nat) (configured : Bool) : Option (Nat × Region) :=
  s.regions.find? (fun g => g.2.row == rowOf p && g.2.col == colOf p && g.2.h == h && g.2.w == w && g.2.part == part &&
    g.2.configured == configured)

/-- The record of a partition's region on a rectangle that a leaf takes: for one without an image a record that holds no
configuration (R297), else the resident configuration, where there is one. -/
def State.regionOn (s : State) (part p h w : Nat) (bare : Bool) : Option (Nat × Region) :=
  match (if bare then none else s.regionsOn part p h w true) with
  | some g => some g
  | none => s.regionsOn part p h w false

/-- Where a task's plan is read from. -/
def Task.src (k : Task) : PlanSrc := { part := k.part, core := k.srcCore, pos := k.srcPos }

/-- The identity of a leaf's image, from its header; none without an image or where it cannot be read. -/
def State.leafIdent (s : State) (k : Task) (leaf : Nat) : Option (BitVec 256) :=
  match k.plan[leaf]? with
  | some n => if n.hasImage then (s.planBytes k.src n.image 64).map (fun b => (imgHead b).ident) else none
  | none => none

/-- The places of an item's rows with the identities that they prefer to find resident. -/
def State.wanted (s : State) (i : Item) : List (List (Place × Option (BitVec 256))) :=
  match tget s.tasks i.task with
  | none => []
  | some k => i.rows.map (List.map (fun p => (p, if i.saved then
      (s.savedOf i.task).findSome? (fun t => if t.2.leaf = p.leaf then
        (t.2.save.bind (fun sv => if sv.region.configured then some sv.region.ident else none)) else none)
    else s.leafIdent k p.leaf)))

/-- How many of a group's regions at a position already hold the configuration they need (R315). -/
def State.residents (s : State) (part p : Nat) (l : List (Place × Option (BitVec 256))) : Nat :=
  (l.filter (fun x => match x.2, s.regionOn part (x.1.from_ p) x.1.h x.1.w false with
    | some d, some (_, r) => r.configured && r.ident == d
    | _, _ => false)).length

/-- Whether a row at a position finds cores that may be bound, none of them taken already. -/
def State.rowFits (s : State) (part : Nat) (taken : List Nat) (row : List (Place × Option (BitVec 256))) (p : Nat) : Bool :=
  row.all (fun x => decide (colOf p + x.1.east < Config.gridCols) && s.rectFree part (x.1.from_ p) x.1.h x.1.w &&
    (rectCores (x.1.from_ p) x.1.h x.1.w).all (fun q => !taken.contains q)) &&
  decide (row.Pairwise (fun x y => x.1.apart y.1 = true))

/-- Positions for rows, no core to two leaves (R315): each row the one with the most resident configurations, then the lowest, that
leaves cores for the rows after it. -/
def State.seatRows (s : State) (part : Nat) : List (List (Place × Option (BitVec 256))) → List Nat → Option (List Nat)
  | [], _ => some []
  | row :: t, taken =>
    let fits := (List.range Config.coreCount).filter (s.rowFits part taken row)
    (sortOn (fun p => (row.length - s.residents part p row) * Config.coreCount + p) fits).findSome? (fun p =>
      (State.seatRows s part t (taken ++ row.flatMap (fun x => rectCores (x.1.from_ p) x.1.h x.1.w))).map (fun l => p :: l))

/-- The positions that the dispatcher binds an item's rows to (R315). -/
def State.placeFor (s : State) (part : Nat) (i : Item) : Option (List Nat) := s.seatRows part (s.wanted i) []

/-- The shapes of an item. -/
def Item.shapes (i : Item) : List (Nat × Nat) := i.places.map (fun p => (p.h, p.w))

/-- The oldest item of each source, the sources in their turn after the one served last at their priority (R314). -/
def heads (robin : Nat) (l : List Item) : List Item :=
  let srcs := sortOn id (l.map (fun i => i.source)).eraseDups
  let turn := srcs.filter (fun x => decide (robin < x)) ++ srcs.filter (fun x => decide (x ≤ robin))
  turn.filterMap (fun x => (l.filter (fun i => i.source == x)).foldl (fun (best : Option Item) i => match best with
    | none => some i
    | some b => if i.seq < b.seq then some i else some b) none)

/-- The partition with every team gone from its cores. -/
def State.vacated (s : State) (part : Nat) : State :=
  { s with cores := s.cores.map (fun c => (c.1, if c.2.assigned && c.2.tag == part then { c.2 with team := none } else c.2)) }

/-- The first of some items in turn that can bind, with its positions. At priority 3 one that waits for its cores is not passed
over: it starts within one round (R321). -/
def State.firstFit (s : State) (part : Nat) (top : Bool) : List Item → Option (Item × List Nat)
  | [] => none
  | i :: t => match s.placeFor part i with
    | some p => some (i, p)
    | none => if top && ((s.vacated part).placeFor part i).isSome then none else s.firstFit part top t

/-- The item that a partition starts next, with its positions (R314, R315, R321): by falling effective priority, round-robin over
the sources, and never on a shape that a waiting item of a higher priority needs. -/
def State.choose (s : State) (part : Nat) (robin : Tab Nat) (items : List Item) : Nat → List (Nat × Nat) → Option (Item × List Nat)
  | 0, _ => none
  | level + 1, kept =>
    let here := items.filter (fun i => i.eff == level)
    let free := (heads (tgetD 0 robin level) here).filter (fun i => !i.shapes.any kept.contains)
    match s.firstFit part (level == 3) free with
    | some r => some r
    | none => State.choose s part robin items level (kept ++ here.flatMap Item.shapes)

/-- What a partition starts or resumes next. -/
def State.choice (s : State) (part : Nat) : Option (Item × List Nat) :=
  let pt := s.partAt part
  if pt.resetting then none else s.choose part pt.robin (s.items part) 4 []

/-! ### Starting leaves (R206, R207, R309, R315, R318) -/

/-- A number that no region has. -/
def State.newRegion (s : State) : Nat := (s.regions.map Prod.fst).foldl (fun a b => max a (b + 1)) 0

/-- The region record of a rectangle, made where there is none. -/
def State.claimRegion (s : State) (part p h w : Nat) (bare : Bool) : Nat × State :=
  match s.regionOn part p h w bare with
  | some (k, _) => (k, s)
  | none =>
    let k := s.newRegion
    let r : Region :=
      { row := rowOf p, col := colOf p, h := h, w := w, part := part, configured := false, ident := 0, image := 0, doms := [],
        detail := 0, begun := false, fired := false, quiet := false, team := none, kept := [] }
    (k, { s with regions := tset s.regions k r })

/-- The controller of a core of a new team (R206): everything reset, each barrier expecting every core of the team. -/
def Ctl.fresh (count steps : Nat) : Ctl :=
  { Ctl.reset with bars := Vector.replicate 16 { n := BitVec.ofNat 16 count, a := 0, p := 0 }, start := steps }

/-- A controller started at an entry with its argument pointer in s1 (R206). -/
def Ctl.startAt (c : Ctl) (entry arg : BitVec 64) : Ctl := { (c.put 1 arg) with ip := entry, run := .running }

/-- A core bound to a team: its controller, command unit and copy engine as new (R206). -/
def Core.bound (c : Core) (t count steps : Nat) : Core :=
  { c with ctl := Ctl.fresh count steps, unit := [], ce := CopyEng.reset, team := some t, walkBad := [], hubCmd := none }

/-- Whether a leaf of a task has no image. -/
def State.leafBare (s : State) (t leaf : Nat) : Bool :=
  match (tget s.tasks t).bind (fun k => k.plan[leaf]?) with
  | some n => !n.hasImage
  | none => true

/-- A leaf bound to the region at a position: a team on its cores (R297, R315, R318). -/
def State.bindLeaf (s : State) (t part p : Nat) (x : Place) : State :=
  let (k, s1) := s.claimRegion part p x.h x.w (s.leafBare t x.leaf)
  let n := s1.order
  let tm : Team :=
    { task := t, leaf := x.leaf, region := k, part := part, row := rowOf p, col := colOf p, h := x.h, w := x.w, wheels := [], st := .running,
      limits := [], deep := false, order := n, save := none, area := none, doom := none }
  let s2 := { s1 with teams := tset s1.teams n tm, order := n + 1 }
  let s3 := (rectCores p x.h x.w).foldl (fun (z : State) q => z.modCore q (fun c => c.bound n (x.h * x.w) s.steps)) s2
  (s3.modRegion k (fun r => { r with team := some n })).modTask t (fun q =>
    { q with nodes := lmod q.nodes x.leaf (fun st => { st with started := true, team := some n }) })

/-- Bytes written to the scratchpad of a core across banks, those past its end dropped (R361). -/
def State.pokeSpan (s : State) (p off : Nat) (bytes : List Byte) : State :=
  let l := bytes.take (2 ^ 22 - off)
  let banks := if l.isEmpty then [] else (List.range ((off + l.length - 1) / bankBytes + 1)).drop (off / bankBytes)
  (banks.foldl (fun (z : State) b => z.touch p (b * bankBytes)) s).poke (scratchKey p off) l

/-- A leaf's sections copied, in table order, into every core of its team (R10, R309); none where a source cannot be read. -/
def State.copySections (s : State) (src : PlanSrc) (cores : List Nat) : List Section → Option State
  | [] => some s
  | x :: t =>
    if x.len = 0 then State.copySections s src cores t
    else match s.planBytes src x.src x.len with
      | none => none
      | some b => State.copySections (cores.foldl (fun (z : State) p => z.pokeSpan p x.dst b) s) src cores t

/-- The leaf of a running team ended by a failed load (R315, R351). -/
def State.loadFault (s : State) (t leaf code : Nat) : State :=
  s.endNode 10 t leaf { st := endFaulted, code := faultWord code 0 0 }

/-- Whether the banks that a PIPE lists in a leaf start unheld (R312). -/
def State.listedUnheld (s : State) (tm : Team) : Bool :=
  tm.cores.all (fun p => (s.listedAt p).all (fun e => match s.teamCfg p with
    | some g => g.holder e.bank == 0xFF
    | none => true))

/-- A leaf's configuration loaded, if it has an image (R315, R316): the state, and the code of a failure, 0 for none. -/
def State.loadLeaf (s : State) (k : Task) (tm : Team) (n : PlanNode) : State × Nat :=
  if !n.hasImage then (s, 0)
  else match s.planBytes k.src n.image 64 with
    | none => (s, 0x60)
    | some h =>
      if k.leaves.head? == some tm.leaf && (imgHead h).ident != k.rcd.ident then (s, 0x61)
      else
        let r := s.loadBy tm.region (s.planBytes k.src n.image) n.image none
        (r.1, if r.2 = 0 then 0 else 0x60)

/-- Signals, each a logical core and a barrier, applied in order to a team's barriers (R300). -/
def State.applySignals (s : State) (tm : Team) (l : List (Nat × Nat)) : State :=
  l.foldl (fun (z : State) x => z.modCtl (tm.posOf x.1) (fun c => c.putBar x.2 (c.bar x.2).arrive)) s

/-- Signals parked for a leaf applied to its barriers, in parking order (R300, R318). -/
def State.applyParked (s : State) (t leaf : Nat) (tm : Team) : State :=
  match tget s.tasks t with
  | none => s
  | some k =>
    (s.applySignals tm (k.nodeAt leaf).parked).modTask t
      (fun q => { q with nodes := lmod q.nodes leaf (fun st => { st with parked := [] }) })

/-- The controllers of a new team started: the leader, and with a worker entry all the others (R206, R207). -/
def State.startControllers (s : State) (tm : Team) (n : PlanNode) (arg : BitVec 64) : State :=
  tm.cores.foldl (fun (z : State) p =>
    if p = tm.posOf 0 then z.modCtl p (fun c => c.startAt n.entry arg)
    else match n.worker with
      | some e => z.modCtl p (fun c => c.startAt e arg)
      | none => z) s

/-- A bound leaf started: its configuration, its sections, parked signals, its controllers (R309, R315, R318); a failure ends
it faulted. -/
def State.startLeaf (s : State) (t leaf : Nat) : State :=
  match tget s.tasks t with
  | none => s
  | some k => match (k.nodeAt leaf).team.bind (fun x => tget s.teams x), k.plan[leaf]? with
    | some tm, some n =>
      let r := s.loadLeaf k tm n
      if r.2 ≠ 0 then r.1.loadFault t leaf r.2
      else if !r.1.listedUnheld tm then r.1.loadFault t leaf 0x60
      else match r.1.copySections k.src tm.cores n.sections with
        | none => r.1.loadFault t leaf 0x60
        | some s1 => (s1.applyParked t leaf tm).startControllers tm n k.rcd.arg
    | _, _ => s

/-- The passes of the partition's other ready tasks when a task starts (R314): the 256th raises the effective priority. -/
def State.countPasses (s : State) (part t : Nat) (waiting : List Item) : State :=
  let others := ((waiting.map (fun i => i.task)).filter (fun x => x != t)).eraseDups
  others.foldl (fun (z : State) x => z.modTask x (fun k =>
    if k.part ≠ part then k
    else if 256 ≤ k.passes + 1 then { k with eff := min 3 (k.eff + 1), passes := 0 } else { k with passes := k.passes + 1 })) s

/-- An item started at its rows' positions: every leaf bound, then each one started. -/
def State.startItem (s : State) (part : Nat) (i : Item) (at_ : List Nat) : State :=
  let first := match tget s.tasks i.task with
    | some k => !k.begun
    | none => false
  let s1 := if first then s.countPasses part i.task (s.items part) else s
  let s2 := (i.seats at_).foldl (fun (z : State) x => z.bindLeaf i.task part x.2 x.1) s1
  (i.places.foldl (fun (z : State) x => z.startLeaf i.task x.leaf) s2).modPart part (fun pt => { pt with robin := tset pt.robin i.eff i.source })

/-- TASK_START: the dispatcher starts what is to start next, in the first partition that can (R314, R315); a partition whose
turn falls to a pre-empted team waits for its RESUME. -/
def execTaskStart (s : State) : Answer :=
  let parts := (List.range 32).filter (fun q => s.tasks.any (fun k => k.2.part == q && k.2.ended.isNone))
  match parts.findSome? (fun q => match s.choice q with
    | some (i, p) => if i.saved then none else some (q, i, p)
    | none => none) with
  | some (q, i, p) => .next (s.startItem q i p)
  | none => .next s

end Sys2Proof.Machine
end

