-- ==== Sys2Proof/Machine/MemEvents.lean ====
section
/-!
DEFINITION. The events of memory: table walks that end, TLB invalidations (R288, R289), checkpoint drains (R265, R365, R366).
-/

namespace Sys2Proof.Machine

/-! ### Walks and TLBs (R288, R289) -/

/-- A translation put into a die's shared buffer of 16,384 entries; the entry it had for the page goes. -/
def State.dieTlbPut (s : State) (die : Nat) (e : TlbEnt) : State :=
  let old := (tgetD [] s.dieTlb die).filter (fun t => !(t.part == e.part && t.page == e.page))
  ({ s with dieTlb := tset s.dieTlb die (tlbPut 16384 (Config.freeNat s.free) old e) } : State).draw

/-- PAGE_WALK_COMPLETE: a walk ends, and every access that joined it receives the translation or the fault (R288, R289). -/
def execPageWalkComplete (die part page : Nat) (s : State) : Answer :=
  match s.walks.find? (fun w => w.die == die && w.part == part && w.page == page) with
  | none => .next s
  | some w =>
    let s1 := { s with walks := s.walks.erase w }
    match s1.walkTable part (65536 * page) with
    | some (_, pte, size) => .next (s1.dieTlbPut die { part := part, page := 65536 * page / size * size, size := size, pte := pte })
    | none => .next (w.joined.foldl (fun (z : State) a => z.modCore a.core (fun c => { c with walkBad := c.walkBad ++ [(a.who, page)] })) s1)

/-- TLB_INVALIDATION: firmware drops a partition's translations (R289); a copy it holds tries again (R291). -/
def execTlbInvalidation (part : Nat) (s : State) : Answer := .next (s.tlbInvalidate part)

/-! ### Checkpoint drains (R265, R365, R366) -/

/-- Bytes written to global memory of a partition, by runs that stay within one 64 KiB granule, copy-on-write granules first
(R365); none where one cannot be written. Uncorrectable words of the source stay so (R405). -/
def State.writeGlobal (s : State) (part : Nat) : Nat → Nat → List Byte → List Nat → Option State
  | 0, _, l, _ => if l.isEmpty then some s else none
  | fuel + 1, va, l, bad =>
    if l.isEmpty then some s
    else
      let run := min l.length (65536 - va % 65536)
      match s.xlatTable part va .write with
      | .ok pa pte =>
        match (if pteCow pte then s.cowBefore part va pa else some s) with
        | none => none
        | some s1 =>
          let s2 := s1.poke pa (l.take run)
          let s3 := { s2 with bad := s2.bad ++ (bad.filter (fun w => decide (w < run))).map (fun w => pa + w) }
          State.writeGlobal s3 part fuel (va + run) (l.drop run) ((bad.filter (fun w => decide (run ≤ w))).map (fun w => w - run))
      | _ => none

/-- Where a frozen granule's bytes lie: in its shadow, or in the page itself (R365). -/
def State.frozenAt (s : State) (part : Nat) (sl : Slot) (g : Nat) : Option Nat :=
  match tget sl.shadows g with
  | some sh => some sh
  | none => (s.walkTable part (65536 * g)).map (fun x => pteAddr x.2.1 + 65536 * g % x.2.2)

/-- The granules of a slot streamed in address order from the i-th on (R365); none where the target cannot be written. -/
def State.streamSlot (s : State) (part : Nat) (sl : Slot) (dest : Nat) : Nat → Nat → Option State
  | 0, _ => some s
  | n + 1, i => match s.frozenAt part sl (sl.base + i) with
    | none => none
    | some pa =>
      let bad := s.bad.filterMap (fun w => if pa ≤ w ∧ w < pa + 65536 then some (w - pa) else none)
      match s.writeGlobal part 3 (dest + 65536 * i) (s.peek pa 65536) bad with
      | none => none
      | some s1 => State.streamSlot s1 part sl dest n (i + 1)

/-- COW cleared in the entries of a slot's pages that no other slot freezes (R365). -/
def State.thaw (s : State) (part k : Nat) (sl : Slot) : State :=
  (List.range sl.pages).foldl (fun z i =>
    let g := sl.base + i
    let others := (z.partAt part).slots.any (fun x => x.1 != k && decide (x.2.base ≤ g) && decide (g < x.2.base + x.2.pages) &&
      !(x.2.drain.any (fun d => d.streamed)))
    if others then z
    else match z.walkTable part (65536 * g) with
      | some (a, e, _) => if pteCow e then z.markCow a false else z
      | none => z) s

/-- The completion entry of a drain (R265). -/
def drainEntry (pages slot engine : Nat) : InEntry :=
  { sd := BitVec.ofNat 64 (pages % 2 ^ 32 + slot % 16 * 2 ^ 32 + engine % 1024 * 2 ^ 36 + 2 ^ 46), hdr := 0, beats := [] }

/-- An entry put into an inbox of a logical core of a team, on its core or in its save; none where there is no room. -/
def State.deliver (s : State) (t core box : Nat) (e : InEntry) : Option State :=
  match tget s.teams t with
  | none => some s
  | some tm => match tm.save with
    | none =>
      let p := tm.posOf core
      if boxRoom ((s.ctlAt p).box box) e then some (s.modCtl p (fun c => c.putBox box e)) else none
    | some sv => match sv.cores[core]? with
      | none => some s
      | some c =>
        if boxRoom (c.ctl.box box) e then
          let sv1 := { sv with cores := lmod sv.cores core (fun c => { c with ctl := c.ctl.putBox box e }) }
          some { s with teams := tset s.teams t { tm with save := some sv1 } }
        else none

/-- The drain of a slot ended: its entry delivered, or dropped where its task has ended (R366); it waits for room (R230). -/
def State.drainEnd (s : State) (part k : Nat) (sl : Slot) (d : Drain) : State :=
  match s.deliver d.team d.core d.box (drainEntry sl.pages k d.engine) with
  | some s1 => s1.modPart part (fun pt => { pt with slots := terase pt.slots k })
  | none => s

/-- CHECKPOINT_DRAIN_COMPLETE: the frozen pages of a slot are streamed, COW cleared and the shadows freed (R365); then the
entry is delivered (R265). A target that cannot be written keeps the drain waiting. -/
def execCheckpointDrainComplete (part slot : Nat) (s : State) : Answer :=
  match tget (s.partAt part).slots slot with
  | none => .next s
  | some sl => match sl.drain with
    | none => .next s
    | some d =>
      if d.streamed then .next (s.drainEnd part slot sl d)
      else match s.streamSlot part sl d.dest sl.pages 0 with
        | none => .next s
        | some s1 =>
          let d1 := { d with streamed := true }
          let shadows := match tget (s1.partAt part).slots slot with
            | some x => x.shadows.map Prod.snd
            | none => []
          let sl1 := { sl with shadows := [], drain := some d1 }
          let s2 := (s1.thaw part slot sl).modPart part (fun pt => { pt with pool := pt.pool ++ shadows, slots := tset pt.slots slot sl1 })
          .next (s2.drainEnd part slot sl1 d1)

end Sys2Proof.Machine
end

