-- ==== Sys2Proof/Machine/Preempt.lean ====
section
/-!
DEFINITION. Pre-emption (R239, R358–R364): a team stopped, saved and resumed; DOMSAVE and DOMLOAD (R260, R363); tagged banks
(R361).
-/

namespace Sys2Proof.Machine

/-! ### What a save holds (R359–R362) -/

/-- A controller as a save keeps it (R239): stopped controllers will run on, the caches count as invalid, and CYCLE stands
still, from its stop on where it has stopped before. -/
def Ctl.atRest (c : Ctl) (now : Nat) : Ctl :=
  { (if c.run = .stopped then c else c.holdCycle now) with
    run := match c.run with
      | .stopped => .running
      | r => r
    preempt := false, dcache := [], icache := [] }

/-- The uncorrectable words of a core's scratchpad, by offset. -/
def State.badOf (s : State) (p : Nat) : List Nat :=
  s.bad.filterMap (fun w => if scratchKey p 0 ≤ w ∧ w < scratchKey p 0 + 2 ^ 22 then some (w - scratchKey p 0) else none)

/-- The domains of a region with the limits that were recorded before the stop (R358, R359). -/
def withLimits (doms : List Dom) (l : List (Nat × Bool)) : List Dom :=
  (List.range doms.length).filterMap (fun i => (doms[i]?).map (fun (d : Dom) => match l[i]? with
    | some (lim, unlim) => { d with lim := lim, unlim := unlim }
    | none => d))

/-- The banks of a team's cores made ready for its task (R361). -/
def State.ownBanks (s : State) (cores : List Nat) : State :=
  cores.foldl (fun z p => (List.range 64).foldl (fun y b => y.touch p (b * bankBytes)) z) s

/-- A team's save (R359–R362): beyond 64 cores the scratchpads stay where they are (R361). -/
def State.capture (s : State) (tm : Team) (k : Nat) (area : Option Nat) (deep : Bool) : Saved :=
  let ps := tm.cores
  let resident := decide (64 < tm.count)
  let r := (tget s.regions k).getD
    { row := tm.row, col := tm.col, h := tm.h, w := tm.w, part := tm.part, configured := false, ident := 0, image := 0, doms := [],
      detail := 0, begun := false, fired := false, quiet := false, team := none, kept := [] }
  { part := tm.part, area := area, handle := s.handle tm.task, deep := deep, unloaded := r.configured && !r.begun, resident := resident, row := tm.row, col := tm.col,
    cores := ps.map (fun p => let c := s.coreAt p; { c with ctl := c.ctl.atRest s.steps, walkBad := [], tlb := [] }),
    scratch := ps.map (fun p => if resident then [] else cellsIn s.mem (scratchKey p 0) (2 ^ 22)),
    bad := ps.map (fun p => if resident then [] else s.badOf p),
    region := { r with doms := withLimits r.doms tm.limits }, wheels := tm.wheels }

/-! ### Stopping a team (R239, R317, R358) -/

/-- The running or stopping teams that are pre-empted together with one (R317). -/
def State.bundleOf (s : State) (t : Nat) (st : TeamSt) : List (Nat × Team) :=
  match tget s.teams t with
  | none => []
  | some tm => match tget s.tasks tm.task with
    | none => if tm.st == st then [(t, tm)] else []
    | some k => s.teams.filter (fun x => x.2.task == tm.task && x.2.st == st && k.together tm.leaf x.2.leaf)

/-- Whether a node's hub read waits on its phase (R349). -/
def Node.hubWaits (n : Node) : Bool := n.hub.isSome && n.hubRes.isNone

/-- The MGRPs of a core whose hub reads wait on their phases go back to the boundary before their instants (R349); a HUBRD that
waits keeps the definition it was given. -/
def Core.unbegun (c : Core) : Core :=
  { c with cfg := c.cfg.map (fun g => { g with nodes := g.nodes.map (fun n => (n.1, if n.2.hubWaits then { n.2 with hub := none } else n.2)) }) }

/-- The boundary at which a domain of a region stops for a pre-emption (R349, R358): after every instant begun, but not after one
whose MGRP waits on its phase. -/
def State.stopBoundary (s : State) (r : Region) (i : Nat) (d : Dom) : Nat :=
  (((s.nodesOf r).filter (fun n => n.2.2.dom == i && n.2.2.hubWaits)).map (fun n => n.2.2.inst)).foldl Nat.min (s.begunIn r i d)

/-- Bytes of a save area for n cores (R363). -/
def areaSize (n : Nat) : Nat := 0x10000 + n * 0x480000

/-- The teams of a bundle with the save areas that stand one behind another from a given one on. -/
def withAreas : Nat → List (Nat × Team) → List (Nat × Team)
  | _, [] => []
  | a, x :: t => (x.1, { x.2 with area := some a }) :: withAreas (a + areaSize x.2.count) t

/-- The stop of a team begins (R358 steps 2 and 3): limits recorded, DOMSTOP on every domain, controllers told. -/
def State.beginStop (s : State) (x : Nat × Team) : State :=
  let (t, tm) := x
  let tell := fun (z : State) => tm.cores.foldl (fun (y : State) p => (y.modCore p Core.unbegun).modCtl p (fun c => { c with preempt := true })) z
  match tget s.regions tm.region with
  | none => s
  | some r =>
    let stop := (List.range r.doms.length).filterMap (fun i => (r.doms[i]?).map (fun (d : Dom) => d.stopAt (2 ^ 48 - 1) (s.stopBoundary r i d)))
    let s1 := tell (s.modRegion tm.region (fun r => { r with doms := stop }))
    { s1 with teams := tset s1.teams t { tm with st := .stopping, limits := r.doms.map (fun d => (d.lim, d.unlim)), deep := false } }

/-- Whether a controller stands where it may stop (R239): in team mode, and no outcome of a SIG outstanding. -/
def Ctl.mayStop (c : Ctl) : Bool :=
  !c.fw && (match c.pend with
    | .sig _ _ none => false
    | _ => true)

/-- A running controller of a team being stopped stops at the instruction boundary where it stands (R239). -/
def Ctl.stopHere (now : Nat) (c : Ctl) : Ctl := if c.preempt && c.run == .running && c.mayStop then c.stopAt now else c

/-- Whether a team's region is drained (R135, R358), the HUBRDs that wait on their phases left in their queues (R349). -/
def State.drainedBut (s : State) (tm : Team) : Bool :=
  (tm.cores.foldl (fun (z : State) p => z.modCore p (fun c => { c with hubCmd := none })) s).drained tm.region

/-- Whether a team's region is drained and its copies are complete (R358 steps 4 and 5). -/
def State.restsDrained (s : State) (tm : Team) : Bool :=
  s.drainedBut tm && tm.cores.all (fun p => let e := (s.coreAt p).ce; e.jobs.isEmpty && e.eots.isEmpty)

/-- Whether a team has stopped and may be saved (R358 steps 3 to 5). -/
def State.mayStopNow (s : State) (tm : Team) : Bool :=
  let ps := tm.cores
  ps.all (fun p => let c := s.ctlAt p; c.run != .running && c.run != .service && c.run != .pageWait) &&
  !s.arrivals.any (fun a => ps.contains a.home) &&
  (tm.deep || s.restsDrained tm)

/-! ### The save area (R363) -/

/-- Bytes that a save writes (R363): the header's 64 KiB, and each core's parts. -/
def saveBytes (sv : Saved) (n : Nat) : Nat :=
  0x10000 + n * ((if sv.resident then 0 else 0x400000) + (if sv.deep then 0x40000 else 0) + 0x40000)

/-- The header of a save area (R363), to the end of the parked signals. -/
def saveHeader (sv : Saved) (h w : Nat) (parked : List (Nat × Nat)) : List Byte :=
  bytesOfNat 0x56535144 4 ++ bytesOfNat 1 2 ++ bytesOfNat (sv.deep.toNat + 2 * sv.unloaded.toNat + 4 * sv.resident.toNat) 2 ++
  bytesOfNat h 1 ++ bytesOfNat w 1 ++ bytesOfNat parked.length 2 ++ bytesOfNat 0 4 ++ bytesOfNat sv.region.ident.toNat 32 ++
  bytesOfNat sv.region.image.toNat 8 ++ bytesOfNat (saveBytes sv (h * w)) 8 ++
  (parked ++ List.replicate (64 - parked.length) (0, 0)).flatMap parkedEntry

/-- 256 KiB whose contents the manual leaves open (R363): free values, as cells from offset 0 on. -/
def freeCells (f : Nat) : Memory := writeBytes [] 0 ((Config.savedBytes f ++ List.replicate 0x40000 0).take 0x40000)

/-- What a save writes for logical core l, its area at `a` (R361, R363): the scratchpad unless it stays resident, the channel
buffers in a deep save, the core's state; each with its place and its length. -/
def coreRanges (a f : Nat) (sv : Saved) (l : Nat) : List (Nat × Nat × Memory) :=
  let r := a + coreRecord l
  (if sv.resident then [] else [(r, 0x400000, sv.scratch.getD l [])]) ++
  (if sv.deep then [(r + 0x400000, 0x40000, freeCells (f + 2 * l))] else []) ++ [(r + 0x440000, 0x40000, freeCells (f + 2 * l + 1))]

/-- The bytes for the state of n cores, by logical core, in a save of free values from f on. -/
def stateBlocks (f n : Nat) : List Memory := (List.range n).map (fun l => freeCells (f + 2 * l + 1))

/-- What a save writes to its area (R363). -/
def savedRanges (a f : Nat) (sv : Saved) (tm : Team) (parked : List (Nat × Nat)) : List (Nat × Nat × Memory) :=
  (a, 0x10000, writeBytes [] 0 (saveHeader sv tm.h tm.w parked)) :: (List.range tm.count).flatMap (coreRanges a f sv)

/-- The signals parked for the leaf of a team. -/
def State.parkedOf (s : State) (tm : Team) : List (Nat × Nat) :=
  match tget s.tasks tm.task with
  | some k => (k.nodeAt tm.leaf).parked
  | none => []

/-- A save written to a save area, and kept as what the area's bytes for the cores' state stand for (R363, log 32); none where the
area cannot be written. -/
def State.writeArea (s : State) (a : Nat) (sv : Saved) (tm : Team) : Option State :=
  let key := Config.savedKey (stateBlocks s.free tm.count)
  (s.putPieces sv.part ((savedRanges a s.free sv tm (s.parkedOf tm)).flatMap (fun x => pieces x.1 x.2.1 x.2.2))).map (fun z =>
    { z with free := z.free + 2 * tm.count, areas := (key, sv) :: terase z.areas key })

/-- The banks of cores tagged with a task's handle (R361). -/
def State.tagBanks (s : State) (cores : List Nat) (h : BitVec 32) : State :=
  cores.foldl (fun (z : State) p => z.modCore p (fun c => { c with bankTags := (List.range 64).foldl (fun m b => tset m b h) c.bankTags })) s

/-- A region that a saved team leaves: what it holds is as loaded, for a later task with the same image (R315, R316). -/
def State.leaveRegion (s : State) (k : Nat) : State :=
  match tget s.regions k with
  | none => s
  | some r =>
    let s1 := s.modRegion k (fun r => { r with team := none })
    if r.configured then s1.configureAll k r.kept r.ident r.image r.doms.length else s1

/-- A team saved and its region released (R358 step 6): the save area that firmware gave is written, where it can be, and the banks
of a large region are tagged with its task (R361). -/
def State.saveTeam (s : State) (x : Nat × Team) : State :=
  let (t, tm) := x
  let s0 := s.ownBanks tm.cores
  let sv := s0.capture tm tm.region tm.area tm.deep
  let out := tm.area.bind (fun a => s0.writeArea a sv tm)
  let s1 := out.getD s0
  let s2 := tm.cores.foldl (fun (z : State) p => z.modCore p Core.stopped) (if sv.resident then s1.tagBanks tm.cores sv.handle else s1)
  let s3 : State := { s2 with walks := s2.walks.map (fun (w : Walk) => { w with joined := w.joined.filter (fun j => !tm.cores.contains j.core) }) }
  let s4 := s3.leaveRegion tm.region
  { s4 with
    teams := tset s4.teams t { tm with
      st := .saved, save := some { sv with area := if out.isSome then tm.area else none }, deep := false, limits := [] } }

/-- A team that is being stopped, and the teams stopped with it: controllers stop as they may; once all have stopped and
their regions are drained, or the save is deep, they are saved (R358). -/
def State.stopTurn (s : State) (t : Nat) : State :=
  let l := s.bundleOf t .stopping
  let s1 := l.foldl (fun (z : State) x => x.2.cores.foldl (fun (y : State) p => y.modCtl p (Ctl.stopHere s.steps)) z) s
  if l.all (fun x => s1.mayStopNow x.2) then l.foldl State.saveTeam s1 else s1

/-! ### Which teams give way (R317) -/

/-- The package as if some teams had left their cores. -/
def State.without (s : State) (l : List Nat) : State :=
  { s with cores := s.cores.map (fun c => (c.1, if c.2.team.any l.contains then { c.2 with team := none } else c.2)) }

/-- The running teams of a partition below an effective priority, in the order in which they give way, those pre-empted together
side by side (R317): the lowest effective priority first, then the team started most recently. -/
def State.givers (s : State) (part eff : Nat) : List (List Nat) :=
  let low := s.teams.filterMap (fun x => match tget s.tasks x.2.task with
    | some k => if x.2.st == .running && k.part == part && decide (k.eff < eff) then some (k.eff * (s.order + 1) + (s.order - x.2.order), x.1) else none
    | none => none)
  ((sortOn Prod.fst low).map (fun x => (s.bundleOf x.2 .running).map Prod.fst)).eraseDups

/-- The teams that a ready item that cannot bind may pre-empt (R317): as few of the first as let it bind, and of these none that it
could do without; teams being stopped already count as gone. -/
def State.victims (s : State) (part : Nat) (i : Item) : List Nat :=
  let gone := (s.teams.filter (fun x => x.2.st == .stopping)).map Prod.fst
  let binds := fun (l : List (List Nat)) => ((s.without (gone ++ l.flatten)).placeFor part i).isSome
  let g := s.givers part i.eff
  match (List.range (g.length + 1)).find? (fun n => binds (g.take n)) with
  | none => []
  | some n => ((g.take n).reverse.foldl (fun kept x => if binds (kept.erase x) then kept.erase x else kept) (g.take n)).flatten

/-- Whether a ready task that waits may pre-empt a team (R317). -/
def State.givesWay (s : State) (team part : Nat) : Bool :=
  !(s.partAt part).resetting && (s.items part).any (fun i => (s.victims part i).contains team)

/-- PREEMPT: firmware begins the pre-emption of a running team and of those bound with it, where a ready task may pre-empt it (R317),
giving them a save area (R358); on a team that is being stopped it carries the stop on. -/
def execPreempt (order : StopOrder) (s : State) : Answer :=
  let team := order.team
  match tget s.teams team with
  | none => .next s
  | some tm => match tm.st with
    | .running =>
      if s.givesWay team tm.part then .next (((withAreas order.area (s.bundleOf team .running)).foldl State.beginStop s).stopTurn team) else .next s
    | .stopping => .next (s.stopTurn team)
    | _ => .next s

/-- DEEP_SAVE_TIMEOUT: 65,536 cycles after the DOMSTOP, those of the teams stopped together that are not drained will be saved deep (R358
step 5). -/
def execDeepSaveTimeout (team : Nat) (s : State) : Answer :=
  .next ((s.bundleOf team .stopping).foldl (fun (z : State) x => { z with teams := tset z.teams x.1 { x.2 with deep := x.2.deep || !s.restsDrained x.2 } }) s)

/-! ### Resuming (R299, R300, R318, R359–R364) -/

/-- A position moved with its team from one north-west core to another. -/
def moved (from_ to_ p : Nat) : Nat := p + to_ - from_

/-- A beat of a scratchpad, as a copy's lost beats name it, moved with its team; others stay. -/
def movedBeat (from_ to_ b : Nat) : Nat := if 2 ^ 46 ≤ b then b + to_ * 2 ^ 16 - from_ * 2 ^ 16 else b

/-- A configuration as its core resumes: every held access will be attempted once more (R360). -/
def Cfg.resumed (g : Cfg) : Cfg := { g with nodes := g.nodes.map (fun n => (n.1, { n.2 with hold := none })) }

/-- A copy engine as its core resumes at another place (R360): its hold attempted once more, the beats it has lost or written where
the team now stands. -/
def CopyEng.resumed (e : CopyEng) (from_ to_ : Nat) : CopyEng :=
  { e with
    jobs := e.jobs.map (fun (j : CopyJob) =>
      { j with wrote := j.wrote.map (fun x => (moved from_ to_ x.1, x.2)), lost := j.lost.map (movedBeat from_ to_) }),
    eots := e.eots.map (fun (x : Eot) => { x with gives := x.gives.map (fun y => (moved from_ to_ y.1, y.2)) }), hold := none }

/-- A core given back what the save holds of a logical core; `from_` is where its team stood, `to_` where it stands, `k` its region
where the save's configuration goes back into it (R299, R359, R360). CYCLE counts on from here (R239). -/
def State.resumeCore (s : State) (t : Nat) (k : Option Nat) (from_ to_ p : Nat) (c : Core) : State :=
  s.modCore p (fun x =>
    { x with
      ctl := { c.ctl with start := s.steps }, unit := c.unit.map (fun (q : QCmd) => { q with issuer := moved from_ to_ q.issuer }),
      ce := c.ce.resumed from_ to_, team := some t, walkBad := [], hubCmd := c.hubCmd,
      cfg := match c.cfg, k with
        | some g, some _ => some g.resumed
        | _, _ => x.cfg
      region := match c.cfg, k with
        | some _, some r => some r
        | _, _ => x.region
      gated := [] })

/-- Whether a bank of a core still holds what a save left in it (R361). -/
def Saved.inPlace (v : Saved) (c : Core) (b : Nat) : Bool := v.resident && tget c.bankTags b == some v.handle

/-- The scratchpad of a logical core put back (R299, R361): in place where it stands on its old core, except banks that were
evicted. -/
def State.restoreScratch (s : State) (sv : Saved) (same : Bool) (l p : Nat) : State :=
  let cells := sv.scratch.getD l []
  let bad := sv.bad.getD l []
  (List.range 64).foldl (fun (z : State) b =>
    if same && sv.inPlace (z.coreAt p) b then z.modCore p (fun c => { c with bankTags := terase c.bankTags b })
    else
      let y := z.touch p (b * bankBytes)
      let key := scratchKey p (b * bankBytes)
      let here := fun w => decide (b * bankBytes ≤ w) && decide (w < (b + 1) * bankBytes)
      { y with
        mem := putRange y.mem key bankBytes (cellsIn cells (b * bankBytes) bankBytes),
        bad := y.bad.filter (fun w => !(decide (key ≤ w) && decide (w < key + bankBytes))) ++ (bad.filter here).map (fun w => scratchKey p w) }) s

/-- The banks that a resident save still keeps on the cores it left, written to the save area (R361). -/
def State.evictAll (s : State) (sv : Saved) (cores : List Nat) : State :=
  cores.foldl (fun (z : State) p => (List.range 64).foldl (fun (y : State) b => if sv.inPlace (y.coreAt p) b then y.evictBank p b else y) z) s

/-- The configuration that a resumed team's region needs, loaded or reset (R315, R316, R362): the state, and whether the
load succeeded. -/
def State.reload (s : State) (tm : Team) (sv : Saved) (k leader : Nat) : State × Bool :=
  if !sv.region.configured then (s, true)
  else
    let a := sv.region.image
    let planned := match tget s.tasks tm.task with
      | some q => match q.plan[tm.leaf]? with
        | some n => if n.hasImage && n.image == a then some q.src else none
        | none => none
      | none => none
    let r := match planned with
      | some src => s.loadBy k (s.planBytes src a) a none
      | none => s.loadImage k leader a none
    let same := match tget r.1.regions k with
      | some g => g.ident == sv.region.ident
      | none => false
    (r.1, r.2 == 0 && same)

/-- Whether a saved team takes up other cores than it left (R361). -/
def Team.moves (tm : Team) (p : Nat) : Bool :=
  match tm.save with
  | some sv => decide (sv.row * Config.gridCols + sv.col ≠ p)
  | none => false

/-- The resident banks of a team that moves, evicted to its saved state (R361). -/
def State.evictMoved (s : State) (tm : Team) (p : Nat) : State :=
  match tm.save with
  | some sv => if tm.moves p then s.evictAll sv (rectCores (sv.row * Config.gridCols + sv.col) tm.h tm.w) else s
  | none => s

/-- The domains of a resumed region as they were saved (R359); of one saved before its first DOMGO they are as loaded (R362). -/
def State.resumeRegion (s : State) (k : Nat) (sv : Saved) : State :=
  if sv.region.configured && !sv.unloaded then
    s.modRegion k (fun g => { g with
      doms := sv.region.doms, begun := true, fired := false, quiet := false, detail := sv.region.detail })
  else s

/-- The task sources that a team's cores hold, at their new places (R299, R300). -/
def State.resumeSources (s : State) (t : Nat) (tm : Team) : State :=
  { s with tasks := s.tasks.map (fun (x : Nat × Task) => (x.1, match x.2.srcCore with
    | some (u, l) => if u = t then { x.2 with srcPos := tm.posOf l } else x.2
    | none => x.2)) }

/-- The scratchpads of a resuming team's cores put back, and the cores given to it (R299, R361). -/
def State.refill (s : State) (t : Nat) (moves : Bool) (tm : Team) (sv : Saved) : State :=
  let s1 := (List.range tm.count).foldl (fun (z : State) l => z.restoreScratch sv (!moves) l (tm.posOf l)) s
  tm.cores.foldl (fun (z : State) q => z.modCore q (fun c => { c with team := some t })) s1

/-- A team's saved cores put on its new place, and its region loaded again (R359–R362), which discards no wheel definition (R299,
R339): what its configuration held goes back into it, unless no DOMGO had been taken, when the save holds no node, channel or domain state
and the region is as loaded (R362, log 31). -/
def State.resumeCores (s : State) (t p k : Nat) (moves : Bool) (tm : Team) (sv : Saved) : State :=
  let from_ := sv.row * Config.gridCols + sv.col
  let r := (s.refill t moves tm sv).reload tm sv k (tm.posOf 0)
  if !r.2 then r.1.loadFault tm.task tm.leaf 0x60
  else
    let s5 := r.1.modTeamAt (tm.posOf 0) (fun x => { x with wheels := sv.wheels })
    let s6 := (List.range tm.count).foldl (fun (z : State) l => match sv.cores[l]? with
      | some c => z.resumeCore t (if sv.region.configured && !sv.unloaded then some k else none) from_ p (tm.posOf l) c
      | none => z) s5
    ((s6.resumeRegion k sv).resumeSources t tm).applyParked tm.task tm.leaf tm

/-- The region record that a saved team takes up at a position (R315, R318). -/
def State.seatRegion (s : State) (p : Nat) (tm : Team) (sv : Saved) : Nat × State :=
  s.claimRegion tm.part p tm.h tm.w (!sv.region.configured)

/-- A saved team as it runs on at a position, in a region (R318, R339). -/
def Team.seated (tm : Team) (p k : Nat) (sv : Saved) : Team :=
  { tm with region := k, row := rowOf p, col := colOf p, wheels := sv.wheels, st := .running, area := none, save := none }

/-- The package once a saved team has taken up its region at a position. -/
def State.seat (s : State) (t p : Nat) (tm : Team) (sv : Saved) : State :=
  let x := s.seatRegion p tm sv
  ({ x.2 with teams := tset x.2.teams t (tm.seated p x.1 sv) } : State).modRegion x.1 (fun r => { r with team := some t })

/-- A saved team resumed with its north-west core at a position (R299, R300, R318, R360–R362): a failed load ends its leaf
faulted with 0x60. -/
def State.resumeTeam (s : State) (t p : Nat) : State :=
  match tget s.teams t with
  | none => s
  | some tm => match tm.save with
    | none => s
    | some sv =>
      let k := (s.seatRegion p tm sv).1
      (s.seat t p tm sv).resumeCores t p k (tm.moves p) (tm.seated p k sv) sv

/-- The saved team of a task's leaf. -/
def State.savedLeaf (s : State) (t leaf : Nat) : Option (Nat × Team) := (s.savedOf t).find? (fun y => y.2.leaf == leaf)

/-- An item of saved teams resumed at its rows' positions: the banks of those that move are written to their save areas first (R361). -/
def State.resumeItem (s : State) (i : Item) (at_ : List Nat) : State :=
  let s1 := (i.seats at_).foldl (fun (z : State) x => match z.savedLeaf i.task x.1.leaf with
    | some y => z.evictMoved y.2 x.2
    | none => z) s
  (i.seats at_).foldl (fun (z : State) x => match z.savedLeaf i.task x.1.leaf with
    | some y => z.resumeTeam y.1 x.2
    | none => z) s1

/-- RESUME: the dispatcher resumes a pre-empted team, with those bound with it, once its turn has come and regions are free
for all of them (R300, R314, R315, R317, R318). -/
def execResume (team : Nat) (s : State) : Answer :=
  match tget s.teams team with
  | none => .next s
  | some tm => match s.choice tm.part with
    | none => .next s
    | some (i, p) =>
      if !i.saved || i.task ≠ tm.task || !(i.places.map (fun x => x.leaf)).contains tm.leaf then .next s
      else
        .next ((s.resumeItem i p).modPart tm.part (fun pt => { pt with robin := tset pt.robin i.eff i.source }))

/-- TAGGED_BANK_EVICT: the device writes a tagged bank to its owner's save area and clears the tag (R361). -/
def execTaggedBankEvict (core bank : Nat) (s : State) : Answer := .next (s.evictBank core bank)

/-! ### DOMSAVE and DOMLOAD (R260, R363) -/

/-- The checks that DOMSAVE and DOMLOAD share (R246, R260). -/
def State.areaChecks (s : State) (c : CmdArgs) (q : QCmd) : List Chk :=
  let a := cmdAddr c
  let isGlobal := match spaceOf a with
    | .global _ => true
    | _ => false
  [{ ok := c.target == 0, code := 0x51, word := 0 }, { ok := a.toNat % 4096 == 0, code := 0x51, word := 1 },
   { ok := isGlobal, code := 0x51, word := 2 }, zeroWord c.w3 3, { ok := s.cmdRegion.isSome, code := 0x54, word := 0 },
   { ok := q.fw, code := 0x56, word := 0 }]

/-- A team saved to an area as if its command had been answered already (R259, R363), the banks of a large region tagged (R361); none
where the area cannot be written. -/
def State.saveTo (s : State) (p k a : Nat) (deep : Bool) : Option State :=
  let tm := s.teamAt p
  let s0 := s.ownBanks tm.cores
  let s1 := s0.cmdDone p (BitVec.ofNat 64 (saveBytes (s0.capture tm k (some a) deep) tm.count))
  let sv := s1.capture tm k (some a) deep
  (s1.writeArea a sv tm).map (fun z => if sv.resident then z.tagBanks tm.cores sv.handle else z)

/-- DOMSAVE: the team's region saved to a save area (R260, R359–R363). -/
def execDomsave (c : CmdArgs) (s : State) : Answer :=
  let p := s.here
  let a := (cmdAddr c).toNat
  let deep := c.flags.getLsbD 0
  let rests := match s.cmdRegion with
    | some (_, r) =>
      let ns := s.nodesOf r
      (List.range r.doms.length).all (fun i => match r.doms[i]? with
        | some d => restsAt d ((ns.filter (fun n => n.2.2.dom == i)).map (fun n => n.2.2))
        | none => true)
    | none => false
  let k := (s.cmdRegion.map Prod.fst).getD 0
  let out := s.saveTo p k a deep
  s.runCmd (fun q => [flagsIn c 1] ++ s.areaChecks c q ++
    [{ ok := deep || rests, code := 0x54, word := 0 }, { ok := out.isSome, code := 0x53, word := 1 }])
    (fun _ => out.getD s)

/-- The bytes that a save area holds for the state of n cores, by logical core, as cells; none where they cannot be read. -/
def State.takeState (s : State) (part a n : Nat) : Option (List Memory) :=
  (List.range n).foldl (fun z l => z.bind (fun m =>
    (s.takeGlobal part (a + coreRecord l + 0x440000) 0x40000).map (fun c => m ++ [c]))) (some [])

/-- Whether a save area's header fits a region of a shape (R363): magic, version and shape. -/
def headerFits (m : Memory) (h w : Nat) : Bool :=
  readNat m 0 4 == 0x56535144 && readNat m 4 2 == 1 && readNat m 8 1 == h && readNat m 9 1 == w

/-- The save that a save area holds, wherever it was written, if its header fits a region (R363, log 32). -/
def State.saveAt (s : State) (part a h w : Nat) : Option Saved :=
  match s.takeGlobal part a 0x40, s.takeState part a (h * w) with
  | some m, some l => if headerFits m h w then tget s.areas (Config.savedKey l) else none
  | _, _ => none

/-- The signals parked in a save area (R300, R363); none where it cannot be read. -/
def State.parkedAt (s : State) (part a : Nat) : List (Nat × Nat) :=
  match s.takeGlobal part a 0x240 with
  | some m => (List.range (min 64 (readNat m 0x0A 2))).map (fun i =>
      let e := readNat m (0x40 + 8 * i) 8
      (bitsOf e 25 16, bitsOf e 3 0))
  | none => []

/-- The banks of logical core l that a save area gives back, as the cells of its scratchpad; none where one cannot be read. -/
def State.takeBanks (s : State) (part a l : Nat) (banks : List Nat) : Option Memory :=
  banks.foldl (fun z b => z.bind (fun m => (s.takeGlobal part (a + coreRecord l + b * bankBytes) bankBytes).map (fun c =>
    m ++ c.map (fun x => (x.1 + b * bankBytes, x.2))))) (some [])

/-- The scratchpads that a save area gives back to its team's cores, without the banks that are still in place (R361, R363); none
where they cannot be read. -/
def State.takeScratch (s : State) (part a : Nat) (tm : Team) (sv : Saved) : Option (List Memory) :=
  let same := sv.row == tm.row && sv.col == tm.col
  (List.range tm.count).foldl (fun z l => z.bind (fun m =>
    (s.takeBanks part a l ((List.range 64).filter (fun b => !(same && sv.inPlace (s.coreAt (tm.posOf l)) b)))).map (fun c => m ++ [c]))) (some [])

/-- A save put back into its team's cores and region, and then its parked signals applied (R260, R300, R359, R360); where no DOMGO
had been taken the region keeps the configuration it has (R362). -/
def State.restoreSave (s : State) (p k : Nat) (sv : Saved) : State :=
  let tm := s.teamAt p
  let t := ((s.coreAt p).team).getD 0
  let from_ := sv.row * Config.gridCols + sv.col
  let to_ := tm.row * Config.gridCols + tm.col
  let s2 := (List.range tm.count).foldl (fun (z : State) l => z.restoreScratch sv (from_ == to_) l (tm.posOf l)) s
  let s3 := (List.range tm.count).foldl (fun (z : State) l => match sv.cores[l]? with
    | some x => z.resumeCore t (if sv.unloaded then none else some k) from_ to_ (tm.posOf l) x
    | none => z) s2
  let s4 := (s3.resumeRegion k sv).modTeamAt p (fun x => { x with wheels := sv.wheels })
  s4.applySignals tm (sv.parked.filter (fun x => decide (x.1 < tm.count)))

/-- What a save area gives back (R361, R363): its save with the scratchpads and the parked signals that it holds; the banks still on
cores elsewhere are written to it first. -/
def State.fromArea (s : State) (part a : Nat) (tm : Team) (sv : Saved) : Option (State × Saved) :=
  let s1 := if sv.row == tm.row && sv.col == tm.col then s else s.evictAll sv (rectCores (sv.row * Config.gridCols + sv.col) tm.h tm.w)
  (s1.takeScratch part a tm sv).map (fun m => (s1, { sv with scratch := m, parked := s.parkedAt part a }))

/-- What DOMLOAD does once its checks have passed: the save put back, and then the command done: a CMDQ that waits for it takes the
bytes read (R247, R260, R359). -/
def State.loadSaved (s : State) (p : Nat) : Option (State × Saved) → Option (Nat × Region) → State
  | some (z, sv), some (k, _) =>
    let n := BitVec.ofNat 64 (saveBytes sv (z.teamAt p).count)
    let done := (z.popCmd p).restoreSave p k sv
    match s.headOf p with
    | some q => if q.viaQ then match (s.ctlAt q.issuer).pend with
        | .cmdq d _ _ => done.modCtl q.issuer (fun c => c.put d n)
        | _ => done
      else done
    | none => done
  | _, _ => s

/-- DOMLOAD: the team's region restored from a save area (R260, R359, R360, R363). -/
def execDomload (c : CmdArgs) (s : State) : Answer :=
  let p := s.here
  let a := (cmdAddr c).toNat
  let tm := s.teamAt p
  let part := s.partOf p
  let save := s.saveAt part a tm.h tm.w
  let fits := match s.cmdRegion, save with
    | some (_, r), some sv => r.configured && !r.begun && sv.region.ident == r.ident
    | some (_, r), none => r.configured && !r.begun
    | none, _ => false
  let out := save.bind (fun sv => s.fromArea part a tm sv)
  s.runCmd (fun q => [flagsIn c 0] ++ s.areaChecks c q ++
    [{ ok := fits, code := 0x54, word := 0 }, { ok := out.isSome, code := 0x53, word := 1 }])
    (fun _ => s.loadSaved p out s.cmdRegion)

end Sys2Proof.Machine
end

