-- ==== Sys2Proof/Machine/Errors.lean ====
section
/-!
DEFINITION. Soft errors and failed cores (R353–R357): corrected errors counted in windows, banks retired to spares, cache ways
given up, cores marked failed.
-/

namespace Sys2Proof.Machine

/-- The corrected errors in a window above which a bank or way is retired, by die; 4 unless firmware sets another (R355). -/
def State.threshold (s : State) (core : Nat) : Nat := tgetD 4 s.thresh (dieOf core)

/-- The bank field of a fault record on a scratchpad bank (R352). -/
def bankField (bank : Nat) : Nat := 64 + bank % 64

/-- A record of a bank's retirement (R353, R355). -/
def State.bankRecord (s : State) (core code bank count : Nat) : State :=
  s.fault (s.partOf core) { s.recAt core code 0xFF 0xFF with bank := bankField bank, count := count }

/-- Whether a tile's spare bank is taken, or being filled. -/
def Core.spareTaken (c : Core) (tile : Nat) : Bool := (tget c.spare tile).isSome || c.copying.any (fun b => b / 16 == tile)

/-- A corrected error of a scratchpad bank counted; the count that first exceeds the threshold starts its copy into the
tile's spare, or records that the spare is in use (R355), after which firmware marks the core failed (R357). -/
def State.bankError (s : State) (core bank : Nat) : State :=
  let n := tgetD 0 (s.coreAt core).bankErr bank + 1
  let s1 := s.modCore core (fun c => { c with bankErr := tset c.bankErr bank n })
  if n ≠ s.threshold core + 1 then s1
  else if (s.coreAt core).spareTaken (bank / 16) then
    let s2 := s1.bankRecord core 0x51 bank n
    s2.later (.event (.coreFailed core))
  else s1.modCore core (fun c => { c with copying := c.copying ++ [bank] })

/-- A corrected error of a cache way counted; above the threshold the way leaves every partition's mask (R355). -/
def State.wayError (s : State) (core way : Nat) : State :=
  let n := tgetD 0 (s.coreAt core).wayErr way + 1
  s.modCore core (fun c =>
    { c with wayErr := tset c.wayErr way n, lostWays := if s.threshold core < n then c.lostWays ||| (1 <<< (way % 16)) else c.lostWays })

/-- CORRECTED_ERROR: an error corrected and written back (R354): counted for a bank, a cache way (R355) or an LPDDR6 channel
(R356), and invisible elsewhere. -/
def execCorrectedError (site : ErrorSite) (s : State) : Answer :=
  match site with
  | .bank core tile bank => .next (s.bankError core (16 * tile + bank))
  | .way core way => .next (s.wayError core way)
  | .dram ch => .next { s with dramErr := tset s.dramErr ch (tgetD 0 s.dramErr ch + 1) }
  | .other _ => .next s

/-- ERROR_WINDOW_END: every count of a bank or way returns to 0 (R355). -/
def execErrorWindowEnd (s : State) : Answer :=
  .next { s with cores := s.cores.map (fun (c : Nat × Core) => (c.1, { c.2 with bankErr := [], wayErr := [] })) }

/-- BANK_RETIRE: the copy of a bank into its tile's spare ends; the spare takes its place at the same addresses, uncorrectable
words and all (R355, R405). -/
def execBankRetire (core bank : Nat) (s : State) : Answer :=
  let c := s.coreAt core
  if c.copying.contains bank then
    let s1 := s.modCore core (fun c => { c with copying := c.copying.erase bank, spare := tset c.spare (bank / 16) bank })
    .next (s1.bankRecord core 0x50 bank (tgetD 0 c.bankErr bank))
  else .next s

/-- A domain with a node on a failed core stopped, with its record 0x13 (R353, R357). -/
def State.stopDomain (s : State) (k : Nat) (r : Region) (core dom : Nat) : State :=
  match r.doms[dom]? with
  | none => s
  | some d =>
    let here := (s.nodesOf r).any (fun n => n.1 == core && n.2.2.dom == dom)
    if d.done || d.stopped || !here then s
    else
      (s.fault r.part { s.recAt core 0x13 0xFF dom with stopped := true, inst := d.ctr }).stopDom k r dom

/-- CORE_FAILED: firmware marks a core failed: its controller halts, its nodes fire no more, the domains with a node on it
stop; the team goes on, and its task will end faulted (R351, R357). -/
def execCoreFailed (core : Nat) (s : State) : Answer :=
  if (s.coreAt core).failed then .next s
  else
    let s1 := s.modCore core (fun c =>
      { c with
        failed := true, repaired := false,
        ctl := if c.team.isSome then { c.ctl with run := .halted, pend := .none, kept := [] } else c.ctl })
    let s2 := match s1.fabricOf core with
      | some (k, r) => if r.configured && r.team.isSome then (List.range r.doms.length).foldl (fun (z : State) i => z.stopDomain k r core i) s1 else s1
      | none => s1
    .next ({ s2.doomAt core 0x13 with
      calls := s2.calls.filter (fun x => x.1 != core), pageAsks := s2.pageAsks.filter (fun x => x.1 != core) })

end Sys2Proof.Machine
end

