-- ==== Sys2Proof/Machine/Ecdsa.lean ====
section
/-!
DEFINITION. ECDSA over P-256 (R400, R401), structurally recursive. The curve's numbers, the encoding of keys and signatures and
the algorithm are the standard's, which the manual names and does not repeat (PRESUMED, log 4).
-/

namespace Sys2Proof.Machine

/-- The prime of the field. -/
def ecPrime : Nat := 2 ^ 256 - 2 ^ 224 + 2 ^ 192 + 2 ^ 96 - 1

/-- The order of the base point. -/
def ecOrder : Nat := 0xFFFFFFFF00000000FFFFFFFFFFFFFFFFBCE6FAADA7179E84F3B9CAC2FC632551

/-- The constant term of the curve y² = x³ − 3x + b. -/
def ecConst : Nat := 0x5AC635D8AA3A93E7B3EBBD55769886BC651D06B0CC53B0F63BCE3C3E27D2604B

/-- A point of the curve; none is the point at infinity. -/
abbrev EcPoint := Option (Nat × Nat)

/-- The base point. -/
def ecBase : EcPoint :=
  some (0x6B17D1F2E12C4247F8BCE6E563A440F277037D812DEB33A0F4A13945D898C296,
    0x4FE342E2FE1A7F9B8EE7EB4A7C0F9E162BCE33576B315ECECBB6406837BF51F5)

/-- Whether coordinates are those of a point. -/
def ecOn (x y : Nat) : Bool :=
  decide (x < ecPrime) && decide (y < ecPrime) && (y * y + 3 * x) % ecPrime == (x * x * x + ecConst) % ecPrime

/-- A power of b with an exponent of n bits, modulo m. -/
def powMod (m : Nat) : Nat → Nat → Nat → Nat
  | 0, _, _ => 1 % m
  | n + 1, b, e =>
    let h := powMod m n (b * b % m) (e / 2)
    if e % 2 = 1 then b * h % m else h

/-- The inverse modulo a prime (Fermat). -/
def invMod (m a : Nat) : Nat := powMod m 256 a (m - 2)

/-- The third point on a line of slope l through two points, its sign turned. -/
def ecThird (l x1 y1 x2 : Nat) : EcPoint :=
  let x := (l * l + (ecPrime - x1) + (ecPrime - x2)) % ecPrime
  some (x, (l * (x1 + (ecPrime - x)) + (ecPrime - y1)) % ecPrime)

/-- The sum of two points. -/
def ecAdd : EcPoint → EcPoint → EcPoint
  | none, q => q
  | p, none => p
  | some (x1, y1), some (x2, y2) =>
    if x1 = x2 then
      if (y1 + y2) % ecPrime = 0 then none
      else ecThird ((3 * x1 * x1 + (ecPrime - 3)) * invMod ecPrime (2 * y1 % ecPrime) % ecPrime) x1 y1 x1
    else ecThird ((y2 + (ecPrime - y1)) * invMod ecPrime ((x2 + (ecPrime - x1)) % ecPrime) % ecPrime) x1 y1 x2

/-- A multiple of a point by a number of n bits. -/
def ecTimes : Nat → Nat → EcPoint → EcPoint
  | 0, _, _ => none
  | n + 1, k, p =>
    let h := ecTimes n (k / 2) (ecAdd p p)
    if k % 2 = 1 then ecAdd p h else h

/-- A public key from its uncompressed form: 04 and the two coordinates. -/
def ecKey (l : List Byte) : EcPoint :=
  let x := beNat ((l.drop 1).take 32)
  let y := beNat (l.drop 33)
  if l.length = 65 ∧ l.head? = some 4 ∧ ecOn x y then some (x, y) else none

/-- The uncompressed form of a public key, 65 bytes. -/
def ecKeyBytes (p : EcPoint) : List Byte := 4 :: (beBytes (p.getD (0, 0)).1 32 ++ beBytes (p.getD (0, 0)).2 32)

/-- Whether a signature r, s verifies over a digest with a public key. -/
def ecdsaVerify (key : List Byte) (digest signature : List Byte) : Bool :=
  let r := beNat (signature.take 32)
  let s := beNat (signature.drop 32)
  match ecKey key with
  | none => false
  | some q =>
    let w := invMod ecOrder s
    let sum := ecAdd (ecTimes 256 (beNat digest * w % ecOrder) ecBase) (ecTimes 256 (r * w % ecOrder) (some q))
    signature.length == 64 && decide (0 < r) && decide (r < ecOrder) && decide (0 < s) && decide (s < ecOrder) &&
    (match sum with
      | some (x, _) => x % ecOrder == r
      | none => false)

/-- The signature r, s of a digest by a private key, with a nonce: 64 bytes, big-endian (R401). -/
def ecdsaSign (secret nonce : Nat) (digest : List Byte) : List Byte :=
  let r := ((ecTimes 256 nonce ecBase).getD (0, 0)).1 % ecOrder
  let s := invMod ecOrder nonce * (beNat digest + r * secret) % ecOrder
  beBytes r 32 ++ beBytes s 32

/-- A number in the range of private keys and nonces. -/
def ecScalar (n : Nat) : Nat := 1 + n % (ecOrder - 1)

/-- The device identity public key, read at 0x0500_0040 (R401). -/
def identityKey : List Byte := ecKeyBytes (ecTimes 256 (ecScalar Config.identitySecret) ecBase)

/-- The device's signature over a digest (R401); `draw` counts the free nonces. -/
def attestSignature (draw : Nat) (digest : List Byte) : List Byte :=
  ecdsaSign (ecScalar Config.identitySecret) (ecScalar (Config.attestNonce draw)) digest

end Sys2Proof.Machine
end

