-- ==== Sys2Proof/Machine/HostEvents.lean ====
section
/-!
DEFINITION. Partitions, the host's registers, boot, attestation and power (R389–R404).
-/

namespace Sys2Proof.Machine

/-! ### Scratchpads zeroed, regions discarded -/

/-- A core's scratchpad zeroed, its tagged banks first written to their owners' saves (R361, R392, R395, R402). -/
def State.zeroScratch (s : State) (p : Nat) : State :=
  let s1 := ((s.coreAt p).bankTags.map Prod.fst).foldl (fun (z : State) b => z.evictBank p b) s
  let lo := scratchKey p 0
  { s1 with mem := blankRange s1.mem lo (2 ^ 22), bad := s1.bad.filter (fun w => !(decide (lo ≤ w) && decide (w < lo + 2 ^ 22))) }

/-- The configuration of every region that has a core discarded, its channel memory with it. -/
def State.discardAt (s : State) (p : Nat) : State :=
  (s.regions.filter (fun g => g.2.configured && g.2.cores.contains p)).foldl
    (fun (z : State) g => (z.guardWave g.1).unconfigure g.1) s

/-! ### Reset, repair, update of a partition (R395–R397) -/

/-- Every event of a partition's block set to killed (R395). -/
def State.killEvents (s : State) (part : Nat) : State :=
  let pt := s.partAt part
  (List.range pt.events).foldl (fun (z : State) i => z.setEvent (pt.event i) endKilled) s

/-- A partition reset (R395): tasks killed, events set to killed, regions discarded, scratchpads zeroed, TLB entries dropped,
queues emptied; PCTL [1] reads 0 again and [2] is set. A failed core may then be tested (R396). -/
def State.resetPart (s : State) (part : Nat) : State :=
  let mine := (s.tasks.filter (fun k => k.2.part == part)).map Prod.fst
  let s1 := (mine.foldl (fun (z : State) t => z.killTask t) s).killEvents part
  let ps := (List.range Config.coreCount).filter (fun p => let c := s.coreAt p; c.assigned && c.tag == part)
  let s2 := (s1.regions.filter (fun g => g.2.part == part && g.2.configured)).foldl
    (fun (z : State) g => (z.guardWave g.1).unconfigure g.1) s1
  let s3 := ps.foldl (fun (z : State) p => (z.zeroScratch p).modCore p (fun c => { c with bankTags := [], repaired := c.failed })) s2
  let s4 := s3.tlbInvalidate part
  let s5 : State :=
    { s4 with
      walks := s4.walks.filter (fun w => w.part != part)
      queues := s4.queues.map (fun (q : Nat × Queue) => (q.1, if q.2.tag == part && q.2.assigned then { q.2 with recs := [] } else q.2)) }
  (s5.modPart part (fun pt => { pt with pfqLost := 0, resetting := false, resetDone := true })).failDeps

/-- PARTITION_RESET: writing 1 to PCTL [1] (R391, R395). -/
def execPartitionReset (part : Nat) (s : State) : Answer := .next (s.resetPart part)

/-- RESET_DONE_CLEAR: writing 1 to PCTL [2] clears it (R391). -/
def execResetDoneClear (part : Nat) (s : State) : Answer := .next (s.modPart part (fun pt => { pt with resetDone := false }))

/-- CORE_REPAIR_TEST: firmware tests a failed core whose partition has been reset; a core that fails the test stays out of
service until the next boot (R396). -/
def execCoreRepairTest (core : Nat) (passed : Bool) (s : State) : Answer :=
  let c := s.coreAt core
  if c.failed && c.repaired && !c.dead then
    .next (s.modCore core (fun c => if passed then { c with failed := false, repaired := false } else { c with repaired := false, dead := true }))
  else .next s

/-- FIRMWARE_SWITCH: a partition takes its staged firmware once its queues are empty and it has no live task (R397). -/
def execFirmwareSwitch (part : Nat) (s : State) : Answer :=
  match (s.partAt part).staged with
  | none => .next s
  | some (v, d) =>
    let busy := s.queues.any (fun q => q.2.assigned && q.2.tag == part && !q.2.recs.isEmpty) ||
      s.tasks.any (fun k => k.2.part == part && k.2.ended.isNone)
    .next (if busy then s else s.modPart part (fun pt => { pt with version := v, digest := d, staged := none }))

/-! ### Tags and grants (R392) -/

/-- A core's tag changed while no team is bound to it: its scratchpad and channel memory zeroed (R392). -/
def State.retagCore (s : State) (p tag : Nat) (assigned : Bool) : State :=
  if (s.coreAt p).team.isSome then s
  else
    let s1 := (s.discardAt p).zeroScratch p
    s1.modCore p (fun c => { c with tag := tag, assigned := assigned, tlb := [], bankTags := [] })

/-- A queue's tag changed while it holds no record (R392). -/
def State.retagQueue (s : State) (q tag : Nat) (assigned : Bool) : State :=
  if (s.queueAt q).recs.isEmpty then s.modQueue q (fun x => { x with tag := tag, assigned := assigned }) else s

/-- The channels of the port at a byte of PVC0 or PVC1 that are enabled at this end. -/
def State.enabledAt (s : State) (high : Bool) (i : Nat) : BitVec 8 := (s.portAt (i + 8 * high.toNat)).en

/-- The channels that partitions other than one hold by PVC0 or PVC1. -/
def State.heldElsewhere (s : State) (part : Nat) (high : Bool) : BitVec 64 :=
  (s.parts.filter (fun q => q.1 != part)).foldl (fun v q => v ||| (if high then q.2.pvc1 else q.2.pvc0)) 0

/-- A grant register changed, unless a channel that it gives or takes is enabled at this end (R391, R392), or one that it gives is
another partition's: at most one holds a channel (R377). -/
def State.setGrant (s : State) (part : Nat) (high : Bool) (v : BitVec 64) : State :=
  let pt := s.partAt part
  let old := if high then pt.pvc1 else pt.pvc0
  let free := (List.range 8).all (fun i => ((old ^^^ v) >>> (8 * i)).extractLsb' 0 8 &&& s.enabledAt high i == 0)
  if free && (v &&& ~~~old &&& s.heldElsewhere part high) == 0 then s.modPart part (fun pt => if high then { pt with pvc1 := v } else { pt with pvc0 := v }) else s

/-- The bits of a home group that R390 assigns. -/
def homeMask : BitVec 64 := 0x0000001F3F0F1F1F

/-- A home group's register written (R280, R390). -/
def State.setHome (s : State) (g : Nat) (v : BitVec 64) : State := { s with homes := tset s.homes g (v &&& homeMask) }

/-- RETAG: firmware changes a core's tag, a queue's tag, a grant or a home group (R392). -/
def execRetag (what : RetagSite) (s : State) : Answer :=
  match what with
  | .core p tag assigned => .next (s.retagCore p tag assigned)
  | .queue q tag assigned => .next (s.retagQueue q tag assigned)
  | .grant part high v => .next (s.setGrant part high v)
  | .homeGroup g v => .next (s.setHome g v)

/-! ### Power, clock, self-refresh (R402–R404) -/

/-- A core in a power state (R402): OFF keeps neither scratchpad nor configuration. -/
def State.enterPower (s : State) (p : Nat) (st : BitVec 2) : State :=
  let s1 := if st = 3 then ((s.discardAt p).zeroScratch p).modCore p (fun c =>
      { c with ctl := Ctl.reset, unit := [], ce := CopyEng.reset, cfg := none, region := none, tlb := [], bankTags := [], gated := [] })
    else s
  s1.modCore p (fun c => { c with power := st })

/-- Whether self-refresh keeps a core in its power state (R404). -/
def State.refreshHolds (s : State) (c : Core) : Bool := s.refresh && (c.power == 2 || c.power == 3)

/-- A request for a power state (R402): refused for a core bound to a team, held while self-refresh keeps the core (R404). -/
def State.requestPower (s : State) (core : Nat) (state : BitVec 2) : State :=
  let c := s.coreAt core
  let s1 := s.modCore core (fun c => { c with request := state })
  if state = c.power then s1
  else if c.power == 0 && c.team.isSome then s1.modCore core (fun c => { c with refused := true })
  else if s.refreshHolds c then s1
  else s1.enterPower core state

/-- POWER_STATE_REQUEST: a write to a core's power register (R402). -/
def execPowerStateRequest (core : Nat) (state : BitVec 2) (s : State) : Answer := .next (s.requestPower core state)

/-- POWER_REFUSAL_CLEAR: writing 1 to [16] of a core's power register clears it (R402). -/
def execPowerRefusalClear (core : Nat) (s : State) : Answer := .next (s.modCore core (fun c => { c with refused := false }))

/-- CLOCK_STEP_CHANGE: the fabric clock step; no result changes (R403). -/
def execClockStepChange (clk : BitVec 2) (s : State) : Answer := .next { s with clock := clk }

/-- Self-refresh asked for: accepted only while every core is in RET or OFF (R404). -/
def State.refreshOn (s : State) : State :=
  let ok := (List.range Config.coreCount).all (fun p => let c := s.coreAt p; c.power == 2 || c.power == 3)
  if ok then { s with refresh := true } else { s with refreshNo := true }

/-- SELF_REFRESH_ENTER: writing 1 to the self-refresh bit (R404). -/
def execSelfRefreshEnter (s : State) : Answer := .next s.refreshOn

/-- Self-refresh left: requests that it held back take effect (R404). -/
def State.refreshOff (s : State) : State :=
  let late := if s.refresh then
      (List.range Config.coreCount).filter (fun p => let c := s.coreAt p; (c.power == 2 || c.power == 3) && c.request != c.power)
    else []
  late.foldl (fun (z : State) p => z.enterPower p (z.coreAt p).request) { s with refresh := false }

/-- SELF_REFRESH_EXIT: writing 0 to the self-refresh bit (R404). -/
def execSelfRefreshExit (s : State) : Answer := .next s.refreshOff

/-! ### The aperture (R390, R391) -/

/-- The sum of LPDDR6 shares over all partitions, one of them replaced (R391). -/
def State.dramSum (s : State) (part share : Nat) : Nat :=
  ((List.range 32).map (fun q => if q = part then share else (s.partAt q).pdram.toNat)).foldl (· + ·) 0

/-- A write to a partition register (R391); reserved bits read zero. -/
def State.partWrite (s : State) (part off : Nat) (v : BitVec 64) : Answer :=
  match off with
  | 0x00 => .next (s.modPart part (fun pt => { pt with ptroot := v &&& 0x000FFFFFFFFE0000 }))
  | 0x08 => .next (s.modPart part (fun pt => { pt with pevt := v &&& 0xFFFFFFFF }))
  | 0x10 => .next (s.modPart part (fun pt => { pt with pfq := v &&& 0x000FFFFFFFFF0000 }))
  | 0x18 => .next (s.modPart part (fun pt => { pt with pfqR := bitsOf v.toNat 41 32 }))
  | 0x20 => .next (s.modPart part (fun pt => { pt with pways := v &&& 0xFFFF }))
  | 0x28 =>
    let share := v.toNat % 128
    .next (if s.dramSum part share ≤ 64 then s.modPart part (fun pt => { pt with pdram := BitVec.ofNat 64 share }) else s)
  | 0x30 => .next (s.setGrant part false v)
  | 0x38 => .next (s.setGrant part true v)
  | 0x40 =>
    let s1 := if v.getLsbD 2 then s.modPart part (fun pt => { pt with resetDone := false }) else s
    .next (if v.getLsbD 1 then s1.resetPart part else s1)
  | _ => .next s

/-- Eight entries of a map of one byte each, applied in order (R390): number, tag, assigned. -/
def mapBytes (first : Nat) (v : BitVec 64) : List (Nat × Nat × Bool) :=
  (List.range 8).map (fun i => (first + i, bitsOf v.toNat (8 * i + 4) (8 * i), bitsOf v.toNat (8 * i + 7) (8 * i + 7) == 1))

/-- REGISTER_WRITE: an aligned 8-byte write to the aperture (R390): the firmware performs a privileged one; any other is
dropped. -/
def execRegisterWrite (offset : Nat) (value : BitVec 64) (privileged : Bool) (s : State) : Answer :=
  if !privileged || !s.booted || offset % 8 ≠ 0 then .next s
  else if 0x03000000 ≤ offset ∧ offset < 0x03000200 then
    .next ((mapBytes (offset - 0x03000000) value).foldl (fun (z : State) x =>
      if (z.coreAt x.1).tag = x.2.1 && (z.coreAt x.1).assigned = x.2.2 then z else z.retagCore x.1 x.2.1 x.2.2) s)
  else if 0x03001000 ≤ offset ∧ offset < 0x03001800 then
    .next ((mapBytes (offset - 0x03001000) value).foldl (fun (z : State) x => z.retagQueue x.1 x.2.1 x.2.2) s)
  else if 0x03002000 ≤ offset ∧ offset < 0x03003000 then s.partWrite ((offset - 0x03002000) / 0x80) (offset % 0x80) value
  else if 0x03004000 ≤ offset ∧ offset < 0x03004400 then .next (s.setHome ((offset - 0x03004000) / 8) value)
  else if 0x04000000 ≤ offset ∧ offset < 0x04001000 then
    let p := (offset - 0x04000000) / 8
    let s1 := if value.getLsbD 16 then s.modCore p (fun c => { c with refused := false }) else s
    .next (s1.requestPower p (value.extractLsb' 0 2))
  else if offset = 0x04001000 then .next { s with clock := value.extractLsb' 0 2 }
  else if offset = 0x04001008 then .next (if value.getLsbD 0 then s.refreshOn else s.refreshOff)
  else .next s

/-! ### Boot and firmware (R400) -/

/-- Whether an image is signed with the key whose digest is fused (R400). -/
def imageSigned (i : FirmwareImage) : Bool := sha256 i.key == Config.fusedKeyDigest && ecdsaVerify i.key (sha256 i.bytes) i.signature

/-- The BOOTST code of an image's checks (R400): 0 when all hold. -/
def imageStatus (rollback : Nat) (i : FirmwareImage) : BitVec 8 :=
  if !imageSigned i then 1 else if i.version < rollback then 2 else if !i.fits then 3 else 0

/-- The SHA-256 of an image as a number whose byte 0 is the digest's first. -/
def imageDigest (i : FirmwareImage) : BitVec 256 := BitVec.ofNat 256 (natOfBytes (sha256 i.bytes))

/-- A core at reset again: one marked failed stays so, and one that has failed its test stays out of service (R396). -/
def Core.restarted (c : Core) : Core := { Core.reset with failed := c.failed, repaired := c.repaired, dead := c.dead }

/-- The package at reset again: memory outside the cores, the marks of failed cores, the spare cores in use, the fused rollback
counter and the model's own counters stay. -/
def State.restarted (s : State) : State :=
  { State.reset with
    cores := (s.cores.filter (fun c => c.2.failed)).map (fun c => (c.1, c.2.restarted)), spares := s.spares,
    mem := s.mem.filter (fun c => decide (c.1 < 2 ^ 52)), bad := s.bad.filter (fun w => decide (w < 2 ^ 52)),
    rollback := s.rollback, agenda := s.agenda, here := s.here, slot := s.slot, steps := s.steps, free := s.free }

/-- A spare core of its die mapped into the position of a core that is out of service, while the die has one (R1, R396): the core
stands at reset. The manual says that firmware may; that it does, for every such core in rising position, is the model's choice
(log 62). -/
def State.mapSpare (s : State) (p : Nat) : State :=
  let n := tgetD 0 s.spares (dieOf p)
  if n < 4 then { s with cores := terase s.cores p, spares := tset s.spares (dieOf p) (n + 1) } else s

/-- The cores that are out of service. -/
def State.deadCores (s : State) : List Nat := (s.cores.filter (fun c => c.2.dead)).map Prod.fst

/-- BOOT: the boot ROM checks the firmware image; a failure keeps the fabric in reset and is written to BOOTST (R400). -/
def execBoot (image : FirmwareImage) (s : State) : Answer :=
  let z := s.restarted
  let st := imageStatus s.rollback image
  if st ≠ 0 then .next (({ z with bootst := st } : State).irq 3 0 0)
  else
    let parts := (List.range 32).map (fun q => (q, { Part.reset with version := image.version, digest := imageDigest image }))
    let z1 := z.deadCores.foldl State.mapSpare z
    .next (({ z1 with booted := true, bootst := 0, fwDigest := imageDigest image, parts := parts } : State).irq 3 0 0)

/-- FIRMWARE_UPDATE: an update checked as the boot image is, and staged for every partition; its status announced (R397,
R399, R400). -/
def execFirmwareUpdate (image : FirmwareImage) (s : State) : Answer :=
  let st := imageStatus s.rollback image
  let s1 : State := if st ≠ 0 then s
    else (List.range 32).foldl (fun (z : State) q => z.modPart q (fun pt => { pt with staged := some (image.version, imageDigest image) })) s
  .next (({ s1 with bootst := st } : State).irq 3 0 0)

/-! ### Attestation (R401) -/

/-- The identities resident in a partition's regions, by rising position of their north-west cores (R401). -/
def State.residentIdents (s : State) (part : Nat) : List (BitVec 256) :=
  let l := (s.regions.filter (fun g => g.2.part == part && g.2.configured)).map (fun g => (g.2.row * Config.gridCols + g.2.col, g.2.ident))
  (sortOn Prod.fst l).map Prod.snd

/-- The report up to its signature (R401). -/
def State.reportBody (s : State) (nonce : BitVec 256) (part : Nat) : List Byte :=
  let ids := s.residentIdents part
  let fw := if (s.partAt part).digest = 0 then s.fwDigest else (s.partAt part).digest
  bytesOfNat 0x54415451 8 ++ bytesOfNat nonce.toNat 32 ++ bytesOfNat fw.toNat 32 ++ bytesOfNat part 4 ++ bytesOfNat ids.length 4 ++
  ids.flatMap (fun d => bytesOfNat d.toNat 32)

/-- ATTESTATION_REQUEST: a nonce and a partition in the mailbox give a signed report (R401). -/
def execAttestationRequest (nonce : BitVec 256) (part : Nat) (s : State) : Answer :=
  let body := s.reportBody nonce part
  .next (if s.booted then ({ s with mailbox := body ++ attestSignature s.free (sha256 body) } : State).draw else s)

end Sys2Proof.Machine
end

