-- ==== Sys2Proof/Machine/LinkNodes.lean ====
section
/-!
DEFINITION. The link endpoints LTX and LRX (R367, R368, R380) and the combining nodes RED2, SREQ and STATW (R370–R373, R384,
R385).
-/

namespace Sys2Proof.Machine

/-! ### Endpoints -/

/-- LTX's instant: the present bursts as frames, once the port takes them; dropped where it is not up (R367, R380). -/
def ltxReact (s : State) (n : Node) (i : Ins) : Option (State × React) :=
  let ins := if n.rcd.var.getLsbD 0 then [i.a, i.b] else [i.a]
  match absGate n.rcd.abs.toNat ins [] with
  | .quiet => some (s, quietReact n)
  | .drop k => some (s, onX (n.drop k) none)
  | .mismatch => some (s, failed n 0x20 (maxLevel (presentOf ins)))
  | .go l =>
    let q := s.portAt n.port
    let bs := presentOf l
    if !q.up then some (s, onX (n.drop bs.length) none)
    else
      let frames := q.framesOf n.vc bs
      if q.takes n.vc frames then
        some (s.modPort n.port (fun q => frames.foldl (fun z f => z.handFrame n.vc f) q), onX n none)
      else none

/-- LTX (R367). -/
def execLtx (r : NodeRec) (s : State) : Answer := .next (s.fireWith 0x90 r false ltxReact)

/-- The port-down token of an LRX, on Y too under `.S` (R380). -/
def lrxDown (n : Node) : React :=
  let t := errToken 0x44 0 7
  { onXY { n with exh := true } (some t) (if n.rcd.var.getLsbD 0 then some t else none) with route := none }

/-- Frames that one instant of an LRX takes: two under `.S`, and what is left of those delivered before its port went down
(R368, R380; log 46). -/
def Node.framesDue (n : Node) : Nat :=
  let k := if n.rcd.var.getLsbD 0 then 2 else 1
  match n.down with
  | some d => min k d
  | none => k

/-- LRX's instant: the oldest frame out, its slot released (R368, R377); the port-down token once the frames delivered before
are out (R380); nothing once it is exhausted. -/
def lrxReact (s : State) (n : Node) (_ : Ins) : Option (State × React) :=
  let q := s.portAt n.port
  let l := vget [] q.slots n.vc
  let k := n.framesDue
  if n.exh then some (s, quietReact n)
  else if k = 0 then some (s, lrxDown n)
  else if l.length < k then none
  else
    let x := l.headD (emptyFibre 0 0)
    let bursts := (n.rcd.k1.extractLsb' 0 16).toNat
    let m := { n with
      emitted := n.emitted + 1, down := n.down.map (· - k),
      exh := if bursts = 0 then hdrLevel x.hdr == 7 else decide (bursts ≤ n.emitted + 1) }
    let s1 := s.modPort n.port (fun q =>
      let q1 := { q with slots := vmod q.slots n.vc (fun t => t.drop k) }
      if chanBit q.en n.vc then q1.release n.vc k else q1)
    some (s1, onXY m (some x) (if k = 2 then l[1]? else none))

/-- LRX (R368). -/
def execLrx (r : NodeRec) (s : State) : Answer := .next (s.fireWith 0x91 r true lrxReact)

/-! ### RED2 (R371) -/

/-- The payloads that an operand of RED2 brings to an atom. -/
def red2Pay (f : AtomFmt) (lo both : Nat) (leaf : Bool) (bits : Nat) : List Nat :=
  match atomVal f bits with
  | .nan p bad => if bad then [both] else [if leaf then min p lo else p]
  | .val _ _ _ => []

/-- The lanes of one atom of RED2: NaN lanes of the least payload, or exact sums (R371). -/
def red2Atom (n : Node) (f : AtomFmt) (ba bb : Int) (x y : Nat) : List Lane × Flg :=
  let la := (n.rcd.k0.extractLsb' 0 16).toNat
  let lb := (n.rcd.k0.extractLsb' 16 16).toNat
  let pay := red2Pay f la (min la lb) (n.rcd.var.getLsbD 0) x ++ red2Pay f lb (min la lb) (n.rcd.var.getLsbD 1) y
  let nv := atomBad (atomVal f x) || atomBad (atomVal f y)
  match pay with
  | p :: t => (List.replicate f.l (.nan (BitVec.ofNat 16 (t.foldl min p))), { nv := nv, nf := true })
  | [] =>
    (List.zipWith (fun u v => laLane [xDy u, xDy v]) (atomLanes f ba (atomVal f x)) (atomLanes f bb (atomVal f y)), {})

/-- RED2's instant (R371, R384). -/
def red2React (n : Node) (i : Ins) : React :=
  let ins := [i.a, i.b]
  let level := outLevel false (presentOf ins)
  syncReact n ins level 0x20 (fun m l =>
    match l with
    | [some a, some b] =>
      let f := atomFmtD m.rcd.fmt.toNat
      let xs := atomsIn f a
      if isEmpty a || isEmpty b || a.beats.length ≠ b.beats.length || xs.length * f.l ≠ 4 * blenOf m.rcd then failed m 0x21 level
      else
        let out := List.zipWith (red2Atom m f (hdrBeta a.hdr) (hdrBeta b.hdr)) xs (atomsIn f b)
        m.emits (orFlgs (out.map Prod.snd)) (dataBurst level 0 (beatsOfLanes 16 (out.flatMap (fun o => o.1.map laneBits))))
    | _ => quietReact m)

/-- RED2 (R371). -/
def execRed2 (r : NodeRec) (s : State) : Answer := .next (s.firePure 0x93 r red2React)

/-! ### SREQ (R372) -/

/-- A status beat (R370). -/
def statusBurst (st level : Nat) : Burst := tokBurst [st % 2 ^ 32] level

/-- The OR of the status inputs: token 0 of each burst of data, ERR for an error token (R370, R372, R373). -/
def statusOr (l : List Status) : Nat :=
  (presentOf l).foldl (fun st b => st ||| (if isErr b then 32 else if isData b then (tokAt b 0).toNat else 0)) 0

/-- The collective key of SREQ (R37, R372). -/
def sreqKey (r : NodeRec) : BitVec 64 :=
  seedOf r ^^^ ((r.k0.zeroExtend 64 &&& 0xFFFF) <<< 48) ^^^ (r.k1.zeroExtend 64 <<< 16)

/-- One atom of SREQ: the least NaN payload, or the group rounded once with the collective counter (R372, R385). -/
def sreqAtom (n : Node) (f : AtomFmt) (m : Nat) (g : List Acc) : Nat × Flg :=
  let cs := g ++ List.replicate (f.l - g.length) Acc.zero
  match cs.filter (fun c => c.nan) with
  | c :: t =>
    let p := t.foldl (fun m x => min m x.pay.toNat) c.pay.toNat
    (nanAtom f (if f.g16 then p else min p 0xFC), { nf := true })
  | [] =>
    let ctr := (n.rcd.k0.extractLsb' 16 16).toNat * f.perBeat + (n.reg 2).toNat * (blenOf n.rcd * f.perBeat) + m
    laRoundAtom f 0 2 (rnd16 (sreqKey n.rcd) (BitVec.ofNat 64 ctr)) cs

/-- SREQ's instant (R372, R384): A requantised beside the status of what it merges; A's error token goes before the kinds of
the others (R73). -/
def sreqReact (n : Node) (i : Ins) : React :=
  let sts := (if n.rcd.var.getLsbD 0 then [i.b] else []) ++ (if n.rcd.var.getLsbD 1 then [i.c] else [])
  let ins := i.a :: sts
  let level := outLevel false (presentOf ins)
  let st := statusOr sts
  let aErr := match i.a with
    | some a => isErr a
    | none => false
  if !aErr && (presentOf ins).any (fun b => !isErr b && !isData b) then both n (some (errToken 0x22 0 level))
  else match i.a with
    | some a =>
      if isErr a then onXY n (some (passToken a level)) (some (statusBurst (st ||| 32) 0))
      else match absGate n.rcd.abs.toNat ins [] with
        | .quiet => quietReact n
        | .drop k => onX (n.drop k) none
        | .mismatch => failed n 0x20 level
        | .go _ =>
          if isEmpty a then onXY (n.setReg 2 (n.reg 2 - 1)) (some (emptyFibre level 0)) (some (statusBurst st 0))
          else
            let f := atomFmtD n.rcd.fmt.toNat
            let lanes := (lanesOfBeats 16 a.beats).map (fun b => accOfLane (laneOf b))
            let groups := chunk f.l lanes
            let per := blenOf n.rcd * f.perBeat
            if (lanes.length + f.l * f.perBeat - 1) / (f.l * f.perBeat) ≠ blenOf n.rcd then failed n 0x21 level
            else
              let out := (groups ++ List.replicate (per - groups.length) []).zipIdx.map (fun (x : List Acc × Nat) => sreqAtom n f x.2 x.1)
              let fl := orFlgs (out.map Prod.snd)
              onXY (n.flag fl) (some (dataBurst level 0 (beatsOfLanes f.w (out.map Prod.fst)))) (some (statusBurst (st ||| flgBits fl) 0))
    | none => match absGate n.rcd.abs.toNat ins [] with
      | .quiet => quietReact n
      | .drop k => onX (n.drop k) none
      | _ => failed n 0x20 level

/-- SREQ (R372). -/
def execSreq (r : NodeRec) (s : State) : Answer := .next (s.firePure 0x92 r sreqReact)

/-! ### STATW (R373) -/

/-- Whether bursts are of one length (R74, R127). -/
def sameLength : List Burst → Bool
  | [] => true
  | b :: t => t.all (fun c => c.beats.length == b.beats.length)

/-- STATW's instant: the status beats of the named inputs merged (R373, R384). -/
def statwReact (n : Node) (i : Ins) : React :=
  let pick := fun (k : Nat) (x : Status) => if n.rcd.k0.getLsbD k then [x] else []
  let ins := pick 0 i.a ++ pick 1 i.b ++ pick 2 i.c
  let pres := presentOf ins
  let level := maxLevel pres
  if pres.any (fun b => !isErr b && !isData b) then both n (some (errToken 0x22 0 level))
  else match absGate n.rcd.abs.toNat ins [] with
    | .quiet => quietReact n
    | .drop k => onX (n.drop k) none
    | .mismatch => failed n 0x20 level
    | .go _ =>
      if pres.any isEmpty || !sameLength (pres.filter isData) then failed n 0x21 level
      else both n (some (statusBurst (statusOr ins) level))

/-- STATW (R373). -/
def execStatw (r : NodeRec) (s : State) : Answer := .next (s.firePure 0x94 r statwReact)

end Sys2Proof.Machine
end

