-- ==== Sys2Proof/Machine/Dispatch.lean ====
section
/-!
DEFINITION. One arm per constructor of Instr: the call of its meaning.
-/

namespace Sys2Proof.Machine

def exec (i : Instr) (s : State) : Host.Outcome State Fault Refusal :=
  match i with
  | .add d a b => Sys2Proof.Machine.execAdd d a b s
  | .sub d a b => Sys2Proof.Machine.execSub d a b s
  | .and d a b => Sys2Proof.Machine.execAnd d a b s
  | .or d a b => Sys2Proof.Machine.execOr d a b s
  | .xor d a b => Sys2Proof.Machine.execXor d a b s
  | .sll d a b => Sys2Proof.Machine.execSll d a b s
  | .srl d a b => Sys2Proof.Machine.execSrl d a b s
  | .sra d a b => Sys2Proof.Machine.execSra d a b s
  | .slt d a b => Sys2Proof.Machine.execSlt d a b s
  | .sltu d a b => Sys2Proof.Machine.execSltu d a b s
  | .mul d a b => Sys2Proof.Machine.execMul d a b s
  | .mulh d a b => Sys2Proof.Machine.execMulh d a b s
  | .mulhu d a b => Sys2Proof.Machine.execMulhu d a b s
  | .div d a b => Sys2Proof.Machine.execDiv d a b s
  | .divu d a b => Sys2Proof.Machine.execDivu d a b s
  | .rem d a b => Sys2Proof.Machine.execRem d a b s
  | .remu d a b => Sys2Proof.Machine.execRemu d a b s
  | .min d a b => Sys2Proof.Machine.execMin d a b s
  | .max d a b => Sys2Proof.Machine.execMax d a b s
  | .minu d a b => Sys2Proof.Machine.execMinu d a b s
  | .maxu d a b => Sys2Proof.Machine.execMaxu d a b s
  | .clz d a => Sys2Proof.Machine.execClz d a s
  | .ctz d a => Sys2Proof.Machine.execCtz d a s
  | .popc d a => Sys2Proof.Machine.execPopc d a s
  | .addi d a imm => Sys2Proof.Machine.execAddi d a imm s
  | .andi d a imm => Sys2Proof.Machine.execAndi d a imm s
  | .ori d a imm => Sys2Proof.Machine.execOri d a imm s
  | .xori d a imm => Sys2Proof.Machine.execXori d a imm s
  | .slti d a imm => Sys2Proof.Machine.execSlti d a imm s
  | .sltiu d a imm => Sys2Proof.Machine.execSltiu d a imm s
  | .slli d a sh => Sys2Proof.Machine.execSlli d a sh s
  | .srli d a sh => Sys2Proof.Machine.execSrli d a sh s
  | .srai d a sh => Sys2Proof.Machine.execSrai d a sh s
  | .lui d imm => Sys2Proof.Machine.execLui d imm s
  | .luih d imm => Sys2Proof.Machine.execLuih d imm s
  | .beq a b off => Sys2Proof.Machine.execBeq a b off s
  | .bne a b off => Sys2Proof.Machine.execBne a b off s
  | .blt a b off => Sys2Proof.Machine.execBlt a b off s
  | .bge a b off => Sys2Proof.Machine.execBge a b off s
  | .bltu a b off => Sys2Proof.Machine.execBltu a b off s
  | .bgeu a b off => Sys2Proof.Machine.execBgeu a b off s
  | .jal off => Sys2Proof.Machine.execJal off s
  | .jalr d a imm => Sys2Proof.Machine.execJalr d a imm s
  | .ldb d a imm => Sys2Proof.Machine.execLdb d a imm s
  | .ldbu d a imm => Sys2Proof.Machine.execLdbu d a imm s
  | .ldh d a imm => Sys2Proof.Machine.execLdh d a imm s
  | .ldhu d a imm => Sys2Proof.Machine.execLdhu d a imm s
  | .ldw d a imm => Sys2Proof.Machine.execLdw d a imm s
  | .ldwu d a imm => Sys2Proof.Machine.execLdwu d a imm s
  | .ldd d a imm => Sys2Proof.Machine.execLdd d a imm s
  | .stb r a imm => Sys2Proof.Machine.execStb r a imm s
  | .sth r a imm => Sys2Proof.Machine.execSth r a imm s
  | .stw r a imm => Sys2Proof.Machine.execStw r a imm s
  | .std r a imm => Sys2Proof.Machine.execStd r a imm s
  | .amoadd d a b scope narrow => Sys2Proof.Machine.execAmoadd d a b scope narrow s
  | .amoswap d a b scope narrow => Sys2Proof.Machine.execAmoswap d a b scope narrow s
  | .amocas d a b scope narrow => Sys2Proof.Machine.execAmocas d a b scope narrow s
  | .amomin d a b scope narrow => Sys2Proof.Machine.execAmomin d a b scope narrow s
  | .amomax d a b scope narrow => Sys2Proof.Machine.execAmomax d a b scope narrow s
  | .amominu d a b scope narrow => Sys2Proof.Machine.execAmominu d a b scope narrow s
  | .amomaxu d a b scope narrow => Sys2Proof.Machine.execAmomaxu d a b scope narrow s
  | .amoand d a b scope narrow => Sys2Proof.Machine.execAmoand d a b scope narrow s
  | .amoor d a b scope narrow => Sys2Proof.Machine.execAmoor d a b scope narrow s
  | .amoxor d a b scope narrow => Sys2Proof.Machine.execAmoxor d a b scope narrow s
  | .fence scope => Sys2Proof.Machine.execFence scope s
  | .cmdw c a b => Sys2Proof.Machine.execCmdw c a b s
  | .cmdld c a imm => Sys2Proof.Machine.execCmdld c a imm s
  | .cmdi c target => Sys2Proof.Machine.execCmdi c target s
  | .cmdq d a c => Sys2Proof.Machine.execCmdq d a c s
  | .tsend a b box => Sys2Proof.Machine.execTsend a b box s
  | .trecv d a box => Sys2Proof.Machine.execTrecv d a box s
  | .iwait d a dom => Sys2Proof.Machine.execIwait d a dom s
  | .bari a k => Sys2Proof.Machine.execBari a k s
  | .bara a k => Sys2Proof.Machine.execBara a k s
  | .barw d a k => Sys2Proof.Machine.execBarw d a k s
  | .baraw d a k => Sys2Proof.Machine.execBaraw d a k s
  | .sig d a b => Sys2Proof.Machine.execSig d a b s
  | .spawn d a => Sys2Proof.Machine.execSpawn d a s
  | .join d a => Sys2Proof.Machine.execJoin d a s
  | .csrr d csr => Sys2Proof.Machine.execCsrr d csr s
  | .csrw a csr => Sys2Proof.Machine.execCsrw a csr s
  | .csrs a csr => Sys2Proof.Machine.execCsrs a csr s
  | .csrc a csr => Sys2Proof.Machine.execCsrc a csr s
  | .trap code => Sys2Proof.Machine.execTrap code s
  | .tret => Sys2Proof.Machine.execTret s
  | .yield => Sys2Proof.Machine.execYield s
  | .synci => Sys2Proof.Machine.execSynci s
  | .brk code => Sys2Proof.Machine.execBrk code s
  | .watchdog core => Sys2Proof.Machine.execWatchdog core s
  | .hostServiceAnswer core answer => Sys2Proof.Machine.execHostServiceAnswer core answer s
  | .feed c => Sys2Proof.Machine.execFeed c s
  | .bindw c => Sys2Proof.Machine.execBindw c s
  | .bound c => Sys2Proof.Machine.execBound c s
  | .steert c => Sys2Proof.Machine.execSteert c s
  | .inject c => Sys2Proof.Machine.execInject c s
  | .retry c => Sys2Proof.Machine.execRetry c s
  | .tarm c => Sys2Proof.Machine.execTarm c s
  | .tfire c => Sys2Proof.Machine.execTfire c s
  | .tdisarm c => Sys2Proof.Machine.execTdisarm c s
  | .copy c => Sys2Proof.Machine.execCopy c s
  | .lxrun c => Sys2Proof.Machine.execLxrun c s
  | .cfgld c => Sys2Proof.Machine.execCfgld c s
  | .cfgq c => Sys2Proof.Machine.execCfgq c s
  | .domgo c => Sys2Proof.Machine.execDomgo c s
  | .domstop c => Sys2Proof.Machine.execDomstop c s
  | .domsave c => Sys2Proof.Machine.execDomsave c s
  | .domload c => Sys2Proof.Machine.execDomload c s
  | .wheeldef c => Sys2Proof.Machine.execWheeldef c s
  | .hubrd c => Sys2Proof.Machine.execHubrd c s
  | .amxr c => Sys2Proof.Machine.execAmxr c s
  | .ckpt c => Sys2Proof.Machine.execCkpt c s
  | .ckdrain c => Sys2Proof.Machine.execCkdrain c s
  | .bkey c => Sys2Proof.Machine.execBkey c s
  | .linkcfg c => Sys2Proof.Machine.execLinkcfg c s
  | .linkstat c => Sys2Proof.Machine.execLinkstat c s
  | .domainInstantEnd region dom => Sys2Proof.Machine.execDomainInstantEnd region dom s
  | .remoteStatusReceive core endpoint parityLost => Sys2Proof.Machine.execRemoteStatusReceive core endpoint parityLost s
  | .quiescenceSample region => Sys2Proof.Machine.execQuiescenceSample region s
  | .pathClockGate core tile => Sys2Proof.Machine.execPathClockGate core tile s
  | .bankKeyMove core bank => Sys2Proof.Machine.execBankKeyMove core bank s
  | .pass r => Sys2Proof.Machine.execPass r s
  | .src r => Sys2Proof.Machine.execSrc r s
  | .sink r => Sys2Proof.Machine.execSink r s
  | .esink r => Sys2Proof.Machine.execEsink r s
  | .cpyt r => Sys2Proof.Machine.execCpyt r s
  | .ltx r => Sys2Proof.Machine.execLtx r s
  | .lrx r => Sys2Proof.Machine.execLrx r s
  | .sreq r => Sys2Proof.Machine.execSreq r s
  | .red2 r => Sys2Proof.Machine.execRed2 r s
  | .statw r => Sys2Proof.Machine.execStatw r s
  | .aadd r => Sys2Proof.Machine.execAadd r s
  | .asub r => Sys2Proof.Machine.execAsub r s
  | .ahad r => Sys2Proof.Machine.execAhad r s
  | .amax r => Sys2Proof.Machine.execAmax r s
  | .amin r => Sys2Proof.Machine.execAmin r s
  | .asel r => Sys2Proof.Machine.execAsel r s
  | .afma r => Sys2Proof.Machine.execAfma r s
  | .aneg r => Sys2Proof.Machine.execAneg r s
  | .aabs r => Sys2Proof.Machine.execAabs r s
  | .arelu r => Sys2Proof.Machine.execArelu r s
  | .ascl r => Sys2Proof.Machine.execAscl r s
  | .amask r => Sys2Proof.Machine.execAmask r s
  | .aclmp r => Sys2Proof.Machine.execAclmp r s
  | .aren r => Sys2Proof.Machine.execAren r s
  | .aexp2 r => Sys2Proof.Machine.execAexp2 r s
  | .alog2 r => Sys2Proof.Machine.execAlog2 r s
  | .arcp r => Sys2Proof.Machine.execArcp r s
  | .arsq r => Sys2Proof.Machine.execArsq r s
  | .asqrt r => Sys2Proof.Machine.execAsqrt r s
  | .atanh r => Sys2Proof.Machine.execAtanh r s
  | .asigm r => Sys2Proof.Machine.execAsigm r s
  | .adotW r => Sys2Proof.Machine.execAdotW r s
  | .adotP r => Sys2Proof.Machine.execAdotP r s
  | .adott r => Sys2Proof.Machine.execAdott r s
  | .aoutr r => Sys2Proof.Machine.execAoutr r s
  | .anrm r => Sys2Proof.Machine.execAnrm r s
  | .alsum r => Sys2Proof.Machine.execAlsum r s
  | .amaxr r => Sys2Proof.Machine.execAmaxr r s
  | .enc r => Sys2Proof.Machine.execEnc r s
  | .dec r => Sys2Proof.Machine.execDec r s
  | .acc r => Sys2Proof.Machine.execAcc r s
  | .accF r => Sys2Proof.Machine.execAccF r s
  | .acck r => Sys2Proof.Machine.execAcck r s
  | .drain r => Sys2Proof.Machine.execDrain r s
  | .dlyb r => Sys2Proof.Machine.execDlyb r s
  | .conv r => Sys2Proof.Machine.execConv r s
  | .mrd r => Sys2Proof.Machine.execMrd r s
  | .mwr r => Sys2Proof.Machine.execMwr r s
  | .mird r => Sys2Proof.Machine.execMird r s
  | .miwr r => Sys2Proof.Machine.execMiwr r s
  | .mrmw r => Sys2Proof.Machine.execMrmw r s
  | .mgrp r => Sys2Proof.Machine.execMgrp r s
  | .mgld r => Sys2Proof.Machine.execMgld r s
  | .mgst r => Sys2Proof.Machine.execMgst r s
  | .mfifo r => Sys2Proof.Machine.execMfifo r s
  | .mline r => Sys2Proof.Machine.execMline r s
  | .steer r => Sys2Proof.Machine.execSteer r s
  | .omerge r => Sys2Proof.Machine.execOmerge r s
  | .pmerge r => Sys2Proof.Machine.execPmerge r s
  | .filter r => Sys2Proof.Machine.execFilter r s
  | .repl r => Sys2Proof.Machine.execRepl r s
  | .cnt r => Sys2Proof.Machine.execCnt r s
  | .isect r => Sys2Proof.Machine.execIsect r s
  | .union r => Sys2Proof.Machine.execUnion r s
  | .pres r => Sys2Proof.Machine.execPres r s
  | .dflt r => Sys2Proof.Machine.execDflt r s
  | .pre r => Sys2Proof.Machine.execPre r s
  | .when r => Sys2Proof.Machine.execWhen r s
  | .sync r => Sys2Proof.Machine.execSync r s
  | .level r => Sys2Proof.Machine.execLevel r s
  | .iadd r => Sys2Proof.Machine.execIadd r s
  | .isub r => Sys2Proof.Machine.execIsub r s
  | .imul r => Sys2Proof.Machine.execImul r s
  | .ilog r => Sys2Proof.Machine.execIlog r s
  | .ishf r => Sys2Proof.Machine.execIshf r s
  | .icmp r => Sys2Proof.Machine.execIcmp r s
  | .irng r => Sys2Proof.Machine.execIrng r s
  | .ihash r => Sys2Proof.Machine.execIhash r s
  | .plog r => Sys2Proof.Machine.execPlog r s
  | .copyStart core => Sys2Proof.Machine.execCopyStart core s
  | .copyComplete core => Sys2Proof.Machine.execCopyComplete core s
  | .endOfTileDelivery core => Sys2Proof.Machine.execEndOfTileDelivery core s
  | .pageWalkComplete die part page => Sys2Proof.Machine.execPageWalkComplete die part page s
  | .tlbInvalidation part => Sys2Proof.Machine.execTlbInvalidation part s
  | .checkpointDrainComplete part slot => Sys2Proof.Machine.execCheckpointDrainComplete part slot s
  | .hubRead core => Sys2Proof.Machine.execHubRead core s
  | .barrierArrival src home k => Sys2Proof.Machine.execBarrierArrival src home k s
  | .signalArrival src => Sys2Proof.Machine.execSignalArrival src s
  | .queueRecordWrite q whole record => Sys2Proof.Machine.execQueueRecordWrite q whole record s
  | .qkill q handle => Sys2Proof.Machine.execQkill q handle s
  | .qerrClear q ones => Sys2Proof.Machine.execQerrClear q ones s
  | .hostEventWrite part word value => Sys2Proof.Machine.execHostEventWrite part word value s
  | .taskStart => Sys2Proof.Machine.execTaskStart s
  | .completionEventPost task => Sys2Proof.Machine.execCompletionEventPost task s
  | .preempt team => Sys2Proof.Machine.execPreempt team s
  | .deepSaveTimeout team => Sys2Proof.Machine.execDeepSaveTimeout team s
  | .resume team => Sys2Proof.Machine.execResume team s
  | .taggedBankEvict core bank => Sys2Proof.Machine.execTaggedBankEvict core bank s
  | .correctedError site => Sys2Proof.Machine.execCorrectedError site s
  | .errorWindowEnd => Sys2Proof.Machine.execErrorWindowEnd s
  | .bankRetire core bank => Sys2Proof.Machine.execBankRetire core bank s
  | .coreFailed core => Sys2Proof.Machine.execCoreFailed core s
  | .dataFlitReceive port flit damaged => Sys2Proof.Machine.execDataFlitReceive port flit damaged s
  | .ackReceive port flit => Sys2Proof.Machine.execAckReceive port flit s
  | .replayRequestReceive port flit => Sys2Proof.Machine.execReplayRequestReceive port flit s
  | .creditReceive port flit => Sys2Proof.Machine.execCreditReceive port flit s
  | .portDown port => Sys2Proof.Machine.execPortDown port s
  | .portRetrain port => Sys2Proof.Machine.execPortRetrain port s
  | .partitionReset part => Sys2Proof.Machine.execPartitionReset part s
  | .resetDoneClear part => Sys2Proof.Machine.execResetDoneClear part s
  | .coreRepairTest core passed => Sys2Proof.Machine.execCoreRepairTest core passed s
  | .retag what => Sys2Proof.Machine.execRetag what s
  | .registerWrite offset value privileged => Sys2Proof.Machine.execRegisterWrite offset value privileged s
  | .boundaryDrop core route => Sys2Proof.Machine.execBoundaryDrop core route s
  | .firmwareSwitch part => Sys2Proof.Machine.execFirmwareSwitch part s
  | .boot image => Sys2Proof.Machine.execBoot image s
  | .attestationRequest nonce part => Sys2Proof.Machine.execAttestationRequest nonce part s
  | .powerStateRequest core state => Sys2Proof.Machine.execPowerStateRequest core state s
  | .powerRefusalClear core => Sys2Proof.Machine.execPowerRefusalClear core s
  | .clockStepChange clk => Sys2Proof.Machine.execClockStepChange clk s
  | .selfRefreshEnter => Sys2Proof.Machine.execSelfRefreshEnter s
  | .selfRefreshExit => Sys2Proof.Machine.execSelfRefreshExit s
  | .illegalInstruction word => Sys2Proof.Machine.execIllegalInstruction word s
  | .instructionFetchFault translation => Sys2Proof.Machine.execInstructionFetchFault translation s
  | .unassignedCommandCode code c => Sys2Proof.Machine.execUnassignedCommandCode code c s
  | .firmwareUpdate image => Sys2Proof.Machine.execFirmwareUpdate image s
  | .systemSoftwarePageAnswer core answer => Sys2Proof.Machine.execSystemSoftwarePageAnswer core answer s
  | .unknownFlitTypeReceive port flit => Sys2Proof.Machine.execUnknownFlitTypeReceive port flit s

end Sys2Proof.Machine
end

