-- ==== Sys2Proof/Machine/Pieces.lean ====
section
/-!
DEFINITION. Pieces of bursts and copies (R333): a memory node that performs the next beats of its instant, or a copy engine the next
beats of its copy, and the rest in a later turn, so that another agent may come between (log 80).
-/

namespace Sys2Proof.Machine

/-- The inputs of a strict node that could fire in this turn (R120): every input resolved, room on every output. -/
def State.firing (s : State) (p id : Nat) (n : Node) : Option Ins :=
  let a := s.input p id n 0
  let b := s.input p id n 1
  let c := s.input p id n 2
  if !s.mayFire p n || n.broken || !(a.known && b.known && c.known && (s.input p id n 3).known) || !s.outRoom2 p n then none
  else some { a := a.get, b := b.get, c := c.get }

/-- The selection that MIWR or MRMW writes in an instant, with its burst (R186). -/
def Node.selectedRun (n : Node) (i : Ins) : Option (List Nat × Burst) :=
  match absGate n.rcd.abs.toNat [i.a, i.c] [] with
  | .go [some a, some c] =>
    if hdrKind a.hdr ≠ 0 ∨ hdrKind c.hdr ≠ 0 then none
    else match n.select c with
      | .ok offs => if a.beats.length * 64 < offs.length * portWidth n.rcd.fmt.toNat then none else some (offs, a)
      | .error _ => none
  | _ => none

/-- The offsets that a tile port reads in an instant, in order (R104, R183). -/
def Node.reads (n : Node) (i : Ins) : Option (List Nat) :=
  match n.op with
  | 0x80 => if n.bound then some (n.walk (min (perBurst n.rcd) (n.pattern.total - n.pos))) else none
  | 0x82 => match i.a with
    | some a =>
      if hdrKind a.hdr ≠ 0 then none
      else match n.select a with
        | .ok offs => if 64 * blenOf n.rcd < offs.length * portWidth n.rcd.fmt.toNat then none else some offs
        | .error _ => none
    | none => none
  | _ => none

/-- The offsets that MWR or MIWR writes in an instant, in order, with the burst (R184, R186). -/
def Node.writes (n : Node) (i : Ins) : Option (List Nat × Burst) :=
  match n.op with
  | 0x81 => match i.a with
    | some b =>
      if hdrKind b.hdr = 0 && n.bound then
        some (n.walk (min (b.beats.length * 64 / portWidth n.rcd.fmt.toNat) (n.pattern.total - n.pos)), b)
      else none
    | none => none
  | 0x83 => n.selectedRun i
  | _ => none

/-- Whether a tile port may access offsets (R179, R331), `most` of them and not the last beat, which the instant's end performs. -/
def State.mayPiece (s : State) (p id : Nat) (n : Node) (offs : List Nat) (most : Nat) : Bool :=
  decide (n.prog + most < offs.length) && s.keysHeld p id (banksOf offs) && s.tileTurn p id n (spansOf (portWidth n.rcd.fmt.toNat) offs)

/-- The next `most` elements of a tile port's burst performed, where they may be: read and held, written, or combined. A beat with an
uncorrectable word is left to the end of the instant. -/
def State.tilePiece (s : State) (p id : Nat) (n : Node) (i : Ins) (most : Nat) : State :=
  let w := portWidth n.rcd.fmt.toNat
  let m := { n with prog := n.prog + most }
  match n.reads i, n.writes i, (if n.op = 0x84 then n.selectedRun i else none) with
  | some offs, _, _ =>
    let run := (offs.drop n.prog).take most
    if !s.mayPiece p id n offs most || (s.badElem p w run).isSome then s
    else
      let z := s.touchAll p run
      z.setNode p id { m with part := n.part ++ (z.readElems p w run).map BitVec.toNat }
  | _, some (offs, b), _ =>
    let run := (offs.drop n.prog).take most
    if !s.mayPiece p id n offs most then s
    else ((s.touchAll p run).writeElems p w run ((bytesOfBurst b).drop (w * n.prog))).setNode p id m
  | _, _, some (offs, a) =>
    if !s.mayPiece p id n offs most then s
    else
      let z := mrmwRun (s.touchAll p offs) n offs a most
      z.s.setNode p id { z.node with prog := n.prog + most, part := z.count :: z.beats }
  | _, _, _ => s

/-- The next `most` elements of a global port's burst performed, as far as they go (R185, R290), to the end of a beat and not into the
last one (R333). -/
def State.globalPiece (s : State) (p id : Nat) (n : Node) (i : Ins) (most : Nat) : State :=
  let w := portWidth n.rcd.fmt.toNat
  let left := n.pattern.total - (n.pos - n.prog)
  let go := fun (write : Bool) (bytes : List Byte) (all : Nat) =>
    let per := 64 / w
    let z := (List.range (min ((n.prog + most) / per * per) ((all - 1) / per * per))).foldl (globalElem write w bytes) { s := s, node := n, stuck := false }
    z.s.setNode p id z.node
  if !n.bound then s
  else if n.op = 0x86 then go false [] (min (perBurst n.rcd) left)
  else match i.a with
    | some b => if hdrKind b.hdr = 0 then go true (bytesOfBurst b) (min (b.beats.length * 64 / w) left) else s
    | none => s

/-- The next `count` beats of the instant of a memory node performed, or of the copy that a copy engine moves or begins. -/
def State.piece (s : State) (count : Nat) : State :=
  let p := s.here
  let id := s.slot
  if id = whoCopy then
    if (s.coreAt p).failed || (s.coreAt p).ce.hold.isSome then s
    else (if s.copiesRun p then s.modCe p CopyEng.next else s).copySome p count
  else match (s.coreAt p).node id with
    | none => s
    | some n => match s.firing p id n with
      | none => s
      | some i =>
        let most := count * (64 / portWidth n.rcd.fmt.toNat)
        if n.op = 0x86 ∨ n.op = 0x87 then s.globalPiece p id n i most
        else s.tilePiece p id n i most

end Sys2Proof.Machine
end

