-- ==== Sys2Proof/Machine/Rounds.lean ====
section
/-!
DEFINITION. Whose turn it is and what it does: the instruction a controller fetches (R205, R208, R213, R239), the command at
the head of a unit (R109, R244), a node's opcode (R48, R61); and the turns of a round while nothing else is on the agenda.
-/

namespace Sys2Proof.Machine

/-- What a turn comes to: an instruction run on a state, or a state with nothing to run. -/
inductive Todo where
  | run (i : Instr) (s : State)
  | rest (s : State)
  deriving DecidableEq, Repr

/-- The instruction that a fetched word stands for; a word that is none is an illegal instruction (R213). -/
def instrOf (w : BitVec 32) : Instr :=
  match decodeWord w with
  | .ok i => i
  | .error _ => .illegalInstruction w

/-- A controller's turn: an outstanding wait looked at (R227, R232, R234), a stop for pre-emption (R239), or the instruction at
ip. -/
def State.ctlTodo (s : State) : Todo :=
  let c := s.me
  if c.run ≠ .running then .rest s
  else if c.preempt && c.mayStop then .rest (s.modMe (Ctl.stopHere s.steps))
  else if c.pend ≠ .none then .rest s.pendTurn
  else match s.fetch with
    | (.word w, s1) => .run (instrOf w) s1
    | (.fault t, s1) => .run (.instructionFetchFault t) s1
    | (.wait, s1) => .rest s1

/-- Whether the oldest command of a unit may take effect: its team is not being stopped (R358), and no other unit of the team
holds an earlier command of the same controller (R109). -/
def State.unitMay (s : State) (p : Nat) (q : QCmd) : Bool :=
  let tm := s.teamAt p
  (match (s.coreAt p).team with
    | some _ => tm.st == .running
    | none => true) &&
  tm.cores.all (fun r => !(s.coreAt r).unit.any (fun x => x.issuer == q.issuer && decide (x.seq < q.seq)))

/-- A command unit's turn (R244, R247). -/
def State.cmdTodo (s : State) : Todo :=
  match s.headOf s.here with
  | some q => if s.unitMay s.here q then .run (decodeCommand q.img) s else .rest s
  | none => .rest s

/-- A node's turn: the instruction its record encodes. -/
def State.nodeTodo (s : State) : Todo :=
  match (s.coreAt s.here).node s.slot with
  | some n => match decodeNodeOp n.op n.rcd with
    | .ok i => .run i s
    | .error _ => .rest s
  | none => .rest s

/-- What a turn does. -/
def State.todo (s : State) : Turn → Todo
  | .ctl p => ({ s with here := p } : State).ctlTodo
  | .cmd p => ({ s with here := p } : State).cmdTodo
  | .node p k => ({ s with here := p, slot := k } : State).nodeTodo
  | .piece p k n => .rest (({ s with here := p, slot := k } : State).piece n)
  | .event i => .run i s

/-- Whether an instruction is an event: not one that a controller, a command unit or a node carries out. -/
def isEvent (i : Instr) : Bool :=
  match encode i with
  | .event => match i with
    | .instructionFetchFault _ => false
    | _ => true
  | _ => false

/-- Whether a turn names an agent or an event that the package has (R1, R61). -/
def Turn.exists_ : Turn → Bool
  | .ctl p => decide (p < Config.coreCount)
  | .cmd p => decide (p < Config.coreCount)
  | .node p k => decide (p < Config.coreCount) && decide (k < 96)
  | .piece p k _ => decide (p < Config.coreCount) && decide (k ≤ 96)
  | .event i => isEvent i && wfInstr i

/-- Whether a turn is a BOOT, all that acts while the fabric stays in reset (R400). -/
def Turn.boots : Turn → Bool
  | .event (.boot _) => true
  | _ => false

/-! ### A round -/

/-- The dispatcher's turns: starts, resumes, posts (R306, R314). -/
def State.taskTurns (s : State) : List Turn :=
  (if s.tasks.any (fun k => k.2.ended.isNone) then [.event .taskStart] else []) ++
  (s.teams.filter (fun t => t.2.st == .saved)).map (fun t => .event (.resume t.1)) ++
  (s.tasks.filter (fun k => k.2.ended.isSome && !k.2.posted)).map (fun k => .event (.completionEventPost k.1))

/-- What is under way between agents: signals, barrier arrivals, walks, drains (R233, R265, R289, R320). -/
def State.wireTurns (s : State) : List Turn :=
  s.signals.map (fun g => .event (.signalArrival g.src)) ++ s.arrivals.map (fun a => .event (.barrierArrival a.src a.home a.k)) ++
  s.walks.map (fun w => .event (.pageWalkComplete w.die w.part w.page)) ++
  s.parts.flatMap (fun p => (p.2.slots.filter (fun x => x.2.drain.isSome)).map (fun x => .event (.checkpointDrainComplete p.1 x.1)))

/-- A core's turns: its controller, command unit, copy engine, hub reads, key moves, guards and banks being copied. -/
def State.coreTurns (p : Nat) (c : Core) : List Turn :=
  (if c.ctl.run == .running then [.ctl p] else []) ++ (if c.unit.isEmpty then [] else [.cmd p]) ++
  (if c.ce.trigs.isEmpty && !c.ce.moving then [] else [.event (.copyStart p)]) ++
  (if c.ce.jobs.any (fun j => j.moved) then [.event (.copyComplete p)] else []) ++
  (if c.ce.eots.isEmpty then [] else [.event (.endOfTileDelivery p)]) ++
  (if c.hubCmd.isSome then [.event (.hubRead p)] else []) ++ c.copying.map (fun b => .event (.bankRetire p b)) ++
  (match c.cfg with
    | none => []
    | some g =>
      (g.nodes.filter (fun n => n.2.hub.isSome && n.2.hubRes.isNone)).map (fun _ => Turn.event (.hubRead p)) ++
      g.moves.map (fun m => .event (.bankKeyMove p m.1)) ++ g.egress.map (fun x => .event (.boundaryDrop p x.1)))

/-- A running region's turns: each node in schedule order (R123), each status under way, each domain's end of instant, a
sample. -/
def State.regionTurns (s : State) (k : Nat) (r : Region) : List Turn :=
  if !r.configured || !s.regionRuns r then []
  else
    let cfgs := r.cores.filterMap (fun p => (s.coreAt p).cfg.map (fun g => (p, g)))
    let others := fun (g : Cfg) => (g.nodes.map Prod.fst).filter (fun i => !g.sched.contains i)
    cfgs.flatMap (fun x => (x.2.sched ++ others x.2).map (fun i => Turn.node x.1 i)) ++
    cfgs.flatMap (fun x => x.2.chans.flatMap (fun c => c.2.wire.map (fun _ => Turn.event (.remoteStatusReceive x.1 c.1 false)))) ++
    (List.range r.doms.length).map (fun i => .event (.domainInstantEnd k i)) ++ [.event (.quiescenceSample k)]

/-- One turn for everything that may act; what comes from outside (the host, other packages, time, firmware's choices) has
none. -/
def State.round (s : State) : List Turn :=
  s.taskTurns ++ s.wireTurns ++ s.cores.flatMap (fun c => State.coreTurns c.1 c.2) ++
  s.regions.flatMap (fun r => s.regionTurns r.1 r.2) ++
  (s.teams.filter (fun t => t.2.st == .stopping)).map (fun t => .event (.preempt { team := t.1, area := t.2.area.getD 0 })) ++
  (s.parts.filter (fun p => p.2.staged.isSome)).map (fun p => .event (.firmwareSwitch p.1))

/-- The turn to take, and the rest of the agenda: a new round where it is empty. -/
def State.pick (s : State) : Option (Turn × List Turn) :=
  match s.agenda with
  | t :: rest => some (t, rest)
  | [] => match s.round with
    | t :: rest => some (t, rest)
    | [] => none

/-- The state in which a turn is taken: the rest of the agenda kept, the step counted. -/
def State.begin_ (s : State) (rest : List Turn) : State := { s with agenda := rest, steps := s.steps + 1, short := false }

/-- A turn that waits for a shadow (R365): nothing of what it does happens, and a controller's or a unit's counts as an outstanding
request (R128). -/
def State.awaits (s : State) : Turn → State
  | .ctl p => s.modCtl p (fun c => { c with shadow := some c.instret })
  | .cmd p => s.modCore p (fun c => { c with unit := (c.unit.take 1).map (fun q => { q with waits := true }) ++ c.unit.drop 1 })
  | _ => s

/-- What a step makes of a turn: where a write to a save area lacks a shadow, all of it waits (R365). -/
def State.unlessShort (s : State) (t : Turn) : Answer → Answer
  | .next u => .next (if u.short then s.awaits t else u)
  | .fault f => .fault f
  | .refused r => .refused r

/-! ### An instruction placed where the next step finds it -/

/-- Where the placed program stands: the first word of control memory. -/
def placedIp : BitVec 64 := 0x80000000003E0000

/-- A scalar word at the ip of core 0's running controller, whose turn is next. -/
def State.placeScalar (s : State) (w : BitVec 32) : State :=
  let k := scratchKey 0 0x3E0000
  let s1 := s.modCore 0 (fun c =>
    { c with
      ctl := { c.ctl with ip := placedIp, run := .running, pend := .none, preempt := false, icache := [] },
      bankTags := terase c.bankTags 62 })
  { s1 with
    mem := writeBytes s1.mem k (bytesOfNat w.toNat 4), bad := s1.bad.filter (fun x => !(decide (x < k + 4) && decide (k < x + 8))),
    booted := true, agenda := [.ctl 0] }

/-- A command image at the head of core 0's unit, whose turn is next. -/
def State.placeCommand (s : State) (w : BitVec 128) : State :=
  let q : QCmd := { seq := s.order, img := w, issuer := 0, viaQ := false, trb := (s.ctlAt 0).trb, fw := false }
  { s.modCore 0 (fun c => { c with unit := [q] }) with booted := true, order := s.order + 1, agenda := [.cmd 0] }

/-- The slot in which a node of an opcode is placed (R61). -/
def placeSlot (op : Nat) : Nat := if 0x80 ≤ op ∧ op < 0x90 then 64 else if (1 ≤ op ∧ op ≤ 4) ∨ op = 0x90 ∨ op = 0x91 then 80 else 0

/-- A node record as core 0's one node, whose turn is next. -/
def State.placeNode (s : State) (w : BitVec 256) : State :=
  let op := (w.extractLsb' 0 8).toNat
  let n := freshNode op (nodeFields w) []
  let g : Cfg :=
    { nodes := [(placeSlot op, n)], chans := [], routes := [], sched := [placeSlot op], modes := [], keys := [], moves := [], drops := [],
      egress := [] }
  { s.modCore 0 (fun c => { c with cfg := some g }) with booted := true, agenda := [.node 0 (placeSlot op)] }

/-- An instruction's bits placed where the next step runs them, by their number. -/
def State.place (s : State) (nbits w : Nat) : State :=
  if nbits ≤ 32 then s.placeScalar (BitVec.ofNat 32 w)
  else if nbits ≤ 128 then s.placeCommand (BitVec.ofNat 128 w)
  else s.placeNode (BitVec.ofNat 256 w)

end Sys2Proof.Machine
end

