-- ==== Sys2Proof/Machine/Step.lean ====
section
/-!
DEFINITION. One step of the package: the next turn's instruction, run by exec.
-/

namespace Sys2Proof.Machine

/-- A turn taken: its instruction run, or nothing to run, and left undone while it needs a shadow (R365); until the boot ROM has passed an image the fabric stays in reset (R400). An
agent or event that the package does not have stops the machine. -/
def State.turn (s : State) (t : Turn) : Host.Outcome State Fault Refusal :=
  if t.exists_ then
    if s.booted || t.boots then
      match s.todo t with
      | .run i z => s.unlessShort t (exec i z)
      | .rest z => s.unlessShort t (.next z)
    else .next s
  else .fault .noSuchAgent

/-- One step: the turn at the head of the agenda, or of a new round; an idle package only counts the step. -/
def step (s : State) : Host.Outcome State Fault Refusal :=
  match s.pick with
  | some (t, rest) => (s.begin_ rest).turn t
  | none => .next (s.begin_ [])

/-- The state with an instruction's bits where the next step runs them. -/
def State.withFetchWord (s : State) (nbits w : Nat) : State := s.place nbits w

end Sys2Proof.Machine
end

