-- ==== Sys2Proof/Laws/Fields.lean ====
section
/-!
SUPPORT. The fields of encoded words (R212, R243, R48–R57): what stands at each place, and every record and image read back.
-/

namespace Sys2Proof

@[simp] theorem wordOf_op (op : BitVec 6) (d a : Reg) (low : BitVec 16) : (wordOf op d a low).extractLsb' 26 6 = op :=
  (BitVec.extractLsb'_append_eq_of_le (by decide)).trans ((BitVec.extractLsb'_append_eq_of_le (by decide)).trans ((BitVec.extractLsb'_append_eq_of_le (by decide)).trans (BitVec.extractLsb'_eq_self)))

@[simp] theorem wordOf_d (op : BitVec 6) (d a : Reg) (low : BitVec 16) : (wordOf op d a low).extractLsb' 21 5 = d :=
  (BitVec.extractLsb'_append_eq_of_le (by decide)).trans ((BitVec.extractLsb'_append_eq_of_le (by decide)).trans (BitVec.extractLsb'_append_eq_right))

@[simp] theorem wordOf_a (op : BitVec 6) (d a : Reg) (low : BitVec 16) : (wordOf op d a low).extractLsb' 16 5 = a :=
  (BitVec.extractLsb'_append_eq_of_le (by decide)).trans (BitVec.extractLsb'_append_eq_right)

@[simp] theorem wordOf_imm (op : BitVec 6) (d a : Reg) (low : BitVec 16) : (wordOf op d a low).extractLsb' 0 16 = low :=
  BitVec.extractLsb'_append_eq_right

@[simp] theorem lowRR_b (b : Reg) (fn : BitVec 11) : (lowRR b fn).extractLsb' 11 5 = b :=
  (BitVec.extractLsb'_append_eq_of_le (by decide)).trans (BitVec.extractLsb'_eq_self)

@[simp] theorem lowRR_fn (b : Reg) (fn : BitVec 11) : (lowRR b fn).extractLsb' 0 11 = fn :=
  BitVec.extractLsb'_append_eq_right

@[simp] theorem lowSys_imm (imm : BitVec 12) (fn : BitVec 4) : (lowSys imm fn).extractLsb' 4 12 = imm :=
  (BitVec.extractLsb'_append_eq_of_le (by decide)).trans (BitVec.extractLsb'_eq_self)

@[simp] theorem lowSys_fn (imm : BitVec 12) (fn : BitVec 4) : (lowSys imm fn).extractLsb' 0 4 = fn :=
  BitVec.extractLsb'_append_eq_right

@[simp] theorem lowAmo_b (b : Reg) (scope : BitVec 3) (narrow : Bool) (fn : BitVec 4) : (lowAmo b scope narrow fn).extractLsb' 11 5 = b :=
  (BitVec.extractLsb'_append_eq_of_le (by decide)).trans ((BitVec.extractLsb'_append_eq_of_le (by decide)).trans ((BitVec.extractLsb'_append_eq_of_le (by decide)).trans ((BitVec.extractLsb'_append_eq_of_le (by decide)).trans (BitVec.extractLsb'_eq_self))))

@[simp] theorem lowAmo_scope (b : Reg) (scope : BitVec 3) (narrow : Bool) (fn : BitVec 4) : (lowAmo b scope narrow fn).extractLsb' 8 3 = scope :=
  (BitVec.extractLsb'_append_eq_of_le (by decide)).trans ((BitVec.extractLsb'_append_eq_of_le (by decide)).trans ((BitVec.extractLsb'_append_eq_of_le (by decide)).trans (BitVec.extractLsb'_append_eq_right)))

@[simp] theorem lowAmo_zero (b : Reg) (scope : BitVec 3) (narrow : Bool) (fn : BitVec 4) : (lowAmo b scope narrow fn).extractLsb' 5 3 = 0 :=
  (BitVec.extractLsb'_append_eq_of_le (by decide)).trans ((BitVec.extractLsb'_append_eq_of_le (by decide)).trans (BitVec.extractLsb'_append_eq_right))

@[simp] theorem lowAmo_wide (b : Reg) (scope : BitVec 3) (narrow : Bool) (fn : BitVec 4) : (lowAmo b scope narrow fn).extractLsb' 4 1 = BitVec.ofBool narrow :=
  (BitVec.extractLsb'_append_eq_of_le (by decide)).trans (BitVec.extractLsb'_append_eq_right)

@[simp] theorem lowAmo_fn (b : Reg) (scope : BitVec 3) (narrow : Bool) (fn : BitVec 4) : (lowAmo b scope narrow fn).extractLsb' 0 4 = fn :=
  BitVec.extractLsb'_append_eq_right

@[simp] theorem lowShift_kind (kind : BitVec 2) (sh : BitVec 6) : (lowShift kind sh).extractLsb' 14 2 = kind :=
  (BitVec.extractLsb'_append_eq_of_le (by decide)).trans ((BitVec.extractLsb'_append_eq_of_le (by decide)).trans (BitVec.extractLsb'_eq_self))

@[simp] theorem lowShift_zero (kind : BitVec 2) (sh : BitVec 6) : (lowShift kind sh).extractLsb' 6 8 = 0 :=
  (BitVec.extractLsb'_append_eq_of_le (by decide)).trans (BitVec.extractLsb'_append_eq_right)

@[simp] theorem lowShift_sh (kind : BitVec 2) (sh : BitVec 6) : (lowShift kind sh).extractLsb' 0 6 = sh :=
  BitVec.extractLsb'_append_eq_right

@[simp] theorem wordJ_op (op : BitVec 6) (off : BitVec 26) : (wordJ op off).extractLsb' 26 6 = op :=
  (BitVec.extractLsb'_append_eq_of_le (by decide)).trans (BitVec.extractLsb'_eq_self)

@[simp] theorem wordJ_off (op : BitVec 6) (off : BitVec 26) : (wordJ op off).extractLsb' 0 26 = off :=
  BitVec.extractLsb'_append_eq_right

@[simp] theorem crField_cr (c : BitVec 3) : (crField c).extractLsb' 2 3 = c :=
  (BitVec.extractLsb'_append_eq_of_le (by decide)).trans (BitVec.extractLsb'_eq_self)

@[simp] theorem crField_zero (c : BitVec 3) : (crField c).extractLsb' 0 2 = 0 :=
  BitVec.extractLsb'_append_eq_right

@[simp] theorem wordCmdi_op (op : BitVec 6) (c : BitVec 3) (target : BitVec 12) : (wordCmdi op c target).extractLsb' 26 6 = op :=
  (BitVec.extractLsb'_append_eq_of_le (by decide)).trans ((BitVec.extractLsb'_append_eq_of_le (by decide)).trans ((BitVec.extractLsb'_append_eq_of_le (by decide)).trans (BitVec.extractLsb'_eq_self)))

@[simp] theorem wordCmdi_cr (op : BitVec 6) (c : BitVec 3) (target : BitVec 12) : (wordCmdi op c target).extractLsb' 23 3 = c :=
  (BitVec.extractLsb'_append_eq_of_le (by decide)).trans ((BitVec.extractLsb'_append_eq_of_le (by decide)).trans (BitVec.extractLsb'_append_eq_right))

@[simp] theorem wordCmdi_target (op : BitVec 6) (c : BitVec 3) (target : BitVec 12) : (wordCmdi op c target).extractLsb' 11 12 = target :=
  (BitVec.extractLsb'_append_eq_of_le (by decide)).trans (BitVec.extractLsb'_append_eq_right)

@[simp] theorem wordCmdi_zero (op : BitVec 6) (c : BitVec 3) (target : BitVec 12) : (wordCmdi op c target).extractLsb' 0 11 = 0 :=
  BitVec.extractLsb'_append_eq_right

/-- A field of the low half, read in the whole word. -/
@[simp] theorem wordOf_low (op : BitVec 6) (d a : Reg) (low : BitVec 16) (k n : Nat) (h : k + n ≤ 16) :
    (wordOf op d a low).extractLsb' k n = low.extractLsb' k n :=
  BitVec.extractLsb'_append_eq_of_add_le h

/-- A field of sd, read in the whole word. -/
@[simp] theorem wordOf_inD (op : BitVec 6) (d a : Reg) (low : BitVec 16) (k n : Nat) (h : 21 ≤ k) (h' : k + n ≤ 26) :
    (wordOf op d a low).extractLsb' k n = d.extractLsb' (k - 21) n := by
  ext i hi
  have h1 : ¬ k + i < 16 := by omega
  have h2 : ¬ k + i - 16 < 5 := by omega
  have h3 : k - 21 + i < 5 := by omega
  have h4 : k + i - 16 - 5 = k - 21 + i := by omega
  simp only [wordOf, BitVec.getElem_extractLsb', BitVec.getLsbD_append, h1, h2, h3, h4, if_false, if_true]
/-- A one-bit field read as a bit. -/
theorem getLsbD_of_field {w : Nat} {x : BitVec w} {k : Nat} {b : Bool} (h : x.extractLsb' k 1 = BitVec.ofBool b) :
    x.getLsbD k = b := by
  have := congrArg (fun y => y.getLsbD 0) h
  simpa using this

/-- The width bit of an atomic (R221). -/
@[simp] theorem wordOf_lowAmo_narrow (op : BitVec 6) (d a b : Reg) (scope : BitVec 3) (narrow : Bool) (fn : BitVec 4) :
    (wordOf op d a (lowAmo b scope narrow fn))[4] = narrow :=
  getLsbD_of_field ((wordOf_low op d a _ 4 1 (by decide)).trans (lowAmo_wide b scope narrow fn))

/-! Small fields in a wider place whose other bits are zero (R221, R227–R232). -/

theorem fence_zero (scope : BitVec 3) : (wordOf 37#6 0#5 0#5 (lowSys (0#9 ++ scope) 0#4)).extractLsb' 7 19 = 0 := by
  revert scope; decide

theorem fence_scope (scope : BitVec 3) : (lowSys (0#9 ++ scope) 0#4).extractLsb' 4 3 = scope := by revert scope; decide

theorem cmdq_cr (c : BitVec 3) : (lowRR (0#2 ++ c) 0#11).extractLsb' 11 3 = c ∧ (lowRR (0#2 ++ c) 0#11).extractLsb' 14 2 = 0 := by
  revert c; decide

theorem tsend_box (b : Reg) (box : BitVec 3) :
    (lowRR b (0#8 ++ box)).extractLsb' 0 3 = box ∧ (lowRR b (0#8 ++ box)).extractLsb' 3 8 = 0 := by
  revert b box; decide

theorem trecv_box (box : BitVec 3) :
    (lowSys (0#9 ++ box) 0#4).extractLsb' 4 3 = box ∧ (lowSys (0#9 ++ box) 0#4).extractLsb' 7 9 = 0 := by
  revert box; decide

theorem iwait_dom (dom : BitVec 2) :
    (lowSys (0#10 ++ dom) 0#4).extractLsb' 4 2 = dom ∧ (lowSys (0#10 ++ dom) 0#4).extractLsb' 6 10 = 0 := by
  revert dom; decide

theorem barrier_k (k fn : BitVec 4) :
    (lowSys (0#8 ++ k) fn).extractLsb' 4 4 = k ∧ (lowSys (0#8 ++ k) fn).extractLsb' 8 8 = 0 := by
  revert k fn; decide

@[simp] theorem commandWord_w3 (code : BitVec 8) (c : CmdArgs) : (commandWord code c).extractLsb' 96 32 = c.w3 :=
  (BitVec.extractLsb'_append_eq_of_le (by decide)).trans ((BitVec.extractLsb'_append_eq_of_le (by decide)).trans ((BitVec.extractLsb'_append_eq_of_le (by decide)).trans ((BitVec.extractLsb'_append_eq_of_le (by decide)).trans ((BitVec.extractLsb'_append_eq_of_le (by decide)).trans (BitVec.extractLsb'_eq_self)))))

@[simp] theorem commandWord_w2 (code : BitVec 8) (c : CmdArgs) : (commandWord code c).extractLsb' 64 32 = c.w2 :=
  (BitVec.extractLsb'_append_eq_of_le (by decide)).trans ((BitVec.extractLsb'_append_eq_of_le (by decide)).trans ((BitVec.extractLsb'_append_eq_of_le (by decide)).trans ((BitVec.extractLsb'_append_eq_of_le (by decide)).trans (BitVec.extractLsb'_append_eq_right))))

@[simp] theorem commandWord_w1 (code : BitVec 8) (c : CmdArgs) : (commandWord code c).extractLsb' 32 32 = c.w1 :=
  (BitVec.extractLsb'_append_eq_of_le (by decide)).trans ((BitVec.extractLsb'_append_eq_of_le (by decide)).trans ((BitVec.extractLsb'_append_eq_of_le (by decide)).trans (BitVec.extractLsb'_append_eq_right)))

@[simp] theorem commandWord_target (code : BitVec 8) (c : CmdArgs) : (commandWord code c).extractLsb' 16 16 = c.target :=
  (BitVec.extractLsb'_append_eq_of_le (by decide)).trans ((BitVec.extractLsb'_append_eq_of_le (by decide)).trans (BitVec.extractLsb'_append_eq_right))

@[simp] theorem commandWord_flags (code : BitVec 8) (c : CmdArgs) : (commandWord code c).extractLsb' 8 8 = c.flags :=
  (BitVec.extractLsb'_append_eq_of_le (by decide)).trans (BitVec.extractLsb'_append_eq_right)

@[simp] theorem commandWord_code (code : BitVec 8) (c : CmdArgs) : (commandWord code c).extractLsb' 0 8 = code :=
  BitVec.extractLsb'_append_eq_right

/-- The fields of an image are read back (R243). -/
@[simp] theorem commandArgs_commandWord (code : BitVec 8) (c : CmdArgs) : commandArgs (commandWord code c) = c := by
  simp [commandArgs]

@[simp] theorem nodeWord_rsv7 (op : BitVec 8) (r : NodeRec) : (nodeWord op r).extractLsb' 240 16 = r.rsv7 :=
  (BitVec.extractLsb'_append_eq_of_le (by decide)).trans ((BitVec.extractLsb'_append_eq_of_le (by decide)).trans ((BitVec.extractLsb'_append_eq_of_le (by decide)).trans ((BitVec.extractLsb'_append_eq_of_le (by decide)).trans ((BitVec.extractLsb'_append_eq_of_le (by decide)).trans ((BitVec.extractLsb'_append_eq_of_le (by decide)).trans ((BitVec.extractLsb'_append_eq_of_le (by decide)).trans ((BitVec.extractLsb'_append_eq_of_le (by decide)).trans (BitVec.extractLsb'_eq_self))))))))

@[simp] theorem nodeWord_stOff (op : BitVec 8) (r : NodeRec) : (nodeWord op r).extractLsb' 224 16 = r.stOff :=
  (BitVec.extractLsb'_append_eq_of_le (by decide)).trans ((BitVec.extractLsb'_append_eq_of_le (by decide)).trans ((BitVec.extractLsb'_append_eq_of_le (by decide)).trans ((BitVec.extractLsb'_append_eq_of_le (by decide)).trans ((BitVec.extractLsb'_append_eq_of_le (by decide)).trans ((BitVec.extractLsb'_append_eq_of_le (by decide)).trans ((BitVec.extractLsb'_append_eq_of_le (by decide)).trans (BitVec.extractLsb'_append_eq_right)))))))

@[simp] theorem nodeWord_k3 (op : BitVec 8) (r : NodeRec) : (nodeWord op r).extractLsb' 192 32 = r.k3 :=
  (BitVec.extractLsb'_append_eq_of_le (by decide)).trans ((BitVec.extractLsb'_append_eq_of_le (by decide)).trans ((BitVec.extractLsb'_append_eq_of_le (by decide)).trans ((BitVec.extractLsb'_append_eq_of_le (by decide)).trans ((BitVec.extractLsb'_append_eq_of_le (by decide)).trans ((BitVec.extractLsb'_append_eq_of_le (by decide)).trans (BitVec.extractLsb'_append_eq_right))))))

@[simp] theorem nodeWord_k2 (op : BitVec 8) (r : NodeRec) : (nodeWord op r).extractLsb' 160 32 = r.k2 :=
  (BitVec.extractLsb'_append_eq_of_le (by decide)).trans ((BitVec.extractLsb'_append_eq_of_le (by decide)).trans ((BitVec.extractLsb'_append_eq_of_le (by decide)).trans ((BitVec.extractLsb'_append_eq_of_le (by decide)).trans ((BitVec.extractLsb'_append_eq_of_le (by decide)).trans (BitVec.extractLsb'_append_eq_right)))))

@[simp] theorem nodeWord_k1 (op : BitVec 8) (r : NodeRec) : (nodeWord op r).extractLsb' 128 32 = r.k1 :=
  (BitVec.extractLsb'_append_eq_of_le (by decide)).trans ((BitVec.extractLsb'_append_eq_of_le (by decide)).trans ((BitVec.extractLsb'_append_eq_of_le (by decide)).trans ((BitVec.extractLsb'_append_eq_of_le (by decide)).trans (BitVec.extractLsb'_append_eq_right))))

@[simp] theorem nodeWord_k0 (op : BitVec 8) (r : NodeRec) : (nodeWord op r).extractLsb' 96 32 = r.k0 :=
  (BitVec.extractLsb'_append_eq_of_le (by decide)).trans ((BitVec.extractLsb'_append_eq_of_le (by decide)).trans ((BitVec.extractLsb'_append_eq_of_le (by decide)).trans (BitVec.extractLsb'_append_eq_right)))

@[simp] theorem nodeWord_aftSrc (op : BitVec 8) (r : NodeRec) : (nodeWord op r).extractLsb' 88 8 = r.aftSrc :=
  (BitVec.extractLsb'_append_eq_of_le (by decide)).trans ((BitVec.extractLsb'_append_eq_of_le (by decide)).trans ((BitVec.extractLsb'_append_eq_of_add_le (by decide)).trans ((BitVec.extractLsb'_append_eq_of_le (by decide)).trans ((BitVec.extractLsb'_append_eq_of_le (by decide)).trans (BitVec.extractLsb'_eq_self)))))

@[simp] theorem nodeWord_outY (op : BitVec 8) (r : NodeRec) : (nodeWord op r).extractLsb' 76 12 = r.outY :=
  (BitVec.extractLsb'_append_eq_of_le (by decide)).trans ((BitVec.extractLsb'_append_eq_of_le (by decide)).trans ((BitVec.extractLsb'_append_eq_of_add_le (by decide)).trans ((BitVec.extractLsb'_append_eq_of_le (by decide)).trans (BitVec.extractLsb'_append_eq_right))))

@[simp] theorem nodeWord_outX (op : BitVec 8) (r : NodeRec) : (nodeWord op r).extractLsb' 64 12 = r.outX :=
  (BitVec.extractLsb'_append_eq_of_le (by decide)).trans ((BitVec.extractLsb'_append_eq_of_le (by decide)).trans ((BitVec.extractLsb'_append_eq_of_add_le (by decide)).trans (BitVec.extractLsb'_append_eq_right)))

@[simp] theorem nodeWord_rsv1 (op : BitVec 8) (r : NodeRec) : (nodeWord op r).extractLsb' 60 4 = r.rsv1 :=
  (BitVec.extractLsb'_append_eq_of_le (by decide)).trans ((BitVec.extractLsb'_append_eq_of_add_le (by decide)).trans ((BitVec.extractLsb'_append_eq_of_le (by decide)).trans ((BitVec.extractLsb'_append_eq_of_le (by decide)).trans ((BitVec.extractLsb'_append_eq_of_le (by decide)).trans ((BitVec.extractLsb'_append_eq_of_le (by decide)).trans ((BitVec.extractLsb'_append_eq_of_le (by decide)).trans ((BitVec.extractLsb'_append_eq_of_le (by decide)).trans ((BitVec.extractLsb'_append_eq_of_le (by decide)).trans (BitVec.extractLsb'_eq_self)))))))))

@[simp] theorem nodeWord_aft (op : BitVec 8) (r : NodeRec) : (nodeWord op r)[59] = r.aft :=
  getLsbD_of_field ((BitVec.extractLsb'_append_eq_of_le (by decide)).trans ((BitVec.extractLsb'_append_eq_of_add_le (by decide)).trans ((BitVec.extractLsb'_append_eq_of_le (by decide)).trans ((BitVec.extractLsb'_append_eq_of_le (by decide)).trans ((BitVec.extractLsb'_append_eq_of_le (by decide)).trans ((BitVec.extractLsb'_append_eq_of_le (by decide)).trans ((BitVec.extractLsb'_append_eq_of_le (by decide)).trans ((BitVec.extractLsb'_append_eq_of_le (by decide)).trans (BitVec.extractLsb'_append_eq_right)))))))))

@[simp] theorem nodeWord_cd (op : BitVec 8) (r : NodeRec) : (nodeWord op r)[58] = r.cd :=
  getLsbD_of_field ((BitVec.extractLsb'_append_eq_of_le (by decide)).trans ((BitVec.extractLsb'_append_eq_of_add_le (by decide)).trans ((BitVec.extractLsb'_append_eq_of_le (by decide)).trans ((BitVec.extractLsb'_append_eq_of_le (by decide)).trans ((BitVec.extractLsb'_append_eq_of_le (by decide)).trans ((BitVec.extractLsb'_append_eq_of_le (by decide)).trans ((BitVec.extractLsb'_append_eq_of_le (by decide)).trans (BitVec.extractLsb'_append_eq_right))))))))

@[simp] theorem nodeWord_bd (op : BitVec 8) (r : NodeRec) : (nodeWord op r)[57] = r.bd :=
  getLsbD_of_field ((BitVec.extractLsb'_append_eq_of_le (by decide)).trans ((BitVec.extractLsb'_append_eq_of_add_le (by decide)).trans ((BitVec.extractLsb'_append_eq_of_le (by decide)).trans ((BitVec.extractLsb'_append_eq_of_le (by decide)).trans ((BitVec.extractLsb'_append_eq_of_le (by decide)).trans ((BitVec.extractLsb'_append_eq_of_le (by decide)).trans (BitVec.extractLsb'_append_eq_right)))))))

@[simp] theorem nodeWord_ad (op : BitVec 8) (r : NodeRec) : (nodeWord op r)[56] = r.ad :=
  getLsbD_of_field ((BitVec.extractLsb'_append_eq_of_le (by decide)).trans ((BitVec.extractLsb'_append_eq_of_add_le (by decide)).trans ((BitVec.extractLsb'_append_eq_of_le (by decide)).trans ((BitVec.extractLsb'_append_eq_of_le (by decide)).trans ((BitVec.extractLsb'_append_eq_of_le (by decide)).trans (BitVec.extractLsb'_append_eq_right))))))

@[simp] theorem nodeWord_inC (op : BitVec 8) (r : NodeRec) : (nodeWord op r).extractLsb' 48 8 = r.inC :=
  (BitVec.extractLsb'_append_eq_of_le (by decide)).trans ((BitVec.extractLsb'_append_eq_of_add_le (by decide)).trans ((BitVec.extractLsb'_append_eq_of_le (by decide)).trans ((BitVec.extractLsb'_append_eq_of_le (by decide)).trans (BitVec.extractLsb'_append_eq_right))))

@[simp] theorem nodeWord_inB (op : BitVec 8) (r : NodeRec) : (nodeWord op r).extractLsb' 40 8 = r.inB :=
  (BitVec.extractLsb'_append_eq_of_le (by decide)).trans ((BitVec.extractLsb'_append_eq_of_add_le (by decide)).trans ((BitVec.extractLsb'_append_eq_of_le (by decide)).trans (BitVec.extractLsb'_append_eq_right)))

@[simp] theorem nodeWord_inA (op : BitVec 8) (r : NodeRec) : (nodeWord op r).extractLsb' 32 8 = r.inA :=
  (BitVec.extractLsb'_append_eq_of_le (by decide)).trans ((BitVec.extractLsb'_append_eq_of_add_le (by decide)).trans (BitVec.extractLsb'_append_eq_right))

@[simp] theorem nodeWord_var (op : BitVec 8) (r : NodeRec) : (nodeWord op r).extractLsb' 28 4 = r.var :=
  (BitVec.extractLsb'_append_eq_of_add_le (by decide)).trans ((BitVec.extractLsb'_append_eq_of_le (by decide)).trans ((BitVec.extractLsb'_append_eq_of_le (by decide)).trans ((BitVec.extractLsb'_append_eq_of_le (by decide)).trans ((BitVec.extractLsb'_append_eq_of_le (by decide)).trans ((BitVec.extractLsb'_append_eq_of_le (by decide)).trans ((BitVec.extractLsb'_append_eq_of_le (by decide)).trans ((BitVec.extractLsb'_append_eq_of_le (by decide)).trans (BitVec.extractLsb'_eq_self))))))))

@[simp] theorem nodeWord_dom (op : BitVec 8) (r : NodeRec) : (nodeWord op r).extractLsb' 26 2 = r.dom :=
  (BitVec.extractLsb'_append_eq_of_add_le (by decide)).trans ((BitVec.extractLsb'_append_eq_of_le (by decide)).trans ((BitVec.extractLsb'_append_eq_of_le (by decide)).trans ((BitVec.extractLsb'_append_eq_of_le (by decide)).trans ((BitVec.extractLsb'_append_eq_of_le (by decide)).trans ((BitVec.extractLsb'_append_eq_of_le (by decide)).trans ((BitVec.extractLsb'_append_eq_of_le (by decide)).trans (BitVec.extractLsb'_append_eq_right)))))))

@[simp] theorem nodeWord_blen (op : BitVec 8) (r : NodeRec) : (nodeWord op r).extractLsb' 20 6 = r.blen :=
  (BitVec.extractLsb'_append_eq_of_add_le (by decide)).trans ((BitVec.extractLsb'_append_eq_of_le (by decide)).trans ((BitVec.extractLsb'_append_eq_of_le (by decide)).trans ((BitVec.extractLsb'_append_eq_of_le (by decide)).trans ((BitVec.extractLsb'_append_eq_of_le (by decide)).trans ((BitVec.extractLsb'_append_eq_of_le (by decide)).trans (BitVec.extractLsb'_append_eq_right))))))

@[simp] theorem nodeWord_bsm (op : BitVec 8) (r : NodeRec) : (nodeWord op r).extractLsb' 18 2 = r.bsm :=
  (BitVec.extractLsb'_append_eq_of_add_le (by decide)).trans ((BitVec.extractLsb'_append_eq_of_le (by decide)).trans ((BitVec.extractLsb'_append_eq_of_le (by decide)).trans ((BitVec.extractLsb'_append_eq_of_le (by decide)).trans ((BitVec.extractLsb'_append_eq_of_le (by decide)).trans (BitVec.extractLsb'_append_eq_right)))))

@[simp] theorem nodeWord_rnd (op : BitVec 8) (r : NodeRec) : (nodeWord op r).extractLsb' 16 2 = r.rnd :=
  (BitVec.extractLsb'_append_eq_of_add_le (by decide)).trans ((BitVec.extractLsb'_append_eq_of_le (by decide)).trans ((BitVec.extractLsb'_append_eq_of_le (by decide)).trans ((BitVec.extractLsb'_append_eq_of_le (by decide)).trans (BitVec.extractLsb'_append_eq_right))))

@[simp] theorem nodeWord_abs (op : BitVec 8) (r : NodeRec) : (nodeWord op r).extractLsb' 14 2 = r.abs :=
  (BitVec.extractLsb'_append_eq_of_add_le (by decide)).trans ((BitVec.extractLsb'_append_eq_of_le (by decide)).trans ((BitVec.extractLsb'_append_eq_of_le (by decide)).trans (BitVec.extractLsb'_append_eq_right)))

@[simp] theorem nodeWord_fmt (op : BitVec 8) (r : NodeRec) : (nodeWord op r).extractLsb' 8 6 = r.fmt :=
  (BitVec.extractLsb'_append_eq_of_add_le (by decide)).trans ((BitVec.extractLsb'_append_eq_of_le (by decide)).trans (BitVec.extractLsb'_append_eq_right))

@[simp] theorem nodeWord_op (op : BitVec 8) (r : NodeRec) : (nodeWord op r).extractLsb' 0 8 = op :=
  (BitVec.extractLsb'_append_eq_of_add_le (by decide)).trans (BitVec.extractLsb'_append_eq_right)

/-- The fields of a record are read back (R48–R57). -/
@[simp] theorem nodeFields_nodeWord (op : BitVec 8) (r : NodeRec) : nodeFields (nodeWord op r) = r := by
  simp [nodeFields]

end Sys2Proof
end

