-- ==== Sys2Proof/Laws/PerInstr.lean ====
section
/-!
SUPPORT. Decoding undoes encoding, constructor by constructor (R212–R241, R243–R247, R48–R60). An event has no encoding; a
word is an illegal instruction only where it decodes to nothing.
-/

namespace Sys2Proof.Laws.RoundTrip

/-- A well-formed instruction that has an encoding is decoded from it; an illegal word must be one that decodes to nothing. -/
def Statement (i : Instr) : Prop :=
  wfInstr i = true → encode i ≠ .event → (∀ w, i = .illegalInstruction w → (decodeWord w).toOption = none) →
    decodeCode (encode i) = some i

/-- The case of a stream command (R243, R247). -/
theorem command {code : BitVec 8} {c : CmdArgs} {i : Instr} (he : encode i = encCmd code c)
    (hd : decodeCommand (commandWord code c) = i) : Statement i := by
  intro _ _ _
  rw [he]
  exact congrArg some hd

/-- The case of a fabric node (R48, R60). -/
theorem node {op : BitVec 8} {r : NodeRec} {i : Instr} (he : encode i = encNode op r)
    (hd : decodeNodeOp op.toNat r = .ok i) : Statement i := by
  intro _ _ _
  simp [he, encNode, decodeCode, decodeNode, hd, Except.toOption]

/-- The case of a scalar word (R212). -/
theorem scalar {w : BitVec 32} {i : Instr} (he : encode i = .scalar w) (hd : decodeWord w = .ok i) : Statement i := by
  intro _ _ _
  simp [he, decodeCode, hd]

/-- The case of an event, which has no encoding. -/
theorem event {i : Instr} (he : encode i = .event) : Statement i := fun _ h _ => absurd he h

/-- ADD. -/
theorem add (d a b : Reg) : Statement (.add d a b) := scalar rfl (by simp [decodeWord, decodeAlu])

/-- SUB. -/
theorem sub (d a b : Reg) : Statement (.sub d a b) := scalar rfl (by simp [decodeWord, decodeAlu])

/-- AND. -/
theorem and (d a b : Reg) : Statement (.and d a b) := scalar rfl (by simp [decodeWord, decodeAlu])

/-- OR. -/
theorem or (d a b : Reg) : Statement (.or d a b) := scalar rfl (by simp [decodeWord, decodeAlu])

/-- XOR. -/
theorem xor (d a b : Reg) : Statement (.xor d a b) := scalar rfl (by simp [decodeWord, decodeAlu])

/-- SLL. -/
theorem sll (d a b : Reg) : Statement (.sll d a b) := scalar rfl (by simp [decodeWord, decodeAlu])

/-- SRL. -/
theorem srl (d a b : Reg) : Statement (.srl d a b) := scalar rfl (by simp [decodeWord, decodeAlu])

/-- SRA. -/
theorem sra (d a b : Reg) : Statement (.sra d a b) := scalar rfl (by simp [decodeWord, decodeAlu])

/-- SLT. -/
theorem slt (d a b : Reg) : Statement (.slt d a b) := scalar rfl (by simp [decodeWord, decodeAlu])

/-- SLTU. -/
theorem sltu (d a b : Reg) : Statement (.sltu d a b) := scalar rfl (by simp [decodeWord, decodeAlu])

/-- MUL. -/
theorem mul (d a b : Reg) : Statement (.mul d a b) := scalar rfl (by simp [decodeWord, decodeAlu])

/-- MULH. -/
theorem mulh (d a b : Reg) : Statement (.mulh d a b) := scalar rfl (by simp [decodeWord, decodeAlu])

/-- MULHU. -/
theorem mulhu (d a b : Reg) : Statement (.mulhu d a b) := scalar rfl (by simp [decodeWord, decodeAlu])

/-- DIV. -/
theorem div (d a b : Reg) : Statement (.div d a b) := scalar rfl (by simp [decodeWord, decodeAlu])

/-- DIVU. -/
theorem divu (d a b : Reg) : Statement (.divu d a b) := scalar rfl (by simp [decodeWord, decodeAlu])

/-- REM. -/
theorem rem (d a b : Reg) : Statement (.rem d a b) := scalar rfl (by simp [decodeWord, decodeAlu])

/-- REMU. -/
theorem remu (d a b : Reg) : Statement (.remu d a b) := scalar rfl (by simp [decodeWord, decodeAlu])

/-- MIN. -/
theorem min (d a b : Reg) : Statement (.min d a b) := scalar rfl (by simp [decodeWord, decodeAlu])

/-- MAX. -/
theorem max (d a b : Reg) : Statement (.max d a b) := scalar rfl (by simp [decodeWord, decodeAlu])

/-- MINU. -/
theorem minu (d a b : Reg) : Statement (.minu d a b) := scalar rfl (by simp [decodeWord, decodeAlu])

/-- MAXU. -/
theorem maxu (d a b : Reg) : Statement (.maxu d a b) := scalar rfl (by simp [decodeWord, decodeAlu])

/-- CLZ. -/
theorem clz (d a : Reg) : Statement (.clz d a) := scalar rfl (by simp [decodeWord, decodeAlu, zeroed])

/-- CTZ. -/
theorem ctz (d a : Reg) : Statement (.ctz d a) := scalar rfl (by simp [decodeWord, decodeAlu, zeroed])

/-- POPC. -/
theorem popc (d a : Reg) : Statement (.popc d a) := scalar rfl (by simp [decodeWord, decodeAlu, zeroed])

/-- ADDI. -/
theorem addi (d a : Reg) (imm : BitVec 16) : Statement (.addi d a imm) := scalar rfl (by simp [decodeWord])

/-- ANDI. -/
theorem andi (d a : Reg) (imm : BitVec 16) : Statement (.andi d a imm) := scalar rfl (by simp [decodeWord])

/-- ORI. -/
theorem ori (d a : Reg) (imm : BitVec 16) : Statement (.ori d a imm) := scalar rfl (by simp [decodeWord])

/-- XORI. -/
theorem xori (d a : Reg) (imm : BitVec 16) : Statement (.xori d a imm) := scalar rfl (by simp [decodeWord])

/-- SLTI. -/
theorem slti (d a : Reg) (imm : BitVec 16) : Statement (.slti d a imm) := scalar rfl (by simp [decodeWord])

/-- SLTIU. -/
theorem sltiu (d a : Reg) (imm : BitVec 16) : Statement (.sltiu d a imm) := scalar rfl (by simp [decodeWord])

/-- SLLI. -/
theorem slli (d a : Reg) (sh : BitVec 6) : Statement (.slli d a sh) := scalar rfl (by simp [decodeWord, decodeShift, zeroed])

/-- SRLI. -/
theorem srli (d a : Reg) (sh : BitVec 6) : Statement (.srli d a sh) := scalar rfl (by simp [decodeWord, decodeShift, zeroed])

/-- SRAI. -/
theorem srai (d a : Reg) (sh : BitVec 6) : Statement (.srai d a sh) := scalar rfl (by simp [decodeWord, decodeShift, zeroed])

/-- LUI. -/
theorem lui (d : Reg) (imm : BitVec 16) : Statement (.lui d imm) := scalar rfl (by simp [decodeWord, zeroed])

/-- LUIH. -/
theorem luih (d : Reg) (imm : BitVec 16) : Statement (.luih d imm) := scalar rfl (by simp [decodeWord, zeroed])

/-- BEQ. -/
theorem beq (a b : Reg) (off : BitVec 16) : Statement (.beq a b off) := scalar rfl (by simp [decodeWord])

/-- BNE. -/
theorem bne (a b : Reg) (off : BitVec 16) : Statement (.bne a b off) := scalar rfl (by simp [decodeWord])

/-- BLT. -/
theorem blt (a b : Reg) (off : BitVec 16) : Statement (.blt a b off) := scalar rfl (by simp [decodeWord])

/-- BGE. -/
theorem bge (a b : Reg) (off : BitVec 16) : Statement (.bge a b off) := scalar rfl (by simp [decodeWord])

/-- BLTU. -/
theorem bltu (a b : Reg) (off : BitVec 16) : Statement (.bltu a b off) := scalar rfl (by simp [decodeWord])

/-- BGEU. -/
theorem bgeu (a b : Reg) (off : BitVec 16) : Statement (.bgeu a b off) := scalar rfl (by simp [decodeWord])

/-- JAL. -/
theorem jal (off : BitVec 26) : Statement (.jal off) := scalar rfl (by simp [decodeWord])

/-- JALR. -/
theorem jalr (d a : Reg) (imm : BitVec 16) : Statement (.jalr d a imm) := scalar rfl (by simp [decodeWord])

/-- LDB. -/
theorem ldb (d a : Reg) (imm : BitVec 16) : Statement (.ldb d a imm) := scalar rfl (by simp [decodeWord])

/-- LDBU. -/
theorem ldbu (d a : Reg) (imm : BitVec 16) : Statement (.ldbu d a imm) := scalar rfl (by simp [decodeWord])

/-- LDH. -/
theorem ldh (d a : Reg) (imm : BitVec 16) : Statement (.ldh d a imm) := scalar rfl (by simp [decodeWord])

/-- LDHU. -/
theorem ldhu (d a : Reg) (imm : BitVec 16) : Statement (.ldhu d a imm) := scalar rfl (by simp [decodeWord])

/-- LDW. -/
theorem ldw (d a : Reg) (imm : BitVec 16) : Statement (.ldw d a imm) := scalar rfl (by simp [decodeWord])

/-- LDWU. -/
theorem ldwu (d a : Reg) (imm : BitVec 16) : Statement (.ldwu d a imm) := scalar rfl (by simp [decodeWord])

/-- LDD. -/
theorem ldd (d a : Reg) (imm : BitVec 16) : Statement (.ldd d a imm) := scalar rfl (by simp [decodeWord])

/-- STB. -/
theorem stb (r a : Reg) (imm : BitVec 16) : Statement (.stb r a imm) := scalar rfl (by simp [decodeWord])

/-- STH. -/
theorem sth (r a : Reg) (imm : BitVec 16) : Statement (.sth r a imm) := scalar rfl (by simp [decodeWord])

/-- STW. -/
theorem stw (r a : Reg) (imm : BitVec 16) : Statement (.stw r a imm) := scalar rfl (by simp [decodeWord])

/-- STD. -/
theorem std (r a : Reg) (imm : BitVec 16) : Statement (.std r a imm) := scalar rfl (by simp [decodeWord])

/-- AMOADD. -/
theorem amoadd (d a b : Reg) (scope : BitVec 3) (narrow : Bool) : Statement (.amoadd d a b scope narrow) := fun h => scalar rfl (by simp_all [decodeWord, decodeAmo, wfInstr]) h

/-- AMOSWAP. -/
theorem amoswap (d a b : Reg) (scope : BitVec 3) (narrow : Bool) : Statement (.amoswap d a b scope narrow) := fun h => scalar rfl (by simp_all [decodeWord, decodeAmo, wfInstr]) h

/-- AMOCAS. -/
theorem amocas (d a b : Reg) (scope : BitVec 3) (narrow : Bool) : Statement (.amocas d a b scope narrow) := fun h => scalar rfl (by simp_all [decodeWord, decodeAmo, wfInstr]) h

/-- AMOMIN. -/
theorem amomin (d a b : Reg) (scope : BitVec 3) (narrow : Bool) : Statement (.amomin d a b scope narrow) := fun h => scalar rfl (by simp_all [decodeWord, decodeAmo, wfInstr]) h

/-- AMOMAX. -/
theorem amomax (d a b : Reg) (scope : BitVec 3) (narrow : Bool) : Statement (.amomax d a b scope narrow) := fun h => scalar rfl (by simp_all [decodeWord, decodeAmo, wfInstr]) h

/-- AMOMINU. -/
theorem amominu (d a b : Reg) (scope : BitVec 3) (narrow : Bool) : Statement (.amominu d a b scope narrow) := fun h => scalar rfl (by simp_all [decodeWord, decodeAmo, wfInstr]) h

/-- AMOMAXU. -/
theorem amomaxu (d a b : Reg) (scope : BitVec 3) (narrow : Bool) : Statement (.amomaxu d a b scope narrow) := fun h => scalar rfl (by simp_all [decodeWord, decodeAmo, wfInstr]) h

/-- AMOAND. -/
theorem amoand (d a b : Reg) (scope : BitVec 3) (narrow : Bool) : Statement (.amoand d a b scope narrow) := fun h => scalar rfl (by simp_all [decodeWord, decodeAmo, wfInstr]) h

/-- AMOOR. -/
theorem amoor (d a b : Reg) (scope : BitVec 3) (narrow : Bool) : Statement (.amoor d a b scope narrow) := fun h => scalar rfl (by simp_all [decodeWord, decodeAmo, wfInstr]) h

/-- AMOXOR. -/
theorem amoxor (d a b : Reg) (scope : BitVec 3) (narrow : Bool) : Statement (.amoxor d a b scope narrow) := fun h => scalar rfl (by simp_all [decodeWord, decodeAmo, wfInstr]) h

/-- FENCE. -/
theorem fence (scope : BitVec 3) : Statement (.fence scope) := fun h => scalar rfl (by simp_all [decodeWord, wfInstr, fence_zero, fence_scope]) h

/-- CMDW. -/
theorem cmdw (c : BitVec 3) (a b : Reg) : Statement (.cmdw c a b) := scalar rfl (by simp [decodeWord, zeroed])

/-- CMDLD. -/
theorem cmdld (c : BitVec 3) (a : Reg) (imm : BitVec 16) : Statement (.cmdld c a imm) := scalar rfl (by simp [decodeWord, zeroed])

/-- CMDI. -/
theorem cmdi (c : BitVec 3) (target : BitVec 12) : Statement (.cmdi c target) := scalar rfl (by simp [decodeWord, zeroed])

/-- CMDQ. -/
theorem cmdq (d a : Reg) (c : BitVec 3) : Statement (.cmdq d a c) := scalar rfl (by simp [decodeWord, zeroed, cmdq_cr])

/-- TSEND. -/
theorem tsend (a b : Reg) (box : BitVec 3) : Statement (.tsend a b box) := scalar rfl (by simp [decodeWord, zeroed, tsend_box])

/-- TRECV. -/
theorem trecv (d a : Reg) (box : BitVec 3) : Statement (.trecv d a box) := scalar rfl (by simp [decodeWord, zeroed, trecv_box])

/-- IWAIT. -/
theorem iwait (d a : Reg) (dom : BitVec 2) : Statement (.iwait d a dom) := scalar rfl (by simp [decodeWord, zeroed, iwait_dom])

/-- BARI. -/
theorem bari (a : Reg) (k : BitVec 4) : Statement (.bari a k) := scalar rfl (by simp [decodeWord, decodeBarrier, zeroed, barrier_k])

/-- BARA. -/
theorem bara (a : Reg) (k : BitVec 4) : Statement (.bara a k) := scalar rfl (by simp [decodeWord, decodeBarrier, zeroed, barrier_k])

/-- BARW. -/
theorem barw (d a : Reg) (k : BitVec 4) : Statement (.barw d a k) := scalar rfl (by simp [decodeWord, decodeBarrier, zeroed, barrier_k])

/-- BARAW. -/
theorem baraw (d a : Reg) (k : BitVec 4) : Statement (.baraw d a k) := scalar rfl (by simp [decodeWord, decodeBarrier, zeroed, barrier_k])

/-- SIG. -/
theorem sig (d a b : Reg) : Statement (.sig d a b) := scalar rfl (by simp [decodeWord, zeroed])

/-- SPAWN. -/
theorem spawn (d a : Reg) : Statement (.spawn d a) := scalar rfl (by simp [decodeWord, zeroed])

/-- JOIN. -/
theorem join (d a : Reg) : Statement (.join d a) := scalar rfl (by simp [decodeWord, zeroed])

/-- CSRR. -/
theorem csrr (d : Reg) (csr : BitVec 12) : Statement (.csrr d csr) := scalar rfl (by simp [decodeWord, decodeCsr, zeroed])

/-- CSRW. -/
theorem csrw (a : Reg) (csr : BitVec 12) : Statement (.csrw a csr) := scalar rfl (by simp [decodeWord, decodeCsr, zeroed])

/-- CSRS. -/
theorem csrs (a : Reg) (csr : BitVec 12) : Statement (.csrs a csr) := scalar rfl (by simp [decodeWord, decodeCsr, zeroed])

/-- CSRC. -/
theorem csrc (a : Reg) (csr : BitVec 12) : Statement (.csrc a csr) := scalar rfl (by simp [decodeWord, decodeCsr, zeroed])

/-- TRAP. -/
theorem trap (code : BitVec 12) : Statement (.trap code) := scalar rfl (by simp [decodeWord, zeroed])

/-- TRET. -/
theorem tret : Statement (.tret) := scalar rfl (by simp [decodeWord, zeroed])

/-- YIELD. -/
theorem yield : Statement (.yield) := scalar rfl (by simp [decodeWord, zeroed])

/-- SYNCI. -/
theorem synci : Statement (.synci) := scalar rfl (by simp [decodeWord, zeroed])

/-- BRK. -/
theorem brk (code : BitVec 12) : Statement (.brk code) := scalar rfl (by simp [decodeWord, zeroed])

/-- WATCHDOG. -/
theorem watchdog (core : Nat) : Statement (.watchdog core) := event rfl

/-- HOST_SERVICE_ANSWER. -/
theorem hostServiceAnswer (core : Nat) (answer : BitVec 64) : Statement (.hostServiceAnswer core answer) := event rfl

/-- FEED. -/
theorem feed (c : CmdArgs) : Statement (.feed c) := command rfl (by simp [decodeCommand])

/-- BINDW. -/
theorem bindw (c : CmdArgs) : Statement (.bindw c) := command rfl (by simp [decodeCommand])

/-- BOUND. -/
theorem bound (c : CmdArgs) : Statement (.bound c) := command rfl (by simp [decodeCommand])

/-- STEERT. -/
theorem steert (c : CmdArgs) : Statement (.steert c) := command rfl (by simp [decodeCommand])

/-- INJECT. -/
theorem inject (c : CmdArgs) : Statement (.inject c) := command rfl (by simp [decodeCommand])

/-- RETRY. -/
theorem retry (c : CmdArgs) : Statement (.retry c) := command rfl (by simp [decodeCommand])

/-- TARM. -/
theorem tarm (c : CmdArgs) : Statement (.tarm c) := command rfl (by simp [decodeCommand])

/-- TFIRE. -/
theorem tfire (c : CmdArgs) : Statement (.tfire c) := command rfl (by simp [decodeCommand])

/-- TDISARM. -/
theorem tdisarm (c : CmdArgs) : Statement (.tdisarm c) := command rfl (by simp [decodeCommand])

/-- COPY. -/
theorem copy (c : CmdArgs) : Statement (.copy c) := command rfl (by simp [decodeCommand])

/-- LXRUN. -/
theorem lxrun (c : CmdArgs) : Statement (.lxrun c) := command rfl (by simp [decodeCommand])

/-- CFGLD. -/
theorem cfgld (c : CmdArgs) : Statement (.cfgld c) := command rfl (by simp [decodeCommand])

/-- CFGQ. -/
theorem cfgq (c : CmdArgs) : Statement (.cfgq c) := command rfl (by simp [decodeCommand])

/-- DOMGO. -/
theorem domgo (c : CmdArgs) : Statement (.domgo c) := command rfl (by simp [decodeCommand])

/-- DOMSTOP. -/
theorem domstop (c : CmdArgs) : Statement (.domstop c) := command rfl (by simp [decodeCommand])

/-- DOMSAVE. -/
theorem domsave (c : CmdArgs) : Statement (.domsave c) := command rfl (by simp [decodeCommand])

/-- DOMLOAD. -/
theorem domload (c : CmdArgs) : Statement (.domload c) := command rfl (by simp [decodeCommand])

/-- WHEELDEF. -/
theorem wheeldef (c : CmdArgs) : Statement (.wheeldef c) := command rfl (by simp [decodeCommand])

/-- HUBRD. -/
theorem hubrd (c : CmdArgs) : Statement (.hubrd c) := command rfl (by simp [decodeCommand])

/-- AMXR. -/
theorem amxr (c : CmdArgs) : Statement (.amxr c) := command rfl (by simp [decodeCommand])

/-- CKPT. -/
theorem ckpt (c : CmdArgs) : Statement (.ckpt c) := command rfl (by simp [decodeCommand])

/-- CKDRAIN. -/
theorem ckdrain (c : CmdArgs) : Statement (.ckdrain c) := command rfl (by simp [decodeCommand])

/-- BKEY. -/
theorem bkey (c : CmdArgs) : Statement (.bkey c) := command rfl (by simp [decodeCommand])

/-- LINKCFG. -/
theorem linkcfg (c : CmdArgs) : Statement (.linkcfg c) := command rfl (by simp [decodeCommand])

/-- LINKSTAT. -/
theorem linkstat (c : CmdArgs) : Statement (.linkstat c) := command rfl (by simp [decodeCommand])

/-- DOMAIN_INSTANT_END. -/
theorem domainInstantEnd (region dom : Nat) : Statement (.domainInstantEnd region dom) := event rfl

/-- REMOTE_STATUS_RECEIVE. -/
theorem remoteStatusReceive (core endpoint : Nat) (parityLost : Bool) : Statement (.remoteStatusReceive core endpoint parityLost) := event rfl

/-- QUIESCENCE_SAMPLE. -/
theorem quiescenceSample (region : Nat) : Statement (.quiescenceSample region) := event rfl

/-- PATH_CLOCK_GATE. -/
theorem pathClockGate (core tile : Nat) : Statement (.pathClockGate core tile) := event rfl

/-- BANK_KEY_MOVE. -/
theorem bankKeyMove (core bank : Nat) : Statement (.bankKeyMove core bank) := event rfl

/-- PASS. -/
theorem pass (r : NodeRec) : Statement (.pass r) := node rfl rfl

/-- SRC. -/
theorem src (r : NodeRec) : Statement (.src r) := node rfl rfl

/-- SINK. -/
theorem sink (r : NodeRec) : Statement (.sink r) := node rfl rfl

/-- ESINK. -/
theorem esink (r : NodeRec) : Statement (.esink r) := node rfl rfl

/-- CPYT. -/
theorem cpyt (r : NodeRec) : Statement (.cpyt r) := node rfl rfl

/-- LTX. -/
theorem ltx (r : NodeRec) : Statement (.ltx r) := node rfl rfl

/-- LRX. -/
theorem lrx (r : NodeRec) : Statement (.lrx r) := node rfl rfl

/-- SREQ. -/
theorem sreq (r : NodeRec) : Statement (.sreq r) := node rfl rfl

/-- RED2. -/
theorem red2 (r : NodeRec) : Statement (.red2 r) := node rfl rfl

/-- STATW. -/
theorem statw (r : NodeRec) : Statement (.statw r) := node rfl rfl

/-- AADD. -/
theorem aadd (r : NodeRec) : Statement (.aadd r) := node rfl rfl

/-- ASUB. -/
theorem asub (r : NodeRec) : Statement (.asub r) := node rfl rfl

/-- AHAD. -/
theorem ahad (r : NodeRec) : Statement (.ahad r) := node rfl rfl

/-- AMAX. -/
theorem amax (r : NodeRec) : Statement (.amax r) := node rfl rfl

/-- AMIN. -/
theorem amin (r : NodeRec) : Statement (.amin r) := node rfl rfl

/-- ASEL. -/
theorem asel (r : NodeRec) : Statement (.asel r) := node rfl rfl

/-- AFMA. -/
theorem afma (r : NodeRec) : Statement (.afma r) := node rfl rfl

/-- ANEG. -/
theorem aneg (r : NodeRec) : Statement (.aneg r) := node rfl rfl

/-- AABS. -/
theorem aabs (r : NodeRec) : Statement (.aabs r) := node rfl rfl

/-- ARELU. -/
theorem arelu (r : NodeRec) : Statement (.arelu r) := node rfl rfl

/-- ASCL. -/
theorem ascl (r : NodeRec) : Statement (.ascl r) := node rfl rfl

/-- AMASK. -/
theorem amask (r : NodeRec) : Statement (.amask r) := node rfl rfl

/-- ACLMP. -/
theorem aclmp (r : NodeRec) : Statement (.aclmp r) := node rfl rfl

/-- AREN. -/
theorem aren (r : NodeRec) : Statement (.aren r) := node rfl rfl

/-- AEXP2. -/
theorem aexp2 (r : NodeRec) : Statement (.aexp2 r) := node rfl rfl

/-- ALOG2. -/
theorem alog2 (r : NodeRec) : Statement (.alog2 r) := node rfl rfl

/-- ARCP. -/
theorem arcp (r : NodeRec) : Statement (.arcp r) := node rfl rfl

/-- ARSQ. -/
theorem arsq (r : NodeRec) : Statement (.arsq r) := node rfl rfl

/-- ASQRT. -/
theorem asqrt (r : NodeRec) : Statement (.asqrt r) := node rfl rfl

/-- ATANH. -/
theorem atanh (r : NodeRec) : Statement (.atanh r) := node rfl rfl

/-- ASIGM. -/
theorem asigm (r : NodeRec) : Statement (.asigm r) := node rfl rfl

/-- ADOT_W. -/
theorem adotW (r : NodeRec) : Statement (.adotW r) := fun h => node rfl (by simpa [decodeNodeOp, wfInstr] using h) h

/-- ADOT_P. -/
theorem adotP (r : NodeRec) : Statement (.adotP r) := fun h => node rfl (by simpa [decodeNodeOp, wfInstr] using h) h

/-- ADOTT. -/
theorem adott (r : NodeRec) : Statement (.adott r) := node rfl rfl

/-- AOUTR. -/
theorem aoutr (r : NodeRec) : Statement (.aoutr r) := node rfl rfl

/-- ANRM. -/
theorem anrm (r : NodeRec) : Statement (.anrm r) := node rfl rfl

/-- ALSUM. -/
theorem alsum (r : NodeRec) : Statement (.alsum r) := node rfl rfl

/-- AMAXR. -/
theorem amaxr (r : NodeRec) : Statement (.amaxr r) := node rfl rfl

/-- ENC. -/
theorem enc (r : NodeRec) : Statement (.enc r) := node rfl rfl

/-- DEC. -/
theorem dec (r : NodeRec) : Statement (.dec r) := node rfl rfl

/-- ACC. -/
theorem acc (r : NodeRec) : Statement (.acc r) := fun h => node rfl (by simpa [decodeNodeOp, wfInstr] using h) h

/-- ACC_F. -/
theorem accF (r : NodeRec) : Statement (.accF r) := fun h => node rfl (by simpa [decodeNodeOp, wfInstr] using h) h

/-- ACCK. -/
theorem acck (r : NodeRec) : Statement (.acck r) := node rfl rfl

/-- DRAIN. -/
theorem drain (r : NodeRec) : Statement (.drain r) := node rfl rfl

/-- DLYB. -/
theorem dlyb (r : NodeRec) : Statement (.dlyb r) := node rfl rfl

/-- CONV. -/
theorem conv (r : NodeRec) : Statement (.conv r) := node rfl rfl

/-- MRD. -/
theorem mrd (r : NodeRec) : Statement (.mrd r) := node rfl rfl

/-- MWR. -/
theorem mwr (r : NodeRec) : Statement (.mwr r) := node rfl rfl

/-- MIRD. -/
theorem mird (r : NodeRec) : Statement (.mird r) := node rfl rfl

/-- MIWR. -/
theorem miwr (r : NodeRec) : Statement (.miwr r) := node rfl rfl

/-- MRMW. -/
theorem mrmw (r : NodeRec) : Statement (.mrmw r) := node rfl rfl

/-- MGRP. -/
theorem mgrp (r : NodeRec) : Statement (.mgrp r) := node rfl rfl

/-- MGLD. -/
theorem mgld (r : NodeRec) : Statement (.mgld r) := node rfl rfl

/-- MGST. -/
theorem mgst (r : NodeRec) : Statement (.mgst r) := node rfl rfl

/-- MFIFO. -/
theorem mfifo (r : NodeRec) : Statement (.mfifo r) := node rfl rfl

/-- MLINE. -/
theorem mline (r : NodeRec) : Statement (.mline r) := node rfl rfl

/-- STEER. -/
theorem steer (r : NodeRec) : Statement (.steer r) := node rfl rfl

/-- OMERGE. -/
theorem omerge (r : NodeRec) : Statement (.omerge r) := node rfl rfl

/-- PMERGE. -/
theorem pmerge (r : NodeRec) : Statement (.pmerge r) := node rfl rfl

/-- FILTER. -/
theorem filter (r : NodeRec) : Statement (.filter r) := node rfl rfl

/-- REPL. -/
theorem repl (r : NodeRec) : Statement (.repl r) := node rfl rfl

/-- CNT. -/
theorem cnt (r : NodeRec) : Statement (.cnt r) := node rfl rfl

/-- ISECT. -/
theorem isect (r : NodeRec) : Statement (.isect r) := node rfl rfl

/-- UNION. -/
theorem union (r : NodeRec) : Statement (.union r) := node rfl rfl

/-- PRES. -/
theorem pres (r : NodeRec) : Statement (.pres r) := node rfl rfl

/-- DFLT. -/
theorem dflt (r : NodeRec) : Statement (.dflt r) := node rfl rfl

/-- PRE. -/
theorem pre (r : NodeRec) : Statement (.pre r) := node rfl rfl

/-- WHEN. -/
theorem when (r : NodeRec) : Statement (.when r) := node rfl rfl

/-- SYNC. -/
theorem sync (r : NodeRec) : Statement (.sync r) := node rfl rfl

/-- LEVEL. -/
theorem level (r : NodeRec) : Statement (.level r) := node rfl rfl

/-- IADD. -/
theorem iadd (r : NodeRec) : Statement (.iadd r) := node rfl rfl

/-- ISUB. -/
theorem isub (r : NodeRec) : Statement (.isub r) := node rfl rfl

/-- IMUL. -/
theorem imul (r : NodeRec) : Statement (.imul r) := node rfl rfl

/-- ILOG. -/
theorem ilog (r : NodeRec) : Statement (.ilog r) := node rfl rfl

/-- ISHF. -/
theorem ishf (r : NodeRec) : Statement (.ishf r) := node rfl rfl

/-- ICMP. -/
theorem icmp (r : NodeRec) : Statement (.icmp r) := node rfl rfl

/-- IRNG. -/
theorem irng (r : NodeRec) : Statement (.irng r) := node rfl rfl

/-- IHASH. -/
theorem ihash (r : NodeRec) : Statement (.ihash r) := node rfl rfl

/-- PLOG. -/
theorem plog (r : NodeRec) : Statement (.plog r) := node rfl rfl

/-- COPY_START. -/
theorem copyStart (core : Nat) : Statement (.copyStart core) := event rfl

/-- COPY_COMPLETE. -/
theorem copyComplete (core : Nat) : Statement (.copyComplete core) := event rfl

/-- END_OF_TILE_DELIVERY. -/
theorem endOfTileDelivery (core : Nat) : Statement (.endOfTileDelivery core) := event rfl

/-- PAGE_WALK_COMPLETE. -/
theorem pageWalkComplete (die part page : Nat) : Statement (.pageWalkComplete die part page) := event rfl

/-- TLB_INVALIDATION. -/
theorem tlbInvalidation (part : Nat) : Statement (.tlbInvalidation part) := event rfl

/-- CHECKPOINT_DRAIN_COMPLETE. -/
theorem checkpointDrainComplete (part slot : Nat) : Statement (.checkpointDrainComplete part slot) := event rfl

/-- HUB_READ. -/
theorem hubRead (core : Nat) : Statement (.hubRead core) := event rfl

/-- BARRIER_ARRIVAL. -/
theorem barrierArrival (src home k : Nat) : Statement (.barrierArrival src home k) := event rfl

/-- SIGNAL_ARRIVAL. -/
theorem signalArrival (src : Nat) : Statement (.signalArrival src) := event rfl

/-- QUEUE_RECORD_WRITE. -/
theorem queueRecordWrite (q : QueueAccess) (whole : Bool) (record : BitVec 512) : Statement (.queueRecordWrite q whole record) := event rfl

/-- QKILL. -/
theorem qkill (q : QueueAccess) (handle : BitVec 32) : Statement (.qkill q handle) := event rfl

/-- QERR_CLEAR. -/
theorem qerrClear (q : QueueAccess) (ones : BitVec 64) : Statement (.qerrClear q ones) := event rfl

/-- HOST_EVENT_WRITE. -/
theorem hostEventWrite (part word : Nat) (value : BitVec 64) : Statement (.hostEventWrite part word value) := event rfl

/-- TASK_START. -/
theorem taskStart : Statement (.taskStart) := event rfl

/-- COMPLETION_EVENT_POST. -/
theorem completionEventPost (task : Nat) : Statement (.completionEventPost task) := event rfl

/-- PREEMPT. -/
theorem preempt (order : StopOrder) : Statement (.preempt order) := event rfl

/-- DEEP_SAVE_TIMEOUT. -/
theorem deepSaveTimeout (team : Nat) : Statement (.deepSaveTimeout team) := event rfl

/-- RESUME. -/
theorem resume (team : Nat) : Statement (.resume team) := event rfl

/-- TAGGED_BANK_EVICT. -/
theorem taggedBankEvict (core bank : Nat) : Statement (.taggedBankEvict core bank) := event rfl

/-- CORRECTED_ERROR. -/
theorem correctedError (site : ErrorSite) : Statement (.correctedError site) := event rfl

/-- ERROR_WINDOW_END. -/
theorem errorWindowEnd : Statement (.errorWindowEnd) := event rfl

/-- BANK_RETIRE. -/
theorem bankRetire (core bank : Nat) : Statement (.bankRetire core bank) := event rfl

/-- CORE_FAILED. -/
theorem coreFailed (core : Nat) : Statement (.coreFailed core) := event rfl

/-- DATA_FLIT_RECEIVE. -/
theorem dataFlitReceive (port : Nat) (flit : BitVec 512) (damaged : Bool) : Statement (.dataFlitReceive port flit damaged) := event rfl

/-- ACK_RECEIVE. -/
theorem ackReceive (port : Nat) (flit : BitVec 512) : Statement (.ackReceive port flit) := event rfl

/-- REPLAY_REQUEST_RECEIVE. -/
theorem replayRequestReceive (port : Nat) (flit : BitVec 512) : Statement (.replayRequestReceive port flit) := event rfl

/-- CREDIT_RECEIVE. -/
theorem creditReceive (port : Nat) (flit : BitVec 512) : Statement (.creditReceive port flit) := event rfl

/-- PORT_DOWN. -/
theorem portDown (port : Nat) : Statement (.portDown port) := event rfl

/-- PORT_RETRAIN. -/
theorem portRetrain (port : Nat) : Statement (.portRetrain port) := event rfl

/-- PARTITION_RESET. -/
theorem partitionReset (part : Nat) : Statement (.partitionReset part) := event rfl

/-- RESET_DONE_CLEAR. -/
theorem resetDoneClear (part : Nat) : Statement (.resetDoneClear part) := event rfl

/-- CORE_REPAIR_TEST. -/
theorem coreRepairTest (core : Nat) (passed : Bool) : Statement (.coreRepairTest core passed) := event rfl

/-- RETAG. -/
theorem retag (what : RetagSite) : Statement (.retag what) := event rfl

/-- REGISTER_WRITE. -/
theorem registerWrite (offset : Nat) (value : BitVec 64) (privileged : Bool) : Statement (.registerWrite offset value privileged) := event rfl

/-- BOUNDARY_DROP. -/
theorem boundaryDrop (core route : Nat) : Statement (.boundaryDrop core route) := event rfl

/-- FIRMWARE_SWITCH. -/
theorem firmwareSwitch (part : Nat) : Statement (.firmwareSwitch part) := event rfl

/-- BOOT. -/
theorem boot (image : FirmwareImage) : Statement (.boot image) := event rfl

/-- ATTESTATION_REQUEST. -/
theorem attestationRequest (nonce : BitVec 256) (part : Nat) : Statement (.attestationRequest nonce part) := event rfl

/-- POWER_STATE_REQUEST. -/
theorem powerStateRequest (core : Nat) (state : BitVec 2) : Statement (.powerStateRequest core state) := event rfl

/-- POWER_REFUSAL_CLEAR. -/
theorem powerRefusalClear (core : Nat) : Statement (.powerRefusalClear core) := event rfl

/-- CLOCK_STEP_CHANGE. -/
theorem clockStepChange (clk : BitVec 2) : Statement (.clockStepChange clk) := event rfl

/-- SELF_REFRESH_ENTER. -/
theorem selfRefreshEnter : Statement (.selfRefreshEnter) := event rfl

/-- SELF_REFRESH_EXIT. -/
theorem selfRefreshExit : Statement (.selfRefreshExit) := event rfl

/-- ILLEGAL_INSTRUCTION. -/
theorem illegalInstruction (word : BitVec 32) : Statement (.illegalInstruction word) := by
  intro _ _ h
  have h := h word rfl
  simp only [encode, decodeCode]
  cases hd : decodeWord word with
  | ok i => simp [hd, Except.toOption] at h
  | error e => rfl

/-- INSTRUCTION_FETCH_FAULT. -/
theorem instructionFetchFault (translation : Bool) : Statement (.instructionFetchFault translation) := event rfl

/-- UNASSIGNED_COMMAND_CODE. -/
theorem unassignedCommandCode (code : BitVec 8) (c : CmdArgs) : Statement (.unassignedCommandCode code c) := by
  intro h _ _
  have h : code.toNat ∉ commandCodes := by simpa [wfInstr] using h
  simp only [encode, encCmd, decodeCode, decodeCommand, commandWord_code, commandArgs_commandWord, Option.some.injEq]
  split <;> first | rfl | (exfalso; simp_all [commandCodes])

/-- FIRMWARE_UPDATE. -/
theorem firmwareUpdate (image : FirmwareImage) : Statement (.firmwareUpdate image) := event rfl

/-- SYSTEM_SOFTWARE_PAGE_ANSWER. -/
theorem systemSoftwarePageAnswer (core : Nat) (answer : Option (List (Nat × BitVec 64))) : Statement (.systemSoftwarePageAnswer core answer) := event rfl

/-- UNKNOWN_FLIT_TYPE_RECEIVE. -/
theorem unknownFlitTypeReceive (port : Nat) (flit : BitVec 512) : Statement (.unknownFlitTypeReceive port flit) := event rfl

end Sys2Proof.Laws.RoundTrip
end

