-- ==== Sys2Proof/Safety.lean ====
section
/-!
DEFINITION. What a safe state and a safe run are, and the terms claims are stated in: an answer that is a next state, and
what a next state leaves as it was.
-/

namespace Sys2Proof

/-- The memory of the state is in its one canonical form: addresses rising, no byte listed that an unlisted address reads as. -/
def Machine.State.Canonical (s : Machine.State) : Prop := Machine.Memory.wf s.mem = true

/-- A step from the state ends in a next state. -/
def SafeStep (s : Machine.State) : Prop := ∃ t, core.step s = .next t

/-- A run of k steps from the state meets no fault and no refusal. -/
def SafeRun (k : Nat) (s : Machine.State) : Prop := ∃ t, core.run k s = .next t

/-- Every turn on the agenda is of an agent, or is an event, that the package has. -/
def Machine.State.AgendaOk (s : Machine.State) : Prop := s.agenda.all Machine.Turn.exists_ = true

namespace Claim

open Machine

/-- The answer is a next state, and that state is as P says. -/
def Next (o : Host.Outcome State Fault Refusal) (P : State → Prop) : Prop := ∃ t, o = .next t ∧ P t

/-- Every byte of memory, physical and scratchpad, reads as before. -/
def SameBytes (s t : State) : Prop := ∀ a, readCell t.mem a = readCell s.mem a

/-- Every byte of memory outside n bytes from an address on reads as before. -/
def BytesBut (a n : Nat) (s t : State) : Prop := ∀ k, k < a ∨ a + n ≤ k → readCell t.mem k = readCell s.mem k

/-- Apart from memory and its uncorrectable words, only the controller of the core whose turn it is may differ. -/
def MeAndMemory (s t : State) : Prop :=
  t = { s with cores := t.cores, mem := t.mem, bad := t.bad } ∧ (∀ q, q ≠ s.here → t.coreAt q = s.coreAt q) ∧
  t.coreAt s.here = { s.coreAt s.here with ctl := t.me }

/-- Only the controller of the core whose turn it is may differ. -/
def OnlyMe (s t : State) : Prop := MeAndMemory s t ∧ t.mem = s.mem ∧ t.bad = s.bad

/-- Of a controller only the general registers, ip and INSTRET may differ. -/
def OnlyRegs (c k : Ctl) : Prop := k = { c with regs := k.regs, ip := k.ip, instret := k.instret }

/-- Every general register but one is as before. -/
def RegsBut (d : Reg) (c k : Ctl) : Prop := ∀ r : Reg, r ≠ d → k.regs[r.toNat] = c.regs[r.toNat]

/-- What an instruction that writes a value to register d and completes leaves: the value in d, unless d is s0, which reads as
zero; ip four on, INSTRET one on; every other register, all else of the controller, every other core, all memory and the rest
of the package as before. -/
def Sets (d : Reg) (v : BitVec 64) (s t : State) : Prop :=
  OnlyMe s t ∧ SameBytes s t ∧ OnlyRegs s.me t.me ∧ RegsBut d s.me t.me ∧ t.reg d = (if d = 0 then 0 else v) ∧
  t.me.ip = s.me.ip + 4 ∧ t.me.instret = s.me.instret + 1

/-- What an instruction that writes no register and leaves ip at a target leaves. -/
def Goes (target : BitVec 64) (s t : State) : Prop :=
  OnlyMe s t ∧ SameBytes s t ∧ OnlyRegs s.me t.me ∧ t.me.regs = s.me.regs ∧ t.me.ip = target ∧
  t.me.instret = s.me.instret + 1

/-- No controller but that of the core whose turn it is may differ. -/
def OnlyCtl (s t : State) : Prop := ∀ q, q ≠ s.here → t.ctlAt q = s.ctlAt q

/-- What an access to memory leaves of the controllers: every other core's as it was, and of its own all but the general
registers, ip, INSTRET and the data cache. -/
def OnlyAccess (s t : State) : Prop :=
  OnlyCtl s t ∧
  t.me = { s.me with regs := t.me.regs, ip := t.me.ip, instret := t.me.instret, dcache := t.me.dcache }

/-! ### Forms of the memory instructions (R219, R221) -/

/-- The loads. -/
inductive LoadForm where
  | ldb | ldbu | ldh | ldhu | ldw | ldwu | ldd
  deriving DecidableEq, Repr

/-- A load as an instruction. -/
def LoadForm.instr (d a : Reg) (imm : BitVec 16) : LoadForm → Instr
  | .ldb => .ldb d a imm
  | .ldbu => .ldbu d a imm
  | .ldh => .ldh d a imm
  | .ldhu => .ldhu d a imm
  | .ldw => .ldw d a imm
  | .ldwu => .ldwu d a imm
  | .ldd => .ldd d a imm

/-- The bytes a load reads. -/
def LoadForm.bytes : LoadForm → Nat
  | .ldb | .ldbu => 1
  | .ldh | .ldhu => 2
  | .ldw | .ldwu => 4
  | .ldd => 8

/-- Whether a load extends the sign. -/
def LoadForm.signed : LoadForm → Bool
  | .ldb | .ldh | .ldw => true
  | _ => false

/-- A value loaded from a memory at a key: its bytes from the lowest up, then the sign or zeros. -/
def LoadedFrom (m : Memory) (k : Nat) (f : LoadForm) (v : BitVec 64) : Prop :=
  (∀ i, i < f.bytes → v.extractLsb' (8 * i) 8 = readCell m (k + i)) ∧
  (∀ j, 8 * f.bytes ≤ j → j < 64 → v.getLsbD j = (f.signed && v.getLsbD (8 * f.bytes - 1)))

/-- The stores. -/
inductive StoreForm where
  | stb | sth | stw | std
  deriving DecidableEq, Repr

/-- A store as an instruction. -/
def StoreForm.instr (r a : Reg) (imm : BitVec 16) : StoreForm → Instr
  | .stb => .stb r a imm
  | .sth => .sth r a imm
  | .stw => .stw r a imm
  | .std => .std r a imm

/-- The bytes a store writes. -/
def StoreForm.bytes : StoreForm → Nat
  | .stb => 1
  | .sth => 2
  | .stw => 4
  | .std => 8

/-- The atomics. -/
inductive AmoForm where
  | add | swap | cas | min | max | minu | maxu | and | or | xor
  deriving DecidableEq, Repr

/-- An atomic as an instruction. -/
def AmoForm.instr (d a b : Reg) (scope : BitVec 3) (narrow : Bool) : AmoForm → Instr
  | .add => .amoadd d a b scope narrow
  | .swap => .amoswap d a b scope narrow
  | .cas => .amocas d a b scope narrow
  | .min => .amomin d a b scope narrow
  | .max => .amomax d a b scope narrow
  | .minu => .amominu d a b scope narrow
  | .maxu => .amomaxu d a b scope narrow
  | .and => .amoand d a b scope narrow
  | .or => .amoor d a b scope narrow
  | .xor => .amoxor d a b scope narrow

/-- The new value of an atomic from the old one, sb and sd (R221). -/
def AmoForm.new {w : Nat} (old b d : BitVec w) : AmoForm → BitVec w
  | .add => old + b
  | .swap => b
  | .cas => if old = d then b else old
  | .min => if old.sle b then old else b
  | .max => if old.sle b then b else old
  | .minu => if old.ule b then old else b
  | .maxu => if old.ule b then b else old
  | .and => old &&& b
  | .or => old ||| b
  | .xor => old ^^^ b

end Claim

/-- The memory key at which a located access takes place. -/
def Machine.Loc.place : Machine.Loc → Option Nat
  | .key k => some k
  | .line pa _ _ => some pa
  | _ => none

/-- Whether a located access goes to a granule marked copy-on-write (R365). -/
def Machine.Loc.cow : Machine.Loc → Bool
  | .line _ _ pte => Machine.pteCow pte
  | _ => false

/-- The state in which a write to a located place is performed: its granule copied first where it is marked copy-on-write
(R365). -/
def Machine.State.split (s : Machine.State) (l : Machine.Loc) : Option Machine.State :=
  match l with
  | .line pa va pte => if Machine.pteCow pte then s.cowBefore (s.partOf s.here) va pa else some s
  | _ => some s

namespace Claim

open Machine

/-! ### Commands (R244, R246) -/

/-- Every check of a command holds. -/
def Passes (l : List Chk) : Prop := ∀ x ∈ l, x.ok = true

/-- The command q at the head of the unit whose turn it is has taken effect with a result word: it has left the queue, the CMDQ
that waits for it has its answer (R227), be it the pending wait or one that a trap keeps (R238), and every controller stands where it
stood. -/
def Finished (q : QCmd) (result : BitVec 64) (s t : State) : Prop :=
  (t.coreAt s.here).unit = (s.coreAt s.here).unit.drop 1 ∧
  (t.ctlAt q.issuer).pend =
    (if q.viaQ then (s.ctlAt q.issuer).pend.answer q.seq result else (s.ctlAt q.issuer).pend) ∧
  (t.ctlAt q.issuer).kept =
    (if q.viaQ then (s.ctlAt q.issuer).kept.map (Pend.answer q.seq result) else (s.ctlAt q.issuer).kept) ∧
  ∀ p, (t.ctlAt p).regs = (s.ctlAt p).regs ∧ (t.ctlAt p).ip = (s.ctlAt p).ip

/-- The header of a rejection's error token: kind 2, level 0, the code in aux [7:0] and the word in aux [13:8] (R115, R246). -/
def errHeader (code word : Nat) : BitVec 32 := mkHdr 2 0 0 0 (code % 256 + word % 64 * 256)

/-! ### Nodes (R119–R125, R129, R130) -/

/-- The node whose turn it is, of an opcode with record r, may finish its instant: it may react, none of its own state has been found
uncorrectable, both outputs can take a status, every input it reads is resolved; the inputs stand at i. -/
def Ready (op : Nat) (r : NodeRec) (s : State) (n : Node) (i : Ins) : Prop :=
  s.nodeHere op r = some n ∧ s.mayFire s.here n = true ∧ n.broken = false ∧ s.outRoom2 s.here n = true ∧
  (∀ k, k < 4 → (s.input s.here s.slot n k).known = true) ∧
  i = { a := (s.input s.here s.slot n 0).get, b := (s.input s.here s.slot n 1).get, c := (s.input s.here s.slot n 2).get }

/-- An instruction ends the instant of the node n, whose turn it is, with a reaction q, in the package as z. -/
def FiresIn (i : Instr) (s z : State) (n : Node) (q : React) : Prop := exec i s = .next (z.settle s.here s.slot n q true)

/-- An instruction ends the instant of the node n, whose turn it is, with a reaction q, and touches nothing else. -/
def Fires (i : Instr) (s : State) (n : Node) (q : React) : Prop := FiresIn i s s n q

/-- What an instant of a node leaves as it was: all but the configurations of cores, their gated tiles, and what regions keep of
their domains' instants. -/
def NodeFrame (s t : State) : Prop :=
  t = { s with cores := t.cores, regions := t.regions } ∧
  (∀ p, t.coreAt p = { s.coreAt p with cfg := (t.coreAt p).cfg, gated := (t.coreAt p).gated }) ∧
  ∀ k g, tget s.regions k = some g → ∃ h, tget t.regions k = some h ∧ h = { g with fired := h.fired, doms := h.doms } ∧
    h.doms.map (fun (d : Dom) => { d with live := [] }) = g.doms.map (fun (d : Dom) => { d with live := [] })

/-- The nodes that wait for every input before they react (R120), with their opcodes. -/
def strictNodes (r : NodeRec) : List (Nat × Instr) :=
  [(0x00, .pass r), (0x02, .sink r), (0x03, .esink r), (0x04, .cpyt r), (0x10, .aadd r), (0x11, .asub r), (0x12, .ahad r), (0x13, .amax r),
   (0x14, .amin r), (0x15, .asel r), (0x16, .afma r), (0x20, .aneg r), (0x21, .aabs r), (0x22, .arelu r), (0x23, .ascl r), (0x24, .amask r),
   (0x25, .aclmp r), (0x26, .aren r), (0x28, .aexp2 r), (0x29, .alog2 r), (0x2A, .arcp r), (0x2B, .arsq r), (0x2C, .asqrt r),
   (0x2D, .atanh r), (0x2E, .asigm r), (0x30, .adotW r), (0x30, .adotP r), (0x31, .adott r), (0x32, .aoutr r), (0x33, .anrm r),
   (0x34, .alsum r), (0x35, .amaxr r), (0x40, .acc r), (0x40, .accF r), (0x41, .acck r), (0x42, .drain r), (0x43, .dlyb r), (0x44, .conv r),
   (0x50, .enc r), (0x51, .dec r), (0x60, .steer r), (0x63, .filter r), (0x64, .repl r), (0x65, .cnt r), (0x66, .isect r), (0x67, .union r),
   (0x6B, .when r), (0x6D, .level r), (0x70, .iadd r), (0x71, .isub r), (0x72, .imul r), (0x73, .ilog r), (0x74, .ishf r), (0x75, .icmp r),
   (0x76, .irng r), (0x77, .ihash r), (0x78, .plog r), (0x81, .mwr r), (0x82, .mird r), (0x83, .miwr r), (0x84, .mrmw r), (0x85, .mgrp r),
   (0x87, .mgst r), (0x89, .mline r), (0x90, .ltx r), (0x92, .sreq r), (0x93, .red2 r), (0x94, .statw r)]

/-- A burst of data (R116). -/
def IsData (b : Burst) : Prop := hdrKind b.hdr = 0

/-- The element-wise binary nodes: opcode, instruction, and the function of two lanes (R81). -/
def binaryNodes (r : NodeRec) : List (Nat × Instr × (XVal → XVal → XVal)) :=
  [(0x10, .aadd r, xAdd), (0x11, .asub r, fun x y => xAdd x (xNeg y)), (0x12, .ahad r, xMul), (0x13, .amax r, xMax), (0x14, .amin r, xMin)]

/-- The unary nodes: opcode, instruction, and the function of lane k with its flags (R85, R86). -/
def unaryNodes (r : NodeRec) : List (Nat × Instr × (Nat → XVal → XVal × Flg)) :=
  [(0x20, .aneg r, fun _ x => (xNeg x, {})), (0x21, .aabs r, fun _ x => (xAbs x, {})), (0x22, .arelu r, fun _ x => (xMax x xzero, {})),
   (0x23, .ascl r, fun _ x => (xMul x (binVal fp32 r.k0.toNat), {})),
   (0x24, .amask r, fun k x => (if r.k0.getLsbD k then xzero else x, {})),
   (0x25, .aclmp r, fun _ x => (xMin (xMax x (binVal fp32 r.k0.toNat)) (binVal fp32 r.k1.toNat), {})),
   (0x28, .aexp2 r, fun _ => onFinite fnExp2), (0x29, .alog2 r, fun _ => onFinite fnLog2), (0x2A, .arcp r, fun _ => onFinite fnRcp),
   (0x2B, .arsq r, fun _ => onFinite fnRsq), (0x2C, .asqrt r, fun _ => onFinite fnSqrt), (0x2D, .atanh r, fun _ => onFinite fnTanh),
   (0x2E, .asigm r, fun _ => onFinite fnSigm)]

/-- The binary index nodes on tokens: opcode, instruction, output format, and the function of two tokens with its flags
(R164). -/
def indexNodes (r : NodeRec) : List (Nat × Instr × Nat × (Nat → Nat → Nat × Flg)) :=
  [(0x70, .iadd r, 0x21, fun a b => indexFit (r.var.getLsbD 2) ((a : Int) + b)),
   (0x71, .isub r, 0x21, fun a b => indexFit (r.var.getLsbD 2) ((a : Int) - b)),
   (0x72, .imul r, 0x21, fun a b => indexFit (r.var.getLsbD 2) ((a : Int) * b)),
   (0x73, .ilog r, 0x21, indexTruth 32 r), (0x74, .ishf r, 0x21, indexShift r), (0x75, .icmp r, 0x20, indexCond r)]

/-! ### The CSRs of R211 -/

/-- The CSRs that team mode may read. -/
def csrTeam : List (BitVec 12) :=
  [0x010, 0x011, 0x012, 0x013, 0x014, 0x020, 0x021, 0x022, 0x023, 0x028, 0x029, 0x030, 0x031, 0x032]

/-- The CSRs of firmware mode alone. -/
def csrFirmware : List (BitVec 12) := [0x018, 0x040, 0x041, 0x042, 0x043, 0x044, 0x045, 0x046]

/-- The CSRs that team mode may write. -/
def csrTeamRw : List (BitVec 12) := [0x020, 0x023, 0x031]

/-- The CSRs that firmware mode alone may write. -/
def csrFirmwareRw : List (BitVec 12) := [0x040, 0x041, 0x042, 0x043, 0x044, 0x045, 0x046]

/-- What a CSR reads as after a value is written to it (R211). -/
def csrMask (n : BitVec 12) (v : BitVec 64) : BitVec 64 :=
  if n = 0x020 then 0x8000000000000000 ||| (v &&& 0x00000000003FFF00)
  else if n = 0x023 ∨ n = 0x046 then v &&& 0x00000000FFFFFFFF
  else if n = 0x031 then v &&& 0xF
  else if n = 0x040 then v &&& 0x3
  else if n = 0x041 then v &&& 0xFFFFFFFFFFFFFFFC
  else v

end Claim

end Sys2Proof
end

