-- ==== Sys2Proof/Certificates/Slice0/Obligations.lean ====
section
/-!
DEFINITION. The statements for the provers: what the rules of the spec say that instructions and the machine do.
-/

open Sys2Proof Sys2Proof.Machine Sys2Proof.Claim

/-- R214, R215, R205: s0 reads as zero. Each register instruction ends in a next state in which sd holds the value of its row,
modulo 2^64, and nothing else has changed but ip and INSTRET: none traps. Shift distances are the low six bits of sb. CLZ, CTZ
and POPC count the leading zeros, the trailing zeros and the set bits of sa (the first two 64 for zero), and their word has sb
zero. The words are op 0x00 with the fn of the table. A zero divisor gives all ones as the quotient and the dividend as the
remainder; −2^63 / −1 is −2^63 with remainder 0. -/
def Obligations.RegisterArithmetic : Prop := ∀ (d a b : Reg) (s : State),
  let x := s.reg a
  let y := s.reg b
  let sh := (y.extractLsb' 0 6).toNat
  s.reg 0 = 0 ∧
  Next (exec (.add d a b) s) (Sets d (x + y) s) ∧
  Next (exec (.sub d a b) s) (Sets d (x - y) s) ∧
  Next (exec (.and d a b) s) (Sets d (x &&& y) s) ∧
  Next (exec (.or d a b) s) (Sets d (x ||| y) s) ∧
  Next (exec (.xor d a b) s) (Sets d (x ^^^ y) s) ∧
  Next (exec (.sll d a b) s) (Sets d (x <<< sh) s) ∧
  Next (exec (.srl d a b) s) (Sets d (x >>> sh) s) ∧
  Next (exec (.sra d a b) s) (Sets d (x.sshiftRight sh) s) ∧
  Next (exec (.slt d a b) s) (Sets d (if x.slt y then 1 else 0) s) ∧
  Next (exec (.sltu d a b) s) (Sets d (if x.ult y then 1 else 0) s) ∧
  Next (exec (.mul d a b) s) (Sets d (x * y) s) ∧
  Next (exec (.mulh d a b) s) (Sets d ((x.signExtend 128 * y.signExtend 128).extractLsb' 64 64) s) ∧
  Next (exec (.mulhu d a b) s) (Sets d ((x.zeroExtend 128 * y.zeroExtend 128).extractLsb' 64 64) s) ∧
  Next (exec (.div d a b) s) (Sets d (if y = 0 then BitVec.allOnes 64 else x.sdiv y) s) ∧
  Next (exec (.divu d a b) s) (Sets d (if y = 0 then BitVec.allOnes 64 else x / y) s) ∧
  Next (exec (.rem d a b) s) (Sets d (if y = 0 then x else x.srem y) s) ∧
  Next (exec (.remu d a b) s) (Sets d (if y = 0 then x else x % y) s) ∧
  Next (exec (.min d a b) s) (Sets d (if x.sle y then x else y) s) ∧
  Next (exec (.max d a b) s) (Sets d (if x.sle y then y else x) s) ∧
  Next (exec (.minu d a b) s) (Sets d (if x.ule y then x else y) s) ∧
  Next (exec (.maxu d a b) s) (Sets d (if x.ule y then y else x) s) ∧
  (∃ n : Nat, Next (exec (.clz d a) s) (Sets d (BitVec.ofNat 64 n) s) ∧
    (x = 0 → n = 64) ∧ (x ≠ 0 → n < 64 ∧ x.getLsbD (63 - n) = true ∧ ∀ i, 63 - n < i → x.getLsbD i = false)) ∧
  (∃ n : Nat, Next (exec (.ctz d a) s) (Sets d (BitVec.ofNat 64 n) s) ∧
    (x = 0 → n = 64) ∧ (x ≠ 0 → n < 64 ∧ x.getLsbD n = true ∧ ∀ i, i < n → x.getLsbD i = false)) ∧
  Next (exec (.popc d a) s) (Sets d (BitVec.ofNat 64 ((List.finRange 64).filter (fun i => x.getLsbD i.val)).length) s) ∧
  (∀ w, decodeWord w = .ok (.clz d a) ∨ decodeWord w = .ok (.ctz d a) ∨ decodeWord w = .ok (.popc d a) →
    w.extractLsb' 11 5 = 0) ∧
  (∀ x ∈ [(Instr.add d a b, 0x000#11), (.sub d a b, 0x001), (.and d a b, 0x002), (.or d a b, 0x003), (.xor d a b, 0x004), (.sll d a b, 0x005),
      (.srl d a b, 0x006), (.sra d a b, 0x007), (.slt d a b, 0x008), (.sltu d a b, 0x009), (.mul d a b, 0x00A), (.mulh d a b, 0x00B),
      (.mulhu d a b, 0x00C), (.div d a b, 0x00D), (.divu d a b, 0x00E), (.rem d a b, 0x00F), (.remu d a b, 0x010), (.min d a b, 0x011),
      (.max d a b, 0x012), (.minu d a b, 0x013), (.maxu d a b, 0x014)], encode x.1 = .scalar (0x00#6 ++ d ++ a ++ (b ++ x.2))) ∧
  (∀ x ∈ [(Instr.clz d a, 0x015#11), (.ctz d a, 0x016), (.popc d a, 0x017)], encode x.1 = .scalar (0x00#6 ++ d ++ a ++ (0#5 ++ x.2)))

/-- R216: the immediate instructions, with a signed immediate for ADDI, SLTI and SLTIU and an unsigned one for ANDI, ORI and
XORI; LUI and LUIH write the whole register. A shift word whose bits [15:14] are 3 or whose bits [13:6] are not zero, and a LUI
or LUIH word whose sa is not zero, is no instruction. -/
def Obligations.ImmediateArithmetic : Prop := ∀ (d a : Reg) (imm : BitVec 16) (sh : BitVec 6) (s : State),
  let x := s.reg a
  Next (exec (.addi d a imm) s) (Sets d (x + imm.signExtend 64) s) ∧
  Next (exec (.andi d a imm) s) (Sets d (x &&& imm.zeroExtend 64) s) ∧
  Next (exec (.ori d a imm) s) (Sets d (x ||| imm.zeroExtend 64) s) ∧
  Next (exec (.xori d a imm) s) (Sets d (x ^^^ imm.zeroExtend 64) s) ∧
  Next (exec (.slti d a imm) s) (Sets d (if x.slt (imm.signExtend 64) then 1 else 0) s) ∧
  Next (exec (.sltiu d a imm) s) (Sets d (if x.ult (imm.signExtend 64) then 1 else 0) s) ∧
  Next (exec (.slli d a sh) s) (Sets d (x <<< sh.toNat) s) ∧
  Next (exec (.srli d a sh) s) (Sets d (x >>> sh.toNat) s) ∧
  Next (exec (.srai d a sh) s) (Sets d (x.sshiftRight sh.toNat) s) ∧
  Next (exec (.lui d imm) s) (Sets d (0#32 ++ imm ++ 0#16) s) ∧
  Next (exec (.luih d imm) s) (Sets d (imm ++ 0#48) s) ∧
  (∀ w : BitVec 32, w.extractLsb' 26 6 = 0x07 → w.extractLsb' 14 2 = 3 ∨ w.extractLsb' 6 8 ≠ 0 → (decodeWord w).toOption = none) ∧
  (∀ w : BitVec 32, w.extractLsb' 26 6 = 0x08 ∨ w.extractLsb' 26 6 = 0x09 → w.extractLsb' 16 5 ≠ 0 →
    (decodeWord w).toOption = none) ∧
  (∀ x ∈ [(Instr.addi d a imm, 0x01#6), (.andi d a imm, 0x02), (.ori d a imm, 0x03), (.xori d a imm, 0x04), (.slti d a imm, 0x05),
      (.sltiu d a imm, 0x06)], encode x.1 = .scalar (x.2 ++ d ++ a ++ imm)) ∧
  (∀ x ∈ [(Instr.slli d a sh, 0#2), (.srli d a sh, 1), (.srai d a sh, 2)], encode x.1 = .scalar (0x07#6 ++ d ++ a ++ (x.2 ++ 0#8 ++ sh))) ∧
  encode (.lui d imm) = .scalar (0x08#6 ++ d ++ 0#5 ++ imm) ∧ encode (.luih d imm) = .scalar (0x09#6 ++ d ++ 0#5 ++ imm)

/-- R217: a branch whose condition holds goes to ip + 4 + 4 × SExt(off); otherwise to ip + 4. It writes no register. -/
def Obligations.Branches : Prop := ∀ (a b : Reg) (off : BitVec 16) (s : State),
  let x := s.reg a
  let y := s.reg b
  let target := fun (c : Bool) => if c then s.me.ip + 4 + 4 * off.signExtend 64 else s.me.ip + 4
  Next (exec (.beq a b off) s) (Goes (target (x == y)) s) ∧
  Next (exec (.bne a b off) s) (Goes (target (x != y)) s) ∧
  Next (exec (.blt a b off) s) (Goes (target (x.slt y)) s) ∧
  Next (exec (.bge a b off) s) (Goes (target (!x.slt y)) s) ∧
  Next (exec (.bltu a b off) s) (Goes (target (x.ult y)) s) ∧
  Next (exec (.bgeu a b off) s) (Goes (target (!x.ult y)) s)

/-- R218: JAL sets s31 to ip + 4 and jumps to ip + 4 + 4 × SExt(off26). JALR jumps to sa + SExt(imm16), sa read before sd is
written, and sets sd to ip + 4; where that target is not a multiple of 4 it takes a misaligned trap and writes no register. A
fetch at a target outside the fetchable ranges of R208 raises an access fault of kind fetch, with TRAPIP and TRAPVAL the
target. (The model's choices in it: log 18.) -/
def Obligations.Jumps : Prop := ∀ (d a : Reg) (imm : BitVec 16) (off : BitVec 26) (s : State),
  Next (exec (.jal off) s) (fun t => OnlyMe s t ∧ SameBytes s t ∧ OnlyRegs s.me t.me ∧ RegsBut 31 s.me t.me ∧
    t.reg 31 = s.me.ip + 4 ∧ t.me.ip = s.me.ip + 4 + 4 * off.signExtend 64 ∧ t.me.instret = s.me.instret + 1) ∧
  ((s.reg a + imm.signExtend 64).toNat % 4 = 0 → Next (exec (.jalr d a imm) s) (fun t => OnlyMe s t ∧ SameBytes s t ∧
    OnlyRegs s.me t.me ∧ RegsBut d s.me t.me ∧ t.reg d = (if d = 0 then 0 else s.me.ip + 4) ∧
    t.me.ip = s.reg a + imm.signExtend 64 ∧ t.me.instret = s.me.instret + 1)) ∧
  ((s.reg a + imm.signExtend 64).toNat % 4 ≠ 0 →
    exec (.jalr d a imm) s = .next (s.trap 2 .fetch 0 (s.reg a + imm.signExtend 64))) ∧
  (match spaceOf s.me.ip with
    | .global _ => True
    | .localMem o => o < 0x3E0000 → s.fetch.1 = .fault false ∧
        exec (.instructionFetchFault false) s = .next (s.trap 3 .fetch 0 s.me.ip)
    | _ => s.fetch.1 = .fault false ∧ exec (.instructionFetchFault false) s = .next (s.trap 3 .fetch 0 s.me.ip)) ∧
  (s.me.fw = true → (s.trap 3 .fetch 0 s.me.ip).me.trapIp = s.me.ip ∧ (s.trap 3 .fetch 0 s.me.ip).me.trapVal = s.me.ip)

/-- R219, R208, R220: a load whose address is aligned and stands at key k of memory (local or peer scratchpad, or a page of
global memory), none of whose bytes lies in an uncorrectable word, ends in a next state in which sd holds its n bytes read
little-endian and extended. The bytes are memory's; only where the data cache holds the line may they be that line's (R220).
All else of the registers is as before, and every byte of memory is as finding the place left it: a scratchpad bank that
another task has left is written to that task's save area first (R361), and nothing else is. (The model's choices in it: log 7,
12, 67.) -/
def Obligations.Loads : Prop := ∀ (f : LoadForm) (d a : Reg) (imm : BitVec 16) (s : State) (l : Loc) (k : Nat) (z : State),
  let ad := s.reg a + imm.signExtend 64
  ad.toNat % f.bytes = 0 → s.locate ad .read true = (l, z) → l.place = some k → z.badIn k f.bytes = false →
  (∀ pa va pte, l = .line pa va pte → SameBytes s z) ∧
  Next (exec (f.instr d a imm) s) (fun t =>
    (∃ v, t.reg d = (if d = 0 then 0 else v) ∧ (LoadedFrom z.mem k f v ∨
      ∃ pa va pte line, l = .line pa va pte ∧ tget z.me.dcache (k / 1024) = some line ∧ LoadedFrom line (k % 1024) f v)) ∧
    RegsBut d s.me t.me ∧ t.me.ip = s.me.ip + 4 ∧ t.me.instret = s.me.instret + 1 ∧ OnlyAccess s t ∧ SameBytes z t)

/-- R219: a store whose address is aligned and stands at key k of memory writes the low n bytes of its register there, the
lowest at k, and no other byte; a granule marked copy-on-write is copied first (R365), a scratchpad bank that another task has
left is saved first (R361), and the bytes outside are then as these leave them. No register changes; ip moves on. (The model's
choices in it: log 34, 95.) -/
def Obligations.Stores : Prop := ∀ (f : StoreForm) (r a : Reg) (imm : BitVec 16) (s : State) (l : Loc) (k : Nat) (z y : State),
  s.Canonical →
  let ad := s.reg a + imm.signExtend 64
  ad.toNat % f.bytes = 0 → s.locate ad .write true = (l, z) → l.place = some k → z.split l = some y →
  Next (exec (f.instr r a imm) s) (fun t =>
    (∀ i, i < f.bytes → readCell t.mem (k + i) = (s.reg r).extractLsb' (8 * i) 8) ∧ BytesBut k f.bytes y t ∧
    (l.cow = false → SameBytes z y) ∧ t.me.regs = s.me.regs ∧ t.me.ip = s.me.ip + 4 ∧ t.me.instret = s.me.instret + 1 ∧
    OnlyAccess s t)

/-- R219: in the local scratchpad a load or store touches the core's own bytes and nothing else of the package: with no bank
tag and no uncorrectable word in the way, the state after LDD holds the eight bytes at the offset, and the state after STD
differs only in its eight bytes, ip and INSTRET. Where the bank carries the tag of another task it is first evicted, as
TAGGED_BANK_EVICT evicts it (R361). (The model's choices in it: log 12.) -/
def Obligations.LocalScratchpad : Prop := ∀ (d r a : Reg) (imm : BitVec 16) (s : State) (off : BitVec 22),
  s.Canonical →
  s.reg a + imm.signExtend 64 = 0x20000000000#42 ++ off → off.toNat % 8 = 0 →
  (∀ h, tget (s.coreAt s.here).bankTags (off.toNat / 65536) = some h → h ≠ s.handleAt s.here →
    ∃ z, exec (.taggedBankEvict s.here (off.toNat / 65536)) s = .next z ∧ exec (.ldd d a imm) s = exec (.ldd d a imm) z ∧
      exec (.std r a imm) s = exec (.std r a imm) z) ∧
  ((∀ h, tget (s.coreAt s.here).bankTags (off.toNat / 65536) = some h → h = s.handleAt s.here) →
  (s.badIn (scratchKey s.here off.toNat) 8 = false →
    Next (exec (.ldd d a imm) s) (Sets d (BitVec.ofNat 64 (readNat s.mem (scratchKey s.here off.toNat) 8)) s)) ∧
  Next (exec (.std r a imm) s) (fun t => MeAndMemory s t ∧ OnlyRegs s.me t.me ∧ t.me.regs = s.me.regs ∧
    t.me.ip = s.me.ip + 4 ∧ t.me.instret = s.me.instret + 1 ∧
    readNat t.mem (scratchKey s.here off.toNat) 8 = (s.reg r).toNat ∧ BytesBut (scratchKey s.here off.toNat) 8 s t))

/-- R221, R224: an AMO whose address is naturally aligned and stands at key k of memory, outside uncorrectable words, writes
the combination of the old value with its operand there and returns the old value in sd, a 32-bit one sign-extended; no other
byte changes (a copy-on-write granule is copied first, a bank that another task has left is saved first), and the data cache is
emptied. AMOCAS compares with sd as it was before. (The model's choices in it: log 9, 12, 95.) -/
def Obligations.Atomics : Prop := ∀ (f : AmoForm) (d a b : Reg) (scope : BitVec 3) (s : State) (l : Loc) (k : Nat) (z y : State),
  s.Canonical →
  s.locate (s.reg a) .write true = (l, z) → l.place = some k → z.split l = some y →
  ((s.reg a).toNat % 8 = 0 → z.badIn k 8 = false → Next (exec (f.instr d a b scope false) s) (fun t =>
    let old := BitVec.ofNat 64 (readNat z.mem k 8)
    t.reg d = (if d = 0 then 0 else old) ∧ RegsBut d s.me t.me ∧ OnlyAccess s t ∧ t.me.dcache = [] ∧ t.me.ip = s.me.ip + 4 ∧
    t.me.instret = s.me.instret + 1 ∧ readNat t.mem k 8 = (f.new old (s.reg b) (s.reg d)).toNat ∧ BytesBut k 8 y t ∧
    (l.cow = false → SameBytes z y))) ∧
  ((s.reg a).toNat % 4 = 0 → z.badIn k 4 = false → Next (exec (f.instr d a b scope true) s) (fun t =>
    let old := BitVec.ofNat 32 (readNat z.mem k 4)
    t.reg d = (if d = 0 then 0 else old.signExtend 64) ∧ RegsBut d s.me t.me ∧ OnlyAccess s t ∧ t.me.dcache = [] ∧ t.me.ip = s.me.ip + 4 ∧
    t.me.instret = s.me.instret + 1 ∧ readNat t.mem k 4 = (f.new old ((s.reg b).setWidth 32) ((s.reg d).setWidth 32)).toNat ∧
    BytesBut k 4 y t ∧ (l.cow = false → SameBytes z y)))

/-- R236, R208, R209, R288, R289, R356: a load, store or AMO that cannot take place raises its trap with the address and its
access kind: a misaligned one cause 2; one whose place does not exist or may not be accessed cause 3, and one whose page is
missing cause 4; one that reads an uncorrectable word, of a scratchpad or of global memory, cause 3 with error code 0x10. Of a
global address whose entry the core's TLB holds as the table has it, the place is the entry's address plus the offset in the
page where the entry allows the access and the address is populated, and cause 3 elsewhere; where the walk for its page has
failed it is cause 4. While its page's walk is under way, or a shadow that its write needs is lacking (R365), it changes no
register and no byte; the latter is marked, to count as outstanding. (The model's choices in it: log 12, 64, 72.) -/
def Obligations.AccessTraps : Prop := ∀ (d a b : Reg) (imm : BitVec 16) (s z : State) (l : Loc) (cause err k : Nat),
  let ad := s.reg a + imm.signExtend 64
  let stays := fun (z : State) => z.me.regs = s.me.regs ∧ z.me.ip = s.me.ip ∧ z.me.instret = s.me.instret
  let marks := fun (z : State) => z.modMe (fun c => { c with shadow := some c.instret })
  (∀ (x : BitVec 64) (kind : Acc3) (peers : Bool) (va : Nat), spaceOf x = .global va →
    (∀ at_ e size t ts, (s.coreAt s.here).walkBad = [] → s.walkTable (s.partOf s.here) va = some (at_, e, size) →
      (s.coreAt s.here).tlb = t :: ts → t.covers (s.partOf s.here) va = true → t.pte = e → t.size = size →
      s.locate x kind peers = (if e.getLsbD (match kind with
          | .read => 52
          | .write => 53
          | .fetch => 54) = true ∧ physOk (pteAddr e + va % size) = true then .line (pteAddr e + va % size) va e else .trap 3 0, s)) ∧
    ((s.coreAt s.here).walkBad = [(whoCtl, s.walkPage (s.partOf s.here) va)] → (s.locate x kind peers).1 = .trap 4 0)) ∧
  (∀ f : LoadForm, ad.toNat % f.bytes ≠ 0 → exec (f.instr d a imm) s = .next (s.trap 2 .load 0 ad)) ∧
  (∀ f : LoadForm, (f = .ldd → ad.extractLsb' 60 4 ≠ 0xA#4) → ad.toNat % f.bytes = 0 →
    (s.locate ad .read true = (.trap cause err, z) → exec (f.instr d a imm) s = .next (z.trap cause .load err ad)) ∧
    (s.locate ad .read true = (.key k, z) → z.badIn k f.bytes = true →
      exec (f.instr d a imm) s = .next (z.trap 3 .load 0x10 ad)) ∧
    (∀ va pte, s.locate ad .read true = (.line k va pte, z) → tget z.me.dcache (k / 1024) = none → z.badIn k f.bytes = true →
      exec (f.instr d a imm) s = .next (z.trap 3 .load 0x10 ad)) ∧
    (s.locate ad .read true = (.wait, z) → exec (f.instr d a imm) s = .next z ∧ stays z ∧ SameBytes s z)) ∧
  (∀ f : StoreForm, ad.toNat % f.bytes ≠ 0 → exec (f.instr d a imm) s = .next (s.trap 2 .store 0 ad)) ∧
  (∀ f : StoreForm, ad.toNat % f.bytes = 0 →
    (s.locate ad .write true = (.trap cause err, z) → exec (f.instr d a imm) s = .next (z.trap cause .store err ad)) ∧
    (s.locate ad .write true = (.wait, z) → exec (f.instr d a imm) s = .next z ∧ stays z ∧ SameBytes s z) ∧
    (s.locate ad .write true = (l, z) → l.place = some k → z.split l = none →
      exec (f.instr d a imm) s = .next (marks z) ∧ stays z ∧ SameBytes s z)) ∧
  (∀ (f : AmoForm) (scope : BitVec 3) (narrow : Bool), (s.reg a).toNat % (if narrow then 4 else 8) ≠ 0 →
    exec (f.instr d a b scope narrow) s = .next (s.trap 2 .amo 0 (s.reg a))) ∧
  (∀ (f : AmoForm) (scope : BitVec 3) (narrow : Bool), (s.reg a).toNat % (if narrow then 4 else 8) = 0 →
    (s.locate (s.reg a) .write true = (.trap cause err, z) →
      exec (f.instr d a b scope narrow) s = .next (z.trap cause .amo err (s.reg a))) ∧
    (s.locate (s.reg a) .write true = (l, z) → l.place = some k → z.badIn k (if narrow then 4 else 8) = true →
      exec (f.instr d a b scope narrow) s = .next (z.trap 3 .amo 0x10 (s.reg a))) ∧
    (s.locate (s.reg a) .write true = (.wait, z) → exec (f.instr d a b scope narrow) s = .next z ∧ stays z ∧ SameBytes s z) ∧
    (s.locate (s.reg a) .write true = (l, z) → l.place = some k → z.badIn k (if narrow then 4 else 8) = false → z.split l = none →
      exec (f.instr d a b scope narrow) s = .next (marks z) ∧ stays z ∧ SameBytes s z))

/-- R208, R210, R280, R340, R342, R343, R344, R346, R348, R361: LDD of a hub address gives eight bytes of the reduced beat, or
an access fault that carries the error code, 0x40 where the wheel is not defined; the banks of the members' windows are first
made ready as any access makes them. The beat of a wheel of two members that both work holds the two leaves' lanes combined as
the tree combines them, for INT32 the sums, wrapped or saturated, or the smaller or larger values; of a failed member only the
other's lanes are left, with none the beat is zero, or the read fails with 0x41 where the wheel asks for it; uncorrectable
bytes give 0x42, an end past the window 0x43. LDW and STW, as any other access, of a hub address, an unassigned selector or an
address with a nonzero unassigned bit raise an access fault. The home slice of a global line is the fold of its physical
address, over the package, over the die or over the home group that its entry names. (The model's choices in it: log 12, 18,
60.) -/
def Obligations.AddressSpaces : Prop := ∀ (d a : Reg) (imm : BitVec 16) (s : State) (w : BitVec 4) (off : BitVec 22),
  let ad := s.reg a + imm.signExtend 64
  (ad = 0xA00000000#36 ++ w ++ 0#2 ++ off → off.toNat % 8 = 0 →
    let z := s.hubOpen s.here w.toNat off.toNat
    ((∀ p, (s.coreAt p).bankTags = []) → z = s) ∧ z.me = s.me ∧
    (z.wheelAt s.here w.toNat = none → exec (.ldd d a imm) s = .next (z.trap 3 .load 0x40 ad)) ∧
    (∀ wh, z.wheelAt s.here w.toNat = some wh →
      let beat := z.hubBeat s.here wh (off.toNat / 64 * 64) (decide (wh.len < off.toNat + 8))
      (∀ b, beat = .ok b → Next (exec (.ldd d a imm) s) (Sets d (b.extractLsb' (8 * (off.toNat % 64)) 64) z)) ∧
      (∀ c x, beat = .error (c, x) → exec (.ldd d a imm) s = .next (z.trap 3 .load c ad)))) ∧
  (∀ (wh : Wheel) (x y : Nat × Nat) (o : Nat), wh.members = [x, y] → wh.op < 4 →
    let px := (s.teamAt s.here).posOf x.1
    let py := (s.teamAt s.here).posOf y.1
    let okx := (s.coreAt px).failed = false
    let oky := (s.coreAt py).failed = false
    let sound := s.badIn (scratchKey px (x.2 + o)) 64 = false ∧ s.badIn (scratchKey py (y.2 + o)) 64 = false
    let lane := fun (p base n i : Nat) => readNat s.mem (scratchKey p (base + o + n * i)) n
    let word := fun (p base i : Nat) => (BitVec.ofNat 32 (lane p base 4 i)).toInt
    let beat := s.hubBeat s.here wh o
    (okx → oky → sound →
      (wh.fmt ∈ [0x10, 0x11, 0x12] → let n := laneWidth wh.fmt
        let leaf := fun (p base rank i : Nat) => hubLeafFp wh.op rank (storVal wh.fmt (1, 0) (lane p base n i))
        ∃ b, beat false = .ok b ∧ ∀ i, i < 64 / n → b.extractLsb' (8 * n * i) (8 * n) =
          BitVec.ofNat (8 * n) (hubRootLane wh.fmt (hubLane wh.op wh.sat 0 (leaf px x.2 0 i) (leaf py y.2 1 i)))) ∧
      (wh.fmt = 0x14 → wh.op ≠ 3 → ∃ b, beat false = .ok b ∧ ∀ i, i < 16 → let u := word px x.2 i
        let v := word py y.2 i
        (b.extractLsb' (32 * i) 32).toInt = (match wh.op with
          | 0 => if wh.sat then max (-(2 ^ 31)) (min (2 ^ 31 - 1) (u + v)) else (BitVec.ofInt 32 (u + v)).toInt
          | 2 => min u v
          | _ => max u v))) ∧
    (wh.error = false → wh.fmt = 0x14 → wh.op ≠ 3 →
      (okx → ¬oky → s.badIn (scratchKey px (x.2 + o)) 64 = false →
        ∃ b, beat false = .ok b ∧ ∀ i, i < 16 → (b.extractLsb' (32 * i) 32).toInt = word px x.2 i) ∧
      (¬okx → ¬oky → beat false = .ok 0)) ∧
    (wh.error = true → (¬okx → ∀ past, beat past = .error (0x41, 0)) ∧ (okx → ¬oky → ∀ past, beat past = .error (0x41, 1))) ∧
    (okx → oky → ¬sound → ∃ r, beat false = .error (0x42, r)) ∧
    (okx → oky → sound → beat true = .error (0x43, 0))) ∧
  (ad = 0xA00000000#36 ++ w ++ 0#2 ++ off → off.toNat % 4 = 0 →
    exec (.ldw d a imm) s = .next (s.trap 3 .load 0 ad) ∧ exec (.stw d a imm) s = .next (s.trap 3 .store 0 ad)) ∧
  (ad.toNat % 4 = 0 → (ad.extractLsb' 60 4 ∉ [0x0#4, 0x8#4, 0x9#4, 0xA#4] ∨
      (ad.extractLsb' 60 4 = 0x0#4 ∧ ad.extractLsb' 57 3 ≠ 0) ∨ (ad.extractLsb' 60 4 = 0x8#4 ∧ ad.extractLsb' 22 38 ≠ 0) ∨
      (ad.extractLsb' 60 4 = 0x9#4 ∧ (ad.extractLsb' 32 28 ≠ 0 ∨ (s.teamAt s.here).count ≤ (ad.extractLsb' 22 10).toNat))) →
    exec (.ldw d a imm) s = .next (s.trap 3 .load 0 ad) ∧ exec (.stw d a imm) s = .next (s.trap 3 .store 0 ad)) ∧
  (∀ (pa : Nat) (e : BitVec 64),
    (pteHome e = 0 → s.homeSlice pa e = foldOf 9 pa ∧ s.homeSlice pa e < Config.coreCount) ∧
    (pteHome e = 1 → dieOf (s.homeSlice pa e) = pteDie e) ∧
    (pteHome e = 2 → tget s.homes (pteGroup e) = none → s.homeSlice pa e = foldOf 9 pa) ∧
    (∀ g : BitVec 64, pteHome e = 2 → tget s.homes (pteGroup e) = some g →
      let h := (g.extractLsb' 24 6).toNat
      let w := (g.extractLsb' 32 5).toNat
      let l := foldOf 12 pa % (h * w)
      0 < h → 0 < w → s.homeSlice pa e =
        ((g.extractLsb' 8 5).toNat + l / w) * Config.gridCols + (g.extractLsb' 16 4).toNat + l % w) ∧
    (pteHome e = 0 → s.homeSlice 0x123456400 e = 291) ∧ (pteHome e = 1 → pteDie e = 1 → s.homeSlice 0x123456400 e = 186) ∧
    foldOf 12 0x123456400 = 1492)

/-- R211, R235: CSRR of a CSR that the mode may read writes its value to sd; the values are those the table of R211 names
(CYCLE, whose rate the spec leaves open, is log 8's). Any other CSR, one of firmware mode in team mode among them, raises an
illegal-instruction trap with TRAPVAL the instruction's word. (The model's choices in it: log 8, 18.) -/
def Obligations.CsrReads : Prop := ∀ (d : Reg) (n : BitVec 12) (s : State),
  (n ∉ csrTeam ∧ (n ∉ csrFirmware ∨ s.me.fw = false) → ∀ w, encode (.csrr d n) = .scalar w →
    exec (.csrr d n) s = .next (s.trap 1 .load 0 (w.zeroExtend 64))) ∧
  (n ∈ csrTeam ∨ (n ∈ csrFirmware ∧ s.me.fw = true) → Next (exec (.csrr d n) s) (Sets d (s.csr n) s)) ∧
  (s.csr 0x010 = BitVec.ofNat 64 (s.lid s.here % 1024) ∧ s.csr 0x011 = BitVec.ofNat 64 (s.teamAt s.here).w ∧
   s.csr 0x012 = BitVec.ofNat 64 (s.teamAt s.here).h ∧ s.csr 0x013 = (s.handleAt s.here).zeroExtend 64 ∧
   s.csr 0x018 = BitVec.ofNat 64 s.here ∧ s.csr 0x020 = s.me.trb ∧ s.csr 0x023 = s.me.inboxLost.zeroExtend 64 ∧
   s.csr 0x029 = s.me.instret ∧ s.csr 0x031 = s.me.psel.zeroExtend 64 ∧
   s.csr 0x040 = (if s.me.fw then 1 else 0) + (if s.me.fwPrev then 2 else 0) ∧ s.csr 0x041 = s.me.tvec ∧
   s.csr 0x042 = s.me.trapCause ∧ s.csr 0x043 = s.me.trapIp ∧ s.csr 0x044 = s.me.trapVal ∧ s.csr 0x045 = s.me.tscratch ∧
   s.csr 0x046 = s.me.wdog.zeroExtend 64 ∧ s.csr 0x014 = (s.parentAt s.here).zeroExtend 64 ∧
   (∀ i : Fin 8, (s.csr 0x021).extractLsb' (5 * i.val) 5 = BitVec.ofNat 5 s.me.inbox[i].length ∧
     (s.csr 0x022).extractLsb' (5 * i.val) 5 = BitVec.ofNat 5 s.me.outbox[i].length) ∧
   (∀ i, i < 16 → (s.csr 0x030).getLsbD i = (s.teamNode s.here (64 + i)).any (fun n => n.hold.isSome)) ∧
   (s.csr 0x030).getLsbD 16 = (s.coreAt s.here).ce.hold.isSome ∧
   s.csr 0x028 = BitVec.ofNat 64 (s.me.cycles + (Config.fabricCycles s.steps - Config.fabricCycles s.me.start)) ∧
   (∀ n, s.teamNode s.here (64 + s.me.psel.toNat) = some n → ∀ i, i < 4 →
     (s.csr 0x032).extractLsb' (16 * i) 16 = (n.reg (12 + i)).extractLsb' 0 16) ∧
   (s.teamNode s.here (64 + s.me.psel.toNat) = none → s.csr 0x032 = 0))

/-- R211, R235: CSRW, CSRS and CSRC of a CSR that the mode may write put sa, csr | sa, csr & ~sa there, but for the bits that
R211 does not let be written; no other CSR (INSTRET and, where PSEL is written, PIDX apart), no register and no byte changes. A
CSR that is not listed, that may only be read, or that is of firmware mode in team mode raises an illegal-instruction trap with
TRAPVAL the instruction's word. (The model's choices in it: log 18, 59.) -/
def Obligations.CsrWrites : Prop := ∀ (a : Reg) (n : BitVec 12) (s : State),
  let wrote := fun (v : BitVec 64) (t : State) => OnlyMe s t ∧ SameBytes s t ∧ t.csr n = csrMask n v ∧
    (∀ m, m ≠ n → m ≠ 0x029 → (n = 0x031 → m ≠ 0x032) → t.csr m = s.csr m) ∧ t.me.regs = s.me.regs ∧ t.me.ip = s.me.ip + 4 ∧
    t.me.instret = s.me.instret + 1
  (n ∈ csrTeamRw ∨ (n ∈ csrFirmwareRw ∧ s.me.fw = true) →
    Next (exec (.csrw a n) s) (wrote (s.reg a)) ∧ Next (exec (.csrs a n) s) (wrote (s.csr n ||| s.reg a)) ∧
    Next (exec (.csrc a n) s) (wrote (s.csr n &&& ~~~s.reg a))) ∧
  (n ∉ csrTeamRw ∧ (n ∉ csrFirmwareRw ∨ s.me.fw = false) → ∀ i ∈ [Instr.csrw a n, .csrs a n, .csrc a n],
    ∀ w, encode i = .scalar w → exec i s = .next (s.trap 1 .load 0 (w.zeroExtend 64)))

/-- R236, R350, R237: a trap sets TRAPIP to the ip, fills TRAPCAUSE and TRAPVAL, moves MODE[0] to MODE[1], sets MODE[0] and
goes on at TVEC. In firmware mode that is all it does: no register, no byte and nothing else of the package changes. In team
mode the entry is the same, and firmware then answers the trap: causes 1, 2, 3, 7 and 8 end the leaf faulted with 0x80 + cause;
cause 4 asks system software for the page; cause 5 and a nonzero TRAP are calls to the host; TRAP 0 ends the leaf in the
leader, with the code of s1 where it is not 0, else faulted with the code of a core of the team that has failed, else done, and
halts any other controller. (The model's choices in it: log 15.) -/
def Obligations.Traps : Prop :=
  (∀ (s : State) (cause err : Nat) (kind : TrapKind) (val : BitVec 64),
  s.me.fw = true → cause < 256 → err < 256 →
  OnlyMe s (s.trap cause kind err val) ∧ SameBytes s (s.trap cause kind err val) ∧
  (s.trap cause kind err val).me = { s.me with
    trapIp := s.me.ip, trapCause := BitVec.ofNat 64 (cause + 256 * kind.code + 65536 * err), trapVal := val, fwPrev := s.me.fw,
    fw := true, ip := s.me.tvec }) ∧
  (∀ (s : State) (cause err : Nat) (kind : TrapKind) (val : BitVec 64),
  s.me.fw = false →
  let z := s.modMe (fun c => c.trapEntry (trapWord cause kind err false) val)
  let t := s.trap cause kind err val
  (cause < 256 → err < 256 → z.me = { s.me with
    trapIp := s.me.ip, trapCause := BitVec.ofNat 64 (cause + 256 * kind.code + 65536 * err), trapVal := val, fwPrev := false,
    fw := true, ip := s.me.tvec }) ∧
  (cause ∈ [1, 2, 3, 7, 8] → t = z.endLeaf s.here { st := 2, code := faultWord (0x80 + cause) (z.lid s.here) 0 }) ∧
  (cause = 4 → t.me = { z.me with run := .pageWait } ∧ t.pageAsks = s.pageAsks ++ [(s.here, val.toNat)] ∧ SameBytes s t) ∧
  (cause = 5 → t.me = { z.me with run := .service } ∧ t.calls = s.calls ++ [(s.here, true, BitVec.ofNat 12 val.toNat)] ∧ SameBytes s t) ∧
  (cause = 6 → val ≠ 0 →
    t.me = { z.me with run := .service } ∧ t.calls = s.calls ++ [(s.here, false, BitVec.ofNat 12 val.toNat)] ∧ SameBytes s t) ∧
  (cause = 6 → val = 0 → z.lid s.here ≠ 0 → t.me = { z.me with run := .halted } ∧ SameBytes s t) ∧
  (cause = 6 → val = 0 → z.lid s.here = 0 → t = z.endLeaf s.here (
    if s.reg 1 ≠ 0 then { st := 2, code := faultWord 0x7F 0 (s.reg 1).toNat } else match (z.teamAt s.here).doom with
      | some w => { st := 2, code := w }
      | none => { st := 1, code := 0 })))

/-- R237, R213, R218, R240, R222, R224, R241: TRAP and BRK take their traps; TRET in firmware mode restores ip and the mode,
and the wait kept last where TRAPCAUSE has the wait-only bit (R238), in team mode it is an illegal instruction; a word that is
no instruction traps with that word; a failed fetch traps with ip; YIELD completes, and stops the controller, its CYCLE with it
(R239), where a pre-emption is pending in team mode. FENCE completes and empties the data cache; SYNCI completes and empties
the instruction cache. Neither writes a register or a byte. (The model's choices in it: log 9, 15, 18, 30, 59.) -/
def Obligations.SystemInstructions : Prop :=
  (∀ (code : BitVec 12) (w : BitVec 32) (s : State),
  exec (.trap code) s = .next (s.trap 6 .load 0 (code.zeroExtend 64)) ∧
  exec (.brk code) s = .next (s.trap 5 .load 0 (code.zeroExtend 64)) ∧
  (s.me.fw = true → Next (exec .tret s) (fun t => OnlyMe s t ∧ SameBytes s t ∧ t.me = { s.me with
    ip := s.me.trapIp &&& ~~~3#64, fw := s.me.fwPrev, fwPrev := false, instret := s.me.instret + 1,
    pend := if s.me.trapCause.getLsbD 24 then s.me.kept.headD .none else .none,
    kept := if s.me.trapCause.getLsbD 24 then s.me.kept.drop 1 else s.me.kept })) ∧
  (s.me.fw = false → ∀ v, encode .tret = .scalar v → exec .tret s = .next (s.trap 1 .load 0 (v.zeroExtend 64))) ∧
  exec (.illegalInstruction w) s = .next (s.trap 1 .load 0 (w.zeroExtend 64)) ∧
  exec (.instructionFetchFault true) s = .next (s.trap 4 .fetch 0 s.me.ip) ∧
  (∃ err, exec (.instructionFetchFault false) s = .next (s.trap 3 .fetch err s.me.ip)) ∧
  Next (exec .yield s) (fun t => OnlyMe s t ∧ SameBytes s t ∧ t.me = { s.me with
    ip := s.me.ip + 4, instret := s.me.instret + 1,
    run := if s.me.preempt && !s.me.fw then .stopped else s.me.run,
    cycles := if s.me.preempt && !s.me.fw then s.me.cycle s.steps else s.me.cycles,
    start := if s.me.preempt && !s.me.fw then s.steps else s.me.start })) ∧
  (∀ (scope : BitVec 3) (s : State),
  Next (exec (.fence scope) s) (fun t => OnlyMe s t ∧ SameBytes s t ∧
    t.me = { s.me with ip := s.me.ip + 4, instret := s.me.instret + 1, dcache := [] }) ∧
  Next (exec .synci s) (fun t => OnlyMe s t ∧ SameBytes s t ∧
    t.me = { s.me with ip := s.me.ip + 4, instret := s.me.instret + 1, icache := [] }))

/-- R225, R208, R220, R236: CMDW puts sb and sa into a command register; CMDLD loads its 16 bytes, w0 lowest, from an aligned
place outside uncorrectable words, of the local scratchpad or of global memory as a load reads it; a load that cannot take
place traps with its address, and while its page's walk is under way nothing is loaded. No general register, no other command
register and no byte changes. In their words the register field's low two bits, and CMDW's fn, are zero. (The model's choices
in it: log 12.) -/
def Obligations.CommandRegisters : Prop := ∀ (k : BitVec 3) (a b : Reg) (imm : BitVec 16) (s z : State) (key cause err : Nat) (v : List Byte),
  let ad := s.reg a + imm.signExtend 64
  Next (exec (.cmdw k a b) s) (fun t => OnlyMe s t ∧ SameBytes s t ∧
    t.me = { s.me with cr := t.me.cr, ip := s.me.ip + 4, instret := s.me.instret + 1 } ∧
    t.me.cmd k = s.reg b ++ s.reg a ∧ ∀ j, j ≠ k → t.me.cmd j = s.me.cmd j) ∧
  (s.load ad 16 16 false = .ok v z → v.length = 16 ∧ Next (exec (.cmdld k a imm) s) (fun t => SameBytes z t ∧ OnlyCtl s t ∧
    t.me = { s.me with cr := t.me.cr, ip := s.me.ip + 4, instret := s.me.instret + 1, dcache := t.me.dcache } ∧
    (∀ i, i < 16 → some ((t.me.cmd k).extractLsb' (8 * i) 8) = v[i]?) ∧ ∀ j, j ≠ k → t.me.cmd j = s.me.cmd j)) ∧
  (ad.toNat % 16 = 0 → s.locate ad .read false = (.key key, z) → z.badIn key 16 = false →
    s.load ad 16 16 false = .ok (readBytes z.mem key 16) z) ∧
  (∀ va pte, ad.toNat % 16 = 0 → s.locate ad .read false = (.line key va pte, z) → z.badIn key 16 = false →
    tget z.me.dcache (key / 1024) = none → ∃ y, SameBytes s y ∧ s.load ad 16 16 false = .ok (readBytes s.mem key 16) y) ∧
  (s.load ad 16 16 false = .trap cause err z → exec (.cmdld k a imm) s = .next (z.trap cause .load err ad)) ∧
  (s.load ad 16 16 false = .wait z → exec (.cmdld k a imm) s = .next z) ∧
  (∀ w : BitVec 32, w.extractLsb' 26 6 = 0x28 → w.extractLsb' 21 2 ≠ 0 ∨ w.extractLsb' 0 11 ≠ 0 → (decodeWord w).toOption = none) ∧
  (∀ w : BitVec 32, w.extractLsb' 26 6 = 0x29 → w.extractLsb' 21 2 ≠ 0 → (decodeWord w).toOption = none)

/-- R226, R227: CMDI and CMDQ put a copy of cr, with the issuer's TRB, at the end of the command unit of the logical core
named; CMDI then completes, CMDQ waits. While that queue of 16 is full the instruction waits without effect. A target at or
beyond the team's core count raises a command-rejected trap with TRAPVAL the target. (The model's choices in it: log 14, 18.) -/
def Obligations.CommandIssue : Prop := ∀ (k : BitVec 3) (target : BitVec 12) (d a : Reg) (s : State),
  let tm := s.teamAt s.here
  let queued := fun (p : Nat) (viaQ : Bool) (t : State) => SameBytes s t ∧ ∃ q : QCmd,
    (t.coreAt p).unit = (s.coreAt p).unit ++ [q] ∧ q.img = s.me.cmd k ∧ q.issuer = s.here ∧ q.viaQ = viaQ ∧ q.trb = s.me.trb ∧
    q.seq = s.order ∧ t.order = s.order + 1 ∧ ∀ r, r ≠ p → (t.coreAt r).unit = (s.coreAt r).unit
  (target.toNat < tm.count → (s.coreAt (tm.posOf target.toNat)).unit.length < 16 →
    Next (exec (.cmdi k target) s) (fun t => queued (tm.posOf target.toNat) false t ∧ OnlyCtl s t ∧
      t.me = { s.me with ip := s.me.ip + 4, instret := s.me.instret + 1 })) ∧
  (target.toNat < tm.count → 16 ≤ (s.coreAt (tm.posOf target.toNat)).unit.length → exec (.cmdi k target) s = .next s) ∧
  (tm.count ≤ target.toNat → exec (.cmdi k target) s = .next (s.trap 7 .load 0 (target.zeroExtend 64))) ∧
  ((s.reg a).toNat % 1024 < tm.count → (s.coreAt (tm.posOf ((s.reg a).toNat % 1024))).unit.length < 16 →
    Next (exec (.cmdq d a k) s) (fun t => queued (tm.posOf ((s.reg a).toNat % 1024)) true t ∧ OnlyCtl s t ∧
      t.me = { s.me with pend := .cmdq d s.order none })) ∧
  ((s.reg a).toNat % 1024 < tm.count → 16 ≤ (s.coreAt (tm.posOf ((s.reg a).toNat % 1024))).unit.length →
    exec (.cmdq d a k) s = .next s) ∧
  (tm.count ≤ (s.reg a).toNat % 1024 →
    exec (.cmdq d a k) s = .next (s.trap 7 .load 0 (BitVec.ofNat 64 ((s.reg a).toNat % 1024))))

/-- R228, R208, R210: TSEND appends one status to its outbox: an absent one for a header of kind 6, a burst without beats for
kinds 1, 2 and 4, otherwise a burst with its beats copied from the local scratchpad at sb, whose banks are first made ready as
for any access (R361). While the outbox lacks room it waits and appends nothing; an address that is misaligned, not local, with
an unassigned bit set or past the scratchpad's end, and an uncorrectable beat, trap before anything is appended. (The model's
choices in it: log 12.) -/
def Obligations.Tsend : Prop := ∀ (a b : Reg) (box : BitVec 3) (s : State) (off : BitVec 22),
  let h := (s.reg a).extractLsb' 0 32
  let n := beatsOf h
  let z := s.touchSpan s.here off.toNat (64 * n)
  let sent := fun (x : Status) (t : State) => t.me.out box.toNat = s.me.out box.toNat ++ [x] ∧
    (∀ j : BitVec 3, j ≠ box → t.me.out j.toNat = s.me.out j.toNat) ∧ OnlyCtl s t ∧
    t.me = { s.me with outbox := t.me.outbox, ip := s.me.ip + 4, instret := s.me.instret + 1 }
  z.me = s.me ∧ ((s.coreAt s.here).bankTags = [] → z = s) ∧
  (n = 0 → outRoom (s.me.out box.toNat) 0 = true →
    Next (exec (.tsend a b box) s) (fun t => SameBytes s t ∧ sent (if hdrKind h = 6 then none else some { hdr := h, beats := [] }) t)) ∧
  (n = 0 → outRoom (s.me.out box.toNat) 0 = false → exec (.tsend a b box) s = .next s) ∧
  (n ≠ 0 → s.reg b = 0x20000000000#42 ++ off → off.toNat % 64 = 0 → off.toNat + 64 * n ≤ 2 ^ 22 →
    (s.badIn (scratchKey s.here off.toNat) (64 * n) = false →
      (outRoom (s.me.out box.toNat) n = true → Next (exec (.tsend a b box) s) (fun t => SameBytes z t ∧
        sent (some { hdr := h, beats := z.peekBeats s.here off.toNat n }) t)) ∧
      (outRoom (s.me.out box.toNat) n = false → exec (.tsend a b box) s = .next z)) ∧
    (s.badIn (scratchKey s.here off.toNat) (64 * n) = true → exec (.tsend a b box) s = .next (s.trap 3 .load 0x10 (s.reg b)))) ∧
  (n ≠ 0 → s.reg b = 0x20000000000#42 ++ off → off.toNat % 64 = 0 → 2 ^ 22 < off.toNat + 64 * n →
    exec (.tsend a b box) s = .next (s.trap 3 .load 0 (s.reg b))) ∧
  (n ≠ 0 → (s.reg b).toNat % 64 ≠ 0 → exec (.tsend a b box) s = .next (s.trap 2 .load 0 (s.reg b))) ∧
  (n ≠ 0 → (s.reg b).toNat % 64 = 0 → (s.reg b).extractLsb' 22 42 ≠ 0x20000000000#42 →
    exec (.tsend a b box) s = .next (s.trap 3 .load 0 (s.reg b)))

/-- R229, R224, R210, R208: TRECV removes the oldest entry of its inbox and writes sd; beats go to the local scratchpad at sa,
or nowhere when sa is s0; it empties the data cache. With no entry it waits without effect. An address that is misaligned, not
local, with an unassigned bit set or past the scratchpad's end traps, and so does a beat with an uncorrectable error; the entry
then stays. (The model's choices in it: log 38.) -/
def Obligations.Trecv : Prop := ∀ (d a : Reg) (box : BitVec 3) (s : State) (e : InEntry) (rest : List InEntry) (off : BitVec 22),
  s.Canonical →
  let n := 64 * e.beats.length
  let z := s.touchSpan s.here off.toNat n
  let took := fun (t : State) => t.me.box box.toNat = rest ∧ (∀ j : BitVec 3, j ≠ box → t.me.box j.toNat = s.me.box j.toNat) ∧
    t.reg d = (if d = 0 then 0 else e.sd) ∧ RegsBut d s.me t.me ∧ OnlyCtl s t ∧
    t.me = { s.me with regs := t.me.regs, inbox := t.me.inbox, dcache := [], ip := s.me.ip + 4, instret := s.me.instret + 1 }
  ((s.coreAt s.here).bankTags = [] → z = s) ∧
  (s.me.box box.toNat = [] → exec (.trecv d a box) s = .next s) ∧
  (s.me.box box.toNat = e :: rest → a = 0 ∨ e.beats = [] →
    Next (exec (.trecv d a box) s) (fun t => OnlyMe s t ∧ SameBytes s t ∧ took t)) ∧
  (s.me.box box.toNat = e :: rest → a ≠ 0 → e.beats ≠ [] →
    ((s.reg a).toNat % 64 ≠ 0 → exec (.trecv d a box) s = .next (s.trap 2 .store 0 (s.reg a))) ∧
    ((s.reg a).toNat % 64 = 0 → (s.reg a).extractLsb' 22 42 ≠ 0x20000000000#42 →
      exec (.trecv d a box) s = .next (s.trap 3 .store 0 (s.reg a))) ∧
    (s.reg a = 0x20000000000#42 ++ off → off.toNat % 64 = 0 →
      (2 ^ 22 < off.toNat + n → exec (.trecv d a box) s = .next (s.trap 3 .store 0 (s.reg a))) ∧
      (off.toNat + n ≤ 2 ^ 22 → e.bad = true → exec (.trecv d a box) s = .next (s.trap 3 .load 0x10 (s.reg a))) ∧
      (off.toNat + n ≤ 2 ^ 22 → e.bad = false → Next (exec (.trecv d a box) s) (fun t => took t ∧
        t.peek (scratchKey s.here off.toNat) n = e.beats.flatMap bytesOfBeat ∧ BytesBut (scratchKey s.here off.toNat) n z t))))

/-- R231, R224: IWAIT completes once the domain's counter has reached sa[47:0], with the counter in sd; when the domain is
done, stopped or not configured it completes with bit 63 set; otherwise it waits without effect. It empties the data cache. Its
word has imm12[11:2] and fn zero. (The model's choices in it: log 66.) -/
def Obligations.Iwait : Prop := ∀ (d a : Reg) (dom : BitVec 2) (s : State) (x : Dom),
  let got := fun (v : BitVec 64) (t : State) => OnlyMe s t ∧ SameBytes s t ∧ t.reg d = (if d = 0 then 0 else v) ∧
    RegsBut d s.me t.me ∧ t.me = { s.me with regs := t.me.regs, dcache := [], ip := s.me.ip + 4, instret := s.me.instret + 1 }
  let want := ((s.reg a).extractLsb' 0 48).toNat
  (s.domAt s.here dom.toNat = some x → want ≤ x.ctr % 2 ^ 48 →
    Next (exec (.iwait d a dom) s) (got (BitVec.ofNat 64 (x.ctr % 2 ^ 48)))) ∧
  (s.domAt s.here dom.toNat = some x → x.ctr % 2 ^ 48 < want → (x.done || x.stopped) = true →
    Next (exec (.iwait d a dom) s) (got (BitVec.ofNat 64 (2 ^ 63 + x.ctr % 2 ^ 48)))) ∧
  (s.domAt s.here dom.toNat = none → Next (exec (.iwait d a dom) s) (got (if want = 0 then 0 else BitVec.ofNat 64 (2 ^ 63)))) ∧
  (s.domAt s.here dom.toNat = some x → x.ctr % 2 ^ 48 < want → (x.done || x.stopped) = false →
    exec (.iwait d a dom) s = .next s) ∧
  (∀ w : BitVec 32, w.extractLsb' 26 6 = 0x2E → w.extractLsb' 6 10 ≠ 0 ∨ w.extractLsb' 0 4 ≠ 0 → (decodeWord w).toOption = none)

/-- R232: BARI restarts the own core's barrier; BARA and BARAW send one arrival to the barrier of the core that sa names, BARAW
then waiting; BARW completes with the barrier's P once the round that collects while P = sa[31:16] has completed, and otherwise
waits. A core id at or beyond the team's core count raises an access fault with TRAPVAL that id. (The model's choices in it:
log 18.) -/
def Obligations.BarrierInstructions : Prop := ∀ (d a : Reg) (k : BitVec 4) (s : State),
  let l := (s.reg a).toNat % 1024
  let tm := s.teamAt s.here
  let home := tm.posOf l
  let n := (s.reg a).extractLsb' 0 16
  Next (exec (.bari a k) s) (fun t => OnlyMe s t ∧ SameBytes s t ∧
    t.me = { s.me with bars := t.me.bars, ip := s.me.ip + 4, instret := s.me.instret + 1 } ∧ t.me.bar k.toNat = { n := if n = 0 then BitVec.ofNat 16 tm.count else n, a := 0, p := 0 } ∧
    ∀ j : BitVec 4, j ≠ k → t.me.bar j.toNat = s.me.bar j.toNat) ∧
  (l < tm.count → Next (exec (.bara a k) s) (fun t => SameBytes s t ∧ OnlyCtl s t ∧
    t.me = { s.me with ip := s.me.ip + 4, instret := s.me.instret + 1 } ∧ t.arrivals = s.arrivals ++ [{ src := s.here, home := home, k := k.toNat, wait := false, seq := s.order }] ∧ t.order = s.order + 1)) ∧
  (l < tm.count → Next (exec (.baraw d a k) s) (fun t => SameBytes s t ∧ OnlyCtl s t ∧
    t.me = { s.me with pend := .baraw d l k.toNat s.order none } ∧
    t.arrivals = s.arrivals ++ [{ src := s.here, home := home, k := k.toNat, wait := true, seq := s.order }] ∧ t.order = s.order + 1)) ∧
  (l < tm.count → let p := ((s.ctlAt home).bar k.toNat).p
    let q := (s.reg a).extractLsb' 16 16
    (1 ≤ (p - q).toNat ∧ (p - q).toNat ≤ 32768 → Next (exec (.barw d a k) s) (fun t => OnlyMe s t ∧ SameBytes s t ∧
      t.reg d = (if d = 0 then 0 else p.zeroExtend 64) ∧ RegsBut d s.me t.me ∧
      t.me = { s.me with regs := t.me.regs, dcache := [], ip := s.me.ip + 4, instret := s.me.instret + 1 })) ∧
    (¬(1 ≤ (p - q).toNat ∧ (p - q).toNat ≤ 32768) → exec (.barw d a k) s = .next s)) ∧
  (tm.count ≤ l → ∀ i ∈ [Instr.bara a k, .barw d a k, .baraw d a k],
    exec i s = .next (s.trap 3 .load 0 (BitVec.ofNat 64 l)))

/-- R233: an arrival that reaches its barrier counts in the round current there: A rises by one, and when it equals N the round
completes: P rises by one modulo 2^16 and A is 0. A BARAW's arrival tells its sender the phase it counts toward. Nothing else
changes but that the arrival is no longer on its way: of the home core only that barrier, of the sender only the wait of that
BARAW, be it pending or kept by a trap (R238). An arrival that a core sent after a signal of its own to the same barrier waits
until that signal has counted. (The model's choices in it: log 30.) -/
def Obligations.BarrierArrivals : Prop := ∀ (src home k : Nat) (s : State) (x : Arrival), k < 16 →
  s.arrivals.find? (fun y => y.src == src && y.home == home && y.k == k) = some x →
  let b := (s.ctlAt home).bar k
  let tells := Pend.counted x.seq b.p
  let told := fun (c : Ctl) => if x.wait then { c with pend := tells c.pend, kept := c.kept.map tells } else c
  let before := fun (g : Signal) => g.src = src ∧ g.seq < x.seq ∧ s.signalHome g = some home ∧ g.sb.toNat % 16 = k
  ((∃ g ∈ s.signals, before g) → exec (.barrierArrival src home k) s = .next s) ∧
  ((∀ g ∈ s.signals, ¬before g) → Next (exec (.barrierArrival src home k) s) (fun t => SameBytes s t ∧ t.arrivals = s.arrivals.erase x ∧
    (t.ctlAt home).bar k = (if b.a + 1 = b.n then { n := b.n, a := 0, p := b.p + 1 } else { n := b.n, a := b.a + 1, p := b.p }) ∧
    (∀ j, j ≠ k → (t.ctlAt home).bar j = (s.ctlAt home).bar j) ∧
    t.coreAt home = { s.coreAt home with
      ctl := { (if src = home then told (s.ctlAt home) else s.ctlAt home) with bars := (t.ctlAt home).bars } } ∧
    (src ≠ home → t.coreAt src = { s.coreAt src with ctl := told (s.ctlAt src) }) ∧
    (∀ q, q ≠ home → q ≠ src → t.coreAt q = s.coreAt q) ∧
    t = { s with cores := t.cores, arrivals := t.arrivals })) ∧
  (∀ d l j r, tells (.baraw d l j r none) = .baraw d l j r (if r = x.seq then some b.p else none)) ∧
  (∀ w : Pend, (∀ d l j r, w ≠ .baraw d l j r none) → tells w = w)

/-- R234, R224, R304, R305, R319: SIG sends its signal and waits for the outcome; SPAWN hands the record at sa to the
dispatcher, and sd gets the refusal's reason with bit 63 set or the new child's handle, whose task stands in the table with the
record and its parent's handle; then every task that has not started looks at its dependences. JOIN of a child that has ended
gives its status and fault code, of anything else that is not an unjoined child 3, and waits while the child runs; when it
completes it empties the data cache. (The model's choices in it: log 19, 25.) -/
def Obligations.TaskInstructions : Prop := ∀ (d a b : Reg) (s z : State) (v : List Byte) (cause err t key : Nat) (k : Task) (e : End),
  let three := fun (y : State) => OnlyMe s y ∧ SameBytes s y ∧ RegsBut d s.me y.me ∧ y.reg d = (if d = 0 then 0 else 3) ∧
    y.me = { s.me with regs := y.me.regs, dcache := [], ip := s.me.ip + 4, instret := s.me.instret + 1 }
  let src := z.spawnSrc
  let h := z.handleAt z.here
  let why := z.refusal src v (z.children h)
  let r := z.addTask src v h (2048 + (z.teamAt z.here).task)
  let y := r.1.result d (r.2.zeroExtend 64)
  Next (exec (.sig d a b) s) (fun y => SameBytes s y ∧ OnlyCtl s y ∧ y.me = { s.me with pend := .sig d s.order none } ∧
    y.signals = s.signals ++ [{ src := s.here, part := s.partOf s.here, handle := (s.reg a).extractLsb' 0 32, sb := s.reg b, seq := s.order }] ∧
    y.order = s.order + 1) ∧
  (s.load (s.reg a) 64 64 false = .ok v z → z.here = s.here ∧ z.me = { s.me with dcache := z.me.dcache } ∧
    (why ≠ 0 → exec (.spawn d a) s = .next (z.result d (BitVec.ofNat 64 (2 ^ 63 + why)))) ∧
    (why = 0 → exec (.spawn d a) s = .next y.failDeps ∧ SameBytes z y ∧ OnlyCtl s y ∧ RegsBut d s.me y.me ∧
      y.me = { s.me with regs := y.me.regs, dcache := y.me.dcache, ip := s.me.ip + 4, instret := s.me.instret + 1 } ∧
      y.reg d = (if d = 0 then 0 else r.2.zeroExtend 64) ∧
      ∃ i g c, r.2 = BitVec.ofNat 32 (g * 2 ^ 14 + i) ∧ tget z.tasks i = none ∧ tget y.tasks i = some c ∧ c.rcd = recordOf v ∧
        c.parent = h ∧ c.ended = none ∧ c.joined = false ∧ ∀ j, j ≠ i → tget y.tasks j = tget z.tasks j)) ∧
  ((s.reg a).toNat % 64 = 0 → s.locate (s.reg a) .read false = (.key key, z) → z.badIn key 64 = false →
    s.load (s.reg a) 64 64 false = .ok (readBytes z.mem key 64) z) ∧
  (s.load (s.reg a) 64 64 false = .trap cause err z → exec (.spawn d a) s = .next (z.trap cause .load err (s.reg a))) ∧
  (s.load (s.reg a) 64 64 false = .wait z → exec (.spawn d a) s = .next z) ∧
  (s.taskOf ((s.reg a).extractLsb' 0 32) = none → Next (exec (.join d a) s) three) ∧
  (s.taskOf ((s.reg a).extractLsb' 0 32) = some t → tget s.tasks t = some k →
    (k.srcCore = none ∨ k.parent ≠ s.handleAt s.here ∨ k.joined = true → Next (exec (.join d a) s) three) ∧
    (k.srcCore.isSome = true → k.parent = s.handleAt s.here → k.joined = false →
      (k.ended = none → exec (.join d a) s = .next s) ∧
      (k.ended = some e → ∃ w : State, exec (.join d a) s = .next w.sweep ∧ SameBytes s w ∧ OnlyCtl s w ∧ RegsBut d s.me w.me ∧
        w.me = { s.me with regs := w.me.regs, dcache := [], ip := s.me.ip + 4, instret := s.me.instret + 1 } ∧
        w.reg d = (if d = 0 then 0 else
          BitVec.ofNat 64 (e.st - 1 + (if e.st = 2 then e.code.toNat else 0) * 2 ^ 32)) ∧
        tget w.tasks t = some { k with joined := true } ∧ ∀ j, j ≠ t → tget w.tasks j = tget s.tasks j)))

/-- R238, R237, R239, R227, R234, R232, R350: a watchdog that is not 0 makes a waiting controller trap with cause 8 and the ip
of its instruction, with the wait-only bit where the instruction has acted, whose wait is then kept beside those kept before;
in team mode firmware ends the leaf faulted with 0x88, and so it does where the controller waits for an answer of firmware's. A
host's answer puts s1 and goes on past the TRAP or BRK, at the wait kept last where TRAPCAUSE has the wait-only bit. System
software's page answer writes the table entries, drops the partition's TLB entries and executes the instruction again, or ends
the task as for cause 3. A controller's turn whose wait has been answered (CMDQ's result word, SIG's outcome, the round of
BARAW's arrival complete) writes sd and goes on with the next instruction; one whose wait has not changes nothing. (The model's
choices in it: log 15, 16, 59.) -/
def Obligations.ControllerEvents : Prop := ∀ (core : Nat) (v : BitVec 64) (writes : List (Nat × BitVec 64)) (s : State),
  let c := s.ctlAt core
  let dead : End := { st := 2, code := faultWord 0x88 (s.lid core) 0 }
  (c.wdog ≠ 0 → c.run = .running →
    let z := s.modCtl core (fun c => { c with
      kept := if c.pend = .none then c.kept else c.pend :: c.kept, pend := .none, trapIp := c.ip, trapVal := c.ip, fwPrev := c.fw, fw := true, ip := c.tvec,
      trapCause := BitVec.ofNat 64 (8 + if c.pend = .none then 0 else 2 ^ 24) })
    (c.fw = true → exec (.watchdog core) s = .next z) ∧ (c.fw = false → exec (.watchdog core) s = .next (z.endLeaf core dead))) ∧
  (c.wdog ≠ 0 → c.run = .service ∨ c.run = .pageWait → exec (.watchdog core) s = .next ((s.modCtl core (fun c => { c with
    trapVal := c.trapIp, fwPrev := c.fw, fw := true, ip := c.tvec, trapCause := 8 })).endLeaf core dead)) ∧
  (c.wdog = 0 ∨ c.run ∈ [.idle, .halted, .stopped] → exec (.watchdog core) s = .next s) ∧
  (c.run = .service → Next (exec (.hostServiceAnswer core v) s) (fun t => SameBytes s t ∧
    t = { s with cores := t.cores, calls := s.calls.filter (fun x => x.1 != core) } ∧
    t.coreAt core = { s.coreAt core with ctl := t.ctlAt core } ∧ (t.ctlAt core).get 1 = v ∧
    (∀ r : Reg, r ≠ 1 → (t.ctlAt core).get r = c.get r) ∧
    t.ctlAt core = { c with
      regs := (t.ctlAt core).regs, trapIp := c.trapIp + 4, ip := (c.trapIp + 4) &&& ~~~3#64, fw := c.fwPrev, fwPrev := false,
      pend := if c.trapCause.getLsbD 24 then c.kept.headD .none else .none,
      kept := if c.trapCause.getLsbD 24 then c.kept.drop 1 else c.kept, run := .running, dcache := [] } ∧
    ∀ q, q ≠ core → t.coreAt q = s.coreAt q)) ∧
  (c.run ≠ .service → exec (.hostServiceAnswer core v) s = .next s) ∧
  (c.run = .pageWait → s.Canonical →
    Next (exec (.systemSoftwarePageAnswer core (some writes)) s) (fun t =>
      (writes.Pairwise (fun x y => x.1 + 8 ≤ y.1 ∨ y.1 + 8 ≤ x.1) → ∀ x ∈ writes, readNat t.mem x.1 8 = x.2.toNat) ∧
      (∀ k, (∀ x ∈ writes, k < x.1 ∨ x.1 + 8 ≤ k) → readCell t.mem k = readCell s.mem k) ∧
      t.ctlAt core = { c with
        ip := c.trapIp &&& ~~~3#64, fw := c.fwPrev, fwPrev := false, run := .running, dcache := [],
        pend := if c.trapCause.getLsbD 24 then c.kept.headD .none else .none,
        kept := if c.trapCause.getLsbD 24 then c.kept.drop 1 else c.kept } ∧
      (∀ q, q ≠ core → t.ctlAt q = s.ctlAt q) ∧ t.pageAsks = s.pageAsks.filter (fun x => x.1 != core) ∧
      ∀ q, (t.coreAt q).tlb = (s.coreAt q).tlb.filter (fun e => e.part != s.partOf core) ∧
        tgetD [] t.dieTlb q = (tgetD [] s.dieTlb q).filter (fun e => e.part != s.partOf core)) ∧
    exec (.systemSoftwarePageAnswer core none) s = .next (({ s with
      pageAsks := s.pageAsks.filter (fun x => x.1 != core) } : State).endLeaf core
        { st := 2, code := faultWord 0x83 (s.lid core) 0 })) ∧
  (c.run ≠ .pageWait → ∀ o, exec (.systemSoftwarePageAnswer core o) s = .next s) ∧
  (∀ rest, s.agenda = .ctl core :: rest → core < Config.coreCount → s.booted = true → c.run = .running → c.preempt = false →
    let z := { s.begin_ rest with here := core }
    let gets := fun (d : Reg) (x : BitVec 64) (dc : Tab Memory) => Next (step s) (fun t => OnlyMe z t ∧ RegsBut d c t.me ∧
      t.reg d = (if d = 0 then 0 else x) ∧
      t.me = { c with regs := t.me.regs, ip := c.ip + 4, instret := c.instret + 1, pend := .none, dcache := dc })
    (∀ d n x, c.pend = .cmdq d n (some x) ∨ c.pend = .sig d n (some x) → gets d x c.dcache) ∧
    (∀ d n, c.pend = .cmdq d n none ∨ c.pend = .sig d n none → step s = .next z) ∧
    (∀ d l k n q, c.pend = .baraw d l k n (some q) →
      let p := ((s.ctlAt ((s.teamAt core).posOf l)).bar k).p
      (1 ≤ (p - q).toNat ∧ (p - q).toNat ≤ 32768 → gets d (p.zeroExtend 64) []) ∧
      (¬(1 ≤ (p - q).toNat ∧ (p - q).toNat ≤ 32768) → step s = .next z)) ∧
    (∀ d l k n, c.pend = .baraw d l k n none → step s = .next z))

/-- R246, R227, R229, R230: a rejected command leaves its unit's queue and has no other effect than its report: CMDQ's wait
gets bit 63 with the error token's header, CMDI's issuer an entry in inbox 7 with the header, the command code and the
rejecting core's id, or, where inbox 7 has no room, one more lost entry in INBOXLOST [31:16], which saturates. Nothing else of
any core or of the package changes. A reserved flag rejects with 0x51 at w0, an unassigned command code with 0x50. (The model's
choices in it: log 54.) -/
def Obligations.CommandRejections : Prop := ∀ (c : CmdArgs) (s : State) (q : QCmd) (code word : Nat), s.headOf s.here = some q →
  code < 256 →
  let t := s.cmdReject s.here code word
  let v := 0x8000000000000000 ||| (errHeader code word).zeroExtend 64
  let e : InEntry :=
    { sd := 0#14 ++ BitVec.ofNat 10 (s.lid s.here) ++ q.img.extractLsb' 0 8 ++ errHeader code word, hdr := errHeader code word, beats := [] }
  let reports := fun (f : Ctl → Ctl) => t = { s with cores := t.cores } ∧ ∀ p, t.coreAt p = { s.coreAt p with
    unit := if p = s.here then (s.coreAt p).unit.drop 1 else (s.coreAt p).unit,
    ctl := if p = q.issuer then f (s.ctlAt p) else s.ctlAt p }
  (q.viaQ = true → reports (fun k => { k with pend := k.pend.answer q.seq v, kept := k.kept.map (Pend.answer q.seq v) })) ∧
  (q.viaQ = false → boxRoom ((s.ctlAt q.issuer).box 7) e = true →
    reports (fun k => { k with inbox := k.inbox.set 7 (k.inbox[7] ++ [e]) })) ∧
  (q.viaQ = false → boxRoom ((s.ctlAt q.issuer).box 7) e = false → reports (fun k => { k with
    inboxLost := (if k.inboxLost.extractLsb' 16 16 = 0xFFFF#16 then 0xFFFF#16 else k.inboxLost.extractLsb' 16 16 + 1) ++
      k.inboxLost.extractLsb' 0 16 })) ∧
  (∀ code, exec (.unassignedCommandCode code c) s = .next (s.cmdReject s.here 0x50 0)) ∧
  (c.flags ≠ 0 → ∀ i ∈ [Instr.bound c, .steert c, .inject c, .retry c, .tfire c, .tdisarm c, .copy c, .lxrun c, .cfgld c, .domgo c,
      .domstop c, .domload c, .wheeldef c, .amxr c, .ckpt c, .ckdrain c, .bkey c, .linkcfg c, .linkstat c],
    exec i s = .next (s.cmdReject s.here 0x51 0)) ∧
  (c.flags ≠ 0 → (s.coreAt s.here).hubCmd = none → exec (.hubrd c) s = .next (s.cmdReject s.here 0x51 0)) ∧
  (c.flags &&& 0xFE ≠ 0 → ∀ i ∈ [Instr.feed c, .bindw c, .tarm c, .cfgq c, .domsave c],
    exec i s = .next (s.cmdReject s.here 0x51 0))

/-- R249, R250, R167, R185: FEED and BINDW whose checks hold bind the port to the pattern that the record and its origins form,
once its node stands between instants and (R331) the order of its tile's accesses lets it: BASE, the four counts less one and
the four strides of a local port (registers 5 to 11), the pattern kept in the binding of a global one; its indices start at 0,
and its count of instants is FEED's limit, that of the instants of the binding. No other register and no other node changes. In
a done domain they have no effect; while the node is within an instant they wait. (The model's choices in it: log 49, 54, 79.) -/
def Obligations.PortBindings : Prop := ∀ (c : CmdArgs) (s : State) (q : QCmd) (n : Node) (d : Dom) (r : TRec) (pat : Pattern),
  s.headOf s.here = some q → s.cmdNode c.target.toNat = some n → s.domOf s.here n = some d →
  s.readRec s.here q.trb (c.w1.extractLsb' 0 8).toNat = some r →
  formPattern r (bindOrigins n.op (c.flags.getLsbD 0) c r) (portWidth n.rcd.fmt.toNat) = some pat →
  let cnt := fun i => pat.cnt.getD i 1 - 1
  let str := fun i => (BitVec.ofInt 24 (pat.str.getD i 0)).zeroExtend 32
  let bound := fun (left : Nat) (t : State) => Finished q 0 s t ∧ SameBytes s t ∧
    (d.done = true → (t.coreAt s.here).cfg = (s.coreAt s.here).cfg) ∧
    (∀ j, j ≠ c.target.toNat → (t.coreAt s.here).node j = (s.coreAt s.here).node j) ∧
    (d.done = false → ∃ m, (t.coreAt s.here).node c.target.toNat = some m ∧
      m = { n with regs := m.regs, bind := m.bind, burst := 0, prog := 0, part := [], exh := false } ∧
      m.reg 16 = BitVec.ofNat 32 left ∧ m.reg 17 = 1 ∧ (∀ i, i < 4 → m.reg (12 + i) = 0) ∧
      (∀ j, j < 5 ∨ 17 < j → m.reg j = n.reg j) ∧
      (globalOp n.op = false → m.bind = some r ∧ m.reg 5 = BitVec.ofNat 32 pat.base ∧
        m.reg 6 = BitVec.ofNat 32 (cnt 0) + BitVec.ofNat 32 (cnt 1) * 65536 ∧
        m.reg 7 = BitVec.ofNat 32 (cnt 2) + BitVec.ofNat 32 (cnt 3) * 65536 ∧ ∀ i, i < 4 → m.reg (8 + i) = str i) ∧
      (globalOp n.op = true → m.bind = some { r with base := BitVec.ofNat 64 pat.base, ext := pat.cnt, str := pat.str } ∧
        ∀ j, 5 ≤ j ∧ j < 12 → m.reg j = n.reg j))
  let clear := d.done = true ∨ s.bindClear s.here c.target.toNat n pat = true
  (Passes (s.bindChecks c [0x80, 0x82, 0x86] true q) →
    (n.mid = false → n.hold = none → clear → Next (exec (.feed c) s) (bound (c.w1.extractLsb' 8 24).toNat)) ∧
    (n.mid = true ∨ n.hold.isSome = true ∨ ¬clear → exec (.feed c) s = .next s)) ∧
  (Passes (s.bindChecks c [0x81, 0x83, 0x84, 0x87] false q) →
    (n.mid = false → n.hold = none → clear → Next (exec (.bindw c) s) (bound 0)) ∧
    (n.mid = true ∨ n.hold.isSome = true ∨ ¬clear → exec (.bindw c) s = .next s)) ∧
  (globalOp n.op = true → clear)

/-- R252, R251, R117, R353, R253: BOUND, STEERT and INJECT whose checks hold queue one token for instant T on the command input
they name, its header and beats read from the scratchpad; where one of its bytes cannot be corrected the token is an error
token 0x10, and record 0x10 is written. RETRY releases a held port, whose access is attempted again. (The model's choices in
it: log 54, 71, 75.) -/
def Obligations.TokenCommands : Prop := ∀ (c : CmdArgs) (s : State) (q : QCmd) (n : Node) (d : Dom) (off : BitVec 22),
  s.headOf s.here = some q → c.w3 = off.zeroExtend 32 →
  (s.cmdNode (c.target.extractLsb' 0 7).toNat = some n → s.domOf s.here n = some d → d.done = false →
    let id := (c.target.extractLsb' 0 7).toNat
    let at_ := n.inst / 2 ^ 48 * 2 ^ 48 + (c.w2.extractLsb' 0 16 ++ c.w1).toNat
    let z := s.touch s.here off.toNat
    let token := fun (b : Burst) (t : State) => Finished q 0 s t ∧ (t.coreAt s.here).node id =
      some { n with toks := n.toks ++ [((c.target.extractLsb' 8 2).toNat, at_, b)] }
    let lost := fun (x : State) (o : Nat) => x.fault (x.partOf s.here) { x.recAt s.here 0x10 0xFF 0xFF with addr := o, bank := 64 + o / 65536 }
    ((s.coreAt s.here).bankTags = [] → z = s) ∧
    (Passes (s.tokenChecks c (fun m i => m.op == 0x65 && i == 1)) → off.toNat % 64 = 0 →
      (z.badIn (scratchKey s.here off.toNat) 64 = false → Next (exec (.bound c) s) (fun t => SameBytes z t ∧
        token { hdr := mkHdr 3 0 0 0 0, beats := [beatOfBytes (z.peek (scratchKey s.here off.toNat) 64)] } t)) ∧
      (z.badIn (scratchKey s.here off.toNat) 64 = true → Next (exec (.bound c) s) (fun t =>
        SameBytes (lost z off.toNat) t ∧ token (errToken 0x10 0 0) t))) ∧
    (Passes (s.tokenChecks c (fun m i => m.op == 0x42 && i == 2)) → off.toNat < 4096 →
      Next (exec (.steert c) s) (fun t => SameBytes s t ∧ token { hdr := mkHdr 4 0 0 0 off.toNat, beats := [] } t)) ∧
    (Passes (s.tokenChecks c (fun _ _ => true)) → off.toNat % 64 = 0 → ∀ h : BitVec 32,
      h.toNat = readNat z.mem (scratchKey s.here off.toNat) 4 → hdrKind h ≤ 5 → off.toNat + 64 + 64 * beatsOf h ≤ 2 ^ 22 →
      let y := z.touch s.here (off.toNat + 64 * beatsOf h)
      ((s.coreAt s.here).bankTags = [] → y = s) ∧
      (z.badIn (scratchKey s.here off.toNat) 4 = true → Next (exec (.inject c) s) (fun t =>
        (y.badIn (scratchKey s.here off.toNat) 4 = true → SameBytes (lost y off.toNat) t ∧ token (errToken 0x10 0 0) t))) ∧
      (z.badIn (scratchKey s.here off.toNat) 4 = false → y.badIn (scratchKey s.here (off.toNat + 64)) (64 * beatsOf h) = true →
        Next (exec (.inject c) s) (fun t => SameBytes (lost y (off.toNat + 64)) t ∧ token (errToken 0x10 0 (hdrLevel h)) t)) ∧
      (z.badIn (scratchKey s.here off.toNat) 4 = false → y.badIn (scratchKey s.here (off.toNat + 64)) (64 * beatsOf h) = false →
        Next (exec (.inject c) s) (fun t => SameBytes y t ∧
          token { hdr := h, beats := y.peekBeats s.here (off.toNat + 64) (beatsOf h) } t)))) ∧
  (∀ m h, c.flags = 0 → c.w1 = 0 → c.w2 = 0 → c.w3 = 0 → 64 ≤ c.target.toNat → c.target.toNat < 80 →
    s.cmdNode c.target.toNat = some m → m.hold = some h → Next (exec (.retry c) s) (fun t => Finished q 0 s t ∧ SameBytes s t ∧
      (t.coreAt s.here).node c.target.toNat = some { m with hold := none }))

/-- R254, R255, R256: TARM arms its template with the records that w1 [7:0] and [15:8] name, the reduction of w1 [17:16], the
notified core and inbox of w2, one-shot as w0 [8] says, and the layout program that w3, or else the source record, names; TFIRE
places one trigger with level 0 and value 0, and waits while the queue of 16 is full; TDISARM disarms and discards the queued
triggers; COPY places one copy of the same fields without a template; LXRUN's result is that of the program's check, for a
program that can be read. (The model's choices in it: log 12, 53.) -/
def Obligations.CopyCommands : Prop := ∀ (c : CmdArgs) (s : State) (q : QCmd) (a b : TRec),
  s.headOf s.here = some q →
  let k := c.target.toNat
  let e := (s.coreAt s.here).ce
  let named := s.readRec s.here q.trb (c.w1.extractLsb' 0 8).toNat = some a ∧ s.readRec s.here q.trb (c.w1.extractLsb' 8 8).toNat = some b
  let prog := (c.w3.extractLsb' 0 22).toNat
  let at_ := if prog = 0 then a.prog else prog
  let tpl : Template := {
    src := a, dst := b, red := (c.w1.extractLsb' 16 2).toNat, core := (c.w2.extractLsb' 0 10).toNat, box := (c.w2.extractLsb' 10 3).toNat,
    once := c.flags.getLsbD 0, prog := if at_ = 0 then [] else s.readProg s.here at_ }
  let engine := fun (e' : CopyEng) (t : State) => Finished q 0 s t ∧ SameBytes s t ∧ (t.coreAt s.here).ce = e'
  (c.flags &&& 0xFE = 0 → k < 16 → Passes (s.copyChecks c q) → e.queued k = 0 → (∀ j ∈ e.jobs, j.tpl ≠ some k) →
    named → Next (exec (.tarm c) s) (engine { e with templates := tset e.templates k tpl })) ∧
  (c.flags = 0 → k = 0 → Passes (s.copyChecks c q) → named → Next (exec (.copy c) s)
    (engine { e with trigs := e.trigs ++ [{ tpl := none, job := some tpl, level := 0, value := 0, empty := false }] })) ∧
  (c.flags = 0 → c.w1 = 0 → c.w2 = 0 → c.w3 = 0 → k < 16 →
    ((tget e.templates k).isSome = true → e.queued k < 16 → Next (exec (.tfire c) s)
      (engine { e with trigs := e.trigs ++ [{ tpl := some k, job := none, level := 0, value := 0, empty := false }] })) ∧
    ((tget e.templates k).isSome = true → 16 ≤ e.queued k → exec (.tfire c) s = .next s) ∧
    (tget e.templates k = none → exec (.tfire c) s = .next (s.cmdReject s.here 0x54 0)) ∧
    Next (exec (.tdisarm c) s) (engine { e with
      templates := e.templates.filter (fun x => x.1 ≠ k), trigs := e.trigs.filter (fun x => x.tpl ≠ some k) })) ∧
  (c.flags = 0 → k = 0 → c.w1.toNat < 65536 → c.w2 = 0 → c.w3.toNat % 8 = 0 → 0x3E0000 ≤ c.w3.toNat → c.w3.toNat < 2 ^ 22 →
    named → s.badIn (scratchKey s.here c.w3.toNat) (8 * (s.readProg s.here c.w3.toNat).length) = false →
    Next (exec (.lxrun c) s) (fun t => SameBytes s t ∧
      Finished q (lxResult b (lxProgram { src := a, dst := b } (s.readProg s.here c.w3.toNat))) s t))

/-- R257, R258, R68, R69, R70, R134, R135, R316: CFGLD of an aligned address in local or global space, for a region, is refused
with status 1 while the region is not drained; else it is the loader's wave, done with result 0 or rejected with the loader's
status. An image with the identity resident there is not checked again; any other must be readable, have a sound header, the
shape of the region and of the command, its identity, and no failure of R69, of which the first is reported. A load leaves the
region configured with the image's identity and every domain at 0 with limit 0; a failed one leaves it unconfigured with the
failure in its detail word. CFGQ gives a node's register at the node's instant boundary, cleared where the command says so; the
detail word; or a domain's counter and state. (The model's choices in it: log 54, 58, 66, 70, 77, 82, 83, 84, 89.) -/
def Obligations.ConfigurationCommands : Prop := ∀ (c : CmdArgs) (s : State) (q : QCmd) (k : Nat) (r : Region) (n : Node) (d : Dom),
  s.headOf s.here = some q → s.cmdRegion = some (k, r) →
  let a := c.w2 ++ c.w1
  (c.flags = 0 → c.target = 0 → a.toNat % 64 = 0 → (∃ v, spaceOf a = .global v ∨ spaceOf a = .localMem v) → c.w3.toNat < 2 ^ 18 →
    let shape := ((c.w3.extractLsb' 0 8).toNat, (c.w3.extractLsb' 8 8).toNat, (c.w3.extractLsb' 16 2).toNat + 1)
    let z := s.loadImage k s.here a (some shape)
    let loaded := fun (ident : BitVec 256) (doms : Nat) => z.2 = 0 ∧ ∃ g, tget z.1.regions k = some g ∧ g.configured = true ∧
      g.ident = ident ∧ g.image = a ∧ g.detail = 0 ∧ g.begun = false ∧ g.doms.length = doms ∧
      (∀ x ∈ g.doms, x.ctr = 0 ∧ x.lim = 0 ∧ x.unlim = false ∧ x.done = false ∧ x.stopped = false) ∧
      (g.row, g.col, g.h, g.w, g.part, g.team) = (r.row, r.col, r.h, r.w, r.part, r.team) ∧
      ∀ x ∈ g.kept, (z.1.coreAt (r.posOf x.1)).region = some k ∧ (z.1.coreAt (r.posOf x.1)).cfg.isSome = true
    let fails := fun (f : LoadFail) => z.2 = f.detail ∧ ∃ g, tget z.1.regions k = some g ∧ g.configured = false ∧ g.detail = f.detail ∧
      g.doms = [] ∧ ∀ p ∈ r.cores, (s.coreAt p).region = some k → (z.1.coreAt p).cfg = none
    (s.drained k = false →
      exec (.cfgld c) s = .next ((s.modRegion k (fun g => { g with detail := 1 })).cmdReject s.here 1 0)) ∧
    (s.drained k = true → z.2 = 0 → exec (.cfgld c) s = .next (z.1.cmdDone s.here 0)) ∧
    (s.drained k = true → z.2 ≠ 0 → exec (.cfgld c) s = .next (z.1.cmdReject s.here (z.2.toNat % 256) 0)) ∧
    (s.imageBytes s.here a 64 = none → fails (headFail 0x12 0)) ∧
    (∀ b, s.imageBytes s.here a 64 = some b →
      let hd := imgHead b
      (r.configured = true → hd.ident = r.ident → r.kept ≠ [] → loaded r.ident r.doms.length) ∧
      (r.configured = false ∨ hd.ident ≠ r.ident ∨ r.kept = [] →
        (hd.len % 64 ≠ 0 ∨ hd.len < 64 ∨ 4194304 < hd.len → fails (headFail 2 0)) ∧
        (hd.len % 64 = 0 → 64 ≤ hd.len → hd.len ≤ 4194304 →
          (s.imageBytes s.here a hd.len = none → fails (headFail 0x12 0)) ∧
          (∀ img, s.imageBytes s.here a hd.len = some img →
            let env := s.loadEnv k r (some shape)
            (∀ f, checkImage env img = .error f → fails f) ∧ (∀ l, checkImage env img = .ok l → loaded hd.ident hd.doms) ∧
            ((imgHead img).sound = false → checkImage env img = .error (headFail 2 0)) ∧
            (∀ l, (imgHead img).sound = true →
              (List.range (imgHead img).count).map (sectOf img (imgHead img)) = l.map some →
              (imageFails env (imgHead img) img l = [] → checkImage env img = .ok l) ∧
              (∀ f, checkImage env img = .error f →
                f ∈ imageFails env (imgHead img) img l ∧ ∀ x ∈ imageFails env (imgHead img) img l, f.rank ≤ x.rank) ∧
              (imgIdentity img ≠ (imgHead img).ident → headFail 3 0 ∈ imageFails env (imgHead img) img l) ∧
              (((imgHead img).h, (imgHead img).w, (imgHead img).doms) ≠ shape ∨ (imgHead img).h ≠ r.h ∨ (imgHead img).w ≠ r.w →
                headFail 4 0 ∈ imageFails env (imgHead img) img l))))))) ∧
  (c.w2 = 0 → c.w3 = 0 → c.w1.toNat < 65536 → let j := c.w1.toNat
    (c.flags &&& 0xFE = 0 → c.target.toNat < 96 → s.cmdNode c.target.toNat = some n → j < regCount n →
      (c.flags = 0 ∨ clearable n j = true) →
      (n.mid = false → n.hold = none → Next (exec (.cfgq c) s) (fun t => Finished q ((n.reg j).zeroExtend 64) s t ∧ SameBytes s t ∧
        (t.coreAt s.here).node c.target.toNat = some (if c.flags = 0 then n else n.setReg j 0))) ∧
      (n.mid = true ∨ n.hold.isSome = true → exec (.cfgq c) s = .next s)) ∧
    (c.flags = 0 → j = 0 → c.target = 0x200 → Next (exec (.cfgq c) s) (Finished q r.detail s)) ∧
    (c.flags = 0 → j = 0 → ∀ i, i < 4 → c.target.toNat = 0x100 + i → r.doms[i]? = some d → Next (exec (.cfgq c) s)
      (Finished q (BitVec.ofNat 64 (d.ctr % 2 ^ 48 + 2 ^ 48 * (if d.stopped then 4 else if d.done then 3
        else if d.unlim = false ∧ d.lim ≤ d.ctr then 1 else 2))) s)))

/-- R259, R130: DOMGO adds its grant to the limit, or lifts it for a grant of 0; a done domain is unaffected; the result is the
limit modulo 2^48, or all ones when unlimited; counters and limits run on in the model (log 71). DOMSTOP lowers the limit to
after the named instant, or to the instants begun, never raising it. A domain that is not configured rejects either with 0x54.
(The model's choices in it: log 54, 71.) -/
def Obligations.DomainCommands : Prop := ∀ (c : CmdArgs) (s : State) (q : QCmd) (k : Nat) (r : Region) (i : Nat) (d : Dom),
  s.headOf s.here = some q → s.cmdRegion = some (k, r) → c.flags = 0 → c.target.toNat = i → i < 4 → c.w2.toNat < 65536 →
  c.w3 = 0 →
  let v := (c.w2.extractLsb' 0 16 ++ c.w1).toNat
  let ended := fun (x : Dom) (t : State) => SameBytes s t ∧
    Finished q (if x.unlim then 0xFFFFFFFFFFFF else BitVec.ofNat 64 (x.lim % 2 ^ 48)) s t ∧
    ∃ g, tget t.regions k = some g ∧ g.doms[i]? = some x ∧ ∀ j, j ≠ i → g.doms[j]? = r.doms[j]?
  (r.doms[i]? = none → exec (.domgo c) s = .next (s.cmdReject s.here 0x54 0) ∧
    exec (.domstop c) s = .next (s.cmdReject s.here 0x54 0)) ∧
  (r.doms[i]? = some d → d.done = true → Next (exec (.domgo c) s) (ended d)) ∧
  (r.doms[i]? = some d → d.done = false → v = 0 → Next (exec (.domgo c) s) (ended { d with unlim := true })) ∧
  (r.doms[i]? = some d → d.done = false → v ≠ 0 → d.unlim = true → Next (exec (.domgo c) s) (ended d)) ∧
  (r.doms[i]? = some d → d.done = false → v ≠ 0 → d.unlim = false →
    Next (exec (.domgo c) s) (ended { d with lim := d.lim + v })) ∧
  (r.doms[i]? = some d → let l := if v = 2 ^ 48 - 1 then s.begunIn r i d else max (d.ctr / 2 ^ 48 * 2 ^ 48 + v + 1) (s.begunIn r i d)
    Next (exec (.domstop c) s) (ended (if d.unlim = true ∨ l < d.lim then { d with lim := l, unlim := false } else d)))

/-- R260, R359, R361, R362, R363: DOMSAVE from a controller in firmware mode, of a region at rest or deep, writes the header,
the scratchpads (of a region of at most 64 cores), with a deep save the channel buffers, and the cores' state to its area,
whose bytes then stand for the team's save wherever they are read, and completes with the bytes written; the banks of a larger
region are tagged with its task. Where an address of the area cannot be written it is rejected with 0x53 at w1, and where the
region is not at rest with 0x54. DOMLOAD of a save of a team of its shape and identity puts its controllers (as saved where no
signal is parked in the area), domains and wheels back, and completes with the bytes read. From team mode either is rejected
with 0x56. (The model's choices in it: log 32, 33, 95.) -/
def Obligations.SaveCommands : Prop := ∀ (c : CmdArgs) (s z : State) (q : QCmd) (k : Nat) (r : Region) (sv : Saved) (y : State) (sv1 : Saved),
  s.headOf s.here = some q → s.cmdRegion = some (k, r) → c.target = 0 → (c.w2 ++ c.w1).toNat % 4096 = 0 →
  (∃ v, spaceOf (c.w2 ++ c.w1) = .global v) → c.w3 = 0 →
  let a := (c.w2 ++ c.w1).toNat
  let tm := s.teamAt s.here
  let part := s.partOf s.here
  let deep := c.flags.getLsbD 0
  let rests := (List.range r.doms.length).all (fun i => (r.doms[i]?).all (fun d =>
    restsAt d (((s.nodesOf r).filter (fun n => n.2.2.dom == i)).map (fun n => n.2.2))))
  let s0 := s.ownBanks tm.cores
  let s1 := s0.cmdDone s.here (BitVec.ofNat 64 (saveBytes (s0.capture tm k (some a) deep) tm.count))
  let w := s1.capture tm k (some a) deep
  (q.fw = true → c.flags &&& 0xFE = 0 → deep = true ∨ rests = true → s.saveTo s.here k a deep = some z →
    exec (.domsave c) s = .next z ∧ Finished q (BitVec.ofNat 64 (saveBytes w tm.count)) s z ∧
    tget z.areas (Config.savedKey (stateBlocks s1.free tm.count)) = some w ∧
    (∃ x, s1.putPieces w.part ((savedRanges a s1.free w tm (s1.parkedOf tm)).flatMap (fun x => pieces x.1 x.2.1 x.2.2)) = some x ∧
      SameBytes x z) ∧
    (64 < tm.count → ∀ p ∈ tm.cores, ∀ b, b < 64 → tget (z.coreAt p).bankTags b = some w.handle) ∧
    w.deep = deep ∧ (w.row, w.col) = (tm.row, tm.col) ∧ w.wheels = tm.wheels ∧ w.cores.length = tm.count ∧
    (s.Canonical → tm.count ≤ 64 → ∀ l o, l < tm.count → o < 2 ^ 22 →
      readCell (w.scratch.getD l []) o = readCell s0.mem (scratchKey (tm.posOf l) o)) ∧
    (s.Canonical → let h := writeBytes [] 0 (saveHeader w tm.h tm.w (s1.parkedOf tm))
      readNat h 0 4 = 0x56535144 ∧ readNat h 4 2 = 1 ∧ readNat h 6 2 = deep.toNat + 2 * (r.configured && !r.begun).toNat + 4 * (decide (64 < tm.count)).toNat ∧
      readNat h 8 1 = tm.h % 256 ∧ readNat h 9 1 = tm.w % 256 ∧ readNat h 0x10 32 = r.ident.toNat ∧ readNat h 0x30 8 = r.image.toNat)) ∧
  (q.fw = true → c.flags &&& 0xFE = 0 → deep = true ∨ rests = true → s.saveTo s.here k a deep = none →
    exec (.domsave c) s = .next (s.cmdReject s.here 0x53 1)) ∧
  (q.fw = true → c.flags = 0 → rests = false → s.saveTo s.here k a false = some z →
    exec (.domsave c) s = .next (s.cmdReject s.here 0x54 0)) ∧
  (c.flags = 0 → r.configured = true → r.begun = false → s.saveAt part a tm.h tm.w = some sv →
    sv.region.ident = r.ident → s.fromArea part a tm sv = some (y, sv1) →
    let n := BitVec.ofNat 64 (saveBytes sv1 tm.count)
    let u := (y.popCmd s.here).restoreSave s.here k sv1
    (q.fw = true → exec (.domload c) s = .next (if q.viaQ then match (s.ctlAt q.issuer).pend with
      | .cmdq x _ _ => u.modCtl q.issuer (fun k => k.put x n)
      | _ => u else u) ∧
      (sv1.parked = s.parkedAt part a) ∧ (sv1.parked = [] → tm.w ≤ Config.gridCols → ∀ l x, l < tm.count → sv1.cores[l]? = some x → u.ctlAt (tm.posOf l) = { x.ctl with start := s.steps }) ∧
      (∀ t, (s.coreAt s.here).team = some t → tget s.teams t = some tm → (u.teamAt s.here).wheels = sv1.wheels) ∧
      (sv1.region.configured = true → sv1.unloaded = false → ∃ g, tget u.regions k = some g ∧ g.doms = sv1.region.doms ∧ g.begun = true) ∧
      (sv1.unloaded = true → ∀ p, (u.coreAt p).cfg = (s.coreAt p).cfg)) ∧
    (q.fw = false → exec (.domload c) s = .next (s.cmdReject s.here 0x56 0))) ∧
  (q.fw = false → c.flags = 1 → s.saveTo s.here k a true = some z → exec (.domsave c) s = .next (s.cmdReject s.here 0x56 0))

/-- R261, R262, R263: WHEELDEF defines the team's wheel from its fields and its member table; HUBRD begins a read under the
wheel's definition; AMXR returns a record's amax bits, NaN bit and count, and clears them in memory, no other byte. The banks
that they read are made ready first, as for any access (R361). (The model's choices in it: log 44.) -/
def Obligations.HubCommands : Prop := ∀ (c : CmdArgs) (s : State) (q : QCmd) (w : Wheel) (off : BitVec 22) (tm : Team) (n k : Nat),
  s.Canonical →
  s.headOf s.here = some q → c.flags = 0 → c.w3 = off.zeroExtend 32 →
  let z := s.touchSpan s.here off.toNat (8 * n)
  let y := s.touch s.here (recOffset (s.ctlAt s.here).trb c.target.toNat)
  ((s.coreAt s.here).bankTags = [] → z = s ∧ y = s) ∧
  (c.target.toNat < 16 → (s.coreAt s.here).team = some k → tget s.teams k = some tm → isWheelFmt (c.w1.extractLsb' 0 6).toNat = true →
    c.w1.extractLsb' 10 2 = 0 → c.w1.extractLsb' 23 9 = 0 → ((c.w1.extractLsb' 0 6).toNat = 0x14 ∨ c.w1.getLsbD 9 = false) →
    n = (c.w1.extractLsb' 16 7).toNat → 2 ≤ n → n ≤ 64 → c.w2.toNat < 2 ^ 22 → c.w2.toNat ≠ 0 → c.w2.toNat % 64 = 0 →
    off.toNat % 8 = 0 → off.toNat + 8 * n ≤ 2 ^ 22 → s.badIn (scratchKey s.here off.toNat) (8 * n) = false →
    (z.wheelMembers off.toNat n).all (memberOk tm.count c.w2.toNat) = true →
    ((z.wheelMembers off.toNat n).map (fun e => (e.extractLsb' 0 10).toNat)).Nodup →
    Next (exec (.wheeldef c) s) (fun t => Finished q 0 s t ∧ SameBytes z t ∧ ∃ x, tget t.teams k = some x ∧
      tget x.wheels c.target.toNat = some
        { fmt := (c.w1.extractLsb' 0 6).toNat, op := (c.w1.extractLsb' 6 2).toNat, error := c.w1.getLsbD 8, sat := c.w1.getLsbD 9,
          bar := (c.w1.extractLsb' 12 4).toNat, len := c.w2.toNat,
          members := (z.wheelMembers off.toNat n).map (fun e => ((e.extractLsb' 0 10).toNat, (e.extractLsb' 32 22).toNat)) })) ∧
  (c.target.toNat < 16 → s.wheelAt s.here c.target.toNat = some w → (s.coreAt s.here).hubCmd = none →
    c.w1.toNat < 2 ^ 22 → c.w1.toNat % 64 = 0 → c.w2.toNat < 2 ^ 22 → off.toNat % 64 = 0 →
    off.toNat + 64 * ((c.w2.extractLsb' 16 6).toNat + 1) ≤ 2 ^ 22 →
    Next (exec (.hubrd c) s) (fun t => SameBytes s t ∧ ∃ h : HubJob,
      h = { wheel := some w, off := c.w1.toNat, beats := (c.w2.extractLsb' 16 6).toNat + 1,
            phase := c.w2.extractLsb' 0 16, dest := off.toNat } ∧
      t.coreAt s.here = { s.coreAt s.here with hubCmd := some h })) ∧
  (c.target.toNat < 256 → c.w1 = 0 → c.w2 = 0 → c.w3 = 0 →
    (y.readRec s.here (s.ctlAt s.here).trb c.target.toNat).isSome = true →
    let key := scratchKey s.here (recOffset (s.ctlAt s.here).trb c.target.toNat)
    Next (exec (.amxr c) s) (fun t => BytesBut (key + 0xA0) 8 y t ∧ readNat t.mem (key + 0xA0) 8 = 0 ∧
      let u := BitVec.ofNat 32 (readNat y.mem (key + 0xA4) 4)
      Finished q (BitVec.ofNat 64 (readNat y.mem (key + 0xA0) 4 + (if u.getLsbD 0 then 2 ^ 32 else 0) +
        min (u.toNat / 2) (2 ^ 30 - 1) * 2 ^ 33)) s t))

/-- R264, R265, R297, R365, R266: BKEY moves a key that no node holds at once and otherwise asks its holder for it; in a team
that has no configuration on the core it is rejected; CKPT marks its range copy-on-write and binds it to the slot; CKDRAIN
queues the slot's drain; LINKCFG enables and compresses the granted channels of an up port; LINKSTAT returns the partition's
channels, the link's state and the replays. (The model's choices in it: log 23, 34, 45, 46.) -/
def Obligations.MemoryAndLinkCommands : Prop := ∀ (c : CmdArgs) (s : State) (q : QCmd) (g : Cfg) (sl : Slot) (leaves : List Nat),
  s.Canonical →
  s.headOf s.here = some q → c.flags = 0 →
  let k := c.target.toNat
  let part := s.partOf s.here
  let a := (c.w2 ++ c.w1).toNat
  let grant := (s.partAt part).grant k
  (k < 64 → c.w2 = 0 → c.w3 = 0 → c.w1 = 0xFF → (s.coreAt s.here).team.isSome = true →
    (s.coreAt s.here).region ≠ some (s.teamAt s.here).region → exec (.bkey c) s = .next (s.cmdReject s.here 0x52 0)) ∧
  (k < 64 → c.w2 = 0 → c.w3 = 0 → (s.coreAt s.here).cfg = some g → g.keyed k = true →
    ((s.coreAt s.here).team = none ∨ (s.coreAt s.here).region = some (s.teamAt s.here).region) →
    (c.w1 = 0xFF ∨ (64 ≤ c.w1.toNat ∧ c.w1.toNat < 80 ∧ memTile c.w1.toNat = k / 16)) →
    (g.holder k = 0xFF → Next (exec (.bkey c) s) (fun t => Finished q 0 s t ∧ SameBytes s t ∧
      (t.coreAt s.here).cfg = some { g with keys := tset g.keys k c.w1.toNat })) ∧
    (g.holder k ≠ 0xFF → Next (exec (.bkey c) s) (fun t => SameBytes s t ∧ (t.coreAt s.here).unit = (s.coreAt s.here).unit ∧
      (t.coreAt s.here).cfg = some { g with moves := tset g.moves k c.w1.toNat }))) ∧
  (k < 8 → a % 65536 = 0 → (∃ v, spaceOf (c.w2 ++ c.w1) = .global v ∧ v + 65536 * c.w3.toNat ≤ 2 ^ 57) → c.w3 ≠ 0 →
    s.rangeLeaves part (a / 65536) c.w3.toNat = some leaves → tget (s.partAt part).slots k = none →
    Next (exec (.ckpt c) s) (fun t => tget (t.partAt part).slots k =
        some { base := a / 65536, pages := c.w3.toNat, shadows := [], drain := none } ∧
      (t.coreAt s.here).unit = (s.coreAt s.here).unit.drop 1 ∧
      (∀ x ∈ leaves, (∀ y ∈ leaves, y ≠ x → y + 8 ≤ x ∨ x + 8 ≤ y) →
        (BitVec.ofNat 64 (readNat t.mem x 8)) = BitVec.ofNat 64 (readNat s.mem x 8) ||| (1#64 <<< 55)) ∧
      ∀ y, (∀ x ∈ leaves, y < x ∨ x + 8 ≤ y) → readCell t.mem y = readCell s.mem y)) ∧
  (k < 8 → (∃ v, spaceOf (c.w2 ++ c.w1) = .global v) → c.w3.toNat < 2 ^ 13 → (c.w3.extractLsb' 10 3).toNat ≤ 5 →
    (c.w3.extractLsb' 0 10).toNat < (s.teamAt s.here).count → tget (s.partAt part).slots k = some sl → sl.drain = none →
    Next (exec (.ckdrain c) s) (fun t => Finished q 0 s t ∧ SameBytes s t ∧ ∃ x : Drain,
      x = { dest := a, core := (c.w3.extractLsb' 0 10).toNat, box := (c.w3.extractLsb' 10 3).toNat, engine := s.lid s.here,
            team := ((s.coreAt s.here).team).getD 0, streamed := false } ∧
      tget (t.partAt part).slots k = some { sl with drain := some x })) ∧
  (k < 16 → c.w2 = 0 → c.w3 = 0 → c.w1.toNat < 65536 → let en := c.w1.extractLsb' 0 8
    let comp := c.w1.extractLsb' 8 8
    comp &&& en = comp →
    (en &&& grant = en → Next (exec (.linkcfg c) s) (fun t => Finished q 0 s t ∧ SameBytes s t ∧
      ((s.portAt k).up = true → (t.portAt k).en = ((s.portAt k).en &&& ~~~grant) ||| en ∧
        (t.portAt k).comp = ((s.portAt k).comp &&& ~~~grant) ||| comp) ∧ ∀ j, j ≠ k → t.portAt j = s.portAt j)) ∧
    (en &&& grant ≠ en → exec (.linkcfg c) s = .next (s.cmdReject s.here 0x56 1))) ∧
  (k < 16 → c.w1 = 0 → c.w2 = 0 → c.w3 = 0 → Next (exec (.linkstat c) s) (fun t => SameBytes s t ∧
    Finished q (0#1 ++ BitVec.ofNat 31 (min (s.portAt k).replays (2 ^ 31 - 1)) ++ 0#15 ++ BitVec.ofBool (s.portAt k).up ++
      ((s.portAt k).comp &&& grant) ++ ((s.portAt k).en &&& grant)) s t))

/-- R120, R121, R125, R129, R356, R357: a node that waits for all its inputs changes nothing while it is not ready; ready with
every input absent, it emits absence on both outputs and its instant ends with no other effect. One whose own state holds an
uncorrectable error stops its domain instead, its task to end faulted, and firmware then marks the core failed. (The model's
choices in it: log 38, 48.) -/
def Obligations.NodeTurns : Prop := ∀ (r : NodeRec) (s : State) (x : Nat × Instr), x ∈ strictNodes r →
  ((∀ n i, ¬Ready x.1 r s n i) → (∀ n, s.nodeHere x.1 r = some n → s.mayFire s.here n = true → n.broken = false) →
    exec x.2 s = .next s) ∧
  (∀ n, s.nodeHere x.1 r = some n → s.mayFire s.here n = true → n.broken = true → Next (exec x.2 s) (fun t =>
    t.agenda = s.agenda ++ [.event (.coreFailed s.here)] ∧
    (∀ k g d, s.fabricOf s.here = some (k, g) → g.doms[n.dom]? = some d →
      ∃ h e, tget t.regions k = some h ∧ h.doms[n.dom]? = some e ∧ e.stopped = true) ∧
    ∀ k tm, (s.coreAt s.here).team = some k → tget s.teams k = some tm →
      tget t.teams k = some { tm with doom := some (tm.doom.getD (faultWord 0x12 (s.lid s.here) 0)) })) ∧
  (∀ n i, Ready x.1 r s n i → i.quiet = true →
    exec x.2 s = .next (s.settle s.here s.slot n (quietReact n) (s.input s.here s.slot n 3).present))

/-- R119, R124, R130, R132, R251, R393: the end of an instant puts the node one instant on with what its reaction left, BCNT
counting a burst on X; no other node, controller, command or byte changes. Consuming an input takes the oldest status from its
channel, a command input's consumption the tokens up to the instant; emitting puts one status, for the next instant, into the
consumer's buffer on the same core, onto the wire to another core, or before a guard; an absence that would cross domains goes
nowhere. (The model's choices in it: log 35, 48, 50, 93.) -/
def Obligations.NodeSettling : Prop := ∀ (s : State) (p id : Nat) (n m : Node) (q : React) (busy : Bool),
  (s.coreAt p).node id = some m →
  (let t := s.settle p id n q busy
   q.faults = [] → NodeFrame s t ∧ SameBytes s t ∧
    (∃ y, (t.coreAt p).node id = some y ∧ y = { q.node with
      regs := q.counted.regs, inst := n.inst + 1, phase := 0, prog := 0, part := [], hub := none, hubRes := none, toks := y.toks,
      quiet := if busy then 0 else q.node.quiet + 1 }) ∧
    (∀ c j, c ≠ p ∨ j ≠ id → (t.coreAt c).node j = (s.coreAt c).node j)) ∧
  (∀ (k : Nat) (c : Chan) (x : Nat × Status) (rest : List (Nat × Status)) (a : Nat) (g : Region),
    inputUsed n.op n.rcd k = true → s.chanAt p (inputEp n.rcd k) = some c → isCommandInput id c.ent = false →
    s.fabricOf p = some (a, g) → s.steerersOf g p (inputEp n.rcd k) = [] → c.q = x :: rest →
    (s.consume p id n k).chanAt p (inputEp n.rcd k) = some { c with q := rest }) ∧
  (∀ (k : Nat) (c : Chan), inputUsed n.op n.rcd k = true → s.chanAt p (inputEp n.rcd k) = some c → isCommandInput id c.ent = true →
    inputDelayed n.rcd k = false → ∃ y, ((s.consume p id n k).coreAt p).node id = some y ∧ y = { m with toks := y.toks } ∧
      ∀ e, e ∈ y.toks ↔ e ∈ m.toks ∧ (e.1 ≠ k ∨ n.inst < e.2.1)) ∧
  (∀ (route dom inst : Nat) (x : Status) (d : Dest) (c : Chan), route ≠ noRoute → s.destOf p route = some d →
    s.chanAt d.core d.ep = some c →
    (s.crosses d dom = true → x = none → s.emit p route dom inst x = s) ∧
    (s.crosses d dom = false ∨ x.isSome = true → s.guarded p d = false →
      (s.emit p route dom inst x).chanAt d.core d.ep = some
        (if d.remote then { c with wire := c.wire ++ [(inst + 1, x)] } else { c with q := c.q ++ [(inst + 1, x)] })) ∧
    (s.crosses d dom = false ∨ x.isSome = true → s.guarded p d = true →
      ∃ g, ((s.emit p route dom inst x).coreAt p).cfg = some g ∧ ∃ f, (s.coreAt p).cfg = some f ∧
        g = { f with egress := f.egress ++ [(route, s.slot, x)] }))

/-- R105, R141, R148–R159, R175, R107, R156: the nodes that carry bursts. With their inputs present and a predicate of one
beat: PASS copies A to both outputs; STEER sends it to X or Y by the bit; WHEN passes it where the bit says; FILTER packs the
elements whose bits are set; OMERGE takes the chosen input; PMERGE prefers A and counts B away; PRES tells which arrived; DFLT
fills in for an absent A; PRE gives what A was an instant ago; SYNC gives A at the largest level; LEVEL maps the level; REPL
repeats A at B's level; DLYB passes A on. Of PRES, SYNC.ANY and REPL, an output of another length than BLEN is a mismatch.
PMERGE, PRES, DFLT and PRE send X before the rest of the instant is known. (The model's choices in it: log 48, 55, 82.) -/
def Obligations.PassingNodes : Prop := ∀ (r : NodeRec) (s : State) (n : Node) (i : Ins) (a b c : Burst) (x : Beat),
  let bit := x.getLsbD 0
  let kept := if r.abs = 3 then n.keep 2 (some c) else n
  (Ready 0x00 r s n i → i.a = some a → Fires (.pass r) s n (both n (some a))) ∧
  (Ready 0x60 r s n i → i.a = some a → i.c = some c → IsData c → c.beats = [x] →
    Fires (.steer r) s n (onXY kept (if bit then none else some a) (if bit then some a else none))) ∧
  (Ready 0x6B r s n i → i.a = some a → i.c = some c → IsData c → c.beats = [x] →
    Fires (.when r) s n (onX kept (if bit = r.var.getLsbD 0 then none else some a))) ∧
  (Ready 0x63 r s n i → i.a = some a → i.c = some c → IsData a → IsData c → r.var.getLsbD 0 = false →
    let es := elemsOf r.fmt.toNat a
    let out := (es.zipIdx.filter (fun e => predBit c false e.2)).map Prod.fst
    let beats := beatsOfElems r.fmt.toNat (if r.fmt = 0x21 then 0xFFFFFFFF else 0) out
    let beta := if isAtom r.fmt.toNat then hdrBeta a.hdr else 0
    c.beats.length = (es.length + 511) / 512 → (out = [] ∨ beats.length = blenOf r) →
    Fires (.filter r) s n
      (onX kept (some (if out = [] then emptyFibre (hdrLevel a.hdr) beta else dataBurst (hdrLevel a.hdr) beta beats)))) ∧
  (Ready 0x61 r s n i → s.isAsync s.here n 0 = false → s.isAsync s.here n 1 = false → i.c = some c → IsData c → c.beats = [x] →
    (if bit then i.b else i.a) = some a → (if bit then i.a else i.b) = none → Fires (.omerge r) s n (onX n (some a))) ∧
  (n.phase = 0 →
    (Ready 0x62 r s n i →
      (i.a = some a → i.b = none → Fires (.pmerge r) s n (onX n (some a))) ∧
      (i.a = none → i.b = some b → Fires (.pmerge r) s n (onX n (some b))) ∧
      (i.a = some a → i.b = some b → Fires (.pmerge r) s n
        { onX (n.drop 1) (some a) with faults := if r.var.getLsbD 0 then [] else [(0x25, b.hdr)] })) ∧
    (Ready 0x68 r s n i →
      (blenOf r = 1 → (i.a = some a → isErr a = false → Fires (.pres r) s n (onX n (some (dataBurst (hdrLevel a.hdr) 0 [1])))) ∧
        (i.a = none → i.b = some b → isErr b = false → Fires (.pres r) s n (onX n (some (dataBurst (hdrLevel b.hdr) 0 [0]))))) ∧
      (blenOf r ≠ 1 → i.a = some a → isErr a = false → Fires (.pres r) s n (failed n 0x21 0))) ∧
    (Ready 0x69 r s n i →
      (i.a = some a → Fires (.dflt r) s n (onX n (some a))) ∧
      (i.a = none → i.b = some b → isErr b = false → Fires (.dflt r) s n (onX n (some (fillBurst r (hdrLevel b.hdr)))))) ∧
    (Ready 0x6A r s n i → i.a = some a → Fires (.pre r) s n (onX { n with d := tset n.d 0 a } (tget n.d 0))) ∧
    (Ready 0x6C r s n i → r.var.getLsbD 0 = true → i.quiet = false →
      (blenOf r = 1 → Fires (.sync r) s n (onX n (some (dataBurst 0 0 [1])))) ∧ (blenOf r ≠ 1 → Fires (.sync r) s n (failed n 0x21 0))) ∧
    (n.broken = false → s.mayFire s.here n = true → s.room s.here r.outX.toNat = true → (∃ k, k < 4 ∧ s.input s.here s.slot n k = .unknown) →
      (s.nodeHere 0x62 r = some n → s.input s.here s.slot n 0 = .st (some a) →
        exec (.pmerge r) s = .next (s.sendEarly s.here s.slot n (some a))) ∧
      (s.nodeHere 0x68 r = some n → s.input s.here s.slot n 0 = .st (some a) → isErr a = false →
        exec (.pres r) s = .next (s.sendEarly s.here s.slot n
          (some (if blenOf r = 1 then dataBurst (hdrLevel a.hdr) 0 [1] else errToken 0x21 0 0)))) ∧
      (s.nodeHere 0x69 r = some n → s.input s.here s.slot n 0 = .st (some a) →
        exec (.dflt r) s = .next (s.sendEarly s.here s.slot n (some a))) ∧
      (s.nodeHere 0x6A r = some n → exec (.pre r) s = .next (s.sendEarly s.here s.slot n (tget n.d 0))))) ∧
  (Ready 0x6C r s n i → r.var.getLsbD 0 = false →
    let l := (([i.a, i.b, i.c].zipIdx).filter (fun e => r.k0.getLsbD e.2)).map Prod.fst
    l.all Option.isSome = true → l.head? = some (some a) → Fires (.sync r) s n
      (onX (n.keepAll [i.a, i.b, i.c]) (some { a with hdr := withLevel a.hdr (maxLevel (presentOf l)) }))) ∧
  (Ready 0x6D r s n i → i.a = some a →
    Fires (.level r) s n (onX n (some { a with hdr := withLevel a.hdr (r.k0.toNat / 16 ^ hdrLevel a.hdr % 16) }))) ∧
  (Ready 0x64 r s n i → i.a = some a → hdrKind a.hdr = 0 → a.beats.length ≠ blenOf r → i.b = some b → isData b = true →
    Fires (.repl r) s n (failed n 0x21 (hdrLevel b.hdr))) ∧
  (Ready 0x64 r s n i → i.a = some a → isData a = true → (hdrKind a.hdr = 0 → a.beats.length = blenOf r) →
    let m := ({ n with d := tset n.d 0 a } : Node).setReg 3 1
    let rel := (r.k0.extractLsb' 0 3).toNat
    (i.b = none → Fires (.repl r) s n (onX m none)) ∧
    (i.b = some b → isData b = true → (rel = 0 ∨ hdrLevel b.hdr < rel) →
      Fires (.repl r) s n (onX m (some { a with hdr := withLevel a.hdr (hdrLevel b.hdr) }))) ∧
    (i.b = some b → isData b = true → rel ≠ 0 → rel ≤ hdrLevel b.hdr →
      Fires (.repl r) s n (onX (({ m with d := terase m.d 0 } : Node).setReg 3 0)
        (some { a with hdr := withLevel a.hdr (hdrLevel b.hdr) })))) ∧
  (Ready 0x43 r s n i → i.a = some a → a.beats.length ≤ blenOf r → Fires (.dlyb r) s n (onX n (some a)))

/-- R160–R165, R103, R141: the counters, walkers and index nodes. CNT steps its three coordinates as nested loops, with the
level of the loops that end; a bound token becomes its pending counts. ISECT and UNION advance the lower of two coordinates, or
both where they agree, and end a fibre where both end. IRNG gives an arithmetic progression. An index or predicate operation
acts element by element; IHASH hashes each. Of CNT and UNION, a BLEN other than 1 is a length mismatch. (The model's choices in
it: log 55, 81, 90, 91.) -/
def Obligations.TokenNodes : Prop := ∀ (r : NodeRec) (s : State) (n : Node) (i : Ins) (a b : Burst) (ca cb : BitVec 32),
  let level := hdrLevel a.hdr
  (Ready 0x65 r s n i → i.b = none → i.a = some a → isData a = true → blenOf r ≠ 1 → Fires (.cnt r) s n (failed n 0x21 0)) ∧
  (Ready 0x65 r s n i → i.b = none → i.a = some a → isData a = true → blenOf r = 1 → n.reg 12 = 0 →
    let ck := (n.reg 3).toNat
    let cn := (n.reg 4).toNat
    let cm := (n.reg 5).toNat
    ck < (n.reg 6).toNat → cn < (n.reg 7).toNat → cm < (n.reg 8).toNat →
    let lastK := decide (ck + 1 = (n.reg 6).toNat)
    let lastN := lastK && decide (cn + 1 = (n.reg 7).toNat)
    let lastM := lastN && decide (cm + 1 = (n.reg 8).toNat)
    ∃ m : Node, Fires (.cnt r) s n (onX m (some (tokBurst [ck, cn, cm] (max (lastK.toNat + lastN.toNat + lastM.toNat) level)))) ∧
      m.reg 3 = (if lastK then 0 else n.reg 3 + 1) ∧ m.reg 4 = (if lastN then 0 else if lastK then n.reg 4 + 1 else n.reg 4) ∧
      m.reg 5 = (if lastM then 0 else if lastN then n.reg 5 + 1 else n.reg 5) ∧ m = { n with regs := m.regs } ∧
      ∀ k, k ≠ 3 → k ≠ 4 → k ≠ 5 → m.reg k = n.reg k) ∧
  (Ready 0x65 r s n i → i.a = none → i.b = some b → hdrKind b.hdr = 3 → ∃ m : Node, Fires (.cnt r) s n (onX m none) ∧
    m.reg 9 = tokAt b 0 ∧ m.reg 10 = tokAt b 1 ∧ m.reg 11 = tokAt b 2 ∧ m.reg 12 = 1 ∧ m = { n with regs := m.regs } ∧
    ∀ k, k < 9 ∨ 12 < k → m.reg k = n.reg k) ∧
  (i.b = none → i.a = some a → IsData a → a.beats.length = 1 → tokAt a 0 = ca → tokAt a 1 = cb →
    let w := n.walker
    let moved := fun (i : Instr) (v : Walker) (y : Status) => Fires i s n (onXY (n.setWalker v) (some v.pair) y)
    (ca < tokEM → cb < tokEM →
      (Ready 0x66 r s n i →
        (ca = cb → moved (.isect r) { w with pa := w.pa + 1, pb := w.pb + 1 } (some w.pair)) ∧
        (ca < cb → moved (.isect r) { w with pa := w.pa + 1 } none) ∧ (cb < ca → moved (.isect r) { w with pb := w.pb + 1 } none)) ∧
      (Ready 0x67 r s n i → blenOf r ≠ 1 → Fires (.union r) s n (failed n 0x21 0)) ∧
      (Ready 0x67 r s n i → blenOf r = 1 →
        (ca = cb → moved (.union r) { w with pa := w.pa + 1, pb := w.pb + 1 } (some (tokBurst [w.pa.toNat, w.pb.toNat, 3] 0))) ∧
        (ca < cb → moved (.union r) { w with pa := w.pa + 1 } (some (tokBurst [w.pa.toNat, 0, 1] 0))) ∧
        (cb < ca → moved (.union r) { w with pb := w.pb + 1 } (some (tokBurst [0, w.pb.toNat, 2] 0))))) ∧
    (ca = tokSE → cb = tokSE → w.pa ≠ w.pa0 → let v : Walker := { w with pae := w.pa, pa := w.pa0, pb := w.pb + 1 }
      (Ready 0x66 r s n i → moved (.isect r) v (some (emptyFibre 1 0))) ∧
      (Ready 0x67 r s n i → blenOf r = 1 → moved (.union r) v (some (emptyFibre 1 0))))) ∧
  (Ready 0x76 r s n i → i.a = some a → IsData a → a.beats.length = 1 → let count := (tokAt a 1).toNat
    count ≤ 16 * blenOf r →
    (count = 0 → Fires (.irng r) s n (onX (n.keepAll [some a]) (some (emptyFibre level 0)))) ∧
    (count ≠ 0 → Fires (.irng r) s n (onX (n.keepAll [some a]) (some (dataBurst level 0 (beatsOfElems 0x21 0
      ((List.range (16 * blenOf r)).map (fun k =>
        if k < count then (tokAt a 0 + BitVec.ofNat 32 k * tokAt a 2).toNat else 0xFFFFFFFF)))))))) ∧
  (i.a = some a → i.b = some b → IsData a → IsData b → b.beats.length = a.beats.length → r.var.getLsbD 1 = false →
    (∀ x ∈ indexNodes r, Ready x.1 r s n i → (a.beats.length * 16 * elemBits x.2.2.1 + 511) / 512 = blenOf r →
      let res := List.zipWith x.2.2.2 (elemsOf 0x21 a) (elemsOf 0x21 b)
      Fires x.2.1 s n (onX ((n.keepAll [some a, some b]).flag (orFlgs (res.map Prod.snd)))
        (some (dataBurst (max level (hdrLevel b.hdr)) 0 (beatsOfElems x.2.2.1 0 (res.map Prod.fst)))))) ∧
    (Ready 0x78 r s n i → a.beats.length = blenOf r →
      let res := List.zipWith (indexTruth 1 r) (elemsOf 0x20 a) (elemsOf 0x20 b)
      Fires (.plog r) s n (onX ((n.keepAll [some a, some b]).flag (orFlgs (res.map Prod.snd)))
        (some (dataBurst (max level (hdrLevel b.hdr)) 0 (beatsOfElems 0x20 0 (res.map Prod.fst))))))) ∧
  (Ready 0x77 r s n i → i.a = some a → IsData a → r.var.getLsbD 1 = false → a.beats.length = blenOf r →
    Fires (.ihash r) s n (onX ((n.keepAll [some a]).flag {}) (some (dataBurst level 0 (beatsOfElems 0x21 0 ((elemsOf 0x21 a).map
      (fun v => (ch64 (seedOf r) (BitVec.ofNat 64 v)).toNat / 2 ^ (64 - (r.k1.extractLsb' 0 6).toNat) % 2 ^ 32)))))))

/-- R81–R86: an element-wise node gives, atom by atom, the encoding of the function of its operands' lanes, at the largest
level, once its inputs are present and of the node's length. ASEL takes A's lane where the predicate's bit is 1, B's where it
is 0; AFMA rounds the product and sum once. (The model's choices in it: log 20, 22, 55, 81, 85.) -/
def Obligations.ElementNodes : Prop := ∀ (r : NodeRec) (s : State) (n : Node) (i : Ins) (a b c : Burst),
  let f := atomFmtD r.fmt.toNat
  let count := blenOf r * f.perBeat
  let at_ := fun (y : Burst) (j : Nat) => operandOf f (hdrBeta y.hdr) ((atomsIn f y).getD j 0)
  let level := max (hdrLevel a.hdr) (hdrLevel b.hdr)
  let gives := fun (i : Instr) (m : Node) (lv : Nat) (beta : Int) (out : List (Nat × Flg)) =>
    Fires i s n (both (m.flag (orFlgs (out.map Prod.snd))) (some (atomBurst f lv beta (out.map Prod.fst))))
  (i.a = some a → i.b = some b → IsData a → IsData b → a.beats.length = blenOf r → b.beats.length = blenOf r →
    (∀ x ∈ binaryNodes r, Ready x.1 r s n i → let m := n.keepAll [some a, some b]
      let beta := betaOut r [some a, some b]
      gives x.2.1 m level beta ((List.range count).map (fun j =>
        elementAtom m f beta j [at_ a j, at_ b j] (List.zipWith x.2.2 (at_ a j).lanes (at_ b j).lanes) {}))) ∧
    (i.c = some c → IsData c → let m := n.keepAll [some a, some b, some c]
      let beta := betaOut r [some a, some b, some c]
      (Ready 0x15 r s n i → r.var.getLsbD 0 = false → c.beats.length = (count * f.l + 511) / 512 →
        gives (.asel r) m level beta ((List.range count).map (fun j => elementAtom m f beta j [at_ a j, at_ b j]
          ((List.range f.l).map (fun k => if predBit c false (j * f.l + k) then (at_ a j).lanes.getD k xzero
            else (at_ b j).lanes.getD k xzero)) {}))) ∧
      (Ready 0x16 r s n i → c.beats.length = blenOf r →
        gives (.afma r) m (max level (hdrLevel c.hdr)) beta ((List.range count).map (fun j =>
          elementAtom m f beta j [at_ a j, at_ b j, at_ c j]
            (List.zipWith xAdd (List.zipWith xMul (at_ a j).lanes (at_ b j).lanes) (at_ c j).lanes) {}))))) ∧
  (i.a = some a → IsData a → a.beats.length = blenOf r → ∀ x ∈ unaryNodes r, Ready x.1 r s n i → let m := n.keepAll [some a]
    let beta := betaOut r [some a]
    gives x.2.1 m (hdrLevel a.hdr) beta ((atomsIn f a).zipIdx.map (fun e =>
      let o := operandOf f (hdrBeta a.hdr) e.1
      let z := o.lanes.zipIdx.map (fun y => x.2.2 y.2 y.1)
      elementAtom m f beta e.2 [o] (z.map Prod.fst) (orFlgs (z.map Prod.snd)))))

/-- R87–R99: the nodes that regroup, reduce and multiply, once their inputs are data of the lengths the node expects. AREN and
ENC encode lanes into atoms, DEC decodes atoms into storage lanes; ANRM, ALSUM and ADOT.P give a sum per atom; AMAXR the
largest magnitude with its block exponent; ADOT.W loads weights from B, where a burst of another length is a mismatch, and
multiplies rows by them, ADOTT columns; AOUTR adds outer products and releases its accumulators at its count or level. (The
model's choices in it: log 21, 56, 69, 78, 86.) -/
def Obligations.ReductionNodes : Prop := ∀ (r : NodeRec) (s : State) (n : Node) (i : Ins) (a b : Burst),
  let f := atomFmtD r.fmt.toNat
  let level := hdrLevel a.hdr
  let m := n.keepAll [some a]
  let m2 := n.keepAll [some a, some b]
  let vs := valsIn f a
  let src := (r.k0.extractLsb' 0 6).toNat
  let gives := fun (i : Instr) (fl : Flg) (x : Burst) => Fires i s n (both (m.flag fl) (some x))
  let sums := fun (i : Instr) (m : Node) (lv : Nat) (nv : Bool) (count : Nat) (l : List Sum) => sumBeats m count = blenOf r →
    Fires i s n (both (m.flag (orFlg { nv := nv } (sumBurst m lv l).2)) (some (sumBurst m lv l).1))
  i.a = some a → IsData a →
  (Ready 0x26 r s n i → let g := atomFmtD src
    let ops := (atomsIn g a).map (operandOf g (hdrBeta a.hdr))
    let lanes := ops.flatMap (fun o => match o.pay with
      | some p => List.replicate g.l (.nan (payAcross g.g16 f.g16 p))
      | none => o.lanes)
    let out := encodeGroups m f (betaOut r [some a]) true lanes
    (lanes.length + f.perBeat * f.l - 1) / (f.perBeat * f.l) = blenOf r →
    gives (.aren r) (orFlg { nv := ops.any Operand.bad } (orFlgs (out.map Prod.snd)))
      (atomBurst f level (betaOut r [some a]) (out.map Prod.fst))) ∧
  (Ready 0x50 r s n i → let lanes := (lanesOfBeats (laneWidth src) a.beats).map (storVal src (scaleIn r.k1))
    let out := encodeGroups m f (betaOut r [some a]) false lanes
    (lanes.length + f.perBeat * f.l - 1) / (f.perBeat * f.l) = blenOf r →
    gives (.enc r) (orFlgs (out.map Prod.snd)) (atomBurst f level (betaOut r [some a]) (out.map Prod.fst))) ∧
  (Ready 0x51 r s n i → let g := atomFmtD src
    let dst := r.fmt.toNat
    let ops := (atomsIn g a).map (operandOf g (hdrBeta a.hdr))
    let lanes := ops.flatMap Operand.lanes
    let out := lanes.zipIdx.map (fun x => storPack dst (scaleIn r.k1) m.mode (m.rnd x.2) x.1)
    lanes.length * laneWidth dst / 64 = blenOf r →
    gives (.dec r) (orFlg { nv := ops.any Operand.bad } (orFlgs (out.map Prod.snd)))
      (dataBurst level 0 (beatsOfLanes (laneWidth dst) (out.map Prod.fst)))) ∧
  (Ready 0x33 r s n i → sums (.anrm r) m level (vs.any atomBad) vs.length (vs.map (fun v => anrmSum v (hdrBeta a.hdr)))) ∧
  (Ready 0x34 r s n i → sums (.alsum r) m level (vs.any atomBad) vs.length (vs.map (fun v => alsumSum v (hdrBeta a.hdr)))) ∧
  (Ready 0x35 r s n i → let ops := match atomFmt r.fmt.toNat with
      | some g => (atomsIn g a).map (operandOf g (hdrBeta a.hdr))
      | none => []
    let lanes := match atomFmt r.fmt.toNat with
      | some _ => ops.flatMap Operand.lanes
      | none => (lanesOfBeats (laneWidth r.fmt.toNat) a.beats).map (storVal r.fmt.toNat (scaleIn r.k1))
    let big := binRound fp32 0 0 (maxMag lanes)
    let beta := blockBeta (atomFmtD src).g16 (binVal fp32 big.1)
    gives (.amaxr r) (orFlg { nv := ops.any Operand.bad } big.2)
      (dataBurst level beta [BitVec.ofNat 512 (packWidth 4 [big.1, (BitVec.ofInt 32 beta).toNat])])) ∧
  (Ready 0x30 r s n i → i.b = some b → IsData b → b.beats.length = a.beats.length → let wb := valsIn f b
    let count := a.beats.length * f.perBeat
    sums (.adotP r) m2 (max level (hdrLevel b.hdr)) (vs.any atomBad || wb.any atomBad) count ((List.range count).map (fun j =>
      pulseDot (vs.getD j (.val 0 0 [])) (wb.getD j (.val 0 0 [])) (hdrBeta a.hdr + hdrBeta b.hdr)))) ∧
  (Ready 0x30 r s n i → i.b = none → s.readerBehind s.here s.slot n = false → vs.length % 16 = 0 → let ws := weightVals f n.wts
    sums (.adotW r) m level (vs.any atomBad || ws.any atomBad) (vs.length / 16 * 32)
      ((chunk 16 vs).flatMap (fun v => (chunk 16 ws).map (fun w => rowSum v w (hdrBeta a.hdr + n.wbeta))))) ∧
  (Ready 0x30 r s n { i with a := none } → i.b = some b → IsData b → b.beats.length = 512 / f.perBeat →
    s.readerBehind s.here s.slot n = false → Fires (.adotW r) s n
      (quietReact { n with wts := (atomsIn f b).map (BitVec.ofNat 64), wbeta := hdrBeta b.hdr })) ∧
  (Ready 0x30 r s n i → i.b = some b → isData b = true → weightBurst f b = none → s.readerBehind s.here s.slot n = false →
    Fires (.adotW r) s n (failed n 0x21 level)) ∧
  (∀ (wf : AtomFmt) (w : List (BitVec 64)) (wbeta : Int), Ready 0x31 r s n i →
    s.weightsAt s.here (r.k1.extractLsb' 0 6).toNat n = some (wf, w, wbeta) → vs.length % (32 / f.l) = 0 → let ws := weightVals wf w
    let cols := (List.range 16).map (fun c => (chunk 16 ws).map (fun row => row.getD c (.val 0 0 [])))
    sums (.adott r) m level (vs.any atomBad || ws.any atomBad) (vs.length / (32 / f.l) * (16 * wf.l))
      ((chunk (32 / f.l) vs).flatMap (fun v => cols.flatMap (fun col =>
        columnSums wf (v.flatMap (atomLanes f (hdrBeta a.hdr))) (v.findSome? AtomVal.pay) col wbeta)))) ∧
  (Ready 0x32 r s n i → i.b = some b → IsData b → let vb := valsIn f b
    let per := 32 / f.l
    vs.length % 16 = 0 → vb.length % per = 0 → vs.length / 16 = vb.length / per →
    let pairs := List.zip (chunk 16 vs) (chunk per vb)
    let acc := pairs.foldl (fun z p =>
      outerStep (p.2.flatMap (atomLanes f (hdrBeta b.hdr))) (p.1.map (atomLanes f (hdrBeta a.hdr))) z)
      (tdense Acc.zero (512 * f.l) 0 n.acc)
    let q := n.burst + pairs.length
    let closes := ((r.k0.extractLsb' 0 16).toNat ≠ 0 ∧ (r.k0.extractLsb' 0 16).toNat ≤ q) ∨
      ((r.k1.extractLsb' 0 3).toNat ≠ 0 ∧ (r.k1.extractLsb' 0 3).toNat ≤ level)
    let bad : Flg := { nv := vs.any atomBad || vb.any atomBad }
    let out := (chunk f.l acc).zipIdx.map (fun g => laRoundAtom f (betaOut r []) m2.mode (m2.rnd g.2) g.1)
    (¬closes → Fires (.aoutr r) s n (onX (({ m2 with acc := tlist acc, burst := q } : Node).flag bad) none)) ∧
    (closes → Fires (.aoutr r) s n (onX (({ m2 with acc := [], burst := 0 } : Node).flag (orFlg bad (orFlgs (out.map Prod.snd))))
      (some (atomBurst f level (betaOut r []) (out.map Prod.fst))))))

/-- R106, R169–R176: the accumulators, drains and CONV on inputs of the lengths they expect. ACC adds its lanes and counts, and
at its count or level releases and clears, an empty fibre on Y; ACC.F adds a fibre into one lane; ACCK adds rows under their
keys (a fill key's is passed over; a key that finds no row is dropped and counted, with fault 0x27) and at its level releases
rows on X and keys on Y; DRAIN encodes its lanes on the selected route; CONV gives A the exponent that B brings. (The model's
choices in it: log 12, 21, 48, 50, 56, 81, 93.) -/
def Obligations.AccumulatorNodes : Prop := ∀ (r : NodeRec) (s : State) (n : Node) (i : Ins) (a b c : Burst),
  let f := atomFmtD r.fmt.toNat
  let level := hdrLevel a.hdr
  let size := accSize r
  let lanes := inLanes f (r.var.getLsbD 1) a
  let start := tdense Acc.zero size 0 n.acc
  let rel := (r.k1.extractLsb' 0 3).toNat
  let released := fun (i : Instr) (acc : List Acc) => Fires i s n (onXY ((accClear n).flag (orFlg lanes.2 (releaseBurst n level acc).2))
    (some (releaseBurst n level acc).1) (some (emptyFibre level 0)))
  i.a = some a →
  (Ready 0x40 r s n i → isData a = true → lanes.1.length ≤ size → let count := (r.k0.extractLsb' 0 16).toNat
    let q := n.reg 3 + 1
    let acc := List.zipWith addLane start lanes.1 ++ start.drop lanes.1.length
    let closes := (count ≠ 0 ∧ count ≤ q.toNat) ∨ (rel ≠ 0 ∧ rel ≤ level)
    (¬closes → Fires (.acc r) s n (onXY ((({ n with acc := tlist acc } : Node).setReg 3 q).flag lanes.2) none none)) ∧
    (closes → released (.acc r) acc)) ∧
  (Ready 0x40 r s n i → isData a = true → let q := (n.reg 4).toNat
    let acc := lmod start q (fun z => lanes.1.foldl addLane z)
    q < size →
    (level < rel → Fires (.accF r) s n (onXY (((({ n with acc := tlist acc } : Node).setReg 3 (n.reg 3 + 1)).setReg 4
      (if 1 ≤ level then n.reg 4 + 1 else n.reg 4)).flag lanes.2) none none)) ∧
    (rel ≤ level → q = 0 → Fires (.accF r) s n (onXY ((accClear n).flag lanes.2) none (some (emptyFibre level 0)))) ∧
    (rel ≤ level → q ≠ 0 → released (.accF r) acc)) ∧
  (Ready 0x41 r s n i → IsData a → i.c = some c → IsData c → c.beats ≠ [] → let rho := (r.k0.extractLsb' 0 16).toNat
    let count := (r.k0.extractLsb' 20 4).toNat + 1
    let rows := (r.k1.extractLsb' 0 11).toNat
    let close := (r.k1.extractLsb' 16 3).toNat
    let perIn := if r.var.getLsbD 1 then f.perBeat * f.l else 4
    a.beats.length = (count * rho + perIn - 1) / perIn →
    let toks := (List.range count).map (fun u => tokenOf (c.beats.headD 0) ((r.k0.extractLsb' 16 4).toNat + u))
    let z := acckAll rho rows { node := n, rows := tdense Acc.zero (rows * rho) 0 n.acc, faults := [] } toks lanes.1
      (badLanes f (r.var.getLsbD 1) a)
    let lv := max level (hdrLevel c.hdr)
    (lv < close → Fires (.acck r) s n { onXY { z.node with acc := tlist z.rows } none none with faults := z.faults }) ∧
    (close ≤ lv → z.node.keys ≠ [] → let x := releaseBurst z.node lv z.rows
      let fill := List.replicate (16 * ((rows + 15) / 16) - z.node.keys.length) (0xFFFFFFFF : Nat)
      Fires (.acck r) s n { onXY ((({ z.node with acc := [], keys := [] } : Node).setReg 3 0).flag x.2) (some x.1)
        (some (dataBurst lv 0 (beatsOfLanes 4 (z.node.keys.map BitVec.toNat ++ fill)))) with faults := z.faults })) ∧
  (∀ (rho rows : Nat) (z : Acck) (key : BitVec 32) (l : List InLane) (bad : List Bool),
    (key = 0xFFFFFFFF → acckAdd rho rows z key l bad = z) ∧
    (key ≠ 0xFFFFFFFF → key ∉ z.node.keys → z.node.keys.length = rows →
      acckAdd rho rows z key l bad = { z with node := z.node.drop 1, faults := z.faults ++ [(0x27, 0)] })) ∧
  (Ready 0x42 r s n i → IsData a → r.var.getLsbD 0 = false → r.var.getLsbD 1 = false → r.var.getLsbD 2 = false →
    let per := lanesPerBeat r.fmt.toNat
    let v := (lanesOfBeats 16 a.beats).map (fun x => accOfLane (laneOf x))
    v.length % (if isAtom r.fmt.toNat then f.l else 1) = 0 → (v.length + per - 1) / per = blenOf r →
    let drains := fun (m : Node) (route : Nat) (fl : List (Nat × BitVec 32)) => s.room s.here route = true → let k := m.keepAll [some a, none, none]
      let x := drainBurst k level v
      Fires (.drain r) s n { onX ((k.setReg 3 (k.reg 3 + 1)).flag x.2) (some x.1) with route := some route, faults := fl }
    let kept := if (n.reg 5).getLsbD 31 then (n.reg 5).toNat % 4096 else r.outX.toNat
    (i.c = none → drains n kept []) ∧
    (∀ held, i.c = some c → hdrKind c.hdr = 4 → s.heldFor s.here s.slot n i.c = some held → let route := hdrAux c.hdr % 4096
      let m : Node := { n with steered := some (n.inst, n.reg 5) }
      (s.steerOk held s.here s.slot n route = true → drains (m.setReg 5 (BitVec.ofNat 32 (2 ^ 31 + route))) route []) ∧
      (s.steerOk held s.here s.slot n route = false → drains (m.setReg 5 (n.reg 5)) kept [(0x29, c.hdr)]))) ∧
  (Ready 0x44 r s n i → IsData a → i.b = some b → IsData b → b.beats.length ≤ 1 → let lv := max level (hdrLevel b.hdr)
    let beta := hdrBeta b.hdr
    (atomFmt r.fmt.toNat = none → a.beats.length = blenOf r → Fires (.conv r) s n (onX n (some (dataBurst lv beta a.beats)))) ∧
    (∀ g, atomFmt r.fmt.toNat = some g → let x := convLanes n g a
      let out := encodeGroups n g beta x.2.1 x.1
      (x.1.length + g.perBeat * g.l - 1) / (g.perBeat * g.l) = blenOf r → Fires (.conv r) s n
        (onX (n.flag (orFlg x.2.2 (orFlgs (out.map Prod.snd)))) (some (atomBurst g lv beta (out.map Prod.fst))))))

/-- R104, R183–R191, R331, R333: the memory nodes, where the keys of the banks they touch are held, it is their turn in the
tile and no word they read is uncorrectable. A read port gives its next elements as one burst and their count on Y; a write
port writes exactly its next elements; either may perform some beats of them first, so that another agent may come between; the
instant's end then reads or writes the rest, and the burst holds what was read before; indexed ports act where the tokens
select; a global port goes on element by element; MFIFO gives its oldest entry, an uncorrectable one as an error token with its
record, and appends; MLINE writes a row and, once it holds enough, gives its windows; MGRP starts a hub read and gives its
burst. (The model's choices in it: log 12, 44, 49, 55, 57, 80, 81, 87, 92, 94.) -/
def Obligations.MemoryNodes : Prop := ∀ (r : NodeRec) (s : State) (n : Node) (i : Ins) (a c : Burst),
  s.Canonical →
  let p := s.here
  let w := portWidth r.fmt.toNat
  let level := hdrLevel a.hdr
  let free := fun (offs : List Nat) => s.keysHeld p s.slot (banksOf offs) = true ∧ s.tileTurn p s.slot n (spansOf w offs) = true
  let elems := fun (k : Nat) => (List.range k).map (fun j => n.pattern.at (n.pos + j))
  (s.coreAt p).bankTags = [] → r.k1.extractLsb' 8 3 = 0 →
  (Ready 0x80 r s n i → n.bound = true → n.planeAt n.burst = none → let k := min (perBurst r) (n.pattern.total - n.pos)
    free (elems k) →
    (s.badElem p w ((elems k).drop n.prog) = none →
      Fires (.mrd r) s n (onXY (((n.setPos (n.pos + k)).readDone).used (banksOf (elems k)))
        (some (dataBurst 0 n.texp (beatsOfBytes (blenOf r) (n.part.map (BitVec.ofNat 8) ++ s.readElems p w ((elems k).drop n.prog)))))
        (some (doneToken k 0)))) ∧
    (∀ count, let m := count * (64 / w)
      let run := ((elems k).drop n.prog).take m
      (s.coreAt p).node s.slot = some n → s.slot < 96 → n.prog + m < k → s.badElem p w run = none →
      s.piece count = s.setNode p s.slot { n with prog := n.prog + m, part := n.part ++ (s.readElems p w run).map BitVec.toNat })) ∧
  (Ready 0x81 r s n i → i.a = some a → IsData a → n.bound = true → n.planeAt n.burst = none →
    let k := min (a.beats.length * 64 / w) (n.pattern.total - n.pos)
    let m : Node := { (n.setPos (n.pos + k)).used (banksOf (elems k)) with burst := n.burst + 1 }
    free (elems k) → (∃ z : State,
      FiresIn (.mwr r) s z n (onX (if k < a.beats.length * 64 / w then m.noteError (errToken 0x28 0 level).hdr else m)
        (some (doneToken k level))) ∧
      z = { s with mem := z.mem, bad := z.bad } ∧
      (∀ y, (∀ o ∈ elems k, y < scratchKey p o ∨ scratchKey p o + w ≤ y) → readCell z.mem y = readCell s.mem y) ∧
      ((elems k).Pairwise (fun o e => o + w ≤ e ∨ e + w ≤ o) →
        (∀ j, n.prog ≤ j → j < k → z.peek (scratchKey p ((elems k).getD j 0)) w = ((bytesOfBurst a).drop (w * j)).take w) ∧
        ∀ j, j < n.prog → z.peek (scratchKey p ((elems k).getD j 0)) w = s.peek (scratchKey p ((elems k).getD j 0)) w)) ∧
    (∀ count, let more := count * (64 / w)
      (s.coreAt p).node s.slot = some n → s.slot < 96 → n.prog + more < k →
      s.piece count = (s.writeElems p w (((elems k).drop n.prog).take more) ((bytesOfBurst a).drop (w * n.prog))).setNode p s.slot
        { n with prog := n.prog + more })) ∧
  (Ready 0x82 r s n i → i.a = some a → IsData a → ∀ offs, n.select a = .ok offs → offs.length * w ≤ 64 * blenOf r → free offs →
    s.badElem p w (offs.drop n.prog) = none → Fires (.mird r) s n (onXY (n.used (banksOf offs))
      (some (dataBurst level n.texp (beatsOfBytes (blenOf r) (n.part.map (BitVec.ofNat 8) ++ s.readElems p w (offs.drop n.prog)))))
      (some (doneToken offs.length level)))) ∧
  (i.a = some a → IsData a → i.c = some c → IsData c → ∀ offs, n.select c = .ok offs → offs.length * w ≤ a.beats.length * 64 →
    free offs → let lv := max level (hdrLevel c.hdr)
    (Ready 0x83 r s n i → FiresIn (.miwr r) s (s.writeElems p w (offs.drop n.prog) (((bytesOfBurst a).take (w * offs.length)).drop (w * n.prog))) n
      (onX (n.used (banksOf offs)) (some (doneToken offs.length lv)))) ∧
    (Ready 0x84 r s n i → ∀ o, offs = [o] → n.prog = 0 → n.part = [] → s.badIn (scratchKey p (64 * (o / 64))) 64 = false → 0 < w →
      let v := rmwElem (n.used (banksOf [o])) (hdrBeta a.hdr) 0 (s.peekLocalNat p o w) (natOfBytes ((bytesOfBurst a).take w))
      FiresIn (.mrmw r) s { s with mem := writeBytes s.mem (scratchKey p o) (bytesOfNat v.1 w) } n
        (onX ((n.used (banksOf [o])).flag v.2) (some (doneToken 1 lv))))) ∧
  (n.bound = true → n.planeAt n.burst = none →
    (Ready 0x86 r s n i → let k := min (perBurst r) (n.pattern.total - (n.pos - n.prog))
      let z := (List.range k).foldl (globalElem false w []) { s := s, node := n, stuck := false }
      (z.stuck = false → z.node.phase ≠ 2 → FiresIn (.mgld r) s z.s n (onXY z.node.readDone
        (some (dataBurst 0 n.texp (beatsOfBytes (blenOf r) (z.node.part.map (BitVec.ofNat 8))))) (some (doneToken k 0)))) ∧
      (z.stuck = true → exec (.mgld r) s = .next (z.s.setNode p s.slot z.node))) ∧
    (Ready 0x87 r s n i → i.a = some a → IsData a → let have_ := a.beats.length * 64 / w
      let k := min have_ (n.pattern.total - (n.pos - n.prog))
      let z := (List.range k).foldl (globalElem true w (bytesOfBurst a)) { s := s, node := n, stuck := false }
      let m : Node := { z.node with burst := n.burst + 1 }
      (z.stuck = false → FiresIn (.mgst r) s z.s n
        (onX (if k < have_ then m.noteError (errToken 0x28 0 level).hdr else m) (some (doneToken k level)))) ∧
      (z.stuck = true → exec (.mgst r) s = .next (z.s.setNode p s.slot z.node)))) ∧
  (∀ mode, Ready 0x88 r s n i → n.phase = 0 → s.modeRegion p 2 s.slot = some mode →
    (∀ o, i.a = none → s.fifoBad p mode n = some o → FiresIn (.mfifo r) s (s.portFault p s.slot n 0x10 0 o true []) n
      (onX (s.fifoPop p mode n) (s.fifoHead p mode n))) ∧
    (i.a = none → n.reg 5 ≠ 0 → s.fifoBad p mode n = none → Fires (.mfifo r) s n (onX (s.fifoPop p mode n) (s.fifoHead p mode n))) ∧
    (i.a = some a → n.reg 5 = 0 → 64 * (1 + a.beats.length) ≤ mode.len → FiresIn (.mfifo r) s (s.fifoPush p mode n a).1 n
      (onX (s.fifoPush p mode n a).2 none))) ∧
  (∀ mode : MemMode, Ready 0x89 r s n i → i.a = some a → IsData a → s.modeRegion p 3 s.slot = some mode →
    let width := (mode.param.extractLsb' 0 16).toNat
    let kh := (mode.param.extractLsb' 16 3).toNat + 1
    let kw := (mode.param.extractLsb' 20 3).toNat + 1
    let len := (width * w + 63) / 64 * 64
    let rc := (n.reg 3).toNat
    let z := s.poke (scratchKey p (mode.start + rc % kh * len)) (bytesOfBurst a)
    let m := lineReset (n.setReg 3 (BitVec.ofNat 32 (rc + 1))) level
    let order := (List.range kh).map (fun k => (rc + 1 + k) % kh)
    (a.beats.length * 64 ≠ len → Fires (.mline r) s n { failed (lineReset n level) 0x21 level with y := none }) ∧
    (a.beats.length * 64 = len →
    (rc + 1 < kh → FiresIn (.mline r) s z n (onX m none)) ∧
    (kh ≤ rc + 1 → (∀ e ∈ order, z.badIn (scratchKey p (mode.start + e * len)) len = false) → FiresIn (.mline r) s z n
      (onX m (some (dataBurst level 0 (beatsOfBytes (blenOf r)
        (windowsOf (order.map (fun e => z.lineRow p mode e width w)) width kw)))))))) ∧
  (Ready 0x85 r s n i → i.a = some a → IsData a → a.beats.length = 1 →
    (∀ y, n.hubRes = some y → Fires (.mgrp r) s n (onX n (some y))) ∧
    (∀ wheel, n.hubRes = none → n.hub = none → s.wheelAt p (r.k0.extractLsb' 0 4).toNat = some wheel → wheel.fmt = r.fmt.toNat →
      ∃ job : HubJob, exec (.mgrp r) s = .next (s.setNode p s.slot { n with hub := some job }) ∧ job.wheel = some wheel ∧
        job.off = (tokAt a 0).toNat ∧ job.phase = (tokAt a 1).extractLsb' 0 16 ∧ job.beats = blenOf r))

/-- R144–R147, R367–R373, R384: the endpoints. SRC takes the oldest status of its outbox and is exhausted after level 7; SINK
puts a burst into its inbox while that has room; ESINK writes an error token's report, 64 bytes, into its ring; CPYT places a
trigger; LTX hands its burst to an up port that takes it and drops it at a port that is down; LRX takes the oldest frame; RED2
adds lane by lane; SREQ requantises and reports status; STATW merges status beats of one length. (The model's choices in it:
log 46, 47, 88.) -/
def Obligations.EndpointNodes : Prop := ∀ (r : NodeRec) (s : State) (n : Node) (i : Ins) (a b : Burst),
  s.Canonical →
  let p := s.here
  let box := (r.k0.extractLsb' 0 3).toNat
  let level := hdrLevel a.hdr
  let port := (r.k0.extractLsb' 0 4).toNat
  let f := atomFmtD r.fmt.toNat
  (∀ rest, Ready 0x01 r s n i → n.exh = false →
    ((s.ctlAt p).out box = some a :: rest → FiresIn (.src r) s (s.modCtl p (fun c => c.popOut box)) n
      (onX { n with exh := level == 7 } (some a))) ∧
    ((s.ctlAt p).out box = [] → exec (.src r) s = .next s)) ∧
  (i.a = some a →
    (Ready 0x02 r s n i → let e : InEntry := { sd := 1#1 ++ 0#31 ++ a.hdr, hdr := a.hdr, beats := a.beats }
      (boxRoom ((s.ctlAt p).box box) e = true →
        FiresIn (.sink r) s (s.modCtl p (fun c => c.putBox box e)) n (quietReact n)) ∧
      (boxRoom ((s.ctlAt p).box box) e = false → exec (.sink r) s = .next s)) ∧
    (Ready 0x03 r s n i → (s.coreAt p).bankTags = [] →
      (isErr a = true → let at_ := r.k0.toNat + 64 * ((n.reg 3).toNat % (r.k1.extractLsb' 0 11).toNat)
        ∃ z, FiresIn (.esink r) s z n (quietReact (n.setReg 3 (n.reg 3 + 1))) ∧
          z = { s with mem := z.mem, bad := z.bad } ∧ BytesBut (scratchKey p at_) 64 s z ∧
          z.peek (scratchKey p at_) 64 = esinkReport (s.lid p) s.slot n a) ∧
      (isErr a = false → Fires (.esink r) s n (quietReact (n.drop 1)))) ∧
    (Ready 0x04 r s n i → IsData a → let t := (r.k0.extractLsb' 0 4).toNat
      let x : Trig := { tpl := some t, job := none, level := level, value := n.reg 3, empty := false }
      (tget (s.coreAt p).ce.templates t).isSome = true →
      ((s.coreAt p).ce.queued t < 16 →
        FiresIn (.cpyt r) s (s.modCe p (fun e => { e with trigs := e.trigs ++ [x] })) n (quietReact (n.setReg 3 (n.reg 3 + 1)))) ∧
      (16 ≤ (s.coreAt p).ce.queued t → exec (.cpyt r) s = .next s)) ∧
    (Ready 0x90 r s n i → r.var.getLsbD 0 = false → let q := s.portAt port
      let frames := q.framesOf n.vc [a]
      (q.up = true → q.takes n.vc frames = true → FiresIn (.ltx r) s
        (s.modPort port (fun q => frames.foldl (fun (z : Port) x => z.handFrame n.vc x) q)) n (onX n none)) ∧
      (q.up = true → q.takes n.vc frames = false → exec (.ltx r) s = .next s) ∧
      (q.up = false → Fires (.ltx r) s n (onX (n.drop 1) none))) ∧
    (Ready 0x93 r s n i → i.b = some b → IsData a → IsData b → b.beats.length = a.beats.length →
      (atomsIn f a).length * f.l = 4 * blenOf r →
      let m := n.keepAll [some a, some b]
      let out := List.zipWith (red2Atom m f (hdrBeta a.hdr) (hdrBeta b.hdr)) (atomsIn f a) (atomsIn f b)
      Fires (.red2 r) s n (both (m.flag (orFlgs (out.map Prod.snd)))
        (some (dataBurst (max level (hdrLevel b.hdr)) 0 (beatsOfLanes 16 (out.flatMap (fun o => o.1.map laneBits))))))) ∧
    (Ready 0x92 r s n i → IsData a → r.var.getLsbD 0 = false → r.var.getLsbD 1 = false →
      let lanes := (lanesOfBeats 16 a.beats).map (fun y => accOfLane (laneOf y))
      let per := blenOf r * f.perBeat
      (lanes.length + f.l * f.perBeat - 1) / (f.l * f.perBeat) = blenOf r →
      let groups := chunk f.l lanes
      let out := (groups ++ List.replicate (per - groups.length) []).zipIdx.map (fun (y : List Acc × Nat) => sreqAtom n f y.2 y.1)
      Fires (.sreq r) s n (onXY (n.flag (orFlgs (out.map Prod.snd)))
        (some (dataBurst level 0 (beatsOfLanes f.w (out.map Prod.fst)))) (some (statusBurst (flgBits (orFlgs (out.map Prod.snd))) 0)))) ∧
    (Ready 0x94 r s n i → i.b = some b → IsData a → IsData b → r.k0.getLsbD 0 = true → r.k0.getLsbD 1 = true →
      r.k0.getLsbD 2 = false → b.beats.length ≠ a.beats.length →
      Fires (.statw r) s n (failed n 0x21 (max level (hdrLevel b.hdr)))) ∧
    (Ready 0x94 r s n i → i.b = some b → IsData a → IsData b → r.k0.getLsbD 0 = true → r.k0.getLsbD 1 = true →
      r.k0.getLsbD 2 = false → b.beats.length = a.beats.length → Fires (.statw r) s n (both n
        (some (statusBurst ((tokAt a 0).toNat ||| (tokAt b 0).toNat) (max level (hdrLevel b.hdr))))))) ∧
  (∀ rest, Ready 0x91 r s n i → n.exh = false → n.down = none → r.var.getLsbD 0 = false →
    let bursts := (r.k1.extractLsb' 0 16).toNat
    let ended := if bursts = 0 then level == 7 else decide (bursts ≤ n.emitted + 1)
    (vget [] (s.portAt port).slots n.vc = a :: rest →
      ∃ z, FiresIn (.lrx r) s z n (onXY { n with emitted := n.emitted + 1, exh := ended } (some a) none) ∧
      z = { s with ports := z.ports } ∧ vget [] (z.portAt port).slots n.vc = rest ∧ ∀ k, k ≠ port → z.portAt k = s.portAt k) ∧
    (vget [] (s.portAt port).slots n.vc = [] → exec (.lrx r) s = .next s))

/-- R130, R131, R110, R230, R251, R118, R124, R128, R129, R133: DOMAIN_INSTANT_END changes nothing before every node of the
domain has finished the instant. Then the counter rises by one; after an instant in which no source was live and no status
present, the domain is done as well: the tokens queued on its command inputs are gone, and inbox 6 of the leader gets its done
token, or counts it where there is no room. REMOTE_STATUS_RECEIVE moves the oldest status of a remote channel from the wire
into its consumer's buffer, a burst that parity lost as error token 0x11 at its level. QUIESCENCE_SAMPLE notes a sample and
asks the fabric nothing; a second quiescent sample in a row stops a region's one domain in its causality cycle. PATH_CLOCK_GATE
only gates its tile. (The model's choices in it: log 35, 36, 49.) -/
def Obligations.RegionEvents : Prop :=
  (∀ (region dom : Nat) (s : State) (r : Region) (d : Dom),
  tget s.regions region = some r → r.doms[dom]? = some d →
  let risen := fun (e : Dom) (t : State) => ∃ g, tget t.regions region = some g ∧ g = { r with doms := g.doms } ∧
    g.doms[dom]? = some e ∧ ∀ j, j ≠ dom → g.doms[j]? = r.doms[j]?
  let lead := r.posOf 0
  let e := doneEntry (d.ctr + 1) dom
  (s.instantOver r dom d = false → exec (.domainInstantEnd region dom) s = .next s) ∧
  (s.instantOver r dom d = true → d.live.contains d.ctr = true → Next (exec (.domainInstantEnd region dom) s) (fun t =>
    t = { s with regions := t.regions } ∧ risen { d with ctr := d.ctr + 1, live := d.live.erase d.ctr } t)) ∧
  (s.instantOver r dom d = true → d.live.contains d.ctr = false → Next (exec (.domainInstantEnd region dom) s) (fun t =>
    risen { d with ctr := d.ctr + 1, done := true, live := [] } t ∧
    (boxRoom ((s.ctlAt lead).box 6) e = true → (t.ctlAt lead).box 6 = (s.ctlAt lead).box 6 ++ [e]) ∧
    (boxRoom ((s.ctlAt lead).box 6) e = false → (t.ctlAt lead).box 6 = (s.ctlAt lead).box 6 ∧
      (t.ctlAt lead).inboxLost = lostUp (s.ctlAt lead).inboxLost false) ∧
    (∀ p id n, p ∈ r.cores → (t.coreAt p).node id = some n → n.dom = dom → n.toks = [])))) ∧
  (∀ (core ep tile region : Nat) (lost : Bool) (s : State) (c : Chan) (x : Nat × Status)
    (rest : List (Nat × Status)) (r : Region) (d : Dom) (g : Cfg),
  (s.chanAt core ep = some c → c.wire = [] → exec (.remoteStatusReceive core ep lost) s = .next s) ∧
  (s.chanAt core ep = some c → c.wire = x :: rest → Next (exec (.remoteStatusReceive core ep lost) s) (fun t =>
    (∀ b, x.2 = some b → t.chanAt core ep = some { c with
      q := c.q ++ [(x.1, some (if lost then errToken 0x11 0 (hdrLevel b.hdr) else b))], wire := rest }) ∧
    (x.2 = none → t.chanAt core ep = some { c with q := c.q ++ [(x.1, none)], wire := rest }) ∧
    (lost = false ∨ x.2 = none → t = { s with cores := t.cores } ∧ ∀ p, p ≠ core → t.coreAt p = s.coreAt p))) ∧
  (tget s.regions region = some r →
    (s.quiescent r = false ∨ r.quiet = false → Next (exec (.quiescenceSample region) s) (fun t => t = { s with regions := t.regions } ∧
      tget t.regions region = some { r with fired := false, quiet := s.quiescent r } ∧
      ∀ k, k ≠ region → tget t.regions k = tget s.regions k)) ∧
    (s.quiescent r = true → r.quiet = true → r.doms = [d] →
      (s.modRegion region (fun h => { h with fired := false, quiet := false })).cycleOf r 0 ≠ [] →
      Next (exec (.quiescenceSample region) s) (fun t =>
        tget t.regions region = some { r with fired := false, quiet := false, doms := [{ d with stopped := true }] }))) ∧
  ((s.coreAt core).cfg = some g → (∃ n ∈ g.nodes, n.1 < 64 ∧ tileOf n.1 = tile) →
    (∀ n ∈ g.nodes, n.1 < 64 → tileOf n.1 = tile → 64 ≤ n.2.quiet) → tile ∉ (s.coreAt core).gated →
    Next (exec (.pathClockGate core tile) s) (fun t => t = { s with cores := t.cores } ∧
      t.coreAt core = { s.coreAt core with gated := (s.coreAt core).gated ++ [tile] } ∧ ∀ p, p ≠ core → t.coreAt p = s.coreAt p)))

/-- R264, R262, R341, R189, R233, R234, R300, R320: BANK_KEY_MOVE passes a key on once its holder has finished its instant, and
BKEY has then taken effect; HUB_READ performs a hub read of a core whose phase is complete: each beat of HUBRD's goes to its
place in the scratchpad, an error beat's place stays as it was, and the result word tells the bytes written, the error beats
and the first code; MGRP gets its burst. With no read ready it waits without effect. SIGNAL_ARRIVAL takes the oldest signal of
a core to its task, once the core's earlier arrivals at the same barrier have counted. One that names no live task of its
partition tells SIG 2; one for a leaf whose team runs arrives at the barrier it names and tells SIG 0; one for a leaf that has
not started is parked and tells SIG 1, or 3 where 64 are parked already. (The model's choices in it: log 44, 45.) -/
def Obligations.CoreAndSignalEvents : Prop :=
  (∀ (core bank heir : Nat) (s : State) (g : Cfg) (j : HubJob) (wh : Wheel),
  ((s.coreAt core).cfg = some g → tget g.moves bank = some heir →
    let busy := ∃ n, (s.coreAt core).node (g.holder bank) = some n ∧ (n.mid = true ∨ n.hold.isSome = true)
    (busy → exec (.bankKeyMove core bank) s = .next s) ∧
    (¬busy → Next (exec (.bankKeyMove core bank) s) (fun t => SameBytes s t ∧ (∃ h, (t.coreAt core).cfg = some h ∧ h.holder bank = heir ∧
      tget h.moves bank = none ∧ h = { g with keys := h.keys, moves := h.moves } ∧ ∀ b, b ≠ bank → h.holder b = g.holder b) ∧
      (t.coreAt core).unit = (if s.headIsBkey core bank then (s.coreAt core).unit.drop 1 else (s.coreAt core).unit)))) ∧
  ((s.coreAt core).hubCmd = some j → j.wheel = some wh → s.hubReady core j = true → s.Canonical → (∀ p, (s.coreAt p).bankTags = []) →
    let beat := fun i => s.hubBeat core wh (j.off + 64 * i) (decide (wh.len < j.off + 64 * j.beats))
    let errs := (List.range j.beats).filterMap (fun i => match beat i with
      | .ok _ => none
      | .error e => some e.1)
    let word := BitVec.ofNat 64 (64 * (j.beats - errs.length) + errs.length * 2 ^ 32 + errs.headD 0 * 2 ^ 40)
    Next (exec (.hubRead core) s) (fun t => (t.coreAt core).hubCmd = none ∧ (t.coreAt core).unit = (s.coreAt core).unit.drop 1 ∧
      (∀ q, s.headOf core = some q → (t.ctlAt q.issuer).pend =
        (if q.viaQ then (s.ctlAt q.issuer).pend.answer q.seq word else (s.ctlAt q.issuer).pend)) ∧
      BytesBut (scratchKey core j.dest) (64 * j.beats) s t ∧
      ∀ i, i < j.beats → t.peek (scratchKey core (j.dest + 64 * i)) 64 = (match beat i with
        | .ok b => bytesOfBeat b
        | .error _ => s.peek (scratchKey core (j.dest + 64 * i)) 64))) ∧
  ((s.coreAt core).hubCmd = none → (∀ p, (s.coreAt p).bankTags = []) → ∀ id n rest,
    (s.hubNodes core).filter (fun x => s.hubReady core x.2.2) = (id, n, j) :: rest → (s.coreAt core).node id = some n → j.wheel = some wh →
    let level := ((s.input core id n 0).get.map (fun b => hdrLevel b.hdr)).getD 0
    Next (exec (.hubRead core) s) (fun t => SameBytes s t ∧
      (t.coreAt core).node id = some { n with hubRes := some (s.hubBurst core wh j.off j.beats level) })) ∧
  ((s.coreAt core).hubCmd = none → (∀ x ∈ s.hubNodes core, s.hubReady core x.2.2 = false) → exec (.hubRead core) s = .next s)) ∧
  (∀ (src : Nat) (s : State) (g : Signal) (i t x : Nat) (k : Task) (leaf : PlanNode) (tm : Team),
  src < Config.coreCount → s.signals.find? (fun y => y.src == src) = some g →
  let core := bitsOf g.sb.toNat 25 16
  let bar := bitsOf g.sb.toNat 3 0
  let told := fun (v : Nat) (y : State) => y.signals = s.signals.erase g ∧ SameBytes s y ∧
    (y.ctlAt src).pend = (s.ctlAt src).pend.answer g.seq (BitVec.ofNat 64 v) ∧
    (y.ctlAt src).kept = (s.ctlAt src).kept.map (Pend.answer g.seq (BitVec.ofNat 64 v)) ∧ ∀ p, (y.ctlAt p).regs = (s.ctlAt p).regs ∧ (y.ctlAt p).ip = (s.ctlAt p).ip
  (s.signalBehind g = true → exec (.signalArrival src) s = .next s) ∧
  (∀ a ∈ s.arrivals, a.src = src → a.seq < g.seq → s.signalHome g = some a.home → a.k = bar → s.signalBehind g = true) ∧
  (s.signalBehind g = false → s.taskOf g.handle = none → Next (exec (.signalArrival src) s) (fun y => told 2 y ∧ ∀ p, p ≠ src → y.coreAt p = s.coreAt p)) ∧
  (s.signalBehind g = false → s.taskOf g.handle = some t → tget s.tasks t = some k →
    (k.part ≠ g.part ∨ k.ended.isSome = true → Next (exec (.signalArrival src) s) (told 2)) ∧
    (k.part = g.part → k.ended = none → (s.partAt k.part).resetting = false → k.leaves[bitsOf g.sb.toNat 31 28]? = some i →
      k.plan[i]? = some leaf → core < leaf.h * leaf.w → (k.nodeAt i).ended = none →
      ((k.nodeAt i).team = some x → tget s.teams x = some tm → tm.st ≠ .saved → Next (exec (.signalArrival src) s) (fun y =>
        told 0 y ∧ (y.ctlAt (tm.posOf core)).bar bar = ((s.ctlAt (tm.posOf core)).bar bar).arrive ∧ y.tasks = s.tasks)) ∧
      ((k.nodeAt i).team = none → (k.nodeAt i).parked.length < 64 → i < k.nodes.length → Next (exec (.signalArrival src) s) (fun y =>
        told 1 y ∧ ∃ q, tget y.tasks t = some q ∧ (q.nodeAt i).parked = (k.nodeAt i).parked ++ [(core, bar)])) ∧
      ((k.nodeAt i).team = none → 64 ≤ (k.nodeAt i).parked.length → Next (exec (.signalArrival src) s) (fun y =>
        told 3 y ∧ y.tasks = s.tasks)))))

/-- R230, R254, R291, R292, R294, R295, R333: COPY_START does nothing while its core has failed or a fault holds the engine;
else the next copy begins, unless one is moving, 16 wait for delivery or the team is being stopped, and the moving one goes on,
beat after beat in order, all at once or some beats in one turn and the rest later. Of a beat of 64 bytes every source is read
before its first element is written, and its elements are then written in order, so that it is not seen half written. An
element of a copy between records of one format without a reduction has its bytes put at its place unchanged. An empty fibre's
trigger begins a copy that moves nothing. COPY_COMPLETE turns the oldest copy whose elements have been performed into an
end-of-tile; END_OF_TILE_DELIVERY puts the oldest into the notified inbox, and waits without effect while that has no room.
(The model's choices in it: log 52, 80.) -/
def Obligations.CopyEvents : Prop := ∀ (core : Nat) (s : State) (j : CopyJob) (js : List CopyJob) (e : Eot) (es : List Eot) (x : Trig)
    (xs : List Trig),
  let c := (s.coreAt core).ce
  let only := fun (t : State) => t = { s with cores := t.cores } ∧ ∀ p, p ≠ core → t.coreAt p = s.coreAt p
  let q := (s.teamAt core).posOf e.core
  ((s.coreAt core).failed = true ∨ c.hold.isSome = true → exec (.copyStart core) s = .next s) ∧
  ((s.coreAt core).failed = false → c.hold = none →
    exec (.copyStart core) s = .next ((if s.copiesRun core then s.modCe core CopyEng.next else s).copyMove core) ∧
    (s.copiesRun core = true → c.moving = false → c.eots.length + c.jobs.length < 16 → c.trigs = x :: xs → c.begin x = some j →
      x.empty = true → Next (exec (.copyStart core) s) (fun t => only t ∧ (t.coreAt core).ce.jobs = c.jobs ++ [j] ∧
        j.moved = true ∧ j.bytes = 0)) ∧
    (s.copiesRun core = false → c.moving = false → exec (.copyStart core) s = .next s)) ∧
  (c.jobs = [j] → j.moved = false → let left := (j.t.dst.size - j.done) / max 1 (64 / portWidth j.t.dst.fmt) + 2
    (∀ n, j.run s core (n + 1) = (j.run s core n).beat core (copyEmits { src := j.t.src, dst := j.t.dst } j.t.prog)) ∧
    ((j.run s core left).stuck = false → (s.copyMove core).mem = (j.run s core left).s.mem ∧ ∃ y,
      ((s.copyMove core).coreAt core).ce.jobs = [y] ∧ y.moved = true ∧ y.done = max j.done j.t.dst.size) ∧
    (∀ n, (j.run s core n).hold = none → (s.copySome core n).mem = (j.run s core n).s.mem ∧ ∃ y,
      ((s.copySome core n).coreAt core).ce.jobs = [y] ∧ y.done = (j.run s core n).job.done)) ∧
  (∀ n, s.here = core → s.slot = whoCopy → (s.coreAt core).failed = false → c.hold = none →
    s.piece n = (if s.copiesRun core then s.modCe core CopyEng.next else s).copySome core n) ∧
  (∀ (m : Mover) (emits : List (View × Nat)), m.stuck = false → let n := m.job.beatLeft
    let r := (List.range n).foldl (fun (x : Mover) i => x.ahead core emits (m.job.done + i)) { m with pos := 0 }
    r.wrote = m.wrote ∧ r.job.done = m.job.done ∧ r.job.bytes = m.job.bytes ∧ (r.stuck = true → m.beat core emits = r) ∧
    (r.stuck = false → m.beat core emits = (List.range n).foldl (fun (x : Mover) _ => x.step core emits) r) ∧
    ∀ d, 64 % portWidth m.job.t.dst.fmt = 0 → m.job.done = d * (64 / portWidth m.job.t.dst.fmt) →
      n = min (m.job.t.dst.size - m.job.done) (64 / portWidth m.job.t.dst.fmt)) ∧
  (∀ (m : Mover) (z : State) (a k : Nat) (o : Option (Nat × Nat)), m.job = j → m.stuck = false → m.pos = j.seen.length → j.t.prog = [] →
    j.t.red = 0 → j.t.src.fmt = j.t.dst.fmt → j.t.src.window.length = j.t.src.rank → k < j.t.src.size → let w := portWidth j.t.dst.fmt
    m.s.copyPlace core (j.t.src.base + BitVec.ofInt 64 (j.t.src.offsetOf k)) false = (.key a o, z) →
    z.badIn (64 * (a / 64)) 64 = false → z.badIn a w = false →
    let t := m.ahead core (copyEmits { src := j.t.src, dst := j.t.dst } []) k
    t = { m with s := z, pos := m.pos + 1, job := { j with seen := j.seen ++ [some (z.peekNat a w)] } }) ∧
  (∀ (m : Mover) (y : State) (v b : Nat) (rest : List (Option Nat)) (l : Option (Nat × Nat)), m.job = j → m.stuck = false →
    j.seen = some v :: rest → j.t.prog = [] → j.t.red = 0 → j.t.src.fmt = j.t.dst.fmt → j.t.src.window.length = j.t.src.rank →
    j.done < j.t.src.size → let w := portWidth j.t.dst.fmt
    m.s.copyPlace core (j.t.dst.base + BitVec.ofInt 64 (j.t.dst.offsetOf j.done)) true = (.key b l, y) → y.Canonical →
    let t := m.step core (copyEmits { src := j.t.src, dst := j.t.dst } [])
    t.stuck = false ∧ t.job.done = j.done + 1 ∧ t.job.seen = rest ∧ t.job.bytes = j.bytes + w ∧ t.s.peek b w = bytesOfNat v w ∧
    BytesBut b w y t.s ∧ t.s = { y with mem := t.s.mem }) ∧
  (∀ (m : Mover) (z y : State) (a b : Nat) (o : Option (Nat × Nat)) (l : Option (Nat × Nat)), m.job = j → m.stuck = false → j.seen = [] →
    j.t.prog = [] → j.t.red = 0 → j.t.src.fmt = j.t.dst.fmt → j.t.src.window.length = j.t.src.rank → j.done < j.t.src.size →
    let w := portWidth j.t.dst.fmt
    m.s.copyPlace core (j.t.src.base + BitVec.ofInt 64 (j.t.src.offsetOf j.done)) false = (.key a o, z) →
    z.badIn (64 * (a / 64)) 64 = false → z.badIn a w = false →
    z.copyPlace core (j.t.dst.base + BitVec.ofInt 64 (j.t.dst.offsetOf j.done)) true = (.key b l, y) → y.Canonical →
    let t := m.step core (copyEmits { src := j.t.src, dst := j.t.dst } [])
    t.stuck = false ∧ t.hold = m.hold ∧ t.job.done = j.done + 1 ∧ t.job.bytes = j.bytes + w ∧ t.job.lost = j.lost ∧
    t.s.peek b w = z.peek a w ∧ BytesBut b w y t.s ∧ t.s = { y with mem := t.s.mem }) ∧
  (c.jobs = j :: js → j.moved = true → Next (exec (.copyComplete core) s) (fun t => only t ∧
    let n := (c.count + 1) % 2 ^ 14
    (t.coreAt core).ce = { c with
      jobs := js, count := n, eots := c.eots ++ [{ core := j.t.core, box := j.t.box, ent := eotEntry (s.lid core) n j, gives := j.wrote }] })) ∧
  (c.jobs = j :: js → j.moved = false → exec (.copyComplete core) s = .next s) ∧
  (c.eots = e :: es → boxRoom ((s.ctlAt q).box e.box) e.ent = true → e.box < 8 → Next (exec (.endOfTileDelivery core) s) (fun t =>
    SameBytes s t ∧ (t.coreAt core).ce = { c with eots := es } ∧ (t.ctlAt q).box e.box = (s.ctlAt q).box e.box ++ [e.ent] ∧
    ∀ p b, p ≠ q ∨ b ≠ e.box → (t.ctlAt p).box b = (s.ctlAt p).box b)) ∧
  (c.eots = e :: es → boxRoom ((s.ctlAt q).box e.box) e.ent = false → exec (.endOfTileDelivery core) s = .next s)

/-- R288, R289, R291, R265, R365, R366: PAGE_WALK_COMPLETE ends a walk: the die's buffer gets the translation, or every access
that joined it the fault. TLB_INVALIDATION leaves no buffer an entry of its partition, and no copy of it held.
CHECKPOINT_DRAIN_COMPLETE streams a slot's frozen pages to the target, clears COW in the entries of pages that no other slot
freezes, gives the shadows back to the pool, and gives the slot up once the notified inbox has its entry; it waits without
effect while its target cannot be written, and keeps the slot while the inbox has no room. Of a task that has ended the entry
is dropped. (The model's choices in it: log 10, 34, 64.) -/
def Obligations.MemoryEvents : Prop := ∀ (die part page slot : Nat) (s : State) (w : Walk) (at_ size : Nat) (pte : BitVec 64) (sl : Slot) (d : Drain)
    (z : State),
  (s.walks.find? (fun w => w.die == die && w.part == part && w.page == page) = some w →
    (s.walkTable part (65536 * page) = some (at_, pte, size) → Next (exec (.pageWalkComplete die part page) s) (fun t =>
      t = { s with walks := s.walks.erase w, dieTlb := t.dieTlb, free := t.free } ∧ (tgetD [] t.dieTlb die).head? =
        some { part := part, page := 65536 * page / size * size, size := size, pte := pte })) ∧
    (s.walkTable part (65536 * page) = none → Next (exec (.pageWalkComplete die part page) s) (fun t =>
      t = { s with walks := s.walks.erase w, cores := t.cores } ∧ ∀ a ∈ w.joined, t.walkFailed a.core a.who page = true))) ∧
  Next (exec (.tlbInvalidation part) s) (fun t => t = { s with cores := t.cores, dieTlb := t.dieTlb } ∧
    ∀ k, (∀ e ∈ (t.coreAt k).tlb, e.part ≠ part) ∧ (∀ e ∈ tgetD [] t.dieTlb k, e.part ≠ part) ∧ t.ctlAt k = s.ctlAt k ∧
      ∀ x tm, (s.coreAt k).team = some x → tget s.teams x = some tm → tm.part = part → (t.coreAt k).ce.hold = none) ∧
  (tget (s.partAt part).slots slot = some sl → sl.drain = some d → s.Canonical →
    let e := drainEntry sl.pages slot d.engine
    let gone := fun (t : State) => tget (t.partAt part).slots slot = none
    let frozenBy := fun (g : Nat) (x : Nat × Slot) => x.1 ≠ slot ∧ x.2.base ≤ g ∧ g < x.2.base + x.2.pages ∧
      (x.2.drain.any (fun y => y.streamed)) = false
    (d.streamed = true →
      (∀ y, s.deliver d.team d.core d.box e = some y → Next (exec (.checkpointDrainComplete part slot) s) (fun t =>
        gone t ∧ SameBytes s t ∧ t.cores = y.cores ∧ t.teams = y.teams)) ∧
      (s.deliver d.team d.core d.box e = none → exec (.checkpointDrainComplete part slot) s = .next s)) ∧
    (tget s.teams d.team = none → s.deliver d.team d.core d.box e = some s) ∧
    (∀ tm, tget s.teams d.team = some tm → d.box < 8 →
      (tm.save = none → let p := tm.posOf d.core
        (boxRoom ((s.ctlAt p).box d.box) e = true → ∃ y, s.deliver d.team d.core d.box e = some y ∧ y = { s with cores := y.cores } ∧
          (y.ctlAt p).box d.box = (s.ctlAt p).box d.box ++ [e] ∧ ∀ q b, q ≠ p ∨ b ≠ d.box → (y.ctlAt q).box b = (s.ctlAt q).box b) ∧
        (boxRoom ((s.ctlAt p).box d.box) e = false → s.deliver d.team d.core d.box e = none)) ∧
      (∀ sv c, tm.save = some sv → sv.cores[d.core]? = some c →
        (boxRoom (c.ctl.box d.box) e = true → ∃ y tn sw k, s.deliver d.team d.core d.box e = some y ∧ y = { s with teams := y.teams } ∧
          tget y.teams d.team = some tn ∧ tn.save = some sw ∧ sw.cores[d.core]? = some k ∧ k.ctl.box d.box = c.ctl.box d.box ++ [e]) ∧
        (boxRoom (c.ctl.box d.box) e = false → s.deliver d.team d.core d.box e = none))) ∧
    (∀ from_ to_ pte, sl.pages = 1 → d.dest % 65536 = 0 → s.frozenAt part sl sl.base = some from_ →
      s.xlatTable part d.dest .write = .ok to_ pte → pteCow pte = false →
      ∃ y, s.streamSlot part sl d.dest sl.pages 0 = some y ∧ y.peek to_ 65536 = s.peek from_ 65536 ∧ BytesBut to_ 65536 s y) ∧
    (d.streamed = false → (s.streamSlot part sl d.dest sl.pages 0 = none → exec (.checkpointDrainComplete part slot) s = .next s) ∧
      (s.streamSlot part sl d.dest sl.pages 0 = some z → Next (exec (.checkpointDrainComplete part slot) s) (fun t =>
        (∀ k, (∀ i x, i < sl.pages → z.walkTable part (65536 * (sl.base + i)) = some x → k < x.1 ∨ x.1 + 8 ≤ k) →
          readCell t.mem k = readCell z.mem k) ∧
        (∀ i x, i < sl.pages → (∀ y ∈ (z.partAt part).slots, ¬frozenBy (sl.base + i) y) →
          t.walkTable part (65536 * (sl.base + i)) = some x → pteCow x.2.1 = false) ∧
        (∀ x, tget (z.partAt part).slots slot = some x → (t.partAt part).pool = (z.partAt part).pool ++ x.shadows.map Prod.snd) ∧
        ((s.deliver d.team d.core d.box e).isSome = true → gone t) ∧
        (s.deliver d.team d.core d.box e = none →
          tget (t.partAt part).slots slot = some { sl with shadows := [], drain := some { d with streamed := true } })))))

/-- R303, R305, R313, R390, R398: a queue's window belongs to the partition that has the queue: an access from another is
dropped. A write that is not one of 64 bytes, or whose queue no partition has, is dropped with QERR bit 1; one that finds 32
records is dropped, counted, noted in QERR bit 0 and announced; any other is a record for the dispatcher, which makes it a task
or refuses it with QERR bit 2 and the reason. QKILL kills a live task of the queue's own partition and is without effect on any
other; QERR bits written with 1 are cleared. (The model's choices in it: log 25, 28.) -/
def Obligations.QueueEvents : Prop := ∀ (q by_ t : Nat) (whole : Bool) (record : BitVec 512) (handle : BitVec 32) (ones : BitVec 64) (s : State)
    (k : Task),
  let x := s.queueAt q
  let only := fun (y : Queue) (t : State) => t = { s with queues := t.queues, irqs := t.irqs } ∧ t.queueAt q = y ∧
    ∀ r, r ≠ q → t.queueAt r = s.queueAt r
  (2048 ≤ q ∨ (x.assigned = true ∧ x.tag ≠ by_) → exec (.queueRecordWrite { queue := q, source := by_ } whole record) s = .next s ∧
    exec (.qkill { queue := q, source := by_ } handle) s = .next s ∧ exec (.qerrClear { queue := q, source := by_ } ones) s = .next s) ∧
  (q < 2048 → (x.assigned = true → x.tag = by_) →
    (whole = false ∨ x.assigned = false → Next (exec (.queueRecordWrite { queue := q, source := by_ } whole record) s) (fun t =>
      only { x with err := x.err ||| 2 } t ∧ t.irqs = s.irqs)) ∧
    (whole = true → x.assigned = true → 32 ≤ x.recs.length → Next (exec (.queueRecordWrite { queue := q, source := by_ } whole record) s) (fun t =>
      only { x with ovf := satAdd x.ovf 1, err := x.err ||| 1 } t ∧ t.irqs = s.irqs ++ [irqMsg 2 x.tag q])) ∧
    (whole = true → x.assigned = true → x.recs = [] →
      let z := (s.modQueue q (fun x => { x with recs := [record] })).modQueue q (fun x => { x with recs := [] })
      let src : PlanSrc := { part := x.tag, core := none, pos := 0 }
      let b := bytesOfNat record.toNat 64
      (z.refusal src b 0 ≠ 0 → Next (exec (.queueRecordWrite { queue := q, source := by_ } whole record) s) (fun t =>
        only { x with err := x.err ||| 4, ref := BitVec.ofNat 8 (z.refusal src b 0) } t ∧ t.irqs = s.irqs)) ∧
      (z.refusal src b 0 = 0 → exec (.queueRecordWrite { queue := q, source := by_ } whole record) s = .next (z.addTask src b 0 q).1.failDeps)) ∧
    (s.taskOf handle = some t → tget s.tasks t = some k →
      (x.assigned = true → k.part = x.tag → exec (.qkill { queue := q, source := by_ } handle) s = .next (s.killTask t) ∧
        (k.ended = none → k.posted = false → ∃ y, tget (s.killTask t).tasks t = some y ∧ y.ended = some y.rootEnd ∧
          (k.plan.map PlanNode.kids = [[]] → k.nodes.length = 1 → (k.nodeAt 0).ended = none → y.ended = some { st := 3, code := 0 }))) ∧
      (x.assigned = false ∨ k.part ≠ x.tag → exec (.qkill { queue := q, source := by_ } handle) s = .next s)) ∧
    (s.taskOf handle = none → exec (.qkill { queue := q, source := by_ } handle) s = .next s) ∧
    (x.assigned = false → exec (.qerrClear { queue := q, source := by_ } ones) s = .next s) ∧
    (x.assigned = true → Next (exec (.qerrClear { queue := q, source := by_ } ones) s) (fun t =>
      only { x with err := x.err &&& ~~~(ones.extractLsb' 0 3) } t ∧ t.irqs = s.irqs)))

/-- R306, R307, R310, R314, R315, R318, R206: a host write sets those events of its word that its partition owns; a task that
has ended posts its status to its completion event; after both, tasks whose dependences failed end killed, and a dependence
once seen settled is awaited no more. TASK_START starts the choice of the first partition that has one, whose leaves find free
rectangles of their shapes that do not meet, those of a row side by side; a leaf's cores are bound with everything of their
controllers, command units and copy engines as new. After the start of one leaf without an image or sections its cores are in
its team, the leader runs at the leaf's entry with the argument in s1, the others at its worker entry or not at all, every
other register, command register and CSR as after reset and every barrier expecting the team's cores; no other core and no byte
changes. (The model's choices in it: log 28, 29, 65, 73.) -/
def Obligations.DispatcherEvents : Prop := ∀ (part word task : Nat) (value : BitVec 64) (s : State) (k : Task) (e : End) (i : Item) (ps : List Nat)
    (p : Nat) (x : Place) (n : PlanNode),
  (2048 ≤ word → exec (.hostEventWrite part word value) s = .next s) ∧
  (word < 2048 → ∃ z : State, exec (.hostEventWrite part word value) s = .next z.failDeps ∧ z = { s with events := z.events } ∧
    ∀ n, z.eventAt n = (if 32 * word ≤ n ∧ n < 32 * word + 32 ∧ (s.partAt part).owns n = true then
      value.toNat / 4 ^ (n - 32 * word) % 4 else s.eventAt n)) ∧
  (tget s.tasks task = some k → k.ended = some e → k.posted = false → ∃ z : State,
    exec (.completionEventPost task) s = .next z.sweep.failDeps ∧ z = { s with events := z.events, tasks := z.tasks } ∧
    tget z.tasks task = some { k with posted := true } ∧
    ∀ n, z.eventAt n = (if k.rcd.event.map (s.partAt k.part).event = some n then e.st else s.eventAt n)) ∧
  (tget s.tasks task = some k → k.ended = none ∨ k.posted = true → exec (.completionEventPost task) s = .next s) ∧
  ((part < 32 → (∃ x ∈ s.tasks, x.2.part = part ∧ x.2.ended = none) → s.choice part = some (i, ps) → i.saved = false →
      (∀ o, o < part → (∀ x ∈ s.tasks, x.2.part = o → x.2.ended.isSome = true) ∨ (∀ y, s.choice o = some y → y.1.saved = true)) →
      exec .taskStart s = .next (s.startItem part i ps)) ∧
    ((∀ o, o < 32 → s.choice o = none) → exec .taskStart s = .next s) ∧
    (s.choice part = some (i, ps) → i ∈ s.items part ∧ (s.partAt part).resetting = false ∧ ps.length = i.rows.length ∧
      (∀ x ∈ i.seats ps, s.rectFree part x.2 x.1.h x.1.w = true) ∧ (∀ row ∈ i.rows, row.Pairwise (fun x y => x.apart y = true)) ∧
      (List.zip i.rows ps).Pairwise (fun r t => ∀ x ∈ r.1, ∀ y ∈ t.1, ∀ q ∈ rectCores (x.from_ r.2) x.h x.w,
        q ∉ rectCores (y.from_ t.2) y.h y.w)) ∧
    (tget s.tasks task = some k → k.ended = none → k.begun = false →
      (s.depsFailed k = true → s.lookDeps task = s.killTask task) ∧
      (s.depsFailed k = false → tget (s.lookDeps task).tasks task =
        some { k with waits := k.waits.filter (fun e => s.eventAt ((s.partAt k.part).event e) == 0) })) ∧
    (∀ j ∈ s.items part, ∃ k, (j.task, k) ∈ s.tasks ∧ k.part = part ∧ k.ended = none ∧ (k.begun = true ∨ k.waits = [])) ∧
    (∀ x : Place, (∀ q ∈ rectCores p x.h x.w, (s.bindLeaf task part p x).coreAt q = (s.coreAt q).bound s.order (x.h * x.w) s.steps) ∧
      (∀ q, q ∉ rectCores p x.h x.w → (s.bindLeaf task part p x).coreAt q = s.coreAt q)) ∧
    (i.rows = [[x]] → tget s.tasks i.task = some k → k.plan[x.leaf]? = some n → x.leaf < k.nodes.length → n.hasImage = false →
      n.sections = [] → (k.nodeAt x.leaf).parked = [] → k.handInto x.leaf = [] →
      let lead := x.from_ p
      let count := x.h * x.w
      let t := s.startItem part i [p]
      let fresh := fun (c : Ctl) (run : Run) (ip arg : BitVec 64) => c = { Ctl.reset with
        regs := c.regs, ip := ip, bars := c.bars, run := run, start := s.steps } ∧ c.regs[1] = arg ∧
        (∀ r : Fin 32, r.val ≠ 1 → c.regs[r] = 0) ∧ (∀ j : Fin 8, c.cr[j] = 0) ∧ ∀ b : Fin 16, c.bars[b] = { n := BitVec.ofNat 16 count, a := 0, p := 0 }
      (∀ q ∈ rectCores lead x.h x.w, (t.coreAt q).team = some s.order ∧ (t.coreAt q).unit = [] ∧ (t.coreAt q).ce = CopyEng.reset ∧
        (q = lead → fresh (t.ctlAt q) .running n.entry k.rcd.arg) ∧
        (q ≠ lead → ∀ e, n.worker = some e → fresh (t.ctlAt q) .running e k.rcd.arg) ∧
        (q ≠ lead → n.worker = none → fresh (t.ctlAt q) .idle 0 0)) ∧
      (∀ q, q ∉ rectCores lead x.h x.w → t.coreAt q = s.coreAt q) ∧
      (∃ tm, tget t.teams s.order = some tm ∧ tm.task = i.task ∧ tm.leaf = x.leaf ∧ tm.st = .running ∧ tm.count = count ∧ tm.posOf 0 = lead) ∧
      (∃ y, tget t.tasks i.task = some y ∧ (y.nodeAt x.leaf).started = true ∧ (y.nodeAt x.leaf).team = some s.order) ∧ SameBytes s t))

/-- R317, R358, R239, R361, R299, R300, R314, R318, R359, R360, R362: PREEMPT of a running team that a ready task may pre-empt
records its domains' limits, stops its domains, tells its controllers, with every team bound with it; of one that no task may
pre-empt nothing happens. A task pre-empts teams of its own partition and of a lower effective priority, which it cannot bind
without and can bind once they are gone. Of a team that is being stopped PREEMPT carries the stop on: a controller stops where
it may, CYCLE with it, and once every team of its bundle rests they are saved, with what their cores held, their cores free.
DEEP_SAVE_TIMEOUT lets the saves of those of them that are not drained be deep. On any other team nothing happens. RESUME puts
the pre-empted teams whose turn it is on the places chosen for them, wherever their shapes find free cores, the banks of those
that move first written to their save areas, and waits while it is another's turn; a resumed team whose configuration, if it
had one, loads again runs with its wheels, its controllers and its nodes as they were saved, CYCLE counting on; one saved
before its first DOMGO has its nodes as the load leaves them (R362). TAGGED_BANK_EVICT puts a tagged bank into its owner's
save, and into the owner's save area where it has one and no shadow is lacking (R365), and clears its tag. (The model's choices
in it: log 28, 30, 31, 32, 33.) -/
def Obligations.PreemptionEvents : Prop :=
  (∀ (team area : Nat) (s : State) (tm : Team) (r : Region), tget s.teams team = some tm →
  (tm.st = .running →
    (s.givesWay team tm.part = true → exec (.preempt { team := team, area := area }) s =
      .next (((withAreas area (s.bundleOf team .running)).foldl State.beginStop s).stopTurn team)) ∧
    (s.givesWay team tm.part = false → exec (.preempt { team := team, area := area }) s = .next s)) ∧
  (s.givesWay team tm.part = true → (s.partAt tm.part).resetting = false ∧ ∃ i ∈ s.items tm.part, team ∈ s.victims tm.part i) ∧
  (∀ (part : Nat) (i : Item), (∀ x ∈ s.teams, tget s.teams x.1 = some x.2) → s.victims part i ≠ [] →
    let gone := (s.teams.filter (fun x => x.2.st == .stopping)).map Prod.fst
    (s.without gone).placeFor part i = none ∧ ((s.without (gone ++ s.victims part i)).placeFor part i).isSome = true ∧
    ∀ x ∈ s.victims part i, ∃ y k, tget s.teams x = some y ∧ y.st = .running ∧ tget s.tasks y.task = some k ∧ k.part = part ∧ k.eff < i.eff) ∧
  (let l := s.bundleOf team .stopping
   let z := l.foldl (fun (z : State) x => x.2.cores.foldl (fun (y : State) p => y.modCtl p (Ctl.stopHere s.steps)) z) s
   tm.st = .stopping →
    ((∀ x ∈ l, z.mayStopNow x.2 = true) → Next (exec (.preempt { team := team, area := area }) s) (fun t =>
      (∀ x ∈ l, (∃ y, tget t.teams x.1 = some y ∧ y.st = .saved ∧ y.save.isSome = true) ∧
        ∀ p ∈ x.2.cores, (t.coreAt p).team = none ∧ (t.coreAt p).unit = [] ∧ (t.coreAt p).ce = CopyEng.reset) ∧
      (l = [(team, tm)] → ∃ y sv, tget t.teams team = some y ∧ y.save = some sv ∧ sv.handle = s.handle tm.task ∧
        (sv.row, sv.col) = (tm.row, tm.col) ∧ sv.wheels = tm.wheels ∧ sv.deep = tm.deep ∧ sv.cores.length = tm.count ∧
        ∀ i, i < tm.count → ∃ c, sv.cores[i]? = some c ∧ c.ctl = (z.ctlAt (tm.posOf i)).atRest s.steps ∧
          c.unit = (z.coreAt (tm.posOf i)).unit ∧ c.ce = (z.coreAt (tm.posOf i)).ce ∧ c.cfg = (z.coreAt (tm.posOf i)).cfg))) ∧
    ((∃ x ∈ l, z.mayStopNow x.2 = false) → exec (.preempt { team := team, area := area }) s = .next z)) ∧
  ((∀ p ∈ tm.cores, (s.ctlAt p).run ≠ .running ∧ (s.ctlAt p).run ≠ .service ∧ (s.ctlAt p).run ≠ .pageWait) → tm.deep = true →
    (∀ a ∈ s.arrivals, a.home ∉ tm.cores) → s.mayStopNow tm = true) ∧
  (s.mayStopNow tm = true → ∀ p ∈ tm.cores, (s.ctlAt p).run ≠ .running) ∧
  (tm.st = .saved ∨ tm.st = .ended → exec (.preempt { team := team, area := area }) s = .next s) ∧
  (tget s.regions tm.region = some r → let t := s.beginStop (team, tm)
    SameBytes s t ∧ tget t.teams team = some { tm with st := .stopping, limits := r.doms.map (fun d => (d.lim, d.unlim)), deep := false } ∧
    (∃ h, tget t.regions tm.region = some h ∧ h = { r with doms := h.doms } ∧ h.doms.length = r.doms.length ∧
      ∀ (i : Nat) (d : Dom), r.doms[i]? = some d → h.doms[i]? = some (d.stopAt (2 ^ 48 - 1) (s.stopBoundary r i d))) ∧
    ∀ p, (t.ctlAt p).preempt = (if p ∈ tm.cores then true else (s.ctlAt p).preempt) ∧ (t.ctlAt p).regs = (s.ctlAt p).regs) ∧
  (∀ (c : Ctl) (now : Nat), c.preempt = true → c.run = .running → c.mayStop = true → c.stopHere now = { c with
    run := .stopped, cycles := c.cycles + (Config.fabricCycles now - Config.fabricCycles c.start), start := now }) ∧
  Next (exec (.deepSaveTimeout team) s) (fun t => t = { s with teams := t.teams } ∧
    ((∀ x ∈ s.teams, tget s.teams x.1 = some x.2) → ∀ x ∈ s.bundleOf team .stopping,
      tget t.teams x.1 = some { x.2 with deep := x.2.deep || !s.restsDrained x.2 })) ∧
  (s.restsDrained tm = true → s.drainedBut tm = true ∧ ∀ p ∈ tm.cores, (s.coreAt p).ce.jobs = [] ∧ (s.coreAt p).ce.eots = [])) ∧
  (∀ (team : Nat) (s : State) (tm : Team) (i : Item) (ps : List Nat) (p : Nat) (core bank : Nat) (h : BitVec 32)
    (sv : Saved),
  (tget s.teams team = some tm →
    (s.choice tm.part = none → exec (.resume team) s = .next s) ∧
    (s.choice tm.part = some (i, ps) → i.saved = false ∨ i.task ≠ tm.task ∨ tm.leaf ∉ i.places.map (fun x => x.leaf) →
      exec (.resume team) s = .next s) ∧
    (∀ (x : Place) (y : Nat × Team), s.choice tm.part = some (i, [p]) → i.saved = true → i.task = tm.task → i.rows = [[x]] → x.leaf = tm.leaf →
      s.savedLeaf i.task x.leaf = some y →
      exec (.resume team) s = .next (((s.evictMoved y.2 (x.from_ p)).resumeTeam y.1 (x.from_ p)).modPart tm.part
        (fun pt => { pt with robin := tset pt.robin i.eff i.source }))) ∧
    (tm.save = some sv → s.parkedOf tm = [] → colOf p + tm.w ≤ Config.gridCols → 0 < tm.count →
      let k := (s.seatRegion p tm sv).1
      let y := (s.seat team p tm sv).refill team (tm.moves p) (tm.seated p k sv) sv
      let loads := y.reload (tm.seated p k sv) sv k ((tm.seated p k sv).posOf 0)
      let t := s.resumeTeam team p
      (sv.region.configured = false → loads.2 = true) ∧
      (loads.2 = true → (∃ x, tget t.teams team = some x ∧ x.st = .running ∧ x.wheels = sv.wheels ∧ x.save = none ∧ x.region = k ∧
          (x.row, x.col) = (rowOf p, colOf p)) ∧
        ∀ l c, l < tm.count → sv.cores[l]? = some c →
          let q := (rowOf p + l / tm.w) * Config.gridCols + colOf p + l % tm.w
          (t.coreAt q).team = some team ∧ (t.coreAt q).ctl = { c.ctl with start := s.steps } ∧
          (sv.region.configured = true → sv.unloaded = false → ∀ g, c.cfg = some g → (t.coreAt q).cfg = some g.resumed) ∧
          (sv.unloaded = true → (t.coreAt q).cfg = (loads.1.coreAt q).cfg)))) ∧
  (tget (s.coreAt core).bankTags bank = none → exec (.taggedBankEvict core bank) s = .next s) ∧
  (tget (s.coreAt core).bankTags bank = some h → s.Canonical → Next (exec (.taggedBankEvict core bank) s) (fun t =>
    tget (t.coreAt core).bankTags bank = none ∧ (∀ b, b ≠ bank → tget (t.coreAt core).bankTags b = tget (s.coreAt core).bankTags b) ∧
    (s.ownerOf h core = none → SameBytes s t) ∧
    (∀ o own l v, tget s.teams o = some own → own.save = some sv → sv.owns h core = true → sv.logical core = some l →
      s.ownerOf h core = some v → v.area = sv.area →
      ∃ z : Saved, tget t.teams o = some { own with save := some z } ∧ z = { sv with scratch := z.scratch, bad := z.bad } ∧
        ∀ m, sv.scratch[l]? = some m → z.scratch[l]? =
          some (putRange m (bank * bankBytes) bankBytes (cellsIn s.mem (scratchKey core (bank * bankBytes)) bankBytes))) ∧
    (s.short = false → s.ownerOf h core = some sv →
      (sv.area = none → SameBytes s t) ∧
      (∀ a l pa pte, sv.area = some a → sv.logical core = some l → a % 65536 = 0 → bank < 64 →
        s.xlatTable sv.part (a + coreRecord l + bank * bankBytes) .write = .ok pa pte → pteCow pte = false →
        BytesBut pa bankBytes s t ∧ t.peek pa bankBytes = s.peek (scratchKey core (bank * bankBytes)) bankBytes)))))

/-- R351, R353, R354, R355, R356, R357, R405: CORRECTED_ERROR counts an error of a bank, a cache way or an LPDDR6 channel; the
count that first exceeds the threshold starts the bank's copy into its tile's spare, or, where that is taken, marks the core
failed; a way is given up. ERROR_WINDOW_END clears the counts. BANK_RETIRE puts the spare in the bank's place, its bytes as
they were. CORE_FAILED halts the controller of a bound core and stops the domains with a node on it, and its task will end
faulted. (The model's choices in it: log 37, 38.) -/
def Obligations.ErrorEvents : Prop := ∀ (core tile bank way ch x : Nat) (s : State),
  let c := s.coreAt core
  let b := 16 * tile + bank
  let n := tgetD 0 c.bankErr b + 1
  let w := tgetD 0 c.wayErr way + 1
  let only := fun (d : Core) (t : State) => t = { s with cores := t.cores } ∧ t.coreAt core = d ∧ ∀ p, p ≠ core → t.coreAt p = s.coreAt p
  let counted : Core := { c with bankErr := tset c.bankErr b n }
  (n ≠ s.threshold core + 1 → Next (exec (.correctedError (.bank core tile bank)) s) (only counted)) ∧
  (n = s.threshold core + 1 → c.spareTaken (b / 16) = false →
    Next (exec (.correctedError (.bank core tile bank)) s) (only { counted with copying := c.copying ++ [b] })) ∧
  (n = s.threshold core + 1 → c.spareTaken (b / 16) = true →
    Next (exec (.correctedError (.bank core tile bank)) s) (fun t => t.agenda = s.agenda ++ [.event (.coreFailed core)] ∧ t.coreAt core = counted)) ∧
  Next (exec (.correctedError (.way core way)) s) (only { c with
    wayErr := tset c.wayErr way w, lostWays := if s.threshold core < w then c.lostWays ||| (1 <<< (way % 16)) else c.lostWays }) ∧
  Next (exec (.correctedError (.dram ch)) s) (fun t => t = { s with dramErr := t.dramErr } ∧ tgetD 0 t.dramErr ch = tgetD 0 s.dramErr ch + 1) ∧
  exec (.correctedError (.other x)) s = .next s ∧
  Next (exec .errorWindowEnd s) (fun t => t = { s with cores := t.cores } ∧ ∀ p, t.coreAt p = { s.coreAt p with bankErr := [], wayErr := [] }) ∧
  (bank ∈ c.copying → s.Canonical → Next (exec (.bankRetire core bank) s) (fun t => tget (t.coreAt core).spare (bank / 16) = some bank ∧
    (t.coreAt core).copying = c.copying.erase bank ∧ ∀ k, 2 ^ 52 ≤ k → readCell t.mem k = readCell s.mem k)) ∧
  (bank ∉ c.copying → exec (.bankRetire core bank) s = .next s) ∧
  (c.failed = true → exec (.coreFailed core) s = .next s) ∧
  (c.failed = false → Next (exec (.coreFailed core) s) (fun t => (t.coreAt core).failed = true ∧ (t.coreAt core).repaired = false ∧
    (t.ctlAt core).run = (if c.team.isSome then .halted else c.ctl.run) ∧
    (∀ k tm, c.team = some k → tget s.teams k = some tm →
      tget t.teams k = some { tm with doom := some (tm.doom.getD (faultWord 0x13 (s.lid core) 0)) }) ∧
    ∀ k r i d, s.fabricOf core = some (k, r) → r.configured = true → r.team.isSome = true → r.doms[i]? = some d → d.done = false →
      (∃ y ∈ s.nodesOf r, y.1 = core ∧ y.2.2.dom = i) → ∃ g e, tget t.regions k = some g ∧ g.doms[i]? = some e ∧ e.stopped = true))

/-- R377, R378, R379, R380, R381: what a port that is up does with what it receives: a data flit in sequence joins its
channel's frame, the last one fills a slot of an enabled channel; a damaged one asks for a replay, one out of sequence does so
unless a request is out; acknowledged flits are released; a replay request has the kept flits from its sequence sent again and
counted, the eighth in a row for one sequence brings the port down; credits add to their channels; an unknown type is counted.
A port that goes down has no channel enabled and keeps its received frames; one that comes up carries nothing before a new
LINKCFG. A port that is down ignores all of these. (The model's choices in it: log 23, 46.) -/
def Obligations.LinkEvents : Prop := ∀ (port : Nat) (flit : BitVec 512) (damaged : Bool) (s : State),
  let p := s.portAt port
  let only := fun (q : Port) (t : State) => t = { s with ports := t.ports } ∧ t.portAt port = q ∧ ∀ k, k ≠ port → t.portAt k = s.portAt k
  let vc := flitByte flit 0 / 16 % 8
  let bytes := vget [] p.partials vc ++ bytesOfNat (flitNat flit 4 60) (min 60 (flitByte flit 1))
  let seq := flitNat flit 4 2
  let again := p.unacked.drop ((seq + 65536 - p.oldest) % 65536)
  let run := runOf p.lastReq p.reqRun seq
  (p.up = true →
    (damaged = false → flitNat flit 2 2 = p.rxSeq → Next (exec (.dataFlitReceive port flit damaged) s) (fun t => only (p.takeFlit flit) t ∧
      (t.portAt port).rxSeq = (p.rxSeq + 1) % 65536 ∧ (t.portAt port).asking = false ∧
      (flitByte flit 0 < 128 → vget [] (t.portAt port).partials vc = bytes ∧ (t.portAt port).slots = p.slots) ∧
      (128 ≤ flitByte flit 0 → vget [] (t.portAt port).partials vc = [] ∧ (chanBit p.en vc = true →
        vget [] (t.portAt port).slots vc = vget [] p.slots vc ++ [burstOfFrame (vget 0 p.rxFrames vc) bytes])))) ∧
    (damaged = true ∨ (flitNat flit 2 2 ≠ p.rxSeq ∧ p.asking = false) → runOf p.lastAsk p.askRun p.rxSeq < 8 →
      Next (exec (.dataFlitReceive port flit damaged) s) (only { p with
        sent := p.sent ++ [seqFlit 3 p.rxSeq], asking := true, lastAsk := p.rxSeq, askRun := runOf p.lastAsk p.askRun p.rxSeq })) ∧
    (damaged = false → flitNat flit 2 2 ≠ p.rxSeq → p.asking = true → exec (.dataFlitReceive port flit damaged) s = .next s) ∧
    Next (exec (.ackReceive port flit) s) (only { p with
      unacked := if (seq + 65536 - p.oldest + 1) % 65536 ≤ p.unacked.length then p.unacked.drop ((seq + 65536 - p.oldest + 1) % 65536) else p.unacked }) ∧
    (run < 8 → Next (exec (.replayRequestReceive port flit) s) (only { p with
      sent := p.sent ++ again, replays := min (p.replays + again.length) (2 ^ 31 - 1), lastReq := seq, reqRun := run })) ∧
    (8 ≤ run → Next (exec (.replayRequestReceive port flit) s) (fun t => (t.portAt port).up = false)) ∧
    Next (exec (.creditReceive port flit) s) (fun t => only (t.portAt port) t ∧ ∀ v, v < 8 →
      vget 0 (t.portAt port).credits v = (if flitByte flit (4 + v) = 0 then vget 0 p.credits v else min 8 (vget 0 p.credits v + flitByte flit (4 + v))) ∧
      chanBit (t.portAt port).farEn v = (chanBit p.farEn v || decide (flitByte flit (4 + v) ≠ 0))) ∧
    Next (exec (.unknownFlitTypeReceive port flit) s) (only { p with badTypes := p.badTypes + 1 }) ∧
    Next (exec (.portDown port) s) (fun t => (t.portAt port).up = false ∧ (t.portAt port).en = 0 ∧ (t.portAt port).unacked = [] ∧
      (t.portAt port).slots = p.slots ∧ ∀ k, k ≠ port → t.portAt k = s.portAt k) ∧
    exec (.portRetrain port) s = .next s) ∧
  (p.up = false → (∀ i ∈ [Instr.dataFlitReceive port flit damaged, .ackReceive port flit, .replayRequestReceive port flit,
      .creditReceive port flit, .unknownFlitTypeReceive port flit, .portDown port], exec i s = .next s) ∧
    Next (exec (.portRetrain port) s) (fun t => only (t.portAt port) t ∧ (t.portAt port).up = true ∧ (t.portAt port).en = 0 ∧
      (t.portAt port).slots = p.slots))

/-- R377, R391, R392, R393, R394, R395, R396, R397: PARTITION_RESET kills the partition's tasks, discards its regions'
configurations, zeroes the scratchpads of its cores, drops its TLB entries and walks, empties its queues, clears PCTL bit 1 and
sets bit 2, which RESET_DONE_CLEAR clears. A core is retagged only while no team is bound to it, and its scratchpad then reads
zero; a queue only while it holds no record; a grant only while no channel it changes is enabled, and none that it gives is
held by another partition. A tested core returns to service or stays out until boot; firmware is switched once the partition is
idle; BOUNDARY_DROP drops the oldest status of its route. (The model's choices in it: log 23, 35, 39, 43, 62.) -/
def Obligations.PartitionEvents : Prop := ∀ (part core q g route tag v0 : Nat) (assigned passed high : Bool) (v : BitVec 64) (d0 : BitVec 256)
    (s : State) (f : Cfg) (x : Nat × Nat × Status),
  let c := s.coreAt core
  let only := fun (d : Core) (t : State) => t = { s with cores := t.cores } ∧ t.coreAt core = d ∧ ∀ p, p ≠ core → t.coreAt p = s.coreAt p
  let idle := (∀ y ∈ s.queues, y.2.assigned = true → y.2.tag = part → y.2.recs = []) ∧ ∀ y ∈ s.tasks, y.2.part = part → y.2.ended.isSome = true
  Next (exec (.partitionReset part) s) (fun t => (t.partAt part).resetting = false ∧ (t.partAt part).resetDone = true ∧
    (∀ p o, p < Config.coreCount → o < 2 ^ 22 → (s.coreAt p).assigned = true → (s.coreAt p).tag = part → readCell t.mem (scratchKey p o) = 0) ∧
    (∀ r, (s.queueAt r).assigned = true → (s.queueAt r).tag = part → (t.queueAt r).recs = []) ∧
    (List.Pairwise (· < ·) (s.tasks.map Prod.fst) → ∀ n y, tget t.tasks n = some y → y.part = part → y.ended.isSome = true) ∧
    (List.Pairwise (· < ·) (s.regions.map Prod.fst) → ∀ n y, tget t.regions n = some y → y.part = part → y.configured = false) ∧
    (∀ w ∈ t.walks, w.part ≠ part) ∧ ∀ k, (∀ e ∈ (t.coreAt k).tlb, e.part ≠ part) ∧ ∀ e ∈ tgetD [] t.dieTlb k, e.part ≠ part) ∧
  Next (exec (.resetDoneClear part) s) (fun t => t = { s with parts := t.parts } ∧ t.partAt part = { s.partAt part with resetDone := false } ∧
    ∀ r, r ≠ part → t.partAt r = s.partAt r) ∧
  (c.team.isSome = true → exec (.retag (.core core tag assigned)) s = .next s) ∧
  (c.team = none → Next (exec (.retag (.core core tag assigned)) s) (fun t => (t.coreAt core).tag = tag ∧ (t.coreAt core).assigned = assigned ∧
    ∀ o, o < 2 ^ 22 → readCell t.mem (scratchKey core o) = 0)) ∧
  ((s.queueAt q).recs ≠ [] → exec (.retag (.queue q tag assigned)) s = .next s) ∧
  ((s.queueAt q).recs = [] → Next (exec (.retag (.queue q tag assigned)) s) (fun t => t = { s with queues := t.queues } ∧
    t.queueAt q = { s.queueAt q with tag := tag, assigned := assigned })) ∧
  (let old := if high then (s.partAt part).pvc1 else (s.partAt part).pvc0
   let touches := ∃ i, i < 8 ∧ ((old ^^^ v) >>> (8 * i)).extractLsb' 0 8 &&& (s.portAt (i + 8 * high.toNat)).en ≠ 0
   let held := ∃ x ∈ s.parts, x.1 ≠ part ∧ v &&& ~~~old &&& (if high then x.2.pvc1 else x.2.pvc0) ≠ 0
   (touches ∨ held → exec (.retag (.grant part high v)) s = .next s) ∧
   (¬touches → ¬held → Next (exec (.retag (.grant part high v)) s) (fun t => t = { s with parts := t.parts } ∧
     t.partAt part = if high then { s.partAt part with pvc1 := v } else { s.partAt part with pvc0 := v }))) ∧
  Next (exec (.retag (.homeGroup g v)) s) (fun t => t = { s with homes := t.homes } ∧ tget t.homes g = some (v &&& homeMask)) ∧
  (c.failed = true → c.repaired = true → c.dead = false → Next (exec (.coreRepairTest core passed) s) (only
    (if passed then { c with failed := false, repaired := false } else { c with repaired := false, dead := true }))) ∧
  (c.failed = false ∨ c.repaired = false ∨ c.dead = true → exec (.coreRepairTest core passed) s = .next s) ∧
  ((s.partAt part).staged = some (v0, d0) →
    (idle → Next (exec (.firmwareSwitch part) s) (fun t => t = { s with parts := t.parts } ∧
      t.partAt part = { s.partAt part with version := v0, digest := d0, staged := none })) ∧
    (¬idle → exec (.firmwareSwitch part) s = .next s)) ∧
  (c.cfg = some f → f.egress.find? (fun y => y.1 == route) = some x → Next (exec (.boundaryDrop core route) s) (fun t =>
    ∃ h, (t.coreAt core).cfg = some h ∧ h = { f with egress := f.egress.erase x, drops := h.drops, dropper := h.dropper } ∧
      tgetD 0 h.drops route = tgetD 0 f.drops route + (if x.2.2.isSome then 1 else 0)))

/-- R402, R403, R404, R390, R391: a power request is stored; one for the core's state does no more, one for a bound core is
refused, one of a core that self-refresh keeps waits; any other is granted, and OFF leaves the core without configuration and
its scratchpad zero. The refusal bit is cleared by a write of 1. The clock step is stored and nothing else changes.
Self-refresh is entered only while every core is in RET or OFF; on leaving it the requests that waited are granted.
REGISTER_WRITE: a write to the aperture that is not privileged, not aligned, or precedes the boot has no effect; a privileged
one does what the event of its register does: the core map and the queue map, entry by entry, a bound core and a queue with
records as they were; home groups, power with the refusal bit, clock, self-refresh, partition registers, an LPDDR6 share only
while all shares come to at most 64. (The model's choices in it: log 41, 42.) -/
def Obligations.PowerAndRegisterEvents : Prop :=
  (∀ (core : Nat) (state clk : BitVec 2) (s : State),
  let c := s.coreAt core
  let only := fun (d : Core) (t : State) => t = { s with cores := t.cores } ∧ t.coreAt core = d ∧ ∀ p, p ≠ core → t.coreAt p = s.coreAt p
  let low := ∀ p, p < Config.coreCount → (s.coreAt p).power = 2 ∨ (s.coreAt p).power = 3
  (state = c.power → Next (exec (.powerStateRequest core state) s) (only { c with request := state })) ∧
  (state ≠ c.power → c.power = 0 → c.team.isSome = true →
    Next (exec (.powerStateRequest core state) s) (only { c with request := state, refused := true })) ∧
  (state ≠ c.power → s.refresh = true → c.power = 2 ∨ c.power = 3 →
    Next (exec (.powerStateRequest core state) s) (only { c with request := state })) ∧
  (state ≠ c.power → (c.power ≠ 0 ∨ c.team = none) → s.refresh = false → Next (exec (.powerStateRequest core state) s) (fun t =>
    (t.coreAt core).power = state ∧ (t.coreAt core).request = state ∧
    (state ≠ 3 → only { c with request := state, power := state } t) ∧
    (state = 3 → (t.coreAt core).cfg = none ∧ ∀ o, o < 2 ^ 22 → readCell t.mem (scratchKey core o) = 0))) ∧
  Next (exec (.powerRefusalClear core) s) (only { c with refused := false }) ∧
  exec (.clockStepChange clk) s = .next { s with clock := clk } ∧
  (low → exec .selfRefreshEnter s = .next { s with refresh := true }) ∧
  (¬low → exec .selfRefreshEnter s = .next { s with refreshNo := true }) ∧
  (s.refresh = false → exec .selfRefreshExit s = .next s) ∧
  Next (exec .selfRefreshExit s) (fun t => t.refresh = false ∧ (s.refresh = true → core < Config.coreCount →
    c.power = 2 ∨ c.power = 3 → (t.coreAt core).power = c.request))) ∧
  (∀ (offset g core part : Nat) (v : BitVec 64) (s : State),
  let w := fun (o : Nat) => exec (.registerWrite o v true) s
  exec (.registerWrite offset v false) s = .next s ∧
  (s.booted = false → w offset = .next s) ∧ (offset % 8 ≠ 0 → w offset = .next s) ∧
  (s.booted = true →
    (g < 128 → w (0x03004000 + 8 * g) = exec (.retag (.homeGroup g v)) s) ∧
    (∀ j, j < 64 → Next (w (0x03000000 + 8 * j)) (fun t => ∀ i, i < 8 → let c := s.coreAt (8 * j + i)
      let d := t.coreAt (8 * j + i)
      let tag := bitsOf v.toNat (8 * i + 4) (8 * i)
      let as := v.getLsbD (8 * i + 7)
      (c.team.isSome = true → d.tag = c.tag ∧ d.assigned = c.assigned) ∧
      (c.team = none → d.tag = tag ∧ d.assigned = as ∧
        (c.tag ≠ tag ∨ c.assigned ≠ as → ∀ o, o < 2 ^ 22 → readCell t.mem (scratchKey (8 * j + i) o) = 0)))) ∧
    (∀ j, j < 256 → Next (w (0x03001000 + 8 * j)) (fun t => t = { s with queues := t.queues } ∧ ∀ i, i < 8 → let x := s.queueAt (8 * j + i)
      t.queueAt (8 * j + i) = if x.recs = [] then { x with tag := bitsOf v.toNat (8 * i + 4) (8 * i), assigned := v.getLsbD (8 * i + 7) } else x)) ∧
    (core < 512 → v.getLsbD 16 = true → ∀ z, exec (.powerRefusalClear core) s = .next z →
      w (0x04000000 + 8 * core) = exec (.powerStateRequest core (v.extractLsb' 0 2)) z) ∧
    (core < 512 → v.getLsbD 16 = false → w (0x04000000 + 8 * core) = exec (.powerStateRequest core (v.extractLsb' 0 2)) s) ∧
    w 0x04001000 = exec (.clockStepChange (v.extractLsb' 0 2)) s ∧
    w 0x04001008 = (if v.getLsbD 0 then exec .selfRefreshEnter s else exec .selfRefreshExit s) ∧
    (part < 32 →
      Next (w (0x03002000 + 0x80 * part)) (fun t => t = { s with parts := t.parts } ∧
        t.partAt part = { s.partAt part with ptroot := v &&& 0x000FFFFFFFFE0000 }) ∧
      Next (w (0x03002000 + 0x80 * part + 0x08)) (fun t => t = { s with parts := t.parts } ∧
        t.partAt part = { s.partAt part with pevt := v &&& 0xFFFFFFFF }) ∧
      (let only := fun (y : Part) (t : State) => t = { s with parts := t.parts } ∧ t.partAt part = y ∧ ∀ k, k ≠ part → t.partAt k = s.partAt k
       let share := v.toNat % 128
       Next (w (0x03002000 + 0x80 * part + 0x10)) (only { s.partAt part with pfq := v &&& 0x000FFFFFFFFF0000 }) ∧
       Next (w (0x03002000 + 0x80 * part + 0x18)) (only { s.partAt part with pfqR := bitsOf v.toNat 41 32 }) ∧
       Next (w (0x03002000 + 0x80 * part + 0x20)) (only { s.partAt part with pways := v &&& 0xFFFF }) ∧
       (s.dramSum part share ≤ 64 →
         Next (w (0x03002000 + 0x80 * part + 0x28)) (only { s.partAt part with pdram := BitVec.ofNat 64 share })) ∧
       (64 < s.dramSum part share → w (0x03002000 + 0x80 * part + 0x28) = .next s)) ∧
      w (0x03002000 + 0x80 * part + 0x30) = exec (.retag (.grant part false v)) s ∧
      w (0x03002000 + 0x80 * part + 0x38) = exec (.retag (.grant part true v)) s ∧
      (v.getLsbD 1 = true → v.getLsbD 2 = false → w (0x03002000 + 0x80 * part + 0x40) = exec (.partitionReset part) s) ∧
      (v.getLsbD 1 = false → v.getLsbD 2 = true → w (0x03002000 + 0x80 * part + 0x40) = exec (.resetDoneClear part) s))))

/-- R1, R396, R397, R399, R400, R401: BOOT and FIRMWARE_UPDATE check their image in the order signature (by the key whose
digest is fused), rollback, size; BOOTST takes the code, and the status is announced. A failed boot keeps the fabric in reset;
after a good one the package is at reset but for its memory, with the image's digest and version in every partition; a core
that stays failed is still marked so, and one that is out of service gives place to a spare of its die while the die has one of
its four; a good update is staged for every partition. ATTESTATION_REQUEST on a booted package puts the report and its 64-byte
signature into the mailbox. (The model's choices in it: log 4, 40, 62, 76.) -/
def Obligations.BootEvents : Prop := ∀ (image : FirmwareImage) (nonce : BitVec 256) (part : Nat) (s : State),
  let code : BitVec 8 := if imageSigned image = false then 1 else if image.version < s.rollback then 2 else if image.fits = false then 3 else 0
  let cleared := fun (t : State) => t.regions = [] ∧ t.teams = [] ∧ t.tasks = [] ∧ t.irqs = [irqMsg 3 0 0] ∧ t.rollback = s.rollback ∧
    ∀ p, (t.coreAt p).team = none ∧ (t.coreAt p).cfg = none ∧ (t.coreAt p).unit = [] ∧ (t.coreAt p).ctl = Ctl.reset
  let lost := fun (die : Nat) => (s.cores.filter (fun c => c.2.failed && c.2.dead && dieOf c.1 == die)).length
  (imageSigned image = true ↔
    sha256 image.key = Config.fusedKeyDigest ∧ ecdsaVerify image.key (sha256 image.bytes) image.signature = true) ∧
  (code ≠ 0 → Next (exec (.boot image) s) (fun t => t.booted = false ∧ t.bootst = code ∧ cleared t)) ∧
  (code = 0 → Next (exec (.boot image) s) (fun t => t.booted = true ∧ t.bootst = 0 ∧ cleared t ∧ t.fwDigest = imageDigest image ∧
    (∀ q, q < 32 → t.partAt q = { Part.reset with version := image.version, digest := imageDigest image }) ∧
    (List.Pairwise (· < ·) (s.cores.map Prod.fst) →
      (∀ p, (s.coreAt p).dead = false → (t.coreAt p).failed = (s.coreAt p).failed) ∧
      (∀ p, (s.coreAt p).failed = true → (s.coreAt p).dead = true → tgetD 0 s.spares (dieOf p) + lost (dieOf p) ≤ 4 →
        t.coreAt p = Core.reset) ∧
      ∀ die, tgetD 0 s.spares die ≤ 4 → tgetD 0 t.spares die = min 4 (tgetD 0 s.spares die + lost die)) ∧
    (s.Canonical → ∀ k, k < 2 ^ 52 → readCell t.mem k = readCell s.mem k) ∧ ∀ k, 2 ^ 52 ≤ k → readCell t.mem k = 0)) ∧
  Next (exec (.firmwareUpdate image) s) (fun t => t = { s with parts := t.parts, bootst := code, irqs := s.irqs ++ [irqMsg 3 0 0] } ∧
    ∀ q, t.partAt q = if code = 0 ∧ q < 32 then { s.partAt q with staged := some (image.version, imageDigest image) } else s.partAt q) ∧
  (s.booted = true → Next (exec (.attestationRequest nonce part) s) (fun t => t = { s with mailbox := t.mailbox, free := s.free + 1 } ∧
    ∃ sig : List Byte, sig.length = 64 ∧ sig = attestSignature s.free (sha256 (s.reportBody nonce part)) ∧
      t.mailbox = s.reportBody nonce part ++ sig)) ∧
  (s.booted = false → exec (.attestationRequest nonce part) s = .next s) ∧ identityKey.length = 65

/-- R211, R303, R306, R307, R400: right after reset the CSRs of every core read as the table of R211 gives them, every event is
done, every queue is empty with its error registers clear, no task lives, the fabric is in reset, and no command or copy stands
in any core. (The model's choices in it: log 6.) -/
def Obligations.ResetValues : Prop := core.reset = State.reset ∧ ∀ (p e q : Nat),
  let s : State := { State.reset with here := p }
  (∀ n ∈ [0x021#12, 0x022, 0x023, 0x029, 0x030, 0x031, 0x032, 0x040, 0x042, 0x043, 0x044, 0x045, 0x046], s.csr n = 0) ∧
  s.csr 0x020 = 0x80000000003E0000 ∧ s.eventAt e = 1 ∧
  (s.queueAt q).recs = [] ∧ (s.queueAt q).ovf = 0 ∧ (s.queueAt q).err = 0 ∧ (s.queueAt q).ref = 0 ∧
  s.tasks = [] ∧ s.teams = [] ∧ s.booted = false ∧ (s.coreAt p).unit = [] ∧ (s.coreAt p).ce = CopyEng.reset ∧ (s.coreAt p).cfg = none

/-- R4, R277, R405 (and the model's one form of memory, log 1): the memory of the state after reset is in its canonical form,
and every byte reads 0. (The model's choices in it: log 1.) -/
def Obligations.MemoryFormAtReset : Prop := State.reset.Canonical ∧ ∀ a, readCell State.reset.mem a = 0

/-- R4, R277, R405 (and the model's one form of memory, log 1): whatever a step does (an instruction, a command, a node's
instant, a copy, an event from outside), from every state whose memory is in its canonical form the next state's memory is:
addresses strictly rising, no byte listed that an unlisted address reads as, so that two states with the same bytes are the
same data. (The model's choices in it: log 1.) -/
def Obligations.MemoryFormKept : Prop := ∀ s t : State, s.Canonical → step s = .next t → t.Canonical

/-- R205, R208, R213, R109, R244, R61, R400 (and the model's order of turns, log 2): a step takes the turn at the head of the
agenda. A running controller's turn runs the instruction that the word at ip decodes to, an illegal instruction where it
decodes to none; with ip in control memory, outside the instruction cache and uncorrectable words, that word is the four bytes
at ip, lowest first, and only the instruction cache differs before the instruction runs. A unit's turn runs the command at its
head once it may; a node's turn runs the node's operation, or (R333) only the next beats of a memory node's burst or of a copy;
an event's turn that event. A turn that comes to lack a shadow (R365) leaves only the mark of its wait, to be tried again. A
step stops only on a turn of an agent or event that the package does not have. Until an image has passed the boot ROM the
fabric stays in reset: only BOOT acts. (The model's choices in it: log 2, 7, 12, 13, 14, 67, 76, 80, 95.) -/
def Obligations.StepRunsDecoded : Prop := ∀ (s : State) (t : Turn) (rest : List Turn) (p k : Nat) (i : Instr), s.agenda = t :: rest →
  let z := { s.begin_ rest with here := p }
  let y := { s.begin_ rest with here := p, slot := k }
  let comes := fun (o : Answer) => (s.begin_ rest).unlessShort t o
  (∀ u : State, (u.short = false → comes (.next u) = .next u) ∧ (u.short = true → comes (.next u) = .next ((s.begin_ rest).awaits t))) ∧
  (t.exists_ = false → step s = .fault .noSuchAgent) ∧
  (t.exists_ = true → ∃ o, step s = .next o ∧ o.short = false) ∧
  (s.booted = false → t.exists_ = true → (∀ image, t ≠ .event (.boot image)) → step s = .next (s.begin_ rest)) ∧
  (t = .event i → t.exists_ = true → s.booted = true ∨ (∃ image, i = .boot image) → step s = comes (exec i (s.begin_ rest))) ∧
  (t = .ctl p → s.booted = true → p < Config.coreCount → (s.ctlAt p).run = .running → (s.ctlAt p).preempt = false → (s.ctlAt p).pend = .none →
    (∀ w x, z.fetch = (.word w, x) → (decodeWord w = .ok i → step s = comes (exec i x)) ∧
      ((decodeWord w).toOption = none → step s = comes (exec (.illegalInstruction w) x))) ∧
    (∀ f x, z.fetch = (.fault f, x) → step s = comes (exec (.instructionFetchFault f) x)) ∧
    (∀ off : BitVec 22, (s.ctlAt p).ip = 0x20000000000#42 ++ off → 0x3E0000 ≤ off.toNat → off.toNat + 4 ≤ 2 ^ 22 → (s.coreAt p).bankTags = [] →
      tget (s.ctlAt p).icache (scratchKey p off.toNat / 64) = none → s.badIn (scratchKey p off.toNat) 4 = false →
      ∃ x, z.fetch = (.word (BitVec.ofNat 32 (readNat s.mem (scratchKey p off.toNat) 4)), x) ∧ OnlyMe z x ∧
        x.me = { z.me with icache := x.me.icache })) ∧
  (∀ q, t = .cmd p → s.booted = true → p < Config.coreCount → z.headOf p = some q → z.unitMay p q = true → step s = comes (exec (decodeCommand q.img) z)) ∧
  (∀ n, t = .node p k → s.booted = true → p < Config.coreCount → k < 96 → (s.coreAt p).node k = some n → decodeNodeOp n.op n.rcd = .ok i → step s = comes (exec i y)) ∧
  (∀ n, t = .piece p k n → s.booted = true → p < Config.coreCount → k ≤ 96 → step s = comes (.next (y.piece n)))

/-- R48, R60, R212, R213, R243, R247: decoding the encoding of any well-formed scalar instruction, stream command or node gives
it back, every operand at every value that its encoding admits; an illegal word is one that decodes to nothing; events have no
encoding. -/
def Obligations.DecodeEncode : Prop := ∀ i : Instr, Laws.RoundTrip.Statement i

/-- R212, R213: no two words stand for one instruction and no bit of a word is passed over: a word that decodes to an
instruction is that instruction's encoding, so every bit that its format does not use was the zero that R213 asks for; and
every instruction a word decodes to is well-formed. -/
def Obligations.EncodeDecode : Prop := ∀ (w : BitVec 32) (i : Instr), decodeWord w = .ok i → encode i = .scalar w ∧ wfInstr i = true

/-- R212, R214, R216, R217, R218, R219, R225, R231, R235: words written out from the spec's encodings of scalar instructions
decode to the instructions they stand for. -/
def Obligations.DecodeWords : Prop := decodeWord 0b000000_00011_00100_00101_00000000000 = .ok (.add 3 4 5) ∧
  decodeWord 0b000001_00011_00100_1111111111111110 = .ok (.addi 3 4 0xFFFE) ∧
  decodeWord 0b000111_00011_00100_10_00000000_111111 = .ok (.srai 3 4 63) ∧
  decodeWord 0b010000_00011_00100_1111111111111111 = .ok (.beq 3 4 0xFFFF) ∧
  decodeWord 0b010110_11111111111111111111111111 = .ok (.jal 0x3FFFFFF) ∧
  decodeWord 0b011110_00011_00100_0000000000001000 = .ok (.ldd 3 4 8) ∧
  decodeWord 0b100011_00011_00100_0000000000001000 = .ok (.std 3 4 8) ∧
  decodeWord 0b101000_01100_00100_00101_00000000000 = .ok (.cmdw 3 4 5) ∧
  decodeWord 0b101110_00011_00100_000000000010_0000 = .ok (.iwait 3 4 2) ∧
  decodeWord 0b111000_00011_00000_000001000011_0000 = .ok (.csrr 3 0x043)
end

