-- ==== Sys2Proof/Laws/State.lean ====
section
/-!
SUPPORT. The state and its updates: tables, one lemma for each field under each update, registers after a write, and what an
instruction that writes one register does.
-/

namespace Sys2Proof.Machine

/-! ### Tables -/

@[simp] theorem tget_tset_self {α : Type} (t : Tab α) (k : Nat) (v : α) : tget (tset t k v) k = some v := by
  induction t with
  | nil => simp [tset, tget]
  | cons x t ih =>
    obtain ⟨i, y⟩ := x
    by_cases h : i = k
    · simp [tset, tget, h]
    · by_cases g : k < i
      · simp [tset, tget, h, g]
      · simp [tset, tget, h, g, ih]

@[simp] theorem tget_tset_ne {α : Type} (t : Tab α) {k j : Nat} (v : α) (h : j ≠ k) : tget (tset t k v) j = tget t j := by
  induction t with
  | nil => simp [tset, tget, Ne.symm h]
  | cons x t ih =>
    obtain ⟨i, y⟩ := x
    by_cases e : i = k
    · subst e; simp [tset, tget, Ne.symm h]
    · by_cases g : k < i
      · simp [tset, tget, e, g, Ne.symm h]
      · simp [tset, tget, e, g, ih]

/-- A table's entry after another is set. -/
theorem tget_tset {α : Type} (t : Tab α) (k j : Nat) (v : α) : tget (tset t k v) j = if j = k then some v else tget t j := by
  by_cases h : j = k
  · subst h; simp
  · simp [h]

/-! ### Cores -/

@[simp] theorem State.coreAt_setCore_self (s : State) (p : Nat) (c : Core) : (s.setCore p c).coreAt p = c := by
  simp [State.coreAt, State.setCore, tgetD]

@[simp] theorem State.coreAt_setCore_ne (s : State) {p q : Nat} (c : Core) (h : q ≠ p) : (s.setCore p c).coreAt q = s.coreAt q := by
  simp [State.coreAt, State.setCore, tgetD, h]

@[simp] theorem State.coreAt_modCore_self (s : State) (p : Nat) (f : Core → Core) : (s.modCore p f).coreAt p = f (s.coreAt p) := by
  simp [State.modCore]

@[simp] theorem State.coreAt_modCore_ne (s : State) {p q : Nat} (f : Core → Core) (h : q ≠ p) :
    (s.modCore p f).coreAt q = s.coreAt q := by
  simp [State.modCore, h]

/-- A core after another is changed. -/
theorem State.coreAt_modCore (s : State) (p q : Nat) (f : Core → Core) :
    (s.modCore p f).coreAt q = if q = p then f (s.coreAt p) else s.coreAt q := by
  by_cases h : q = p
  · subst h; simp
  · simp [h]

@[simp] theorem State.coreAt_modCtl_self (s : State) (p : Nat) (f : Ctl → Ctl) :
    (s.modCtl p f).coreAt p = { s.coreAt p with ctl := f (s.ctlAt p) } := by
  simp [State.modCtl, State.ctlAt]

@[simp] theorem State.coreAt_modCtl_ne (s : State) {p q : Nat} (f : Ctl → Ctl) (h : q ≠ p) :
    (s.modCtl p f).coreAt q = s.coreAt q := by
  simp [State.modCtl, h]

@[simp] theorem State.ctlAt_modCtl_self (s : State) (p : Nat) (f : Ctl → Ctl) : (s.modCtl p f).ctlAt p = f (s.ctlAt p) := by
  simp [State.ctlAt]

@[simp] theorem State.ctlAt_modCtl_ne (s : State) {p q : Nat} (f : Ctl → Ctl) (h : q ≠ p) :
    (s.modCtl p f).ctlAt q = s.ctlAt q := by
  simp [State.ctlAt, h]

@[simp] theorem State.me_modMe (s : State) (f : Ctl → Ctl) : (s.modMe f).me = f s.me := by
  simp [State.me, State.modMe, State.modCtl, State.modCore, State.setCore, State.ctlAt, State.coreAt, tgetD]

@[simp] theorem State.coreAt_modMe_self (s : State) (f : Ctl → Ctl) :
    (s.modMe f).coreAt s.here = { s.coreAt s.here with ctl := f s.me } := by
  simp [State.modMe, State.me]

@[simp] theorem State.coreAt_modMe_ne (s : State) {q : Nat} (f : Ctl → Ctl) (h : q ≠ s.here) :
    (s.modMe f).coreAt q = s.coreAt q := by
  simp [State.modMe, h]

/-! ### The fields of the state -/

@[simp] theorem State.setCore_bad (s : State) (p : Nat) (c : Core) : (s.setCore p c).bad = s.bad := (rfl)
@[simp] theorem State.setCore_dieTlb (s : State) (p : Nat) (c : Core) : (s.setCore p c).dieTlb = s.dieTlb := (rfl)
@[simp] theorem State.setCore_walks (s : State) (p : Nat) (c : Core) : (s.setCore p c).walks = s.walks := (rfl)
@[simp] theorem State.setCore_regions (s : State) (p : Nat) (c : Core) : (s.setCore p c).regions = s.regions := (rfl)
@[simp] theorem State.setCore_teams (s : State) (p : Nat) (c : Core) : (s.setCore p c).teams = s.teams := (rfl)
@[simp] theorem State.setCore_areas (s : State) (p : Nat) (c : Core) : (s.setCore p c).areas = s.areas := (rfl)
@[simp] theorem State.setCore_tasks (s : State) (p : Nat) (c : Core) : (s.setCore p c).tasks = s.tasks := (rfl)
@[simp] theorem State.setCore_gens (s : State) (p : Nat) (c : Core) : (s.setCore p c).gens = s.gens := (rfl)
@[simp] theorem State.setCore_order (s : State) (p : Nat) (c : Core) : (s.setCore p c).order = s.order := (rfl)
@[simp] theorem State.setCore_queues (s : State) (p : Nat) (c : Core) : (s.setCore p c).queues = s.queues := (rfl)
@[simp] theorem State.setCore_events (s : State) (p : Nat) (c : Core) : (s.setCore p c).events = s.events := (rfl)
@[simp] theorem State.setCore_homes (s : State) (p : Nat) (c : Core) : (s.setCore p c).homes = s.homes := (rfl)
@[simp] theorem State.setCore_parts (s : State) (p : Nat) (c : Core) : (s.setCore p c).parts = s.parts := (rfl)
@[simp] theorem State.setCore_ports (s : State) (p : Nat) (c : Core) : (s.setCore p c).ports = s.ports := (rfl)
@[simp] theorem State.setCore_arrivals (s : State) (p : Nat) (c : Core) : (s.setCore p c).arrivals = s.arrivals := (rfl)
@[simp] theorem State.setCore_signals (s : State) (p : Nat) (c : Core) : (s.setCore p c).signals = s.signals := (rfl)
@[simp] theorem State.setCore_irqs (s : State) (p : Nat) (c : Core) : (s.setCore p c).irqs = s.irqs := (rfl)
@[simp] theorem State.setCore_calls (s : State) (p : Nat) (c : Core) : (s.setCore p c).calls = s.calls := (rfl)
@[simp] theorem State.setCore_pageAsks (s : State) (p : Nat) (c : Core) : (s.setCore p c).pageAsks = s.pageAsks := (rfl)
@[simp] theorem State.setCore_thresh (s : State) (p : Nat) (c : Core) : (s.setCore p c).thresh = s.thresh := (rfl)
@[simp] theorem State.setCore_dramErr (s : State) (p : Nat) (c : Core) : (s.setCore p c).dramErr = s.dramErr := (rfl)
@[simp] theorem State.setCore_booted (s : State) (p : Nat) (c : Core) : (s.setCore p c).booted = s.booted := (rfl)
@[simp] theorem State.setCore_bootst (s : State) (p : Nat) (c : Core) : (s.setCore p c).bootst = s.bootst := (rfl)
@[simp] theorem State.setCore_rollback (s : State) (p : Nat) (c : Core) : (s.setCore p c).rollback = s.rollback := (rfl)
@[simp] theorem State.setCore_fwDigest (s : State) (p : Nat) (c : Core) : (s.setCore p c).fwDigest = s.fwDigest := (rfl)
@[simp] theorem State.setCore_mailbox (s : State) (p : Nat) (c : Core) : (s.setCore p c).mailbox = s.mailbox := (rfl)
@[simp] theorem State.setCore_clock (s : State) (p : Nat) (c : Core) : (s.setCore p c).clock = s.clock := (rfl)
@[simp] theorem State.setCore_refresh (s : State) (p : Nat) (c : Core) : (s.setCore p c).refresh = s.refresh := (rfl)
@[simp] theorem State.setCore_refreshNo (s : State) (p : Nat) (c : Core) : (s.setCore p c).refreshNo = s.refreshNo := (rfl)
@[simp] theorem State.setCore_agenda (s : State) (p : Nat) (c : Core) : (s.setCore p c).agenda = s.agenda := (rfl)
@[simp] theorem State.setCore_here (s : State) (p : Nat) (c : Core) : (s.setCore p c).here = s.here := (rfl)
@[simp] theorem State.setCore_slot (s : State) (p : Nat) (c : Core) : (s.setCore p c).slot = s.slot := (rfl)
@[simp] theorem State.setCore_steps (s : State) (p : Nat) (c : Core) : (s.setCore p c).steps = s.steps := (rfl)
@[simp] theorem State.setCore_free (s : State) (p : Nat) (c : Core) : (s.setCore p c).free = s.free := (rfl)
@[simp] theorem State.setCore_short (s : State) (p : Nat) (c : Core) : (s.setCore p c).short = s.short := (rfl)

@[simp] theorem State.modCore_bad (s : State) (p : Nat) (f : Core → Core) : (s.modCore p f).bad = s.bad := (rfl)
@[simp] theorem State.modCore_dieTlb (s : State) (p : Nat) (f : Core → Core) : (s.modCore p f).dieTlb = s.dieTlb := (rfl)
@[simp] theorem State.modCore_walks (s : State) (p : Nat) (f : Core → Core) : (s.modCore p f).walks = s.walks := (rfl)
@[simp] theorem State.modCore_regions (s : State) (p : Nat) (f : Core → Core) : (s.modCore p f).regions = s.regions := (rfl)
@[simp] theorem State.modCore_teams (s : State) (p : Nat) (f : Core → Core) : (s.modCore p f).teams = s.teams := (rfl)
@[simp] theorem State.modCore_areas (s : State) (p : Nat) (f : Core → Core) : (s.modCore p f).areas = s.areas := (rfl)
@[simp] theorem State.modCore_tasks (s : State) (p : Nat) (f : Core → Core) : (s.modCore p f).tasks = s.tasks := (rfl)
@[simp] theorem State.modCore_gens (s : State) (p : Nat) (f : Core → Core) : (s.modCore p f).gens = s.gens := (rfl)
@[simp] theorem State.modCore_order (s : State) (p : Nat) (f : Core → Core) : (s.modCore p f).order = s.order := (rfl)
@[simp] theorem State.modCore_queues (s : State) (p : Nat) (f : Core → Core) : (s.modCore p f).queues = s.queues := (rfl)
@[simp] theorem State.modCore_events (s : State) (p : Nat) (f : Core → Core) : (s.modCore p f).events = s.events := (rfl)
@[simp] theorem State.modCore_homes (s : State) (p : Nat) (f : Core → Core) : (s.modCore p f).homes = s.homes := (rfl)
@[simp] theorem State.modCore_parts (s : State) (p : Nat) (f : Core → Core) : (s.modCore p f).parts = s.parts := (rfl)
@[simp] theorem State.modCore_ports (s : State) (p : Nat) (f : Core → Core) : (s.modCore p f).ports = s.ports := (rfl)
@[simp] theorem State.modCore_arrivals (s : State) (p : Nat) (f : Core → Core) : (s.modCore p f).arrivals = s.arrivals := (rfl)
@[simp] theorem State.modCore_signals (s : State) (p : Nat) (f : Core → Core) : (s.modCore p f).signals = s.signals := (rfl)
@[simp] theorem State.modCore_irqs (s : State) (p : Nat) (f : Core → Core) : (s.modCore p f).irqs = s.irqs := (rfl)
@[simp] theorem State.modCore_calls (s : State) (p : Nat) (f : Core → Core) : (s.modCore p f).calls = s.calls := (rfl)
@[simp] theorem State.modCore_pageAsks (s : State) (p : Nat) (f : Core → Core) : (s.modCore p f).pageAsks = s.pageAsks := (rfl)
@[simp] theorem State.modCore_thresh (s : State) (p : Nat) (f : Core → Core) : (s.modCore p f).thresh = s.thresh := (rfl)
@[simp] theorem State.modCore_dramErr (s : State) (p : Nat) (f : Core → Core) : (s.modCore p f).dramErr = s.dramErr := (rfl)
@[simp] theorem State.modCore_booted (s : State) (p : Nat) (f : Core → Core) : (s.modCore p f).booted = s.booted := (rfl)
@[simp] theorem State.modCore_bootst (s : State) (p : Nat) (f : Core → Core) : (s.modCore p f).bootst = s.bootst := (rfl)
@[simp] theorem State.modCore_rollback (s : State) (p : Nat) (f : Core → Core) : (s.modCore p f).rollback = s.rollback := (rfl)
@[simp] theorem State.modCore_fwDigest (s : State) (p : Nat) (f : Core → Core) : (s.modCore p f).fwDigest = s.fwDigest := (rfl)
@[simp] theorem State.modCore_mailbox (s : State) (p : Nat) (f : Core → Core) : (s.modCore p f).mailbox = s.mailbox := (rfl)
@[simp] theorem State.modCore_clock (s : State) (p : Nat) (f : Core → Core) : (s.modCore p f).clock = s.clock := (rfl)
@[simp] theorem State.modCore_refresh (s : State) (p : Nat) (f : Core → Core) : (s.modCore p f).refresh = s.refresh := (rfl)
@[simp] theorem State.modCore_refreshNo (s : State) (p : Nat) (f : Core → Core) : (s.modCore p f).refreshNo = s.refreshNo := (rfl)
@[simp] theorem State.modCore_agenda (s : State) (p : Nat) (f : Core → Core) : (s.modCore p f).agenda = s.agenda := (rfl)
@[simp] theorem State.modCore_here (s : State) (p : Nat) (f : Core → Core) : (s.modCore p f).here = s.here := (rfl)
@[simp] theorem State.modCore_slot (s : State) (p : Nat) (f : Core → Core) : (s.modCore p f).slot = s.slot := (rfl)
@[simp] theorem State.modCore_steps (s : State) (p : Nat) (f : Core → Core) : (s.modCore p f).steps = s.steps := (rfl)
@[simp] theorem State.modCore_free (s : State) (p : Nat) (f : Core → Core) : (s.modCore p f).free = s.free := (rfl)
@[simp] theorem State.modCore_short (s : State) (p : Nat) (f : Core → Core) : (s.modCore p f).short = s.short := (rfl)

@[simp] theorem State.modCtl_bad (s : State) (p : Nat) (f : Ctl → Ctl) : (s.modCtl p f).bad = s.bad := (rfl)
@[simp] theorem State.modCtl_dieTlb (s : State) (p : Nat) (f : Ctl → Ctl) : (s.modCtl p f).dieTlb = s.dieTlb := (rfl)
@[simp] theorem State.modCtl_walks (s : State) (p : Nat) (f : Ctl → Ctl) : (s.modCtl p f).walks = s.walks := (rfl)
@[simp] theorem State.modCtl_regions (s : State) (p : Nat) (f : Ctl → Ctl) : (s.modCtl p f).regions = s.regions := (rfl)
@[simp] theorem State.modCtl_teams (s : State) (p : Nat) (f : Ctl → Ctl) : (s.modCtl p f).teams = s.teams := (rfl)
@[simp] theorem State.modCtl_areas (s : State) (p : Nat) (f : Ctl → Ctl) : (s.modCtl p f).areas = s.areas := (rfl)
@[simp] theorem State.modCtl_tasks (s : State) (p : Nat) (f : Ctl → Ctl) : (s.modCtl p f).tasks = s.tasks := (rfl)
@[simp] theorem State.modCtl_gens (s : State) (p : Nat) (f : Ctl → Ctl) : (s.modCtl p f).gens = s.gens := (rfl)
@[simp] theorem State.modCtl_order (s : State) (p : Nat) (f : Ctl → Ctl) : (s.modCtl p f).order = s.order := (rfl)
@[simp] theorem State.modCtl_queues (s : State) (p : Nat) (f : Ctl → Ctl) : (s.modCtl p f).queues = s.queues := (rfl)
@[simp] theorem State.modCtl_events (s : State) (p : Nat) (f : Ctl → Ctl) : (s.modCtl p f).events = s.events := (rfl)
@[simp] theorem State.modCtl_homes (s : State) (p : Nat) (f : Ctl → Ctl) : (s.modCtl p f).homes = s.homes := (rfl)
@[simp] theorem State.modCtl_parts (s : State) (p : Nat) (f : Ctl → Ctl) : (s.modCtl p f).parts = s.parts := (rfl)
@[simp] theorem State.modCtl_ports (s : State) (p : Nat) (f : Ctl → Ctl) : (s.modCtl p f).ports = s.ports := (rfl)
@[simp] theorem State.modCtl_arrivals (s : State) (p : Nat) (f : Ctl → Ctl) : (s.modCtl p f).arrivals = s.arrivals := (rfl)
@[simp] theorem State.modCtl_signals (s : State) (p : Nat) (f : Ctl → Ctl) : (s.modCtl p f).signals = s.signals := (rfl)
@[simp] theorem State.modCtl_irqs (s : State) (p : Nat) (f : Ctl → Ctl) : (s.modCtl p f).irqs = s.irqs := (rfl)
@[simp] theorem State.modCtl_calls (s : State) (p : Nat) (f : Ctl → Ctl) : (s.modCtl p f).calls = s.calls := (rfl)
@[simp] theorem State.modCtl_pageAsks (s : State) (p : Nat) (f : Ctl → Ctl) : (s.modCtl p f).pageAsks = s.pageAsks := (rfl)
@[simp] theorem State.modCtl_thresh (s : State) (p : Nat) (f : Ctl → Ctl) : (s.modCtl p f).thresh = s.thresh := (rfl)
@[simp] theorem State.modCtl_dramErr (s : State) (p : Nat) (f : Ctl → Ctl) : (s.modCtl p f).dramErr = s.dramErr := (rfl)
@[simp] theorem State.modCtl_booted (s : State) (p : Nat) (f : Ctl → Ctl) : (s.modCtl p f).booted = s.booted := (rfl)
@[simp] theorem State.modCtl_bootst (s : State) (p : Nat) (f : Ctl → Ctl) : (s.modCtl p f).bootst = s.bootst := (rfl)
@[simp] theorem State.modCtl_rollback (s : State) (p : Nat) (f : Ctl → Ctl) : (s.modCtl p f).rollback = s.rollback := (rfl)
@[simp] theorem State.modCtl_fwDigest (s : State) (p : Nat) (f : Ctl → Ctl) : (s.modCtl p f).fwDigest = s.fwDigest := (rfl)
@[simp] theorem State.modCtl_mailbox (s : State) (p : Nat) (f : Ctl → Ctl) : (s.modCtl p f).mailbox = s.mailbox := (rfl)
@[simp] theorem State.modCtl_clock (s : State) (p : Nat) (f : Ctl → Ctl) : (s.modCtl p f).clock = s.clock := (rfl)
@[simp] theorem State.modCtl_refresh (s : State) (p : Nat) (f : Ctl → Ctl) : (s.modCtl p f).refresh = s.refresh := (rfl)
@[simp] theorem State.modCtl_refreshNo (s : State) (p : Nat) (f : Ctl → Ctl) : (s.modCtl p f).refreshNo = s.refreshNo := (rfl)
@[simp] theorem State.modCtl_agenda (s : State) (p : Nat) (f : Ctl → Ctl) : (s.modCtl p f).agenda = s.agenda := (rfl)
@[simp] theorem State.modCtl_here (s : State) (p : Nat) (f : Ctl → Ctl) : (s.modCtl p f).here = s.here := (rfl)
@[simp] theorem State.modCtl_slot (s : State) (p : Nat) (f : Ctl → Ctl) : (s.modCtl p f).slot = s.slot := (rfl)
@[simp] theorem State.modCtl_steps (s : State) (p : Nat) (f : Ctl → Ctl) : (s.modCtl p f).steps = s.steps := (rfl)
@[simp] theorem State.modCtl_free (s : State) (p : Nat) (f : Ctl → Ctl) : (s.modCtl p f).free = s.free := (rfl)
@[simp] theorem State.modCtl_short (s : State) (p : Nat) (f : Ctl → Ctl) : (s.modCtl p f).short = s.short := (rfl)

@[simp] theorem State.modMe_bad (s : State) (f : Ctl → Ctl) : (s.modMe f).bad = s.bad := (rfl)
@[simp] theorem State.modMe_dieTlb (s : State) (f : Ctl → Ctl) : (s.modMe f).dieTlb = s.dieTlb := (rfl)
@[simp] theorem State.modMe_walks (s : State) (f : Ctl → Ctl) : (s.modMe f).walks = s.walks := (rfl)
@[simp] theorem State.modMe_regions (s : State) (f : Ctl → Ctl) : (s.modMe f).regions = s.regions := (rfl)
@[simp] theorem State.modMe_teams (s : State) (f : Ctl → Ctl) : (s.modMe f).teams = s.teams := (rfl)
@[simp] theorem State.modMe_areas (s : State) (f : Ctl → Ctl) : (s.modMe f).areas = s.areas := (rfl)
@[simp] theorem State.modMe_tasks (s : State) (f : Ctl → Ctl) : (s.modMe f).tasks = s.tasks := (rfl)
@[simp] theorem State.modMe_gens (s : State) (f : Ctl → Ctl) : (s.modMe f).gens = s.gens := (rfl)
@[simp] theorem State.modMe_order (s : State) (f : Ctl → Ctl) : (s.modMe f).order = s.order := (rfl)
@[simp] theorem State.modMe_queues (s : State) (f : Ctl → Ctl) : (s.modMe f).queues = s.queues := (rfl)
@[simp] theorem State.modMe_events (s : State) (f : Ctl → Ctl) : (s.modMe f).events = s.events := (rfl)
@[simp] theorem State.modMe_homes (s : State) (f : Ctl → Ctl) : (s.modMe f).homes = s.homes := (rfl)
@[simp] theorem State.modMe_parts (s : State) (f : Ctl → Ctl) : (s.modMe f).parts = s.parts := (rfl)
@[simp] theorem State.modMe_ports (s : State) (f : Ctl → Ctl) : (s.modMe f).ports = s.ports := (rfl)
@[simp] theorem State.modMe_arrivals (s : State) (f : Ctl → Ctl) : (s.modMe f).arrivals = s.arrivals := (rfl)
@[simp] theorem State.modMe_signals (s : State) (f : Ctl → Ctl) : (s.modMe f).signals = s.signals := (rfl)
@[simp] theorem State.modMe_irqs (s : State) (f : Ctl → Ctl) : (s.modMe f).irqs = s.irqs := (rfl)
@[simp] theorem State.modMe_calls (s : State) (f : Ctl → Ctl) : (s.modMe f).calls = s.calls := (rfl)
@[simp] theorem State.modMe_pageAsks (s : State) (f : Ctl → Ctl) : (s.modMe f).pageAsks = s.pageAsks := (rfl)
@[simp] theorem State.modMe_thresh (s : State) (f : Ctl → Ctl) : (s.modMe f).thresh = s.thresh := (rfl)
@[simp] theorem State.modMe_dramErr (s : State) (f : Ctl → Ctl) : (s.modMe f).dramErr = s.dramErr := (rfl)
@[simp] theorem State.modMe_booted (s : State) (f : Ctl → Ctl) : (s.modMe f).booted = s.booted := (rfl)
@[simp] theorem State.modMe_bootst (s : State) (f : Ctl → Ctl) : (s.modMe f).bootst = s.bootst := (rfl)
@[simp] theorem State.modMe_rollback (s : State) (f : Ctl → Ctl) : (s.modMe f).rollback = s.rollback := (rfl)
@[simp] theorem State.modMe_fwDigest (s : State) (f : Ctl → Ctl) : (s.modMe f).fwDigest = s.fwDigest := (rfl)
@[simp] theorem State.modMe_mailbox (s : State) (f : Ctl → Ctl) : (s.modMe f).mailbox = s.mailbox := (rfl)
@[simp] theorem State.modMe_clock (s : State) (f : Ctl → Ctl) : (s.modMe f).clock = s.clock := (rfl)
@[simp] theorem State.modMe_refresh (s : State) (f : Ctl → Ctl) : (s.modMe f).refresh = s.refresh := (rfl)
@[simp] theorem State.modMe_refreshNo (s : State) (f : Ctl → Ctl) : (s.modMe f).refreshNo = s.refreshNo := (rfl)
@[simp] theorem State.modMe_agenda (s : State) (f : Ctl → Ctl) : (s.modMe f).agenda = s.agenda := (rfl)
@[simp] theorem State.modMe_here (s : State) (f : Ctl → Ctl) : (s.modMe f).here = s.here := (rfl)
@[simp] theorem State.modMe_slot (s : State) (f : Ctl → Ctl) : (s.modMe f).slot = s.slot := (rfl)
@[simp] theorem State.modMe_steps (s : State) (f : Ctl → Ctl) : (s.modMe f).steps = s.steps := (rfl)
@[simp] theorem State.modMe_free (s : State) (f : Ctl → Ctl) : (s.modMe f).free = s.free := (rfl)
@[simp] theorem State.modMe_short (s : State) (f : Ctl → Ctl) : (s.modMe f).short = s.short := (rfl)

@[simp] theorem State.result_bad (s : State) (d : Reg) (v : BitVec 64) : (s.result d v).bad = s.bad := (rfl)
@[simp] theorem State.result_dieTlb (s : State) (d : Reg) (v : BitVec 64) : (s.result d v).dieTlb = s.dieTlb := (rfl)
@[simp] theorem State.result_walks (s : State) (d : Reg) (v : BitVec 64) : (s.result d v).walks = s.walks := (rfl)
@[simp] theorem State.result_regions (s : State) (d : Reg) (v : BitVec 64) : (s.result d v).regions = s.regions := (rfl)
@[simp] theorem State.result_teams (s : State) (d : Reg) (v : BitVec 64) : (s.result d v).teams = s.teams := (rfl)
@[simp] theorem State.result_areas (s : State) (d : Reg) (v : BitVec 64) : (s.result d v).areas = s.areas := (rfl)
@[simp] theorem State.result_tasks (s : State) (d : Reg) (v : BitVec 64) : (s.result d v).tasks = s.tasks := (rfl)
@[simp] theorem State.result_gens (s : State) (d : Reg) (v : BitVec 64) : (s.result d v).gens = s.gens := (rfl)
@[simp] theorem State.result_order (s : State) (d : Reg) (v : BitVec 64) : (s.result d v).order = s.order := (rfl)
@[simp] theorem State.result_queues (s : State) (d : Reg) (v : BitVec 64) : (s.result d v).queues = s.queues := (rfl)
@[simp] theorem State.result_events (s : State) (d : Reg) (v : BitVec 64) : (s.result d v).events = s.events := (rfl)
@[simp] theorem State.result_homes (s : State) (d : Reg) (v : BitVec 64) : (s.result d v).homes = s.homes := (rfl)
@[simp] theorem State.result_parts (s : State) (d : Reg) (v : BitVec 64) : (s.result d v).parts = s.parts := (rfl)
@[simp] theorem State.result_ports (s : State) (d : Reg) (v : BitVec 64) : (s.result d v).ports = s.ports := (rfl)
@[simp] theorem State.result_arrivals (s : State) (d : Reg) (v : BitVec 64) : (s.result d v).arrivals = s.arrivals := (rfl)
@[simp] theorem State.result_signals (s : State) (d : Reg) (v : BitVec 64) : (s.result d v).signals = s.signals := (rfl)
@[simp] theorem State.result_irqs (s : State) (d : Reg) (v : BitVec 64) : (s.result d v).irqs = s.irqs := (rfl)
@[simp] theorem State.result_calls (s : State) (d : Reg) (v : BitVec 64) : (s.result d v).calls = s.calls := (rfl)
@[simp] theorem State.result_pageAsks (s : State) (d : Reg) (v : BitVec 64) : (s.result d v).pageAsks = s.pageAsks := (rfl)
@[simp] theorem State.result_thresh (s : State) (d : Reg) (v : BitVec 64) : (s.result d v).thresh = s.thresh := (rfl)
@[simp] theorem State.result_dramErr (s : State) (d : Reg) (v : BitVec 64) : (s.result d v).dramErr = s.dramErr := (rfl)
@[simp] theorem State.result_booted (s : State) (d : Reg) (v : BitVec 64) : (s.result d v).booted = s.booted := (rfl)
@[simp] theorem State.result_bootst (s : State) (d : Reg) (v : BitVec 64) : (s.result d v).bootst = s.bootst := (rfl)
@[simp] theorem State.result_rollback (s : State) (d : Reg) (v : BitVec 64) : (s.result d v).rollback = s.rollback := (rfl)
@[simp] theorem State.result_fwDigest (s : State) (d : Reg) (v : BitVec 64) : (s.result d v).fwDigest = s.fwDigest := (rfl)
@[simp] theorem State.result_mailbox (s : State) (d : Reg) (v : BitVec 64) : (s.result d v).mailbox = s.mailbox := (rfl)
@[simp] theorem State.result_clock (s : State) (d : Reg) (v : BitVec 64) : (s.result d v).clock = s.clock := (rfl)
@[simp] theorem State.result_refresh (s : State) (d : Reg) (v : BitVec 64) : (s.result d v).refresh = s.refresh := (rfl)
@[simp] theorem State.result_refreshNo (s : State) (d : Reg) (v : BitVec 64) : (s.result d v).refreshNo = s.refreshNo := (rfl)
@[simp] theorem State.result_agenda (s : State) (d : Reg) (v : BitVec 64) : (s.result d v).agenda = s.agenda := (rfl)
@[simp] theorem State.result_here (s : State) (d : Reg) (v : BitVec 64) : (s.result d v).here = s.here := (rfl)
@[simp] theorem State.result_slot (s : State) (d : Reg) (v : BitVec 64) : (s.result d v).slot = s.slot := (rfl)
@[simp] theorem State.result_steps (s : State) (d : Reg) (v : BitVec 64) : (s.result d v).steps = s.steps := (rfl)
@[simp] theorem State.result_free (s : State) (d : Reg) (v : BitVec 64) : (s.result d v).free = s.free := (rfl)
@[simp] theorem State.result_short (s : State) (d : Reg) (v : BitVec 64) : (s.result d v).short = s.short := (rfl)

@[simp] theorem State.retire_bad (s : State) : (s.retire).bad = s.bad := (rfl)
@[simp] theorem State.retire_dieTlb (s : State) : (s.retire).dieTlb = s.dieTlb := (rfl)
@[simp] theorem State.retire_walks (s : State) : (s.retire).walks = s.walks := (rfl)
@[simp] theorem State.retire_regions (s : State) : (s.retire).regions = s.regions := (rfl)
@[simp] theorem State.retire_teams (s : State) : (s.retire).teams = s.teams := (rfl)
@[simp] theorem State.retire_areas (s : State) : (s.retire).areas = s.areas := (rfl)
@[simp] theorem State.retire_tasks (s : State) : (s.retire).tasks = s.tasks := (rfl)
@[simp] theorem State.retire_gens (s : State) : (s.retire).gens = s.gens := (rfl)
@[simp] theorem State.retire_order (s : State) : (s.retire).order = s.order := (rfl)
@[simp] theorem State.retire_queues (s : State) : (s.retire).queues = s.queues := (rfl)
@[simp] theorem State.retire_events (s : State) : (s.retire).events = s.events := (rfl)
@[simp] theorem State.retire_homes (s : State) : (s.retire).homes = s.homes := (rfl)
@[simp] theorem State.retire_parts (s : State) : (s.retire).parts = s.parts := (rfl)
@[simp] theorem State.retire_ports (s : State) : (s.retire).ports = s.ports := (rfl)
@[simp] theorem State.retire_arrivals (s : State) : (s.retire).arrivals = s.arrivals := (rfl)
@[simp] theorem State.retire_signals (s : State) : (s.retire).signals = s.signals := (rfl)
@[simp] theorem State.retire_irqs (s : State) : (s.retire).irqs = s.irqs := (rfl)
@[simp] theorem State.retire_calls (s : State) : (s.retire).calls = s.calls := (rfl)
@[simp] theorem State.retire_pageAsks (s : State) : (s.retire).pageAsks = s.pageAsks := (rfl)
@[simp] theorem State.retire_thresh (s : State) : (s.retire).thresh = s.thresh := (rfl)
@[simp] theorem State.retire_dramErr (s : State) : (s.retire).dramErr = s.dramErr := (rfl)
@[simp] theorem State.retire_booted (s : State) : (s.retire).booted = s.booted := (rfl)
@[simp] theorem State.retire_bootst (s : State) : (s.retire).bootst = s.bootst := (rfl)
@[simp] theorem State.retire_rollback (s : State) : (s.retire).rollback = s.rollback := (rfl)
@[simp] theorem State.retire_fwDigest (s : State) : (s.retire).fwDigest = s.fwDigest := (rfl)
@[simp] theorem State.retire_mailbox (s : State) : (s.retire).mailbox = s.mailbox := (rfl)
@[simp] theorem State.retire_clock (s : State) : (s.retire).clock = s.clock := (rfl)
@[simp] theorem State.retire_refresh (s : State) : (s.retire).refresh = s.refresh := (rfl)
@[simp] theorem State.retire_refreshNo (s : State) : (s.retire).refreshNo = s.refreshNo := (rfl)
@[simp] theorem State.retire_agenda (s : State) : (s.retire).agenda = s.agenda := (rfl)
@[simp] theorem State.retire_here (s : State) : (s.retire).here = s.here := (rfl)
@[simp] theorem State.retire_slot (s : State) : (s.retire).slot = s.slot := (rfl)
@[simp] theorem State.retire_steps (s : State) : (s.retire).steps = s.steps := (rfl)
@[simp] theorem State.retire_free (s : State) : (s.retire).free = s.free := (rfl)
@[simp] theorem State.retire_short (s : State) : (s.retire).short = s.short := (rfl)

@[simp] theorem State.acquire_bad (s : State) : (s.acquire).bad = s.bad := (rfl)
@[simp] theorem State.acquire_dieTlb (s : State) : (s.acquire).dieTlb = s.dieTlb := (rfl)
@[simp] theorem State.acquire_walks (s : State) : (s.acquire).walks = s.walks := (rfl)
@[simp] theorem State.acquire_regions (s : State) : (s.acquire).regions = s.regions := (rfl)
@[simp] theorem State.acquire_teams (s : State) : (s.acquire).teams = s.teams := (rfl)
@[simp] theorem State.acquire_areas (s : State) : (s.acquire).areas = s.areas := (rfl)
@[simp] theorem State.acquire_tasks (s : State) : (s.acquire).tasks = s.tasks := (rfl)
@[simp] theorem State.acquire_gens (s : State) : (s.acquire).gens = s.gens := (rfl)
@[simp] theorem State.acquire_order (s : State) : (s.acquire).order = s.order := (rfl)
@[simp] theorem State.acquire_queues (s : State) : (s.acquire).queues = s.queues := (rfl)
@[simp] theorem State.acquire_events (s : State) : (s.acquire).events = s.events := (rfl)
@[simp] theorem State.acquire_homes (s : State) : (s.acquire).homes = s.homes := (rfl)
@[simp] theorem State.acquire_parts (s : State) : (s.acquire).parts = s.parts := (rfl)
@[simp] theorem State.acquire_ports (s : State) : (s.acquire).ports = s.ports := (rfl)
@[simp] theorem State.acquire_arrivals (s : State) : (s.acquire).arrivals = s.arrivals := (rfl)
@[simp] theorem State.acquire_signals (s : State) : (s.acquire).signals = s.signals := (rfl)
@[simp] theorem State.acquire_irqs (s : State) : (s.acquire).irqs = s.irqs := (rfl)
@[simp] theorem State.acquire_calls (s : State) : (s.acquire).calls = s.calls := (rfl)
@[simp] theorem State.acquire_pageAsks (s : State) : (s.acquire).pageAsks = s.pageAsks := (rfl)
@[simp] theorem State.acquire_thresh (s : State) : (s.acquire).thresh = s.thresh := (rfl)
@[simp] theorem State.acquire_dramErr (s : State) : (s.acquire).dramErr = s.dramErr := (rfl)
@[simp] theorem State.acquire_booted (s : State) : (s.acquire).booted = s.booted := (rfl)
@[simp] theorem State.acquire_bootst (s : State) : (s.acquire).bootst = s.bootst := (rfl)
@[simp] theorem State.acquire_rollback (s : State) : (s.acquire).rollback = s.rollback := (rfl)
@[simp] theorem State.acquire_fwDigest (s : State) : (s.acquire).fwDigest = s.fwDigest := (rfl)
@[simp] theorem State.acquire_mailbox (s : State) : (s.acquire).mailbox = s.mailbox := (rfl)
@[simp] theorem State.acquire_clock (s : State) : (s.acquire).clock = s.clock := (rfl)
@[simp] theorem State.acquire_refresh (s : State) : (s.acquire).refresh = s.refresh := (rfl)
@[simp] theorem State.acquire_refreshNo (s : State) : (s.acquire).refreshNo = s.refreshNo := (rfl)
@[simp] theorem State.acquire_agenda (s : State) : (s.acquire).agenda = s.agenda := (rfl)
@[simp] theorem State.acquire_here (s : State) : (s.acquire).here = s.here := (rfl)
@[simp] theorem State.acquire_slot (s : State) : (s.acquire).slot = s.slot := (rfl)
@[simp] theorem State.acquire_steps (s : State) : (s.acquire).steps = s.steps := (rfl)
@[simp] theorem State.acquire_free (s : State) : (s.acquire).free = s.free := (rfl)
@[simp] theorem State.acquire_short (s : State) : (s.acquire).short = s.short := (rfl)

/-! ### The fields of a controller -/

@[simp] theorem Ctl.done_regs (c : Ctl) : (c.done).regs = c.regs := (rfl)
@[simp] theorem Ctl.done_cr (c : Ctl) : (c.done).cr = c.cr := (rfl)
@[simp] theorem Ctl.done_fw (c : Ctl) : (c.done).fw = c.fw := (rfl)
@[simp] theorem Ctl.done_fwPrev (c : Ctl) : (c.done).fwPrev = c.fwPrev := (rfl)
@[simp] theorem Ctl.done_trb (c : Ctl) : (c.done).trb = c.trb := (rfl)
@[simp] theorem Ctl.done_inboxLost (c : Ctl) : (c.done).inboxLost = c.inboxLost := (rfl)
@[simp] theorem Ctl.done_psel (c : Ctl) : (c.done).psel = c.psel := (rfl)
@[simp] theorem Ctl.done_tvec (c : Ctl) : (c.done).tvec = c.tvec := (rfl)
@[simp] theorem Ctl.done_trapCause (c : Ctl) : (c.done).trapCause = c.trapCause := (rfl)
@[simp] theorem Ctl.done_trapIp (c : Ctl) : (c.done).trapIp = c.trapIp := (rfl)
@[simp] theorem Ctl.done_trapVal (c : Ctl) : (c.done).trapVal = c.trapVal := (rfl)
@[simp] theorem Ctl.done_tscratch (c : Ctl) : (c.done).tscratch = c.tscratch := (rfl)
@[simp] theorem Ctl.done_wdog (c : Ctl) : (c.done).wdog = c.wdog := (rfl)
@[simp] theorem Ctl.done_start (c : Ctl) : (c.done).start = c.start := (rfl)
@[simp] theorem Ctl.done_inbox (c : Ctl) : (c.done).inbox = c.inbox := (rfl)
@[simp] theorem Ctl.done_outbox (c : Ctl) : (c.done).outbox = c.outbox := (rfl)
@[simp] theorem Ctl.done_bars (c : Ctl) : (c.done).bars = c.bars := (rfl)
@[simp] theorem Ctl.done_run (c : Ctl) : (c.done).run = c.run := (rfl)
@[simp] theorem Ctl.done_pend (c : Ctl) : (c.done).pend = c.pend := (rfl)
@[simp] theorem Ctl.done_kept (c : Ctl) : (c.done).kept = c.kept := (rfl)
@[simp] theorem Ctl.done_shadow (c : Ctl) : (c.done).shadow = c.shadow := (rfl)
@[simp] theorem Ctl.done_preempt (c : Ctl) : (c.done).preempt = c.preempt := (rfl)
@[simp] theorem Ctl.done_dcache (c : Ctl) : (c.done).dcache = c.dcache := (rfl)
@[simp] theorem Ctl.done_icache (c : Ctl) : (c.done).icache = c.icache := (rfl)

@[simp] theorem Ctl.goto_regs (c : Ctl) (t : BitVec 64) : (c.goto t).regs = c.regs := (rfl)
@[simp] theorem Ctl.goto_cr (c : Ctl) (t : BitVec 64) : (c.goto t).cr = c.cr := (rfl)
@[simp] theorem Ctl.goto_fw (c : Ctl) (t : BitVec 64) : (c.goto t).fw = c.fw := (rfl)
@[simp] theorem Ctl.goto_fwPrev (c : Ctl) (t : BitVec 64) : (c.goto t).fwPrev = c.fwPrev := (rfl)
@[simp] theorem Ctl.goto_trb (c : Ctl) (t : BitVec 64) : (c.goto t).trb = c.trb := (rfl)
@[simp] theorem Ctl.goto_inboxLost (c : Ctl) (t : BitVec 64) : (c.goto t).inboxLost = c.inboxLost := (rfl)
@[simp] theorem Ctl.goto_psel (c : Ctl) (t : BitVec 64) : (c.goto t).psel = c.psel := (rfl)
@[simp] theorem Ctl.goto_tvec (c : Ctl) (t : BitVec 64) : (c.goto t).tvec = c.tvec := (rfl)
@[simp] theorem Ctl.goto_trapCause (c : Ctl) (t : BitVec 64) : (c.goto t).trapCause = c.trapCause := (rfl)
@[simp] theorem Ctl.goto_trapIp (c : Ctl) (t : BitVec 64) : (c.goto t).trapIp = c.trapIp := (rfl)
@[simp] theorem Ctl.goto_trapVal (c : Ctl) (t : BitVec 64) : (c.goto t).trapVal = c.trapVal := (rfl)
@[simp] theorem Ctl.goto_tscratch (c : Ctl) (t : BitVec 64) : (c.goto t).tscratch = c.tscratch := (rfl)
@[simp] theorem Ctl.goto_wdog (c : Ctl) (t : BitVec 64) : (c.goto t).wdog = c.wdog := (rfl)
@[simp] theorem Ctl.goto_start (c : Ctl) (t : BitVec 64) : (c.goto t).start = c.start := (rfl)
@[simp] theorem Ctl.goto_inbox (c : Ctl) (t : BitVec 64) : (c.goto t).inbox = c.inbox := (rfl)
@[simp] theorem Ctl.goto_outbox (c : Ctl) (t : BitVec 64) : (c.goto t).outbox = c.outbox := (rfl)
@[simp] theorem Ctl.goto_bars (c : Ctl) (t : BitVec 64) : (c.goto t).bars = c.bars := (rfl)
@[simp] theorem Ctl.goto_run (c : Ctl) (t : BitVec 64) : (c.goto t).run = c.run := (rfl)
@[simp] theorem Ctl.goto_pend (c : Ctl) (t : BitVec 64) : (c.goto t).pend = c.pend := (rfl)
@[simp] theorem Ctl.goto_kept (c : Ctl) (t : BitVec 64) : (c.goto t).kept = c.kept := (rfl)
@[simp] theorem Ctl.goto_shadow (c : Ctl) (t : BitVec 64) : (c.goto t).shadow = c.shadow := (rfl)
@[simp] theorem Ctl.goto_preempt (c : Ctl) (t : BitVec 64) : (c.goto t).preempt = c.preempt := (rfl)
@[simp] theorem Ctl.goto_dcache (c : Ctl) (t : BitVec 64) : (c.goto t).dcache = c.dcache := (rfl)
@[simp] theorem Ctl.goto_icache (c : Ctl) (t : BitVec 64) : (c.goto t).icache = c.icache := (rfl)

@[simp] theorem Ctl.put_ip (c : Ctl) (d : Reg) (v : BitVec 64) : (c.put d v).ip = c.ip := by unfold Ctl.put; split <;> rfl
@[simp] theorem Ctl.put_cr (c : Ctl) (d : Reg) (v : BitVec 64) : (c.put d v).cr = c.cr := by unfold Ctl.put; split <;> rfl
@[simp] theorem Ctl.put_fw (c : Ctl) (d : Reg) (v : BitVec 64) : (c.put d v).fw = c.fw := by unfold Ctl.put; split <;> rfl
@[simp] theorem Ctl.put_fwPrev (c : Ctl) (d : Reg) (v : BitVec 64) : (c.put d v).fwPrev = c.fwPrev := by unfold Ctl.put; split <;> rfl
@[simp] theorem Ctl.put_trb (c : Ctl) (d : Reg) (v : BitVec 64) : (c.put d v).trb = c.trb := by unfold Ctl.put; split <;> rfl
@[simp] theorem Ctl.put_inboxLost (c : Ctl) (d : Reg) (v : BitVec 64) : (c.put d v).inboxLost = c.inboxLost := by unfold Ctl.put; split <;> rfl
@[simp] theorem Ctl.put_psel (c : Ctl) (d : Reg) (v : BitVec 64) : (c.put d v).psel = c.psel := by unfold Ctl.put; split <;> rfl
@[simp] theorem Ctl.put_tvec (c : Ctl) (d : Reg) (v : BitVec 64) : (c.put d v).tvec = c.tvec := by unfold Ctl.put; split <;> rfl
@[simp] theorem Ctl.put_trapCause (c : Ctl) (d : Reg) (v : BitVec 64) : (c.put d v).trapCause = c.trapCause := by unfold Ctl.put; split <;> rfl
@[simp] theorem Ctl.put_trapIp (c : Ctl) (d : Reg) (v : BitVec 64) : (c.put d v).trapIp = c.trapIp := by unfold Ctl.put; split <;> rfl
@[simp] theorem Ctl.put_trapVal (c : Ctl) (d : Reg) (v : BitVec 64) : (c.put d v).trapVal = c.trapVal := by unfold Ctl.put; split <;> rfl
@[simp] theorem Ctl.put_tscratch (c : Ctl) (d : Reg) (v : BitVec 64) : (c.put d v).tscratch = c.tscratch := by unfold Ctl.put; split <;> rfl
@[simp] theorem Ctl.put_wdog (c : Ctl) (d : Reg) (v : BitVec 64) : (c.put d v).wdog = c.wdog := by unfold Ctl.put; split <;> rfl
@[simp] theorem Ctl.put_instret (c : Ctl) (d : Reg) (v : BitVec 64) : (c.put d v).instret = c.instret := by unfold Ctl.put; split <;> rfl
@[simp] theorem Ctl.put_start (c : Ctl) (d : Reg) (v : BitVec 64) : (c.put d v).start = c.start := by unfold Ctl.put; split <;> rfl
@[simp] theorem Ctl.put_inbox (c : Ctl) (d : Reg) (v : BitVec 64) : (c.put d v).inbox = c.inbox := by unfold Ctl.put; split <;> rfl
@[simp] theorem Ctl.put_outbox (c : Ctl) (d : Reg) (v : BitVec 64) : (c.put d v).outbox = c.outbox := by unfold Ctl.put; split <;> rfl
@[simp] theorem Ctl.put_bars (c : Ctl) (d : Reg) (v : BitVec 64) : (c.put d v).bars = c.bars := by unfold Ctl.put; split <;> rfl
@[simp] theorem Ctl.put_run (c : Ctl) (d : Reg) (v : BitVec 64) : (c.put d v).run = c.run := by unfold Ctl.put; split <;> rfl
@[simp] theorem Ctl.put_pend (c : Ctl) (d : Reg) (v : BitVec 64) : (c.put d v).pend = c.pend := by unfold Ctl.put; split <;> rfl
@[simp] theorem Ctl.put_kept (c : Ctl) (d : Reg) (v : BitVec 64) : (c.put d v).kept = c.kept := by unfold Ctl.put; split <;> rfl
@[simp] theorem Ctl.put_shadow (c : Ctl) (d : Reg) (v : BitVec 64) : (c.put d v).shadow = c.shadow := by unfold Ctl.put; split <;> rfl
@[simp] theorem Ctl.put_preempt (c : Ctl) (d : Reg) (v : BitVec 64) : (c.put d v).preempt = c.preempt := by unfold Ctl.put; split <;> rfl
@[simp] theorem Ctl.put_dcache (c : Ctl) (d : Reg) (v : BitVec 64) : (c.put d v).dcache = c.dcache := by unfold Ctl.put; split <;> rfl
@[simp] theorem Ctl.put_icache (c : Ctl) (d : Reg) (v : BitVec 64) : (c.put d v).icache = c.icache := by unfold Ctl.put; split <;> rfl

@[simp] theorem Ctl.result_cr (c : Ctl) (d : Reg) (v : BitVec 64) : (c.result d v).cr = c.cr := by simp [Ctl.result]
@[simp] theorem Ctl.result_fw (c : Ctl) (d : Reg) (v : BitVec 64) : (c.result d v).fw = c.fw := by simp [Ctl.result]
@[simp] theorem Ctl.result_fwPrev (c : Ctl) (d : Reg) (v : BitVec 64) : (c.result d v).fwPrev = c.fwPrev := by simp [Ctl.result]
@[simp] theorem Ctl.result_trb (c : Ctl) (d : Reg) (v : BitVec 64) : (c.result d v).trb = c.trb := by simp [Ctl.result]
@[simp] theorem Ctl.result_inboxLost (c : Ctl) (d : Reg) (v : BitVec 64) : (c.result d v).inboxLost = c.inboxLost := by simp [Ctl.result]
@[simp] theorem Ctl.result_psel (c : Ctl) (d : Reg) (v : BitVec 64) : (c.result d v).psel = c.psel := by simp [Ctl.result]
@[simp] theorem Ctl.result_tvec (c : Ctl) (d : Reg) (v : BitVec 64) : (c.result d v).tvec = c.tvec := by simp [Ctl.result]
@[simp] theorem Ctl.result_trapCause (c : Ctl) (d : Reg) (v : BitVec 64) : (c.result d v).trapCause = c.trapCause := by simp [Ctl.result]
@[simp] theorem Ctl.result_trapIp (c : Ctl) (d : Reg) (v : BitVec 64) : (c.result d v).trapIp = c.trapIp := by simp [Ctl.result]
@[simp] theorem Ctl.result_trapVal (c : Ctl) (d : Reg) (v : BitVec 64) : (c.result d v).trapVal = c.trapVal := by simp [Ctl.result]
@[simp] theorem Ctl.result_tscratch (c : Ctl) (d : Reg) (v : BitVec 64) : (c.result d v).tscratch = c.tscratch := by simp [Ctl.result]
@[simp] theorem Ctl.result_wdog (c : Ctl) (d : Reg) (v : BitVec 64) : (c.result d v).wdog = c.wdog := by simp [Ctl.result]
@[simp] theorem Ctl.result_start (c : Ctl) (d : Reg) (v : BitVec 64) : (c.result d v).start = c.start := by simp [Ctl.result]
@[simp] theorem Ctl.result_inbox (c : Ctl) (d : Reg) (v : BitVec 64) : (c.result d v).inbox = c.inbox := by simp [Ctl.result]
@[simp] theorem Ctl.result_outbox (c : Ctl) (d : Reg) (v : BitVec 64) : (c.result d v).outbox = c.outbox := by simp [Ctl.result]
@[simp] theorem Ctl.result_bars (c : Ctl) (d : Reg) (v : BitVec 64) : (c.result d v).bars = c.bars := by simp [Ctl.result]
@[simp] theorem Ctl.result_run (c : Ctl) (d : Reg) (v : BitVec 64) : (c.result d v).run = c.run := by simp [Ctl.result]
@[simp] theorem Ctl.result_pend (c : Ctl) (d : Reg) (v : BitVec 64) : (c.result d v).pend = c.pend := by simp [Ctl.result]
@[simp] theorem Ctl.result_kept (c : Ctl) (d : Reg) (v : BitVec 64) : (c.result d v).kept = c.kept := by simp [Ctl.result]
@[simp] theorem Ctl.result_shadow (c : Ctl) (d : Reg) (v : BitVec 64) : (c.result d v).shadow = c.shadow := by simp [Ctl.result]
@[simp] theorem Ctl.result_preempt (c : Ctl) (d : Reg) (v : BitVec 64) : (c.result d v).preempt = c.preempt := by simp [Ctl.result]
@[simp] theorem Ctl.result_dcache (c : Ctl) (d : Reg) (v : BitVec 64) : (c.result d v).dcache = c.dcache := by simp [Ctl.result]
@[simp] theorem Ctl.result_icache (c : Ctl) (d : Reg) (v : BitVec 64) : (c.result d v).icache = c.icache := by simp [Ctl.result]

@[simp] theorem Ctl.done_ip (c : Ctl) : c.done.ip = c.ip + 4 := (rfl)
@[simp] theorem Ctl.done_instret (c : Ctl) : c.done.instret = c.instret + 1 := (rfl)
@[simp] theorem Ctl.goto_ip (c : Ctl) (t : BitVec 64) : (c.goto t).ip = t := (rfl)
@[simp] theorem Ctl.goto_instret (c : Ctl) (t : BitVec 64) : (c.goto t).instret = c.instret + 1 := (rfl)
@[simp] theorem Ctl.result_ip (c : Ctl) (d : Reg) (v : BitVec 64) : (c.result d v).ip = c.ip + 4 := by simp [Ctl.result]
@[simp] theorem Ctl.result_instret (c : Ctl) (d : Reg) (v : BitVec 64) : (c.result d v).instret = c.instret + 1 := by simp [Ctl.result]

/-! ### Registers -/

@[simp] theorem Ctl.get_zero (c : Ctl) : c.get 0 = 0 := by simp [Ctl.get]

/-- A register after one is written; s0 stays zero (R205). -/
theorem Ctl.get_put (c : Ctl) (d r : Reg) (v : BitVec 64) :
    (c.put d v).get r = if r = d ∧ d ≠ 0 then v else c.get r := by
  by_cases hd : d = 0
  · simp [hd, Ctl.put]
  · rw [Ctl.put, if_neg hd]
    unfold Ctl.get
    by_cases hr : r = d
    · subst hr; rw [if_neg hd, if_pos ⟨rfl, hd⟩]; simp
    · have hn : d.toNat ≠ r.toNat := fun h => hr (BitVec.eq_of_toNat_eq h.symm)
      rw [if_neg (c := r = d ∧ d ≠ 0) (fun h => hr h.1)]
      split
      · rfl
      · exact Vector.getElem_set_ne d.isLt r.isLt hn

/-- A raw register after another is written. -/
theorem Ctl.regs_put_ne (c : Ctl) {d r : Reg} (v : BitVec 64) (h : r ≠ d) : (c.put d v).regs[r.toNat] = c.regs[r.toNat] := by
  unfold Ctl.put
  split
  · rfl
  · have hn : d.toNat ≠ r.toNat := fun e => h (BitVec.eq_of_toNat_eq e.symm)
    simp [Vector.getElem_set_ne _ _ hn]

@[simp] theorem Ctl.get_done (c : Ctl) (r : Reg) : c.done.get r = c.get r := (rfl)
@[simp] theorem Ctl.get_goto (c : Ctl) (t : BitVec 64) (r : Reg) : (c.goto t).get r = c.get r := (rfl)

/-- A register after an instruction that writes one. -/
theorem State.reg_result (s : State) (d r : Reg) (v : BitVec 64) :
    (s.result d v).reg r = if r = d ∧ d ≠ 0 then v else s.reg r := by
  unfold State.result State.reg
  rw [State.me_modMe]
  exact Ctl.get_put _ _ _ _

/-- An update of the controller whose turn it is changes the table of cores alone. -/
theorem State.modMe_eq (s : State) (f : Ctl → Ctl) : s.modMe f = { s with cores := (s.modMe f).cores } := (rfl)

end Sys2Proof.Machine
end

