-- ==== Sys2Proof/Laws/Fabric.lean ====
section
/-!
SUPPORT. What the firing of a node can do (R119–R121, R129, R130): nothing while it is not ready, the end of its instant once it
is; what consuming an input and emitting a status leave.
-/

namespace Sys2Proof.Machine

open Claim

/-- A ready node: what fireSlow does. -/
theorem fireSlow_ready {op : Nat} {r : NodeRec} {s : State} {n : Node} {i : Ins} (h : Ready op r s n i) (always : Bool)
    (f : State → Node → Ins → State × Option React) (hq : i.quiet = false ∨ always = true) :
    s.fireSlow op r always f = match f s n i with
      | (z, none) => z
      | (z, some q) => z.settle s.here s.slot n q ((!i.quiet || (s.input s.here s.slot n 3).present) || q.x.isSome || q.y.isSome) := by
  obtain ⟨h1, h2, hb, h3, h4, rfl⟩ := h
  have k0 := h4 0 (by decide)
  have k1 := h4 1 (by decide)
  have k2 := h4 2 (by decide)
  have k3 := h4 3 (by decide)
  unfold State.fireSlow
  simp only [h1, h2, hb, h3, k0, k1, k2, k3]
  generalize State.input s s.here s.slot n 3 = e
  rcases hq with hq | hq <;> simp only [hq, Bool.not_false, Bool.not_true, Bool.and_true, Bool.false_and, Bool.and_false, Bool.or_self, Bool.false_eq_true, if_false]
  all_goals
    generalize f s n _ = w
    obtain ⟨z, _ | q⟩ := w <;> rfl

/-- A ready node that reacts to a present input ends its instant. -/
theorem fireWith_ready {op : Nat} {r : NodeRec} {s z : State} {n : Node} {i : Ins} {q : React} (h : Ready op r s n i) (always : Bool)
    {f : State → Node → Ins → Option (State × React)} (hq : i.quiet = false) (hf : f s n i = some (z, q)) :
    s.fireWith op r always f = z.settle s.here s.slot n q true := by
  unfold State.fireWith
  rw [fireSlow_ready h always _ (.inl hq)]
  simp [hf, hq]

/-- A ready node whose reaction concerns only itself. -/
theorem firePure_ready {op : Nat} {r : NodeRec} {s : State} {n : Node} {i : Ins} (h : Ready op r s n i) (f : Node → Ins → React)
    (hq : i.quiet = false) : s.firePure op r f = s.settle s.here s.slot n (f n i) true :=
  fireWith_ready h false hq rfl

/-- A ready node with every input absent emits absence (R121). -/
theorem fireSlow_quiet {op : Nat} {r : NodeRec} {s : State} {n : Node} {i : Ins} (h : Ready op r s n i)
    (f : State → Node → Ins → State × Option React) (hq : i.quiet = true) :
    s.fireSlow op r false f = s.settle s.here s.slot n (quietReact n) (s.input s.here s.slot n 3).present := by
  obtain ⟨h1, h2, hb, h3, h4, rfl⟩ := h
  have k0 := h4 0 (by decide)
  have k1 := h4 1 (by decide)
  have k2 := h4 2 (by decide)
  have k3 := h4 3 (by decide)
  unfold State.fireSlow
  simp [h1, h2, hb, h3, k0, k1, k2, k3, hq]

/-- No node of an opcode and a record may react on a state of its own that is uncorrectable. -/
def Unbroken (op : Nat) (r : NodeRec) (s : State) : Prop := ∀ n, s.nodeHere op r = some n → s.mayFire s.here n = true → n.broken = false

/-- A node that would read a state of its own that is uncorrectable stops its domain instead (R353, R356). -/
theorem fireSlow_broken {op : Nat} {r : NodeRec} {s : State} {n : Node} (always : Bool) (f : State → Node → Ins → State × Option React)
    (h1 : s.nodeHere op r = some n) (h2 : s.mayFire s.here n = true) (hb : n.broken = true) :
    s.fireSlow op r always f = s.nodeLost s.here s.slot n := by
  unfold State.fireSlow
  simp [h1, h2, hb]

/-- A node that is not ready changes nothing (R120, R125, R129). -/
theorem fireSlow_waits {op : Nat} {r : NodeRec} {s : State} (always : Bool) (f : State → Node → Ins → State × Option React)
    (h : ∀ n i, ¬Ready op r s n i) (hb : Unbroken op r s) : s.fireSlow op r always f = s := by
  unfold State.fireSlow
  cases hn : s.nodeHere op r with
  | none => rfl
  | some n =>
    simp only
    split
    · rfl
    · rename_i h1
      simp at h1
      have hb := hb n hn h1
      simp only [hb, Bool.false_eq_true, if_false]
      split
      · rfl
      · rename_i h2
        simp at h2
        exfalso
        refine h n _ ⟨hn, h1, hb, h2.2, ?_, rfl⟩
        intro k hk
        obtain ⟨⟨⟨⟨a, b⟩, c⟩, d⟩, _⟩ := h2
        match k, hk with
        | 0, _ => exact a
        | 1, _ => exact b
        | 2, _ => exact c
        | 3, _ => exact d

/-- The same of a node that ends its instant in one turn. -/
theorem fireWith_waits {op : Nat} {r : NodeRec} {s : State} (always : Bool) (f : State → Node → Ins → Option (State × React))
    (h : ∀ n i, ¬Ready op r s n i) (hb : Unbroken op r s) : s.fireWith op r always f = s := fireSlow_waits always _ h hb

/-- The same of a node whose reaction concerns only itself. -/
theorem firePure_waits {op : Nat} {r : NodeRec} {s : State} (f : Node → Ins → React) (h : ∀ n i, ¬Ready op r s n i)
    (hb : Unbroken op r s) : s.firePure op r f = s := fireWith_waits false _ h hb

/-- Absence, of a node that ends its instant in one turn (R121). -/
theorem fireWith_quiet {op : Nat} {r : NodeRec} {s : State} {n : Node} {i : Ins} (h : Ready op r s n i)
    (f : State → Node → Ins → Option (State × React)) (hq : i.quiet = true) :
    s.fireWith op r false f = s.settle s.here s.slot n (quietReact n) (s.input s.here s.slot n 3).present :=
  fireSlow_quiet h _ hq

/-- Absence, of a node whose reaction concerns only itself (R121). -/
theorem firePure_quiet {op : Nat} {r : NodeRec} {s : State} {n : Node} {i : Ins} (h : Ready op r s n i) (f : Node → Ins → React)
    (hq : i.quiet = true) :
    s.firePure op r f = s.settle s.here s.slot n (quietReact n) (s.input s.here s.slot n 3).present :=
  fireWith_quiet h _ hq

/-- The node whose turn it is has the opcode and the record that its instruction carries. -/
theorem ready_node {op : Nat} {r : NodeRec} {s : State} {n : Node} {i : Ins} (h : Ready op r s n i) : n.op = op ∧ n.rcd = r := by
  obtain ⟨h, -⟩ := h
  unfold State.nodeHere at h
  cases hn : (s.coreAt s.here).node s.slot with
  | none => simp [hn] at h
  | some m => simp [hn] at h; subst h; exact ⟨rfl, rfl⟩

/-- A node that waits for every input and ends its instant in one turn, once it is ready (R120). -/
theorem firesIn_with {i : Instr} {op : Nat} {r : NodeRec} {s z : State} {n : Node} {x : Ins} {always : Bool}
    {f : State → Node → Ins → Option (State × React)} {q : React} (h : Ready op r s n x)
    (he : exec i s = .next (s.fireWith op r always f)) (hq : x.quiet = false) (hf : f s n x = some (z, q)) : FiresIn i s z n q := by
  rw [FiresIn, he, fireWith_ready h always hq hf]

/-- A constructive node whose instant begins and ends in one turn (R120, R156). -/
theorem fireEarlyS_ready {op : Nat} {r : NodeRec} {s : State} {n : Node} {i : Ins} (h : Ready op r s n i) (hp : n.phase = 0)
    (early : State → Node → Inp → Inp → Inp → Option Status) (f : State → Node → Ins → State × React) (hq : i.quiet = false) :
    s.fireEarlyS op r early f = (f s n i).1.settle s.here s.slot n (f s n i).2 true := by
  obtain ⟨h1, h2, hb, h3, h4, rfl⟩ := h
  have k0 := h4 0 (by decide)
  have k1 := h4 1 (by decide)
  have k2 := h4 2 (by decide)
  have k3 := h4 3 (by decide)
  have hr : n.rcd = r := by
    unfold State.nodeHere at h1
    cases hn : (s.coreAt s.here).node s.slot with
    | none => simp [hn] at h1
    | some m => simp [hn] at h1; subst h1; rfl
  have hx : s.room s.here r.outX.toNat = true := by
    unfold State.outRoom2 at h3
    simp only [Bool.and_eq_true] at h3
    rw [← hr]
    exact h3.1.1
  unfold State.fireEarlyS
  simp [h1, h2, hb, hx, k0, k1, k2, k3, hp, hq]

/-- X of a constructive node sent before the rest of its instant is known (R120, R156). -/
theorem fireEarlyS_early {op : Nat} {r : NodeRec} {s : State} {n : Node} {x : Status} (h1 : s.nodeHere op r = some n)
    (h2 : s.mayFire s.here n = true) (hb : n.broken = false) (hp : n.phase = 0) (hx : s.room s.here r.outX.toNat = true)
    (hu : ∃ k, k < 4 ∧ s.input s.here s.slot n k = .unknown) (early : State → Node → Inp → Inp → Inp → Option Status)
    (f : State → Node → Ins → State × React)
    (he : early s n (s.input s.here s.slot n 0) (s.input s.here s.slot n 1) (s.input s.here s.slot n 2) = some x) :
    s.fireEarlyS op r early f = s.sendEarly s.here s.slot n x := by
  have hk : ((s.input s.here s.slot n 0).known && (s.input s.here s.slot n 1).known && (s.input s.here s.slot n 2).known &&
      (s.input s.here s.slot n 3).known) = false := by
    obtain ⟨k, hk, hu⟩ := hu
    match k, hk with
    | 0, _ => simp [hu, Inp.known]
    | 1, _ => simp [hu, Inp.known]
    | 2, _ => simp [hu, Inp.known]
    | 3, _ => simp [hu, Inp.known]
  unfold State.fireEarlyS
  simp only [h1, h2, hb, hp, hx, hk, he]
  simp

/-- A node that waits for every input and whose reaction concerns only itself, once it is ready (R120). -/
theorem fires_pure {i : Instr} {op : Nat} {r : NodeRec} {s : State} {n : Node} {x : Ins} {f : Node → Ins → React} {q : React}
    (h : Ready op r s n x) (he : exec i s = .next (s.firePure op r f)) (hq : x.quiet = false) (hf : f n x = q) : Fires i s n q := by
  rw [Fires, FiresIn, he, firePure_ready h f hq, hf]

end Sys2Proof.Machine
end

