-- ==== Sys2Proof/Laws/Memory.lean ====
section
/-!
SUPPORT. The laws of the one memory: a read after a write gives what was written, a write leaves every other address alone, and
every operation keeps the canonical form.
-/

namespace Sys2Proof.Machine

/-! ### The canonical form -/

/-- A lower bound may be lowered. -/
theorem wfFrom_mono {lo lo' : Nat} (h : lo' ≤ lo) : ∀ {m : Memory}, wfFrom lo m = true → wfFrom lo' m = true
  | [], _ => rfl
  | (i, v) :: t, hm => by
    simp only [wfFrom, Bool.and_eq_true, decide_eq_true_eq] at hm ⊢
    exact ⟨⟨by omega, hm.1.2⟩, hm.2⟩

/-- A cell put in front of a memory above it. -/
theorem consCell_wf {lo k : Nat} {v : Byte} {t : Memory} (hk : lo ≤ k) (ht : wfFrom (k + 1) t = true) :
    wfFrom lo (consCell k v t) = true := by
  unfold consCell
  split
  · exact wfFrom_mono (by omega) ht
  · simp_all [wfFrom]

/-- Writing a byte keeps the form above a bound. -/
theorem writeCell_wfFrom {lo k : Nat} {v : Byte} (hk : lo ≤ k) :
    ∀ {m : Memory}, wfFrom lo m = true → wfFrom lo (writeCell m k v) = true
  | [], _ => consCell_wf hk rfl
  | (i, x) :: t, hm => by
    simp only [wfFrom, Bool.and_eq_true, decide_eq_true_eq] at hm
    unfold writeCell
    split
    · next e => subst e; exact consCell_wf hk hm.2
    · split
      · exact consCell_wf hk (by simp [wfFrom, hm.1.2, hm.2]; omega)
      · simp only [wfFrom, Bool.and_eq_true, decide_eq_true_eq]
        exact ⟨hm.1, writeCell_wfFrom (by omega) hm.2⟩

/-- Writing a byte keeps the canonical form. -/
@[simp] theorem writeCell_wf {m : Memory} {k : Nat} {v : Byte} (h : Memory.wf m = true) : Memory.wf (writeCell m k v) = true :=
  writeCell_wfFrom (Nat.zero_le k) h

/-- Writing bytes keeps the canonical form. -/
@[simp] theorem writeBytes_wf {m : Memory} {a : Nat} {l : List Byte} (h : Memory.wf m = true) :
    Memory.wf (writeBytes m a l) = true := by
  induction l generalizing m a with
  | nil => exact h
  | cons b t ih => exact ih (writeCell_wf h)

/-- Keeping some of the cells keeps the form above a bound. -/
theorem filter_wfFrom {f : Host.Cell → Bool} : ∀ {lo : Nat} {m : Memory}, wfFrom lo m = true → wfFrom lo (m.filter f) = true
  | _, [], _ => rfl
  | lo, c :: t, h => by
    simp only [wfFrom, Bool.and_eq_true, decide_eq_true_eq] at h
    rw [List.filter_cons]
    split
    · simp only [wfFrom, Bool.and_eq_true, decide_eq_true_eq]
      exact ⟨h.1, filter_wfFrom h.2⟩
    · exact wfFrom_mono (by omega) (filter_wfFrom h.2)

/-- Keeping some of the cells keeps the canonical form. -/
@[simp] theorem filter_wf {f : Host.Cell → Bool} {m : Memory} (h : Memory.wf m = true) : Memory.wf (m.filter f) = true :=
  filter_wfFrom h

/-- Blanking a range keeps the canonical form. -/
@[simp] theorem blankRange_wf {m : Memory} {lo n : Nat} (h : Memory.wf m = true) : Memory.wf (blankRange m lo n) = true :=
  filter_wf h

/-- Replacing a range keeps the canonical form. -/
@[simp] theorem putRange_wf {m cells : Memory} {lo n : Nat} (h : Memory.wf m = true) :
    Memory.wf (putRange m lo n cells) = true := by
  unfold putRange
  have h' : Memory.wf (blankRange m lo n) = true := blankRange_wf h
  generalize blankRange m lo n = m' at h' ⊢
  induction cells.filter (fun c => c.1 < n) generalizing m' with
  | nil => exact h'
  | cons c t ih => exact ih _ (writeCell_wf h')

/-! ### Reading -/

/-- Reading a memory with a cell in front. -/
theorem readCell_cons (i k : Nat) (v : Byte) (t : Memory) :
    readCell ((i, v) :: t) k = if i = k then v else if k < i then blankByte else readCell t k := rfl

/-- Below its lowest address a memory is blank. -/
theorem readCell_below {lo k : Nat} (hk : k < lo) : ∀ {m : Memory}, wfFrom lo m = true → readCell m k = blankByte
  | [], _ => rfl
  | (i, v) :: t, h => by
    simp only [wfFrom, Bool.and_eq_true, decide_eq_true_eq] at h
    unfold readCell
    rw [if_neg (by omega), if_pos (by omega)]

/-- The cell in front of a memory. -/
theorem readCell_consCell {lo k j : Nat} {v : Byte} {t : Memory} (ht : wfFrom lo t = true) (hk : k < lo) :
    readCell (consCell k v t) j = if j = k then v else if j < k then blankByte else readCell t j := by
  unfold consCell
  split
  · next e =>
    split
    · next e' => rw [e, e', readCell_below hk ht]
    · split
      · exact readCell_below (by omega) ht
      · rfl
  · rw [readCell_cons]
    (repeat' split) <;> first | rfl | omega

/-- A byte read after a byte is written. -/
theorem readCell_writeCell {k j : Nat} {v : Byte} : ∀ {lo : Nat} {m : Memory}, wfFrom lo m = true →
    readCell (writeCell m k v) j = if j = k then v else readCell m j
  | _, [], _ => by
    unfold writeCell
    rw [readCell_consCell (lo := k + 1) rfl (by omega)]
    simp [readCell]
  | lo, (i, x) :: t, h => by
    simp only [wfFrom, Bool.and_eq_true, decide_eq_true_eq] at h
    unfold writeCell
    split
    · next e =>
      subst e
      rw [readCell_consCell h.2 (by omega), readCell_cons]
      (repeat' split) <;> first | rfl | omega
    · split
      · rw [readCell_consCell (lo := k + 1) (by simp [wfFrom, h.1.2, h.2]; omega) (by omega)]
        rw [readCell_cons]
        (repeat' split) <;> first | rfl | omega
      · rw [readCell_cons, readCell_cons, readCell_writeCell h.2]
        (repeat' split) <;> first | rfl | omega

/-- A byte read outside the bytes written. -/
theorem readCell_writeBytes_of_ne {m : Memory} {a k : Nat} {l : List Byte} (h : Memory.wf m = true)
    (hk : k < a ∨ a + l.length ≤ k) : readCell (writeBytes m a l) k = readCell m k := by
  induction l generalizing m a with
  | nil => rfl
  | cons b t ih =>
    simp only [List.length_cons] at hk
    rw [writeBytes, ih (writeCell_wf h) (by omega), readCell_writeCell h, if_neg (by omega)]

/-- The bytes read where they were written. -/
theorem readBytes_writeBytes {m : Memory} {a : Nat} {l : List Byte} (h : Memory.wf m = true) :
    readBytes (writeBytes m a l) a l.length = l := by
  induction l generalizing m a with
  | nil => rfl
  | cons b t ih =>
    simp only [List.length_cons, readBytes, writeBytes]
    rw [ih (writeCell_wf h), readCell_writeBytes_of_ne (writeCell_wf h) (by omega), readCell_writeCell h, if_pos rfl]

/-- How many bytes are read. -/
@[simp] theorem length_readBytes {m : Memory} {a n : Nat} : (readBytes m a n).length = n := by
  induction n generalizing a with
  | zero => rfl
  | succ n ih => simp [readBytes, ih]

/-- How many bytes a number is written as. -/
@[simp] theorem length_bytesOfNat {v n : Nat} : (bytesOfNat v n).length = n := by
  induction n generalizing v with
  | zero => rfl
  | succ n ih => simp [bytesOfNat, ih]

/-- A number read back from its bytes (R4). -/
theorem natOfBytes_bytesOfNat {v n : Nat} : natOfBytes (bytesOfNat v n) = v % 2 ^ (8 * n) := by
  induction n generalizing v with
  | zero => simp [bytesOfNat, natOfBytes, Nat.mod_one]
  | succ n ih =>
    have h : 2 ^ (8 * (n + 1)) = 256 * 2 ^ (8 * n) := by rw [Nat.mul_add, Nat.pow_add, Nat.mul_comm]
    rw [bytesOfNat, natOfBytes, ih, h, Nat.mod_mul, BitVec.toNat_ofNat]

/-- Memories in canonical form that read alike are equal: equal memories are equal data. -/
theorem Memory.ext_of_wf : ∀ {lo : Nat} {m m' : Memory}, wfFrom lo m = true → wfFrom lo m' = true →
    (∀ k, readCell m k = readCell m' k) → m = m'
  | _, [], [], _, _, _ => rfl
  | _, [], (i, v) :: t, _, h', he => by
    simp only [wfFrom, Bool.and_eq_true, decide_eq_true_eq] at h'
    have := he i
    simp [readCell] at this
    exact absurd this.symm h'.1.2
  | _, (i, v) :: t, [], h, _, he => by
    simp only [wfFrom, Bool.and_eq_true, decide_eq_true_eq] at h
    have := he i
    simp [readCell] at this
    exact absurd this h.1.2
  | lo, (i, v) :: t, (j, w) :: u, h, h', he => by
    simp only [wfFrom, Bool.and_eq_true, decide_eq_true_eq] at h h'
    have hi := he i
    have hj := he j
    simp only [readCell] at hi hj
    have hij : i = j := by
      rcases Nat.lt_trichotomy i j with hlt | heq | hgt
      · rw [if_pos trivial, if_neg (by omega), if_pos hlt] at hi
        exact absurd hi h.1.2
      · exact heq
      · rw [if_neg (by omega), if_pos hgt, if_pos trivial] at hj
        exact absurd hj.symm h'.1.2
    subst hij
    have hv : v = w := by simpa using hi
    subst hv
    rw [Memory.ext_of_wf h.2 h'.2]
    intro k
    have hk := he k
    simp only [readCell] at hk
    by_cases h1 : i = k
    · subst h1
      rw [readCell_below (by omega) h.2, readCell_below (by omega) h'.2]
    · by_cases h2 : k < i
      · rw [readCell_below (by omega) h.2, readCell_below (by omega) h'.2]
      · simpa [h1, h2] using hk

end Sys2Proof.Machine
end

