-- ==== Sys2Proof/Laws/Form.lean ====
section
/-!
SUPPORT. Memory keeps its canonical form: one lemma for each operation of the shared operations and the fabric. An operation that stores nothing
leaves memory equal; one that stores keeps the form.
-/

namespace Sys2Proof.Machine

/-! ### Base -/

/-- A fold of operations none of which touches memory. -/
@[simp] theorem foldl_mem {α : Type} {f : State → α → State} (hf : ∀ z a, (f z a).mem = z.mem) (l : List α) (s : State) :
    (l.foldl f s).mem = s.mem := by
  induction l generalizing s with
  | nil => rfl
  | cons a t ih => rw [List.foldl_cons, ih, hf]

/-- A fold of operations each of which keeps the canonical form. -/
theorem foldl_wf {α : Type} {f : State → α → State} (hf : ∀ z a, Memory.wf z.mem = true → Memory.wf (f z a).mem = true)
    (l : List α) {s : State} (h : Memory.wf s.mem = true) : Memory.wf (l.foldl f s).mem = true := by
  induction l generalizing s with
  | nil => exact h
  | cons a t ih => exact ih (hf s a h)

@[simp] theorem ite_mem (c : Prop) [Decidable c] (a b : State) : (if c then a else b).mem = if c then a.mem else b.mem := by
  split <;> rfl

/-- Either branch keeps the canonical form. -/
theorem wf_ite {c : Prop} [Decidable c] {a b : State} (ha : Memory.wf a.mem = true) (hb : Memory.wf b.mem = true) :
    Memory.wf (if c then a else b).mem = true := by
  split <;> assumption

@[simp] theorem State.setCore_mem (s : State) (p : Nat) (c : Core) : (State.setCore s p c).mem = s.mem := (rfl)

@[simp] theorem State.modCore_mem (s : State) (p : Nat) (f : Core → Core) : (State.modCore s p f).mem = s.mem := (rfl)

@[simp] theorem State.modCtl_mem (s : State) (p : Nat) (f : Ctl → Ctl) : (State.modCtl s p f).mem = s.mem := (rfl)

@[simp] theorem State.modMe_mem (s : State) (f : Ctl → Ctl) : (State.modMe s f).mem = s.mem := (rfl)

@[simp] theorem State.modCe_mem (s : State) (p : Nat) (f : CopyEng → CopyEng) : (State.modCe s p f).mem = s.mem := (rfl)

@[simp] theorem State.modCfg_mem (s : State) (p : Nat) (f : Cfg → Cfg) : (State.modCfg s p f).mem = s.mem := (rfl)

@[simp] theorem State.modRegion_mem (s : State) (r : Nat) (f : Region → Region) : (State.modRegion s r f).mem = s.mem := by unfold State.modRegion; split <;> rfl

@[simp] theorem State.modPart_mem (s : State) (p : Nat) (f : Part → Part) : (State.modPart s p f).mem = s.mem := (rfl)

@[simp] theorem State.modTeamAt_mem (s : State) (p : Nat) (f : Team → Team) : (State.modTeamAt s p f).mem = s.mem := by unfold State.modTeamAt; (repeat' split) <;> rfl

@[simp] theorem State.draw_mem (s : State) : (State.draw s).mem = s.mem := (rfl)

@[simp] theorem State.poke_wf (s : State) (k : Nat) (bytes : List Byte) (h : Memory.wf s.mem = true) :
    Memory.wf (State.poke s k bytes).mem = true := by simp [State.poke, h]

theorem State.shadowFor_wf (s : State) (part va pa : Nat) (x : Nat × Slot) (t : State) (h : Memory.wf s.mem = true)
    (e : s.shadowFor part va pa x = some t) : Memory.wf t.mem = true := by
  unfold State.shadowFor at e
  split at e
  · cases e
  · cases e; simp [h]

theorem State.shadowsFor_wf (part va pa : Nat) (l : List (Nat × Slot)) (s t : State) (h : Memory.wf s.mem = true)
    (e : s.shadowsFor part va pa l = some t) : Memory.wf t.mem = true := by
  induction l generalizing s with
  | nil => cases e; exact h
  | cons x l ih =>
    unfold State.shadowsFor at e
    split at e
    · cases e
    · exact ih _ (State.shadowFor_wf _ _ _ _ _ _ h (by assumption)) e

theorem State.cowBefore_wf (s : State) (part va pa : Nat) (t : State) (h : Memory.wf s.mem = true)
    (e : s.cowBefore part va pa = some t) : Memory.wf t.mem = true := State.shadowsFor_wf _ _ _ _ _ _ h e

/-- A fold that may fail, each of whose operations keeps the canonical form. -/
theorem foldl_bind_wf {α β : Type} {f : State × β → α → Option (State × β)}
    (hf : ∀ y a r, Memory.wf y.1.mem = true → f y a = some r → Memory.wf r.1.mem = true) (l : List α) :
    ∀ (z : Option (State × β)) (r : State × β), (∀ y, z = some y → Memory.wf y.1.mem = true) →
      l.foldl (fun z a => z.bind (fun y => f y a)) z = some r → Memory.wf r.1.mem = true := by
  induction l with
  | nil => intro z r hz e; exact hz r e
  | cons a l ih =>
    intro z r hz e
    refine ih _ r (fun y hy => ?_) e
    cases z with
    | none => cases hy
    | some w => exact hf w a y (hz w rfl) hy

@[simp] theorem State.readyPage_wf (s : State) (part va pa : Nat) (pte : BitVec 64) (h : Memory.wf s.mem = true) :
    Memory.wf (s.readyPage part va pa pte).mem = true := by
  unfold State.readyPage
  split
  · cases e : s.cowBefore part va pa with
    | none => exact h
    | some y => exact State.cowBefore_wf _ _ _ _ _ h e
  · exact h

theorem State.reach_wf (s : State) (part : Nat) (l : List Nat) (r : State × List Nat) (h : Memory.wf s.mem = true)
    (e : s.reach part l = some r) : Memory.wf r.1.mem = true := by
  refine foldl_bind_wf (fun y va r hy he => ?_) l (some (s, [])) r (fun y hy => by cases hy; exact h) e
  split at he
  · cases he; exact State.readyPage_wf _ _ _ _ _ hy
  · cases he

@[simp] theorem State.putCells_wf (s : State) (pa n : Nat) (cells : Memory) (h : Memory.wf s.mem = true) :
    Memory.wf (s.putCells pa n cells).mem = true := by simp [State.putCells, h]

theorem State.putPieces_wf (s : State) (part : Nat) (l : List (Nat × Nat × Memory)) (t : State) (h : Memory.wf s.mem = true)
    (e : s.putPieces part l = some t) : Memory.wf t.mem = true := by
  simp only [State.putPieces, Option.map_eq_some_iff] at e
  obtain ⟨r, hr, rfl⟩ := e
  split
  · exact State.reach_wf _ _ _ _ h hr
  · exact foldl_wf (fun z a hz => State.putCells_wf _ _ _ _ hz) _ (State.reach_wf _ _ _ _ h hr)

theorem State.putGlobal_wf (s : State) (part va n : Nat) (cells : Memory) (t : State) (h : Memory.wf s.mem = true)
    (e : s.putGlobal part va n cells = some t) : Memory.wf t.mem = true := State.putPieces_wf _ _ _ _ h e

/-- What a partial operation leaves, or the state itself. -/
theorem getD_wf {o : Option State} {s : State} (h : Memory.wf s.mem = true) (ho : ∀ t, o = some t → Memory.wf t.mem = true) :
    Memory.wf (o.getD s).mem = true := by
  cases o with
  | none => exact h
  | some t => exact ho t rfl

@[simp] theorem State.areaBank_wf (s : State) (v : Saved) (l b : Nat) (cells : Memory) (h : Memory.wf s.mem = true) :
    Memory.wf (s.areaBank v l b cells).mem = true := by
  unfold State.areaBank
  split
  · exact getD_wf h (fun t e => State.putGlobal_wf _ _ _ _ _ _ h e)
  · exact h

@[simp] theorem State.evictBank_wf (s : State) (p b : Nat) (h : Memory.wf s.mem = true) :
    Memory.wf (s.evictBank p b).mem = true := by
  unfold State.evictBank
  split
  · exact h
  · dsimp only
    split <;> simp [h]

@[simp] theorem State.touch_wf (s : State) (p o : Nat) (h : Memory.wf s.mem = true) : Memory.wf (s.touch p o).mem = true := by
  unfold State.touch
  (repeat' split) <;> simp [h]

@[simp] theorem State.touchSpan_wf (s : State) (p o n : Nat) (h : Memory.wf s.mem = true) : Memory.wf (s.touchSpan p o n).mem = true :=
  foldl_wf (fun z b hz => State.touch_wf z p b hz) _ h

/-- Where no bank of a core is tagged, nothing is evicted (R361). -/
theorem State.touch_untagged (s : State) (p o : Nat) (h : (s.coreAt p).bankTags = []) : s.touch p o = s := by
  simp [State.touch, h]

@[simp] theorem State.pokeLocal_wf (s : State) (p o : Nat) (bytes : List Byte) (h : Memory.wf s.mem = true) :
    Memory.wf (State.pokeLocal s p o bytes).mem = true := by simp [State.pokeLocal, h]

@[simp] theorem State.useEntry_mem (s : State) (part va : Nat) (kind : Acc3) (t : TlbEnt) : (State.useEntry s part va kind t).2.mem = s.mem := by unfold State.useEntry; (repeat' split) <;> rfl

@[simp] theorem State.joinWalk_mem (s : State) (p part page who : Nat) : (State.joinWalk s p part page who).mem = s.mem := by unfold State.joinWalk; simp only []; (repeat' split) <;> simp_all

@[simp] theorem State.dropStale_mem (s : State) (p who page : Nat) : (State.dropStale s p who page).mem = s.mem := by unfold State.dropStale; split <;> rfl

@[simp] theorem State.translate_mem (s0 : State) (p part va : Nat) (kind : Acc3) (who : Nat) : (State.translate s0 p part va kind who).2.mem = s0.mem := by unfold State.translate; simp only []; (repeat' split) <;> simp_all

@[simp] theorem State.tlbDrop_mem (s : State) (part : Nat) : (State.tlbDrop s part).mem = s.mem := (rfl)

@[simp] theorem State.tlbInvalidate_mem (s : State) (part : Nat) : (s.tlbInvalidate part).mem = s.mem := rfl

@[simp] theorem State.irq_mem (s : State) (kind part arg : Nat) : (State.irq s kind part arg).mem = s.mem := (rfl)

@[simp] theorem State.fault_wf (s : State) (part : Nat) (f : FaultRec) (h : Memory.wf s.mem = true) :
    Memory.wf (State.fault s part f).mem = true := by unfold State.fault; simp only []; (repeat' split) <;> simp_all

/-! ### Guard -/

@[simp] theorem State.guardRecord_wf (s : State) (p route : Nat) (hdr : BitVec 32) (h : Memory.wf s.mem = true) :
    Memory.wf (State.guardRecord s p route hdr).mem = true := by simp [State.guardRecord, h]

@[simp] theorem State.guardDrop_wf (s : State) (p route : Nat) (h : Memory.wf s.mem = true) :
    Memory.wf (State.guardDrop s p route).mem = true := by unfold State.guardDrop; dsimp only; (repeat' split) <;> simp [h]

@[simp] theorem State.guardLast_wf (s : State) (p route : Nat) (h : Memory.wf s.mem = true) :
    Memory.wf (s.guardLast p route).mem = true := by
  unfold State.guardLast
  split
  · exact h
  · next g _ =>
    have hz : Memory.wf ((List.range g.egress.length).foldl (fun (z : State) _ => z.guardDrop p route) s).mem = true :=
      foldl_wf (fun z a hz => by simp [hz]) _ h
    dsimp only
    split <;> simp [hz]

@[simp] theorem State.guardClose_wf (s : State) (r : Region) (dom : Option Nat) (h : Memory.wf s.mem = true) :
    Memory.wf (s.guardClose r dom).mem = true := by
  refine foldl_wf (fun z p hz => ?_) _ h
  split
  · exact hz
  · refine foldl_wf (fun y rt hy => ?_) _ hz
    exact wf_ite (by simp [hy]) hy

@[simp] theorem State.guardWave_wf (s : State) (k : Nat) (h : Memory.wf s.mem = true) :
    Memory.wf (State.guardWave s k).mem = true := by unfold State.guardWave; (repeat' split) <;> simp_all

/-! ### Ending -/

@[simp] theorem State.freeRegion_mem (s : State) (r : Nat) : (State.freeRegion s r).mem = s.mem := by unfold State.freeRegion; (repeat' split) <;> simp

@[simp] theorem State.unconfigure_mem (s : State) (k : Nat) : (State.unconfigure s k).mem = s.mem := by unfold State.unconfigure; (repeat' split) <;> simp

@[simp] theorem State.stopTeam_mem (s : State) (t : Nat) : (State.stopTeam s t).mem = s.mem := by unfold State.stopTeam; simp only []; (repeat' split) <;> simp_all

@[simp] theorem State.modTask_mem (s : State) (t : Nat) (f : Task → Task) : (State.modTask s t f).mem = s.mem := by unfold State.modTask; split <;> rfl

@[simp] theorem State.endTeam_wf (s : State) (t : Nat) (discard : Bool) (h : Memory.wf s.mem = true) :
    Memory.wf (s.endTeam t discard).mem = true := by unfold State.endTeam; dsimp only; (repeat' split) <;> simp [h]

@[simp] theorem State.markEnd_wf (s : State) (t i : Nat) (e : End) (h : Memory.wf s.mem = true) :
    Memory.wf (s.markEnd t i e).mem = true := by unfold State.markEnd; dsimp only; (repeat' split) <;> simp [h]

@[simp] theorem State.killTree_wf (n : Nat) (s : State) (t i : Nat) (h : Memory.wf s.mem = true) :
    Memory.wf (State.killTree n s t i).mem = true := by
  induction n generalizing s i with
  | zero => exact h
  | succ n ih =>
    unfold State.killTree
    split
    · exact h
    · split
      · exact h
      · exact State.markEnd_wf _ _ _ _ (foldl_wf (fun z j hz => ih z j hz) _ h)

@[simp] theorem State.sweep_mem (s : State) : (State.sweep s).mem = s.mem := rfl

@[simp] theorem State.endNode_wf (n : Nat) (s : State) (t i : Nat) (e : End) (h : Memory.wf s.mem = true) :
    Memory.wf (State.endNode n s t i e).mem = true := by
  induction n generalizing s i e with
  | zero => exact h
  | succ n ih =>
    unfold State.endNode
    have hk : ∀ (l : List Nat) (z : State), Memory.wf z.mem = true → Memory.wf (l.foldl (fun z q => z.killTree 10 t q) z).mem = true :=
      fun l z hz => foldl_wf (fun z j hz => State.killTree_wf _ _ _ _ hz) l hz
    dsimp only
    (repeat' split) <;> first | exact h | exact ih _ _ _ (hk _ _ (State.markEnd_wf _ _ _ _ h)) | simp [h, hk, ih]

@[simp] theorem State.endLeaf_wf (s : State) (p : Nat) (e : End) (h : Memory.wf s.mem = true) :
    Memory.wf (s.endLeaf p e).mem = true := by unfold State.endLeaf; dsimp only; (repeat' split) <;> simp [h]

@[simp] theorem State.killTask_wf (s : State) (t : Nat) (h : Memory.wf s.mem = true) :
    Memory.wf (s.killTask t).mem = true := by unfold State.killTask; (repeat' split) <;> simp [h]

@[simp] theorem State.doomAt_mem (s : State) (p code : Nat) : (s.doomAt p code).mem = s.mem := by simp [State.doomAt]

@[simp] theorem State.later_mem (s : State) (t : Turn) : (s.later t).mem = s.mem := rfl

/-! ### Ops -/

/-- The state that an access leaves. -/
def Got.state {α : Type} : Got α → State
  | .ok _ s => s
  | .trap _ _ s => s
  | .wait s => s

@[simp] theorem State.result_mem (s : State) (d : Reg) (v : BitVec 64) : (State.result s d v).mem = s.mem := (rfl)

@[simp] theorem State.retire_mem (s : State) : (State.retire s).mem = s.mem := (rfl)

@[simp] theorem State.acquire_mem (s : State) : (State.acquire s).mem = s.mem := (rfl)

@[simp] theorem State.firmware_wf (s : State) (p cause : Nat) (val : BitVec 64) (h : Memory.wf s.mem = true) :
    Memory.wf (s.firmware p cause val).mem = true := by unfold State.firmware; dsimp only; (repeat' split) <;> simp [h]

@[simp] theorem State.trapAt_wf (s : State) (p cause : Nat) (kind : TrapKind) (err : Nat) (val : BitVec 64) (waits : Bool)
    (h : Memory.wf s.mem = true) : Memory.wf (s.trapAt p cause kind err val waits).mem = true := by
  unfold State.trapAt; dsimp only; split <;> simp [h]

@[simp] theorem State.trap_wf (s : State) (cause : Nat) (kind : TrapKind) (err : Nat) (val : BitVec 64) (h : Memory.wf s.mem = true) :
    Memory.wf (s.trap cause kind err val).mem = true := by simp [State.trap, h]

@[simp] theorem State.illegal_wf (s : State) (word : BitVec 32) (h : Memory.wf s.mem = true) :
    Memory.wf (s.illegal word).mem = true := by simp [State.illegal, h]

@[simp] theorem State.locate_wf (s : State) (a : BitVec 64) (kind : Acc3) (peers : Bool) (h : Memory.wf s.mem = true) :
    Memory.wf (s.locate a kind peers).2.mem = true := by
  unfold State.locate
  cases spaceOf a with
  | global va =>
    have ht := State.translate_mem s s.here (s.partOf s.here) va kind whoCtl
    dsimp only
    split <;> rename_i e <;> rw [e] at ht <;> exact ht ▸ h
  | localMem off => simp [h]
  | peer l off => dsimp only; (repeat' split) <;> simp [h]
  | _ => exact h

@[simp] theorem State.readLine_mem (s : State) (pa n : Nat) : (State.readLine s pa n).2.mem = s.mem := by unfold State.readLine; simp only []; (repeat' split) <;> simp_all

@[simp] theorem State.writeLine_wf (s : State) (pa : Nat) (bytes : List Byte) (h : Memory.wf s.mem = true) :
    Memory.wf (State.writeLine s pa bytes).mem = true := by simp [State.writeLine, h]

@[simp] theorem State.load_wf (s : State) (a : BitVec 64) (n align : Nat) (peers : Bool) (h : Memory.wf s.mem = true) :
    Memory.wf (s.load a n align peers).state.mem = true := by
  unfold State.load
  split
  · exact h
  · have hl := State.locate_wf s a .read peers h
    generalize s.locate a .read peers = x at hl ⊢
    obtain ⟨l, z⟩ := x
    cases l with
    | line pa va pte =>
      have hr := State.readLine_mem z pa n
      dsimp only
      generalize z.readLine pa n = y at hr ⊢
      obtain ⟨o, z2⟩ := y
      cases o <;> exact hr ▸ hl
    | key k => dsimp only; split <;> exact hl
    | _ => exact hl

theorem State.storeAt_wf (s : State) (l : Loc) (bytes : List Byte) (t : State) (h : Memory.wf s.mem = true)
    (e : s.storeAt l bytes = some t) : Memory.wf t.mem = true := by
  unfold State.storeAt at e
  split at e
  · cases e; simp [h]
  · split at e
    · simp only [Option.map_eq_some_iff] at e
      obtain ⟨z, hz, rfl⟩ := e
      exact State.writeLine_wf _ _ _ (State.cowBefore_wf _ _ _ _ _ h hz)
    · cases e; simp [h]
  · cases e; exact h

theorem State.store_wf (s : State) (a : BitVec 64) (bytes : List Byte) (h : Memory.wf s.mem = true) :
    Memory.wf (s.store a bytes).state.mem = true := by
  unfold State.store
  split
  · exact h
  · have hz := State.locate_wf s a .write true h
    generalize s.locate a .write true = x at hz ⊢
    obtain ⟨l, z⟩ := x
    cases l <;> dsimp only <;> (repeat' split) <;>
      first | exact hz | exact State.storeAt_wf _ _ _ _ hz (by assumption)

theorem State.atomic_wf (s : State) (a : BitVec 64) (n : Nat) (f : Nat → Nat) (h : Memory.wf s.mem = true) :
    Memory.wf (s.atomic a n f).state.mem = true := by
  unfold State.atomic
  split
  · exact h
  · have hz := State.locate_wf s a .write true h
    generalize s.locate a .write true = x at hz ⊢
    obtain ⟨l, z⟩ := x
    cases l <;> dsimp only <;> (repeat' split) <;>
      first | exact hz | exact State.storeAt_wf _ _ _ _ hz (by assumption)

theorem Got.after_wf {α : Type} (g : Got α) (kind : TrapKind) (addr : BitVec 64) (use : α → State → State)
    (hu : ∀ v z, Memory.wf z.mem = true → Memory.wf (use v z).mem = true) (h : Memory.wf g.state.mem = true) :
    Memory.wf (g.after kind addr use).mem = true := by
  cases g <;> simp_all [Got.after, Got.state]

@[simp] theorem State.fetchKey_wf (s : State) (a : BitVec 64) (h : Memory.wf s.mem = true) : Memory.wf (s.fetchKey a).2.mem = true := by
  unfold State.fetchKey
  (repeat' split) <;> simp [h]

@[simp] theorem State.fetchAt_mem (s : State) (k : Nat) : (State.fetchAt s k).2.mem = s.mem := by unfold State.fetchAt; simp only []; (repeat' split) <;> simp_all

@[simp] theorem State.fetch_wf (s : State) (h : Memory.wf s.mem = true) : Memory.wf s.fetch.2.mem = true := by
  unfold State.fetch
  have h := State.fetchKey_wf s s.me.ip h
  split <;> rename_i e <;> rw [e] at h <;> simpa using h

/-! ### Fabric -/

@[simp] theorem State.modChan_mem (s : State) (p ep : Nat) (f : Chan → Chan) : (State.modChan s p ep f).mem = s.mem := (rfl)

@[simp] theorem State.setNode_mem (s : State) (p id : Nat) (n : Node) : (State.setNode s p id n).mem = s.mem := (rfl)

@[simp] theorem State.modNode_mem (s : State) (p id : Nat) (f : Node → Node) : (State.modNode s p id f).mem = s.mem := by unfold State.modNode; split <;> rfl

@[simp] theorem State.consume_mem (s : State) (p id : Nat) (n : Node) (i : Nat) : (State.consume s p id n i).mem = s.mem := by unfold State.consume; simp only []; (repeat' split) <;> simp_all

@[simp] theorem State.emit_mem (s : State) (p route dom inst : Nat) (x : Status) : (State.emit s p route dom inst x).mem = s.mem := by unfold State.emit; (repeat' split) <;> rfl

@[simp] theorem State.nodeFault_wf (s : State) (p id : Nat) (n : Node) (code : Nat) (hdr : BitVec 32) (h : Memory.wf s.mem = true) :
    Memory.wf (State.nodeFault s p id n code hdr).mem = true := by simp [State.nodeFault, h]

@[simp] theorem State.stopDom_wf (s : State) (k : Nat) (r : Region) (dom : Nat) (h : Memory.wf s.mem = true) :
    Memory.wf (s.stopDom k r dom).mem = true := by simp [State.stopDom, h]

@[simp] theorem State.nodeLost_wf (s : State) (p id : Nat) (n : Node) (h : Memory.wf s.mem = true) :
    Memory.wf (s.nodeLost p id n).mem = true := by unfold State.nodeLost; dsimp only; (repeat' split) <;> simp [h]

@[simp] theorem State.emitX_mem (s : State) (p : Nat) (n : Node) (r : React) : (State.emitX s p n r).mem = s.mem := by unfold State.emitX; (repeat' split) <;> simp

@[simp] theorem State.settleTaking_wf (s : State) (take : List Nat) (p id : Nat) (n : Node) (r : React) (busy : Bool)
    (h : Memory.wf s.mem = true) : Memory.wf (s.settleTaking take p id n r busy).mem = true := by
  unfold State.settleTaking
  have hf : ∀ (z : State) (f : Nat × BitVec 32), Memory.wf z.mem = true → Memory.wf (z.nodeFault p id n f.1 f.2).mem = true :=
    fun z f hz => by simp [hz]
  dsimp only
  (repeat' split) <;> (try simp) <;> exact foldl_wf hf _ (by simp [h])

@[simp] theorem State.settle_wf (s : State) (p id : Nat) (n : Node) (r : React) (busy : Bool) (h : Memory.wf s.mem = true) :
    Memory.wf (s.settle p id n r busy).mem = true := State.settleTaking_wf _ _ _ _ _ _ _ h

theorem State.fireSlow_wf (s : State) (op : Nat) (rc : NodeRec) (always : Bool)
    (f : State → Node → Ins → State × Option React)
    (hf : ∀ z n i, Memory.wf z.mem = true → Memory.wf (f z n i).1.mem = true) (h : Memory.wf s.mem = true) :
    Memory.wf (s.fireSlow op rc always f).mem = true := by
  unfold State.fireSlow
  dsimp only
  split
  · exact h
  · next n _ =>
    split
    · exact h
    · split
      · simp [h]
      split
      · exact h
      · split
        · simp [h]
        · generalize hi : Ins.mk _ _ _ = i
          have := hf s n i h
          split <;> rename_i e <;> rw [e] at this
          · exact this
          · exact State.settle_wf _ _ _ _ _ _ this

theorem State.fireWith_wf (s : State) (op : Nat) (rc : NodeRec) (always : Bool)
    (f : State → Node → Ins → Option (State × React))
    (hf : ∀ z n i r, Memory.wf z.mem = true → f z n i = some r → Memory.wf r.1.mem = true) (h : Memory.wf s.mem = true) :
    Memory.wf (s.fireWith op rc always f).mem = true := by
  unfold State.fireWith
  refine State.fireSlow_wf _ _ _ _ _ (fun z n i hz => ?_) h
  split
  · exact hz
  · next e => exact hf _ _ _ _ hz e

@[simp] theorem State.sendEarly_mem (s : State) (p id : Nat) (n : Node) (x : Status) : (State.sendEarly s p id n x).mem = s.mem := by unfold State.sendEarly; simp only []; (repeat' split) <;> simp_all

theorem State.fireEarlyS_wf (s : State) (op : Nat) (rc : NodeRec) (early : State → Node → Inp → Inp → Inp → Option Status)
    (f : State → Node → Ins → State × React) (hf : ∀ z n i, Memory.wf z.mem = true → Memory.wf (f z n i).1.mem = true)
    (h : Memory.wf s.mem = true) : Memory.wf (s.fireEarlyS op rc early f).mem = true := by
  unfold State.fireEarlyS
  dsimp only
  (repeat' split) <;> first | exact h | exact State.settle_wf _ _ _ _ _ _ (hf _ _ _ h) | simp [h]

@[simp] theorem State.fireEarly_wf (s : State) (op : Nat) (rc : NodeRec) (early : Node → Inp → Inp → Inp → Option Status)
    (f : Node → Ins → React) (h : Memory.wf s.mem = true) : Memory.wf (s.fireEarly op rc early f).mem = true :=
  State.fireEarlyS_wf _ _ _ _ _ (fun _ _ _ hz => hz) h

@[simp] theorem State.firePure_wf (s : State) (op : Nat) (rc : NodeRec) (f : Node → Ins → React) (h : Memory.wf s.mem = true) :
    Memory.wf (s.firePure op rc f).mem = true :=
  State.fireWith_wf _ _ _ _ _ (fun z n i r hz e => by cases e; exact hz) h

end Sys2Proof.Machine
end

