-- ==== Sys2Proof/Laws/FormScalar.lean ====
section
/-!
SUPPORT. Memory keeps its canonical form: one lemma for each operation of the scalar instructions. An operation that stores nothing
leaves memory equal; one that stores keeps the form.
-/

namespace Sys2Proof.Machine

/-! ### Alu -/

/-- An answer whose next state, if it is one, has its memory in canonical form. -/
def Keeps (a : Answer) : Prop := ∀ t, a = .next t → Memory.wf t.mem = true

@[simp] theorem keeps_next (t : State) : Keeps (.next t) ↔ Memory.wf t.mem = true :=
  ⟨fun h => h t rfl, fun h _ e => by cases e; exact h⟩

@[simp] theorem State.writes_keeps (s : State) (d : Reg) (v : BitVec 64) (h : Memory.wf s.mem = true) : Keeps (s.writes d v) := by
  simp [State.writes, h]

theorem execAdd_wf (d a b : Reg) (s : State) (h : Memory.wf s.mem = true) :
    Keeps (execAdd d a b s) := by simp [execAdd, h]

theorem execSub_wf (d a b : Reg) (s : State) (h : Memory.wf s.mem = true) :
    Keeps (execSub d a b s) := by simp [execSub, h]

theorem execAnd_wf (d a b : Reg) (s : State) (h : Memory.wf s.mem = true) :
    Keeps (execAnd d a b s) := by simp [execAnd, h]

theorem execOr_wf (d a b : Reg) (s : State) (h : Memory.wf s.mem = true) :
    Keeps (execOr d a b s) := by simp [execOr, h]

theorem execXor_wf (d a b : Reg) (s : State) (h : Memory.wf s.mem = true) :
    Keeps (execXor d a b s) := by simp [execXor, h]

theorem execSll_wf (d a b : Reg) (s : State) (h : Memory.wf s.mem = true) :
    Keeps (execSll d a b s) := by simp [execSll, h]

theorem execSrl_wf (d a b : Reg) (s : State) (h : Memory.wf s.mem = true) :
    Keeps (execSrl d a b s) := by simp [execSrl, h]

theorem execSra_wf (d a b : Reg) (s : State) (h : Memory.wf s.mem = true) :
    Keeps (execSra d a b s) := by simp [execSra, h]

theorem execSlt_wf (d a b : Reg) (s : State) (h : Memory.wf s.mem = true) :
    Keeps (execSlt d a b s) := by simp [execSlt, h]

theorem execSltu_wf (d a b : Reg) (s : State) (h : Memory.wf s.mem = true) :
    Keeps (execSltu d a b s) := by simp [execSltu, h]

theorem execMul_wf (d a b : Reg) (s : State) (h : Memory.wf s.mem = true) :
    Keeps (execMul d a b s) := by simp [execMul, h]

theorem execMulh_wf (d a b : Reg) (s : State) (h : Memory.wf s.mem = true) :
    Keeps (execMulh d a b s) := by simp [execMulh, h]

theorem execMulhu_wf (d a b : Reg) (s : State) (h : Memory.wf s.mem = true) :
    Keeps (execMulhu d a b s) := by simp [execMulhu, h]

theorem execDiv_wf (d a b : Reg) (s : State) (h : Memory.wf s.mem = true) :
    Keeps (execDiv d a b s) := by simp [execDiv, h]

theorem execDivu_wf (d a b : Reg) (s : State) (h : Memory.wf s.mem = true) :
    Keeps (execDivu d a b s) := by simp [execDivu, h]

theorem execRem_wf (d a b : Reg) (s : State) (h : Memory.wf s.mem = true) :
    Keeps (execRem d a b s) := by simp [execRem, h]

theorem execRemu_wf (d a b : Reg) (s : State) (h : Memory.wf s.mem = true) :
    Keeps (execRemu d a b s) := by simp [execRemu, h]

theorem execMin_wf (d a b : Reg) (s : State) (h : Memory.wf s.mem = true) :
    Keeps (execMin d a b s) := by simp [execMin, h]

theorem execMax_wf (d a b : Reg) (s : State) (h : Memory.wf s.mem = true) :
    Keeps (execMax d a b s) := by simp [execMax, h]

theorem execMinu_wf (d a b : Reg) (s : State) (h : Memory.wf s.mem = true) :
    Keeps (execMinu d a b s) := by simp [execMinu, h]

theorem execMaxu_wf (d a b : Reg) (s : State) (h : Memory.wf s.mem = true) :
    Keeps (execMaxu d a b s) := by simp [execMaxu, h]

theorem execClz_wf (d a : Reg) (s : State) (h : Memory.wf s.mem = true) :
    Keeps (execClz d a s) := by simp [execClz, h]

theorem execCtz_wf (d a : Reg) (s : State) (h : Memory.wf s.mem = true) :
    Keeps (execCtz d a s) := by simp [execCtz, h]

theorem execPopc_wf (d a : Reg) (s : State) (h : Memory.wf s.mem = true) :
    Keeps (execPopc d a s) := by simp [execPopc, h]

theorem execAddi_wf (d a : Reg) (imm : BitVec 16) (s : State) (h : Memory.wf s.mem = true) :
    Keeps (execAddi d a imm s) := by simp [execAddi, h]

theorem execAndi_wf (d a : Reg) (imm : BitVec 16) (s : State) (h : Memory.wf s.mem = true) :
    Keeps (execAndi d a imm s) := by simp [execAndi, h]

theorem execOri_wf (d a : Reg) (imm : BitVec 16) (s : State) (h : Memory.wf s.mem = true) :
    Keeps (execOri d a imm s) := by simp [execOri, h]

theorem execXori_wf (d a : Reg) (imm : BitVec 16) (s : State) (h : Memory.wf s.mem = true) :
    Keeps (execXori d a imm s) := by simp [execXori, h]

theorem execSlti_wf (d a : Reg) (imm : BitVec 16) (s : State) (h : Memory.wf s.mem = true) :
    Keeps (execSlti d a imm s) := by simp [execSlti, h]

theorem execSltiu_wf (d a : Reg) (imm : BitVec 16) (s : State) (h : Memory.wf s.mem = true) :
    Keeps (execSltiu d a imm s) := by simp [execSltiu, h]

theorem execSlli_wf (d a : Reg) (sh : BitVec 6) (s : State) (h : Memory.wf s.mem = true) :
    Keeps (execSlli d a sh s) := by simp [execSlli, h]

theorem execSrli_wf (d a : Reg) (sh : BitVec 6) (s : State) (h : Memory.wf s.mem = true) :
    Keeps (execSrli d a sh s) := by simp [execSrli, h]

theorem execSrai_wf (d a : Reg) (sh : BitVec 6) (s : State) (h : Memory.wf s.mem = true) :
    Keeps (execSrai d a sh s) := by simp [execSrai, h]

theorem execLui_wf (d : Reg) (imm : BitVec 16) (s : State) (h : Memory.wf s.mem = true) :
    Keeps (execLui d imm s) := by simp [execLui, h]

theorem execLuih_wf (d : Reg) (imm : BitVec 16) (s : State) (h : Memory.wf s.mem = true) :
    Keeps (execLuih d imm s) := by simp [execLuih, h]

/-! ### Hub -/

@[simp] theorem State.hubTouch_wf (s : State) (p : Nat) (wh : Wheel) (o : Nat) (h : Memory.wf s.mem = true) :
    Memory.wf (s.hubTouch p wh o).mem = true := foldl_wf (fun z _ hz => State.touch_wf z _ _ hz) _ h

@[simp] theorem State.hubOpen_wf (s : State) (p w o : Nat) (h : Memory.wf s.mem = true) : Memory.wf (s.hubOpen p w o).mem = true := by
  unfold State.hubOpen; split <;> simp [h]

/-! ### Scalar -/

@[simp] theorem State.branch_mem (s : State) (c : Bool) (off : BitVec 16) : (State.branch s c off).mem = s.mem := by unfold State.branch; split <;> rfl

theorem execBeq_wf (a b : Reg) (off : BitVec 16) (s : State) (h : Memory.wf s.mem = true) :
    Keeps (execBeq a b off s) := by simp [execBeq, h]

theorem execBne_wf (a b : Reg) (off : BitVec 16) (s : State) (h : Memory.wf s.mem = true) :
    Keeps (execBne a b off s) := by simp [execBne, h]

theorem execBlt_wf (a b : Reg) (off : BitVec 16) (s : State) (h : Memory.wf s.mem = true) :
    Keeps (execBlt a b off s) := by simp [execBlt, h]

theorem execBge_wf (a b : Reg) (off : BitVec 16) (s : State) (h : Memory.wf s.mem = true) :
    Keeps (execBge a b off s) := by simp [execBge, h]

theorem execBltu_wf (a b : Reg) (off : BitVec 16) (s : State) (h : Memory.wf s.mem = true) :
    Keeps (execBltu a b off s) := by simp [execBltu, h]

theorem execBgeu_wf (a b : Reg) (off : BitVec 16) (s : State) (h : Memory.wf s.mem = true) :
    Keeps (execBgeu a b off s) := by simp [execBgeu, h]

theorem execJal_wf (off : BitVec 26) (s : State) (h : Memory.wf s.mem = true) :
    Keeps (execJal off s) := by simp [execJal, h]

theorem execJalr_wf (d a : Reg) (imm : BitVec 16) (s : State) (h : Memory.wf s.mem = true) :
    Keeps (execJalr d a imm s) := by simp only [execJalr]; (repeat' split) <;> simp_all

@[simp] theorem State.loadTo_wf (s : State) (n : Nat) (signed : Bool) (d a : Reg) (imm : BitVec 16)
    (h : Memory.wf s.mem = true) : Memory.wf (s.loadTo n signed d a imm).mem = true :=
  Got.after_wf _ _ _ _ (fun v z hz => by simp [hz]) (by simp [h])

@[simp] theorem State.storeFrom_wf (s : State) (n : Nat) (r a : Reg) (imm : BitVec 16) (h : Memory.wf s.mem = true) :
    Memory.wf (s.storeFrom n r a imm).mem = true :=
  Got.after_wf _ _ _ _ (fun v z hz => by simp [hz]) (State.store_wf _ _ _ h)

theorem execLdb_wf (d a : Reg) (imm : BitVec 16) (s : State) (h : Memory.wf s.mem = true) :
    Keeps (execLdb d a imm s) := by simp [execLdb, h]

theorem execLdbu_wf (d a : Reg) (imm : BitVec 16) (s : State) (h : Memory.wf s.mem = true) :
    Keeps (execLdbu d a imm s) := by simp [execLdbu, h]

theorem execLdh_wf (d a : Reg) (imm : BitVec 16) (s : State) (h : Memory.wf s.mem = true) :
    Keeps (execLdh d a imm s) := by simp [execLdh, h]

theorem execLdhu_wf (d a : Reg) (imm : BitVec 16) (s : State) (h : Memory.wf s.mem = true) :
    Keeps (execLdhu d a imm s) := by simp [execLdhu, h]

theorem execLdw_wf (d a : Reg) (imm : BitVec 16) (s : State) (h : Memory.wf s.mem = true) :
    Keeps (execLdw d a imm s) := by simp [execLdw, h]

theorem execLdwu_wf (d a : Reg) (imm : BitVec 16) (s : State) (h : Memory.wf s.mem = true) :
    Keeps (execLdwu d a imm s) := by simp [execLdwu, h]

theorem execLdd_wf (d a : Reg) (imm : BitVec 16) (s : State) (h : Memory.wf s.mem = true) :
    Keeps (execLdd d a imm s) := by simp only [execLdd]; (repeat' split) <;> simp_all

theorem execStb_wf (r a : Reg) (imm : BitVec 16) (s : State) (h : Memory.wf s.mem = true) :
    Keeps (execStb r a imm s) := by simp [execStb, h]

theorem execSth_wf (r a : Reg) (imm : BitVec 16) (s : State) (h : Memory.wf s.mem = true) :
    Keeps (execSth r a imm s) := by simp [execSth, h]

theorem execStw_wf (r a : Reg) (imm : BitVec 16) (s : State) (h : Memory.wf s.mem = true) :
    Keeps (execStw r a imm s) := by simp [execStw, h]

theorem execStd_wf (r a : Reg) (imm : BitVec 16) (s : State) (h : Memory.wf s.mem = true) :
    Keeps (execStd r a imm s) := by simp [execStd, h]

@[simp] theorem State.amo_wf (s : State) (d a b : Reg) (narrow : Bool) (op : (w : Nat) → BitVec w → BitVec w → BitVec w)
    (h : Memory.wf s.mem = true) : Memory.wf (s.amo d a b narrow op).mem = true :=
  Got.after_wf _ _ _ _ (fun v z hz => by simp [hz]) (State.atomic_wf _ _ _ _ h)

theorem execAmoadd_wf (d a b : Reg) (_scope : BitVec 3) (narrow : Bool) (s : State) (h : Memory.wf s.mem = true) :
    Keeps (execAmoadd d a b _scope narrow s) := by simp [execAmoadd, h]

theorem execAmoswap_wf (d a b : Reg) (_scope : BitVec 3) (narrow : Bool) (s : State) (h : Memory.wf s.mem = true) :
    Keeps (execAmoswap d a b _scope narrow s) := by simp [execAmoswap, h]

theorem execAmomin_wf (d a b : Reg) (_scope : BitVec 3) (narrow : Bool) (s : State) (h : Memory.wf s.mem = true) :
    Keeps (execAmomin d a b _scope narrow s) := by simp [execAmomin, h]

theorem execAmomax_wf (d a b : Reg) (_scope : BitVec 3) (narrow : Bool) (s : State) (h : Memory.wf s.mem = true) :
    Keeps (execAmomax d a b _scope narrow s) := by simp [execAmomax, h]

theorem execAmominu_wf (d a b : Reg) (_scope : BitVec 3) (narrow : Bool) (s : State) (h : Memory.wf s.mem = true) :
    Keeps (execAmominu d a b _scope narrow s) := by simp [execAmominu, h]

theorem execAmomaxu_wf (d a b : Reg) (_scope : BitVec 3) (narrow : Bool) (s : State) (h : Memory.wf s.mem = true) :
    Keeps (execAmomaxu d a b _scope narrow s) := by simp [execAmomaxu, h]

theorem execAmoand_wf (d a b : Reg) (_scope : BitVec 3) (narrow : Bool) (s : State) (h : Memory.wf s.mem = true) :
    Keeps (execAmoand d a b _scope narrow s) := by simp [execAmoand, h]

theorem execAmoor_wf (d a b : Reg) (_scope : BitVec 3) (narrow : Bool) (s : State) (h : Memory.wf s.mem = true) :
    Keeps (execAmoor d a b _scope narrow s) := by simp [execAmoor, h]

theorem execAmoxor_wf (d a b : Reg) (_scope : BitVec 3) (narrow : Bool) (s : State) (h : Memory.wf s.mem = true) :
    Keeps (execAmoxor d a b _scope narrow s) := by simp [execAmoxor, h]

theorem execAmocas_wf (d a b : Reg) (_scope : BitVec 3) (narrow : Bool) (s : State) (h : Memory.wf s.mem = true) :
    Keeps (execAmocas d a b _scope narrow s) := by simp [execAmocas, h]

theorem execFence_wf (_scope : BitVec 3) (s : State) (h : Memory.wf s.mem = true) :
    Keeps (execFence _scope s) := by simp [execFence, h]

theorem execSynci_wf (s : State) (h : Memory.wf s.mem = true) :
    Keeps (execSynci s) := by simp [execSynci, h]

/-! ### Csr -/

@[simp] theorem State.csrWrite_wf (s : State) (a : Reg) (csr : BitVec 12) (fn : BitVec 4) (f : BitVec 64 → BitVec 64 → BitVec 64)
    (h : Memory.wf s.mem = true) : Memory.wf (s.csrWrite a csr fn f).mem = true := by unfold State.csrWrite; (repeat' split) <;> simp [h]

theorem execCsrr_wf (d : Reg) (csr : BitVec 12) (s : State) (h : Memory.wf s.mem = true) :
    Keeps (execCsrr d csr s) := by unfold execCsrr; (repeat' split) <;> simp_all

theorem execCsrw_wf (a : Reg) (csr : BitVec 12) (s : State) (h : Memory.wf s.mem = true) :
    Keeps (execCsrw a csr s) := by simp [execCsrw, h]

theorem execCsrs_wf (a : Reg) (csr : BitVec 12) (s : State) (h : Memory.wf s.mem = true) :
    Keeps (execCsrs a csr s) := by simp [execCsrs, h]

theorem execCsrc_wf (a : Reg) (csr : BitVec 12) (s : State) (h : Memory.wf s.mem = true) :
    Keeps (execCsrc a csr s) := by simp [execCsrc, h]

/-! ### Records -/

@[simp] theorem State.addTask_mem (s : State) (src : PlanSrc) (b : List Byte) (parent : BitVec 32) (source : Nat) : (State.addTask s src b parent source).1.mem = s.mem := (rfl)

@[simp] theorem State.lookDeps_wf (s : State) (t : Nat) (h : Memory.wf s.mem = true) : Memory.wf (s.lookDeps t).mem = true := by
  unfold State.lookDeps; (repeat' split) <;> simp [h]

@[simp] theorem State.failDeps_wf (s : State) (h : Memory.wf s.mem = true) : Memory.wf s.failDeps.mem = true :=
  foldl_wf (fun z t hz => State.lookDeps_wf z t hz) _ h

/-! ### Control -/

theorem execCmdw_wf (k : BitVec 3) (a b : Reg) (s : State) (h : Memory.wf s.mem = true) :
    Keeps (execCmdw k a b s) := by simp [execCmdw, h]

theorem execCmdld_wf (k : BitVec 3) (a : Reg) (imm : BitVec 16) (s : State) (h : Memory.wf s.mem = true) :
    Keeps (execCmdld k a imm s) := by
  simp only [execCmdld, keeps_next]
  exact Got.after_wf _ _ _ _ (fun v z hz => by simp [hz]) (by simp [h])

@[simp] theorem State.issue_mem (s : State) (target : Nat) (img : BitVec 128) (viaQ : Bool) : (State.issue s target img viaQ).mem = s.mem := (rfl)

theorem execCmdi_wf (k : BitVec 3) (target : BitVec 12) (s : State) (h : Memory.wf s.mem = true) :
    Keeps (execCmdi k target s) := by simp only [execCmdi]; (repeat' split) <;> simp_all

theorem execCmdq_wf (d a : Reg) (k : BitVec 3) (s : State) (h : Memory.wf s.mem = true) :
    Keeps (execCmdq d a k s) := by simp only [execCmdq]; (repeat' split) <;> simp_all

theorem execTsend_wf (a b : Reg) (box : BitVec 3) (s : State) (h : Memory.wf s.mem = true) :
    Keeps (execTsend a b box s) := by simp only [execTsend]; (repeat' split) <;> simp_all

@[simp] theorem State.receive_mem (s : State) (d : Reg) (b : Nat) (e : InEntry) : (State.receive s d b e).mem = s.mem := (rfl)

theorem execTrecv_wf (d a : Reg) (box : BitVec 3) (s : State) (h : Memory.wf s.mem = true) :
    Keeps (execTrecv d a box s) := by simp only [execTrecv]; (repeat' split) <;> simp_all

theorem execIwait_wf (d a : Reg) (dom : BitVec 2) (s : State) (h : Memory.wf s.mem = true) :
    Keeps (execIwait d a dom s) := by simp only [execIwait]; (repeat' split) <;> simp_all

@[simp] theorem State.barFault_wf (s : State) (a : Reg) (h : Memory.wf s.mem = true) : Memory.wf (s.barFault a).mem = true := by
  simp [State.barFault, h]

@[simp] theorem State.sendArrival_mem (s : State) (home k : Nat) (wait : Bool) : (s.sendArrival home k wait).mem = s.mem := rfl

theorem execBari_wf (a : Reg) (k : BitVec 4) (s : State) (h : Memory.wf s.mem = true) :
    Keeps (execBari a k s) := by simp [execBari, h]

theorem execBara_wf (a : Reg) (k : BitVec 4) (s : State) (h : Memory.wf s.mem = true) :
    Keeps (execBara a k s) := by unfold execBara; (repeat' split) <;> simp_all

theorem execBarw_wf (d a : Reg) (k : BitVec 4) (s : State) (h : Memory.wf s.mem = true) :
    Keeps (execBarw d a k s) := by simp only [execBarw]; (repeat' split) <;> simp_all

theorem execBaraw_wf (d a : Reg) (k : BitVec 4) (s : State) (h : Memory.wf s.mem = true) :
    Keeps (execBaraw d a k s) := by unfold execBaraw; (repeat' split) <;> simp_all

theorem execSig_wf (d a b : Reg) (s : State) (h : Memory.wf s.mem = true) :
    Keeps (execSig d a b s) := by simp [execSig, h]

@[simp] theorem State.spawn_wf (s : State) (d : Reg) (b : List Byte) (h : Memory.wf s.mem = true) : Memory.wf (s.spawn d b).mem = true := by
  unfold State.spawn; dsimp only; split <;> simp [h]

theorem execSpawn_wf (d a : Reg) (s : State) (h : Memory.wf s.mem = true) : Keeps (execSpawn d a s) := by
  simp only [execSpawn, keeps_next]
  exact Got.after_wf _ _ _ _ (fun v z hz => by simp [hz]) (by simp [h])

theorem execJoin_wf (d a : Reg) (s : State) (h : Memory.wf s.mem = true) :
    Keeps (execJoin d a s) := by simp only [execJoin]; (repeat' split) <;> simp_all

theorem execTrap_wf (code : BitVec 12) (s : State) (h : Memory.wf s.mem = true) :
    Keeps (execTrap code s) := by simp [execTrap, h]

theorem execBrk_wf (code : BitVec 12) (s : State) (h : Memory.wf s.mem = true) :
    Keeps (execBrk code s) := by simp [execBrk, h]

theorem execTret_wf (s : State) (h : Memory.wf s.mem = true) :
    Keeps (execTret s) := by unfold execTret; (repeat' split) <;> simp_all

theorem execYield_wf (s : State) (h : Memory.wf s.mem = true) :
    Keeps (execYield s) := by simp [execYield, h]

theorem execIllegalInstruction_wf (word : BitVec 32) (s : State) (h : Memory.wf s.mem = true) :
    Keeps (execIllegalInstruction word s) := by simp [execIllegalInstruction, h]

theorem execInstructionFetchFault_wf (translation : Bool) (s : State) (h : Memory.wf s.mem = true) :
    Keeps (execInstructionFetchFault translation s) := by simp [execInstructionFetchFault, h]

theorem execWatchdog_wf (core : Nat) (s : State) (h : Memory.wf s.mem = true) :
    Keeps (execWatchdog core s) := by simp only [execWatchdog]; (repeat' split) <;> simp_all

theorem execHostServiceAnswer_wf (core : Nat) (answer : BitVec 64) (s : State) (h : Memory.wf s.mem = true) :
    Keeps (execHostServiceAnswer core answer s) := by unfold execHostServiceAnswer; (repeat' split) <;> simp_all

@[simp] theorem State.mapPages_wf (s : State) (l : List (Nat × BitVec 64)) (h : Memory.wf s.mem = true) :
    Memory.wf (s.mapPages l).mem = true := by
  induction l generalizing s with
  | nil => exact h
  | cons x t ih => exact ih _ (by simp [h])

theorem execSystemSoftwarePageAnswer_wf (core : Nat) (answer : Option (List (Nat × BitVec 64))) (s : State) (h : Memory.wf s.mem = true) :
    Keeps (execSystemSoftwarePageAnswer core answer s) := by unfold execSystemSoftwarePageAnswer; (repeat' split) <;> simp_all

@[simp] theorem State.pendTurn_mem (s : State) : (State.pendTurn s).mem = s.mem := by unfold State.pendTurn; simp only []; (repeat' split) <;> simp_all

end Sys2Proof.Machine
end

