-- ==== Sys2Proof/Laws/FormNodes.lean ====
section
/-!
SUPPORT. Memory keeps its canonical form: one lemma for each operation of the node instructions. An operation that stores nothing
leaves memory equal; one that stores keeps the form.
-/

namespace Sys2Proof.Machine

/-! ### Sync -/



/-! ### Trans -/



/-! ### Atoms -/

theorem execAadd_wf (r : NodeRec) (s : State) (h : Memory.wf s.mem = true) :
    Keeps (execAadd r s) := by simp [execAadd, h]

theorem execAsub_wf (r : NodeRec) (s : State) (h : Memory.wf s.mem = true) :
    Keeps (execAsub r s) := by simp [execAsub, h]

theorem execAhad_wf (r : NodeRec) (s : State) (h : Memory.wf s.mem = true) :
    Keeps (execAhad r s) := by simp [execAhad, h]

theorem execAmax_wf (r : NodeRec) (s : State) (h : Memory.wf s.mem = true) :
    Keeps (execAmax r s) := by simp [execAmax, h]

theorem execAmin_wf (r : NodeRec) (s : State) (h : Memory.wf s.mem = true) :
    Keeps (execAmin r s) := by simp [execAmin, h]

theorem execAsel_wf (r : NodeRec) (s : State) (h : Memory.wf s.mem = true) :
    Keeps (execAsel r s) := by simp [execAsel, h]

theorem execAfma_wf (r : NodeRec) (s : State) (h : Memory.wf s.mem = true) :
    Keeps (execAfma r s) := by simp [execAfma, h]

theorem execAneg_wf (r : NodeRec) (s : State) (h : Memory.wf s.mem = true) :
    Keeps (execAneg r s) := by simp [execAneg, h]

theorem execAabs_wf (r : NodeRec) (s : State) (h : Memory.wf s.mem = true) :
    Keeps (execAabs r s) := by simp [execAabs, h]

theorem execArelu_wf (r : NodeRec) (s : State) (h : Memory.wf s.mem = true) :
    Keeps (execArelu r s) := by simp [execArelu, h]

theorem execAscl_wf (r : NodeRec) (s : State) (h : Memory.wf s.mem = true) :
    Keeps (execAscl r s) := by simp [execAscl, h]

theorem execAmask_wf (r : NodeRec) (s : State) (h : Memory.wf s.mem = true) :
    Keeps (execAmask r s) := by simp [execAmask, h]

theorem execAclmp_wf (r : NodeRec) (s : State) (h : Memory.wf s.mem = true) :
    Keeps (execAclmp r s) := by simp [execAclmp, h]

theorem execAexp2_wf (r : NodeRec) (s : State) (h : Memory.wf s.mem = true) :
    Keeps (execAexp2 r s) := by simp [execAexp2, h]

theorem execAlog2_wf (r : NodeRec) (s : State) (h : Memory.wf s.mem = true) :
    Keeps (execAlog2 r s) := by simp [execAlog2, h]

theorem execArcp_wf (r : NodeRec) (s : State) (h : Memory.wf s.mem = true) :
    Keeps (execArcp r s) := by simp [execArcp, h]

theorem execArsq_wf (r : NodeRec) (s : State) (h : Memory.wf s.mem = true) :
    Keeps (execArsq r s) := by simp [execArsq, h]

theorem execAsqrt_wf (r : NodeRec) (s : State) (h : Memory.wf s.mem = true) :
    Keeps (execAsqrt r s) := by simp [execAsqrt, h]

theorem execAtanh_wf (r : NodeRec) (s : State) (h : Memory.wf s.mem = true) :
    Keeps (execAtanh r s) := by simp [execAtanh, h]

theorem execAsigm_wf (r : NodeRec) (s : State) (h : Memory.wf s.mem = true) :
    Keeps (execAsigm r s) := by simp [execAsigm, h]

theorem execAren_wf (r : NodeRec) (s : State) (h : Memory.wf s.mem = true) :
    Keeps (execAren r s) := by simp [execAren, h]

theorem execEnc_wf (r : NodeRec) (s : State) (h : Memory.wf s.mem = true) :
    Keeps (execEnc r s) := by simp [execEnc, h]

theorem execDec_wf (r : NodeRec) (s : State) (h : Memory.wf s.mem = true) :
    Keeps (execDec r s) := by simp [execDec, h]

theorem execAnrm_wf (r : NodeRec) (s : State) (h : Memory.wf s.mem = true) :
    Keeps (execAnrm r s) := by simp [execAnrm, h]

theorem execAlsum_wf (r : NodeRec) (s : State) (h : Memory.wf s.mem = true) :
    Keeps (execAlsum r s) := by simp [execAlsum, h]

theorem execAdotP_wf (r : NodeRec) (s : State) (h : Memory.wf s.mem = true) :
    Keeps (execAdotP r s) := by simp [execAdotP, h]

theorem execAmaxr_wf (r : NodeRec) (s : State) (h : Memory.wf s.mem = true) :
    Keeps (execAmaxr r s) := by simp [execAmaxr, h]

theorem execAdotW_wf (r : NodeRec) (s : State) (h : Memory.wf s.mem = true) : Keeps (execAdotW r s) := by
  simp only [execAdotW, keeps_next]
  refine State.fireWith_wf _ _ _ _ _ (fun z n i q hz e => ?_) h
  split at e
  · simp at e
  · cases e; exact hz

theorem execAdott_wf (r : NodeRec) (s : State) (h : Memory.wf s.mem = true) : Keeps (execAdott r s) := by
  simp only [execAdott, keeps_next]
  refine State.fireWith_wf _ _ _ _ _ (fun z n i q hz e => ?_) h
  simp only [Option.map_eq_some_iff] at e
  obtain ⟨w, _, rfl⟩ := e
  exact hz

theorem execAoutr_wf (r : NodeRec) (s : State) (h : Memory.wf s.mem = true) :
    Keeps (execAoutr r s) := by simp [execAoutr, h]

/-! ### ControlNodes -/

theorem execPass_wf (r : NodeRec) (s : State) (h : Memory.wf s.mem = true) :
    Keeps (execPass r s) := by simp [execPass, h]

theorem srcReact_wf (s : State) (n : Node) (i : Ins) (r : State × React) (h : Memory.wf s.mem = true) (e : (srcReact s n i) = some r) :
    Memory.wf r.1.mem = true := by unfold srcReact at e; dsimp only at e; (repeat' split at e) <;> first | (cases e; simp [h]) | simp at e

theorem execSrc_wf (r : NodeRec) (s : State) (h : Memory.wf s.mem = true) :
    Keeps (execSrc r s) := by simp only [execSrc, keeps_next]; exact State.fireWith_wf _ _ _ _ _ (fun z n i q hz e => srcReact_wf z n i q hz e) h

theorem sinkReact_wf (s : State) (n : Node) (i : Ins) (r : State × React) (h : Memory.wf s.mem = true) (e : (sinkReact s n i) = some r) :
    Memory.wf r.1.mem = true := by simp only [sinkReact] at e; (repeat' split at e) <;> (try cases e) <;> simp_all

theorem execSink_wf (r : NodeRec) (s : State) (h : Memory.wf s.mem = true) :
    Keeps (execSink r s) := by simp only [execSink, keeps_next]; exact State.fireWith_wf _ _ _ _ _ (fun z n i q hz e => sinkReact_wf z n i q hz e) h

theorem esinkReact_wf (s : State) (n : Node) (i : Ins) (r : State × React) (h : Memory.wf s.mem = true)
    (e : esinkReact s n i = some r) : Memory.wf r.1.mem = true := by
  unfold esinkReact at e
  dsimp only at e
  (repeat' split at e) <;> simp only [Option.some.injEq] at e <;> subst e <;> simp [h]

theorem execEsink_wf (r : NodeRec) (s : State) (h : Memory.wf s.mem = true) :
    Keeps (execEsink r s) := by simp only [execEsink, keeps_next]; exact State.fireWith_wf _ _ _ _ _ (fun z n i q hz e => esinkReact_wf z n i q hz e) h

theorem execSteer_wf (r : NodeRec) (s : State) (h : Memory.wf s.mem = true) :
    Keeps (execSteer r s) := by simp [execSteer, h]

theorem execWhen_wf (r : NodeRec) (s : State) (h : Memory.wf s.mem = true) :
    Keeps (execWhen r s) := by simp [execWhen, h]

theorem execFilter_wf (r : NodeRec) (s : State) (h : Memory.wf s.mem = true) :
    Keeps (execFilter r s) := by simp [execFilter, h]

theorem execOmerge_wf (r : NodeRec) (s : State) (h : Memory.wf s.mem = true) :
    Keeps (execOmerge r s) := by simp only [execOmerge]; (repeat' split) <;> simp_all

theorem execPmerge_wf (r : NodeRec) (s : State) (h : Memory.wf s.mem = true) :
    Keeps (execPmerge r s) := by simp [execPmerge, h]

theorem execPres_wf (r : NodeRec) (s : State) (h : Memory.wf s.mem = true) :
    Keeps (execPres r s) := by simp [execPres, h]

theorem execDflt_wf (r : NodeRec) (s : State) (h : Memory.wf s.mem = true) :
    Keeps (execDflt r s) := by simp [execDflt, h]

theorem execPre_wf (r : NodeRec) (s : State) (h : Memory.wf s.mem = true) :
    Keeps (execPre r s) := by simp [execPre, h]

theorem execSync_wf (r : NodeRec) (s : State) (h : Memory.wf s.mem = true) :
    Keeps (execSync r s) := by unfold execSync; (repeat' split) <;> simp_all

theorem execRepl_wf (r : NodeRec) (s : State) (h : Memory.wf s.mem = true) :
    Keeps (execRepl r s) := by simp [execRepl, h]

theorem execLevel_wf (r : NodeRec) (s : State) (h : Memory.wf s.mem = true) :
    Keeps (execLevel r s) := by simp [execLevel, h]

theorem execCnt_wf (r : NodeRec) (s : State) (h : Memory.wf s.mem = true) :
    Keeps (execCnt r s) := by simp [execCnt, h]

theorem execIsect_wf (r : NodeRec) (s : State) (h : Memory.wf s.mem = true) :
    Keeps (execIsect r s) := by simp [execIsect, h]

theorem execUnion_wf (r : NodeRec) (s : State) (h : Memory.wf s.mem = true) :
    Keeps (execUnion r s) := by simp [execUnion, h]

theorem execIrng_wf (r : NodeRec) (s : State) (h : Memory.wf s.mem = true) :
    Keeps (execIrng r s) := by simp [execIrng, h]

theorem execIadd_wf (r : NodeRec) (s : State) (h : Memory.wf s.mem = true) :
    Keeps (execIadd r s) := by simp [execIadd, h]

theorem execIsub_wf (r : NodeRec) (s : State) (h : Memory.wf s.mem = true) :
    Keeps (execIsub r s) := by simp [execIsub, h]

theorem execImul_wf (r : NodeRec) (s : State) (h : Memory.wf s.mem = true) :
    Keeps (execImul r s) := by simp [execImul, h]

theorem execIlog_wf (r : NodeRec) (s : State) (h : Memory.wf s.mem = true) :
    Keeps (execIlog r s) := by simp [execIlog, h]

theorem execIshf_wf (r : NodeRec) (s : State) (h : Memory.wf s.mem = true) :
    Keeps (execIshf r s) := by simp [execIshf, h]

theorem execIcmp_wf (r : NodeRec) (s : State) (h : Memory.wf s.mem = true) :
    Keeps (execIcmp r s) := by simp [execIcmp, h]

theorem execPlog_wf (r : NodeRec) (s : State) (h : Memory.wf s.mem = true) :
    Keeps (execPlog r s) := by simp [execPlog, h]

theorem execIhash_wf (r : NodeRec) (s : State) (h : Memory.wf s.mem = true) :
    Keeps (execIhash r s) := by simp [execIhash, h]

/-! ### AccNodes -/

theorem execAcc_wf (r : NodeRec) (s : State) (h : Memory.wf s.mem = true) :
    Keeps (execAcc r s) := by simp [execAcc, h]

theorem execAccF_wf (r : NodeRec) (s : State) (h : Memory.wf s.mem = true) :
    Keeps (execAccF r s) := by simp [execAccF, h]

theorem execAcck_wf (r : NodeRec) (s : State) (h : Memory.wf s.mem = true) :
    Keeps (execAcck r s) := by simp [execAcck, h]

@[simp] theorem State.portFault_wf (s : State) (p id : Nat) (n : Node) (code kind addr : Nat) (localBank : Bool) (idx : List Nat) (h : Memory.wf s.mem = true) :
    Memory.wf (State.portFault s p id n code kind addr localBank idx).mem = true := by simp [State.portFault, h]

@[simp] theorem State.amaxUpdate_wf (s : State) (p id : Nat) (n : Node) (k : Nat) (v : List Acc) (h : Memory.wf s.mem = true) :
    Memory.wf (State.amaxUpdate s p id n k v).mem = true := by unfold State.amaxUpdate; dsimp only; split <;> simp [h]

theorem drainBeside_wf (s : State) (held : List Held) (n : Node) (i : Ins) (r : State × React) (h : Memory.wf s.mem = true)
    (e : drainBeside s held n i = some r) : Memory.wf r.1.mem = true := by
  simp only [drainBeside] at e; (repeat' split at e) <;> (try cases e) <;> simp_all

theorem drainReact_wf (s : State) (n : Node) (i : Ins) (r : State × React) (h : Memory.wf s.mem = true) (e : (drainReact s n i) = some r) :
    Memory.wf r.1.mem = true := by
  obtain ⟨held, -, e⟩ := Option.bind_eq_some_iff.mp e
  exact drainBeside_wf s held n i r h e

theorem execDrain_wf (r : NodeRec) (s : State) (h : Memory.wf s.mem = true) :
    Keeps (execDrain r s) := by simp only [execDrain, keeps_next]; exact State.fireWith_wf _ _ _ _ _ (fun z n i q hz e => drainReact_wf z n i q hz e) h

theorem execDlyb_wf (r : NodeRec) (s : State) (h : Memory.wf s.mem = true) :
    Keeps (execDlyb r s) := by simp [execDlyb, h]

theorem execConv_wf (r : NodeRec) (s : State) (h : Memory.wf s.mem = true) :
    Keeps (execConv r s) := by simp [execConv, h]

/-! ### MemPorts -/

@[simp] theorem State.handOver_mem (s : State) (p id : Nat) (n : Node) (level : Nat) : (State.handOver s p id n level).1.mem = s.mem := by unfold State.handOver; simp only []; (repeat' split) <;> simp_all

@[simp] theorem State.touchAll_wf (s : State) (p : Nat) (offs : List Nat) (h : Memory.wf s.mem = true) :
    Memory.wf (s.touchAll p offs).mem = true := foldl_wf (fun z _ hz => State.touch_wf z _ _ hz) _ h

@[simp] theorem State.cure_mem (s : State) (ranges : List (Nat × Nat)) : (State.cure s ranges).mem = s.mem := (rfl)

@[simp] theorem State.writeElems_wf (s : State) (p w : Nat) (offs : List Nat) (bytes : List Byte)
    (h : Memory.wf s.mem = true) : Memory.wf (s.writeElems p w offs bytes).mem = true := by
  simp only [State.writeElems, State.cure_mem]
  exact foldl_wf (fun z x hz => by simp [hz]) _ h

/-! ### MemNodes -/

@[simp] theorem State.writeRest_wf (s : State) (p w : Nat) (n : Node) (offs : List Nat) (bytes : List Byte)
    (h : Memory.wf s.mem = true) : Memory.wf (s.writeRest p w n offs bytes).mem = true := by simp [State.writeRest, h]

theorem mrdReact_wf (s : State) (n : Node) (i : Ins) (r : State × React) (h : Memory.wf s.mem = true) (e : (mrdReact s n i) = some r) :
    Memory.wf r.1.mem = true := by unfold mrdReact at e; dsimp only at e; (repeat' split at e) <;> first | (cases e; simp [h]) | simp at e

theorem execMrd_wf (r : NodeRec) (s : State) (h : Memory.wf s.mem = true) :
    Keeps (execMrd r s) := by simp only [execMrd, keeps_next]; exact State.fireWith_wf _ _ _ _ _ (fun z n i q hz e => mrdReact_wf z n i q hz e) h

theorem mwrData_wf (s : State) (n : Node) (b : Burst) (r : State × React) (h : Memory.wf s.mem = true) (e : (mwrData s n b) = some r) :
    Memory.wf r.1.mem = true := by
  unfold mwrData at e
  have hz : ∀ offs l w, Memory.wf ((s.touchAll s.here offs).writeRest s.here w n l (bytesOfBurst b)).mem = true := fun offs l w => by simp [h]
  dsimp only at e
  (repeat' split at e) <;> first | (cases e; simp [h, hz]) | simp at e

theorem mwrReact_wf (s : State) (n : Node) (i : Ins) (r : State × React) (h : Memory.wf s.mem = true)
    (e : mwrReact s n i = some r) : Memory.wf r.1.mem = true := by
  unfold mwrReact at e
  dsimp only at e
  split at e
  · cases e; exact h
  · split at e
    · exact mwrData_wf _ _ _ _ h e
    · cases e; simp [h]

theorem execMwr_wf (r : NodeRec) (s : State) (h : Memory.wf s.mem = true) :
    Keeps (execMwr r s) := by simp only [execMwr, keeps_next]; exact State.fireWith_wf _ _ _ _ _ (fun z n i q hz e => mwrReact_wf z n i q hz e) h

theorem mirdReact_wf (s : State) (n : Node) (i : Ins) (r : State × React) (h : Memory.wf s.mem = true) (e : (mirdReact s n i) = some r) :
    Memory.wf r.1.mem = true := by simp only [mirdReact] at e; (repeat' split at e) <;> (try cases e) <;> simp_all

theorem execMird_wf (r : NodeRec) (s : State) (h : Memory.wf s.mem = true) :
    Keeps (execMird r s) := by simp only [execMird, keeps_next]; exact State.fireWith_wf _ _ _ _ _ (fun z n i q hz e => mirdReact_wf z n i q hz e) h

theorem indexedWrite_wf (f : State → Node → List Nat → Burst → State × Node × Nat)
    (hf : ∀ z n o a, Memory.wf z.mem = true → Memory.wf (f z n o a).1.mem = true) (s : State) (n : Node) (i : Ins)
    (r : State × React) (h : Memory.wf s.mem = true) (e : indexedWrite f s n i = some r) : Memory.wf r.1.mem = true := by
  unfold indexedWrite at e
  dsimp only at e
  (repeat' split at e) <;> first | (cases e; simp [h, hf]) | simp at e

theorem miwrCore_wf (s : State) (n : Node) (offs : List Nat) (a : Burst) (h : Memory.wf s.mem = true) :
    Memory.wf (miwrCore s n offs a).1.mem = true := by
  simp [miwrCore, h]

theorem execMiwr_wf (r : NodeRec) (s : State) (h : Memory.wf s.mem = true) : Keeps (execMiwr r s) := by
  simp only [execMiwr, keeps_next]
  exact State.fireWith_wf _ _ _ _ _ (fun z n i q hz e => indexedWrite_wf _ miwrCore_wf z n i q hz e) h

theorem rmwStep_wf (w : Nat) (beta : Int) (z : Rmw) (x : (Nat × List Byte) × Nat) (h : Memory.wf z.s.mem = true) :
    Memory.wf (rmwStep w beta z x).s.mem = true := by
  unfold rmwStep
  dsimp only
  (repeat' split) <;> simp [h]

theorem mrmwRun_wf (s : State) (n : Node) (offs : List Nat) (a : Burst) (most : Nat) (h : Memory.wf s.mem = true) :
    Memory.wf (mrmwRun s n offs a most).s.mem = true := by
  unfold mrmwRun
  dsimp only
  generalize hz : Rmw.mk s n (n.part.drop 1) (n.part.headD 0) = z
  have : Memory.wf z.s.mem = true := by subst hz; exact h
  clear hz
  induction ((List.zip offs (chunk (portWidth n.rcd.fmt.toNat) (bytesOfBurst a))).zipIdx.drop n.prog).take most generalizing z with
  | nil => exact this
  | cons x t ih => exact ih _ (rmwStep_wf _ _ _ _ this)

theorem mrmwCore_wf (s : State) (n : Node) (offs : List Nat) (a : Burst) (h : Memory.wf s.mem = true) :
    Memory.wf (mrmwCore s n offs a).1.mem = true := mrmwRun_wf s n offs a offs.length h

theorem execMrmw_wf (r : NodeRec) (s : State) (h : Memory.wf s.mem = true) : Keeps (execMrmw r s) := by
  simp only [execMrmw, keeps_next]
  exact State.fireWith_wf _ _ _ _ _ (fun z n i q hz e => indexedWrite_wf _ mrmwCore_wf z n i q hz e) h

@[simp] theorem State.holdPort_wf (s : State) (n : Node) (code kind va : Nat) (h : Memory.wf s.mem = true) :
    Memory.wf (State.holdPort s n code kind va).1.mem = true := by simp [State.holdPort, h]

theorem globalElem_wf (write : Bool) (w : Nat) (bytes : List Byte) (z : Walkr) (j : Nat) (h : Memory.wf z.s.mem = true) :
    Memory.wf (globalElem write w bytes z j).s.mem = true := by
  unfold globalElem
  split
  · exact h
  · dsimp only
    have ht := State.translate_mem z.s z.s.here (z.s.partOf z.s.here) (z.node.pattern.at z.node.pos)
      (if write = true then .write else .read) z.s.slot
    generalize z.s.translate z.s.here (z.s.partOf z.s.here) (z.node.pattern.at z.node.pos)
      (if write = true then .write else .read) z.s.slot = x at ht ⊢
    obtain ⟨v, y⟩ := x
    have hy : Memory.wf y.mem = true := by rw [show y.mem = z.s.mem from ht]; exact h
    cases v with
    | wait => exact hy
    | done x =>
      cases x with
      | ok pa pte =>
        dsimp only
        split
        · split
          · exact hy
          · next y2 e =>
            have hz : Memory.wf y2.mem = true := by
              split at e
              · exact State.cowBefore_wf _ _ _ _ _ hy e
              · cases e; exact hy
            simp [hz]
        · dsimp only
          split <;> simp [hy]
      | _ => simp [hy]

theorem globalElems_wf (write : Bool) (w : Nat) (bytes : List Byte) (l : List Nat) (z : Walkr)
    (h : Memory.wf z.s.mem = true) : Memory.wf (l.foldl (globalElem write w bytes) z).s.mem = true := by
  induction l generalizing z with
  | nil => exact h
  | cons x t ih => exact ih _ (globalElem_wf _ _ _ _ _ h)

@[simp] theorem mgldReact_wf (s : State) (n : Node) (i : Ins) (h : Memory.wf s.mem = true) :
    Memory.wf (mgldReact s n i).1.mem = true := by
  unfold mgldReact
  split
  · exact h
  · have hz := globalElems_wf false (portWidth n.rcd.fmt.toNat) []
      (List.range (min (perBurst n.rcd) (n.pattern.total - (n.pos - n.prog)))) { s := s, node := n, stuck := false } h
    dsimp only
    (repeat' split) <;> simp [hz]

theorem execMgld_wf (r : NodeRec) (s : State) (h : Memory.wf s.mem = true) :
    Keeps (execMgld r s) := by simp only [execMgld, keeps_next]; exact State.fireSlow_wf _ _ _ _ _ (fun z n i hz => by simp [hz]) h

@[simp] theorem mgstReact_wf (s : State) (n : Node) (i : Ins) (h : Memory.wf s.mem = true) :
    Memory.wf (mgstReact s n i).1.mem = true := by
  unfold mgstReact
  dsimp only
  (repeat' split) <;> simp [globalElems_wf, h]

theorem execMgst_wf (r : NodeRec) (s : State) (h : Memory.wf s.mem = true) :
    Keeps (execMgst r s) := by simp only [execMgst, keeps_next]; exact State.fireSlow_wf _ _ _ _ _ (fun z n i hz => by simp [hz]) h

@[simp] theorem mgrpReact_mem (s : State) (n : Node) (i : Ins) : (mgrpReact s n i).1.mem = s.mem := by unfold mgrpReact; simp only []; (repeat' split) <;> simp_all

theorem execMgrp_wf (r : NodeRec) (s : State) (h : Memory.wf s.mem = true) :
    Keeps (execMgrp r s) := by simp only [execMgrp, keeps_next]; exact State.fireSlow_wf _ _ _ _ _ (fun z n i hz => by simp [hz]) h

@[simp] theorem State.fifoPush_wf (s : State) (p : Nat) (m : MemMode) (n : Node) (b : Burst) (h : Memory.wf s.mem = true) :
    Memory.wf (s.fifoPush p m n b).1.mem = true := by
  unfold State.fifoPush
  dsimp only
  split
  · exact h
  · exact foldl_wf (fun z x hz => by simp [hz]) _ (by simp [h])

@[simp] theorem mfifoReact_wf (s : State) (n : Node) (i : Ins) (h : Memory.wf s.mem = true) :
    Memory.wf (mfifoReact s n i).1.mem = true := by
  unfold mfifoReact
  dsimp only
  split
  · exact h
  · have hz : ∀ offs, Memory.wf (s.touchAll s.here offs).mem = true := fun offs => by simp [h]
    (repeat' split) <;> simp [hz]

theorem execMfifo_wf (r : NodeRec) (s : State) (h : Memory.wf s.mem = true) :
    Keeps (execMfifo r s) := by simp only [execMfifo, keeps_next]; exact State.fireEarlyS_wf _ _ _ _ _ (fun z n i hz => by simp [hz]) h

theorem mlineReact_wf (s : State) (n : Node) (i : Ins) (r : State × React) (h : Memory.wf s.mem = true) (e : (mlineReact s n i) = some r) :
    Memory.wf r.1.mem = true := by simp only [mlineReact] at e; (repeat' split at e) <;> (try cases e) <;> simp_all

theorem execMline_wf (r : NodeRec) (s : State) (h : Memory.wf s.mem = true) :
    Keeps (execMline r s) := by simp only [execMline, keeps_next]; exact State.fireWith_wf _ _ _ _ _ (fun z n i q hz e => mlineReact_wf z n i q hz e) h

/-! ### Links -/

@[simp] theorem State.modPort_mem (s : State) (p : Nat) (f : Port → Port) : (State.modPort s p f).mem = s.mem := (rfl)

@[simp] theorem State.portFails_wf (s : State) (p : Nat) (h : Memory.wf s.mem = true) :
    Memory.wf (s.portFails p).mem = true := by
  unfold State.portFails
  dsimp only
  split
  · exact h
  · refine foldl_wf (fun z t hz => ?_) _ h
    split <;> simp [hz]

@[simp] theorem State.askReplay_wf (s : State) (p : Nat) (h : Memory.wf s.mem = true) :
    Memory.wf (State.askReplay s p).mem = true := by unfold State.askReplay; dsimp only; (repeat' split) <;> simp [h]

theorem execDataFlitReceive_wf (port : Nat) (flit : BitVec 512) (damaged : Bool) (s : State) (h : Memory.wf s.mem = true) :
    Keeps (execDataFlitReceive port flit damaged s) := by unfold execDataFlitReceive; dsimp only; (repeat' split) <;> simp [h]

theorem execAckReceive_wf (port : Nat) (flit : BitVec 512) (s : State) (h : Memory.wf s.mem = true) :
    Keeps (execAckReceive port flit s) := by simp [execAckReceive, h]

theorem execReplayRequestReceive_wf (port : Nat) (flit : BitVec 512) (s : State) (h : Memory.wf s.mem = true) :
    Keeps (execReplayRequestReceive port flit s) := by unfold execReplayRequestReceive; dsimp only; (repeat' split) <;> simp [h]

theorem execCreditReceive_wf (port : Nat) (flit : BitVec 512) (s : State) (h : Memory.wf s.mem = true) :
    Keeps (execCreditReceive port flit s) := by simp [execCreditReceive, h]

theorem execUnknownFlitTypeReceive_wf (port : Nat) (flit : BitVec 512) (s : State) (h : Memory.wf s.mem = true) :
    Keeps (execUnknownFlitTypeReceive port flit s) := by simp [execUnknownFlitTypeReceive, h]

theorem execPortDown_wf (port : Nat) (s : State) (h : Memory.wf s.mem = true) :
    Keeps (execPortDown port s) := by simp [execPortDown, h]

theorem execPortRetrain_wf (port : Nat) (s : State) (h : Memory.wf s.mem = true) :
    Keeps (execPortRetrain port s) := by simp [execPortRetrain, h]

/-! ### LinkNodes -/

theorem ltxReact_wf (s : State) (n : Node) (i : Ins) (r : State × React) (h : Memory.wf s.mem = true) (e : (ltxReact s n i) = some r) :
    Memory.wf r.1.mem = true := by unfold ltxReact at e; dsimp only at e; (repeat' split at e) <;> first | (cases e; simp [h]) | simp at e

theorem execLtx_wf (r : NodeRec) (s : State) (h : Memory.wf s.mem = true) :
    Keeps (execLtx r s) := by simp only [execLtx, keeps_next]; exact State.fireWith_wf _ _ _ _ _ (fun z n i q hz e => ltxReact_wf z n i q hz e) h

theorem lrxReact_wf (s : State) (n : Node) (i : Ins) (r : State × React) (h : Memory.wf s.mem = true) (e : (lrxReact s n i) = some r) :
    Memory.wf r.1.mem = true := by unfold lrxReact at e; dsimp only at e; (repeat' split at e) <;> first | (cases e; simp [h]) | simp at e

theorem execLrx_wf (r : NodeRec) (s : State) (h : Memory.wf s.mem = true) :
    Keeps (execLrx r s) := by simp only [execLrx, keeps_next]; exact State.fireWith_wf _ _ _ _ _ (fun z n i q hz e => lrxReact_wf z n i q hz e) h

theorem execRed2_wf (r : NodeRec) (s : State) (h : Memory.wf s.mem = true) :
    Keeps (execRed2 r s) := by simp [execRed2, h]

theorem execSreq_wf (r : NodeRec) (s : State) (h : Memory.wf s.mem = true) :
    Keeps (execSreq r s) := by simp [execSreq, h]

theorem execStatw_wf (r : NodeRec) (s : State) (h : Memory.wf s.mem = true) :
    Keeps (execStatw r s) := by simp [execStatw, h]

end Sys2Proof.Machine
end

