-- ==== Sys2Proof/Laws/FormCommands.lean ====
section
/-!
SUPPORT. Memory keeps its canonical form: one lemma for each operation of the commands. An operation that stores nothing
leaves memory equal; one that stores keeps the form.
-/

namespace Sys2Proof.Machine

/-! ### Guard -/

theorem execBoundaryDrop_wf (core route : Nat) (s : State) (h : Memory.wf s.mem = true) :
    Keeps (execBoundaryDrop core route s) := by simp [execBoundaryDrop, h]

/-! ### Loader -/

@[simp] theorem State.configure_mem (s : State) (k p : Nat) (g : Cfg) : (State.configure s k p g).mem = s.mem := (rfl)

@[simp] theorem State.dropWheels_mem (s : State) (k : Nat) : (s.dropWheels k).mem = s.mem := by unfold State.dropWheels; (repeat' split) <;> rfl

@[simp] theorem State.configureAll_mem (s : State) (k : Nat) (kept : Tab Cfg) (ident : BitVec 256) (image : BitVec 64) (doms : Nat) : (State.configureAll s k kept ident image doms).mem = s.mem := by unfold State.configureAll; (repeat' split) <;> simp

@[simp] theorem State.clearOverlaps_mem (s : State) (k : Nat) (r : Region) : (State.clearOverlaps s k r).mem = s.mem := by simp [State.clearOverlaps]

@[simp] theorem State.loadFails_wf (s : State) (k : Nat) (f : LoadFail) (h : Memory.wf s.mem = true) :
    Memory.wf (s.loadFails k f).1.mem = true := by
  unfold State.loadFails
  dsimp only
  split <;> simp [h]

@[simp] theorem State.loadBy_wf (s : State) (k : Nat) (read : Nat → Option (List Byte)) (a : BitVec 64)
    (shape : Option (Nat × Nat × Nat)) (h : Memory.wf s.mem = true) : Memory.wf (s.loadBy k read a shape).1.mem = true := by
  unfold State.loadBy
  dsimp only
  (repeat' split) <;> simp [h, State.guardWave_wf]

@[simp] theorem State.loadImage_wf (s : State) (k p : Nat) (a : BitVec 64) (shape : Option (Nat × Nat × Nat)) (h : Memory.wf s.mem = true) :
    Memory.wf (State.loadImage s k p a shape).1.mem = true := by simp [State.loadImage, h]

/-! ### Layout -/



/-! ### Copy -/

theorem cpytReact_wf (s : State) (n : Node) (i : Ins) (r : State × React) (h : Memory.wf s.mem = true) (e : (cpytReact s n i) = some r) :
    Memory.wf r.1.mem = true := by unfold cpytReact at e; dsimp only at e; (repeat' split at e) <;> first | (cases e; simp [h]) | simp at e

theorem execCpyt_wf (r : NodeRec) (s : State) (h : Memory.wf s.mem = true) :
    Keeps (execCpyt r s) := by simp only [execCpyt, keeps_next]; exact State.fireWith_wf _ _ _ _ _ (fun z n i q hz e => cpytReact_wf z n i q hz e) h

@[simp] theorem State.copyLocal_wf (s : State) (q off : Nat) (write : Bool) (h : Memory.wf s.mem = true) :
    Memory.wf (s.copyLocal q off write).2.mem = true := by unfold State.copyLocal; dsimp only; (repeat' split) <;> simp [h]

@[simp] theorem State.copyPlace_wf (s : State) (p : Nat) (a : BitVec 64) (write : Bool) (h : Memory.wf s.mem = true) :
    Memory.wf (s.copyPlace p a write).2.mem = true := by
  unfold State.copyPlace
  cases spaceOf a with
  | global va =>
    dsimp only
    have ht := State.translate_mem s p (s.partOf p) va (if write = true then .write else .read) whoCopy
    generalize s.translate p (s.partOf p) va (if write = true then .write else .read) whoCopy = x at ht ⊢
    obtain ⟨v, y⟩ := x
    have hy : Memory.wf y.mem = true := by rw [show y.mem = s.mem from ht]; exact h
    (repeat' split) <;> (cases ‹(_, y) = _›; first | exact hy | (rename_i e; exact State.cowBefore_wf _ _ _ _ _ hy e))
  | localMem off => simp [h]
  | peer l off => dsimp only; split <;> simp [h]
  | _ => exact h

@[simp] theorem State.copyFault_wf (s : State) (p code kind : Nat) (a : BitVec 64) (h : Memory.wf s.mem = true) :
    Memory.wf (State.copyFault s p code kind a).mem = true := by unfold State.copyFault; dsimp only; (repeat' split) <;> simp [h]

@[simp] theorem Mover.note_s (m : Mover) (v : Option Nat) : (m.note v).s = m.s := rfl

theorem Mover.access_wf (m : Mover) (p : Nat) (a : BitVec 64) (w kind : Nat) (h : Memory.wf m.s.mem = true) :
    Memory.wf (m.access p a w kind).2.s.mem = true := by
  unfold Mover.access
  have hc := State.copyPlace_wf m.s p a (kind != 0) h
  generalize m.s.copyPlace p a (kind != 0) = x at hc ⊢
  obtain ⟨v, z⟩ := x
  cases v <;> dsimp only at hc ⊢ <;> (repeat' split) <;> simp [hc]

theorem Mover.fetch_wf (m : Mover) (p : Nat) (a : BitVec 64) (w : Nat) (h : Memory.wf m.s.mem = true) :
    Memory.wf (m.fetch p a w).2.s.mem = true := by
  unfold Mover.fetch
  have hc := Mover.access_wf m p a w 0 h
  generalize m.access p a w 0 = x at hc ⊢
  obtain ⟨_ | v, z⟩ := x <;> split <;> first | exact h | exact hc

theorem Mover.resident_wf (m : Mover) (p : Nat) (a : BitVec 64) (w : Nat) (h : Memory.wf m.s.mem = true) :
    Memory.wf (m.resident p a w).2.s.mem = true := by
  unfold Mover.resident
  have hc := Mover.access_wf m p a w 2 h
  generalize m.access p a w 2 = x at hc ⊢
  obtain ⟨_ | v, z⟩ := x <;> split <;> first | exact h | exact hc

theorem Mover.write_wf (m : Mover) (p : Nat) (a : BitVec 64) (w bits : Nat) (h : Memory.wf m.s.mem = true) :
    Memory.wf (m.write p a w bits).s.mem = true := by
  unfold Mover.write
  have hc := State.copyPlace_wf m.s p a true h
  generalize m.s.copyPlace p a true = x at hc ⊢
  obtain ⟨v, z⟩ := x
  cases v <;> simp_all

theorem Gather.step_wf (p : Nat) (emits : List (View × Nat)) (g : Gather) (k : Nat) (h : Memory.wf g.m.s.mem = true) :
    Memory.wf (g.step p emits k).m.s.mem = true := by
  unfold Gather.step
  dsimp only
  (repeat' split) <;> first
    | exact h
    | (rename_i e; have := congrArg (fun x => x.2.s.mem) e; dsimp only at this; rw [← this]; exact Mover.fetch_wf _ _ _ _ h)

theorem Gather.steps_wf (p : Nat) (emits : List (View × Nat)) (l : List Nat) (g : Gather) (h : Memory.wf g.m.s.mem = true) :
    Memory.wf (l.foldl (Gather.step p emits) g).m.s.mem = true := by
  induction l generalizing g with
  | nil => exact h
  | cons k t ih => exact ih _ (Gather.step_wf _ _ _ _ h)

theorem Mover.source_wf (p : Nat) (emits : List (View × Nat)) (m : Mover) (k : Nat) (h : Memory.wf m.s.mem = true) :
    Memory.wf (Mover.source p emits m k).2.s.mem = true := by
  unfold Mover.source
  dsimp only
  split
  · exact h
  · split
    · exact h
    · split
      · split
        · exact h
        · next so _ =>
          have hy := Mover.fetch_wf m p (m.job.t.src.base + BitVec.ofInt 64 so) (portWidth m.job.t.dst.fmt) h
          generalize m.fetch p (m.job.t.src.base + BitVec.ofInt 64 so) (portWidth m.job.t.dst.fmt) = y at hy ⊢
          obtain ⟨v, m1⟩ := y
          cases v <;> exact hy
      · generalize hl : List.foldl (Gather.step p _) _ _ = g
        have hg : Memory.wf g.m.s.mem = true := by rw [← hl]; exact Gather.steps_wf _ _ _ _ h
        (repeat' split) <;> exact hg

theorem Mover.step_wf (p : Nat) (emits : List (View × Nat)) (m : Mover) (h : Memory.wf m.s.mem = true) :
    Memory.wf (m.step p emits).s.mem = true := by
  have hk : ∀ x : Mover, Memory.wf x.s.mem = true → Memory.wf x.skip.s.mem = true := fun x hx => hx
  unfold Mover.step
  split
  · exact h
  · dsimp only
    have hs := Mover.source_wf p emits { m with pos := 0 } m.job.done h
    generalize Mover.source p emits { m with pos := 0 } m.job.done = x at hs ⊢
    obtain ⟨v, m1⟩ := x
    cases v with
    | skip => exact hk m1 hs
    | stop => exact hs
    | bits o b => exact Mover.write_wf _ _ _ _ _ hs
    | lanes o v l =>
      dsimp only
      split
      · exact Mover.write_wf _ _ _ _ _ hs
      · have hr := Mover.resident_wf m1 p (m.job.t.dst.base + BitVec.ofInt 64 o) (portWidth m.job.t.dst.fmt) hs
        generalize m1.resident p (m.job.t.dst.base + BitVec.ofInt 64 o) (portWidth m.job.t.dst.fmt) = y at hr ⊢
        obtain ⟨u, m2⟩ := y
        cases u with
        | bits b => exact Mover.write_wf _ _ _ _ _ hr
        | lost => exact hk m2 hr
        | stop => exact hr

/-- Operations of a copy, one after the other, each of which keeps the form. -/
theorem Mover.fold_wf {α : Type} {f : Mover → α → Mover} (hf : ∀ x a, Memory.wf x.s.mem = true → Memory.wf (f x a).s.mem = true)
    (l : List α) (m : Mover) (h : Memory.wf m.s.mem = true) : Memory.wf (l.foldl f m).s.mem = true := by
  induction l generalizing m with
  | nil => exact h
  | cons k t ih => exact ih _ (hf _ _ h)

theorem Mover.ahead_wf (p : Nat) (emits : List (View × Nat)) (m : Mover) (k : Nat) (h : Memory.wf m.s.mem = true) :
    Memory.wf (m.ahead p emits k).s.mem = true := by
  unfold Mover.ahead; split
  · exact h
  · exact Mover.source_wf _ _ _ _ h

theorem Mover.beat_wf (p : Nat) (emits : List (View × Nat)) (m : Mover) (h : Memory.wf m.s.mem = true) :
    Memory.wf (m.beat p emits).s.mem = true := by
  unfold Mover.beat
  split
  · exact h
  · dsimp only
    generalize hr : List.foldl _ ({ m with pos := 0 } : Mover) _ = r
    have h1 : Memory.wf r.s.mem = true := by
      rw [← hr]; exact Mover.fold_wf (fun x i hx => Mover.ahead_wf p emits x _ hx) _ _ h
    split
    · exact h1
    · exact Mover.fold_wf (fun x _ hx => Mover.step_wf _ _ _ hx) _ _ h1

@[simp] theorem CopyJob.run_wf (j : CopyJob) (s : State) (p most : Nat) (h : Memory.wf s.mem = true) :
    Memory.wf (j.run s p most).s.mem = true := Mover.fold_wf (fun x _ hx => Mover.beat_wf _ _ _ hx) _ _ h

@[simp] theorem State.copySome_wf (s : State) (p most : Nat) (h : Memory.wf s.mem = true) : Memory.wf (s.copySome p most).mem = true := by
  unfold State.copySome
  split
  · exact h
  · dsimp only
    split <;> simp [h]

@[simp] theorem State.copyMove_wf (s : State) (p : Nat) (h : Memory.wf s.mem = true) : Memory.wf (s.copyMove p).mem = true :=
  State.copySome_wf _ _ _ h

theorem execCopyStart_wf (core : Nat) (s : State) (h : Memory.wf s.mem = true) :
    Keeps (execCopyStart core s) := by unfold execCopyStart; dsimp only; (repeat' split) <;> simp [h]

theorem execCopyComplete_wf (core : Nat) (s : State) (h : Memory.wf s.mem = true) :
    Keeps (execCopyComplete core s) := by unfold execCopyComplete; dsimp only; (repeat' split) <;> simp [h]

@[simp] theorem State.giveBanks_mem (s : State) (l : List (Nat × Nat)) : (s.giveBanks l).mem = s.mem := by
  induction l generalizing s with
  | nil => rfl
  | cons x t ih =>
    simp only [State.giveBanks, ih]
    split <;> rfl

theorem execEndOfTileDelivery_wf (core : Nat) (s : State) (h : Memory.wf s.mem = true) :
    Keeps (execEndOfTileDelivery core s) := by unfold execEndOfTileDelivery; dsimp only; (repeat' split) <;> simp [h]

/-! ### Commands -/

@[simp] theorem State.popCmd_mem (s : State) (p : Nat) : (State.popCmd s p).mem = s.mem := (rfl)

@[simp] theorem State.cmdDone_mem (s : State) (p : Nat) (result : BitVec 64) : (State.cmdDone s p result).mem = s.mem := by unfold State.cmdDone; (repeat' split) <;> rfl

@[simp] theorem State.cmdReject_mem (s : State) (p code word : Nat) : (State.cmdReject s p code word).mem = s.mem := by unfold State.cmdReject; (repeat' split) <;> rfl

theorem State.runCmd_wf (s : State) (checks : QCmd → List Chk) (act : QCmd → State)
    (ha : ∀ q, Memory.wf (act q).mem = true) (h : Memory.wf s.mem = true) : Keeps (s.runCmd checks act) := by
  unfold State.runCmd
  (repeat' split) <;> simp [ha, h]

@[simp] theorem State.bindPort_mem (s : State) (c : CmdArgs) (left : Nat) (q : QCmd) : (State.bindPort s c left q).mem = s.mem := by unfold State.bindPort; simp only []; (repeat' split) <;> simp_all

theorem execFeed_wf (c : CmdArgs) (s : State) (h : Memory.wf s.mem = true) :
    Keeps (execFeed c s) := by unfold execFeed; exact State.runCmd_wf _ _ _ (fun q => by simp [h]) h

theorem execBindw_wf (c : CmdArgs) (s : State) (h : Memory.wf s.mem = true) :
    Keeps (execBindw c s) := by unfold execBindw; exact State.runCmd_wf _ _ _ (fun q => by simp [h]) h

theorem execRetry_wf (c : CmdArgs) (s : State) (h : Memory.wf s.mem = true) :
    Keeps (execRetry c s) := by unfold execRetry; exact State.runCmd_wf _ _ _ (fun q => by simp [h]) h

@[simp] theorem State.queueToken_mem (s : State) (c : CmdArgs) (b : Burst) : (State.queueToken s c b).mem = s.mem := by simp [State.queueToken]

@[simp] theorem State.queueBlock_wf (s : State) (c : CmdArgs) (a n off level : Nat) (hdr : BitVec 32)
    (h : Memory.wf s.mem = true) : Memory.wf (State.queueBlock s c a n off level hdr).mem = true := by
  unfold State.queueBlock; (repeat' split) <;> simp [h]

theorem execBound_wf (c : CmdArgs) (s : State) (h : Memory.wf s.mem = true) :
    Keeps (execBound c s) := by
  unfold execBound
  exact State.runCmd_wf _ _ _ (fun q => State.queueBlock_wf _ _ _ _ _ _ _ (State.touch_wf _ _ _ h)) h

theorem execSteert_wf (c : CmdArgs) (s : State) (h : Memory.wf s.mem = true) :
    Keeps (execSteert c s) := by unfold execSteert; exact State.runCmd_wf _ _ _ (fun q => by simp [h]) h

theorem execInject_wf (c : CmdArgs) (s : State) (h : Memory.wf s.mem = true) :
    Keeps (execInject c s) := by
  unfold execInject
  have hz := State.touch_wf _ s.here (c.w3.toNat % 2 ^ 22) h
  exact State.runCmd_wf _ _ _ (fun q => wf_ite (State.queueBlock_wf _ _ _ _ _ _ _ (State.touch_wf _ _ _ hz))
    (State.queueBlock_wf _ _ _ _ _ _ _ (State.touch_wf _ _ _ hz))) h

theorem execTarm_wf (c : CmdArgs) (s : State) (h : Memory.wf s.mem = true) :
    Keeps (execTarm c s) := by unfold execTarm; exact State.runCmd_wf _ _ _ (fun q => by (repeat' split) <;> simp [h]) h

theorem execTfire_wf (c : CmdArgs) (s : State) (h : Memory.wf s.mem = true) :
    Keeps (execTfire c s) := by unfold execTfire; exact State.runCmd_wf _ _ _ (fun q => by simp [h]) h

theorem execTdisarm_wf (c : CmdArgs) (s : State) (h : Memory.wf s.mem = true) :
    Keeps (execTdisarm c s) := by unfold execTdisarm; exact State.runCmd_wf _ _ _ (fun q => by simp [h]) h

theorem execCopy_wf (c : CmdArgs) (s : State) (h : Memory.wf s.mem = true) :
    Keeps (execCopy c s) := by unfold execCopy; exact State.runCmd_wf _ _ _ (fun q => by (repeat' split) <;> simp [h]) h

theorem execLxrun_wf (c : CmdArgs) (s : State) (h : Memory.wf s.mem = true) :
    Keeps (execLxrun c s) := by unfold execLxrun; exact State.runCmd_wf _ _ _ (fun q => by (repeat' split) <;> simp [h]) h

theorem execCfgld_wf (c : CmdArgs) (s : State) (h : Memory.wf s.mem = true) :
    Keeps (execCfgld c s) := by unfold execCfgld; exact State.runCmd_wf _ _ _ (fun q => by (repeat' split) <;> simp [h]) h

theorem execCfgq_wf (c : CmdArgs) (s : State) (h : Memory.wf s.mem = true) :
    Keeps (execCfgq c s) := by unfold execCfgq; exact State.runCmd_wf _ _ _ (fun q => by (repeat' split) <;> simp [h]) h

theorem execDomgo_wf (c : CmdArgs) (s : State) (h : Memory.wf s.mem = true) :
    Keeps (execDomgo c s) := by unfold execDomgo; exact State.runCmd_wf _ _ _ (fun q => by (repeat' split) <;> simp [h]) h

theorem execDomstop_wf (c : CmdArgs) (s : State) (h : Memory.wf s.mem = true) :
    Keeps (execDomstop c s) := by unfold execDomstop; exact State.runCmd_wf _ _ _ (fun q => by (repeat' split) <;> simp [h]) h

theorem execWheeldef_wf (c : CmdArgs) (s : State) (h : Memory.wf s.mem = true) :
    Keeps (execWheeldef c s) := by unfold execWheeldef; exact State.runCmd_wf _ _ _ (fun q => by simp [h]) h

theorem execHubrd_wf (c : CmdArgs) (s : State) (h : Memory.wf s.mem = true) : Keeps (execHubrd c s) := by
  unfold execHubrd
  dsimp only
  split
  · simp [h]
  · exact State.runCmd_wf _ _ _ (fun q => by simp [h]) h

theorem execAmxr_wf (c : CmdArgs) (s : State) (h : Memory.wf s.mem = true) :
    Keeps (execAmxr c s) := by unfold execAmxr; exact State.runCmd_wf _ _ _ (fun q => by simp [h]) h

@[simp] theorem State.markCow_wf (s : State) (a : Nat) (on : Bool) (h : Memory.wf s.mem = true) :
    Memory.wf (State.markCow s a on).mem = true := by simp [State.markCow, h]

theorem execCkpt_wf (c : CmdArgs) (s : State) (h : Memory.wf s.mem = true) : Keeps (execCkpt c s) := by
  unfold execCkpt
  refine State.runCmd_wf _ _ _ (fun q => ?_) h
  simp only [State.cmdDone_mem, State.modPart_mem]
  exact foldl_wf (fun z l hz => by simp [hz]) _ (by simp [h])

theorem execCkdrain_wf (c : CmdArgs) (s : State) (h : Memory.wf s.mem = true) :
    Keeps (execCkdrain c s) := by unfold execCkdrain; exact State.runCmd_wf _ _ _ (fun q => by simp [h]) h

theorem execBkey_wf (c : CmdArgs) (s : State) (h : Memory.wf s.mem = true) :
    Keeps (execBkey c s) := by unfold execBkey; exact State.runCmd_wf _ _ _ (fun q => by (repeat' split) <;> simp [h]) h

theorem execLinkcfg_wf (c : CmdArgs) (s : State) (h : Memory.wf s.mem = true) :
    Keeps (execLinkcfg c s) := by unfold execLinkcfg; exact State.runCmd_wf _ _ _ (fun q => by simp [h]) h

theorem execLinkstat_wf (c : CmdArgs) (s : State) (h : Memory.wf s.mem = true) :
    Keeps (execLinkstat c s) := by unfold execLinkstat; exact State.runCmd_wf _ _ _ (fun q => by simp [h]) h

theorem execUnassignedCommandCode_wf (_code : BitVec 8) (_c : CmdArgs) (s : State) (h : Memory.wf s.mem = true) :
    Keeps (execUnassignedCommandCode _code _c s) := by simp [execUnassignedCommandCode, h]

end Sys2Proof.Machine
end

