-- ==== Sys2Proof/Laws/FormEvents.lean ====
section
/-!
SUPPORT. Memory keeps its canonical form: one lemma for each operation of the events. An operation that stores nothing
leaves memory equal; one that stores keeps the form.
-/

namespace Sys2Proof.Machine

/-! ### FabricEvents -/

@[simp] theorem State.domDone_wf (s : State) (k : Nat) (r : Region) (dom : Nat) (d : Dom) (h : Memory.wf s.mem = true) :
    Memory.wf (State.domDone s k r dom d).mem = true := by simp [State.domDone, h]

theorem execDomainInstantEnd_wf (region dom : Nat) (s : State) (h : Memory.wf s.mem = true) :
    Keeps (execDomainInstantEnd region dom s) := by unfold execDomainInstantEnd; (repeat' split) <;> simp_all

@[simp] theorem State.parityRecord_wf (s : State) (q ep : Nat) (hdr : BitVec 32) (h : Memory.wf s.mem = true) :
    Memory.wf (State.parityRecord s q ep hdr).mem = true := by simp [State.parityRecord, h]

theorem execRemoteStatusReceive_wf (core endpoint : Nat) (parityLost : Bool) (s : State) (h : Memory.wf s.mem = true) :
    Keeps (execRemoteStatusReceive core endpoint parityLost s) := by unfold execRemoteStatusReceive; dsimp only; (repeat' split) <;> simp [h]

@[simp] theorem State.cycleRecords_wf (s : State) (r : Region) (dom ctr count : Nat) (b : Bool) (l : List (List Nat)) (h : Memory.wf s.mem = true) :
    Memory.wf (State.cycleRecords s r dom ctr count b l).mem = true := by
  induction l generalizing s b with
  | nil => simpa [State.cycleRecords] using h
  | cons g t ih => simp only [State.cycleRecords]; exact ih _ _ (by simp [h])

@[simp] theorem State.cycleFault_wf (s : State) (k : Nat) (r : Region) (dom : Nat) (h : Memory.wf s.mem = true) :
    Memory.wf (State.cycleFault s k r dom).mem = true := by
  unfold State.cycleFault
  generalize s.cycleOf r dom = c
  generalize r.doms[dom]? = d
  cases c <;> cases d <;> simp [h]

theorem execQuiescenceSample_wf (region : Nat) (s : State) (h : Memory.wf s.mem = true) :
    Keeps (execQuiescenceSample region s) := by
  unfold execQuiescenceSample
  split
  · simpa using h
  · rename_i r _
    have g : ∀ l : List Nat, ∀ z : State, Memory.wf z.mem = true → Memory.wf (l.foldl (fun z i => z.cycleFault region r i) z).mem = true :=
      fun l z hz => foldl_wf (fun z a hz => by simp [hz]) l hz
    dsimp only
    split
    · rw [keeps_next]; exact g _ _ (by simpa using h)
    · simpa using h

theorem execPathClockGate_wf (core tile : Nat) (s : State) (h : Memory.wf s.mem = true) :
    Keeps (execPathClockGate core tile s) := by unfold execPathClockGate; dsimp only; (repeat' split) <;> simp [h]

theorem execBankKeyMove_wf (core bank : Nat) (s : State) (h : Memory.wf s.mem = true) :
    Keeps (execBankKeyMove core bank s) := by unfold execBankKeyMove; dsimp only; (repeat' split) <;> simp [h]

@[simp] theorem State.hubTouchAll_wf (s : State) (p : Nat) (wh : Wheel) (off beats : Nat) (h : Memory.wf s.mem = true) :
    Memory.wf (s.hubTouchAll p wh off beats).mem = true := foldl_wf (fun z i hz => by simp [hz]) _ h

@[simp] theorem State.hubWrite_wf (s : State) (p off : Nat) (c : HubSum) (l : List (Except (Nat × Nat) Beat)) (h : Memory.wf s.mem = true) :
    Memory.wf (State.hubWrite s p off c l).1.mem = true := by
  induction l generalizing s off c with
  | nil => simpa [State.hubWrite] using h
  | cons x t ih => cases x <;> simp only [State.hubWrite] <;> exact ih _ _ _ (by simp [h])

@[simp] theorem State.hubCommand_wf (s : State) (p : Nat) (j : HubJob) (h : Memory.wf s.mem = true) :
    Memory.wf (State.hubCommand s p j).mem = true := by
  unfold State.hubCommand
  split
  · exact h
  · simp [h]

@[simp] theorem State.hubNode_wf (s : State) (p id : Nat) (n : Node) (j : HubJob) (h : Memory.wf s.mem = true) :
    Memory.wf (s.hubNode p id n j).mem = true := by unfold State.hubNode; dsimp only; (repeat' split) <;> simp [h]

theorem execHubRead_wf (core : Nat) (s : State) (h : Memory.wf s.mem = true) :
    Keeps (execHubRead core s) := by
  unfold execHubRead
  dsimp only
  generalize (s.hubNodes core).filter _ = l
  generalize (s.coreAt core).hubCmd = c
  rcases c with _ | j <;> rcases l with _ | ⟨⟨a, b, c⟩, t⟩ <;> dsimp only <;> (repeat' split) <;> simp [h]

@[simp] theorem State.park_wf (s : State) (t leaf : Nat) (st : PlanSt) (x : Nat × Nat) (h : Memory.wf s.mem = true) :
    Memory.wf (s.park t leaf st x).mem = true := by
  unfold State.park
  dsimp only
  have h1 : Memory.wf (s.modTask t (fun q => { q with nodes := lmod q.nodes leaf (fun y => { y with parked := y.parked ++ [x] }) })).mem = true := by
    simp [h]
  split
  · split
    · refine getD_wf h1 (fun z e => ?_)
      rw [Option.bind_eq_some_iff] at e
      obtain ⟨y, hy, e⟩ := e
      exact State.putGlobal_wf _ _ _ _ _ _ (State.putGlobal_wf _ _ _ _ _ _ h1 hy) e
    · exact h1
  · exact h1

@[simp] theorem State.signalTo_wf (s : State) (g : Signal) (h : Memory.wf s.mem = true) : Memory.wf (State.signalTo s g).1.mem = true := by
  unfold State.signalTo
  dsimp only
  (repeat' split) <;> simp [h]

theorem execBarrierArrival_wf (src home k : Nat) (s : State) (h : Memory.wf s.mem = true) :
    Keeps (execBarrierArrival src home k s) := by unfold execBarrierArrival; dsimp only; (repeat' split) <;> simp [h]

theorem execSignalArrival_wf (src : Nat) (s : State) (h : Memory.wf s.mem = true) :
    Keeps (execSignalArrival src s) := by unfold execSignalArrival; dsimp only; (repeat' split) <;> simp [h]

/-! ### MemEvents -/

@[simp] theorem State.dieTlbPut_mem (s : State) (die : Nat) (e : TlbEnt) : (State.dieTlbPut s die e).mem = s.mem := (rfl)

theorem execPageWalkComplete_wf (die part page : Nat) (s : State) (h : Memory.wf s.mem = true) :
    Keeps (execPageWalkComplete die part page s) := by unfold execPageWalkComplete; dsimp only; (repeat' split) <;> simp [h]

theorem execTlbInvalidation_wf (part : Nat) (s : State) (h : Memory.wf s.mem = true) :
    Keeps (execTlbInvalidation part s) := by simp [execTlbInvalidation, h]

theorem State.writeGlobal_wf (s : State) (part fuel va : Nat) (l : List Byte) (bad : List Nat) (t : State)
    (h : Memory.wf s.mem = true) (e : s.writeGlobal part fuel va l bad = some t) : Memory.wf t.mem = true := by
  induction fuel generalizing s va l bad with
  | zero =>
    simp only [State.writeGlobal] at e
    split at e
    · simp only [Option.some.injEq] at e; subst e; exact h
    · cases e
  | succ n ih =>
    simp only [State.writeGlobal] at e
    split at e
    · simp only [Option.some.injEq] at e; subst e; exact h
    · split at e
      · split at e
        · cases e
        · rename_i c
          refine ih _ _ _ _ ?_ e
          have : Memory.wf (State.mem (by assumption)) = true := by
            split at c
            · exact State.cowBefore_wf _ _ _ _ _ h c
            · simp only [Option.some.injEq] at c; subst c; exact h
          simp [this]
      · cases e

theorem State.streamSlot_wf (s : State) (part : Nat) (sl : Slot) (dest n i : Nat) (t : State)
    (h : Memory.wf s.mem = true) (e : s.streamSlot part sl dest n i = some t) : Memory.wf t.mem = true := by
  induction n generalizing s i with
  | zero => simp only [State.streamSlot, Option.some.injEq] at e; subst e; exact h
  | succ n ih =>
    simp only [State.streamSlot] at e
    split at e
    · cases e
    · split at e
      · cases e
      · rename_i w; exact ih _ _ (State.writeGlobal_wf _ _ _ _ _ _ _ h w) e

@[simp] theorem State.thaw_wf (s : State) (part k : Nat) (sl : Slot) (h : Memory.wf s.mem = true) :
    Memory.wf (s.thaw part k sl).mem = true := by
  unfold State.thaw
  refine foldl_wf (fun z i hz => ?_) _ h
  dsimp only
  (repeat' split) <;> simp [hz]

theorem State.deliver_mem (s : State) (t core box : Nat) (e : InEntry) (z : State) (h : s.deliver t core box e = some z) :
    z.mem = s.mem := by
  unfold State.deliver at h
  dsimp only at h
  (repeat' split at h) <;> first | (simp only [Option.some.injEq] at h; subst h; rfl) | cases h

@[simp] theorem State.drainEnd_mem (s : State) (part k : Nat) (sl : Slot) (d : Drain) : (s.drainEnd part k sl d).mem = s.mem := by
  unfold State.drainEnd
  split
  · rename_i e; simp [State.deliver_mem _ _ _ _ _ _ e]
  · rfl

theorem execCheckpointDrainComplete_wf (part slot : Nat) (s : State) (h : Memory.wf s.mem = true) :
    Keeps (execCheckpointDrainComplete part slot s) := by
  unfold execCheckpointDrainComplete
  split
  · simp [h]
  · split
    · simp [h]
    · split
      · simp [h]
      · split
        · simp [h]
        · rename_i e
          have := State.streamSlot_wf _ _ _ _ _ _ _ h e
          simp [this]

/-! ### Dispatcher -/

@[simp] theorem State.modQueue_mem (s : State) (q : Nat) (f : Queue → Queue) : (State.modQueue s q f).mem = s.mem := (rfl)

@[simp] theorem State.acceptFrom_wf (s : State) (q : Nat) (h : Memory.wf s.mem = true) :
    Memory.wf (State.acceptFrom s q).mem = true := by unfold State.acceptFrom; dsimp only; (repeat' split) <;> simp [h]

theorem execQueueRecordWrite_wf (q : QueueAccess) (whole : Bool) (record : BitVec 512) (s : State) (h : Memory.wf s.mem = true) :
    Keeps (execQueueRecordWrite q whole record s) := by
  unfold execQueueRecordWrite
  dsimp only
  (repeat' split) <;> (try (simp [h]; done))
  rw [keeps_next]
  exact foldl_wf (fun z a hz => by simp [hz]) _ (by simp [h])

theorem execQkill_wf (q : QueueAccess) (handle : BitVec 32) (s : State) (h : Memory.wf s.mem = true) :
    Keeps (execQkill q handle s) := by unfold execQkill; dsimp only; (repeat' split) <;> simp [h]

theorem execQerrClear_wf (q : QueueAccess) (ones : BitVec 64) (s : State) (h : Memory.wf s.mem = true) :
    Keeps (execQerrClear q ones s) := by unfold execQerrClear; (repeat' split) <;> simp [h]

@[simp] theorem State.setEvent_mem (s : State) (e st : Nat) : (State.setEvent s e st).mem = s.mem := (rfl)

theorem execHostEventWrite_wf (part word : Nat) (value : BitVec 64) (s : State) (h : Memory.wf s.mem = true) :
    Keeps (execHostEventWrite part word value s) := by unfold execHostEventWrite; dsimp only; (repeat' split) <;> simp [h]

theorem execCompletionEventPost_wf (task : Nat) (s : State) (h : Memory.wf s.mem = true) :
    Keeps (execCompletionEventPost task s) := by unfold execCompletionEventPost; dsimp only; (repeat' split) <;> simp [h]

@[simp] theorem State.claimRegion_mem (s : State) (part p h w : Nat) (bare : Bool) : (State.claimRegion s part p h w bare).2.mem = s.mem := by unfold State.claimRegion; split <;> rfl

@[simp] theorem State.bindLeaf_mem (s : State) (t part p : Nat) (x : Place) : (State.bindLeaf s t part p x).mem = s.mem := by simp [State.bindLeaf]

@[simp] theorem State.pokeSpan_wf (s : State) (p off : Nat) (bytes : List Byte) (h : Memory.wf s.mem = true) :
    Memory.wf (State.pokeSpan s p off bytes).mem = true := by
  unfold State.pokeSpan
  exact State.poke_wf _ _ _ (foldl_wf (fun z b hz => by simp [hz]) _ h)

theorem State.copySections_wf (s : State) (src : PlanSrc) (cores : List Nat) (l : List Section) (t : State)
    (h : Memory.wf s.mem = true) (e : s.copySections src cores l = some t) : Memory.wf t.mem = true := by
  induction l generalizing s with
  | nil => simp only [State.copySections, Option.some.injEq] at e; subst e; exact h
  | cons x l ih =>
    simp only [State.copySections] at e
    split at e
    · exact ih _ h e
    · split at e
      · cases e
      · exact ih _ (foldl_wf (fun z a hz => by simp [hz]) _ h) e

@[simp] theorem State.loadFault_wf (s : State) (t leaf code : Nat) (h : Memory.wf s.mem = true) :
    Memory.wf (s.loadFault t leaf code).mem = true := State.endNode_wf _ _ _ _ _ h

@[simp] theorem State.loadLeaf_wf (s : State) (k : Task) (tm : Team) (n : PlanNode) (h : Memory.wf s.mem = true) :
    Memory.wf (State.loadLeaf s k tm n).1.mem = true := by unfold State.loadLeaf; dsimp only; (repeat' split) <;> simp [h]

@[simp] theorem State.applySignals_mem (s : State) (tm : Team) (l : List (Nat × Nat)) : (s.applySignals tm l).mem = s.mem := by
  unfold State.applySignals; simp

@[simp] theorem State.applyParked_mem (s : State) (t leaf : Nat) (tm : Team) : (State.applyParked s t leaf tm).mem = s.mem := by unfold State.applyParked; (repeat' split) <;> simp

@[simp] theorem State.startControllers_mem (s : State) (tm : Team) (n : PlanNode) (arg : BitVec 64) : (State.startControllers s tm n arg).mem = s.mem := by unfold State.startControllers; (repeat' split) <;> simp

@[simp] theorem State.startLeaf_wf (s : State) (t leaf : Nat) (h : Memory.wf s.mem = true) : Memory.wf (s.startLeaf t leaf).mem = true := by
  unfold State.startLeaf
  split
  · exact h
  · split
    · dsimp only
      have hl : ∀ k tm n, Memory.wf (s.loadLeaf k tm n).1.mem = true := fun k tm n => State.loadLeaf_wf s k tm n h
      split
      · simp [hl]
      · split
        · simp [hl]
        · split
          · simp [hl]
          · rename_i e; simp [State.copySections_wf _ _ _ _ _ (hl _ _ _) e]
    · exact h

@[simp] theorem State.countPasses_mem (s : State) (part t : Nat) (waiting : List Item) : (State.countPasses s part t waiting).mem = s.mem := by simp [State.countPasses]

@[simp] theorem State.startItem_wf (s : State) (part : Nat) (i : Item) (p : List Nat) (h : Memory.wf s.mem = true) :
    Memory.wf (s.startItem part i p).mem = true := by
  unfold State.startItem
  dsimp only
  rw [State.modPart_mem]
  refine foldl_wf (fun z a hz => by simp [hz]) _ (foldl_wf (fun z a hz => by simp [hz]) _ ?_)
  exact wf_ite (by simp [h]) h

theorem execTaskStart_wf (s : State) (h : Memory.wf s.mem = true) : Keeps (execTaskStart s) := by
  unfold execTaskStart
  dsimp only
  split <;> simp [h]

/-! ### Preempt -/

@[simp] theorem State.ownBanks_wf (s : State) (cores : List Nat) (h : Memory.wf s.mem = true) :
    Memory.wf (s.ownBanks cores).mem = true :=
  foldl_wf (fun z p hz => foldl_wf (fun y b hy => by simp [hy]) _ hz) _ h

@[simp] theorem State.beginStop_mem (s : State) (x : Nat × Team) : (State.beginStop s x).mem = s.mem := by unfold State.beginStop; simp only []; (repeat' split) <;> simp_all

@[simp] theorem State.leaveRegion_mem (s : State) (k : Nat) : (State.leaveRegion s k).mem = s.mem := by unfold State.leaveRegion; (repeat' split) <;> simp

theorem State.writeArea_wf (s : State) (a : Nat) (sv : Saved) (tm : Team) (t : State) (h : Memory.wf s.mem = true)
    (e : s.writeArea a sv tm = some t) : Memory.wf t.mem = true := by
  simp only [State.writeArea, Option.map_eq_some_iff] at e
  obtain ⟨z, hz, rfl⟩ := e
  exact (State.putPieces_wf _ _ _ _ h hz :)

@[simp] theorem State.tagBanks_mem (s : State) (cores : List Nat) (b : BitVec 32) : (s.tagBanks cores b).mem = s.mem := by simp [State.tagBanks]

@[simp] theorem State.saveTeam_wf (s : State) (x : Nat × Team) (h : Memory.wf s.mem = true) : Memory.wf (s.saveTeam x).mem = true := by
  have h0 := State.ownBanks_wf s x.2.cores h
  unfold State.saveTeam
  dsimp only
  rw [State.leaveRegion_mem]
  dsimp only
  have h1 : ∀ (o : Option Nat) (sv : Saved),
      Memory.wf ((o.bind (fun a => (s.ownBanks x.2.cores).writeArea a sv x.2)).getD (s.ownBanks x.2.cores)).mem = true :=
    fun o sv => getD_wf h0 (fun t e => by
      rw [Option.bind_eq_some_iff] at e
      obtain ⟨a, -, e⟩ := e
      exact State.writeArea_wf _ _ _ _ _ h0 e)
  exact foldl_wf (fun z p hz => by simp [hz]) _ (wf_ite (by rw [State.tagBanks_mem]; exact h1 _ _) (h1 _ _))

@[simp] theorem State.stopTurn_wf (s : State) (t : Nat) (h : Memory.wf s.mem = true) : Memory.wf (s.stopTurn t).mem = true := by
  have h1 : Memory.wf ((s.bundleOf t .stopping).foldl (fun (z : State) x =>
      x.2.cores.foldl (fun (y : State) p => y.modCtl p (Ctl.stopHere s.steps)) z) s).mem = true := by simp [h]
  unfold State.stopTurn
  dsimp only
  exact wf_ite (foldl_wf (fun z x hz => State.saveTeam_wf z x hz) _ h1) h1

theorem execPreempt_wf (order : StopOrder) (s : State) (h : Memory.wf s.mem = true) :
    Keeps (execPreempt order s) := by unfold execPreempt; dsimp only; (repeat' split) <;> simp [h]

theorem execDeepSaveTimeout_wf (team : Nat) (s : State) (h : Memory.wf s.mem = true) :
    Keeps (execDeepSaveTimeout team s) := by simp [execDeepSaveTimeout, h]

@[simp] theorem State.resumeCore_mem (s : State) (t : Nat) (k : Option Nat) (at_ to_ p : Nat) (c : Core) :
    (State.resumeCore s t k at_ to_ p c).mem = s.mem := (rfl)

@[simp] theorem State.restoreScratch_wf (s : State) (sv : Saved) (same : Bool) (l p : Nat)
    (h : Memory.wf s.mem = true) : Memory.wf (s.restoreScratch sv same l p).mem = true := by
  unfold State.restoreScratch
  refine foldl_wf (fun z b hz => ?_) _ h
  dsimp only
  split
  · simp [hz]
  · exact putRange_wf (by simp [hz])

@[simp] theorem State.evictAll_wf (s : State) (sv : Saved) (cores : List Nat) (h : Memory.wf s.mem = true) :
    Memory.wf (s.evictAll sv cores).mem = true :=
  foldl_wf (fun z p hz => foldl_wf (fun y b hy => wf_ite (by simp [hy]) hy) _ hz) _ h

@[simp] theorem State.reload_wf (s : State) (tm : Team) (sv : Saved) (k leader : Nat) (h : Memory.wf s.mem = true) :
    Memory.wf (State.reload s tm sv k leader).1.mem = true := by unfold State.reload; dsimp only; (repeat' split) <;> simp [h]

@[simp] theorem State.evictMoved_wf (s : State) (tm : Team) (p : Nat) (h : Memory.wf s.mem = true) :
    Memory.wf (s.evictMoved tm p).mem = true := by unfold State.evictMoved; (repeat' split) <;> simp [h]

@[simp] theorem State.resumeRegion_mem (s : State) (k : Nat) (sv : Saved) : (State.resumeRegion s k sv).mem = s.mem := by unfold State.resumeRegion; split <;> simp

@[simp] theorem State.resumeSources_mem (s : State) (t : Nat) (tm : Team) : (State.resumeSources s t tm).mem = s.mem := (rfl)

@[simp] theorem State.refill_wf (s : State) (t : Nat) (moves : Bool) (tm : Team) (sv : Saved) (h : Memory.wf s.mem = true) :
    Memory.wf (s.refill t moves tm sv).mem = true :=
  foldl_wf (fun z a hz => by simp [hz]) _ (foldl_wf (fun z a hz => by simp [hz]) _ h)

@[simp] theorem State.seat_wf (s : State) (t p : Nat) (tm : Team) (sv : Saved) (h : Memory.wf s.mem = true) :
    Memory.wf (s.seat t p tm sv).mem = true := by
  unfold State.seat State.seatRegion
  simp [h]

@[simp] theorem State.resumeCores_wf (s : State) (t p k : Nat) (moves : Bool) (tm : Team) (sv : Saved)
    (h : Memory.wf s.mem = true) : Memory.wf (s.resumeCores t p k moves tm sv).mem = true := by
  unfold State.resumeCores
  dsimp only
  have h4 := State.refill_wf s t moves tm sv h
  generalize s.refill t moves tm sv = z at h4 ⊢
  have hr := State.reload_wf z tm sv k (tm.posOf 0) h4
  generalize z.reload tm sv k (tm.posOf 0) = r at hr ⊢
  split
  · simp [hr]
  · simp only [State.applyParked_mem, State.resumeSources_mem, State.resumeRegion_mem]
    refine foldl_wf (fun z a hz => ?_) _ (by simpa using hr)
    split <;> simp [hz]

@[simp] theorem State.resumeTeam_wf (s : State) (t p : Nat) (h : Memory.wf s.mem = true) : Memory.wf (s.resumeTeam t p).mem = true := by
  unfold State.resumeTeam
  dsimp only
  (repeat' split) <;> simp [h]

@[simp] theorem State.resumeItem_wf (s : State) (i : Item) (p : List Nat) (h : Memory.wf s.mem = true) : Memory.wf (s.resumeItem i p).mem = true := by
  unfold State.resumeItem
  refine foldl_wf (fun z a hz => ?_) _ (foldl_wf (fun z a hz => ?_) _ h) <;> split <;> simp [hz]

theorem execResume_wf (team : Nat) (s : State) (h : Memory.wf s.mem = true) : Keeps (execResume team s) := by
  unfold execResume
  (repeat' split) <;> simp [h]

theorem execTaggedBankEvict_wf (core bank : Nat) (s : State) (h : Memory.wf s.mem = true) :
    Keeps (execTaggedBankEvict core bank s) := by simp [execTaggedBankEvict, h]

theorem State.saveTo_wf (s : State) (p k a : Nat) (deep : Bool) (t : State) (h : Memory.wf s.mem = true)
    (e : s.saveTo p k a deep = some t) : Memory.wf t.mem = true := by
  simp only [State.saveTo, Option.map_eq_some_iff] at e
  obtain ⟨z, hz, rfl⟩ := e
  have h1 := State.writeArea_wf _ _ _ _ _ (by simp [h]) hz
  exact wf_ite (by simp [h1]) h1

theorem execDomsave_wf (c : CmdArgs) (s : State) (h : Memory.wf s.mem = true) : Keeps (execDomsave c s) := by
  unfold execDomsave
  exact State.runCmd_wf _ _ _ (fun q => getD_wf h (fun t e => State.saveTo_wf _ _ _ _ _ t h e)) h

@[simp] theorem State.restoreSave_wf (s : State) (p k : Nat) (sv : Saved) (h : Memory.wf s.mem = true) :
    Memory.wf (s.restoreSave p k sv).mem = true := by
  unfold State.restoreSave
  dsimp only
  rw [State.applySignals_mem, State.modTeamAt_mem, State.resumeRegion_mem]
  refine foldl_wf (fun z a hz => ?_) _ (foldl_wf (fun z a hz => by simp [hz]) _ h)
  split <;> simp [hz]

theorem State.fromArea_wf (s : State) (part a : Nat) (tm : Team) (sv : Saved) (r : State × Saved) (h : Memory.wf s.mem = true)
    (e : s.fromArea part a tm sv = some r) : Memory.wf r.1.mem = true := by
  simp only [State.fromArea, Option.map_eq_some_iff] at e
  obtain ⟨m, -, rfl⟩ := e
  exact wf_ite h (by simp [h])

theorem State.loadSaved_wf (s : State) (p : Nat) (out : Option (State × Saved)) (r : Option (Nat × Region))
    (h : Memory.wf s.mem = true) (ho : ∀ x, out = some x → Memory.wf x.1.mem = true) : Memory.wf (s.loadSaved p out r).mem = true := by
  unfold State.loadSaved
  split
  · have hz := ho _ rfl
    dsimp only
    (repeat' split) <;> simp [hz]
  · exact h

theorem execDomload_wf (c : CmdArgs) (s : State) (h : Memory.wf s.mem = true) : Keeps (execDomload c s) := by
  unfold execDomload
  refine State.runCmd_wf _ _ _ (fun q => State.loadSaved_wf _ _ _ _ h (fun x e => ?_)) h
  rw [Option.bind_eq_some_iff] at e
  obtain ⟨sv, -, e⟩ := e
  exact State.fromArea_wf _ _ _ _ _ _ h e

/-! ### Errors -/

@[simp] theorem State.bankRecord_wf (s : State) (core code bank count : Nat) (h : Memory.wf s.mem = true) :
    Memory.wf (State.bankRecord s core code bank count).mem = true := by simp [State.bankRecord, h]

@[simp] theorem State.bankError_wf (s : State) (core bank : Nat) (h : Memory.wf s.mem = true) :
    Memory.wf (State.bankError s core bank).mem = true := by unfold State.bankError; dsimp only; (repeat' split) <;> simp [h]

@[simp] theorem State.wayError_mem (s : State) (core way : Nat) : (State.wayError s core way).mem = s.mem := (rfl)

theorem execCorrectedError_wf (site : ErrorSite) (s : State) (h : Memory.wf s.mem = true) :
    Keeps (execCorrectedError site s) := by unfold execCorrectedError; (repeat' split) <;> simp_all

theorem execErrorWindowEnd_wf (s : State) (h : Memory.wf s.mem = true) :
    Keeps (execErrorWindowEnd s) := by simp [execErrorWindowEnd, h]

theorem execBankRetire_wf (core bank : Nat) (s : State) (h : Memory.wf s.mem = true) :
    Keeps (execBankRetire core bank s) := by unfold execBankRetire; dsimp only; (repeat' split) <;> simp [h]

@[simp] theorem State.stopDomain_wf (s : State) (k : Nat) (r : Region) (core dom : Nat) (h : Memory.wf s.mem = true) :
    Memory.wf (State.stopDomain s k r core dom).mem = true := by unfold State.stopDomain; dsimp only; (repeat' split) <;> simp [h]

theorem execCoreFailed_wf (core : Nat) (s : State) (h : Memory.wf s.mem = true) : Keeps (execCoreFailed core s) := by
  unfold execCoreFailed
  split
  · simpa using h
  · dsimp only
    rw [keeps_next, State.doomAt_mem]
    split
    · exact wf_ite (foldl_wf (fun z a hz => by simp [hz]) _ (by simp [h])) (by simp [h])
    · simp [h]

/-! ### HostEvents -/

@[simp] theorem State.zeroScratch_wf (s : State) (p : Nat) (h : Memory.wf s.mem = true) :
    Memory.wf (State.zeroScratch s p).mem = true := by
  unfold State.zeroScratch
  exact blankRange_wf (foldl_wf (fun z b hz => by simp [hz]) _ h)

@[simp] theorem State.discardAt_wf (s : State) (p : Nat) (h : Memory.wf s.mem = true) : Memory.wf (s.discardAt p).mem = true := by
  unfold State.discardAt
  exact foldl_wf (fun z a hz => by simp [hz]) _ h

@[simp] theorem State.killEvents_mem (s : State) (part : Nat) : (State.killEvents s part).mem = s.mem := by simp [State.killEvents]

@[simp] theorem State.resetPart_wf (s : State) (part : Nat) (h : Memory.wf s.mem = true) : Memory.wf (s.resetPart part).mem = true := by
  have h1 : ∀ l : List Nat, Memory.wf (l.foldl (fun (z : State) t => z.killTask t) s).mem = true :=
    fun l => foldl_wf (fun z a hz => by simp [hz]) _ h
  unfold State.resetPart
  dsimp only
  refine State.failDeps_wf _ ?_
  rw [State.modPart_mem]
  dsimp only
  rw [State.tlbInvalidate_mem]
  refine foldl_wf (fun z a hz => by simp [hz]) _ (foldl_wf (fun z a hz => by simp [hz]) _ ?_)
  rw [State.killEvents_mem]
  exact h1 _

theorem execPartitionReset_wf (part : Nat) (s : State) (h : Memory.wf s.mem = true) :
    Keeps (execPartitionReset part s) := by simp [execPartitionReset, h]

theorem execResetDoneClear_wf (part : Nat) (s : State) (h : Memory.wf s.mem = true) :
    Keeps (execResetDoneClear part s) := by simp [execResetDoneClear, h]

theorem execCoreRepairTest_wf (core : Nat) (passed : Bool) (s : State) (h : Memory.wf s.mem = true) :
    Keeps (execCoreRepairTest core passed s) := by unfold execCoreRepairTest; dsimp only; (repeat' split) <;> simp [h]

theorem execFirmwareSwitch_wf (part : Nat) (s : State) (h : Memory.wf s.mem = true) :
    Keeps (execFirmwareSwitch part s) := by unfold execFirmwareSwitch; dsimp only; (repeat' split) <;> simp [h]

@[simp] theorem State.retagCore_wf (s : State) (p tag : Nat) (assigned : Bool) (h : Memory.wf s.mem = true) :
    Memory.wf (State.retagCore s p tag assigned).mem = true := by unfold State.retagCore; dsimp only; (repeat' split) <;> simp [h]

@[simp] theorem State.retagQueue_mem (s : State) (q tag : Nat) (assigned : Bool) : (State.retagQueue s q tag assigned).mem = s.mem := by simp [State.retagQueue]

@[simp] theorem State.setGrant_mem (s : State) (part : Nat) (high : Bool) (v : BitVec 64) : (State.setGrant s part high v).mem = s.mem := by simp [State.setGrant]

@[simp] theorem State.setHome_mem (s : State) (g : Nat) (v : BitVec 64) : (State.setHome s g v).mem = s.mem := (rfl)

theorem execRetag_wf (what : RetagSite) (s : State) (h : Memory.wf s.mem = true) :
    Keeps (execRetag what s) := by unfold execRetag; (repeat' split) <;> simp_all

@[simp] theorem State.enterPower_wf (s : State) (p : Nat) (st : BitVec 2) (h : Memory.wf s.mem = true) :
    Memory.wf (s.enterPower p st).mem = true := by
  unfold State.enterPower
  rw [State.modCore_mem]
  exact wf_ite (by simp [h]) h

@[simp] theorem State.requestPower_wf (s : State) (core : Nat) (state : BitVec 2) (h : Memory.wf s.mem = true) :
    Memory.wf (s.requestPower core state).mem = true := by
  unfold State.requestPower
  dsimp only
  exact wf_ite (by simp [h]) (wf_ite (by simp [h]) (wf_ite (by simp [h]) (by simp [h])))

theorem execPowerStateRequest_wf (core : Nat) (state : BitVec 2) (s : State) (h : Memory.wf s.mem = true) :
    Keeps (execPowerStateRequest core state s) := by simp [execPowerStateRequest, h]

theorem execPowerRefusalClear_wf (core : Nat) (s : State) (h : Memory.wf s.mem = true) :
    Keeps (execPowerRefusalClear core s) := by simp [execPowerRefusalClear, h]

theorem execClockStepChange_wf (clk : BitVec 2) (s : State) (h : Memory.wf s.mem = true) :
    Keeps (execClockStepChange clk s) := by simp [execClockStepChange, h]

@[simp] theorem State.refreshOn_wf (s : State) (h : Memory.wf s.mem = true) :
    Memory.wf (State.refreshOn s).mem = true := by simp [State.refreshOn, h]

theorem execSelfRefreshEnter_wf (s : State) (h : Memory.wf s.mem = true) :
    Keeps (execSelfRefreshEnter s) := by simp [execSelfRefreshEnter, h]

@[simp] theorem State.refreshOff_wf (s : State) (h : Memory.wf s.mem = true) : Memory.wf s.refreshOff.mem = true := by
  unfold State.refreshOff
  exact foldl_wf (fun z a hz => by simp [hz]) _ h

theorem execSelfRefreshExit_wf (s : State) (h : Memory.wf s.mem = true) :
    Keeps (execSelfRefreshExit s) := by simp [execSelfRefreshExit, h]

theorem State.partWrite_wf (s : State) (part off : Nat) (v : BitVec 64) (h : Memory.wf s.mem = true) :
    Keeps (s.partWrite part off v) := by
  unfold State.partWrite
  split <;> rw [keeps_next] <;> (try (simp [h]; done))
  · have h1 : Memory.wf (if v.getLsbD 2 = true then s.modPart part (fun pt => { pt with resetDone := false }) else s).mem = true :=
      wf_ite (by simp [h]) h
    exact wf_ite (State.resetPart_wf _ _ h1) h1

theorem execRegisterWrite_wf (offset : Nat) (value : BitVec 64) (privileged : Bool) (s : State) (h : Memory.wf s.mem = true) :
    Keeps (execRegisterWrite offset value privileged s) := by
  unfold execRegisterWrite
  split
  · simpa using h
  split
  · rw [keeps_next]; exact foldl_wf (fun z a hz => wf_ite hz (by simp [hz])) _ h
  split
  · rw [keeps_next]; exact foldl_wf (fun z a hz => by simp [hz]) _ h
  split
  · exact State.partWrite_wf _ _ _ _ h
  split
  · simp [h]
  split
  · rw [keeps_next]
    apply State.requestPower_wf
    exact wf_ite (by simp [h]) h
  split
  · simpa using h
  split
  · rw [keeps_next]; exact wf_ite (by simp [h]) (by simp [h])
  · simpa using h

@[simp] theorem State.restarted_wf (s : State) (h : Memory.wf s.mem = true) :
    Memory.wf (State.restarted s).mem = true := by simp [State.restarted, h]

@[simp] theorem State.mapSpare_mem (s : State) (p : Nat) : (s.mapSpare p).mem = s.mem := by unfold State.mapSpare; dsimp only; split <;> rfl

theorem execBoot_wf (image : FirmwareImage) (s : State) (h : Memory.wf s.mem = true) :
    Keeps (execBoot image s) := by
  have hm : Memory.wf (s.restarted.deadCores.foldl State.mapSpare s.restarted).mem = true :=
    foldl_wf (fun z p hz => by simp [hz]) _ (by simp [h])
  unfold execBoot
  dsimp only
  split
  · simp [h]
  · rw [keeps_next, State.irq_mem]; exact hm

theorem execFirmwareUpdate_wf (image : FirmwareImage) (s : State) (h : Memory.wf s.mem = true) :
    Keeps (execFirmwareUpdate image s) := by simp [execFirmwareUpdate, h]

theorem execAttestationRequest_wf (nonce : BitVec 256) (part : Nat) (s : State) (h : Memory.wf s.mem = true) :
    Keeps (execAttestationRequest nonce part s) := by simp [execAttestationRequest, h]

end Sys2Proof.Machine
end

