-- ==== Sys2Proof/Laws/FormExec.lean ====
section
/-!
SUPPORT. Memory keeps its canonical form: one lemma for each operation of every instruction and every turn. An operation that stores nothing
leaves memory equal; one that stores keeps the form.
-/

namespace Sys2Proof.Machine

/-! ### Pieces (R333) -/

theorem State.tilePiece_wf (s : State) (p id : Nat) (n : Node) (i : Ins) (most : Nat) (h : Memory.wf s.mem = true) :
    Memory.wf (s.tilePiece p id n i most).mem = true := by
  unfold State.tilePiece
  dsimp only
  have hr : ∀ (z : State) offs a, Memory.wf z.mem = true → Memory.wf (mrmwRun z n offs a most).s.mem = true := fun z offs a hz =>
    mrmwRun_wf z n offs a most hz
  (repeat' split) <;> simp [h, hr]

theorem State.globalPiece_wf (s : State) (p id : Nat) (n : Node) (i : Ins) (most : Nat) (h : Memory.wf s.mem = true) :
    Memory.wf (s.globalPiece p id n i most).mem = true := by
  unfold State.globalPiece
  dsimp only
  (repeat' split) <;> simp [globalElems_wf, h]

@[simp] theorem State.piece_wf (s : State) (count : Nat) (h : Memory.wf s.mem = true) : Memory.wf (s.piece count).mem = true := by
  unfold State.piece
  dsimp only
  (repeat' split) <;> simp [State.tilePiece_wf, State.globalPiece_wf, h]

/-! ### Rounds -/

/-- The state in which a turn's instruction runs, or that a turn without one leaves. -/
def Todo.state : Todo → State
  | .run _ s => s
  | .rest s => s

@[simp] theorem State.ctlTodo_wf (s : State) (h : Memory.wf s.mem = true) : Memory.wf s.ctlTodo.state.mem = true := by
  unfold State.ctlTodo
  dsimp only
  have hf : Memory.wf s.fetch.2.mem = true := by simp [h]
  split
  · simpa [Todo.state] using h
  split
  · simp [Todo.state, h]
  split
  · simp [Todo.state, h]
  generalize s.fetch = x at hf ⊢
  obtain ⟨a, z⟩ := x
  cases a <;> simpa [Todo.state] using hf

@[simp] theorem State.cmdTodo_wf (s : State) (h : Memory.wf s.mem = true) : Memory.wf s.cmdTodo.state.mem = true := by
  unfold State.cmdTodo
  split
  · split <;> exact h
  · exact h

@[simp] theorem State.nodeTodo_wf (s : State) (h : Memory.wf s.mem = true) : Memory.wf s.nodeTodo.state.mem = true := by
  unfold State.nodeTodo
  split
  · split <;> exact h
  · exact h

@[simp] theorem State.todo_wf (s : State) (t : Turn) (h : Memory.wf s.mem = true) : Memory.wf (s.todo t).state.mem = true := by
  cases t with
  | ctl p => exact State.ctlTodo_wf _ h
  | cmd p => exact State.cmdTodo_wf _ h
  | node p k => exact State.nodeTodo_wf _ h
  | piece p k n => exact State.piece_wf _ n h
  | event i => exact h

@[simp] theorem State.mem_begin (s : State) (rest : List Turn) : (State.begin_ s rest).mem = s.mem := (rfl)

@[simp] theorem State.placeScalar_wf (s : State) (w : BitVec 32) (h : Memory.wf s.mem = true) :
    Memory.wf (State.placeScalar s w).mem = true := by simp [State.placeScalar, h]

@[simp] theorem State.placeCommand_mem (s : State) (w : BitVec 128) : (State.placeCommand s w).mem = s.mem := (rfl)

@[simp] theorem State.placeNode_mem (s : State) (w : BitVec 256) : (State.placeNode s w).mem = s.mem := (rfl)

@[simp] theorem State.place_wf (s : State) (nbits w : Nat) (h : Memory.wf s.mem = true) :
    Memory.wf (State.place s nbits w).mem = true := by unfold State.place; (repeat' split) <;> simp_all

/-! ### Step -/

/-- Every instruction keeps memory's canonical form. -/
theorem exec_wf (i : Instr) (s : State) (h : Memory.wf s.mem = true) : Keeps (exec i s) := by
  cases i with
  | add d a b => exact execAdd_wf d a b s h
  | sub d a b => exact execSub_wf d a b s h
  | and d a b => exact execAnd_wf d a b s h
  | or d a b => exact execOr_wf d a b s h
  | xor d a b => exact execXor_wf d a b s h
  | sll d a b => exact execSll_wf d a b s h
  | srl d a b => exact execSrl_wf d a b s h
  | sra d a b => exact execSra_wf d a b s h
  | slt d a b => exact execSlt_wf d a b s h
  | sltu d a b => exact execSltu_wf d a b s h
  | mul d a b => exact execMul_wf d a b s h
  | mulh d a b => exact execMulh_wf d a b s h
  | mulhu d a b => exact execMulhu_wf d a b s h
  | div d a b => exact execDiv_wf d a b s h
  | divu d a b => exact execDivu_wf d a b s h
  | rem d a b => exact execRem_wf d a b s h
  | remu d a b => exact execRemu_wf d a b s h
  | min d a b => exact execMin_wf d a b s h
  | max d a b => exact execMax_wf d a b s h
  | minu d a b => exact execMinu_wf d a b s h
  | maxu d a b => exact execMaxu_wf d a b s h
  | clz d a => exact execClz_wf d a s h
  | ctz d a => exact execCtz_wf d a s h
  | popc d a => exact execPopc_wf d a s h
  | addi d a imm => exact execAddi_wf d a imm s h
  | andi d a imm => exact execAndi_wf d a imm s h
  | ori d a imm => exact execOri_wf d a imm s h
  | xori d a imm => exact execXori_wf d a imm s h
  | slti d a imm => exact execSlti_wf d a imm s h
  | sltiu d a imm => exact execSltiu_wf d a imm s h
  | slli d a sh => exact execSlli_wf d a sh s h
  | srli d a sh => exact execSrli_wf d a sh s h
  | srai d a sh => exact execSrai_wf d a sh s h
  | lui d imm => exact execLui_wf d imm s h
  | luih d imm => exact execLuih_wf d imm s h
  | beq a b off => exact execBeq_wf a b off s h
  | bne a b off => exact execBne_wf a b off s h
  | blt a b off => exact execBlt_wf a b off s h
  | bge a b off => exact execBge_wf a b off s h
  | bltu a b off => exact execBltu_wf a b off s h
  | bgeu a b off => exact execBgeu_wf a b off s h
  | jal off => exact execJal_wf off s h
  | jalr d a imm => exact execJalr_wf d a imm s h
  | ldb d a imm => exact execLdb_wf d a imm s h
  | ldbu d a imm => exact execLdbu_wf d a imm s h
  | ldh d a imm => exact execLdh_wf d a imm s h
  | ldhu d a imm => exact execLdhu_wf d a imm s h
  | ldw d a imm => exact execLdw_wf d a imm s h
  | ldwu d a imm => exact execLdwu_wf d a imm s h
  | ldd d a imm => exact execLdd_wf d a imm s h
  | stb r a imm => exact execStb_wf r a imm s h
  | sth r a imm => exact execSth_wf r a imm s h
  | stw r a imm => exact execStw_wf r a imm s h
  | std r a imm => exact execStd_wf r a imm s h
  | amoadd d a b scope narrow => exact execAmoadd_wf d a b scope narrow s h
  | amoswap d a b scope narrow => exact execAmoswap_wf d a b scope narrow s h
  | amocas d a b scope narrow => exact execAmocas_wf d a b scope narrow s h
  | amomin d a b scope narrow => exact execAmomin_wf d a b scope narrow s h
  | amomax d a b scope narrow => exact execAmomax_wf d a b scope narrow s h
  | amominu d a b scope narrow => exact execAmominu_wf d a b scope narrow s h
  | amomaxu d a b scope narrow => exact execAmomaxu_wf d a b scope narrow s h
  | amoand d a b scope narrow => exact execAmoand_wf d a b scope narrow s h
  | amoor d a b scope narrow => exact execAmoor_wf d a b scope narrow s h
  | amoxor d a b scope narrow => exact execAmoxor_wf d a b scope narrow s h
  | fence scope => exact execFence_wf scope s h
  | cmdw c a b => exact execCmdw_wf c a b s h
  | cmdld c a imm => exact execCmdld_wf c a imm s h
  | cmdi c target => exact execCmdi_wf c target s h
  | cmdq d a c => exact execCmdq_wf d a c s h
  | tsend a b box => exact execTsend_wf a b box s h
  | trecv d a box => exact execTrecv_wf d a box s h
  | iwait d a dom => exact execIwait_wf d a dom s h
  | bari a k => exact execBari_wf a k s h
  | bara a k => exact execBara_wf a k s h
  | barw d a k => exact execBarw_wf d a k s h
  | baraw d a k => exact execBaraw_wf d a k s h
  | sig d a b => exact execSig_wf d a b s h
  | spawn d a => exact execSpawn_wf d a s h
  | join d a => exact execJoin_wf d a s h
  | csrr d csr => exact execCsrr_wf d csr s h
  | csrw a csr => exact execCsrw_wf a csr s h
  | csrs a csr => exact execCsrs_wf a csr s h
  | csrc a csr => exact execCsrc_wf a csr s h
  | trap code => exact execTrap_wf code s h
  | tret => exact execTret_wf s h
  | yield => exact execYield_wf s h
  | synci => exact execSynci_wf s h
  | brk code => exact execBrk_wf code s h
  | watchdog core => exact execWatchdog_wf core s h
  | hostServiceAnswer core answer => exact execHostServiceAnswer_wf core answer s h
  | feed c => exact execFeed_wf c s h
  | bindw c => exact execBindw_wf c s h
  | bound c => exact execBound_wf c s h
  | steert c => exact execSteert_wf c s h
  | inject c => exact execInject_wf c s h
  | retry c => exact execRetry_wf c s h
  | tarm c => exact execTarm_wf c s h
  | tfire c => exact execTfire_wf c s h
  | tdisarm c => exact execTdisarm_wf c s h
  | copy c => exact execCopy_wf c s h
  | lxrun c => exact execLxrun_wf c s h
  | cfgld c => exact execCfgld_wf c s h
  | cfgq c => exact execCfgq_wf c s h
  | domgo c => exact execDomgo_wf c s h
  | domstop c => exact execDomstop_wf c s h
  | domsave c => exact execDomsave_wf c s h
  | domload c => exact execDomload_wf c s h
  | wheeldef c => exact execWheeldef_wf c s h
  | hubrd c => exact execHubrd_wf c s h
  | amxr c => exact execAmxr_wf c s h
  | ckpt c => exact execCkpt_wf c s h
  | ckdrain c => exact execCkdrain_wf c s h
  | bkey c => exact execBkey_wf c s h
  | linkcfg c => exact execLinkcfg_wf c s h
  | linkstat c => exact execLinkstat_wf c s h
  | domainInstantEnd region dom => exact execDomainInstantEnd_wf region dom s h
  | remoteStatusReceive core endpoint parityLost => exact execRemoteStatusReceive_wf core endpoint parityLost s h
  | quiescenceSample region => exact execQuiescenceSample_wf region s h
  | pathClockGate core tile => exact execPathClockGate_wf core tile s h
  | bankKeyMove core bank => exact execBankKeyMove_wf core bank s h
  | pass r => exact execPass_wf r s h
  | src r => exact execSrc_wf r s h
  | sink r => exact execSink_wf r s h
  | esink r => exact execEsink_wf r s h
  | cpyt r => exact execCpyt_wf r s h
  | ltx r => exact execLtx_wf r s h
  | lrx r => exact execLrx_wf r s h
  | sreq r => exact execSreq_wf r s h
  | red2 r => exact execRed2_wf r s h
  | statw r => exact execStatw_wf r s h
  | aadd r => exact execAadd_wf r s h
  | asub r => exact execAsub_wf r s h
  | ahad r => exact execAhad_wf r s h
  | amax r => exact execAmax_wf r s h
  | amin r => exact execAmin_wf r s h
  | asel r => exact execAsel_wf r s h
  | afma r => exact execAfma_wf r s h
  | aneg r => exact execAneg_wf r s h
  | aabs r => exact execAabs_wf r s h
  | arelu r => exact execArelu_wf r s h
  | ascl r => exact execAscl_wf r s h
  | amask r => exact execAmask_wf r s h
  | aclmp r => exact execAclmp_wf r s h
  | aren r => exact execAren_wf r s h
  | aexp2 r => exact execAexp2_wf r s h
  | alog2 r => exact execAlog2_wf r s h
  | arcp r => exact execArcp_wf r s h
  | arsq r => exact execArsq_wf r s h
  | asqrt r => exact execAsqrt_wf r s h
  | atanh r => exact execAtanh_wf r s h
  | asigm r => exact execAsigm_wf r s h
  | adotW r => exact execAdotW_wf r s h
  | adotP r => exact execAdotP_wf r s h
  | adott r => exact execAdott_wf r s h
  | aoutr r => exact execAoutr_wf r s h
  | anrm r => exact execAnrm_wf r s h
  | alsum r => exact execAlsum_wf r s h
  | amaxr r => exact execAmaxr_wf r s h
  | enc r => exact execEnc_wf r s h
  | dec r => exact execDec_wf r s h
  | acc r => exact execAcc_wf r s h
  | accF r => exact execAccF_wf r s h
  | acck r => exact execAcck_wf r s h
  | drain r => exact execDrain_wf r s h
  | dlyb r => exact execDlyb_wf r s h
  | conv r => exact execConv_wf r s h
  | mrd r => exact execMrd_wf r s h
  | mwr r => exact execMwr_wf r s h
  | mird r => exact execMird_wf r s h
  | miwr r => exact execMiwr_wf r s h
  | mrmw r => exact execMrmw_wf r s h
  | mgrp r => exact execMgrp_wf r s h
  | mgld r => exact execMgld_wf r s h
  | mgst r => exact execMgst_wf r s h
  | mfifo r => exact execMfifo_wf r s h
  | mline r => exact execMline_wf r s h
  | steer r => exact execSteer_wf r s h
  | omerge r => exact execOmerge_wf r s h
  | pmerge r => exact execPmerge_wf r s h
  | filter r => exact execFilter_wf r s h
  | repl r => exact execRepl_wf r s h
  | cnt r => exact execCnt_wf r s h
  | isect r => exact execIsect_wf r s h
  | union r => exact execUnion_wf r s h
  | pres r => exact execPres_wf r s h
  | dflt r => exact execDflt_wf r s h
  | pre r => exact execPre_wf r s h
  | when r => exact execWhen_wf r s h
  | sync r => exact execSync_wf r s h
  | level r => exact execLevel_wf r s h
  | iadd r => exact execIadd_wf r s h
  | isub r => exact execIsub_wf r s h
  | imul r => exact execImul_wf r s h
  | ilog r => exact execIlog_wf r s h
  | ishf r => exact execIshf_wf r s h
  | icmp r => exact execIcmp_wf r s h
  | irng r => exact execIrng_wf r s h
  | ihash r => exact execIhash_wf r s h
  | plog r => exact execPlog_wf r s h
  | copyStart core => exact execCopyStart_wf core s h
  | copyComplete core => exact execCopyComplete_wf core s h
  | endOfTileDelivery core => exact execEndOfTileDelivery_wf core s h
  | pageWalkComplete die part page => exact execPageWalkComplete_wf die part page s h
  | tlbInvalidation part => exact execTlbInvalidation_wf part s h
  | checkpointDrainComplete part slot => exact execCheckpointDrainComplete_wf part slot s h
  | hubRead core => exact execHubRead_wf core s h
  | barrierArrival src home k => exact execBarrierArrival_wf src home k s h
  | signalArrival src => exact execSignalArrival_wf src s h
  | queueRecordWrite q whole record => exact execQueueRecordWrite_wf q whole record s h
  | qkill q handle => exact execQkill_wf q handle s h
  | qerrClear q ones => exact execQerrClear_wf q ones s h
  | hostEventWrite part word value => exact execHostEventWrite_wf part word value s h
  | taskStart => exact execTaskStart_wf s h
  | completionEventPost task => exact execCompletionEventPost_wf task s h
  | preempt order => exact execPreempt_wf order s h
  | deepSaveTimeout team => exact execDeepSaveTimeout_wf team s h
  | resume team => exact execResume_wf team s h
  | taggedBankEvict core bank => exact execTaggedBankEvict_wf core bank s h
  | correctedError site => exact execCorrectedError_wf site s h
  | errorWindowEnd => exact execErrorWindowEnd_wf s h
  | bankRetire core bank => exact execBankRetire_wf core bank s h
  | coreFailed core => exact execCoreFailed_wf core s h
  | dataFlitReceive port flit damaged => exact execDataFlitReceive_wf port flit damaged s h
  | ackReceive port flit => exact execAckReceive_wf port flit s h
  | replayRequestReceive port flit => exact execReplayRequestReceive_wf port flit s h
  | creditReceive port flit => exact execCreditReceive_wf port flit s h
  | portDown port => exact execPortDown_wf port s h
  | portRetrain port => exact execPortRetrain_wf port s h
  | partitionReset part => exact execPartitionReset_wf part s h
  | resetDoneClear part => exact execResetDoneClear_wf part s h
  | coreRepairTest core passed => exact execCoreRepairTest_wf core passed s h
  | retag what => exact execRetag_wf what s h
  | registerWrite offset value privileged => exact execRegisterWrite_wf offset value privileged s h
  | boundaryDrop core route => exact execBoundaryDrop_wf core route s h
  | firmwareSwitch part => exact execFirmwareSwitch_wf part s h
  | boot image => exact execBoot_wf image s h
  | attestationRequest nonce part => exact execAttestationRequest_wf nonce part s h
  | powerStateRequest core state => exact execPowerStateRequest_wf core state s h
  | powerRefusalClear core => exact execPowerRefusalClear_wf core s h
  | clockStepChange clk => exact execClockStepChange_wf clk s h
  | selfRefreshEnter => exact execSelfRefreshEnter_wf s h
  | selfRefreshExit => exact execSelfRefreshExit_wf s h
  | illegalInstruction word => exact execIllegalInstruction_wf word s h
  | instructionFetchFault translation => exact execInstructionFetchFault_wf translation s h
  | unassignedCommandCode code c => exact execUnassignedCommandCode_wf code c s h
  | firmwareUpdate image => exact execFirmwareUpdate_wf image s h
  | systemSoftwarePageAnswer core answer => exact execSystemSoftwarePageAnswer_wf core answer s h
  | unknownFlitTypeReceive port flit => exact execUnknownFlitTypeReceive_wf port flit s h

/-! ### A turn that waits for a shadow (R365) -/

@[simp] theorem State.awaits_mem (s : State) (t : Turn) : (s.awaits t).mem = s.mem := by cases t <;> rfl

/-- A turn that lacks no shadow comes to what it comes to. -/
@[simp] theorem State.unlessShort_next (s u : State) (t : Turn) (h : u.short = false) : s.unlessShort t (.next u) = .next u := by
  simp [State.unlessShort, h]

/-- A turn that lacks a shadow leaves only the mark of its wait. -/
theorem State.unlessShort_short (s u : State) (t : Turn) (h : u.short = true) : s.unlessShort t (.next u) = .next (s.awaits t) := by
  simp [State.unlessShort, h]

/-- A turn, done or waiting, keeps the memory's form. -/
theorem State.unlessShort_wf (s : State) (t : Turn) (a : Answer) (h : Memory.wf s.mem = true) (ha : Keeps a) :
    Keeps (s.unlessShort t a) := by
  cases a with
  | next u =>
    simp only [State.unlessShort, keeps_next] at ha ⊢
    split
    · simpa using h
    · exact ha
  | fault f => exact ha
  | refused r => exact ha

end Sys2Proof.Machine
end

