-- ==== Sys2Proof/Laws/Ops.lean ====
section
/-!
SUPPORT. What each shared operation of the controller can do, said once: completion, traps, and the accesses to memory that
loads, stores and atomics are made of.
-/

namespace Sys2Proof.Machine

open Claim

/-! ### Changes of one controller -/

theorem onlyMe_modMe (s : State) (f : Ctl → Ctl) : OnlyMe s (s.modMe f) :=
  ⟨⟨rfl, fun q hq => by simp [hq], by simp⟩, rfl, rfl⟩

theorem sameBytes_modMe (s : State) (f : Ctl → Ctl) : SameBytes s (s.modMe f) := fun _ => rfl

theorem onlyCtl_modMe (s : State) (f : Ctl → Ctl) : OnlyCtl s (s.modMe f) := fun q hq => by simp [State.ctlAt, hq]

theorem me_result (s : State) (d : Reg) (v : BitVec 64) : (s.result d v).me = s.me.result d v := by
  unfold State.result; rw [State.me_modMe]

theorem ctl_result_eq (c : Ctl) (d : Reg) (v : BitVec 64) :
    c.result d v = { c with regs := (c.put d v).regs, ip := c.ip + 4, instret := c.instret + 1 } := by
  unfold Ctl.result Ctl.put; split <;> rfl

/-- An instruction that writes one register and completes (R205). -/
theorem sets_result (s : State) (d : Reg) (v : BitVec 64) : Sets d v s (s.result d v) := by
  refine ⟨onlyMe_modMe _ _, sameBytes_modMe _ _, ?_, ?_, ?_, ?_, ?_⟩
  · rw [OnlyRegs, me_result, ctl_result_eq]
  · intro r hr; rw [me_result]; exact Ctl.regs_put_ne _ _ hr
  · rw [State.reg_result]
    by_cases hd : d = 0
    · subst hd; simp [State.reg, Ctl.get]
    · rw [if_pos ⟨rfl, hd⟩, if_neg hd]
  · rw [me_result]; simp
  · rw [me_result]; simp

theorem next_writes {s : State} {d : Reg} {v w : BitVec 64} (h : v = w) : Next (s.writes d v) (Sets d w s) := by
  subst h; exact ⟨_, rfl, sets_result _ _ _⟩

/-- An instruction that completes without writing a register. -/
theorem me_retire (s : State) : s.retire.me = { s.me with ip := s.me.ip + 4, instret := s.me.instret + 1 } := by
  unfold State.retire; rw [State.me_modMe]; rfl

theorem goes_goto (s : State) (t : BitVec 64) : Goes t s (s.modMe (fun c => c.goto t)) := by
  refine ⟨onlyMe_modMe _ _, sameBytes_modMe _ _, ?_, ?_, ?_, ?_⟩ <;> simp [OnlyRegs, Ctl.goto]

/-! ### Traps (R236) -/

/-- A trap of a controller in firmware mode enters and does nothing else. -/
theorem trap_fw {s : State} (h : s.me.fw = true) (cause err : Nat) (kind : TrapKind) (val : BitVec 64) :
    s.trap cause kind err val = s.modMe (fun c => c.trapEntry (trapWord cause kind err false) val) := by
  unfold State.trap State.trapAt
  have : (s.ctlAt s.here).fw = true := h
  simp [this, State.modMe]

/-- A trap of a controller in team mode enters, and firmware answers it (R350). -/
theorem trap_team {s : State} (h : s.me.fw = false) (cause err : Nat) (kind : TrapKind) (val : BitVec 64) :
    s.trap cause kind err val =
      (s.modMe (fun c => c.trapEntry (trapWord cause kind err false) val)).firmware s.here cause val := by
  unfold State.trap State.trapAt
  have : (s.ctlAt s.here).fw = false := h
  simp [this, State.modMe]

/-! ### Where an access takes place (R208, R288, R361) -/

/-- What an operation on a core that leaves its controller leaves of every controller. -/
theorem ctlAt_modCore (s : State) (p q : Nat) (f : Core → Core) (h : ∀ c, (f c).ctl = c.ctl) :
    (s.modCore p f).ctlAt q = s.ctlAt q := by
  unfold State.ctlAt; rw [State.coreAt_modCore]; split
  · next e => subst e; exact h _
  · rfl

/-- Two states that differ in no controller. -/
abbrev Alike (s z : State) : Prop := z.here = s.here ∧ ∀ q, z.ctlAt q = s.ctlAt q

theorem Alike.rfl' {s : State} : Alike s s := ⟨rfl, fun _ => rfl⟩

theorem Alike.trans {s y z : State} (a : Alike s y) (b : Alike y z) : Alike s z :=
  ⟨b.1.trans a.1, fun q => (b.2 q).trans (a.2 q)⟩

theorem alike_modCore (s : State) (p : Nat) (f : Core → Core) (h : ∀ c, (f c).ctl = c.ctl) : Alike s (s.modCore p f) :=
  ⟨rfl, fun q => ctlAt_modCore s p q f h⟩

theorem alike_foldl {α : Type} {f : State → α → State} (hf : ∀ z a, Alike z (f z a)) (l : List α) (s : State) :
    Alike s (l.foldl f s) := by
  induction l generalizing s with
  | nil => exact Alike.rfl'
  | cons a l ih => exact (hf s a).trans (ih _)

/-- Shadows made before a write (R365) change no controller. -/
theorem shadowsFor_alike (part va pa : Nat) (l : List (Nat × Slot)) : ∀ {s y : State}, s.shadowsFor part va pa l = some y → Alike s y := by
  induction l with
  | nil => intro s y h; cases h; exact Alike.rfl'
  | cons x l ih =>
    intro s y h
    unfold State.shadowsFor at h
    split at h
    · cases h
    · next z hz =>
      refine Alike.trans ?_ (ih h)
      unfold State.shadowFor at hz
      split at hz <;> cases hz
      exact ⟨rfl, fun _ => rfl⟩

/-- A granule copied before a write (R365) changes no controller. -/
theorem cowBefore_ok {s y : State} {part va pa : Nat} (h : s.cowBefore part va pa = some y) : Alike s y :=
  shadowsFor_alike _ _ _ _ h

/-- A page made ready to be written (R365) changes no controller. -/
theorem readyPage_alike (s : State) (part va pa : Nat) (pte : BitVec 64) : Alike s (s.readyPage part va pa pte) := by
  unfold State.readyPage
  split
  · cases h : s.cowBefore part va pa with
    | none => exact ⟨rfl, fun _ => rfl⟩
    | some y => exact cowBefore_ok h
  · exact Alike.rfl'

/-- Pieces of global memory written change no controller. -/
theorem putPieces_alike {s y : State} {part : Nat} {l : List (Nat × Nat × Memory)} (h : s.putPieces part l = some y) : Alike s y := by
  simp only [State.putPieces, Option.map_eq_some_iff] at h
  obtain ⟨r, hr, rfl⟩ := h
  refine Alike.trans (y := r.1) ?_ (by
    split
    · exact Alike.rfl'
    · exact alike_foldl (f := fun z (x : (Nat × Nat × Memory) × Nat) => z.putCells x.2 x.1.2.1 x.1.2.2) (fun z a => ⟨rfl, fun _ => rfl⟩) _ _)
  have : ∀ (l : List Nat) (z : Option (State × List Nat)), (∀ y, z = some y → Alike s y.1) →
      l.foldl (fun z va => z.bind (fun y => match y.1.xlatTable part va .write with
        | .ok pa pte => some (y.1.readyPage part va pa pte, y.2 ++ [pa])
        | _ => none)) z = some r → Alike s r.1 := by
    intro l
    induction l with
    | nil => intro z hz e; exact hz r e
    | cons va l ih =>
      intro z hz e
      refine ih _ (fun y hy => ?_) e
      cases z with
      | none => cases hy
      | some w =>
        simp only [Option.bind_some] at hy
        split at hy
        · cases hy; exact (hz w rfl).trans (readyPage_alike _ _ _ _ _)
        · cases hy
  exact this _ _ (fun y hy => by cases hy; exact Alike.rfl') hr

/-- An eviction changes a bank's tag, a save and its area alone (R361), and no controller. -/
theorem evictBank_alike (s : State) (p b : Nat) : Alike s (s.evictBank p b) := by
  have area : ∀ (v : Saved) (l : Nat) (cells : Memory), Alike s (s.areaBank v l b cells) := by
    intro v l cells
    unfold State.areaBank
    split
    · cases h : s.putGlobal _ _ _ _ with
      | none => exact Alike.rfl'
      | some y => exact putPieces_alike h
    · exact Alike.rfl'
  have tag : ∀ z : State, Alike s z → Alike s (z.modCore p (fun c => { c with bankTags := terase c.bankTags b })) :=
    fun z hz => hz.trans (alike_modCore z p _ (fun _ => rfl))
  unfold State.evictBank
  split
  · exact Alike.rfl'
  · dsimp only
    split
    · exact tag _ (area _ _ _)
    · exact tag _ Alike.rfl'

theorem touch_alike (s : State) (p o : Nat) : Alike s (s.touch p o) := by
  unfold State.touch
  (repeat' split) <;> first | exact Alike.rfl' | exact evictBank_alike _ _ _

theorem joinWalk_alike (s : State) (p part page who : Nat) : Alike s (s.joinWalk p part page who) := by
  unfold State.joinWalk
  simp only []
  (repeat' split) <;> exact Alike.rfl'

theorem useEntry_alike (s : State) (part va : Nat) (kind : Acc3) (t : TlbEnt) : Alike s (s.useEntry part va kind t).2 := by
  unfold State.useEntry
  (repeat' split) <;> exact Alike.rfl'

/-- A translation changes buffers, walks and free choices alone (R289). -/
theorem translate_alike (s : State) (p part va : Nat) (kind : Acc3) (who : Nat) :
    Alike s (s.translate p part va kind who).2 := by
  unfold State.translate
  simp only []
  have h : Alike s (s.dropStale p who (s.walkPage part va)) := by
    unfold State.dropStale
    split
    · exact alike_modCore _ _ _ (fun _ => rfl)
    · exact Alike.rfl'
  generalize s.dropStale p who (s.walkPage part va) = y at h ⊢
  refine Alike.trans h ?_
  split
  · exact alike_modCore _ _ _ (fun _ => rfl)
  · split
    · exact useEntry_alike _ _ _ _ _
    · split
      · next t _ =>
        refine Alike.trans (y := (y.modCore p (fun c => { c with tlb := tlbPut 256 (Config.freeNat y.free) c.tlb t })).draw)
          ?_ (useEntry_alike _ _ _ _ _)
        exact Alike.trans (alike_modCore y p (fun c => { c with tlb := tlbPut 256 (Config.freeNat y.free) c.tlb t }) (fun _ => rfl))
          Alike.rfl'
      · exact joinWalk_alike _ _ _ _ _

/-- Locating an access changes no controller (R208). -/
theorem locate_alike (s : State) (a : BitVec 64) (kind : Acc3) (peers : Bool) : Alike s (s.locate a kind peers).2 := by
  unfold State.locate
  simp only []
  split
  · next va _ =>
    have h := translate_alike s s.here (s.partOf s.here) va kind whoCtl
    generalize s.translate s.here (s.partOf s.here) va kind whoCtl = x at h ⊢
    obtain ⟨v, y⟩ := x
    rcases v with (_ | _ | _) | _ <;> exact h
  · exact touch_alike _ _ _
  · split
    · exact Alike.rfl'
    · split
      · exact Alike.rfl'
      · exact touch_alike _ _ _
  · exact Alike.rfl'
  · exact Alike.rfl'

/-- The controller whose turn it is, in a state like another. -/
theorem Alike.me_eq {s z : State} (h : Alike s z) : z.me = s.me := by unfold State.me; rw [h.1]; exact h.2 _

/-- What a read through the data cache gives where no byte is uncorrectable (R220): memory's bytes, or those of a line held
earlier; only the data cache changes. -/
theorem readLine_cases (s : State) (pa n : Nat) (h : s.badIn pa n = false) :
    ∃ v y, s.readLine pa n = (some v, y) ∧ y.mem = s.mem ∧ y.bad = s.bad ∧ y.here = s.here ∧ y.parts = s.parts ∧ OnlyCtl s y ∧
      (∃ dc, y.me = { s.me with dcache := dc }) ∧
      (v = s.peek pa n ∨ ∃ cells, tget s.me.dcache (pa / 1024) = some cells ∧ v = readBytes cells (pa % 1024) n) := by
  have fill : ∀ z : State, z.mem = s.mem → z.bad = s.bad → z.here = s.here → z.parts = s.parts → (∀ q, z.ctlAt q = s.ctlAt q) →
      ∀ g g' : Ctl → Ctl, (∀ c, ∃ dc, g c = { c with dcache := dc }) → (∀ c, ∃ dc, g' c = { c with dcache := dc }) →
      ∃ v y, (if z.badIn (pa / lineBytes * lineBytes) lineBytes then (some (s.peek pa n), z.modMe g') else (some (s.peek pa n), z.modMe g)) =
      (some v, y) ∧ y.mem = s.mem ∧ y.bad = s.bad ∧
      y.here = s.here ∧ y.parts = s.parts ∧ OnlyCtl s y ∧ (∃ dc, y.me = { s.me with dcache := dc }) ∧
      (v = s.peek pa n ∨ ∃ cells, tget s.me.dcache (pa / 1024) = some cells ∧ v = readBytes cells (pa % 1024) n) := by
    intro z h1 h2 h3 h4 h5 g g' hg hg'
    have hme : z.me = s.me := by unfold State.me; rw [h3]; exact h5 _
    have one : ∀ f : Ctl → Ctl, (∀ c, ∃ dc, f c = { c with dcache := dc }) →
        OnlyCtl s (z.modMe f) ∧ ∃ dc, (z.modMe f).me = { s.me with dcache := dc } := fun f hf =>
      ⟨fun q hq => by rw [← h5 q]; exact onlyCtl_modMe z f q (by rw [h3]; exact hq), by rw [State.me_modMe, hme]; exact hf _⟩
    split
    · exact ⟨s.peek pa n, z.modMe g', rfl, h1, h2, h3, h4, (one g' hg').1, (one g' hg').2, .inl rfl⟩
    · exact ⟨s.peek pa n, z.modMe g, rfl, h1, h2, h3, h4, (one g hg).1, (one g hg).2, .inl rfl⟩
  unfold State.readLine
  dsimp only
  rw [h, if_neg Bool.false_ne_true]
  cases hl : tget s.me.dcache (pa / lineBytes) with
  | none => exact fill s rfl rfl rfl rfl (fun _ => rfl) _ _ (fun c => ⟨_, rfl⟩) (fun c => ⟨_, rfl⟩)
  | some cells =>
    dsimp only
    split
    · exact ⟨_, _, rfl, rfl, rfl, rfl, rfl, fun _ _ => rfl, ⟨s.me.dcache, rfl⟩, .inl rfl⟩
    · split
      · exact ⟨_, _, rfl, rfl, rfl, rfl, rfl, fun _ _ => rfl, ⟨s.me.dcache, rfl⟩, .inr ⟨cells, hl, rfl⟩⟩
      · exact fill s.draw rfl rfl rfl rfl (fun _ => rfl) _ _ (fun c => ⟨_, rfl⟩) (fun c => ⟨_, rfl⟩)

/-- A load of n bytes that is aligned, stands at a key and meets no uncorrectable word (R219, R220), in the state that locating it
leaves. -/
theorem load_ok {s z : State} {a : BitVec 64} {n align k : Nat} {peers : Bool} {l : Loc} (ha : a.toNat % align = 0)
    (hl : s.locate a .read peers = (l, z)) (hp : l.place = some k) (hb : z.badIn k n = false) :
    ∃ v y, s.load a n align peers = .ok v y ∧ y.mem = z.mem ∧ y.here = s.here ∧ OnlyCtl s y ∧
      (∃ dc, y.me = { s.me with dcache := dc }) ∧
      (v = readBytes z.mem k n ∨
        ∃ pa va pte cells, l = .line pa va pte ∧ tget z.me.dcache (k / 1024) = some cells ∧ v = readBytes cells (k % 1024) n) := by
  have hf : Alike s z := by have := locate_alike s a .read peers; rw [hl] at this; exact this
  unfold State.load
  rw [if_neg (by simp [ha]), hl]
  cases l with
  | trap => simp [Loc.place] at hp
  | wait => simp [Loc.place] at hp
  | key k' =>
    simp only [Loc.place, Option.some.injEq] at hp; subst hp
    simp only [hb, Bool.false_eq_true, if_false]
    exact ⟨_, _, rfl, rfl, hf.1, fun q _ => hf.2 q, ⟨s.me.dcache, by rw [hf.me_eq]⟩, .inl rfl⟩
  | line pa va pte =>
    simp only [Loc.place, Option.some.injEq] at hp; subst hp
    obtain ⟨v, y, h1, h2, h3, h4, h5, h6, ⟨dc, h7⟩, h8⟩ := readLine_cases z pa n hb
    simp only [h1]
    refine ⟨v, y, rfl, h2, h4.trans hf.1, ?_, ⟨dc, by rw [h7, hf.me_eq]⟩, ?_⟩
    · intro q hq; rw [h6 q (by rw [hf.1]; exact hq)]; exact hf.2 q
    · rcases h8 with rfl | ⟨c, h8, rfl⟩
      · exact .inl rfl
      · exact .inr ⟨_, _, _, c, rfl, h8, rfl⟩

/-! ### Stores and atomics (R219, R221) -/

/-- A write through the data cache (R220): memory's bytes, and the line held. -/
theorem writeLine_ok (s : State) (pa : Nat) (bytes : List Byte) :
    (s.writeLine pa bytes).mem = writeBytes s.mem pa bytes ∧ (s.writeLine pa bytes).here = s.here ∧
      OnlyCtl s (s.writeLine pa bytes) ∧ ∃ dc, (s.writeLine pa bytes).me = { s.me with dcache := dc } := by
  unfold State.writeLine
  refine ⟨rfl, rfl, onlyCtl_modMe (s.poke pa bytes) _, ?_⟩
  rw [State.me_modMe]
  show ∃ dc, _ = { (s.poke pa bytes).me with dcache := dc }
  generalize (s.poke pa bytes).me = c
  split
  · exact ⟨_, rfl⟩
  · exact ⟨c.dcache, rfl⟩

/-- What a place is ready for a write leaves (R365): no controller changes, and no byte of a page that is not
copy-on-write. -/
theorem split_ok {z y : State} {l : Loc} (h : z.split l = some y) :
    y.here = z.here ∧ (∀ q, y.ctlAt q = z.ctlAt q) ∧ (l.cow = false → y = z) := by
  unfold State.split at h
  cases l with
  | key k => cases h; exact ⟨rfl, fun _ => rfl, fun _ => rfl⟩
  | trap c e => cases h; exact ⟨rfl, fun _ => rfl, fun _ => rfl⟩
  | wait => cases h; exact ⟨rfl, fun _ => rfl, fun _ => rfl⟩
  | line pa va pte =>
    dsimp only at h
    split at h
    · next hc =>
      obtain ⟨h1, h2⟩ := cowBefore_ok h
      exact ⟨h1, h2, fun e => absurd hc (by simpa [Loc.cow] using e)⟩
    · cases h; exact ⟨rfl, fun _ => rfl, fun _ => rfl⟩

/-- Bytes put at a place: those bytes of memory and the data cache alone, once its granule has been copied (R365). -/
theorem storeAt_ok {z y : State} {l : Loc} {k : Nat} (bytes : List Byte) (hp : l.place = some k) (h : z.split l = some y) :
    ∃ t, z.storeAt l bytes = some t ∧ t.mem = writeBytes y.mem k bytes ∧ t.here = z.here ∧ OnlyCtl z t ∧
      ∃ dc, t.me = { z.me with dcache := dc } := by
  obtain ⟨h1, h2, -⟩ := split_ok h
  have hme : y.me = z.me := by unfold State.me; rw [h1]; exact h2 _
  unfold State.storeAt
  unfold State.split at h
  cases l with
  | trap => simp [Loc.place] at hp
  | wait => simp [Loc.place] at hp
  | key k' =>
    simp only [Loc.place, Option.some.injEq] at hp; subst hp; cases h
    exact ⟨_, rfl, rfl, rfl, fun _ _ => rfl, z.me.dcache, rfl⟩
  | line pa va pte =>
    simp only [Loc.place, Option.some.injEq] at hp; subst hp
    obtain ⟨w1, w2, w3, dc, w4⟩ := writeLine_ok y pa bytes
    dsimp only at h ⊢
    refine ⟨y.writeLine pa bytes, ?_, w1, w2.trans h1, ?_, dc, by rw [w4, hme]⟩
    · split at h
      · next hc => simp [hc, h]
      · next hc => cases h; simp [hc]
    · intro q hq; rw [w3 q (by rw [h1]; exact hq)]; exact h2 q

/-- An aligned store that stands at a place (R219): those bytes of memory, the data cache, ip and INSTRET alone, once its
granule has been copied (R365), in the state that locating it leaves. -/
theorem storeFrom_ok {s z y : State} {n : Nat} {r a : Reg} {imm : BitVec 16} {l : Loc} {k : Nat}
    (hal : (s.reg a + imm.signExtend 64).toNat % n = 0) (hloc : s.locate (s.reg a + imm.signExtend 64) .write true = (l, z))
    (hp : l.place = some k) (hsp : z.split l = some y) :
    let t := s.storeFrom n r a imm
    t.mem = writeBytes y.mem k (bytesOfNat (s.reg r).toNat n) ∧ OnlyCtl s t ∧ (l.cow = false → SameBytes z y) ∧
      ∃ dc, t.me = { s.me with dcache := dc, ip := s.me.ip + 4, instret := s.me.instret + 1 } := by
  have hf : Alike s z := by have := locate_alike s (s.reg a + imm.signExtend 64) .write true; rw [hloc] at this; exact this
  obtain ⟨t, h1, h2, h3, h4, dc, h5⟩ := storeAt_ok (bytesOfNat (s.reg r).toNat n) hp hsp
  obtain ⟨g1, g2, g3⟩ := split_ok hsp
  have ht : s.storeFrom n r a imm = t.retire := by
    unfold State.storeFrom State.store effAddr simm
    dsimp only
    rw [length_bytesOfNat, if_neg (by simpa using hal), hloc]
    cases l with
    | trap => simp [Loc.place] at hp
    | wait => simp [Loc.place] at hp
    | key k' => simp only [h1]; rfl
    | line pa va pte => simp only [h1]; rfl
  rw [ht]
  refine ⟨h2, ?_, ?_, dc, ?_⟩
  · intro q hq
    have : t.retire.ctlAt q = t.ctlAt q := onlyCtl_modMe _ _ q (by rw [h3, hf.1]; exact hq)
    rw [this, h4 q (by rw [hf.1]; exact hq)]; exact hf.2 q
  · intro hc x; rw [g3 hc]
  · rw [me_retire, h5, hf.me_eq]

/-- An instruction that acquires, writes one register and completes (R224). -/
theorem acquire_result (s : State) (d : Reg) (v : BitVec 64) :
    OnlyMe s (s.acquire.result d v) ∧ SameBytes s (s.acquire.result d v) ∧
      (s.acquire.result d v).reg d = (if d = 0 then 0 else v) ∧ RegsBut d s.me (s.acquire.result d v).me ∧
      (s.acquire.result d v).me = { s.me with
        regs := (s.acquire.result d v).me.regs, dcache := [], ip := s.me.ip + 4, instret := s.me.instret + 1 } := by
  obtain ⟨r1, r2, r3, r4, r5, r6, r7⟩ := sets_result s.acquire d v
  have hx : s.acquire.me = { s.me with dcache := [] } := by unfold State.acquire; rw [State.me_modMe]
  refine ⟨⟨⟨rfl, ?_, ?_⟩, rfl, rfl⟩, fun _ => rfl, r5, ?_, ?_⟩
  · intro q hq; exact (r1.1.2.1 q hq).trans ((onlyMe_modMe s _).1.2.1 q hq)
  · have h1 := r1.1.2.2
    have h2 : s.acquire.coreAt s.here = { s.coreAt s.here with ctl := s.acquire.me } := (onlyMe_modMe s _).1.2.2
    have h3 : s.acquire.here = s.here := rfl
    rw [h3, h2] at h1
    exact h1
  · intro r hr; rw [r4 r hr, hx]
  · rw [me_result, ctl_result_eq, hx]

/-- An aligned atomic that stands at a place (R221): the old value in sd, the new one's bytes in memory, the data cache
emptied. -/
theorem amo_ok {s z y : State} {d a b : Reg} {nr : Bool} {op : (w : Nat) → BitVec w → BitVec w → BitVec w} {l : Loc} {k : Nat}
    (hal : (s.reg a).toNat % ((if nr then 32 else 64) / 8) = 0) (hloc : s.locate (s.reg a) .write true = (l, z)) (hp : l.place = some k)
   (hb : z.badIn k ((if nr then 32 else 64) / 8) = false) (hsp : z.split l = some y) :
   let w := (if nr then 32 else 64)
   let old := BitVec.ofNat w (readNat z.mem k (w / 8))
   let t := s.amo d a b nr op
   t.reg d = (if d = 0 then 0 else old.signExtend 64) ∧ RegsBut d s.me t.me ∧ OnlyAccess s t ∧ t.me.dcache = [] ∧ t.me.ip = s.me.ip + 4 ∧
   t.mem = writeBytes y.mem k (bytesOfNat (op w old (BitVec.ofNat w (s.reg b).toNat)).toNat (w/8)) ∧ (l.cow = false → SameBytes z y) := by
  intro w old t
  have hf : Alike s z := by have := locate_alike s (s.reg a) .write true; rw [hloc] at this; exact this
  obtain ⟨x, h1, h2, h3, h4, dc, h5⟩ := storeAt_ok (bytesOfNat (op w old (BitVec.ofNat w (s.reg b).toNat)).toNat (w/8)) hp hsp
  obtain ⟨g1, g2, g3⟩ := split_ok hsp
  have hpk : z.peekNat k (w / 8) = readNat z.mem k (w / 8) := rfl
  have ht : t = (x.acquire).result d (old.signExtend 64) := by
    show s.amo d a b nr op = _
    unfold State.amo State.atomic
    dsimp only
    rw [if_neg (by simpa [w] using hal)]
    rw [hloc]
    have hbz : z.badIn k (w / 8) = false := hb
    cases l with
    | trap => simp [Loc.place] at hp
    | wait => simp [Loc.place] at hp
    | key k' =>
      simp only [Loc.place, Option.some.injEq] at hp; subst hp
      simp only [w] at hbz h1 hpk
      simp only [hbz, hpk]
      have : old.toNat = old.toNat := rfl
      simp only [old, w] at h1
      simp only [h1]
      rfl
    | line pa va pte =>
      simp only [Loc.place, Option.some.injEq] at hp; subst hp
      simp only [w] at hbz h1 hpk
      simp only [hbz, hpk]
      simp only [old, w] at h1
      simp only [h1]
      rfl
  have hx : x.acquire.me = { s.me with dcache := [] } := by
    unfold State.acquire; rw [State.me_modMe, h5, hf.me_eq]
  obtain ⟨r1, r2, r3, r4, r5, r6, r7⟩ := sets_result x.acquire d (old.signExtend 64)
  refine ⟨by rw [ht]; exact r5, ?_, ⟨?_, ?_⟩, ?_, ?_, ?_, ?_⟩
  · intro r hr; rw [ht, r4 r hr, hx]
  · intro q hq
    have hxh : x.here = s.here := h3.trans hf.1
    have e1 : (x.acquire.result d (old.signExtend 64)).ctlAt q = x.acquire.ctlAt q := onlyCtl_modMe _ _ q (by show q ≠ x.here; rw [hxh]; exact hq)
    have e2 : x.acquire.ctlAt q = x.ctlAt q := onlyCtl_modMe _ _ q (by rw [hxh]; exact hq)
    rw [ht, e1, e2, h4 q (by rw [hf.1]; exact hq)]; exact hf.2 q
  · rw [ht, me_result, ctl_result_eq, hx]
  · rw [ht, me_result, ctl_result_eq, hx]
  · rw [ht, me_result, ctl_result_eq, hx]
  · rw [ht]; exact h2
  · intro hc q; rw [g3 hc]

end Sys2Proof.Machine
end

