-- ==== Sys2Proof/Tests/Slice0.lean ====
section
/-!
SUPPORT. Tests: words written out from the spec's encodings, ill-formed instructions, steps whose results the spec works out, and for
every statement with hypotheses states in which they hold.
-/

namespace Sys2Proof.Tests

set_option Elab.async false

open Machine Claim

/-! ### Decoding -/

/-- Whether each word decodes to the instruction beside it. -/
def reads (l : List (BitVec 32 × Instr)) : Bool := l.all (fun x => (decodeWord x.1).toOption == some x.2)

/-- R212, R214: words written out from their fields. -/
theorem test_decode_alu : reads
  [(0b000000_00011_10100_01001_00000000000#32, .add 3 20 9),
   (0b000000_00011_10100_01001_00000000001#32, .sub 3 20 9),
   (0b000000_00011_10100_01001_00000000010#32, .and 3 20 9),
   (0b000000_00011_10100_01001_00000000011#32, .or 3 20 9),
   (0b000000_00011_10100_01001_00000000100#32, .xor 3 20 9),
   (0b000000_00011_10100_01001_00000000101#32, .sll 3 20 9),
   (0b000000_00011_10100_01001_00000000110#32, .srl 3 20 9),
   (0b000000_00011_10100_01001_00000000111#32, .sra 3 20 9),
   (0b000000_00011_10100_01001_00000001000#32, .slt 3 20 9),
   (0b000000_00011_10100_01001_00000001001#32, .sltu 3 20 9),
   (0b000000_00011_10100_01001_00000001010#32, .mul 3 20 9),
   (0b000000_00011_10100_01001_00000001011#32, .mulh 3 20 9),
   (0b000000_00011_10100_01001_00000001100#32, .mulhu 3 20 9),
   (0b000000_00011_10100_01001_00000001101#32, .div 3 20 9),
   (0b000000_00011_10100_01001_00000001110#32, .divu 3 20 9),
   (0b000000_00011_10100_01001_00000001111#32, .rem 3 20 9),
   (0b000000_00011_10100_01001_00000010000#32, .remu 3 20 9),
   (0b000000_00011_10100_01001_00000010001#32, .min 3 20 9),
   (0b000000_00011_10100_01001_00000010010#32, .max 3 20 9),
   (0b000000_00011_10100_01001_00000010011#32, .minu 3 20 9),
   (0b000000_00011_10100_01001_00000010100#32, .maxu 3 20 9),
   (0b000000_00011_10100_00000_00000010101#32, .clz 3 20),
   (0b000000_00011_10100_00000_00000010110#32, .ctz 3 20),
   (0b000000_00011_10100_00000_00000010111#32, .popc 3 20)] = true := by decide +kernel

/-- R212, R216: words written out from their fields. -/
theorem test_decode_immediate : reads
  [(0b000001_00111_10010_1111111111111110#32, .addi 7 18 0xFFFE),
   (0b000010_00111_10010_1111111111111110#32, .andi 7 18 0xFFFE),
   (0b000011_00111_10010_1111111111111110#32, .ori 7 18 0xFFFE),
   (0b000100_00111_10010_1111111111111110#32, .xori 7 18 0xFFFE),
   (0b000101_00111_10010_1111111111111110#32, .slti 7 18 0xFFFE),
   (0b000110_00111_10010_1111111111111110#32, .sltiu 7 18 0xFFFE),
   (0b000111_00111_10010_00_00000000_101101#32, .slli 7 18 45),
   (0b000111_00111_10010_01_00000000_101101#32, .srli 7 18 45),
   (0b000111_00111_10010_10_00000000_101101#32, .srai 7 18 45),
   (0b001000_00111_00000_1000000000000001#32, .lui 7 0x8001),
   (0b001001_00111_00000_1000000000000001#32, .luih 7 0x8001)] = true := by decide +kernel

/-- R212, R217, R218: words written out from their fields. -/
theorem test_decode_jumps : reads
  [(0b010000_00011_10100_1000000000000000#32, .beq 3 20 0x8000),
   (0b010001_00011_10100_1000000000000000#32, .bne 3 20 0x8000),
   (0b010010_00011_10100_1000000000000000#32, .blt 3 20 0x8000),
   (0b010011_00011_10100_1000000000000000#32, .bge 3 20 0x8000),
   (0b010100_00011_10100_1000000000000000#32, .bltu 3 20 0x8000),
   (0b010101_00011_10100_1000000000000000#32, .bgeu 3 20 0x8000),
   (0b010110_10000000000000000000000001#32, .jal 0x2000001),
   (0b010111_00011_10100_1111111111111100#32, .jalr 3 20 0xFFFC)] = true := by decide +kernel

/-- R212, R219: words written out from their fields. -/
theorem test_decode_memory : reads
  [(0b011000_00011_10100_1111111111111000#32, .ldb 3 20 0xFFF8),
   (0b011001_00011_10100_1111111111111000#32, .ldbu 3 20 0xFFF8),
   (0b011010_00011_10100_1111111111111000#32, .ldh 3 20 0xFFF8),
   (0b011011_00011_10100_1111111111111000#32, .ldhu 3 20 0xFFF8),
   (0b011100_00011_10100_1111111111111000#32, .ldw 3 20 0xFFF8),
   (0b011101_00011_10100_1111111111111000#32, .ldwu 3 20 0xFFF8),
   (0b011110_00011_10100_1111111111111000#32, .ldd 3 20 0xFFF8),
   (0b100000_00011_10100_0000000000010000#32, .stb 3 20 0x0010),
   (0b100001_00011_10100_0000000000010000#32, .sth 3 20 0x0010),
   (0b100010_00011_10100_0000000000010000#32, .stw 3 20 0x0010),
   (0b100011_00011_10100_0000000000010000#32, .std 3 20 0x0010)] = true := by decide +kernel

/-- R212, R221, R222: words written out from their fields. -/
theorem test_decode_atomics : reads
  [(0b100100_00011_10100_01001_000_000_0_0000#32, .amoadd 3 20 9 0 false),
   (0b100100_00011_10100_01001_001_000_1_0001#32, .amoswap 3 20 9 1 true),
   (0b100100_00011_10100_01001_010_000_0_0010#32, .amocas 3 20 9 2 false),
   (0b100100_00011_10100_01001_011_000_1_0011#32, .amomin 3 20 9 3 true),
   (0b100100_00011_10100_01001_100_000_0_0100#32, .amomax 3 20 9 4 false),
   (0b100100_00011_10100_01001_000_000_1_0101#32, .amominu 3 20 9 0 true),
   (0b100100_00011_10100_01001_001_000_0_0110#32, .amomaxu 3 20 9 1 false),
   (0b100100_00011_10100_01001_010_000_1_0111#32, .amoand 3 20 9 2 true),
   (0b100100_00011_10100_01001_011_000_0_1000#32, .amoor 3 20 9 3 false),
   (0b100100_00011_10100_01001_100_000_1_1001#32, .amoxor 3 20 9 4 true),
   (0b100101_00000_00000_000000000100_0000#32, .fence 4)] = true := by decide +kernel

/-- R212, R225–R229, R231, R232, R234: words written out from their fields. -/
theorem test_decode_commands_and_tasks : reads
  [(0b101000_110_00_10100_01001_00000000000#32, .cmdw 6 20 9),
   (0b101001_110_00_10100_1111111111110000#32, .cmdld 6 20 0xFFF0),
   (0b101010_110_100111111111_00000000000#32, .cmdi 6 0x9FF),
   (0b101011_00011_10100_00_110_00000000000#32, .cmdq 3 20 6),
   (0b101100_00000_10100_01001_00000000_110#32, .tsend 20 9 6),
   (0b101101_00011_10100_000000000_110_0000#32, .trecv 3 20 6),
   (0b101110_00011_10100_0000000000_10_0000#32, .iwait 3 20 2),
   (0b101111_00000_10100_00000000_1011_0000#32, .bari 20 11),
   (0b101111_00000_10100_00000000_1011_0001#32, .bara 20 11),
   (0b101111_00011_10100_00000000_1011_0010#32, .barw 3 20 11),
   (0b101111_00011_10100_00000000_1011_0011#32, .baraw 3 20 11),
   (0b110000_00011_10100_01001_00000000000#32, .sig 3 20 9),
   (0b110001_00011_10100_00000_00000000000#32, .spawn 3 20),
   (0b110010_00011_10100_00000_00000000000#32, .join 3 20)] = true := by decide +kernel

/-- R212, R235, R237, R240, R241: words written out from their fields. -/
theorem test_decode_system : reads
  [(0b111000_00011_00000_000001000011_0000#32, .csrr 3 0x043),
   (0b111000_00000_10100_000001000011_0001#32, .csrw 20 0x043),
   (0b111000_00000_10100_000001000011_0010#32, .csrs 20 0x043),
   (0b111000_00000_10100_000001000011_0011#32, .csrc 20 0x043),
   (0b111001_00000_00000_101010111100_0000#32, .trap 0xABC),
   (0b111010_00000_00000_000000000000_0000#32, .tret),
   (0b111011_00000_00000_000000000000_0000#32, .yield),
   (0b111100_00000_00000_000000000000_0000#32, .synci),
   (0b111101_00000_00000_101010111100_0000#32, .brk 0xABC)] = true := by decide +kernel

/-- R213: the words that the manual prints beside their source lines. -/
theorem test_decode_printed : reads
  [(0x00843003#32, .or 4 4 6),
   (0x0064280D#32, .div 3 4 5),
   (0x0C219ABC#32, .ori 1 1 0x9ABC),
   (0x1C210010#32, .slli 1 1 16),
   (0x1C43803F#32, .srai 2 3 63),
   (0x58000007#32, .jal 7),
   (0x5C1F0000#32, .jalr 0 31 0),
   (0x8CA20008#32, .std 5 2 8),
   (0x90A73102#32, .amocas 5 7 6 1 false),
   (0x94000010#32, .fence 1),
   (0xA4040000#32, .cmdld 0 4 0),
   (0xAC640800#32, .cmdq 3 4 1),
   (0xB0053002#32, .tsend 5 6 2),
   (0xB4400060#32, .trecv 2 0 6),
   (0xB8410000#32, .iwait 2 1 0),
   (0xBC640023#32, .baraw 3 4 2),
   (0xE0070201#32, .csrw 7 0x020),
   (0xE4000000#32, .trap 0)] = true := by decide +kernel

/-- R213–R241: an unassigned fn or opcode, a nonzero field that must be zero, a value out of range: each is no instruction. -/
theorem test_decode_refuses : ([0x00000018#32, 0x0003A015#32, 0x1C21C010#32, 0x1C210040#32, 0x20210001#32, 0x24210001#32, 0x7C000000#32, 0x90A73502#32, 0x90A73122#32, 0x94000050#32, 0xA0200000#32, 0xB4400160#32, 0xBC640024#32, 0xE0070204#32, 0xE8000001#32, 0xF8000000#32] : List (BitVec 32)).all
  (fun w => (decodeWord w).toOption == none) = true := by decide +kernel

/-- The fields of a command image: target 0xA1B2, flags 0xC3, then w1–w3 (R243). -/
def testArgs : CmdArgs := { target := 0xA1B2, flags := 0xC3, w1 := 0x11121314, w2 := 0x21222324, w3 := 0x31323334 }

/-- R243, R247: command images written out from their words, w0 lowest. -/
theorem test_decode_commands : ([
    (0x01, .feed testArgs), (0x02, .bindw testArgs), (0x03, .bound testArgs), (0x04, .steert testArgs), (0x05, .inject
    testArgs), (0x06, .retry testArgs), (0x08, .tarm testArgs), (0x09, .tfire testArgs), (0x0A, .tdisarm testArgs),
    (0x0B, .copy testArgs), (0x10, .cfgld testArgs), (0x11, .cfgq testArgs), (0x12, .domgo testArgs), (0x13, .domstop
    testArgs), (0x14, .domsave testArgs), (0x15, .domload testArgs), (0x18, .wheeldef testArgs), (0x19, .hubrd
    testArgs), (0x20, .lxrun testArgs), (0x21, .amxr testArgs), (0x22, .ckpt testArgs), (0x23, .ckdrain testArgs),
    (0x24, .bkey testArgs), (0x28, .linkcfg testArgs), (0x29, .linkstat testArgs), (0x07, .unassignedCommandCode 0x07
    testArgs)] : List (Nat × Instr)).all (fun x =>
      decodeTableWord 128 (0x31323334_21222324_11121314_A1B2C300 + x.1) == some x.2) = true := by decide +kernel

/-- The fields of a node record (R49, R54–R57): w0 = VAR 9, DOM 2, BLEN 33, BSM 1, RND 3, ABS 2, FMT 0x14; w1 = AFT, CD and AD with
endpoints 0xC1, 0xB2, 0xA3; w2 = AFTSRC 0x7F, OUTY 0xFFF, OUTX 0x123; k0–k3; state block 0x0456. -/
def testNode : NodeRec :=
  { fmt := 0x14, abs := 2, rnd := 3, bsm := 1, blen := 33, dom := 2, var := 9, inA := 0xA3, inB := 0xB2, inC := 0xC1, ad := true, bd := false,
    cd := true, aft := true, rsv1 := 0, outX := 0x123, outY := 0xFFF, aftSrc := 0x7F, k0 := 0x10000001, k1 := 0x20000002, k2 := 0x30000003,
    k3 := 0x40000004, stOff := 0x0456, rsv7 := 0 }

/-- w0 of that record but for its opcode, field by field (R49). -/
def testW0 : Nat := 0b1001_10_100001_01_11_10_010100_00000000

/-- R48–R60: records written out from their words, w0 lowest. -/
theorem test_decode_nodes : ([
    (0x00, .pass testNode), (0x01, .src testNode), (0x02, .sink testNode), (0x03, .esink testNode), (0x04, .cpyt
    testNode), (0x10, .aadd testNode), (0x11, .asub testNode), (0x12, .ahad testNode), (0x13, .amax testNode), (0x14,
    .amin testNode), (0x15, .asel testNode), (0x16, .afma testNode), (0x20, .aneg testNode), (0x21, .aabs testNode),
    (0x22, .arelu testNode), (0x23, .ascl testNode), (0x24, .amask testNode), (0x25, .aclmp testNode), (0x26, .aren
    testNode), (0x28, .aexp2 testNode), (0x29, .alog2 testNode), (0x2A, .arcp testNode), (0x2B, .arsq testNode), (0x2C,
    .asqrt testNode), (0x2D, .atanh testNode), (0x2E, .asigm testNode), (0x30, .adotP testNode), (0x31, .adott
    testNode), (0x32, .aoutr testNode), (0x33, .anrm testNode), (0x34, .alsum testNode), (0x35, .amaxr testNode), (0x40,
    .accF testNode), (0x41, .acck testNode), (0x42, .drain testNode), (0x43, .dlyb testNode), (0x44, .conv testNode),
    (0x50, .enc testNode), (0x51, .dec testNode), (0x60, .steer testNode), (0x61, .omerge testNode), (0x62, .pmerge
    testNode), (0x63, .filter testNode), (0x64, .repl testNode), (0x65, .cnt testNode), (0x66, .isect testNode), (0x67,
    .union testNode), (0x68, .pres testNode), (0x69, .dflt testNode), (0x6A, .pre testNode), (0x6B, .when testNode),
    (0x6C, .sync testNode), (0x6D, .level testNode), (0x70, .iadd testNode), (0x71, .isub testNode), (0x72, .imul
    testNode), (0x73, .ilog testNode), (0x74, .ishf testNode), (0x75, .icmp testNode), (0x76, .irng testNode), (0x77,
    .ihash testNode), (0x78, .plog testNode), (0x80, .mrd testNode), (0x81, .mwr testNode), (0x82, .mird testNode),
    (0x83, .miwr testNode), (0x84, .mrmw testNode), (0x85, .mgrp testNode), (0x86, .mgld testNode), (0x87, .mgst
    testNode), (0x88, .mfifo testNode), (0x89, .mline testNode), (0x90, .ltx testNode), (0x91, .lrx testNode), (0x92,
    .sreq testNode), (0x93, .red2 testNode), (0x94, .statw testNode)] : List (Nat × Instr)).all (fun x =>
      decodeTableWord 256 (0x00000456_40000004_30000003_20000002_10000001_7FFFF123_0DC1B2A3_00000000 + testW0 + x.1) == some x.2) = true := by
  decide +kernel

/-- R60: the forms of ADOT and ACC that VAR bit 0 selects. -/
theorem test_decode_variants : decodeTableWord 256 0xA0000430 = some (.adotW (nodeFields 0xA0000430)) ∧
    decodeTableWord 256 0xA0000440 = some (.acc (nodeFields 0xA0000440)) ∧ decodeTableWord 256 0x05 = none := by
  decide +kernel

/-! ### Small states -/

/-- A domain that runs without a limit. -/
def openDom : Dom := { Dom.fresh with unlim := true }

/-- A region of one core with one such domain. -/
def testRegion : Region :=
  { row := 0, col := 0, h := 1, w := 1, part := 0, configured := true, ident := 0, image := 0, doms := [openDom], detail := 0, begun := true,
    fired := false, quiet := false, team := some 0, kept := [] }

/-- A running team of the core at position 0. -/
def testTeam : Team := { loneTeam 0 with st := .running }

/-- A package with that team on one core. -/
def oneCore (c : Core) : State :=
  { State.reset with
    booted := true, cores := [(0, { c with team := some 0, region := some 0 })], regions := [(0, testRegion)], teams := [(0, testTeam)] }

/-- A core with a running controller. -/
def running (c : Ctl) : Core := { Core.reset with ctl := { c with run := .running, ip := placedIp } }

/-- A controller after reset with values in s1, s2 and s3. -/
def withRegs (x y z : BitVec 64) : Ctl := ((Ctl.reset.put 1 x).put 2 y).put 3 z

/-- The package in the turn of core 0's controller, with values in s1, s2 and s3. -/
def scalar (x y z : BitVec 64) : State := oneCore (running (withRegs x y z))

/-- A node record with inputs from endpoints 1, 2 and 3 and no output connected. -/
def blankRec : NodeRec :=
  { fmt := 1, abs := 0, rnd := 0, bsm := 0, blen := 1, dom := 0, var := 0, inA := 1, inB := 2, inC := 3, ad := false, bd := false, cd := false,
    aft := false, rsv1 := 0, outX := 0xFFF, outY := 0xFFF, aftSrc := 0, k0 := 0, k1 := 0, k2 := 0, k3 := 0, stOff := 0, rsv7 := 0 }

/-- A channel that holds a status for instant 0. -/
def oneChan (x : Status) : Chan := { ent := 0x3F000, q := [(1, x)], wire := [] }

/-- A configuration of one node, its inputs as given. -/
def oneNode (slot : Nat) (n : Node) (a b c : Status) : Cfg :=
  { nodes := [(slot, n)], chans := [(1, oneChan a), (2, oneChan b), (3, oneChan c)], routes := [], sched := [slot], modes := [], keys := [],
    moves := [], drops := [], egress := [] }

/-- The package in the turn of core 0's one node. -/
def nodeState (slot : Nat) (n : Node) (a b c : Status) : State :=
  { oneCore { Core.reset with cfg := some (oneNode slot n a b c) } with slot := slot }

/-- Whether a node stands ready in a state with the given inputs. -/
def readyIn (s : State) (n : Node) (i : Ins) : Bool :=
  let x := fun k => s.input s.here s.slot n k
  s.nodeHere n.op n.rcd == some n && s.mayFire s.here n && !n.broken && s.outRoom2 s.here n && (x 0).known && (x 1).known && (x 2).known &&
  (x 3).known && i == { a := (x 0).get, b := (x 1).get, c := (x 2).get }

/-- What that says. -/
theorem readyIn_ready {s : State} {n : Node} {i : Ins} (h : readyIn s n i = true) : Ready n.op n.rcd s n i := by
  simp only [readyIn, Bool.and_eq_true, beq_iff_eq, Bool.not_eq_true'] at h
  obtain ⟨⟨⟨⟨⟨⟨⟨⟨h1, h2⟩, hb⟩, h3⟩, k0⟩, k1⟩, k2⟩, k3⟩, hi⟩ := h
  refine ⟨h1, h2, hb, h3, fun k hk => ?_, hi⟩
  match k, hk with
  | 0, _ => exact k0
  | 1, _ => exact k1
  | 2, _ => exact k2
  | 3, _ => exact k3

/-- Whether a node with the given inputs stands ready at a slot of core 0. -/
def readyAt (slot : Nat) (n : Node) (a b c : Status) : Bool := readyIn (nodeState slot n a b c) n { a := a, b := b, c := c }

/-- A node of an opcode with a record. -/
def mk (op : Nat) (r : NodeRec) : Node := freshNode op r []

/-- A data burst of one beat at level 0. -/
def beat1 (x : Beat) : Burst := dataBurst 0 0 [x]

/-- A tensor record of one binary32 element at local offset 0. -/
def blankT : TRec :=
  { base := 0x8000000000000000, fmt := 0x10, rank := 1, axis := 0, readOnly := false, blockMode := 0, blockLen := 0, plane := 0, texp := 0,
    ext := [1], str := [4], org := [0], prog := 0, comp := 0 }

/-- A beat of tokens. -/
def toks (l : List Nat) : Burst := beat1 (indexBeat l 0)

/-- Global memory of partition 0: its first GiB is the first GiB of LPDDR6, readable, writable and executable. -/
def pageEntry : BitVec 64 := 0x2070000000000001

/-- The page table of `pageEntry`, its root at 0x20000. -/
def pageCells : List Host.Cell := [(0x20000, 1), (0x20002, 3), (0x30000, 1), (0x30006, 0x70), (0x30007, 0x20)]

/-- A state with that table, its entry held by core 0. -/
def withPages (s : State) : State :=
  { s.modCore 0 (fun c => { c with tlb := [{ part := 0, page := 0, size := 2 ^ 30, pte := pageEntry }] }) with
    mem := pageCells, parts := [(0, { Part.reset with ptroot := 0x20000 })] }

/-! ### Hypotheses of the node statements met (witnesses) -/

/-- NodeTurns: a node that is not ready, and one ready with every input absent. -/
theorem witness_NodeTurns : (∀ n i, ¬Ready 0x00 blankRec State.reset n i) ∧
    readyAt 0 (mk 0x00 blankRec) none none none ∧ ({ a := none, b := none, c := none } : Ins).quiet = true := by
  refine ⟨fun n i h => ?_, ?_⟩
  · exact absurd h.1 (by simp [State.nodeHere, State.coreAt, Core.node, State.reset, tgetD, tget, Core.reset])
  · decide +kernel

/-- NodeTurns: a node whose own state holds an uncorrectable error, its core bound, its region with its domain. -/
theorem witness_NodeTurns_broken :
    let n := { mk 0x00 blankRec with broken := true }
    let s := nodeState 0 n none none none
    s.nodeHere 0x00 blankRec = some n ∧ s.mayFire s.here n = true ∧ n.broken = true ∧ s.fabricOf s.here = some (0, testRegion) ∧
    testRegion.doms[n.dom]? = some openDom ∧ (s.coreAt s.here).team = some 0 ∧ tget s.teams 0 = some testTeam := by
  decide +kernel

/-- PassingNodes, TokenNodes: nodes whose output has another length than BLEN. -/
theorem witness_length_mismatches :
    (∀ x ∈ [(0x68, 0), (0x64, 0)], readyAt 0 (mk x.1 { blankRec with blen := 2 }) (some (beat1 5)) (some (beat1 6)) none) ∧
    readyAt 0 (mk 0x6C { blankRec with var := 1, k0 := 1, blen := 2 }) (some (beat1 5)) none none ∧
    (∀ op ∈ [0x65, 0x67], readyAt 0 (mk op { blankRec with fmt := 0x21, blen := 2 }) (some (toks [3, 4])) none none) ∧
    blenOf { blankRec with blen := 2 } ≠ 1 ∧ (beat1 5).beats.length ≠ blenOf { blankRec with blen := 2 } := by
  decide +kernel

/-- PassingNodes: each node ready with the inputs of its clause. -/
theorem witness_PassingNodes :
    readyAt 0 (mk 0x00 blankRec) (some (beat1 5)) none none ∧
    (∀ op ∈ [0x60, 0x6B], readyAt 0 (mk op blankRec) (some (beat1 5)) none (some (beat1 1))) ∧
    (let n := mk 0x63 { blankRec with fmt := 0x14 }
     readyAt 0 n (some (beat1 5)) none (some (beat1 0xFFFF)) ∧
       (beatsOfElems 0x14 0 (((elemsOf 0x14 (beat1 5)).zipIdx.filter (fun e => predBit (beat1 0xFFFF) false e.2)).map Prod.fst)).length = 1) ∧
    (let n := mk 0x61 blankRec
     readyAt 0 n (some (beat1 5)) none (some (beat1 0)) ∧ (nodeState 0 n (some (beat1 5)) none (some (beat1 0))).isAsync 0 n 0 = false ∧
       (nodeState 0 n (some (beat1 5)) none (some (beat1 0))).isAsync 0 n 1 = false) ∧
    (∀ op ∈ [0x62, 0x68, 0x69], readyAt 0 (mk op blankRec) (some (beat1 5)) none none ∧ readyAt 0 (mk op blankRec) none (some (beat1 6)) none) ∧
    readyAt 0 (mk 0x62 blankRec) (some (beat1 5)) (some (beat1 6)) none ∧ readyAt 0 (mk 0x6A blankRec) (some (beat1 5)) none none ∧
    readyAt 0 (mk 0x6C { blankRec with var := 1, k0 := 1 }) (some (beat1 5)) none none ∧
    readyAt 0 (mk 0x6C { blankRec with k0 := 3 }) (some (beat1 5)) (some (beat1 6)) none ∧
    readyAt 0 (mk 0x6D blankRec) (some (beat1 5)) none none ∧
    readyAt 0 (mk 0x64 { blankRec with k0 := 1 }) (some (beat1 5)) none none ∧
    readyAt 0 (mk 0x64 { blankRec with k0 := 1 }) (some (beat1 5)) (some (beat1 6)) none ∧
    readyAt 0 (mk 0x64 { blankRec with k0 := 1 }) (some (beat1 5)) (some (dataBurst 1 0 [6])) none ∧
    readyAt 0 (mk 0x43 blankRec) (some (beat1 5)) none none := by
  decide +kernel

/-- PassingNodes: a node that sends X before its other inputs are known. -/
theorem witness_PassingNodes_early : (∀ op ∈ [0x62, 0x68, 0x69, 0x6A],
    let n := mk op blankRec
    let g : Cfg := { oneNode 0 n (some (beat1 5)) none none with
      chans := [(1, oneChan (some (beat1 5))), (2, { ent := 0x3F000, q := [], wire := [] })] }
    let s : State := { oneCore { Core.reset with cfg := some g } with slot := 0 }
    s.mayFire 0 n = true ∧ s.room 0 0xFFF = true ∧ s.nodeHere op blankRec = some n ∧ s.input 0 0 n 0 = .st (some (beat1 5)) ∧
      (op ≠ 0x6A → s.input 0 0 n 1 = .unknown)) ∧
    (let n := mk 0x6A blankRec
     let g : Cfg := { oneNode 0 n none none none with chans := [(1, { ent := 0x3F000, q := [], wire := [] })] }
     ({ oneCore { Core.reset with cfg := some g } with slot := 0 } : State).input 0 0 n 0 = .unknown) := by
  decide +kernel

/-- TokenNodes: each node ready with the inputs of its clause, a coordinate at its bound, end tokens, and counts 0 and 1. -/
theorem witness_TokenNodes :
    (let n := freshNode 0x65 { blankRec with fmt := 0x21 } [(6, 1), (7, 1), (8, 2)]
     readyAt 0 n (some (beat1 0)) none none ∧ readyAt 0 n none (some { hdr := mkHdr 3 0 0 0 0, beats := [1] }) none) ∧
    (∀ op ∈ [0x66, 0x67], ∀ p ∈ [[3, 3], [3, 4], [4, 3]], readyAt 0 (mk op { blankRec with fmt := 0x21 }) (some (toks p)) none none) ∧
    (∀ op ∈ [0x66, 0x67], (freshNode op { blankRec with fmt := 0x21 } [(3, 1)]).walker.pa ≠ 0 ∧
      readyAt 0 (freshNode op { blankRec with fmt := 0x21 } [(3, 1)]) (some (toks [tokSE.toNat, tokSE.toNat])) none none) ∧
    (∀ c ∈ [0, 1, 16], readyAt 0 (mk 0x76 { blankRec with fmt := 0x21 }) (some (toks [7, c, 3])) none none) ∧
    (∀ op ∈ [0x70, 0x71, 0x72, 0x73, 0x74], readyAt 0 (mk op { blankRec with fmt := 0x21 }) (some (toks [7])) (some (toks [3])) none) ∧
    readyAt 0 (mk 0x75 { blankRec with fmt := 0x21 }) (some (toks [7])) (some (toks [3])) none ∧ (1 * 16 * elemBits 0x20 + 511) / 512 = 1 ∧
    readyAt 0 (mk 0x78 { blankRec with fmt := 0x20 }) (some (beat1 7)) (some (beat1 3)) none ∧
    readyAt 0 (mk 0x77 { blankRec with fmt := 0x21 }) (some (toks [7])) none none := by
  decide +kernel

/-- ElementNodes: binary and unary nodes, ASEL and AFMA ready. -/
theorem witness_ElementNodes :
    (∀ x ∈ binaryNodes blankRec, readyAt 0 (mk x.1 blankRec) (some (beat1 5)) (some (beat1 6)) none) ∧
    (∀ x ∈ unaryNodes blankRec, readyAt 0 (mk x.1 blankRec) (some (beat1 5)) none none) ∧
    (∀ op ∈ [0x15, 0x16], readyAt 0 (mk op blankRec) (some (beat1 5)) (some (beat1 6)) (some (beat1 1))) ∧
    (1 * (atomFmtD 1).perBeat * (atomFmtD 1).l + 511) / 512 = 1 := by
  decide +kernel

/-- ReductionNodes: each node ready, with bursts of the lengths it expects. -/
theorem witness_ReductionNodes :
    readyAt 0 (mk 0x26 { blankRec with k0 := 1 }) (some (beat1 5)) none none ∧
    readyAt 0 (mk 0x50 { blankRec with k0 := 0x10 }) (some (dataBurst 0 0 [5, 6])) none none ∧
    readyAt 0 (mk 0x51 { blankRec with fmt := 0x10, k0 := 1, blen := 2 }) (some (beat1 5)) none none ∧
    (∀ op ∈ [0x33, 0x34, 0x35], readyAt 0 (mk op { blankRec with k0 := 0x21 }) (some (beat1 5)) none none) ∧
    readyAt 0 (mk 0x30 { blankRec with var := 1 }) (some (beat1 5)) (some (beat1 6)) none ∧
    (let n := mk 0x30 { blankRec with blen := 2 }
     let b := dataBurst 0 0 (List.replicate (512 / (atomFmtD 1).perBeat) 0)
     readyAt 0 n (some (dataBurst 0 0 [5, 6])) (some (beat1 5)) none ∧ weightBurst (atomFmtD 1) (beat1 5) = none ∧
     readyAt 0 n (some (dataBurst 0 0 [5, 6])) none none ∧ (nodeState 0 n (some (dataBurst 0 0 [5, 6])) none none).readerBehind 0 0 n = false ∧
     (valsIn (atomFmtD 1) (dataBurst 0 0 [5, 6])).length % 16 = 0 ∧ readyAt 0 n none (some b) none) ∧
    (let n := mk 0x31 { blankRec with k1 := 9 }
     readyAt 0 n (some (beat1 5)) none none ∧ (nodeState 0 n (some (beat1 5)) none none).weightsAt 0 9 n = some (atomFmtD 1, [], 0)) ∧
    [1, 2].all (fun k => readyAt 0 (mk 0x32 { blankRec with k0 := k }) (some (dataBurst 0 0 [5, 6])) (some (beat1 6)) none) = true ∧
    (valsIn (atomFmtD 1) (dataBurst 0 0 [5, 6])).length / 16 = (valsIn (atomFmtD 1) (beat1 6)).length / (32 / (atomFmtD 1).l) := by
  decide +kernel

/-- AccumulatorNodes: each node ready, below and at its count or level. -/
theorem witness_AccumulatorNodes :
    [1, 2].all (fun k => readyAt 0 (mk 0x40 { blankRec with k0 := k, blen := 8 }) (some (beat1 5)) none none) = true ∧
    (inLanes (atomFmtD 1) false (beat1 5)).1.length ≤ accSize { blankRec with blen := 8 } ∧
    (∀ l ∈ [0, 1], readyAt 0 (mk 0x40 { blankRec with var := 1, k1 := 1 }) (some (dataBurst l 0 [5])) none none) ∧
    readyAt 0 (freshNode 0x40 { blankRec with var := 1, k1 := 1 } [(4, 1)]) (some (dataBurst 1 0 [5])) none none ∧
    (∀ l ∈ [0, 1], readyAt 0 (mk 0x41 { blankRec with k0 := 4, k1 := 0x00010001 }) (some (dataBurst l 0 [5])) none (some (toks [9]))) ∧
    readyAt 0 (mk 0x42 { blankRec with fmt := 0x10 }) (some (dataBurst 0 0 [5, 6, 7, 8])) none none ∧
    (nodeState 0 (mk 0x42 { blankRec with fmt := 0x10 }) (some (dataBurst 0 0 [5, 6, 7, 8])) none none).room 0 0xFFF = true ∧
    (let z : Acck := { node := { mk 0x41 blankRec with keys := [9] }, rows := [], faults := [] }
     (3 : BitVec 32) ∉ z.node.keys ∧ z.node.keys.length = 1) ∧
    (∀ x ∈ [(0xFFF, true), (5, false)], let c : Burst := { hdr := mkHdr 4 0 0 0 x.1, beats := [] }
     let n := mk 0x42 { blankRec with fmt := 0x10 }
     let s := nodeState 0 n (some (dataBurst 0 0 [5, 6, 7, 8])) none (some c)
     readyAt 0 n (some (dataBurst 0 0 [5, 6, 7, 8])) none (some c) ∧
     (s.heldFor 0 0 n (some c)).any (fun held => s.steerOk held 0 0 n (hdrAux c.hdr % 4096) == x.2) = true) ∧
    readyAt 0 (mk 0x44 { blankRec with fmt := 0x10 }) (some (beat1 5)) (some (beat1 6)) none ∧
    readyAt 0 (mk 0x44 blankRec) (some (beat1 5)) (some (beat1 6)) none := by
  decide +kernel

/-- Two cores in one region: the node's core 0, and core 1 to its east. -/
def twoCores (n : Node) (tag1 : Nat) (routes : Tab (BitVec 64)) : State :=
  let g0 : Cfg := { oneNode 0 n (some (beat1 1)) none none with routes := routes }
  let g1 : Cfg := { oneNode 0 (mk 0x02 blankRec) none none none with nodes := [], chans := [(7, { ent := 0x3F000, q := [], wire := [] }), (8, { ent := 0x7F000, q := [], wire := [] })] }
  let c : Core := { Core.reset with team := some 0, region := some 0 }
  { State.reset with
    cores := [(0, { c with cfg := some g0 }), (1, { c with cfg := some g1, tag := tag1 })], regions := [(0, { testRegion with w := 2 })],
    teams := [(0, { testTeam with w := 2 })] }

/-- NodeSettling: a status to consume; a local route, a remote one, a guarded one, one that crosses domains. -/
theorem witness_NodeSettling :
    (let n := mk 0x00 { blankRec with outX := 4 }
     let s := twoCores n 0 [(4, 0x0300), (5, 0x010701), (6, 0x010801)]
     (s.coreAt 0).node 0 = some n ∧ (quietReact n).faults = [] ∧ inputUsed n.op n.rcd 0 = true ∧
     s.chanAt 0 (inputEp n.rcd 0) = some (oneChan (some (beat1 1))) ∧ isCommandInput 0 (oneChan none).ent = false ∧
     (s.fabricOf 0).isSome = true ∧ s.steerersOf { testRegion with w := 2 } 0 (inputEp n.rcd 0) = [] ∧
     s.destOf 0 4 = some { core := 0, ep := 3, remote := false, sibling := false } ∧ (s.chanAt 0 3).isSome = true ∧
     s.destOf 0 5 = some { core := 1, ep := 7, remote := true, sibling := false } ∧ (s.chanAt 1 7).isSome = true ∧
     s.crosses { core := 1, ep := 7, remote := true, sibling := false } 0 = false ∧
     s.guarded 0 { core := 1, ep := 7, remote := true, sibling := false } = false ∧
     s.crosses { core := 1, ep := 8, remote := true, sibling := false } 0 = true ∧ (s.chanAt 1 8).isSome = true) ∧
    (twoCores (mk 0x00 blankRec) 3 [(5, 0x010701)]).guarded 0 { core := 1, ep := 7, remote := true, sibling := false } = true := by
  decide +kernel

/-- NodeSettling: a command input with a token of the instant and one of a later instant. -/
theorem witness_NodeSettling_tokens :
    let n := { mk 0x00 blankRec with toks := [(0, 0, beat1 1), (0, 1, beat1 2), (1, 0, beat1 3)] }
    let g := { oneNode 0 n none none none with chans := [(1, { ent := 0x80, q := [], wire := [] })] }
    let s := { oneCore { Core.reset with cfg := some g } with slot := 0 }
    (s.coreAt 0).node 0 = some n ∧ inputUsed n.op n.rcd 0 = true ∧ s.chanAt 0 (inputEp n.rcd 0) = some { ent := 0x80, q := [], wire := [] } ∧
    isCommandInput 0 0x80 = true ∧ inputDelayed n.rcd 0 = false := by
  decide +kernel

/-- A port of binary32 elements at offset 0, of a number of elements one after the other. -/
def portRegs (last : BitVec 32) : Tab (BitVec 32) := [(5, 0), (6, last), (7, 0), (8, 4), (17, 1)]

/-- A record of a port of binary32 elements. -/
def portRec : NodeRec := { blankRec with fmt := 0x10 }

/-- A mode region over the first bank, of a mode and its owner. -/
def withMode (mode owner : Nat) (param : BitVec 32) (s : State) : State :=
  s.modCfg 0 (fun g => { g with modes := [{ tile := 0, mode := mode, bufs := 0, owner := owner, base := 0, len := 65536, param := param }] })

/-- A record of a port of binary32 elements with bursts of two beats. -/
def widePort : NodeRec := { portRec with blen := 2 }

/-- MemoryNodes: a burst of two beats of which one has been performed, and none; in the node's own place, a beat left after it. -/
theorem witness_MemoryNodes_pieces :
    (∀ prog ∈ [0, 16], let n := { freshNode 0x80 widePort (portRegs 39) with prog := prog, part := List.replicate (4 * prog) 7 }
     let s := nodeState 64 n none none none
     readyIn s n { a := none, b := none, c := none } = true ∧ (s.coreAt s.here).node s.slot = some n ∧ s.slot < 96 ∧
     min (perBurst widePort) (n.pattern.total - n.pos) = 32 ∧ s.tileTurn 0 64 n (spansOf 4 (n.walk 32)) = true ∧
     s.keysHeld 0 64 (banksOf (n.walk 32)) = true ∧ s.badElem 0 4 (n.walk 32) = none) ∧
    (0 + 1 * (64 / 4) < 32) ∧
    (let a := dataBurst 0 0 [5, 6]
     let n := freshNode 0x81 widePort (portRegs 39)
     let s := nodeState 64 n (some a) none none
     readyIn s n { a := some a, b := none, c := none } = true ∧ (s.coreAt s.here).node s.slot = some n ∧ a.beats.length * 64 / 4 = 32 ∧
     s.tileTurn 0 64 n (spansOf 4 (n.walk 32)) = true) := by
  decide +kernel

/-- A wheel of two members. -/
def testWheel : Wheel := { fmt := 0x10, op := 0, error := false, sat := false, bar := 0, len := 128, members := [(0, 0), (0, 4096)] }

/-- MemoryNodes: the scratchpad ports, bound, their keys free and their turn come; one element and a whole burst, and the last. -/
theorem witness_MemoryNodes_ports :
    (∀ last ∈ [0, 15, 31], let n := freshNode 0x80 portRec (portRegs (BitVec.ofNat 32 last))
     let s := nodeState 64 n none none none
     readyIn s n { a := none, b := none, c := none } = true ∧ n.bound = true ∧ n.planeAt n.burst = none ∧
     s.keysHeld 0 64 (banksOf [0]) = true ∧ s.tileTurn 0 64 n (spansOf 4 [0, 4]) = true ∧ s.badElem 0 4 [0, 4] = none ∧ Memory.wf s.mem = true) ∧
    (∀ last ∈ [0, 15], let n := freshNode 0x81 portRec (portRegs (BitVec.ofNat 32 last))
     let s := nodeState 64 n (some (beat1 9)) none none
     readyIn s n { a := some (beat1 9), b := none, c := none } = true ∧ s.keysHeld 0 64 (banksOf [0, 4]) = true ∧ s.tileTurn 0 64 n (spansOf 4 [0, 4]) = true) ∧
    (let n := freshNode 0x82 portRec (portRegs 15)
     readyIn (nodeState 64 n (some (toks [15])) none none) n { a := some (toks [15]), b := none, c := none } = true ∧
     (n.select (toks [15])).toOption = some [60]) ∧
    (∀ op ∈ [0x83, 0x84], let n := freshNode op portRec (portRegs 15)
     readyIn (nodeState 64 n (some (beat1 9)) none (some (toks [15]))) n { a := some (beat1 9), b := none, c := some (toks [15]) } = true ∧
     (n.select (toks [15])).toOption = some [60]) := by
  decide +kernel

/-- A tensor record of 16 binary32 elements at global offset 0x100000. -/
def globalT : TRec :=
  { base := 0x100000, fmt := 0x10, rank := 1, axis := 0, readOnly := false, blockMode := 0, blockLen := 0, plane := 0, texp := 0, ext := [16],
    str := [4], org := [0], prog := 0, comp := 0 }

/-- MemoryNodes: global ports that go on to their end, and that wait for a walk. -/
theorem witness_MemoryNodes_global :
    (∀ op ∈ [0x86, 0x87], let n : Node := { freshNode op portRec [(17, 1)] with bind := some globalT }
     let a : Status := if op = 0x87 then some (beat1 9) else none
     let s := nodeState 64 n a none none
     let go := fun (s : State) => (List.range 16).foldl (globalElem (op == 0x87) 4 (bytesOfBurst (beat1 9))) { s := s, node := n, stuck := false }
     readyIn s n { a := a, b := none, c := none } = true ∧ readyIn (withPages s) n { a := a, b := none, c := none } = true ∧ n.bound = true ∧
     n.planeAt n.burst = none ∧ (go s).stuck = true ∧ (go (withPages s)).stuck = false ∧ (go (withPages s)).node.phase ≠ 2 ∧
     Memory.wf (withPages s).mem = true) := by
  decide +kernel

/-- MemoryNodes: MFIFO empty and not, MLINE before and at its last row, MGRP beginning and answered. -/
theorem witness_MemoryNodes_rest :
    (let n := mk 0x88 portRec
     let s := withMode 2 64 0 (nodeState 64 n (some (beat1 9)) none none)
     readyIn s n { a := some (beat1 9), b := none, c := none } = true ∧ (s.modeRegion 0 2 64).isSome = true ∧ n.reg 5 = 0) ∧
    (let n := freshNode 0x88 portRec [(5, 1)]
     readyIn (withMode 2 64 0 (nodeState 64 n none none none)) n { a := none, b := none, c := none } = true ∧ n.reg 5 ≠ 0) ∧
    (∀ rc ∈ [0, 1], let n := freshNode 0x89 portRec [(3, BitVec.ofNat 32 rc)]
     let s := withMode 3 64 0x00010010 (nodeState 64 n (some (beat1 9)) none none)
     readyIn s n { a := some (beat1 9), b := none, c := none } = true ∧ (s.modeRegion 0 3 64).isSome = true ∧ (16 * 4 + 63) / 64 * 64 = 64 ∧
     readyIn (withMode 3 64 0x00010010 (nodeState 64 n (some (dataBurst 0 0 [9, 9])) none none)) n
       { a := some (dataBurst 0 0 [9, 9]), b := none, c := none } = true) ∧
    (let n := mk 0x85 portRec
     let s : State := { nodeState 64 n (some (toks [0, 0])) none none with teams := [(0, { testTeam with wheels := [(0, testWheel)] })] }
     readyIn s n { a := some (toks [0, 0]), b := none, c := none } = true ∧ s.wheelAt 0 0 = some testWheel ∧ testWheel.fmt = 0x10) ∧
    (let n : Node := { mk 0x85 portRec with hubRes := some (beat1 7) }
     readyIn (nodeState 64 n (some (toks [0, 0])) none none) n { a := some (toks [0, 0]), b := none, c := none } = true) := by
  decide +kernel

/-- MemoryNodes: the oldest entry of a FIFO with an uncorrectable word; a line buffer's rows without one. -/
theorem witness_MemoryNodes_errors :
    (let n := freshNode 0x88 portRec [(5, 1)]
     let s := { withMode 2 64 0 (nodeState 64 n none none none) with bad := [scratchKey 0 0] }
     readyIn s n { a := none, b := none, c := none } = true ∧ ((s.modeRegion 0 2 64).bind (fun m => s.fifoBad 0 m n)).isSome = true) ∧
    (let n := freshNode 0x89 portRec [(3, 1)]
     let s := withMode 3 64 0x00010010 (nodeState 64 n (some (beat1 9)) none none)
     (s.modeRegion 0 3 64).all (fun m => !(s.poke (scratchKey 0 m.start) (bytesOfBurst (beat1 9))).badIn (scratchKey 0 m.start) 64) = true) := by
  decide +kernel

/-- An inbox that holds 16 entries. -/
def fullBox : List InEntry := List.replicate 16 { sd := 0, hdr := 0, beats := [] }

/-- A port that is up, its channel 0 enabled at both ends with eight credits. -/
def upPort : Port :=
  { Port.reset with up := true, ever := true, en := 1, farEn := 1, credits := Vector.replicate 8 8, slots := Vector.replicate 8 [beat1 4, beat1 5] }

/-- EndpointNodes: sources, sinks and copies, with and without room. -/
theorem witness_EndpointNodes_boxes :
    (let n := mk 0x01 blankRec
     let s := nodeState 80 n none none none
     let t := s.modCtl 0 (fun c => { c with outbox := Vector.replicate 8 [some (dataBurst 7 0 [3])] })
     readyIn s n { a := none, b := none, c := none } = true ∧ (s.ctlAt 0).out 0 = [] ∧
     readyIn t n { a := none, b := none, c := none } = true ∧ (t.ctlAt 0).out 0 = [some (dataBurst 7 0 [3])]) ∧
    (let n := mk 0x02 blankRec
     let s := nodeState 80 n (some (beat1 9)) none none
     let t := s.modCtl 0 (fun c => { c with inbox := Vector.replicate 8 fullBox })
     let e : InEntry := { sd := 1#1 ++ 0#31 ++ (beat1 9).hdr, hdr := (beat1 9).hdr, beats := (beat1 9).beats }
     readyIn s n { a := some (beat1 9), b := none, c := none } = true ∧ boxRoom ((s.ctlAt 0).box 0) e = true ∧
     readyIn t n { a := some (beat1 9), b := none, c := none } = true ∧ boxRoom ((t.ctlAt 0).box 0) e = false) ∧
    (∀ b ∈ [beat1 9, errToken 0x21 0 0], let n := mk 0x03 { blankRec with fmt := 0, k1 := 1 }
     readyIn (nodeState 80 n (some b) none none) n { a := some b, b := none, c := none } = true) ∧
    (let n := mk 0x04 { blankRec with fmt := 0 }
     let s := nodeState 80 n (some (beat1 9)) none none
     let tpl : Template :=
       { src := blankT, dst := blankT, red := 0, core := 0, box := 0, once := false, prog := [] }
     let t := s.modCe 0 (fun e => { e with templates := [(0, tpl)] })
     let x : Trig := { tpl := some 0, job := none, level := 0, value := 0, empty := false }
     let u := t.modCe 0 (fun e => { e with trigs := List.replicate 16 x })
     readyIn t n { a := some (beat1 9), b := none, c := none } = true ∧ (t.coreAt 0).ce.queued 0 < 16 ∧
     readyIn u n { a := some (beat1 9), b := none, c := none } = true ∧ 16 ≤ (u.coreAt 0).ce.queued 0) := by
  decide +kernel

/-- EndpointNodes: link nodes at a port that takes frames, one that does not, and one that is down; RED2, SREQ, STATW. -/
theorem witness_EndpointNodes_links :
    (let n := mk 0x90 blankRec
     let at_ := fun (p : Port) => ({ nodeState 80 n (some (beat1 9)) none none with ports := [(0, p)] } : State)
     let i : Ins := { a := some (beat1 9), b := none, c := none }
     readyIn (at_ upPort) n i = true ∧ upPort.takes 0 (upPort.framesOf 0 [beat1 9]) = true ∧
     readyIn (at_ { upPort with farEn := 0 }) n i = true ∧ ({ upPort with farEn := 0 } : Port).takes 0 (upPort.framesOf 0 [beat1 9]) = false ∧
     readyIn (at_ Port.reset) n i = true) ∧
    (let n := mk 0x91 { blankRec with k1 := 1 }
     let at_ := fun (p : Port) => ({ nodeState 80 n none none none with ports := [(0, p)] } : State)
     let i : Ins := { a := none, b := none, c := none }
     readyIn (at_ upPort) n i = true ∧ vget [] upPort.slots 0 = [beat1 4, beat1 5] ∧ readyIn (at_ { upPort with slots := Vector.replicate 8 [] }) n i = true) ∧
    (let n := mk 0x93 { blankRec with blen := 32 }
     readyIn (nodeState 0 n (some (beat1 5)) (some (beat1 6)) none) n { a := some (beat1 5), b := some (beat1 6), c := none } = true ∧
     (atomsIn (atomFmtD 1) (beat1 5)).length * (atomFmtD 1).l = 4 * 32) ∧
    (let n := mk 0x92 blankRec
     let a := dataBurst 0 0 (List.replicate 8 0)
     readyIn (nodeState 0 n (some a) none none) n { a := some a, b := none, c := none } = true ∧ (8 * 4 + 4 * 8 - 1) / (4 * 8) = 1) ∧
    (let n := mk 0x94 { blankRec with fmt := 0x21, k0 := 3 }
     readyIn (nodeState 0 n (some (toks [1])) (some (dataBurst 0 0 [1, 2])) none) n
       { a := some (toks [1]), b := some (dataBurst 0 0 [1, 2]), c := none } = true ∧
     readyIn (nodeState 0 n (some (toks [1])) (some (toks [2])) none) n { a := some (toks [1]), b := some (toks [2]), c := none } = true) := by
  decide +kernel

/-! ### Scalar instructions: states in which the statements' hypotheses hold -/

/-- The forms of the loads. -/
def loadForms : List LoadForm := [.ldb, .ldbu, .ldh, .ldhu, .ldw, .ldwu, .ldd]

/-- The forms of the stores. -/
def storeForms : List StoreForm := [.stb, .sth, .stw, .std]

/-- The forms of the atomics. -/
def amoForms : List AmoForm := [.add, .swap, .cas, .min, .max, .minu, .maxu, .and, .or, .xor]

/-- Global offset 0x100000 as an address is 0x100000; local offset 0x100. -/
def localA : BitVec 64 := 0x8000000000000100

/-- Pages all of whose writes are copied first, in a slot with one shadow granule left. -/
def withShadow (s : State) : State :=
  let s := withPages s
  { s.modCore 0 (fun c => { c with tlb := [{ part := 0, page := 0, size := 2 ^ 30, pte := pageEntry ||| 0x80000000000000 }] }) with
    mem := pageCells.map (fun c => if c.1 == 0x30006 then (c.1, 0xF0) else c),
    parts := [(0, { Part.reset with ptroot := 0x20000, pool := [0x200000], slots := [(1, { base := 0, pages := 64, shadows := [], drain := none })] })] }

/-- ImmediateArithmetic, Jumps: the reserved bits, a target that is aligned and one that is not, a fetch outside the fetchable ranges. -/
theorem witness_ImmediateArithmetic_Jumps :
    ((0x1C004000#32).extractLsb' 26 6 = 0x07 ∧ (0x1C000040#32).extractLsb' 6 8 ≠ 0 ∧ (0x1C00C000#32).extractLsb' 14 2 = 3 ∧
     (0x20010000#32).extractLsb' 26 6 = 0x08 ∧ (0x20010000#32).extractLsb' 16 5 ≠ 0 ∧ (0x24010000#32).extractLsb' 26 6 = 0x09) ∧
    ((scalar 8 0 0).reg 1 + (0#16).signExtend 64).toNat % 4 = 0 ∧ ((scalar 8 0 0).reg 1 + (2#16).signExtend 64).toNat % 4 ≠ 0 ∧
    (decodeWord 0b000000_00011_00100_00000_00000010101).toOption = some (.clz 3 4) := by
  decide +kernel

/-- Loads, Stores, Atomics: every form, aligned, in the local scratchpad, in a peer's, in global memory, at the last places of each. -/
theorem witness_Loads_Stores_Atomics :
    [localA, 0x80000000003FFFF8, 0x9000000000000008, 0x90000000003FFFF8, 0x100000, 0x3FFFFFF8].all (fun a =>
      let s := withPages (scalar a 0 0)
      (s.locate (s.reg 1) .read true).1.place.isSome && (s.locate (s.reg 1) .write true).1.place.isSome &&
      ((s.locate (s.reg 1) .write true).2.split (s.locate (s.reg 1) .write true).1).isSome && Memory.wf s.mem && s.bad == [] &&
      loadForms.all (fun f => (s.reg 1).toNat % f.bytes == 0) && storeForms.all (fun f => (s.reg 1).toNat % f.bytes == 0)) = true ∧
    (let s := withShadow (scalar 0x100000 0 0)
     let l := (s.locate 0x100000 .write true).1
     l.cow = true ∧ (((s.locate 0x100000 .write true).2.split l).map (fun y => (tgetD Part.reset y.parts 0).pool)) = some []) := by
  decide +kernel

/-- LocalScratchpad: an aligned local offset, the lowest and the last. -/
theorem witness_LocalScratchpad :
    [0x000000#22, 0x3FFFF8#22].all (fun off => let s := scalar (0x20000000000#42 ++ off) 5 0
      Memory.wf s.mem && s.reg 1 + (0#16).signExtend 64 == 0x20000000000#42 ++ off && off.toNat % 8 == 0 &&
      tget (s.coreAt s.here).bankTags (off.toNat / 65536) == none && !s.badIn (scratchKey s.here off.toNat) 8) = true := by
  decide +kernel

/-- LocalScratchpad, Atomics: a bank that another task has left; a word that is sound in its low half of eight bytes alone; an empty pool. -/
theorem witness_LocalScratchpad_tagged :
    (let s := oneCore { running (withRegs localA 0 0) with bankTags := [(0, 0x4005)] }
     tget (s.coreAt s.here).bankTags 0 = some 0x4005 ∧ 0x4005 ≠ s.handleAt s.here) ∧
    (let s := { scalar 0x8000000000000104 0 0 with bad := [scratchKey 0 0x108] }
     s.locate (s.reg 1) .write true = (.key (scratchKey 0 0x104), s) ∧ s.badIn (scratchKey 0 0x104) 4 = false ∧
     s.badIn (scratchKey 0 0x104) 8 = true ∧ (s.reg 1).toNat % 4 = 0 ∧ (s.reg 1).toNat % 8 ≠ 0) ∧
    (let s := withShadow (scalar 0x100000 0 0)
     let y := s.modPart 0 (fun pt => { pt with pool := [] })
     let l := (y.locate 0x100000 .write true).1
     l.place.isSome = true ∧ (y.locate 0x100000 .write true).2.split l = none) := by
  decide +kernel

/-- AccessTraps: misaligned, outside the team, without the right, without a page, in an uncorrectable word, and while the page is walked for. -/
theorem witness_AccessTraps :
    ((scalar (localA + 1) 0 0).reg 1).toNat % 2 ≠ 0 ∧
    (scalar 0x9000000000400000 0 0).locate 0x9000000000400000 .read true = (.trap 3 0, scalar 0x9000000000400000 0 0) ∧
    ((scalar 0x100000 0 0).locate 0x100000 .write true).1 = .wait ∧ ((scalar 0x100000 0 0).locate 0x100000 .read true).1 = .wait ∧
    (let s := (scalar 0x100000 0 0).modCore 0 (fun c => { c with walkBad := [(97, 16)] })
     (s.locate 0x100000 .read true).1 = .trap 4 0 ∧ (s.locate 0x100000 .write true).1 = .trap 4 0) ∧
    (let s := { scalar localA 0 0 with bad := [scratchKey 0 0x100] }
     s.locate localA .read true = (.key (scratchKey 0 0x100), s) ∧ s.badIn (scratchKey 0 0x100) 1 = true ∧
     s.locate localA .write true = (.key (scratchKey 0 0x100), s)) := by
  decide +kernel

/-- AccessTraps: the TLB holds an entry as the table has it, with and without the right to write; a walk that has failed; an
uncorrectable word of a global line. -/
theorem witness_AccessTraps_global :
    (let s := withPages (scalar 0x100000 0 0)
     (s.coreAt s.here).walkBad = [] ∧ s.walkTable (s.partOf s.here) 0x100000 = some (0x30000, pageEntry, 2 ^ 30) ∧
     (s.coreAt s.here).tlb = [{ part := 0, page := 0, size := 2 ^ 30, pte := pageEntry }] ∧
     ({ part := 0, page := 0, size := 2 ^ 30, pte := pageEntry } : TlbEnt).covers (s.partOf s.here) 0x100000 = true ∧
     physOk (pteAddr pageEntry + 0x100000 % 2 ^ 30) = true ∧ [52, 53, 54].all (fun b => pageEntry.getLsbD b) = true ∧
     (pageEntry &&& ~~~(1#64 <<< 53)).getLsbD 53 = false) ∧
    (let s := (scalar 0x100000 0 0).modCore 0 (fun c => { c with walkBad := [(whoCtl, 16)] })
     (s.coreAt s.here).walkBad = [(whoCtl, s.walkPage (s.partOf s.here) 0x100000)]) ∧
    (let s := { withPages (scalar 0x100000 0 0) with bad := [0x100000] }
     (s.locate 0x100000 .read true).1 = .line 0x100000 0x100000 pageEntry ∧ tget (s.locate 0x100000 .read true).2.me.dcache (0x100000 / 1024) = none ∧
     (s.locate 0x100000 .read true).2.badIn 0x100000 1 = true) ∧
    (let s := scalar 0x100000 0 0
     ((s.load 0x100000 16 16 false) matches .wait _) = true ∧ ((s.load 0x200 64 64 false) matches .wait _) = true ∧
     ((s.load (localA + 4) 16 16 false) matches .trap _ _ _) = true) ∧
    (let s := withPages (scalar 0x100000 0 0)
     (s.locate (s.reg 1) .read false).1 = .line 0x100000 0x100000 pageEntry ∧ (s.locate (s.reg 1) .read false).2.badIn 0x100000 16 = false) := by
  decide +kernel

/-- AddressSpaces: entries of each homing. -/
theorem witness_AddressSpaces_homes : pteHome 0 = 0 ∧ pteHome 0x0500000000000000 = 1 ∧
    pteDie 0x0500000000000000 = 1 ∧ pteHome 0x0200000000000000 = 2 ∧ tget State.reset.homes (pteGroup 0x0200000000000000) = none := by decide +kernel

/-- AddressSpaces: a hub read that answers and one that fails, unassigned selectors, bits, and a peer beyond the team. -/
theorem witness_AddressSpaces :
    (let s := { scalar 0 0 0 with teams := [(0, { testTeam with w := 2, wheels := [(0, testWheel)] })] }
     s.wheelAt 0 0 = some testWheel ∧ s.wheelAt 0 1 = none ∧ s.hubOpen 0 0 0 = s ∧
     (s.hubBeat 0 testWheel 0 false).toOption.isSome = true ∧ (s.hubBeat 0 testWheel 128 true).toOption = none) ∧
    (0xA00000000#36 ++ 0#4 ++ 0#2 ++ 0#22 : BitVec 64) = 0xA000000000000000 ∧ (0xB000000000000000#64).extractLsb' 60 4 ∉ [0x0#4, 0x8#4, 0x9#4, 0xA#4] ∧
    (0x0200000000000000#64).extractLsb' 57 3 ≠ 0 ∧ (0x8000000000400000#64).extractLsb' 22 38 ≠ 0 ∧ (0x9000000100000000#64).extractLsb' 32 28 ≠ 0 ∧
    ((scalar 0 0 0).teamAt 0).count ≤ ((0x9000000000400000#64).extractLsb' 22 10).toNat := by
  decide +kernel

/-- AddressSpaces: a group bound to a rectangle of 2 × 3 cores at row 4, column 5, and an entry homed on it. -/
theorem witness_AddressSpaces_group :
    let g : BitVec 64 := 0x0000000302050400
    let s := { State.reset with homes := [(0, g)] }
    let e : BitVec 64 := 0x0200000000000000
    pteHome e = 2 ∧ tget s.homes (pteGroup e) = some g ∧ (g.extractLsb' 24 6).toNat = 2 ∧ (g.extractLsb' 32 5).toNat = 3 := by
  decide +kernel

/-- AddressSpaces: wheels of two members: both work, one has failed, both have; INT32 and binary32; an uncorrectable word. -/
theorem witness_AddressSpaces_wheels :
    (∀ fmt ∈ [0x10, 0x14], ∀ failed ∈ [(false, false), (false, true), (true, false), (true, true)],
      let wh : Wheel := { testWheel with fmt := fmt, members := [(0, 0), (1, 4096)] }
      let s : State := { State.reset with
        cores := [(0, { Core.reset with team := some 0, failed := failed.1 }), (1, { Core.reset with team := some 0, failed := failed.2 })],
        teams := [(0, { testTeam with w := 2, wheels := [(0, wh)] })] }
      wh.members = [(0, 0), (1, 4096)] ∧ wh.op < 4 ∧ wh.error = false ∧
      (s.coreAt ((s.teamAt s.here).posOf 0)).failed = failed.1 ∧ (s.coreAt ((s.teamAt s.here).posOf 1)).failed = failed.2 ∧
      s.badIn (scratchKey 0 0) 64 = false ∧ s.badIn (scratchKey 1 4096) 64 = false ∧
      ({ s with bad := [scratchKey 1 4096] } : State).badIn (scratchKey 1 4096) 64 = true) := by
  decide +kernel

/-- CsrReads, CsrWrites: team CSRs in either mode, firmware CSRs in firmware mode; a pattern port; illegal ones. -/
theorem witness_Csrs :
    0x010#12 ∈ csrTeam ∧ 0x018#12 ∈ csrFirmware ∧ (oneCore (running { Ctl.reset with fw := true })).me.fw = true ∧ (scalar 0 0 0).me.fw = false ∧
    0x020#12 ∈ csrTeamRw ∧ 0x046#12 ∈ csrFirmwareRw ∧ 0x010#12 ∉ csrTeamRw ∧ 0x7FF#12 ∉ csrTeam ∧ 0x7FF#12 ∉ csrFirmware ∧
    (encode (.csrr 1 0x7FF) matches .scalar _) = true ∧ (encode (.csrw 1 0x010) matches .scalar _) = true ∧
    ((nodeState 64 (freshNode 0x80 portRec (portRegs 15)) none none none).coreAt 0).node 64 = some (freshNode 0x80 portRec (portRegs 15)) := by
  decide +kernel

/-- Traps, SystemInstructions: firmware mode and team mode, the leader and another core, a team whose end is not decided. -/
theorem witness_Traps :
    (oneCore (running { Ctl.reset with fw := true })).me.fw = true ∧
    (let s := scalar 0 0 0
     let z := s.modMe (fun c => c.trapEntry (trapWord 6 .load 0 false) 0)
     s.me.fw = false ∧ z.lid s.here = 0 ∧ (z.teamAt s.here).doom = none ∧ s.reg 1 = 0) ∧
    (scalar 3 0 0).reg 1 ≠ 0 ∧
    (let s := { twoCores (mk 0x02 blankRec) 0 [] with here := 1 }
     s.me.fw = false ∧ (s.modMe (fun c => c.trapEntry (trapWord 6 .load 0 false) 0)).lid s.here ≠ 0) ∧
    (encode .tret matches .scalar _) = true := by
  decide +kernel

/-! ### Commands, outboxes, barriers and tasks from the controller's side -/

/-- A command in a unit. -/
def testCmd (viaQ : Bool) : QCmd := { seq := 0, img := 0, issuer := 0, viaQ := viaQ, trb := 0x80000000003E0000, fw := false }

/-- A task of one leaf, live or ended, spawned by core 0's team. -/
def testTask (e : Option End) : Task :=
  { gen := 1, part := 0, rcd := recordOf (List.replicate 64 0),
    plan := [{ kind := 0, cascade := false, kids := [], hand := [], hasImage := false, worker := none, h := 1, w := 1, image := 0, entry := 0x80000000003E0000, sections := [] }],
    nodes := [{ started := false, ended := none, team := none, parked := [] }], srcCore := some (0, 0), srcPos := 0, parent := 0, queue := 0,
    eff := 0, passes := 0, waits := [], ended := e, posted := false, joined := false, seq := 0 }

/-- A scalar state with a task at entry 5. -/
def withTask (k : Task) (s : State) : State := { s with tasks := [(5, k)] }

/-- CommandRegisters, CommandIssue: an aligned place; a target in the team and beyond it; a queue with room and a full one. -/
theorem witness_Commands :
    (let s := scalar localA 0 0
     (s.reg 1).toNat % 16 = 0 ∧ s.locate (s.reg 1) .read false = (.key (scratchKey 0 0x100), s) ∧ s.badIn (scratchKey 0 0x100) 16 = false) ∧
    (let s := scalar 0 1 0
     let t := s.modCore 0 (fun c => { c with unit := List.replicate 16 (testCmd false) })
     (s.teamAt s.here).count = 1 ∧ (s.coreAt ((s.teamAt s.here).posOf 0)).unit.length < 16 ∧ 16 ≤ (t.coreAt ((t.teamAt t.here).posOf 0)).unit.length ∧
     (s.reg 1).toNat % 1024 < (s.teamAt s.here).count ∧ (s.teamAt s.here).count ≤ (s.reg 2).toNat % 1024) := by
  decide +kernel

/-- Tsend: headers of no beat and of beats, with room and without; an aligned local address, a misaligned one, a global one; the last place. -/
theorem witness_Tsend :
    (let s := scalar (mkHdr 6 0 0 0 0).toNat (0x20000000000#42 ++ 0x3FFFC0#22) 0
     beatsOf ((s.reg 1).extractLsb' 0 32) = 0 ∧ outRoom (s.me.out 0) 0 = true) ∧
    (let s := scalar ((mkHdr 0 0 1 0 0).zeroExtend 64) (0x20000000000#42 ++ 0x3FFFC0#22) 0
     beatsOf ((s.reg 1).extractLsb' 0 32) = 1 ∧ s.reg 2 = 0x20000000000#42 ++ 0x3FFFC0#22 ∧ (0x3FFFC0#22).toNat % 64 = 0 ∧
     (0x3FFFC0#22).toNat + 64 * 1 ≤ 2 ^ 22 ∧ s.badIn (scratchKey s.here 0x3FFFC0) 64 = false ∧ outRoom (s.me.out 0) 1 = true) ∧
    outRoom (List.replicate 16 none) 0 = false ∧ (localA + 4).toNat % 64 ≠ 0 ∧ (0x100000#64).toNat % 64 = 0 ∧ (0x100000#64).extractLsb' 60 4 ≠ 0x8#4 := by
  decide +kernel

/-- An inbox 0 with one entry of a beat. -/
def oneEntry (s : State) : State := s.modCtl 0 (fun c => c.putBox 0 { sd := 7, hdr := 0, beats := [9] })

/-- Tsend, Trecv: two beats past the scratchpad's end, an uncorrectable beat, an address with an unassigned bit set, an entry that
has lost a beat. -/
theorem witness_Tsend_Trecv_traps :
    (let s := { scalar ((mkHdr 0 0 0 1 0).zeroExtend 64) (0x20000000000#42 ++ 0x3FFFC0#22) 0 with bad := [scratchKey 0 0x100] }
     beatsOf ((s.reg 1).extractLsb' 0 32) = 2 ∧ (0x3FFFC0#22).toNat % 64 = 0 ∧ 2 ^ 22 < (0x3FFFC0#22).toNat + 64 * 2 ∧
     s.badIn (scratchKey s.here 0x100) (64 * 2) = true ∧ localA = 0x20000000000#42 ++ 0x100#22) ∧
    (0x8000000000400000#64).toNat % 64 = 0 ∧ (0x8000000000400000#64).extractLsb' 22 42 ≠ 0x20000000000#42 ∧
    (let e : InEntry := { sd := 7, hdr := 0, beats := [9, 9], bad := true }
     let s := (scalar localA 0 0).modCtl 0 (fun c => c.putBox 0 e)
     s.me.box 0 = [e] ∧ e.bad = true ∧ 2 ^ 22 < (0x3FFFC0#22).toNat + 64 * e.beats.length) := by
  decide +kernel

/-- Trecv: an empty inbox; one entry, dropped at s0 or put at the last place of the scratchpad. -/
theorem witness_Trecv :
    (scalar 0 0 0).me.box 0 = [] ∧
    (let s := oneEntry (scalar (0x20000000000#42 ++ 0x3FFFC0#22) 0 0)
     Memory.wf s.mem = true ∧ s.me.box 0 = [{ sd := 7, hdr := 0, beats := [9] }] ∧ s.reg 1 = 0x20000000000#42 ++ 0x3FFFC0#22 ∧
     (0x3FFFC0#22).toNat % 64 = 0 ∧ (0x3FFFC0#22).toNat + 64 * 1 ≤ 2 ^ 22) := by
  decide +kernel

/-- Iwait: the counter reached, not reached, in a done domain, and a domain that is not configured. -/
theorem witness_Iwait :
    (let s := scalar 0 1 0
     s.domAt s.here 0 = some openDom ∧ ((s.reg 1).extractLsb' 0 48).toNat ≤ openDom.ctr % 2 ^ 48 ∧
     openDom.ctr % 2 ^ 48 < ((s.reg 2).extractLsb' 0 48).toNat ∧ (openDom.done || openDom.stopped) = false ∧ s.domAt s.here 1 = none) ∧
    (let d := { openDom with done := true }
     let s := { scalar 0 1 0 with regions := [(0, { testRegion with doms := [d] })] }
     s.domAt s.here 0 = some d ∧ (d.done || d.stopped) = true) := by
  decide +kernel

/-- BarrierInstructions, BarrierArrivals: a home core in the team and one beyond; a phase reached and one not; an arrival on its way. -/
theorem witness_Barriers :
    (let s := scalar 0xFFFF0000 0x00000001 0
     (s.reg 1).toNat % 1024 < (s.teamAt s.here).count ∧ (s.teamAt s.here).count ≤ (s.reg 2).toNat % 1024 ∧
     (let d := ((s.ctlAt 0).bar 0).p - (s.reg 1).extractLsb' 16 16
      1 ≤ d.toNat ∧ d.toNat ≤ 32768) ∧
     ¬(1 ≤ (((s.ctlAt 0).bar 0).p - (s.reg 2).extractLsb' 16 16).toNat)) ∧
    (∀ w ∈ [true, false], let x : Arrival := { src := 1, home := 0, k := 15, wait := w, seq := 0 }
     let s := { twoCores (mk 0x02 blankRec) 0 [] with arrivals := [x] }
     s.arrivals.find? (fun y => y.src == 1 && y.home == 0 && y.k == 15) = some x ∧ s.signals = []) := by
  decide +kernel

/-- BarrierArrivals: an arrival behind a signal of its core to the same barrier, and one before it. -/
theorem witness_BarrierArrivals_order :
    (∀ n ∈ [0, 2], let x : Arrival := { src := 1, home := 0, k := 3, wait := false, seq := 1 }
     let g : Signal := { src := 1, part := 0, handle := 0x4005, sb := 3, seq := n }
     let k := { testTask none with nodes := [{ started := true, ended := none, team := some 0, parked := [] }] }
     let s := { withTask k (twoCores (mk 0x02 blankRec) 0 []) with arrivals := [x], signals := [g] }
     s.arrivals.find? (fun y => y.src == 1 && y.home == 0 && y.k == 3) = some x ∧ g.src = 1 ∧ s.signalHome g = some 0 ∧
     g.sb.toNat % 16 = 3 ∧ (n = 0 → g.seq < x.seq) ∧ (n = 2 → s.signalBehind g = true)) := by
  decide +kernel

/-- TaskInstructions: a record in the scratchpad; a handle of no task, of a task that is not the team's child, of a live child and of an ended one. -/
theorem witness_Tasks :
    (let s := scalar localA 0 0
     s.locate (s.reg 1) .read false = (.key (scratchKey 0 0x100), s) ∧ s.badIn (scratchKey 0 0x100) 64 = false ∧ (s.reg 1).toNat % 64 = 0 ∧
     s.refusal s.spawnSrc (s.peek (scratchKey 0 0x100) 64) (s.children (s.handleAt s.here)) ≠ 0 ∧
     s.taskOf ((s.reg 1).extractLsb' 0 32) = none) ∧
    (∀ e ∈ [none, some ({ st := 2, code := 9 } : End)], let k := testTask e
     let s := withTask k (scalar 0x4005 0 0)
     s.taskOf ((s.reg 1).extractLsb' 0 32) = some 5 ∧ tget s.tasks 5 = some k ∧ k.srcCore.isSome = true ∧ k.parent = s.handleAt s.here ∧ k.joined = false) ∧
    (let k := { testTask none with srcCore := none }
     tget (withTask k (scalar 0x4005 0 0)).tasks 5 = some k) := by
  decide +kernel

/-- ControllerEvents: a watchdog that runs and one that does not; a controller that waits for the host, and for a page. -/
theorem witness_ControllerEvents :
    (let c := (oneCore (running { Ctl.reset with fw := true, wdog := 5 })).ctlAt 0
     c.wdog ≠ 0 ∧ c.run = .running ∧ c.fw = true) ∧
    ((scalar 0 0 0).ctlAt 0).wdog = 0 ∧
    ((oneCore { Core.reset with ctl := { Ctl.reset with run := .service } }).ctlAt 0).run = .service ∧
    ((oneCore { Core.reset with ctl := { Ctl.reset with run := .pageWait } }).ctlAt 0).run = .pageWait := by
  decide +kernel

/-- ControllerEvents: the turn of a controller whose wait is answered and whose wait is not, its round complete and not; a watchdog in
team mode; page answers whose words lie apart. -/
theorem witness_ControllerEvents_waits :
    (∀ w ∈ [Pend.cmdq 3 9 (some 7), .sig 3 9 (some 1), .cmdq 3 9 none, .sig 3 9 none, .baraw 3 0 5 9 none, .baraw 3 0 5 9 (some 0xFFFF),
        .baraw 3 0 5 9 (some 0)],
      let s := { (scalar 0 0 0).modCtl 0 (fun c => { c with pend := w }) with agenda := [.ctl 0] }
      s.agenda = .ctl 0 :: [] ∧ 0 < Config.coreCount ∧ s.booted = true ∧ (s.ctlAt 0).run = .running ∧ (s.ctlAt 0).preempt = false ∧
      (s.ctlAt 0).pend = w) ∧
    (let p := (((scalar 0 0 0).ctlAt (((scalar 0 0 0).teamAt 0).posOf 0)).bar 5).p
     1 ≤ (p - 0xFFFF#16).toNat ∧ (p - 0xFFFF#16).toNat ≤ 32768 ∧ ¬(1 ≤ (p - 0#16).toNat)) ∧
    (let c := (oneCore (running { Ctl.reset with wdog := 5 })).ctlAt 0
     c.wdog ≠ 0 ∧ c.run = .running ∧ c.fw = false) ∧
    ((oneCore { Core.reset with ctl := { Ctl.reset with run := .service, wdog := 5 } }).ctlAt 0).wdog ≠ 0 ∧
    List.Pairwise (fun x y => x.1 + 8 ≤ y.1 ∨ y.1 + 8 ≤ x.1) [(0x20000, 1#64), (0x20008, 2#64)] ∧ Memory.wf (oneCore Core.reset).mem = true := by
  decide +kernel

/-- A launch record at local offset 0x100 whose plan, at 0x200, is one leaf of one core that starts at 0x3E0000. -/
def launchCells : List Host.Cell :=
  [(scratchKey 0 0x101, 0x02), (scratchKey 0 0x107, 0x80), (scratchKey 0 0x202, 1), (scratchKey 0 0x203, 1), (scratchKey 0 0x212, 0x3E),
   (scratchKey 0 0x217, 0x80)]

/-- TaskInstructions: a record that the dispatcher accepts. -/
theorem witness_Tasks_accepted :
    let s := { (scalar localA 0 0).modCore 0 (fun c => { c with assigned := true }) with mem := launchCells }
    s.locate (s.reg 1) .read false = (.key (scratchKey 0 0x100), s) ∧ s.badIn (scratchKey 0 0x100) 64 = false ∧
    s.refusal s.spawnSrc (s.peek (scratchKey 0 0x100) 64) (s.children (s.handleAt s.here)) = 0 := by
  decide +kernel

/-! ### Commands -/

/-- A command's arguments. -/
def args (target : Nat) (flags : BitVec 8) (w1 w2 w3 : BitVec 32) : CmdArgs :=
  { target := BitVec.ofNat 16 target, flags := flags, w1 := w1, w2 := w2, w3 := w3 }

/-- A record of 16 binary32 elements at local offset 0, as record 0 of the table at 0x3E0000. -/
def recCells : List Host.Cell :=
  [(scratchKey 0 0x3E0007, 0x80), (scratchKey 0 0x3E0008, 0x10), (scratchKey 0 0x3E0009, 1), (scratchKey 0 0x3E0020, 16), (scratchKey 0 0x3E0040, 4)]

/-- Core 0 with a command at the head of its unit, a node, and the record. -/
def cmdState (slot : Nat) (n : Node) : State :=
  { (oneCore { Core.reset with cfg := some (oneNode slot n none none none), unit := [testCmd true] }) with mem := recCells }

/-- CommandRejections: a command of CMDQ, one of CMDI with room in inbox 7, the largest code, reserved flags. -/
theorem witness_CommandRejections :
    (∀ v ∈ [true, false], let s := oneCore { Core.reset with unit := [testCmd v] }
     s.headOf s.here = some (testCmd v) ∧ boxRoom ((s.ctlAt 0).box 7) { sd := 0, hdr := 0, beats := [] } = true) ∧
    (args 0 1 0 0 0).flags ≠ 0 ∧ (args 0 2 0 0 0).flags &&& 0xFE ≠ 0 ∧ 255 < 256 ∧
    (let s := oneCore { Core.reset with unit := [testCmd false], ctl := { Ctl.reset with inbox := Vector.replicate 8 fullBox } }
     s.headOf s.here = some (testCmd false) ∧ boxRoom ((s.ctlAt 0).box 7) { sd := 0, hdr := 0, beats := [] } = false ∧
     (s.coreAt s.here).hubCmd = none) := by
  decide +kernel

/-- PortBindings: reading and writing ports, between instants and within one; a global one. -/
theorem witness_PortBindings :
    (∀ op ∈ [0x80, 0x84], let n := mk op portRec
     let s := cmdState 64 n
     let c := args 64 0 0 0 0
     let ops := if op = 0x80 ∨ op = 0x82 then [0x80, 0x82, 0x86] else [0x81, 0x83, 0x84, 0x87]
     s.headOf s.here = some (testCmd true) ∧ s.cmdNode 64 = some n ∧ s.domOf s.here n = some openDom ∧ n.mid = false ∧ n.hold = none ∧
     (s.bindChecks c ops (op == 0x80 || op == 0x82) (testCmd true)).all (fun x => x.ok) = true ∧
     ((s.readRec s.here 0x80000000003E0000 0).bind (fun r => formPattern r (bindOrigins op false c r) 4)).any (fun q => s.bindClear s.here 64 n q) =
       true) ∧
    (let n := mk 0x80 portRec
     let m := { freshNode 0x81 portRec (portRegs 15) with inst := 2 }
     let g := { oneNode 64 n none none none with nodes := [(64, n), (65, m)] }
     (oneCore { Core.reset with cfg := some g }).bindClear 0 64 n m.pattern = false) ∧
    (let n := { mk 0x80 portRec with phase := 1 }
     (cmdState 64 n).cmdNode 64 = some n ∧ n.mid = true) ∧
    (let n := mk 0x87 portRec
     let s := { cmdState 64 n with mem := (scratchKey 0 0x3E0002, 0x10) :: recCells.drop 1 }
     let ops := [0x81, 0x83, 0x84, 0x87]
     (s.bindChecks (args 64 0 0 0 0) ops false (testCmd true)).all (fun x => x.ok) = true) := by
  decide +kernel

/-- TokenCommands: a command input of a CNT, of a DRAIN and of a PASS; a held port. -/
theorem witness_TokenCommands :
    (∀ x ∈ [(0x65, 1), (0x42, 2), (0x00, 0)], let n := mk x.1 { blankRec with inA := 1, inB := 1, inC := 1, var := 0xF, fmt := 0x21 }
     let g := { oneNode 0 n none none none with chans := [(1, { ent := 0x80, q := [], wire := [] })] }
     let s := oneCore { Core.reset with cfg := some g, unit := [testCmd true] }
     s.headOf s.here = some (testCmd true) ∧ (s.coreAt s.here).bankTags = [] ∧ s.cmdNode 0 = some n ∧ s.domOf s.here n = some openDom ∧
     openDom.done = false ∧ (s.tokenChecks (args (256 * x.2) 0 3 0 64) (fun m i => m.op == x.1 && i == x.2)).all (fun y => y.ok) = true ∧
     s.badIn (scratchKey s.here 64) 64 = false ∧ readNat s.mem (scratchKey s.here 64) 4 = 0 ∧ hdrKind 0 ≤ 5) ∧
    (let n := { freshNode 0x80 portRec (portRegs 15) with hold := some { code := 0x31, addr := 0 } }
     (cmdState 64 n).cmdNode 64 = some n) ∧
    (let s := { cmdState 0 (mk 0x00 blankRec) with bad := [scratchKey 0 64, scratchKey 0 192] }
     s.badIn (scratchKey s.here 64) 64 = true ∧ s.badIn (scratchKey s.here 64) 4 = true ∧ s.badIn (scratchKey s.here 128) 4 = false ∧
     s.badIn (scratchKey s.here (128 + 64)) (64 * 1) = true) := by
  decide +kernel

/-- A template of the record with itself. -/
def testTpl : Template := { src := blankT, dst := blankT, red := 0, core := 0, box := 0, once := false, prog := [] }

/-- Core 0 with a template armed in slot 0 and n triggers queued for it. -/
def armed (n : Nat) (s : State) : State :=
  s.modCe 0 (fun e => { e with templates := [(0, testTpl)], trigs := List.replicate n { tpl := some 0, job := none, level := 0, value := 0, empty := false } })

/-- CopyCommands: the checks of TARM and COPY hold, the template is formed; a queue with room and a full one; LXRUN's program and records. -/
theorem witness_CopyCommands :
    (let s := cmdState 0 (mk 0x00 blankRec)
     let c := args 0 0 0 0 0
     s.headOf s.here = some (testCmd true) ∧ (s.copyChecks c (testCmd true)).all (fun x => x.ok) = true ∧ (s.copyTemplate c (testCmd true)).isSome = true ∧
     (s.coreAt s.here).ce.queued 0 = 0 ∧ (s.coreAt s.here).ce.jobs = [] ∧ tget (s.coreAt s.here).ce.templates 0 = none ∧
     (tget ((armed 0 s).coreAt 0).ce.templates 0).isSome = true ∧ ((armed 0 s).coreAt 0).ce.queued 0 < 16 ∧ 16 ≤ ((armed 16 s).coreAt 0).ce.queued 0 ∧
     (s.readRec s.here 0x80000000003E0000 0).isSome = true ∧
     s.badIn (scratchKey s.here 0x3FFFF8) (8 * (s.readProg s.here 0x3FFFF8).length) = false) ∧
    (args 0 0 0 0 0x3FFFF8).w3.toNat % 8 = 0 ∧ 0x3E0000 ≤ (args 0 0 0 0 0x3FFFF8).w3.toNat ∧ (args 0 0 0 0 0x3FFFF8).w3.toNat < 2 ^ 22 := by
  decide +kernel

/-- ConfigurationCommands: an aligned address in each space; a region at rest and one not; a register of a node between instants, and within one. -/
theorem witness_ConfigurationCommands :
    (let s := cmdState 0 (mk 0x00 blankRec)
     s.cmdRegion = some (0, testRegion) ∧ s.drained 0 = false ∧
     s.cmdNode 0 = some (mk 0x00 blankRec) ∧ 2 < regCount (mk 0x00 blankRec) ∧ clearable (mk 0x00 blankRec) 1 = true ∧
     (mk 0x00 blankRec).mid = false ∧ (mk 0x00 blankRec).hold = none ∧ ({ mk 0x00 blankRec with phase := 1 } : Node).mid = true ∧
     testRegion.doms[0]? = some openDom) ∧
    (let s := { cmdState 0 (mk 0x00 blankRec) with regions := [(0, { testRegion with configured := false })] }
     s.cmdRegion = some (0, { testRegion with configured := false }) ∧ s.drained 0 = true ∧
     (s.loadImage 0 0 localA (some (0, 0, 1))).2 ≠ 0) ∧
    spaceOf 0x100000 = .global 0x100000 ∧ spaceOf localA = .localMem 0x100 ∧ localA.toNat % 64 = 0 := by
  decide +kernel

/-- An image of one core without nodes and one domain (R64, R65): header, section table at 0x40, and a section at 128 whose key table
stands at 64. -/
def testImage (ident : Nat) : List Byte :=
  bytesOfNat 0x31435144 4 ++ bytesOfNat 1 2 ++ bytesOfNat 0 2 ++ bytesOfNat 256 4 ++ [1, 1, 1, 0] ++ bytesOfNat ident 32 ++ bytesOfNat 0x40 4 ++
  bytesOfNat 1 2 ++ List.replicate 10 0 ++ bytesOfNat 128 4 ++ bytesOfNat 128 4 ++ List.replicate 56 0 ++
  List.replicate 0x2C 0 ++ bytesOfNat 64 4 ++ List.replicate 16 0 ++ List.replicate 64 0xFF

/-- The image with its identity. -/
def soundImage : List Byte := testImage 0x1F1C274B904DF397C8867A186FBCB0029D7C4FD32F060F3EB76C2BF2A4F35FCF

/-- Core 0 with an image at local offset 0x100, its region as given. -/
def withImage (img : List Byte) (r : Region) : State :=
  { cmdState 0 (mk 0x00 blankRec) with mem := writeBytes [] (scratchKey 0 0x100) img, regions := [(0, r)] }

/-- ConfigurationCommands: an image that can be read and loads; one of another identity and of another shape; one that is not sound, of a
bad length, that cannot be read; the image resident there. -/
theorem witness_ConfigurationCommands_images :
    (let r := { testRegion with configured := false }
     let s := withImage soundImage r
     let env := s.loadEnv 0 r (some (1, 1, 1))
     let hd := imgHead soundImage
     (s.imageBytes s.here localA 64).map imgHead = some hd ∧ hd.len = 256 ∧ s.imageBytes s.here localA 256 = some soundImage ∧ hd.sound = true ∧
     (checkImage env soundImage).isOk = true ∧ env.h = 1 ∧ env.w = 1 ∧ (hd.h, hd.w, hd.doms) ≠ (1, 2, 1) ∧ ((List.range hd.count).map (sectOf soundImage hd)).all Option.isSome = true) ∧
    (let r := { testRegion with configured := true, ident := (imgHead soundImage).ident, kept := [(0, oneNode 0 (mk 0x00 blankRec) none none none)] }
     r.configured = true ∧ (imgHead soundImage).ident = r.ident ∧ r.kept ≠ []) ∧
    (imgHead (testImage 0)).sound = true ∧ imgIdentity (testImage 0) ≠ (imgHead (testImage 0)).ident ∧ (imgHead [0]).sound = false ∧
    (imgHead [0]).len % 64 = 0 ∧ (imgHead [0]).len < 64 ∧ (withImage [] testRegion).imageBytes 0 0x1000 64 = none ∧
    ((withImage soundImage testRegion).modRegion 0 id).cmdRegion = some (0, testRegion) := by
  decide +kernel

/-- DomainCommands: a domain that is not configured, one that is done, one with a limit and one without. -/
theorem witness_DomainCommands :
    (∀ d ∈ [openDom, { openDom with done := true }, { openDom with unlim := false, lim := 5 }],
      let s := { cmdState 0 (mk 0x00 blankRec) with regions := [(0, { testRegion with doms := [d] })] }
      s.cmdRegion = some (0, { testRegion with doms := [d] }) ∧ ({ testRegion with doms := [d] } : Region).doms[0]? = some d ∧
      ({ testRegion with doms := [d] } : Region).doms[1]? = none) ∧
    ((args 0 0 0 0 0).w2.extractLsb' 0 16 ++ (args 0 0 0 0 0).w1).toNat = 0 ∧
    ((args 3 0 0xFFFFFFFF 0xFFFF 0).w2.extractLsb' 0 16 ++ (args 3 0 0xFFFFFFFF 0xFFFF 0).w1).toNat = 2 ^ 48 - 1 := by
  decide +kernel

/-- A save of one unconfigured core of the region, resident. -/
def testSave : Saved :=
  { part := 0, area := none, handle := 0x4005, deep := false, unloaded := false, resident := true, row := 0, col := 0, cores := [Core.reset], scratch := [[]], bad := [[]],
    region := testRegion, wheels := [] }

/-- A command issued in firmware mode at the head of the unit. -/
def byFirmware (s : State) : State := s.modCore 0 (fun c => { c with unit := [{ testCmd true with fw := true }] })

/-- The header of a save area of one core, at 0x400000. -/
def saveCells : List Host.Cell :=
  [(0x400000, 0x44), (0x400001, 0x51), (0x400002, 0x53), (0x400003, 0x56), (0x400004, 1), (0x400008, 1), (0x400009, 1)]

/-- SaveCommands: a deep save that can be written, one whose area has no page, a save of a region that rests and one that does not. -/
theorem witness_SaveCommands_save :
    (let s := byFirmware (withPages (cmdState 0 (mk 0x00 blankRec)))
     s.headOf s.here = some { testCmd true with fw := true } ∧ s.cmdRegion = some (0, testRegion) ∧
     (s.saveTo s.here 0 0x400000 true).isSome = true ∧ (s.saveTo s.here 0 0x400000 false).isSome = true ∧ (0x400000#64).toNat % 4096 = 0 ∧
     spaceOf 0x400000 = .global 0x400000 ∧ ({ s with parts := [] } : State).saveTo s.here 0 0x400000 true = none ∧
     (List.range testRegion.doms.length).all (fun i => (testRegion.doms[i]?).all (fun d =>
       restsAt d (((s.nodesOf testRegion).filter (fun n => n.2.2.dom == i)).map (fun n => n.2.2)))) = false) ∧
    restsAt { openDom with done := true } [mk 0x00 blankRec] = true ∧ (args 0 1 0x400000 0 0).flags &&& 0xFE = 0 := by
  decide +kernel

/-- A save in memory, its bytes for the core's state zero. -/
def loadState (unloaded : Bool) : State :=
  { byFirmware (withPages (cmdState 0 (mk 0x00 blankRec))) with
    regions := [(0, { testRegion with begun := false })], areas := [(Config.savedKey [[]], { testSave with unloaded := unloaded })],
    mem := pageCells ++ saveCells }

/-- SaveCommands: a save in memory that suits the team, its region configured and not begun, saved before a DOMGO and after one. -/
theorem witness_SaveCommands_load :
    ∀ unloaded ∈ [true, false], let sv := { testSave with unloaded := unloaded }
     let r := { testRegion with begun := false }
     let s := loadState unloaded
     r.configured = true ∧ r.begun = false ∧ s.cmdRegion = some (0, r) ∧ (s.teamAt 0).h = 1 ∧ (s.teamAt 0).w = 1 ∧ s.partOf 0 = 0 ∧
     s.takeState 0 0x400000 1 = some [[]] ∧ (s.takeGlobal 0 0x400000 0x40).any (fun m => headerFits m 1 1) = true ∧
     sv.region.ident = r.ident ∧ (s.fromArea 0 0x400000 (s.teamAt 0) sv).isSome = true ∧ s.parkedAt 0 0x400000 = [] ∧
     sv.region.configured = true ∧ sv.cores[0]? = some Core.reset ∧ (s.coreAt 0).team = some 0 ∧ (s.teamAt 0).w ≤ Config.gridCols := by
  decide +kernel

/-- SaveCommands: that save is the one that the area holds. -/
theorem witness_SaveCommands_area (unloaded : Bool) (h : unloaded ∈ [true, false]) :
    (loadState unloaded).saveAt 0 0x400000 1 1 = some { testSave with unloaded := unloaded } := by
  obtain ⟨-, -, -, -, -, -, h1, h2, -⟩ := witness_SaveCommands_load unloaded h
  obtain ⟨m, hm, hf⟩ := (Option.any_eq_true _ _).mp h2
  have h3 : (loadState unloaded).areas = [(Config.savedKey [[]], { testSave with unloaded := unloaded })] := rfl
  simp only [State.saveAt, hm, h1, hf, h3, tget, if_true, Nat.mul_one]

/-- HubCommands: a member table of two members at the last place; a wheel to read; a record. -/
theorem witness_HubCommands :
    (let s : State := { twoCores (mk 0x00 blankRec) 0 [] with mem := [(scratchKey 0 0x3FFFF8, 1)] }
     let off := 0x3FFFF0
     Memory.wf s.mem = true ∧ (s.coreAt s.here).team = some 0 ∧ tget s.teams 0 = some { testTeam with w := 2 } ∧ isWheelFmt 0x10 = true ∧
     off % 8 = 0 ∧ off + 8 * 2 ≤ 2 ^ 22 ∧ s.badIn (scratchKey s.here off) (8 * 2) = false ∧
     (s.wheelMembers off 2).all (memberOk ({ testTeam with w := 2 } : Team).count 128) = true ∧
     ((s.wheelMembers off 2).map (fun e => (e.extractLsb' 0 10).toNat)).Nodup ∧
     (let c := args 0 0 0x00020010 128 (0x3FFFF0#22 |>.zeroExtend 32)
      c.w1.extractLsb' 10 2 = 0 ∧ c.w1.extractLsb' 23 9 = 0 ∧ c.w1.getLsbD 9 = false ∧ (c.w1.extractLsb' 16 7).toNat = 2)) ∧
    (let s := { cmdState 0 (mk 0x00 blankRec) with teams := [(0, { testTeam with wheels := [(0, testWheel)] })] }
     s.wheelAt s.here 0 = some testWheel ∧ (s.coreAt s.here).hubCmd = none ∧ Memory.wf s.mem = true ∧
     (s.readRec s.here (s.ctlAt s.here).trb 0).isSome = true ∧ (0x3FFFC0 : Nat) % 64 = 0 ∧ 0x3FFFC0 + 64 * (0 + 1) ≤ 2 ^ 22) := by
  decide +kernel

/-- MemoryAndLinkCommands: a keyed bank with a holder and without; leaves to mark; a slot in use; ports up and down, channels granted and not. -/
theorem witness_MemoryAndLinkCommands :
    (∀ h ∈ [0xFF, 65], let g := { oneNode 64 (mk 0x80 portRec) none none none with
         modes := [{ tile := 0, mode := 1, bufs := 0, owner := 64, base := 0, len := 65536, param := 0 }], keys := [(0, h)] }
     let s : State := (cmdState 0 (mk 0x00 blankRec)).modCore 0 (fun c => { c with cfg := some g })
     (s.coreAt s.here).cfg = some g ∧ g.keyed 0 = true ∧ g.holder 0 = h ∧ (s.coreAt s.here).region = some (s.teamAt s.here).region ∧
     (let z := s.modCore 0 (fun c => { c with region := none })
      (z.coreAt z.here).team.isSome = true ∧ (z.coreAt z.here).region ≠ some (z.teamAt z.here).region)) ∧
    (let s := withPages (cmdState 0 (mk 0x00 blankRec))
     s.rangeLeaves (s.partOf s.here) 0 64 = some [0x30000] ∧ tget (s.partAt (s.partOf s.here)).slots 0 = none ∧ Memory.wf s.mem = true ∧
     (0 + 65536 * 64 ≤ 2 ^ 57)) ∧
    (let sl : Slot := { base := 0, pages := 1, shadows := [], drain := none }
     let s := { cmdState 0 (mk 0x00 blankRec) with parts := [(0, { Part.reset with slots := [(7, sl)], pvc0 := 0x0F })], ports := [(0, upPort)] }
     tget (s.partAt (s.partOf s.here)).slots 7 = some sl ∧ sl.drain = none ∧ (s.partAt 0).grant 0 = 0x0F ∧ (s.portAt 0).up = true ∧
     (s.portAt 15).up = false ∧ (0x05#8 &&& 0x0F#8) = 0x05#8 ∧ (0x85#8 &&& 0x0F#8) ≠ 0x85#8) := by
  decide +kernel

/-! ### Events -/

/-- RegionEvents: a domain whose nodes have finished its instant, live or quiet, the leader's inbox 6 with room and full; one not finished. -/
theorem witness_RegionEvents_instants :
    (∀ d ∈ [{ openDom with live := [0] }, openDom], let n := { mk 0x00 blankRec with inst := 1 }
     let r := { testRegion with doms := [d] }
     let s := { nodeState 0 n none none none with regions := [(0, r)] }
     tget s.regions 0 = some r ∧ r.doms[0]? = some d ∧ s.instantOver r 0 d = true ∧ boxRoom ((s.ctlAt (r.posOf 0)).box 6) (doneEntry 1 0) = true ∧
     (nodeState 0 (mk 0x00 blankRec) none none none).instantOver r 0 d = false) ∧
    boxRoom fullBox (doneEntry 1 0) = false := by
  decide +kernel

/-- RegionEvents: an empty wire and a loaded one; a quiescent region with a node that waits; a tile idle for 64 instants. -/
theorem witness_RegionEvents_fabric :
    (let c : Chan := { ent := 0x3F000, q := [], wire := [(1, some (beat1 5)), (2, none)] }
     let s := oneCore { Core.reset with cfg := some { oneNode 0 (mk 0x00 blankRec) none none none with chans := [(1, c), (2, { c with wire := [] })] } }
     s.chanAt 0 1 = some c ∧ s.chanAt 0 2 = some { c with wire := [] }) ∧
    (let n := mk 0x10 { blankRec with fmt := 1, inB := 2, outX := 4 }
     let g : Cfg := { oneNode 0 n none none none with chans := [(2, { ent := 0x3F000, q := [], wire := [] }), (1, oneChan (some (beat1 1)))], routes := [(4, 0x0200)] }
     let g : Cfg := { g with chans := [(1, oneChan (some (beat1 1))), (2, { ent := 0x3F000, q := [], wire := [] })] }
     let r := { testRegion with quiet := true }
     let s := { oneCore { Core.reset with cfg := some g } with regions := [(0, r)] }
     tget s.regions 0 = some r ∧ s.quiescent r = true ∧ r.doms = [openDom] ∧
     (s.modRegion 0 (fun h => { h with fired := false, quiet := false })).cycleOf r 0 ≠ [] ∧
     s.quiescent { r with configured := false } = false) ∧
    (let n := { mk 0x00 blankRec with quiet := 64 }
     let s := nodeState 0 n none none none
     (s.coreAt 0).cfg = some (oneNode 0 n none none none) ∧ tileOf 0 = 0 ∧ 0 ∉ (s.coreAt 0).gated) := by
  decide +kernel

/-- CoreAndSignalEvents: a key on its way, its holder between instants and within one; hub reads of HUBRD and of MGRP, ready; none ready. -/
theorem witness_CoreEvents :
    (∀ n ∈ [mk 0x80 portRec, { mk 0x80 portRec with phase := 1 }],
      let g := { oneNode 64 n none none none with keys := [(0, 64)], moves := [(0, 65)] }
      let s := oneCore { Core.reset with cfg := some g }
      (s.coreAt 0).cfg = some g ∧ tget g.moves 0 = some 65 ∧ (s.coreAt 0).node (g.holder 0) = some n) ∧
    (mk 0x80 portRec).mid = false ∧ ({ mk 0x80 portRec with phase := 1 } : Node).mid = true ∧
    (let j : HubJob := { wheel := some testWheel, off := 0, beats := 2, phase := 0, dest := 0x3FFF80 }
     let s := oneCore { Core.reset with hubCmd := some j }
     (s.coreAt 0).hubCmd = some j ∧ s.hubReady 0 j = true ∧ Memory.wf s.mem = true ∧
     (let n := { mk 0x85 portRec with hub := some j }
      let t := nodeState 64 n (some (toks [0, 0])) none none
      (t.coreAt 0).hubCmd = none ∧ (t.hubNodes 0).filter (fun x => t.hubReady 0 x.2.2) = [(64, n, j)] ∧ (t.coreAt 0).node 64 = some n)) ∧
    (State.reset.coreAt 0).hubCmd = none ∧ State.reset.hubNodes 0 = [] := by
  decide +kernel

/-- CoreAndSignalEvents: signals to no task, to one that has ended, to a running leaf, and to a leaf that has not started, its list with room and full. -/
theorem witness_Signals :
    let g : Signal := { src := 0, part := 0, handle := 0x4005, sb := 3, seq := 0 }
    let started := fun (x : Option Nat) (n : Nat) => { testTask none with nodes := [{ started := x.isSome, ended := none, team := x, parked := List.replicate n (0, 0) }] }
    let st := fun (k : Task) => { withTask k (scalar 0 0 0) with signals := [g] }
    (({ scalar 0 0 0 with signals := [g] } : State).taskOf 0x4005 = none) ∧
    (∀ k ∈ [testTask (some { st := 1, code := 0 }), started (some 0) 0, started none 0, started none 64],
      (st k).signals.find? (fun y => y.src == 0) = some g ∧ (st k).taskOf 0x4005 = some 5 ∧ tget (st k).tasks 5 = some k ∧
      k.part = g.part ∧ ((st k).partAt k.part).resetting = false ∧ k.leaves[bitsOf g.sb.toNat 31 28]? = some 0 ∧
      bitsOf g.sb.toNat 25 16 = 0 ∧ (k.nodeAt 0).ended = none ∧ 0 < k.nodes.length) ∧
    tget (st (started (some 0) 0)).teams 0 = some testTeam ∧ testTeam.st ≠ .saved ∧ ((started none 64).nodeAt 0).parked.length = 64 := by
  decide +kernel

/-- CoreAndSignalEvents: a signal behind an arrival of its core at the same barrier. -/
theorem witness_Signals_order :
    let a : Arrival := { src := 0, home := 0, k := 3, wait := false, seq := 0 }
    let g : Signal := { src := 0, part := 0, handle := 0x4005, sb := 3, seq := 1 }
    let k := { testTask none with nodes := [{ started := true, ended := none, team := some 0, parked := [] }] }
    let s := { withTask k (scalar 0 0 0) with arrivals := [a], signals := [g] }
    s.signalBehind g = true ∧ a ∈ s.arrivals ∧ a.src = 0 ∧ a.seq < g.seq ∧ s.signalHome g = some a.home ∧ a.k = bitsOf g.sb.toNat 3 0 := by
  decide +kernel

/-- A record of four binary32 elements at an offset of the scratchpad. -/
def fourFrom (off : Nat) : TRec := { blankT with
  base := 0x8000000000000000 + BitVec.ofNat 64 off, fmt := 0x10, rank := 1, axis := 0, ext := [4], str := [4], org := [0] }

/-- CopyEvents: a copy of four elements, none, one and three moved; the places of its next element, nothing uncorrectable; its next element
read and not. -/
theorem witness_CopyEvents_moves : ∀ done ∈ [0, 1, 3],
    let j : CopyJob :=
      { tpl := none, t := { testTpl with src := fourFrom 0, dst := fourFrom 0x3FFFF0 }, level := 0, value := 0, empty := false, done := done,
        seen := [], bytes := 4 * done, lost := [], wrote := [], moved := false }
    let s := { (oneCore Core.reset).modCe 0 (fun e => { e with jobs := [j] }) with slot := whoCopy }
    (s.coreAt 0).ce.jobs = [j] ∧ j.t.dst.size - j.done = 4 - done ∧ (j.run s 0 2).stuck = false ∧ (j.run s 0 2).hold = none ∧
    64 % portWidth j.t.dst.fmt = 0 ∧ (∃ k, k < j.t.src.size ∧ j.seen.length = 0 ∧ ({ j with seen := [some k] } : CopyJob).seen = some k :: []) ∧
    (s.coreAt 0).failed = false ∧ (s.coreAt 0).ce.hold = none ∧ j.t.prog = [] ∧ j.t.red = 0 ∧ j.t.src.window.length = j.t.src.rank ∧
    j.done < j.t.src.size ∧
    s.copyPlace 0 (j.t.src.base + BitVec.ofInt 64 (j.t.src.offsetOf done)) false = (.key (scratchKey 0 (4 * done)) none, s) ∧
    s.copyPlace 0 (j.t.dst.base + BitVec.ofInt 64 (j.t.dst.offsetOf done)) true = (.key (scratchKey 0 (0x3FFFF0 + 4 * done)) none, s) ∧
    s.badIn (64 * (scratchKey 0 (4 * done) / 64)) 64 = false ∧ Memory.wf s.mem = true := by
  decide +kernel

/-- CopyEvents: a beat whose sources are all read, and one whose first waits for its page. -/
theorem witness_CopyEvents_beat : ∀ waits ∈ [true, false],
    let src := if waits then { fourFrom 0 with base := 0x100000 } else fourFrom 0
    let j : CopyJob :=
      { tpl := none, t := { testTpl with src := src, dst := fourFrom 0x3FFFC0 }, level := 0, value := 0, empty := false, done := 0, seen := [],
        bytes := 0, lost := [], wrote := [], moved := false }
    let m : Mover := { s := oneCore Core.reset, job := j, pos := 0, wrote := [], hold := none, stuck := false }
    m.job.beatLeft = 4 ∧ ((List.range m.job.beatLeft).foldl (fun (x : Mover) i =>
      x.ahead 0 (copyEmits { src := j.t.src, dst := j.t.dst } []) (m.job.done + i)) { m with pos := 0 }).stuck = waits := by
  decide +kernel

/-- CopyEvents: a trigger to begin, of an empty fibre; a copy moved and one not; an end-of-tile with room and without; a failed core. -/
theorem witness_CopyEvents :
    (let x : Trig := { tpl := some 0, job := none, level := 0, value := 0, empty := true }
     let s := (armed 0 (oneCore Core.reset)).modCe 0 (fun e => { e with trigs := [x] })
     let c := (s.coreAt 0).ce
     (s.coreAt 0).failed = false ∧ c.hold = none ∧ s.copiesRun 0 = true ∧ c.moving = false ∧ c.eots.length + c.jobs.length < 16 ∧ c.trigs = [x] ∧
     (c.begin x).isSome = true ∧ x.empty = true) ∧
    (∀ m ∈ [true, false], let j : CopyJob :=
       { tpl := some 0, t := testTpl, level := 0, value := 0, empty := false, done := 0, seen := [], bytes := 0, lost := [], wrote := [], moved := m }
     ((oneCore Core.reset).modCe 0 (fun e => { e with jobs := [j] }) |>.coreAt 0).ce.jobs = [j]) ∧
    (let e : Eot := { core := 0, box := 5, ent := { sd := 1, hdr := 0, beats := [] }, gives := [] }
     let s := (oneCore Core.reset).modCe 0 (fun c => { c with eots := [e] })
     (s.coreAt 0).ce.eots = [e] ∧ boxRoom ((s.ctlAt ((s.teamAt 0).posOf e.core)).box e.box) e.ent = true ∧ boxRoom fullBox e.ent = false) ∧
    ({ oneCore Core.reset with teams := [(0, { testTeam with st := .stopping })] } : State).copiesRun 0 = false ∧
    ((oneCore { Core.reset with failed := true }).coreAt 0).failed = true := by
  decide +kernel

/-- MemoryEvents: a walk whose page is mapped and one whose page is not; a slot whose drain streams, one streamed with and without room. -/
theorem witness_MemoryEvents :
    (let w : Walk := { die := 0, part := 0, page := 16, joined := [{ core := 0, who := 97 }] }
     let s := { withPages (oneCore Core.reset) with walks := [w] }
     s.walks.find? (fun w => w.die == 0 && w.part == 0 && w.page == 16) = some w ∧ (s.walkTable 0 (65536 * 16)).isSome = true ∧
     ({ s with mem := [] } : State).walkTable 0 (65536 * 16) = none) ∧
    (let d : Drain := { dest := 0x400000, core := 0, box := 5, engine := 0, team := 0, streamed := false }
     let sl : Slot := { base := 0, pages := 0, shadows := [], drain := some d }
     let s := { withPages (oneCore Core.reset) with parts := [(0, { Part.reset with ptroot := 0x20000, slots := [(7, sl)] })] }
     tget (s.partAt 0).slots 7 = some sl ∧ (s.streamSlot 0 sl d.dest sl.pages 0).isSome = true ∧
     (s.streamSlot 0 { sl with base := 2 ^ 30 } d.dest 1 0) = none ∧
     (s.deliver d.team d.core d.box (drainEntry 0 7 0)).isSome = true ∧
     (s.modCtl 0 (fun c => { c with inbox := Vector.replicate 8 fullBox })).deliver d.team d.core d.box (drainEntry 0 7 0) = none) := by
  decide +kernel

/-- MemoryEvents: a drain of a team that runs, of one that is saved, and of one that is gone; one page to stream to a page that is not
copy-on-write, its frozen bytes found. -/
theorem witness_MemoryEvents_drain :
    (let d : Drain := { dest := 0x410000, core := 0, box := 5, engine := 0, team := 0, streamed := true }
     let sl : Slot := { base := 0x30, pages := 1, shadows := [], drain := some { d with streamed := false } }
     let s := { withPages (oneCore Core.reset) with parts := [(0, { Part.reset with ptroot := 0x20000, slots := [(7, sl)] })] }
     let t : State := { s with teams := [(0, { testTeam with save := some testSave })] }
     tget (s.partAt 0).slots 7 = some sl ∧ d.streamed = true ∧ tget ({ s with teams := [] } : State).teams d.team = none ∧
     tget s.teams d.team = some testTeam ∧ testTeam.save = none ∧ testSave.cores[d.core]? = some Core.reset ∧
     (t.deliver d.team d.core d.box (drainEntry 1 7 0)).isSome = true ∧
     boxRoom (Core.reset.ctl.box 5) (drainEntry 1 7 0) = true ∧ sl.pages = 1 ∧ d.dest % 65536 = 0 ∧ (s.frozenAt 0 sl sl.base).isSome = true ∧
     (match s.xlatTable 0 d.dest .write with
       | .ok _ pte => !pteCow pte
       | _ => false) = true ∧ Memory.wf s.mem = true ∧
     ((s.partAt 0).slots.all (fun y => decide (y.1 = 7)) = true)) := by
  decide +kernel

/-- QueueEvents: a queue of a partition, one of none, an empty one and a full one; a record accepted and one refused; a live task and an ended one. -/
theorem witness_QueueEvents :
    (let q : Queue := { Queue.reset with assigned := true }
     let s := { oneCore { Core.reset with assigned := true } with queues := [(0, q), (2047, { q with recs := List.replicate 32 0 })] }
     (s.queueAt 0).assigned = true ∧ (s.queueAt 0).recs = [] ∧ 32 ≤ (s.queueAt 2047).recs.length ∧ (s.queueAt 5).assigned = false ∧
     s.refusal { part := 0, core := none, pos := 0 } (bytesOfNat 0 64) 0 ≠ 0) ∧
    (let s := { withPages (oneCore { Core.reset with assigned := true }) with
       mem := pageCells ++ [(0x100202, 1), (0x100203, 1), (0x100212, 0x3E), (0x100217, 0x80)] }
     s.refusal { part := 0, core := none, pos := 0 } (bytesOfNat 0x100200 64) 0 = 0) ∧
    ({ Queue.reset with assigned := true, tag := 3 } : Queue).tag ≠ 0 ∧
    (let k := testTask none
     k.ended = none ∧ k.posted = false ∧ k.plan.map PlanNode.kids = [[]] ∧ k.nodes.length = 1 ∧ (k.nodeAt 0).ended = none) ∧
    (withTask (testTask none) (scalar 0 0 0)).taskOf 0x4005 = some 5 ∧ (withTask (testTask none) (scalar 0 0 0)).taskOf 0x8005 = none := by
  decide +kernel

/-- DispatcherEvents: an event of the partition and one outside it; a task that has ended, posted and not; a leaf that may start. -/
theorem witness_DispatcherEvents :
    (let pt : Part := { Part.reset with pevt := 0x00400020 }
     pt.owns 0x20 = true ∧ pt.owns 0x5F = true ∧ pt.owns 0x60 = false) ∧
    (∀ v ∈ [true, false], let k := { testTask (some { st := 2, code := 1 }) with posted := v }
     tget (withTask k State.reset).tasks 5 = some k) ∧
    (let s : State := { State.reset with cores := [(0, { Core.reset with assigned := true })], tasks := [(5, testTask none)], booted := true }
     (∃ x ∈ s.tasks, x.2.part = 0 ∧ x.2.ended = none) ∧ (s.choice 0).isSome = true ∧ (s.choice 0).all (fun x => !x.1.saved) = true ∧
     State.reset.choice 31 = none ∧
     (s.choice 0).any (fun y => y.1.task == 5 && y.1.rows == [[{ leaf := 0, south := 0, east := 0, h := 1, w := 1 }]] && y.2 == [0]) = true ∧
     (let k := testTask none
      ∃ n, k.plan[0]? = some n ∧ 0 < k.nodes.length ∧ n.hasImage = false ∧ n.sections = [] ∧ (k.nodeAt 0).parked = [] ∧ k.handInto 0 = [])) ∧
    (∀ st ∈ [0, 1, 2], let k := { testTask none with waits := [0], rcd := { (testTask none).rcd with deps := [0] } }
     let s : State := { withTask k State.reset with events := [(0, st)], parts := [(0, { Part.reset with pevt := 0x00200000 })] }
     tget s.tasks 5 = some k ∧ k.ended = none ∧ k.begun = false ∧ s.depsFailed k = decide (st = 2)) := by
  decide +kernel

/-- Task 5's leaf, running at effective priority 0, and a ready task of one core at entry 6 with a priority above it; every core assigned. -/
def crowded (prio : Nat) : State :=
  let k := { testTask none with nodes := [{ started := true, ended := none, team := some 0, parked := [] }] }
  let s := withTask k (oneCore { Core.reset with assigned := true })
  { s with tasks := [(5, k), (6, { testTask none with eff := prio })], teams := [(0, { testTeam with task := 5 })] }

/-- PreemptionEvents: a team that a ready task may pre-empt and one that none may; one being stopped whose controllers rest, a saved one;
a controller that may stop. -/
theorem witness_PreemptEvents :
    (let s := crowded 1
     tget s.teams 0 = some { testTeam with task := 5 } ∧ testTeam.st = .running ∧ s.givesWay 0 testTeam.part = true ∧
     (crowded 0).givesWay 0 testTeam.part = false ∧ (∀ x ∈ s.teams, tget s.teams x.1 = some x.2) ∧ (∃ i ∈ s.items 0, s.victims 0 i ≠ []) ∧
     tget s.regions testTeam.region = some testRegion) ∧
    (let tm := { testTeam with st := .stopping, deep := true }
     let s := { oneCore { Core.reset with ctl := { Ctl.reset with run := .stopped, preempt := true } } with teams := [(0, tm)] }
     tget s.teams 0 = some tm ∧ tm.cores = [0] ∧ (s.ctlAt 0).run = .stopped ∧ s.arrivals = []) ∧
    (∀ c ∈ [{ Ctl.reset with run := .running, preempt := true }, { Ctl.reset with run := .service, preempt := true }],
     let tm := { testTeam with task := 5, st := .stopping, deep := true, area := some 0x400000 }
     let s := { withTask (testTask none) (oneCore { Core.reset with ctl := c }) with teams := [(0, tm)] }
     let z := s.modCtl 0 (Ctl.stopHere s.steps)
     tget s.teams 0 = some tm ∧ tget s.tasks tm.task = some (testTask none) ∧ s.bundleOf 0 .stopping = [(0, tm)] ∧ tm.cores = [0] ∧
     z.mayStopNow tm = (c.run == .running)) ∧
    ({ testTeam with st := .saved } : Team).st = .saved ∧
    (let s := oneCore Core.reset
     let tm := { testTeam with region := 9 }
     (∀ x ∈ s.teams, tget s.teams x.1 = some x.2) ∧ s.restsDrained tm = true ∧
     (s.modCe 0 (fun e => { e with eots := [{ core := 0, box := 5, ent := { sd := 1, hdr := 0, beats := [] }, gives := [] }] })).restsDrained tm = false) ∧
    ({ Ctl.reset with preempt := true, run := .running } : Ctl).mayStop = true := by
  decide +kernel

/-- A saved team of task 5's leaf, its save resident. -/
def savedTeam (resident : Bool) : Team :=
  let sv : Saved := { testSave with resident := resident, region := { testRegion with configured := false } }
  { testTeam with task := 5, st := .saved, save := some sv }

/-- PreemptionEvents: a saved team whose turn it is, on the place chosen; none chosen; a tagged bank with its owner's save. -/
theorem witness_ResumeEvents :
    (let k := { testTask none with nodes := [{ started := true, ended := none, team := some 0, parked := [] }] }
     let s := { withTask k State.reset with cores := [(0, { Core.reset with assigned := true })], teams := [(0, savedTeam false)], booted := true }
     tget s.teams 0 = some (savedTeam false) ∧ (s.choice 0).isSome = true ∧
     (s.choice 0).all (fun x => x.1.saved && x.1.task == 5 && x.1.rows.map (List.map (fun y => y.leaf)) == [[0]] && x.2 == [0]) = true ∧
     ((s.savedOf 5).find? (fun y => y.2.leaf == 0)).isSome = true ∧ s.parkedOf (savedTeam false) = [] ∧ colOf 0 + (savedTeam false).w ≤ Config.gridCols ∧
     (savedTeam false).save.all (fun sv => !sv.resident && !sv.region.configured && sv.cores[0]? == some Core.reset) = true) ∧
    ({ State.reset with teams := [(0, savedTeam false)] } : State).choice 0 = none ∧
    (let s := { withTask (testTask none) State.reset with cores := [(0, { Core.reset with bankTags := [(63, 0x4005)] })], teams := [(0, savedTeam true)] }
     tget (s.coreAt 0).bankTags 63 = some 0x4005 ∧ (s.ownerOf 0x4005 0).isSome = true ∧ s.ownerOf 0x4006 0 = none ∧
     (savedTeam true).save.all (fun sv => sv.owns 0x4005 0 && sv.logical 0 == some 0 && sv.scratch[0]? == some [] && sv.area == none) = true ∧
     tget (s.coreAt 0).bankTags 62 = none) ∧
    (let sv := { testSave with area := some 0x400000 }
     let s := { withPages (oneCore { Core.reset with bankTags := [(63, 0x4005)] }) with areas := [(0x400000, sv)] }
     s.ownerOf 0x4005 0 = some sv ∧ sv.logical 0 = some 0 ∧ 0x400000 % 65536 = 0 ∧
     (match s.xlatTable sv.part (0x400000 + coreRecord 0 + 63 * bankBytes) .write with
       | .ok _ pte => !pteCow pte
       | _ => false) = true) := by
  decide +kernel

/-- PreemptionEvents: a saved team with a configuration that its region, resident, takes up again; one without. -/
theorem witness_ResumeEvents_loads : ∀ conf ∈ [true, false], ∀ un ∈ [true, false],
    let g := oneNode 0 (mk 0x00 blankRec) none none none
    let r := { testRegion with
      configured := conf, ident := (imgHead soundImage).ident, image := localA, team := none, kept := if conf then [(0, g)] else [] }
    let sv : Saved := { testSave with
      cores := [{ Core.reset with cfg := if conf then some g else none }], scratch := [writeBytes [] 0x100 soundImage], region := r, wheels := [(0, testWheel)],
      unloaded := un }
    let tm := { testTeam with task := 5, st := .saved, save := some sv }
    let s : State := { withTask (testTask none) State.reset with cores := [(0, { Core.reset with assigned := true })], regions := [(0, r)], teams := [(0, tm)] }
    let k := (s.seatRegion 0 tm sv).1
    tget s.teams 0 = some tm ∧ s.parkedOf tm = [] ∧ colOf 0 + tm.w ≤ Config.gridCols ∧ 0 < tm.count ∧
    (((s.seat 0 0 tm sv).refill 0 (tm.moves 0) (tm.seated 0 k sv) sv).reload (tm.seated 0 k sv) sv k ((tm.seated 0 k sv).posOf 0)).2 = true := by
  decide +kernel

/-- ErrorEvents: counts below the threshold and at it, the tile's spare free and taken; a bank being copied; a bound core, its domain and node. -/
theorem witness_ErrorEvents :
    (∀ sp ∈ [[], [(0, 1)]], let c := { Core.reset with bankErr := [(15, 4)], spare := sp }
     let s := oneCore c
     tgetD 0 (s.coreAt 0).bankErr 15 + 1 = s.threshold 0 + 1 ∧ tgetD 0 (s.coreAt 0).bankErr 3 + 1 ≠ s.threshold 0 + 1 ∧
     (s.coreAt 0).spareTaken 0 = (sp != [])) ∧
    (let s := oneCore { Core.reset with copying := [15] }
     15 ∈ (s.coreAt 0).copying ∧ 14 ∉ (s.coreAt 0).copying ∧ Memory.wf s.mem = true) ∧
    (let s := nodeState 0 (mk 0x00 blankRec) none none none
     (s.coreAt 0).failed = false ∧ (s.coreAt 0).team = some 0 ∧ tget s.teams 0 = some testTeam ∧ s.fabricOf 0 = some (0, testRegion) ∧
     testRegion.configured = true ∧ testRegion.team.isSome = true ∧ testRegion.doms[0]? = some openDom ∧ openDom.done = false ∧
     (∃ y ∈ s.nodesOf testRegion, y.1 = 0 ∧ y.2.2.dom = 0)) ∧
    ((oneCore { Core.reset with failed := true }).coreAt 0).failed = true := by
  decide +kernel

/-- LinkEvents: ports up and down; flits in sequence, damaged and out of sequence, last and not; runs of requests below eight and at eight. -/
theorem witness_LinkEvents :
    (let s : State := { State.reset with ports := [(0, { upPort with slots := Vector.replicate 8 [], rxSeq := 0 })] }
     let p := s.portAt 0
     p.up = true ∧ flitNat (0x0101 : BitVec 512) 2 2 = p.rxSeq ∧ flitNat (0x00050101 : BitVec 512) 2 2 ≠ p.rxSeq ∧ p.asking = false ∧
     flitByte (0x0101 : BitVec 512) 0 < 128 ∧ 128 ≤ flitByte (0x0181 : BitVec 512) 0 ∧ chanBit p.en (flitByte (0x0181 : BitVec 512) 0 / 16 % 8) = true ∧
     runOf p.lastAsk p.askRun p.rxSeq < 8 ∧ runOf p.lastReq p.reqRun 0 < 8 ∧ 8 ≤ runOf 0 7 0 ∧ (s.portAt 15).up = false) := by
  decide +kernel

/-- PartitionEvents: cores with and without a team; queues with records and empty; grants that touch an enabled channel and not; a tested core;
firmware staged for an idle partition and a busy one; a status at a guard. -/
theorem witness_PartitionEvents :
    ((oneCore Core.reset).coreAt 0).team.isSome = true ∧ (State.reset.coreAt 0).team = none ∧ (State.reset.queueAt 2047).recs = [] ∧
    (({ State.reset with queues := [(0, { Queue.reset with recs := [0] })] } : State).queueAt 0).recs ≠ [] ∧
    (let s : State := { State.reset with ports := [(0, upPort)] }
     ((s.partAt 0).pvc0 ^^^ 1).extractLsb' 0 8 &&& (s.portAt 0).en ≠ 0 ∧
     ∀ i, i < 8 → (((s.partAt 0).pvc1 ^^^ 1) >>> (8 * i)).extractLsb' 0 8 &&& (s.portAt (i + 8)).en = 0) ∧
    (let s : State := { State.reset with parts := [(1, { Part.reset with pvc0 := 1 })] }
     (∃ x ∈ s.parts, x.1 ≠ 0 ∧ 1#64 &&& ~~~(s.partAt 0).pvc0 &&& x.2.pvc0 ≠ 0)) ∧
    List.Pairwise (· < ·) ((withTask (testTask none) (oneCore Core.reset)).tasks.map Prod.fst) ∧
    List.Pairwise (· < ·) ((oneCore Core.reset).regions.map Prod.fst) ∧
    (let c := { Core.reset with failed := true, repaired := true }
     c.failed = true ∧ c.repaired = true ∧ c.dead = false) ∧
    (let s : State := { State.reset with parts := [(31, { Part.reset with staged := some (7, 9) })] }
     (s.partAt 31).staged = some (7, 9) ∧ (∀ y ∈ s.queues, y.2.assigned = true → y.2.tag = 31 → y.2.recs = []) ∧
     (∀ y ∈ s.tasks, y.2.part = 31 → y.2.ended.isSome = true) ∧
     ¬∀ y ∈ (withTask { testTask none with part := 31 } s).tasks, y.2.part = 31 → y.2.ended.isSome = true) ∧
    (let f := { oneNode 0 (mk 0x00 blankRec) none none none with egress := [(4094, 0x42, none)] }
     f.egress.find? (fun y => y.1 == 4094) = some (4094, 0x42, none)) := by
  decide +kernel

/-- A table that lists a value for every number of a list. -/
theorem tget_listed {α : Type} (c : α) (k : Nat) : ∀ l : List Nat, k ∈ l → tget (l.map (fun p => (p, c))) k = some c
  | [], h => nomatch h
  | p :: t, h => by
    simp only [List.map_cons, tget]
    by_cases hp : p = k
    · simp [hp]
    · simp only [hp, if_false]
      exact tget_listed c k t ((List.mem_cons.mp h).resolve_left (fun e => hp e.symm))

/-- A package whose cores are all in RET, in self-refresh. -/
def asleep : State := { State.reset with cores := (List.range 512).map (fun p => (p, { Core.reset with power := 2 })), refresh := true }

/-- PowerAndRegisterEvents: every core low. -/
theorem witness_PowerEvents_low : asleep.refresh = true ∧ ∀ p, p < Config.coreCount → (asleep.coreAt p).power = 2 := by
  refine ⟨rfl, fun p hp => ?_⟩
  have h := tget_listed ({ Core.reset with power := 2 } : Core) p (List.range 512) (List.mem_range.mpr hp)
  simp only [State.coreAt, asleep, tgetD, h, Option.getD_some]

/-- PowerAndRegisterEvents: a core in RUN, bound and not, one kept by self-refresh; a booted package, aligned and unaligned offsets. -/
theorem witness_PowerEvents :
    ((oneCore Core.reset).coreAt 0).power = 0 ∧ ((oneCore Core.reset).coreAt 0).team.isSome = true ∧ (State.reset.coreAt 511).team = none ∧
    State.reset.refresh = false ∧
    (State.reset.coreAt 0).power ≠ 2 ∧ (State.reset.coreAt 0).power ≠ 3 ∧ (3 : BitVec 2) ≠ 0 ∧ State.reset.booted = false ∧
    (oneCore Core.reset).booted = true ∧ 0x04001001 % 8 ≠ 0 ∧ (2#64).getLsbD 1 = true ∧ (2#64).getLsbD 2 = false ∧ (4#64).getLsbD 2 = true ∧
    (0x10000#64).getLsbD 16 = true ∧ (0x2#64).getLsbD 16 = false ∧ State.reset.dramSum 0 64 ≤ 64 ∧ 64 < State.reset.dramSum 0 65 := by
  decide +kernel

/-- BootEvents: an image that cannot pass, whatever its signature; one that passes where its signature does; a die with a core to
replace while it has a spare, and while it has none. -/
theorem witness_BootEvents :
    (let code := fun (image : FirmwareImage) (s : State) => (if imageSigned image = false then 1
       else if image.version < s.rollback then 2 else if image.fits = false then 3 else (0 : BitVec 8))
     let image : FirmwareImage := { bytes := [], key := [], signature := [], version := 0, fits := true }
     code image { State.reset with rollback := 1 } ≠ 0 ∧ (imageSigned image = true → code image State.reset = 0)) ∧
    (oneCore Core.reset).booted = true ∧ State.reset.booted = false ∧
    (∀ given ∈ [3, 4], let s : State := { State.reset with cores := [(0, { Core.reset with failed := true, dead := true })], spares := [(0, given)] }
     List.Pairwise (· < ·) (s.cores.map Prod.fst) ∧ (s.coreAt 0).failed = true ∧ (s.coreAt 0).dead = true ∧ tgetD 0 s.spares (dieOf 0) = given) := by
  refine ⟨⟨?_, fun h => ?_⟩, rfl, rfl, by decide +kernel⟩
  · show (if _ then (1 : BitVec 8) else _) ≠ 0
    split
    · decide
    · decide
  · show (if _ then (1 : BitVec 8) else _) = 0
    rw [if_neg (by rw [h]; decide)]
    decide +kernel

/-- MemoryFormKept: a step from the state after reset, and from one with bytes, ends in a next state. -/
theorem witness_MemoryFormKept :
    Memory.wf State.reset.mem = true ∧ (step State.reset matches .next _) = true ∧
    (let s := (scalar localA 5 0)
     Memory.wf (s.withFetchWord 32 0x7C410000).mem = true ∧ (step (s.withFetchWord 32 0x7C410000) matches .next _) = true) := by
  decide +kernel

/-- StepRunsDecoded: turns of a controller, of a unit, of a node, of an event, of an agent that is not there; words that decode and not. -/
theorem witness_StepRunsDecoded :
    (let s := { scalar 1 2 0 with agenda := [.ctl 0], mem := [(scratchKey 0 0x3E0000, 0xFF)] }
     let z := { s.begin_ [] with here := 0 }
     (Turn.ctl 0).exists_ = true ∧ (Turn.ctl 512).exists_ = false ∧ (s.ctlAt 0).run = .running ∧ (s.ctlAt 0).preempt = false ∧ (s.ctlAt 0).pend = .none ∧
     (z.fetch.1 matches .word _) = true ∧ (s.ctlAt 0).ip = 0x20000000000#42 ++ 0x3E0000#22 ∧ (s.coreAt 0).bankTags = [] ∧
     tget (s.ctlAt 0).icache (scratchKey 0 0x3E0000 / 64) = none ∧ s.badIn (scratchKey 0 0x3E0000) 4 = false ∧
     (decodeWord 0x00221800).toOption.isSome = true ∧ (decodeWord 0xFFFFFFFF).toOption = none) ∧
    (let s := { scalar 1 2 0 with cores := [(0, { Core.reset with ctl := { Ctl.reset with run := .running } })], agenda := [.ctl 0] }
     ({ s.begin_ [] with here := 0 } : State).fetch.1 matches .wait) = true ∧
    (let s := { cmdState 0 (mk 0x00 blankRec) with agenda := [.cmd 0] }
     let z := { s.begin_ [] with here := 0 }
     z.headOf 0 = some (testCmd true) ∧ z.unitMay 0 (testCmd true) = true) ∧
    (let n := mk 0x00 blankRec
     ((nodeState 0 n none none none).coreAt 0).node 0 = some n ∧ (decodeNodeOp n.op n.rcd).toOption = some (.pass blankRec)) ∧
    (Turn.event .errorWindowEnd).exists_ = true ∧ (Turn.event (.watchdog 512)).exists_ = false := by
  decide +kernel

/-- EncodeDecode: a word that decodes. -/
theorem witness_EncodeDecode : (decodeWord 0x00000000).toOption = some (.add 0 0 0) := by decide +kernel

/-! ### Ill-formed instructions -/

/-- Scope codes of the atomics and of FENCE (R221). -/
theorem test_wf_scope :
    ([.amoadd 1 2 3 5 false, .amoswap 1 2 3 6 true, .amocas 1 2 3 7 false, .amomin 1 2 3 5 true, .amomax 1 2 3 5 false, .amominu 1 2 3 5 true,
      .amomaxu 1 2 3 5 false, .amoand 1 2 3 5 true, .amoor 1 2 3 5 false, .amoxor 1 2 3 7 true, .fence 5] : List Instr).all (fun i => !wfInstr i) = true ∧
    ([.amoadd 1 2 3 4 false, .fence 4] : List Instr).all wfInstr = true := by
  decide +kernel

/-- Cores, tiles, banks, endpoints and domains that the package does not have (R1, R54, R177). -/
theorem test_wf_cores :
    ([.watchdog 512, .hostServiceAnswer 512 0, .remoteStatusReceive 512 0 false, .remoteStatusReceive 0 256 false, .pathClockGate 512 0,
      .pathClockGate 0 4, .bankKeyMove 512 0, .bankKeyMove 0 64, .copyStart 512, .copyComplete 512, .endOfTileDelivery 512, .hubRead 512,
      .barrierArrival 512 0 0, .barrierArrival 0 512 0, .barrierArrival 0 0 16, .signalArrival 513, .taggedBankEvict 512 0, .taggedBankEvict 0 64,
      .bankRetire 512 0, .bankRetire 0 64, .coreFailed 512, .coreRepairTest 512 true, .boundaryDrop 512 0, .boundaryDrop 0 4095,
      .powerStateRequest 512 0, .powerRefusalClear 512, .systemSoftwarePageAnswer 512 none, .domainInstantEnd 0 4] : List Instr).all
      (fun i => !wfInstr i) = true ∧
    ([.watchdog 511, .remoteStatusReceive 511 255 true, .pathClockGate 511 3, .bankKeyMove 511 63, .barrierArrival 511 511 15, .signalArrival 512,
      .taggedBankEvict 511 63, .boundaryDrop 511 4094, .domainInstantEnd 0 3] : List Instr).all wfInstr = true := by
  decide +kernel

/-- Partitions, queues, slots, tasks, words, dies and the objects of errors and retags (R280, R303, R305, R306, R354, R389, R391). -/
theorem test_wf_services :
    ([.pageWalkComplete 4 0 0, .pageWalkComplete 0 32 0, .tlbInvalidation 32, .checkpointDrainComplete 32 0, .checkpointDrainComplete 0 8,
      .queueRecordWrite { queue := 2048, source := 0 } true 0, .qkill { queue := 2048, source := 0 } 0, .qerrClear { queue := 2048, source := 0 } 0, .hostEventWrite 32 0 0, .hostEventWrite 0 2048 0, .completionEventPost 16384,
      .correctedError (.bank 512 0 0), .correctedError (.bank 0 4 0), .correctedError (.bank 0 0 16), .correctedError (.way 512 0),
      .correctedError (.way 0 16), .correctedError (.dram 160), .correctedError (.other 512), .partitionReset 32, .resetDoneClear 32,
      .retag (.core 512 0 true), .retag (.core 0 32 true), .retag (.queue 2048 0 true), .retag (.queue 0 32 true), .retag (.grant 32 false 0),
      .retag (.homeGroup 128 0), .firmwareSwitch 32, .attestationRequest 0 32] : List Instr).all (fun i => !wfInstr i) = true ∧
    ([.pageWalkComplete 3 31 0, .checkpointDrainComplete 31 7, .queueRecordWrite { queue := 2047, source := 31 } true 0, .hostEventWrite 31 2047 0, .completionEventPost 16383,
      .correctedError (.bank 511 3 15), .correctedError (.way 511 15), .correctedError (.dram 159), .correctedError (.other 511),
      .retag (.core 511 31 true), .retag (.queue 2047 31 true), .retag (.homeGroup 127 0)] : List Instr).all wfInstr = true := by
  decide +kernel

/-- Ports and flit types (R376, R378), the variant bit that tells two nodes apart (R48), and command codes that are assigned (R247). -/
theorem test_wf_links_and_codes :
    ([.dataFlitReceive 16 1 false, .dataFlitReceive 0 2 false, .ackReceive 16 2, .ackReceive 0 1, .replayRequestReceive 16 3, .replayRequestReceive 0 4,
      .creditReceive 16 4, .creditReceive 0 3, .portDown 16, .portRetrain 16, .unknownFlitTypeReceive 16 5, .unknownFlitTypeReceive 0 4,
      .adotW { blankRec with var := 1 }, .adotP blankRec, .acc { blankRec with var := 1 }, .accF blankRec,
      .unassignedCommandCode 0x29 (args 0 0 0 0 0)] : List Instr).all (fun i => !wfInstr i) = true ∧
    ([.dataFlitReceive 15 1 false, .ackReceive 15 2, .replayRequestReceive 15 3, .creditReceive 15 4, .unknownFlitTypeReceive 15 0xF, .adotW blankRec,
      .adotP { blankRec with var := 1 }, .acc blankRec, .accF { blankRec with var := 1 }, .unassignedCommandCode 0x2A (args 0 0 0 0 0)] : List Instr).all
      wfInstr = true := by
  decide +kernel

/-! ### One step each, against results that the spec works out -/

/-- The burst that a node emits on OUTX in one step, its output routed to an endpoint that nothing else feeds. -/
def emits (i : NodeRec → Instr) (op : Nat) (r : NodeRec) (a b : Status) : Option Burst :=
  let n := mk op { r with outX := 4 }
  let g := { oneNode 0 n a b none with
    chans := [(1, oneChan a), (2, oneChan b), (9, { ent := 0x3F000, q := [], wire := [] })], routes := [(4, 0x0900)] }
  match exec (i n.rcd) { oneCore { Core.reset with cfg := some g } with slot := 0 } with
  | .next t => ((t.chanAt 0 9).bind (fun c => c.q.head?)).bind Prod.snd
  | _ => none

/-- A beat of 32-bit lanes. -/
def lanes32 (l : List (BitVec 32)) : Burst := beat1 (l.foldr (fun x b => (b <<< 32) ||| x.zeroExtend 512) 0)

/-- *Atoms*, the first program: ENC.A4K3 of (1.0, 0.5, 0.5, 0.0) gives atom 0x7330, of (0.5, 0.0, 0.5, −0.5) gives 0x7029. -/
theorem test_enc :
    emits .enc 0x50 { blankRec with fmt := 1, k0 := 0x10 } (some (lanes32 [0x3F800000, 0x3F000000, 0x3F000000])) none = some (beat1 0x7330) ∧
    emits .enc 0x50 { blankRec with fmt := 1, k0 := 0x10 } (some (lanes32 [0x3F000000, 0, 0x3F000000, 0xBF000000])) none = some (beat1 0x7029) := by
  decide +kernel

/-- *Atoms*: ADOT.P of those two atoms is 0.6875 in lane 0, the other 31 lanes zero. -/
theorem test_adot_p :
    emits .adotP 0x30 { blankRec with fmt := 1, var := 1, k0 := 0x10, blen := 2 } (some (beat1 0x7330)) (some (beat1 0x7029)) =
      some (dataBurst 0 0 [0x3F300000, 0]) := by
  decide +kernel

/-- *Atoms*, the second path: AADD.A4K4 of 0x7052 and 0x68A8 is 0x6F2C; ARELU of it 0x6A38; AMASK of lanes 1 and 3 of that is zero. -/
theorem test_aadd_arelu_amask :
    emits .aadd 0x10 { blankRec with fmt := 2 } (some (beat1 0x7052)) (some (beat1 0x68A8)) = some (beat1 0x6F2C) ∧
    emits .arelu 0x22 { blankRec with fmt := 2 } (some (beat1 0x6F2C)) none = some (beat1 0x6A38) ∧
    emits .amask 0x24 { blankRec with fmt := 2, k0 := 0x0A } (some (beat1 0x6A38)) none = some (beat1 0) := by
  decide +kernel

/-- *Atom numbers*: 0x6AA9_18F4 decodes to (0.9375, −0.625, 0, 1.5625, 0, −0.3125, 1.25, 0.3125). -/
theorem test_dec :
    (emits .dec 0x51 { blankRec with fmt := 0x10, k0 := 3, blen := 8 } (some (beat1 0x6AA918F4)) none).map (fun b => b.beats.head?) =
      some (lanes32 [0x3F700000, 0xBF200000, 0, 0x3FC80000, 0, 0xBEA00000, 0x3FA00000, 0x3EA00000]).beats.head? := by
  decide +kernel

/-- *Accumulate*: AMAXR.FP32 for A8K16 of (3,145,728, 1,048,576, 0 …) gives 0x4A40_0000 and 9 with β 9; CONV by that gives 0xC0E7_40FE. -/
theorem test_amaxr_conv :
    let x := lanes32 [0x4A400000, 0x49800000]
    emits .amaxr 0x35 { blankRec with fmt := 0x10, k0 := 3 } (some x) none = some (dataBurst 0 9 (lanes32 [0x4A400000, 9]).beats) ∧
    emits .conv 0x44 { blankRec with fmt := 3, k0 := 0x10, bsm := 3 } (some x) (some (dataBurst 0 9 (lanes32 [0x4A400000, 9]).beats)) =
      some (dataBurst 0 9 [0xC0E740FE]) := by
  decide +kernel

/-- *All-reduce*: RED2.AB of two atoms that hold 8 in lane 0 gives W = 2 with a = 3, every other lane empty; SREQ of 16 in lane 0 gives 0x78E7_4BFE. -/
theorem test_red2_sreq :
    (emits .red2 0x93 { blankRec with fmt := 3, var := 3, blen := 32, k0 := 2, k1 := 3 } (some (beat1 0x70E74BFE)) (some (beat1 0x70E74BFE))).map
        (fun b => b.beats.head?.map (fun x => x.extractLsb' 0 128)) = some (some (0x00000003000000000000000000000002 : BitVec 128)) ∧
    emits .sreq 0x92 { blankRec with fmt := 3, k0 := 2, k1 := 7 }
        (some (dataBurst 0 0 ((0x00000003000000000000000000000002 : Beat) :: List.replicate 31 0))) none = some (beat1 0x78E74BFE) := by
  decide +kernel

/-- *Memory hierarchy*: the level indices of VA 0x0_0ABC_DE12_3456. -/
theorem test_page_index : (List.range 4).map (pageIndex 0x0ABCDE123456) = [1, 0xAF3, 0xF0, 0x12] := by decide +kernel

/-- *Wheels*: (2^24 + 1) + (1 − 2^24) over the spoke tree is 1.0 in lane 0: LDD of the hub address at offset 0. -/
theorem test_hub_tree :
    let wheel : Wheel := { fmt := 0x10, op := 0, error := false, sat := false, bar := 0, len := 64, members := [(0, 0), (1, 0), (2, 0), (3, 0)] }
    let s : State := { scalar 0xA000000000000000 0 0 with
      teams := [(0, { testTeam with w := 4, wheels := [(0, wheel)] })],
      mem := [(scratchKey 0 2, 0x80), (scratchKey 0 3, 0x4B), (scratchKey 1 2, 0x80), (scratchKey 1 3, 0x3F), (scratchKey 2 2, 0x80),
        (scratchKey 2 3, 0x3F), (scratchKey 3 2, 0x80), (scratchKey 3 3, 0xCB)] }
    (match exec (.ldd 5 1 0) s with
     | .next t => t.reg 5
     | _ => 0) = 0x000000003F800000 := by
  decide +kernel

/-- *Links*: the frame of the beat whose atom 0 is 0x78E7_4BFE, compressed on channel 0 as sequence 0: 36 bytes. -/
theorem test_frame :
    frameOf (beat1 0x78E74BFE) 0 0 true = ([0, 0, 0, 0, 0, 0, 0, 0, 3, 0, 0, 0, 0, 0, 0, 0, 0, 0, 0, 0, 0, 0, 0, 0, 0x0F, 0, 0, 0, 0, 0, 0, 0,
      0xFE, 0x4B, 0xE7, 0x78] : List Byte) := by
  decide +kernel

/-- What a scalar instruction leaves in a register. -/
def gives (i : Instr) (d : Reg) (s : State) : Option (BitVec 64) :=
  match exec i s with
  | .next t => some (t.reg d)
  | _ => none

/-- R215: the division corners, and the high half of a product. -/
theorem test_division :
    gives (.div 4 1 2) 4 (scalar 7 0 0) = some 0xFFFFFFFFFFFFFFFF ∧ gives (.rem 4 1 2) 4 (scalar 7 0 0) = some 7 ∧
    gives (.div 4 1 2) 4 (scalar 0x8000000000000000 0xFFFFFFFFFFFFFFFF 0) = some 0x8000000000000000 ∧
    gives (.rem 4 1 2) 4 (scalar 0x8000000000000000 0xFFFFFFFFFFFFFFFF 0) = some 0 ∧
    gives (.mulh 4 1 2) 4 (scalar 0xFFFFFFFFFFFFFFFF 2 0) = some 0xFFFFFFFFFFFFFFFF ∧ gives (.clz 4 1) 4 (scalar 0 0 0) = some 64 := by
  decide +kernel

/-- R216, R219, R221: immediates, a sign-extended load, and AMOCAS that compares with sd as it was. -/
theorem test_immediates_memory :
    gives (.addi 4 1 0xFFFF) 4 (scalar 0 0 0) = some 0xFFFFFFFFFFFFFFFF ∧ gives (.ori 4 1 0xFFFF) 4 (scalar 0 0 0) = some 0xFFFF ∧
    gives (.srai 4 1 63) 4 (scalar 0x8000000000000000 0 0) = some 0xFFFFFFFFFFFFFFFF ∧
    gives (.ldb 4 1 0) 4 { scalar localA 0 0 with mem := [(scratchKey 0 0x100, 0x80)] } = some 0xFFFFFFFFFFFFFF80 ∧
    (match exec (.amocas 3 1 2 2 false) { scalar localA 9 0x80 with mem := [(scratchKey 0 0x100, 0x80)] } with
     | .next t => readNat t.mem (scratchKey 0 0x100) 8
     | _ => 0) = 9 := by
  decide +kernel

end Sys2Proof.Tests
end

section
/-!
PROOFS. Memory's canonical form at reset and over every step: O55 and O56.
-/

namespace Sys2Proof.Machine

/-- A fault is no next state, so that it keeps any form. -/
@[simp] theorem keeps_fault (f : Fault) : Keeps (.fault f) := fun _ e => nomatch e

/-- A turn keeps memory's canonical form, whether it runs an instruction, has none to run, waits for a shadow or is held in reset. -/
theorem State.turn_wf (s : State) (t : Turn) (h : Memory.wf s.mem = true) : Keeps (s.turn t) := by
  have htodo : Memory.wf (s.todo t).state.mem = true := s.todo_wf t h
  unfold State.turn
  split
  case isFalse => exact keeps_fault _
  case isTrue =>
    split
    case isFalse => exact (keeps_next s).mpr h
    case isTrue =>
      cases hd : s.todo t with
      | run i z =>
        rw [hd] at htodo
        exact s.unlessShort_wf t _ h (exec_wf i z htodo)
      | rest z =>
        rw [hd] at htodo
        exact s.unlessShort_wf t _ h ((keeps_next z).mpr htodo)

/-- A step keeps memory's canonical form. -/
theorem step_wf (s : State) (h : Memory.wf s.mem = true) : Keeps (step s) := by
  unfold step
  split
  case h_1 t rest _ => exact State.turn_wf _ t (by simpa using h)
  case h_2 => simpa using h

end Sys2Proof.Machine

/-- Settles O56: whichever turn a step takes, the instruction or the piece it runs keeps the form (`exec_wf`, `State.todo_wf`). -/
theorem memoryFormKept : Obligations.MemoryFormKept :=
  fun s t h e => Sys2Proof.Machine.step_wf s h t e

/-- Settles O55: no byte is listed at reset. -/
theorem memoryFormAtReset : Obligations.MemoryFormAtReset :=
  ⟨rfl, fun _ => rfl⟩
end

section
/-!
PROOFS. Boot, firmware updates and attestation: O53.
-/

namespace Sys2Proof.Machine

/-! ### Tables -/

/-- A table's entries after one is erased. -/
theorem tget_terase {α : Type} (t : Tab α) (k j : Nat) : tget (terase t k) j = if j = k then none else tget t j := by
  induction t with
  | nil => simp [terase, tget]
  | cons x t ih =>
    obtain ⟨i, v⟩ := x
    have ih' : tget (t.filter (fun p => decide (p.1 ≠ k))) j = if j = k then none else tget t j := ih
    by_cases hik : i = k
    · subst hik
      by_cases hj : j = i <;> simp_all [terase, tget, eq_comm]
    · by_cases hij : i = j <;> simp_all [terase, tget]

/-- A listed entry is in the table. -/
theorem mem_of_tget {α : Type} {t : Tab α} {k : Nat} {v : α} (h : tget t k = some v) : (k, v) ∈ t := by
  induction t with
  | nil => simp [tget] at h
  | cons x t ih =>
    obtain ⟨i, w⟩ := x
    unfold tget at h
    split at h
    · next e => simp_all
    · exact List.mem_cons_of_mem _ (ih h)

/-- A number that no entry has is not listed. -/
theorem tget_eq_none {α : Type} {t : Tab α} {k : Nat} (h : ∀ x ∈ t, x.1 ≠ k) : tget t k = none := by
  cases e : tget t k with
  | none => rfl
  | some v => exact absurd rfl (h _ (mem_of_tget e))

/-- In a table of rising numbers every entry is the one listed at its number. -/
theorem tget_of_mem {α : Type} {t : Tab α} (hs : (t.map Prod.fst).Pairwise (· < ·)) {k : Nat} {v : α} (h : (k, v) ∈ t) :
    tget t k = some v := by
  induction t with
  | nil => simp at h
  | cons x t ih =>
    obtain ⟨hx, ht⟩ := List.pairwise_cons.mp hs
    rcases List.mem_cons.mp h with rfl | h'
    · simp [tget]
    · have hne : x.1 ≠ k := Nat.ne_of_lt (hx k (List.mem_map.mpr ⟨_, h', rfl⟩))
      simpa [tget, hne] using ih ht h'

/-- A table with every entry changed alike. -/
theorem tget_map {α β : Type} (g : α → β) (t : Tab α) (k : Nat) :
    tget (t.map (fun x => (x.1, g x.2))) k = (tget t k).map g := by
  induction t with
  | nil => rfl
  | cons x t ih => simp only [List.map_cons, tget, ih]; split <;> rfl

/-- A table of rising numbers, of which some entries are kept. -/
theorem tget_filter {α : Type} {t : Tab α} (hs : (t.map Prod.fst).Pairwise (· < ·)) (f : α → Bool) (k : Nat) :
    tget (t.filter (fun x => f x.2)) k = (tget t k).filter f := by
  induction t with
  | nil => rfl
  | cons x t ih =>
    obtain ⟨hx, ht⟩ := List.pairwise_cons.mp hs
    by_cases hk : x.1 = k
    · have hnone : tget (t.filter (fun y => f y.2)) k = none :=
        tget_eq_none fun y hy => hk ▸ Nat.ne_of_gt (hx y.1 (List.mem_map.mpr ⟨y, (List.mem_filter.mp hy).1, rfl⟩))
      cases hf : f x.2 <;> simp [tget, hk, hf, hnone, Option.filter]
    · cases hf : f x.2 <;> simp [tget, hk, hf, ih ht]

/-- A table that lists each number of a list with a value computed from it. -/
theorem tget_map_self {α : Type} (f : Nat → α) (l : List Nat) (k : Nat) :
    tget (l.map (fun q => (q, f q))) k = if k ∈ l then some (f k) else none := by
  induction l with
  | nil => rfl
  | cons q l ih =>
    by_cases hq : q = k
    · simp [tget, hq]
    · simp [tget, hq, Ne.symm hq, ih]

/-! ### Memory with the scratchpads dropped -/

/-- An address that no cell has reads blank. -/
theorem readCell_eq_blank {m : Memory} {k : Nat} (h : ∀ c ∈ m, c.1 ≠ k) : readCell m k = blankByte := by
  induction m with
  | nil => rfl
  | cons c t ih =>
    obtain ⟨hc, ht⟩ := List.forall_mem_cons.mp h
    obtain ⟨i, v⟩ := c
    rw [readCell_cons, if_neg hc, ih ht]
    split <;> rfl

/-- Dropping the cells from an address on leaves the bytes below it. -/
theorem readCell_filter_lt {b k : Nat} (hk : k < b) : ∀ {lo : Nat} {m : Memory}, wfFrom lo m = true →
    readCell (m.filter (fun c => decide (c.1 < b))) k = readCell m k
  | _, [], _ => rfl
  | lo, (i, v) :: t, h => by
    simp only [wfFrom, Bool.and_eq_true, decide_eq_true_eq] at h
    obtain ⟨-, ht⟩ := h
    by_cases hi : i < b
    · rw [List.filter_cons_of_pos (by simpa using hi), readCell_cons, readCell_cons, readCell_filter_lt hk ht]
    · have hki : k < i := by omega
      rw [List.filter_cons_of_neg (by simpa using hi), readCell_below (by omega) (filter_wfFrom ht), readCell_cons,
        if_neg (by omega), if_pos hki]

/-! ### Images (R400) -/

/-- The code of an image's checks, in the order of the checks. -/
theorem imageStatus_eq (rollback : Nat) (i : FirmwareImage) :
    imageStatus rollback i = if imageSigned i = false then 1 else if i.version < rollback then 2 else if i.fits = false then 3 else 0 := by
  simp only [imageStatus, Bool.not_eq_true']

/-- An image is signed when its key is the one fused and the key's signature of its bytes verifies. -/
theorem imageSigned_iff (i : FirmwareImage) : imageSigned i = true ↔
    sha256 i.key = Config.fusedKeyDigest ∧ ecdsaVerify i.key (sha256 i.bytes) i.signature = true := by
  simp only [imageSigned, Bool.and_eq_true, beq_iff_eq]

/-! ### The package at reset again (R396, R400) -/

/-- The core runs nothing: in no team, not configured, no command queued, its controller at reset. -/
def Core.Idle (c : Core) : Prop := c.team = none ∧ c.cfg = none ∧ c.unit = [] ∧ c.ctl = Ctl.reset

theorem Core.reset_idle : Core.reset.Idle := ⟨rfl, rfl, rfl, rfl⟩

theorem Core.restarted_idle (c : Core) : c.restarted.Idle := ⟨rfl, rfl, rfl, rfl⟩

/-- No core runs anything once the package is at reset again. -/
theorem State.coreAt_restarted_idle (s : State) (p : Nat) : (s.restarted.coreAt p).Idle := by
  unfold State.coreAt tgetD
  cases h : tget s.restarted.cores p with
  | none => exact Core.reset_idle
  | some c =>
    obtain ⟨x, -, hx⟩ := List.mem_map.mp (mem_of_tget h)
    obtain ⟨-, rfl⟩ := Prod.mk.inj hx
    exact x.2.restarted_idle

/-- Only the cores that have failed keep a mark. -/
theorem State.coreAt_restarted {s : State} (hs : (s.cores.map Prod.fst).Pairwise (· < ·)) (p : Nat) :
    s.restarted.coreAt p = if (s.coreAt p).failed then (s.coreAt p).restarted else Core.reset := by
  have hget : tget s.restarted.cores p = ((tget s.cores p).filter Core.failed).map Core.restarted := by
    rw [← tget_filter hs, ← tget_map]; rfl
  have hcore : s.coreAt p = (tget s.cores p).getD Core.reset := rfl
  simp only [hcore]
  rw [State.coreAt, tgetD, hget]
  rcases tget s.cores p with _ | c
  · rfl
  · cases hf : c.failed <;> simp [hf, Option.filter]

/-- The cores that boot replaces are those that have failed and are out of service. -/
theorem State.deadCores_restarted (s : State) :
    s.restarted.deadCores = (s.cores.filter (fun c => c.2.failed && c.2.dead)).map Prod.fst := by
  have hfst : Prod.fst ∘ (fun c : Nat × Core => (c.1, c.2.restarted)) = Prod.fst := rfl
  simp only [State.deadCores, State.restarted, List.filter_map, List.map_map, List.filter_filter, hfst]
  congr 2
  funext c
  exact Bool.and_comm ..

/-- A core that has failed and is out of service is among those that boot replaces. -/
theorem State.mem_deadCores_restarted {s : State} {p : Nat} (hf : (s.coreAt p).failed = true) (hd : (s.coreAt p).dead = true) :
    p ∈ s.restarted.deadCores := by
  rw [State.deadCores_restarted]
  unfold State.coreAt tgetD at hf hd
  cases h : tget s.cores p with
  | none => rw [h] at hf; exact absurd hf (by decide)
  | some c =>
    rw [h] at hf hd
    exact List.mem_map.mpr ⟨(p, c), List.mem_filter.mpr ⟨mem_of_tget h, by simp_all⟩, rfl⟩

/-- A core in service is not among those that boot replaces. -/
theorem State.not_mem_deadCores_restarted {s : State} (hs : (s.cores.map Prod.fst).Pairwise (· < ·)) {p : Nat}
    (hd : (s.coreAt p).dead = false) : p ∉ s.restarted.deadCores := by
  rw [State.deadCores_restarted]
  intro hp
  obtain ⟨⟨q, c⟩, hc, rfl⟩ := List.mem_map.mp hp
  obtain ⟨hmem, hflags⟩ := List.mem_filter.mp hc
  have hcore : s.coreAt q = c := by simp [State.coreAt, tgetD, tget_of_mem hs hmem]
  simp [← hcore, hd] at hflags

/-- How many of the cores that boot replaces are of a die. -/
theorem State.countP_deadCores_restarted (s : State) (die : Nat) :
    s.restarted.deadCores.countP (fun p => dieOf p == die) =
      (s.cores.filter (fun c => c.2.failed && c.2.dead && dieOf c.1 == die)).length := by
  rw [State.deadCores_restarted, List.countP_map, List.countP_filter, List.countP_eq_length_filter]
  congr 2
  funext c
  exact Bool.and_comm ..

/-! ### Spare cores (R1, R396) -/

/-- How many spare cores a die has given. -/
def State.sparesOf (s : State) (die : Nat) : Nat := tgetD 0 s.spares die

/-- A core after a spare is asked for: at reset where its die had one. -/
theorem State.coreAt_mapSpare (s : State) (p q : Nat) :
    (s.mapSpare p).coreAt q = if q = p ∧ s.sparesOf (dieOf p) < 4 then Core.reset else s.coreAt q := by
  unfold State.mapSpare
  dsimp only
  split
  case isTrue hn =>
    have hn : s.sparesOf (dieOf p) < 4 := hn
    by_cases hq : q = p <;> simp [State.coreAt, tgetD, tget_terase, hq, hn]
  case isFalse hn => exact (if_neg (fun e => hn e.2)).symm

/-- The spares given after one is asked for. -/
theorem State.sparesOf_mapSpare (s : State) (p die : Nat) : (s.mapSpare p).sparesOf die =
    if die = dieOf p ∧ s.sparesOf die < 4 then s.sparesOf die + 1 else s.sparesOf die := by
  unfold State.mapSpare State.sparesOf
  dsimp only
  by_cases hdie : die = dieOf p
  · subst hdie
    split <;> simp_all [tgetD]
  · split <;> simp [tgetD, hdie]

/-- Mapping spares changes only the cores and the count of spares. -/
theorem State.foldl_mapSpare_frame (ps : List Nat) (s : State) : ps.foldl State.mapSpare s =
    { s with cores := (ps.foldl State.mapSpare s).cores, spares := (ps.foldl State.mapSpare s).spares } := by
  induction ps generalizing s with
  | nil => rfl
  | cons p ps ih =>
    have hp : s.mapSpare p = { s with cores := (s.mapSpare p).cores, spares := (s.mapSpare p).spares } := by
      unfold State.mapSpare; dsimp only; split <;> rfl
    rw [List.foldl_cons, ih, hp]

/-- A core for which no spare is asked stays as it is. -/
theorem State.coreAt_foldl_mapSpare_of_notMem {ps : List Nat} {q : Nat} (h : q ∉ ps) (s : State) :
    (ps.foldl State.mapSpare s).coreAt q = s.coreAt q := by
  induction ps generalizing s with
  | nil => rfl
  | cons p ps ih =>
    obtain ⟨hq, hps⟩ := not_or.mp (mt List.mem_cons.mpr h)
    rw [List.foldl_cons, ih hps, State.coreAt_mapSpare, if_neg (fun e => hq e.1)]

/-- What holds of a core at reset stays true of a core where spares are mapped. -/
theorem State.foldl_mapSpare_keeps {P : Core → Prop} (hreset : P Core.reset) {q : Nat} (ps : List Nat) {s : State} (h : P (s.coreAt q)) :
    P ((ps.foldl State.mapSpare s).coreAt q) := by
  induction ps generalizing s with
  | nil => exact h
  | cons p ps ih =>
    apply ih
    rw [State.coreAt_mapSpare]
    split <;> assumption

/-- A die gives a spare for each of its cores that asks, up to its four. -/
theorem State.sparesOf_foldl_mapSpare (die : Nat) (ps : List Nat) {s : State} (h : s.sparesOf die ≤ 4) :
    (ps.foldl State.mapSpare s).sparesOf die = min 4 (s.sparesOf die + ps.countP (fun p => dieOf p == die)) := by
  induction ps generalizing s with
  | nil => simp [h]
  | cons p ps ih =>
    have hp := s.sparesOf_mapSpare p die
    have hle : (s.mapSpare p).sparesOf die ≤ 4 := by split at hp <;> omega
    rw [List.foldl_cons, ih hle, hp, List.countP_cons]
    by_cases hdie : die = dieOf p
    · simp only [← hdie, beq_self_eq_true, if_true, true_and]
      split <;> omega
    · simp [hdie, Ne.symm hdie]

/-- A core that asks for a spare stands at reset when its die has a spare for each of its cores that ask. -/
theorem State.coreAt_foldl_mapSpare_of_mem {ps : List Nat} {q : Nat} (h : q ∈ ps) {s : State}
    (hn : s.sparesOf (dieOf q) + ps.countP (fun p => dieOf p == dieOf q) ≤ 4) :
    (ps.foldl State.mapSpare s).coreAt q = Core.reset := by
  induction ps generalizing s with
  | nil => simp at h
  | cons p ps ih =>
    rw [List.countP_cons] at hn
    rw [List.foldl_cons]
    by_cases hqp : q = p
    · subst hqp
      have hlt : s.sparesOf (dieOf q) < 4 := by simp at hn; omega
      exact State.foldl_mapSpare_keeps (P := (· = Core.reset)) rfl ps (by rw [State.coreAt_mapSpare, if_pos ⟨rfl, hlt⟩])
    · refine ih ((List.mem_cons.mp h).resolve_left hqp) ?_
      have hp := s.sparesOf_mapSpare p (dieOf q)
      by_cases hdie : dieOf p = dieOf q
      · simp only [hdie, beq_self_eq_true, if_true] at hn
        split at hp <;> omega
      · simp only [Ne.symm hdie, false_and, if_false] at hp
        omega

/-! ### Boot -/

/-- Where no task is left and no core runs anything, after the status is announced. -/
def State.ClearedAfter (s t : State) : Prop :=
  t.regions = [] ∧ t.teams = [] ∧ t.tasks = [] ∧ t.irqs = [irqMsg 3 0 0] ∧ t.rollback = s.rollback ∧ ∀ p, (t.coreAt p).Idle

/-- The package after a boot whose image fails its checks with a code. -/
def State.bootFailed (s : State) (code : BitVec 8) : State := ({ s.restarted with bootst := code } : State).irq 3 0 0

/-- The package at reset again, its spare cores mapped. -/
def State.repaired (s : State) : State := s.restarted.deadCores.foldl State.mapSpare s.restarted

/-- The package after a boot whose image passes. -/
def State.bootPassed (s : State) (image : FirmwareImage) : State :=
  ({ s.repaired with
    booted := true, bootst := 0, fwDigest := imageDigest image,
    parts := (List.range 32).map (fun q => (q, { Part.reset with version := image.version, digest := imageDigest image })) } : State).irq 3 0 0

theorem execBoot_of_fails {image : FirmwareImage} {s : State} (h : imageStatus s.rollback image ≠ 0) :
    execBoot image s = .next (s.bootFailed (imageStatus s.rollback image)) := by
  simp only [execBoot, if_pos h, State.bootFailed]

theorem execBoot_of_passes {image : FirmwareImage} {s : State} (h : imageStatus s.rollback image = 0) :
    execBoot image s = .next (s.bootPassed image) := by
  simp only [execBoot, h, ne_eq, not_true_eq_false, if_false, State.bootPassed, State.repaired]

theorem State.bootFailed_cleared (s : State) (code : BitVec 8) : s.ClearedAfter (s.bootFailed code) :=
  ⟨rfl, rfl, rfl, rfl, rfl, s.coreAt_restarted_idle⟩

/-- Mapping spares leaves the rest of the package as it is at reset again. -/
theorem State.repaired_eq (s : State) :
    s.repaired = { s.restarted with cores := s.repaired.cores, spares := s.repaired.spares } :=
  State.foldl_mapSpare_frame _ _

theorem State.bootPassed_cleared (s : State) (image : FirmwareImage) : s.ClearedAfter (s.bootPassed image) := by
  have hidle : ∀ p, ((s.bootPassed image).coreAt p).Idle := fun p =>
    State.foldl_mapSpare_keeps (P := Core.Idle) Core.reset_idle _ (s.coreAt_restarted_idle p)
  refine ⟨?_, ?_, ?_, ?_, ?_, hidle⟩ <;> simp only [State.bootPassed, State.irq] <;> rw [State.repaired_eq] <;> rfl

/-- Every partition has the image's digest and version, and is at reset otherwise. -/
theorem State.partAt_bootPassed (s : State) (image : FirmwareImage) {q : Nat} (hq : q < 32) :
    (s.bootPassed image).partAt q = { Part.reset with version := image.version, digest := imageDigest image } := by
  have hget := tget_map_self (fun _ => { Part.reset with version := image.version, digest := imageDigest image }) (List.range 32) q
  rw [if_pos (List.mem_range.mpr hq)] at hget
  exact congrArg (fun o => o.getD Part.reset) hget

/-- Failed cores and spares after a good boot (R396): a core in service keeps its mark, one out of service gives place to a spare. -/
theorem State.bootPassed_cores {s : State} (image : FirmwareImage) (hs : (s.cores.map Prod.fst).Pairwise (· < ·)) :
    (∀ p, (s.coreAt p).dead = false → ((s.bootPassed image).coreAt p).failed = (s.coreAt p).failed) ∧
    (∀ p, (s.coreAt p).failed = true → (s.coreAt p).dead = true →
      s.sparesOf (dieOf p) + (s.cores.filter (fun c => c.2.failed && c.2.dead && dieOf c.1 == dieOf p)).length ≤ 4 →
      (s.bootPassed image).coreAt p = Core.reset) ∧
    ∀ die, s.sparesOf die ≤ 4 → (s.bootPassed image).sparesOf die =
      min 4 (s.sparesOf die + (s.cores.filter (fun c => c.2.failed && c.2.dead && dieOf c.1 == die)).length) := by
  refine ⟨fun p hd => ?_, fun p hf hd hn => ?_, fun die hn => ?_⟩
  · have hcore : (s.bootPassed image).coreAt p = s.restarted.coreAt p :=
      State.coreAt_foldl_mapSpare_of_notMem (State.not_mem_deadCores_restarted hs hd) _
    rw [hcore, State.coreAt_restarted hs]
    cases hf : (s.coreAt p).failed
    · rfl
    · exact hf
  · rw [← State.countP_deadCores_restarted] at hn
    exact State.coreAt_foldl_mapSpare_of_mem (State.mem_deadCores_restarted hf hd) hn
  · rw [← State.countP_deadCores_restarted]
    exact State.sparesOf_foldl_mapSpare die _ hn

theorem State.mem_bootPassed (s : State) (image : FirmwareImage) :
    (s.bootPassed image).mem = s.mem.filter (fun c => decide (c.1 < 2 ^ 52)) := by
  simp only [State.bootPassed, State.irq]
  rw [State.repaired_eq]
  rfl

/-- Physical memory is as before a good boot. -/
theorem State.readCell_bootPassed {s : State} (image : FirmwareImage) (hs : Memory.wf s.mem = true) {k : Nat} (hk : k < 2 ^ 52) :
    readCell (s.bootPassed image).mem k = readCell s.mem k := by
  rw [State.mem_bootPassed]
  exact readCell_filter_lt hk hs

/-- Every scratchpad is blank after a good boot. -/
theorem State.readCell_bootPassed_scratch (s : State) (image : FirmwareImage) {k : Nat} (hk : 2 ^ 52 ≤ k) :
    readCell (s.bootPassed image).mem k = 0 := by
  rw [State.mem_bootPassed]
  refine readCell_eq_blank fun c hc hck => ?_
  have hlt : c.1 < 2 ^ 52 := of_decide_eq_true (List.mem_filter.mp hc).2
  omega

/-! ### Firmware updates (R397) -/

/-- Changing partitions changes nothing else. -/
theorem State.foldl_modPart_frame (f : Part → Part) (l : List Nat) (s : State) :
    l.foldl (fun z q => z.modPart q f) s = { s with parts := (l.foldl (fun z q => State.modPart z q f) s).parts } := by
  induction l generalizing s with
  | nil => rfl
  | cons q l ih => rw [List.foldl_cons, ih]; rfl

/-- A partition after another is changed. -/
theorem State.partAt_modPart (s : State) (p q : Nat) (f : Part → Part) :
    (s.modPart p f).partAt q = if q = p then f (s.partAt p) else s.partAt q := by
  simp only [State.partAt, State.modPart, tgetD, tget_tset]
  split <;> rfl

/-- Each partition of a list without repetition is changed once. -/
theorem State.partAt_foldl_modPart (f : Part → Part) {l : List Nat} (hl : l.Nodup) (s : State) (q : Nat) :
    (l.foldl (fun z p => z.modPart p f) s).partAt q = if q ∈ l then f (s.partAt q) else s.partAt q := by
  induction l generalizing s with
  | nil => rfl
  | cons p l ih =>
    obtain ⟨hp, hnd⟩ := List.nodup_cons.mp hl
    rw [List.foldl_cons, ih hnd, State.partAt_modPart]
    by_cases hq : q = p
    · subst hq; simp [hp]
    · simp [hq]

/-- The partition with an image staged. -/
def Part.staging (image : FirmwareImage) (pt : Part) : Part := { pt with staged := some (image.version, imageDigest image) }

/-- The package with an image staged for every partition, where it passes its checks. -/
def State.updated (s : State) (image : FirmwareImage) : State :=
  if imageStatus s.rollback image ≠ 0 then s else (List.range 32).foldl (fun z q => z.modPart q (Part.staging image)) s

theorem execFirmwareUpdate_eq (image : FirmwareImage) (s : State) : execFirmwareUpdate image s =
    .next (({ s.updated image with bootst := imageStatus s.rollback image } : State).irq 3 0 0) := rfl

/-- Staging an image changes nothing but the partitions. -/
theorem State.updated_eq (s : State) (image : FirmwareImage) : s.updated image = { s with parts := (s.updated image).parts } := by
  unfold State.updated
  split
  · rfl
  · exact State.foldl_modPart_frame _ _ _

/-- An image that passes is staged for each of the 32 partitions. -/
theorem State.partAt_updated (s : State) (image : FirmwareImage) (q : Nat) : (s.updated image).partAt q =
    if imageStatus s.rollback image = 0 ∧ q < 32 then (s.partAt q).staging image else s.partAt q := by
  unfold State.updated
  split
  case isTrue h => rw [if_neg (fun e => h e.1)]
  case isFalse h =>
    rw [State.partAt_foldl_modPart _ List.nodup_range]
    simp only [List.mem_range, Decidable.not_not.mp h, true_and]

/-- An update announces the code of its checks and stages the image, where it passes, for every partition. -/
theorem execFirmwareUpdate_next (image : FirmwareImage) (s : State) : ∃ t, execFirmwareUpdate image s = .next t ∧
    t = { s with parts := t.parts, bootst := imageStatus s.rollback image, irqs := s.irqs ++ [irqMsg 3 0 0] } ∧
    ∀ q, t.partAt q = if imageStatus s.rollback image = 0 ∧ q < 32 then (s.partAt q).staging image else s.partAt q := by
  refine ⟨_, execFirmwareUpdate_eq image s, ?_, s.partAt_updated image⟩
  rw [State.updated_eq]
  rfl

/-! ### Keys and signatures (R401) -/

@[simp] theorem length_beBytes (v n : Nat) : (beBytes v n).length = n := by simp [beBytes]

theorem length_identityKey : identityKey.length = 65 := by
  simp only [identityKey, ecKeyBytes, List.length_cons, List.length_append, length_beBytes]

theorem length_attestSignature (draw : Nat) (digest : List Byte) : (attestSignature draw digest).length = 64 := by
  simp only [attestSignature, ecdsaSign, List.length_append, length_beBytes]

end Sys2Proof.Machine

section
open Sys2Proof Sys2Proof.Machine

/-- Settles O53: each event's next state is named (`State.bootFailed`, `State.bootPassed`) and its parts cited one by one. -/
theorem bootEvents : Obligations.BootEvents := by
  intro image nonce part s code cleared lost
  have hcode : imageStatus s.rollback image = code := imageStatus_eq _ _
  have hbody := length_attestSignature s.free (sha256 (s.reportBody nonce part))
  refine ⟨imageSigned_iff image, fun hne => ?_, fun hz => ?_, ?_, fun hb => ?_, fun hb => ?_, length_identityKey⟩
  · rw [← hcode] at hne ⊢
    exact ⟨_, execBoot_of_fails hne, rfl, rfl, s.bootFailed_cleared _⟩
  · exact ⟨_, execBoot_of_passes (hcode.trans hz), rfl, rfl, s.bootPassed_cleared image, rfl,
      fun _ hq => s.partAt_bootPassed image hq, State.bootPassed_cores image,
      fun hs _ hk => State.readCell_bootPassed image hs hk, fun _ hk => s.readCell_bootPassed_scratch image hk⟩
  · rw [← hcode]
    exact execFirmwareUpdate_next image s
  · exact ⟨_, congrArg Host.Outcome.next (if_pos hb), rfl, _, hbody, rfl, rfl⟩
  · exact congrArg Host.Outcome.next (if_neg (by simp [hb]))

end
end

section
/-!
PROOFS. Decoding undoes encoding over the whole instruction set: O58.
-/

namespace Sys2Proof.Laws.RoundTrip

/-- Every instruction is decoded from its encoding: the case split along the constructors of `Instr`, in their order, each
case being that constructor's own round trip. -/
theorem statement_of_instr (i : Instr) : Statement i :=
  Instr.casesOn (motive := Statement) i
    -- register arithmetic (R214, R215)
    add sub and or xor sll srl sra slt sltu mul mulh mulhu div divu rem remu min max minu maxu clz ctz popc
    -- immediates (R216)
    addi andi ori xori slti sltiu slli srli srai lui luih
    -- branches and jumps (R217, R218)
    beq bne blt bge bltu bgeu jal jalr
    -- loads, stores, atomics and FENCE, whose scope must be assigned (R219, R221, R222)
    ldb ldbu ldh ldhu ldw ldwu ldd stb sth stw std
    amoadd amoswap amocas amomin amomax amominu amomaxu amoand amoor amoxor fence
    -- command registers, mailboxes, instants, barriers, signals and threads (R225–R234)
    cmdw cmdld cmdi cmdq tsend trecv iwait bari bara barw baraw sig spawn join
    -- CSRs and traps (R235, R237)
    csrr csrw csrs csrc trap brk
    -- events have no encoding
    watchdog hostServiceAnswer
    -- stream commands (R243, R247)
    feed bindw bound steert inject retry tarm tfire tdisarm copy lxrun cfgld cfgq domgo domstop domsave domload
    wheeldef hubrd amxr ckpt ckdrain bkey linkcfg linkstat
    -- events
    domainInstantEnd remoteStatusReceive quiescenceSample pathClockGate bankKeyMove
    -- fabric nodes, where VAR bit 0 parts ADOT.W from ADOT.P and ACC from ACC.F (R48, R60)
    pass src sink esink cpyt ltx lrx sreq red2 statw
    aadd asub ahad amax amin asel afma aneg aabs arelu ascl amask aclmp aren
    aexp2 alog2 arcp arsq asqrt atanh asigm adotW adotP adott aoutr anrm alsum amaxr enc dec
    acc accF acck drain dlyb conv mrd mwr mird miwr mrmw mgrp mgld mgst mfifo mline
    steer omerge pmerge filter repl cnt isect union pres dflt pre when sync level
    iadd isub imul ilog ishf icmp irng ihash plog
    -- events
    copyStart copyComplete endOfTileDelivery pageWalkComplete tlbInvalidation checkpointDrainComplete hubRead
    barrierArrival signalArrival queueRecordWrite qkill qerrClear hostEventWrite completionEventPost
    preempt deepSaveTimeout resume taggedBankEvict correctedError bankRetire coreFailed
    dataFlitReceive ackReceive replayRequestReceive creditReceive portDown portRetrain
    partitionReset resetDoneClear coreRepairTest retag registerWrite boundaryDrop firmwareSwitch
    boot attestationRequest powerStateRequest powerRefusalClear clockStepChange
    -- illegal words, fetch faults and unassigned command codes (R213, R218, R247), and further events
    illegalInstruction instructionFetchFault unassignedCommandCode
    firmwareUpdate systemSoftwarePageAnswer unknownFlitTypeReceive
    -- steps without operands: scalar words, then events
    tret yield synci taskStart errorWindowEnd selfRefreshEnter selfRefreshExit

end Sys2Proof.Laws.RoundTrip

/-- Settles O58: an event has no encoding, an illegal word is one that decodes to nothing, and the fields of every other
encoding are read back at their places (`scalar`, `command`, `node`). -/
theorem decodeEncode : Obligations.DecodeEncode := Sys2Proof.Laws.RoundTrip.statement_of_instr
end

section
/-!
SUPPORT. What a node with synchronised inputs makes of present data bursts (R72–R76, R84): their kinds pass, the absence policy
lets them through, and of bursts of one length none is a broadcast one.
-/

namespace Sys2Proof.Machine

open Claim

/-! ### Kinds and absence (R72, R73, R84) -/

/-- Data is none of the kinds that R73 treats apart. -/
theorem isErr_of_data {b : Burst} (h : IsData b) : isErr b = false := by rw [isErr, show hdrKind b.hdr = 0 from h]; rfl

theorem isData_of_data {b : Burst} (h : IsData b) : isData b = true := by rw [isData, show hdrKind b.hdr = 0 from h]; rfl

theorem isEmpty_of_data {b : Burst} (h : IsData b) : isEmpty b = false := by rw [isEmpty, show hdrKind b.hdr = 0 from h]; rfl

@[simp] theorem presentOf_nil : presentOf [] = [] := rfl

@[simp] theorem presentOf_cons_some (b : Burst) (l : List Status) : presentOf (some b :: l) = b :: presentOf l := rfl

@[simp] theorem presentOf_map_some (bs : List Burst) : presentOf (bs.map some) = bs := by simp [presentOf]

/-- Data bursts call for no error token. -/
theorem kindToken_data {bs : List Burst} (h : ∀ b ∈ bs, IsData b) (level : Nat) : kindToken (bs.map some) level = none := by
  have herr : bs.find? isErr = none := List.find?_eq_none.2 fun b hb => by simp [isErr_of_data (h b hb)]
  have hdat : bs.all isData = true := List.all_eq_true.2 fun b hb => isData_of_data (h b hb)
  simp [kindToken, herr, hdat]

/-- With every input present, ABS has nothing to decide. -/
theorem absGate_present {bs : List Burst} (hne : bs ≠ []) (abs : Nat) (kept : List Status) :
    absGate abs (bs.map some) kept = .go (bs.map some) := by
  have hnone : (bs.map some).all Option.isNone = false := by
    obtain ⟨b, t, rfl⟩ := List.exists_cons_of_ne_nil hne
    rfl
  have hsome : (bs.map some).all Option.isSome = true := by simp
  simp only [absGate, hnone, hsome, Bool.false_eq_true, if_false, if_true]

/-- A node whose synchronised inputs are all present data computes on them, whatever ABS says (R72, R73). -/
theorem syncReact_data {bs : List Burst} (hne : bs ≠ []) (h : ∀ b ∈ bs, IsData b) (n : Node) (level code : Nat)
    (f : Node → List Status → React) :
    syncReact n (bs.map some) level code f = f (n.keepAll (bs.map some)) (bs.map some) := by
  have hfull : bs.all isEmpty = false := by
    obtain ⟨b, t, rfl⟩ := List.exists_cons_of_ne_nil hne
    simp [isEmpty_of_data (h b List.mem_cons_self)]
  simp only [syncReact, kindToken_data h, absGate_present hne, presentOf_map_some, hfull, Bool.false_eq_true, if_false]

/-- The same of a node of one synchronised input. -/
theorem syncReact_one {a : Burst} (ha : IsData a) (n : Node) (level code : Nat) (f : Node → List Status → React) :
    syncReact n [some a] level code f = f (n.keepAll [some a]) [some a] :=
  syncReact_data (bs := [a]) (by simp) (by simpa using ha) n level code f

/-- The same of a node of two. -/
theorem syncReact_two {a b : Burst} (ha : IsData a) (hb : IsData b) (n : Node) (level code : Nat) (f : Node → List Status → React) :
    syncReact n [some a, some b] level code f = f (n.keepAll [some a, some b]) [some a, some b] :=
  syncReact_data (bs := [a, b]) (by simp) (by simp [ha, hb]) n level code f

/-- An absent single input leaves the node as it was (R72). -/
theorem syncReact_absent (n : Node) (level code : Nat) (f : Node → List Status → React) :
    syncReact n [none] level code f = quietReact n := rfl

/-- Keeping bursts for ABS 3 changes the delay registers alone (R84). -/
theorem Node.keepAll_eq (n : Node) (l : List Status) : n.keepAll l = { n with d := (n.keepAll l).d } := by
  have keep_eq : ∀ (m : Node) k x, m.keep k x = { m with d := (m.keep k x).d } := fun m k x => by cases x <;> rfl
  unfold Node.keepAll
  split
  · rw [keep_eq _ 2, keep_eq _ 1, keep_eq _ 0]
  · rfl

@[simp] theorem Node.keepAll_op (n : Node) (l : List Status) : (n.keepAll l).op = n.op := by rw [Node.keepAll_eq]
@[simp] theorem Node.keepAll_rcd (n : Node) (l : List Status) : (n.keepAll l).rcd = n.rcd := by rw [Node.keepAll_eq]
@[simp] theorem Node.keepAll_wts (n : Node) (l : List Status) : (n.keepAll l).wts = n.wts := by rw [Node.keepAll_eq]
@[simp] theorem Node.keepAll_wbeta (n : Node) (l : List Status) : (n.keepAll l).wbeta = n.wbeta := by rw [Node.keepAll_eq]
@[simp] theorem Node.keepAll_acc (n : Node) (l : List Status) : (n.keepAll l).acc = n.acc := by rw [Node.keepAll_eq]
@[simp] theorem Node.keepAll_burst (n : Node) (l : List Status) : (n.keepAll l).burst = n.burst := by rw [Node.keepAll_eq]

/-! ### Levels and lengths of bursts of one length (R74, R76) -/

@[simp] theorem maxLevel_one (a : Burst) : maxLevel [a] = hdrLevel a.hdr := Nat.zero_max _

@[simp] theorem maxLevel_two (a b : Burst) : maxLevel [a, b] = max (hdrLevel a.hdr) (hdrLevel b.hdr) :=
  congrArg (max · (hdrLevel b.hdr)) (maxLevel_one a)

@[simp] theorem maxLevel_three (a b c : Burst) :
    maxLevel [a, b, c] = max (max (hdrLevel a.hdr) (hdrLevel b.hdr)) (hdrLevel c.hdr) :=
  congrArg (max · (hdrLevel c.hdr)) (maxLevel_two a b)

@[simp] theorem outLevel_false (bs : List Burst) : outLevel false bs = maxLevel bs := rfl

/-- The level of an output made from one burst is the burst's. -/
theorem outLevel_one (a : Burst) : outLevel false (presentOf [some a]) = hdrLevel a.hdr := maxLevel_one a

/-- The longest of bursts of one length. -/
theorem maxBeats_eq {bs : List Burst} {top : Nat} (hne : bs ≠ []) (h : ∀ b ∈ bs, b.beats.length = top) : maxBeats bs = top := by
  have hrep : bs.map (fun b => b.beats.length) = List.replicate bs.length top := by simpa [List.map_eq_replicate_iff] using h
  obtain ⟨b, t, rfl⟩ := List.exists_cons_of_ne_nil hne
  have hfold : ∀ k, (List.replicate k top).foldl Nat.max top = top := fun k => by
    induction k with
    | zero => rfl
    | succ k ih => simpa [List.replicate_succ] using ih
  rw [maxBeats, hrep, List.length_cons, List.replicate_succ, List.foldl_cons]
  simpa using hfold t.length

/-- Among bursts of one length none is a broadcast one, so each counts toward the level. -/
theorem levelUnder_eq {bs : List Burst} {top : Nat} (h : ∀ b ∈ bs, b.beats.length = top) (bcast : Bool) :
    levelUnder bcast top bs = maxLevel bs := by
  unfold levelUnder
  split
  · rename_i hb
    have htop : 1 < top := of_decide_eq_true (Bool.and_eq_true_iff.1 hb).2
    rw [List.filter_eq_self.2 fun b hb => by rw [h b hb]; exact bne_iff_ne.2 (Nat.ne_of_gt htop)]
  · rfl

end Sys2Proof.Machine
end

section
/-!
SUPPORT. The element-wise nodes (R81–R86) on data bursts of the node's length: AtomBinary and the unary nodes, and which of
them each instruction runs.
-/

namespace Sys2Proof.Machine

open Claim

/-! ### Lanes of operands (R25, R81) -/

/-- Unindex gives as many elements as it is asked for (R29). -/
theorem length_unindex (l k idx : Nat) : (unindex l k idx).length = l := by
  induction l generalizing k idx with
  | zero => rfl
  | succ l ih =>
    simp only [unindex]
    split <;> simp [ih]

/-- A decoded atom has L lanes. -/
@[simp] theorem length_operandOf (f : AtomFmt) (beta : Int) (bits : Nat) : (operandOf f beta bits).lanes.length = f.l := by
  simp only [operandOf, atomVal]
  split
  · simp [atomLanes]
  · split
    · simp [atomLanes]
    · simp only [atomLanes, List.length_map]
      split <;> simp [length_unindex]

/-- Atom j of a burst as an operand. -/
def operandIn (f : AtomFmt) (j : Nat) (b : Burst) : Operand := operandOf f (hdrBeta b.hdr) ((atomsIn f b).getD j 0)

@[simp] theorem length_operandIn (f : AtomFmt) (j : Nat) (b : Burst) : (operandIn f j b).lanes.length = f.l := length_operandOf ..

/-- A burst as long as the longest operand supplies its own atoms. -/
theorem operandAt_full {b : Burst} {top : Nat} (h : b.beats.length = top) (f : AtomFmt) (op k j : Nat) :
    operandAt f op k top j (atomsIn f b) (some b) = operandIn f j b := by
  have hlong : ¬(b.beats.length = 1 ∧ 1 < top) := by omega
  simp only [operandAt, hlong, if_false, operandIn]

/-- The operands at a position, where every data input is as long as the longest. -/
theorem operands_full {bs : List Burst} {top : Nat} (h : ∀ b ∈ bs, b.beats.length = top) (f : AtomFmt) (op j : Nat) :
    (List.range (bs.map some).length).map (fun k =>
      operandAt f op k top j (((bs.map some).map (atomsOf f)).getD k []) ((bs.map some).getD k none)) = bs.map (operandIn f j) := by
  refine List.ext_getElem (by simp) fun k hk _ => ?_
  have hk : k < bs.length := by simpa using hk
  simp only [List.getElem_map, List.getElem_range, List.map_map, List.getD_eq_getElem?_getD, List.getElem?_map,
    List.getElem?_eq_getElem hk, Option.map_some, Option.getD_some, Function.comp_apply]
  exact operandAt_full (h _ (List.getElem_mem hk)) f op k j

/-! ### Functions of three lanes (R81, R82) -/

/-- Three lists lane by lane: the first two, then what they leave on the third. -/
theorem zip3_eq_zipWith (g : XVal → XVal → XVal → XVal) (x y z : List XVal) :
    zip3 g x y z = List.zipWith (fun h u => h u) (List.zipWith g x y) z := by
  induction x generalizing y z with
  | nil => cases y <;> rfl
  | cons u x ih =>
    cases y with
    | nil => rfl
    | cons v y =>
      cases z with
      | nil => rfl
      | cons w z => simp [zip3, ih]

/-- A function of A's and B's lanes alone. -/
theorem zip3_binary (h : XVal → XVal → XVal) {x y z : List XVal} (hz : x.length ≤ z.length) :
    zip3 (fun u v _ => h u v) x y z = List.zipWith h x y := by
  rw [zip3_eq_zipWith]
  exact List.ext_getElem (by simp only [List.length_zipWith]; omega) fun k _ _ => by simp

/-- The function of AFMA: product, then sum. -/
theorem zip3_mulAdd (x y z : List XVal) :
    zip3 (fun u v w => xAdd (xMul u v) w) x y z = List.zipWith xAdd (List.zipWith xMul x y) z := by
  rw [zip3_eq_zipWith]
  exact List.ext_getElem (by simp) fun k _ _ => by simp

/-- The function of ASEL: A's lane where the bit is 1, B's where it is 0. -/
theorem zip3_select {l : Nat} {x y : List XVal} (hx : x.length = l) (hy : y.length = l) (bit : Nat → Bool) :
    zip3 (fun u v c => if c = xzero then v else u) x y ((List.range l).map (fun k => if bit k then .num false 1 0 else xzero)) =
      (List.range l).map (fun k => if bit k then x.getD k xzero else y.getD k xzero) := by
  rw [zip3_eq_zipWith]
  refine List.ext_getElem (by simp [hx, hy]) fun k hk _ => ?_
  have hk : k < l := by simpa [hx, hy] using hk
  cases hb : bit k <;> simp [hb, hx, hy, hk, xzero]

/-! ### The element-wise binary nodes (R81–R84) -/

/-- A node that emits atoms with the flags they raise. -/
def Node.emitsAtoms (n : Node) (f : AtomFmt) (level : Nat) (beta : Int) (out : List (Nat × Flg)) : React :=
  n.emits (orFlgs (out.map Prod.snd)) (atomBurst f level beta (out.map Prod.fst))

/-- The lanes of the third operand of AtomBinary (R81, R82): C's of AFMA; otherwise one where the predicate's bit is 1, zero
where it is 0 or there is no predicate. -/
def thirdLanes (op : Nat) (f : AtomFmt) (pred : Status) (j : Nat) (ops : List Operand) : List XVal :=
  if op = 0x16 then ((ops[2]?).map Operand.lanes).getD []
  else (List.range f.l).map (fun k =>
    let bit := match pred with
      | some c => predBit c false (j * f.l + k)
      | none => false
    if bit then .num false 1 0 else xzero)

/-- Output atom j of AtomBinary on operands (R81). -/
def binaryAtom (g : XVal → XVal → XVal → XVal) (n : Node) (beta : Int) (pred : Status) (bs : List Burst) (j : Nat) : Nat × Flg :=
  let f := atomFmtD n.rcd.fmt.toNat
  let ops := bs.map (operandIn f j)
  let lanes := fun k => ((ops[k]?).map Operand.lanes).getD []
  elementAtom n f beta j ops (zip3 g (lanes 0) (lanes 1) (thirdLanes n.op f pred j ops)) {}

/-- AtomBinary on data bursts `bs` of BLEN beats, with a predicate `pred` of ASEL of the length of R82 and no broadcast. -/
theorem binaryCore_full (g : XVal → XVal → XVal → XVal) {n : Node} {present l : List Status} {bs : List Burst} {pred : Status}
    (hdata : (if n.op = 0x16 then l else l.take 2) = bs.map some)
    (hshown : (if n.op = 0x15 then present.take 2 else present) = bs.map some)
    (hpred : (if n.op = 0x15 then l.getD 2 none else none) = pred)
    (hfit : ∀ c, pred = some c → n.rcd.var.getLsbD 0 = false ∧
      c.beats.length = (blenOf n.rcd * (atomFmtD n.rcd.fmt.toNat).perBeat * (atomFmtD n.rcd.fmt.toNat).l + 511) / 512)
    (hne : bs ≠ []) (hlen : ∀ b ∈ bs, b.beats.length = blenOf n.rcd) :
    binaryCore g n present l = n.emitsAtoms (atomFmtD n.rcd.fmt.toNat) (maxLevel bs) (betaOut n.rcd present)
      ((List.range (blenOf n.rcd * (atomFmtD n.rcd.fmt.toNat).perBeat)).map (binaryAtom g n (betaOut n.rcd present) pred bs)) := by
  have hok : bs.all (fun b => b.beats.length == blenOf n.rcd || (n.rcd.var.getLsbD 0 && b.beats.length == 1)) = true :=
    List.all_eq_true.2 fun b hb => by simp [hlen b hb]
  have htop : bs.isEmpty = false := by simpa using hne
  unfold binaryCore
  simp only [hdata, hshown, hpred, presentOf_map_some, htop, Bool.false_eq_true, if_false, maxBeats_eq hne hlen, hok,
    levelUnder_eq hlen, operands_full hlen]
  cases pred with
  | none => exact if_neg (by simp)
  | some c =>
    obtain ⟨hvar, hbits⟩ := hfit c rfl
    simp only [hvar, Bool.false_and, Bool.false_or]
    exact if_neg (by simp [hbits])

/-- An element-wise node on data bursts: `xs` on its synchronised inputs, of which `bs` are operands, of BLEN beats. -/
theorem binaryReact_full (g : XVal → XVal → XVal → XVal) {n : Node} {i : Ins} {xs bs : List Burst} {pred : Status}
    (hins : (if n.op = 0x15 ∨ n.op = 0x16 then [i.a, i.b, i.c] else [i.a, i.b]) = xs.map some)
    (hops : (if n.op = 0x16 then xs else xs.take 2) = bs) (hshown : (if n.op = 0x15 then xs.take 2 else xs) = bs)
    (hpred : (if n.op = 0x15 then (xs.map some).getD 2 none else none) = pred)
    (hfit : ∀ c, pred = some c → n.rcd.var.getLsbD 0 = false ∧
      c.beats.length = (blenOf n.rcd * (atomFmtD n.rcd.fmt.toNat).perBeat * (atomFmtD n.rcd.fmt.toNat).l + 511) / 512)
    (hne : bs ≠ []) (hdata : ∀ x ∈ xs, IsData x) (hlen : ∀ b ∈ bs, b.beats.length = blenOf n.rcd) :
    let f := atomFmtD n.rcd.fmt.toNat
    let m := n.keepAll (xs.map some)
    let beta := betaOut n.rcd (xs.map some)
    binaryReact g n i = m.emitsAtoms f (maxLevel bs) beta
      ((List.range (blenOf n.rcd * f.perBeat)).map (binaryAtom g m beta pred bs)) := by
  have hxs : xs ≠ [] := by
    rintro rfl
    exact hne (by simpa using hops.symm)
  simp only [binaryReact, hins, syncReact_data hxs hdata]
  rw [binaryCore_full g (bs := bs) (pred := pred) (by rw [Node.keepAll_op, ← hops]; split <;> simp)
    (by rw [Node.keepAll_op, ← hshown]; split <;> simp) (by rw [Node.keepAll_op, hpred]) (by rwa [Node.keepAll_rcd]) hne
    (by rwa [Node.keepAll_rcd]), Node.keepAll_rcd]

/-- An output atom of AADD, ASUB, AHAD, AMAX and AMIN. -/
theorem binaryAtom_binary (h : XVal → XVal → XVal) {n : Node} (hop : n.op ≠ 0x16) (beta : Int) (a b : Burst) :
    let f := atomFmtD n.rcd.fmt.toNat
    binaryAtom (fun u v _ => h u v) n beta none [a, b] = fun j =>
      elementAtom n f beta j [operandIn f j a, operandIn f j b] (List.zipWith h (operandIn f j a).lanes (operandIn f j b).lanes) {} :=
  funext fun j => congrArg (elementAtom n _ beta j _ · {}) (zip3_binary h (by simp [thirdLanes, hop]))

/-- An output atom of ASEL under a predicate that is not reused (R82). -/
theorem binaryAtom_select {n : Node} (hop : n.op ≠ 0x16) (beta : Int) (a b c : Burst) :
    let f := atomFmtD n.rcd.fmt.toNat
    binaryAtom (fun u v w => if w = xzero then v else u) n beta (some c) [a, b] = fun j =>
      elementAtom n f beta j [operandIn f j a, operandIn f j b] ((List.range f.l).map fun k =>
        if predBit c false (j * f.l + k) then (operandIn f j a).lanes.getD k xzero else (operandIn f j b).lanes.getD k xzero) {} :=
  funext fun j => congrArg (elementAtom n _ beta j _ · {}) <| by
    rw [thirdLanes, if_neg hop]
    exact zip3_select (length_operandIn ..) (length_operandIn ..) _

/-- An output atom of AFMA. -/
theorem binaryAtom_mulAdd {n : Node} (hop : n.op = 0x16) (beta : Int) (a b c : Burst) :
    let f := atomFmtD n.rcd.fmt.toNat
    binaryAtom (fun u v w => xAdd (xMul u v) w) n beta none [a, b, c] = fun j =>
      elementAtom n f beta j [operandIn f j a, operandIn f j b, operandIn f j c]
        (List.zipWith xAdd (List.zipWith xMul (operandIn f j a).lanes (operandIn f j b).lanes) (operandIn f j c).lanes) {} :=
  funext fun j => congrArg (elementAtom n _ beta j _ · {}) <| by
    rw [thirdLanes, if_pos hop]
    exact zip3_mulAdd ..

/-- A row of `binaryNodes` runs `binaryReact` with its function, under an opcode other than ASEL's and AFMA's. -/
theorem exec_binaryNodes {r : NodeRec} {x : Nat × Instr × (XVal → XVal → XVal)} (hx : x ∈ binaryNodes r) (s : State) :
    exec x.2.1 s = .next (s.firePure x.1 r (binaryReact fun u v _ => x.2.2 u v)) ∧ x.1 ≠ 0x15 ∧ x.1 ≠ 0x16 := by
  simp only [binaryNodes, List.mem_cons, List.not_mem_nil, or_false] at hx
  rcases hx with rfl | rfl | rfl | rfl | rfl <;> exact ⟨rfl, by simp⟩

/-! ### The unary nodes (R85, R86) -/

/-- A unary node on a data burst of BLEN beats. -/
theorem unaryReact_full (g : NodeRec → Nat → XVal → XVal × Flg) {n : Node} {i : Ins} {a : Burst} (hia : i.a = some a)
    (ha : IsData a) (hlen : a.beats.length = blenOf n.rcd) :
    let f := atomFmtD n.rcd.fmt.toNat
    let m := n.keepAll [some a]
    let beta := betaOut n.rcd [some a]
    unaryReact g n i = m.emitsAtoms f (hdrLevel a.hdr) beta ((atomsIn f a).zipIdx.map fun e =>
      let o := operandOf f (hdrBeta a.hdr) e.1
      let z := o.lanes.zipIdx.map fun y => g n.rcd y.2 y.1
      elementAtom m f beta e.2 [o] (z.map Prod.fst) (orFlgs (z.map Prod.snd))) := by
  simp only [unaryReact, hia, syncReact_one ha, outLevel_one, Node.keepAll_rcd]
  exact if_neg (not_not_intro hlen)

/-- A row of `unaryNodes` runs `unaryReact` with its function. -/
theorem exec_unaryNodes {r : NodeRec} {x : Nat × Instr × (Nat → XVal → XVal × Flg)} (hx : x ∈ unaryNodes r) (s : State) :
    ∃ g, exec x.2.1 s = .next (s.firePure x.1 r (unaryReact g)) ∧ g r = x.2.2 := by
  simp only [unaryNodes, List.mem_cons, List.not_mem_nil, or_false] at hx
  rcases hx with rfl | rfl | rfl | rfl | rfl | rfl | rfl | rfl | rfl | rfl | rfl | rfl | rfl <;> exact ⟨_, rfl, rfl⟩

end Sys2Proof.Machine
end

section
/-!
SUPPORT. The nodes of two inputs among those that reduce and multiply: ADOT.P (R90) and the pulse array (R95–R99).
-/

namespace Sys2Proof.Machine

open Claim

/-- An atom of a burst as long as the longest operand, at a position below its atoms' number, is its own under broadcast too. -/
theorem broadcast_index {b : Burst} {f : AtomFmt} {j : Nat} (hj : j < b.beats.length * f.perBeat) :
    (if b.beats.length = 1 then j % f.perBeat else j) = j := by
  split
  · rename_i hone
    exact Nat.mod_eq_of_lt (by simpa [hone] using hj)
  · rfl

/-- ADOT.P on data bursts of one length, whose sums fill BLEN beats (R90, R91). -/
theorem adotPReact_data {n : Node} {i : Ins} {a b : Burst} (hia : i.a = some a) (hib : i.b = some b) (ha : IsData a) (hb : IsData b)
    (hlen : b.beats.length = a.beats.length) :
    let f := atomFmtD n.rcd.fmt.toNat
    let m := n.keepAll [some a, some b]
    let count := a.beats.length * f.perBeat
    let out := sumBurst m (max (hdrLevel a.hdr) (hdrLevel b.hdr)) ((List.range count).map fun j =>
      pulseDot ((valsIn f a).getD j (.val 0 0 [])) ((valsIn f b).getD j (.val 0 0 [])) (hdrBeta a.hdr + hdrBeta b.hdr))
    sumBeats m count = blenOf n.rcd →
      adotPReact n i = m.emits (orFlg { nv := (valsIn f a).any atomBad || (valsIn f b).any atomBad } out.2) out.1 := by
  intro f m count out hfit
  have hall : ∀ x ∈ [a, b], x.beats.length = a.beats.length := by simp [hlen]
  have hsums : ∀ x ∈ [a, b], ∀ j ∈ List.range count, (valsIn f x).getD (if x.beats.length = 1 then j % f.perBeat else j) (.val 0 0 []) =
      (valsIn f x).getD j (.val 0 0 []) := fun x hx j hj => by
    rw [broadcast_index (by simpa [hall x hx] using hj)]
  simp only [adotPReact, hia, hib, syncReact_two ha hb, presentOf_cons_some, presentOf_nil, maxBeats_eq (by simp) hall,
    levelUnder_eq hall, maxLevel_two, Node.keepAll_rcd]
  rw [if_neg (by simpa [hlen] using hfit), List.map_congr_left fun j hj => by rw [hsums a (by simp) j hj, hsums b (by simp) j hj]]

/-- ADOT.W ends its instant once no ADOTT of its tile still reads the weights before it (R98). -/
theorem fires_adotW {r : NodeRec} {s : State} {n : Node} {i : Ins} {q : React} (h : Ready 0x30 r s n i)
    (hread : s.readerBehind s.here s.slot n = false) (hq : i.quiet = false) (hf : adotWReact n i = q) : Fires (.adotW r) s n q :=
  firesIn_with h rfl hq (by simp [hread, hf])

/-- ADOTT ends its instant over the weights of the ADOT.W that k1 names, once they are resolved (R98). -/
theorem fires_adott {r : NodeRec} {s : State} {n : Node} {i : Ins} {q : React} {wf : AtomFmt} {w : List (BitVec 64)} {wbeta : Int}
    (h : Ready 0x31 r s n i) (hw : s.weightsAt s.here (r.k1.extractLsb' 0 6).toNat n = some (wf, w, wbeta)) (hq : i.quiet = false)
    (hf : adottReact wf w wbeta n i = q) : Fires (.adott r) s n q :=
  firesIn_with h rfl hq (by simp only [(ready_node h).2, hw, hf, Option.map_some])

/-- A weight burst of 512 atoms beside an absent A replaces the weights and nothing else (R95). -/
theorem adotWReact_load {n : Node} {i : Ins} {b : Burst} {w : List (BitVec 64)} (hia : i.a = none) (hib : i.b = some b) (hb : isData b = true)
    (hw : weightBurst (atomFmtD n.rcd.fmt.toNat) b = some w) :
    adotWReact n i = quietReact { n with wts := w, wbeta := hdrBeta b.hdr } := by
  simp only [adotWReact, hib, hb, hw, forwardReact, hia, syncReact_absent]
  rfl

/-- AOUTR on data bursts (R99). -/
theorem aoutrReact_data {n : Node} {i : Ins} {a b : Burst} (hia : i.a = some a) (hib : i.b = some b) (ha : IsData a) (hb : IsData b) :
    aoutrReact n i = aoutrCore (n.keepAll [some a, some b]) (max (hdrLevel a.hdr) (hdrLevel b.hdr)) a b := by
  have hkind : ∀ level, kindToken [some a, some b] level = none := kindToken_data (bs := [a, b]) (by simp [ha, hb])
  have hgate : ∀ abs kept, absGate abs [some a, some b] kept = .go [some a, some b] := absGate_present (bs := [a, b]) (by simp)
  simp only [aoutrReact, hia, hib, hkind, hgate, presentOf_cons_some, presentOf_nil, outLevel_false, maxLevel_two]

end Sys2Proof.Machine
end

section
/-!
PROOFS. The atom nodes of chapter 04: O37 and O38.
-/

open Sys2Proof Sys2Proof.Machine Sys2Proof.Claim

/-- Settles O37: each node runs `binaryReact` or `unaryReact`, whose output atoms on data of BLEN beats are `binaryAtom`'s of the
operands' lanes (`binaryReact_full`, `unaryReact_full`). -/
theorem elementNodes : Obligations.ElementNodes := by
  intro r s n i a b c
  dsimp only
  have busy : i.a = some a → i.quiet = false := fun hia => by simp [Ins.quiet, hia]
  refine ⟨fun hia hib ha hb hla hlb => ⟨fun x hx h => ?_, fun hic hc => ⟨fun h hvar hlc => ?_, fun h hlc => ?_⟩⟩,
    fun hia ha hla x hx h => ?_⟩
  · obtain ⟨he, hsel, hfma⟩ := exec_binaryNodes hx s
    obtain ⟨hop, rfl⟩ := ready_node h
    rw [← hop] at hsel hfma
    refine fires_pure h he (busy hia) ?_
    rw [binaryReact_full (xs := [a, b]) (bs := [a, b]) (pred := none) _ (by simp [hsel, hfma, hia, hib]) (by simp) (by simp)
      (by simp [hsel]) (by simp) (by simp) (by simp [ha, hb]) (by simp [hla, hlb]), binaryAtom_binary _ (by simpa using hfma),
      maxLevel_two, Node.keepAll_rcd]
    rfl
  · obtain ⟨hop, rfl⟩ := ready_node h
    refine fires_pure h rfl (busy hia) ?_
    rw [binaryReact_full (xs := [a, b, c]) (bs := [a, b]) (pred := some c) _ (by simp [hop, hia, hib, hic]) (by simp [hop])
      (by simp [hop]) (by simp [hop]) (fun _ e => Option.some.inj e ▸ ⟨hvar, hlc⟩) (by simp) (by simp [ha, hb, hc])
      (by simp [hla, hlb]), binaryAtom_select (by simp [hop]), maxLevel_two, Node.keepAll_rcd]
    rfl
  · obtain ⟨hop, rfl⟩ := ready_node h
    refine fires_pure h rfl (busy hia) ?_
    rw [binaryReact_full (xs := [a, b, c]) (bs := [a, b, c]) (pred := none) _ (by simp [hop, hia, hib, hic]) (by simp [hop])
      (by simp [hop]) (by simp [hop]) (by simp) (by simp) (by simp [ha, hb, hc]) (by simp [hla, hlb, hlc]),
      binaryAtom_mulAdd (by simp [hop]), maxLevel_three, Node.keepAll_rcd]
    rfl
  · obtain ⟨g, he, hg⟩ := exec_unaryNodes hx s
    obtain ⟨-, rfl⟩ := ready_node h
    refine fires_pure h he (busy hia) ?_
    rw [unaryReact_full g hia ha hla, hg]
    rfl

/-- Settles O38: with data on its inputs a node computes (`syncReact_one`, `adotPReact_data`, `aoutrReact_data`), and where the
lengths fit no branch of a mismatch is taken; the array's readers take their turn as R98 orders them. -/
theorem reductionNodes : Obligations.ReductionNodes := by
  intro r s n i a b
  dsimp only
  intro hia ha
  have busy : i.quiet = false := by simp [Ins.quiet, hia]
  refine ⟨fun h hlen => ?aren, fun h hlen => ?enc, fun h hlen => ?dec, fun h hlen => ?anrm, fun h hlen => ?alsum, fun h => ?amaxr,
    fun h hib hb hlen => ?adotP, ?_⟩
  case aren | enc | dec | anrm | alsum =>
    obtain ⟨-, rfl⟩ := ready_node h
    refine fires_pure h rfl busy ?_
    simp only [arenReact, encReact, decReact, atomReduce, hia, syncReact_one ha, outLevel_one, Node.keepAll_rcd]
    exact if_neg (not_not_intro hlen)
  case amaxr =>
    obtain ⟨-, rfl⟩ := ready_node h
    refine fires_pure h rfl busy ?_
    simp only [amaxrReact, hia, syncReact_one ha, outLevel_one, Node.keepAll_rcd, isEmpty_of_data ha]
    rfl
  case adotP =>
    obtain ⟨-, rfl⟩ := ready_node h
    exact fun hfit => fires_pure h rfl busy (adotPReact_data hia hib ha hb hlen hfit)
  refine ⟨fun h hib hread hdiv hfit => ?adotW, fun h hib hb hlen hread => ?load, fun h hib hb hw hread => ?mismatch,
    fun wf w wbeta h hw hdiv hfit => ?adott, fun h hib hb hva hvb hpairs => ?aoutr⟩
  case adotW =>
    obtain ⟨-, rfl⟩ := ready_node h
    refine fires_adotW h hread busy ?_
    simp only [adotWReact, hib, forwardReact, hia, syncReact_one ha, outLevel_one, Node.keepAll_rcd, Node.keepAll_wts, Node.keepAll_wbeta]
    exact if_neg (by simp [hdiv, hfit])
  case load =>
    obtain ⟨-, rfl⟩ := ready_node h
    exact fires_adotW h hread (by simp [Ins.quiet, hib]) (adotWReact_load rfl hib (isData_of_data hb) (if_pos ⟨hb, hlen⟩))
  case mismatch =>
    obtain ⟨-, rfl⟩ := ready_node h
    refine fires_adotW h hread busy ?_
    simp [adotWReact, hib, hb, hw, hia]
  case adott =>
    obtain ⟨-, rfl⟩ := ready_node h
    refine fires_adott h hw busy ?_
    simp only [adottReact, hia, syncReact_one ha, outLevel_one, Node.keepAll_rcd]
    exact if_neg (by simp [hdiv, hfit])
  case aoutr =>
    obtain ⟨-, rfl⟩ := ready_node h
    have hr := aoutrReact_data (n := n) hia hib ha hb
    refine ⟨fun hopen => fires_pure h rfl busy (hr.trans ?_), fun hcloses => fires_pure h rfl busy (hr.trans ?_)⟩
    · simp only [aoutrCore, Node.keepAll_rcd, Node.keepAll_acc, Node.keepAll_burst]
      rw [if_neg (by simp [hva, hvb, hpairs]), if_neg hopen]
    · simp only [aoutrCore, Node.keepAll_rcd, Node.keepAll_acc, Node.keepAll_burst]
      rw [if_neg (by simp [hva, hvb, hpairs]), if_pos hcloses]

end

section
/-!
SUPPORT. The accumulating nodes, DRAIN and CONV (R106, R169–R176) where their kinds and their absence policy let them compute:
which step each runs, what a steering token leaves of a DRAIN, and a drain without residual, dropout and measurement.
-/

namespace Sys2Proof.Machine

open Claim

/-! ### Kinds (R73) -/

/-- Data and empty fibres are no error tokens. -/
theorem isErr_of_isData {b : Burst} (h : isData b = true) : isErr b = false := by
  simp only [isData, Bool.or_eq_true, beq_iff_eq] at h
  simp only [isErr, beq_eq_false_iff_ne]
  omega

/-- A single input of data or an empty fibre calls for no error token. -/
theorem kindToken_one {a : Burst} (h : isData a = true) (level : Nat) : kindToken [some a] level = none := by
  simp [kindToken, isErr_of_isData h, h]

/-! ### Registers of a node -/

@[simp] theorem Node.reg_setReg_self (n : Node) (k : Nat) (v : BitVec 32) : (n.setReg k v).reg k = v := by
  simp [Node.reg, Node.setReg, tgetD]

@[simp] theorem Node.setReg_rcd (n : Node) (k : Nat) (v : BitVec 32) : (n.setReg k v).rcd = n.rcd := rfl

/-! ### ACC and ACCK (R169, R170) -/

/-- ACC steps on data and on empty fibres alike. -/
theorem accReact_data {n : Node} {i : Ins} {a : Burst} (hia : i.a = some a) (ha : isData a = true) (step : Node → Burst → React) :
    accReact step n i = step n a := by
  simp only [accReact, hia, kindToken_one ha]

/-- ACCK steps on data bursts, whatever ABS says. -/
theorem acckReact_data {n : Node} {i : Ins} {a c : Burst} (hia : i.a = some a) (hic : i.c = some c) (ha : IsData a) (hc : IsData c) :
    acckReact n i = acckCore n a c := by
  have hkind : ∀ level, kindToken [some a, some c] level = none := kindToken_data (bs := [a, c]) (by simp [ha, hc])
  have hgate : ∀ abs kept, absGate abs [some a, some c] kept = .go [some a, some c] := absGate_present (bs := [a, c]) (by simp)
  simp only [acckReact, hia, hic, hkind, hgate]

/-- A fill key's lanes are passed over (R170). -/
theorem acckAdd_fill (rho rows : Nat) (z : Acck) (l : List InLane) (bad : List Bool) : acckAdd rho rows z 0xFFFFFFFF l bad = z := rfl

/-- A key that finds every row taken is dropped and counted, with its fault (R170, R171). -/
theorem acckAdd_dropped {rho rows : Nat} {z : Acck} {key : BitVec 32} (hkey : key ≠ 0xFFFFFFFF) (hnew : key ∉ z.node.keys)
    (hfull : z.node.keys.length = rows) (l : List InLane) (bad : List Bool) :
    acckAdd rho rows z key l bad = { z with node := z.node.drop 1, faults := z.faults ++ [(0x27, 0)] } := by
  have hlist : z.node.keys.contains key = false := by simpa using hnew
  simp only [acckAdd, if_neg hkey, hlist, hfull, Bool.false_eq_true, if_false, if_true]

/-! ### DRAIN (R172–R174) -/

/-- The route that DRAIN's RSEL selects (R172, R174). -/
def Node.selected (n : Node) : Nat := if (n.reg 5).getLsbD 31 then (n.reg 5).toNat % 4096 else n.rcd.outX.toNat

/-- An RSEL that a steering token has set selects the token's route. -/
theorem Node.selected_steered (n : Node) {route : Nat} (h : route < 4096) :
    (n.setReg 5 (BitVec.ofNat 32 (2 ^ 31 + route))).selected = route := by
  have hbit : (BitVec.ofNat 32 (2 ^ 31 + route)).getLsbD 31 = true := by
    have hhigh : (2 ^ 31 + route) / 2 ^ 31 % 2 = 1 := by omega
    simp only [BitVec.getLsbD_ofNat, Nat.testBit_eq_decide_div_mod_eq, hhigh, decide_true, Bool.and_true, Nat.reduceLT]
  have hval : (BitVec.ofNat 32 (2 ^ 31 + route)).toNat % 4096 = route := by
    rw [BitVec.toNat_ofNat]
    omega
  simp only [Node.selected, Node.reg_setReg_self, hbit, if_true, hval]

/-- A DRAIN that meets no token on C looks at nothing and keeps its RSEL. -/
theorem State.steerFrom_none (s : State) (held : List Held) (p id : Nat) (n : Node) : s.steerFrom held p id n none = (n, []) := rfl

/-- A steering token on C (R174): RSEL before it is noted; its route is taken where it may be, else RSEL stays and fault 0x29 is raised. -/
theorem State.steerFrom_token {s : State} {held : List Held} {p id : Nat} {n : Node} {c : Burst} (hc : hdrKind c.hdr = 4) :
    s.steerFrom held p id n (some c) =
      if s.steerOk held p id n (hdrAux c.hdr % 4096) then
        (({ n with steered := some (n.inst, n.reg 5) } : Node).setReg 5 (BitVec.ofNat 32 (2 ^ 31 + hdrAux c.hdr % 4096)), [])
      else (({ n with steered := some (n.inst, n.reg 5) } : Node).setReg 5 (n.reg 5), [(0x29, c.hdr)]) := by
  simp only [State.steerFrom, State.steerWord, hc, ne_eq, not_true_eq_false, if_false, true_and]
  split <;> rfl

/-- The tile of a drain without residual and dropout: its lanes as accumulators (R172). -/
def drainTile (a : Burst) : List Acc := (lanesOfBeats 16 a.beats).map (fun x => accOfLane (laneOf x))

/-- A lane without residual and dropout is drained as it is (R172). -/
theorem drainLane_plain {n : Node} (hdrop : n.rcd.var.getLsbD 1 = false) (atoms : Bool) (j : Nat) (l : Lane) :
    drainLane n atoms j l none = accOfLane l := by
  simp only [drainLane, hdrop, Bool.false_eq_true, if_false]

/-- A drain without residual and dropout encodes its lanes, where they fill BLEN beats (R172). -/
theorem drainCore_plain {n : Node} {a : Burst} (hdrop : n.rcd.var.getLsbD 1 = false)
    (hunit : (drainTile a).length % (if isAtom n.rcd.fmt.toNat then (atomFmtD n.rcd.fmt.toNat).l else 1) = 0)
    (hfit : ((drainTile a).length + lanesPerBeat n.rcd.fmt.toNat - 1) / lanesPerBeat n.rcd.fmt.toNat = blenOf n.rcd) (level shown : Nat) :
    drainCore n (some a) none level shown =
      (onX ((n.setReg 3 (n.reg 3 + 1)).flag (drainBurst n level (drainTile a)).2) (some (drainBurst n level (drainTile a)).1),
        some (drainTile a)) := by
  have htile : ((lanesOfBeats 16 a.beats).map laneOf).zipIdx.map
      (fun x => drainLane n (isAtom n.rcd.fmt.toNat) x.2 x.1 none) = drainTile a := by
    rw [List.map_congr_left fun x _ => drainLane_plain hdrop _ x.2 x.1, ← Function.comp_def accOfLane Prod.fst, ← List.map_map,
      List.zipIdx_map_fst, List.map_map, drainTile, Function.comp_def]
  have hlen : ((lanesOfBeats 16 a.beats).map laneOf).length = (drainTile a).length := by simp [drainTile]
  simp only [drainCore, hlen, htile]
  exact if_neg (by simp [hunit, hfit])

/-- DRAIN on a data burst, without residual, dropout and measurement (R172), once it has met what C brings (R174). -/
theorem drainBeside_plain {s : State} {held : List Held} {n m : Node} {i : Ins} {a : Burst} {fl : List (Nat × BitVec 32)}
    (hia : i.a = some a) (ha : IsData a) (hsteer : s.steerFrom held s.here s.slot n i.c = (m, fl)) (hrcd : m.rcd = n.rcd)
    (hres : n.rcd.var.getLsbD 0 = false) (hdrop : n.rcd.var.getLsbD 1 = false) (hamax : n.rcd.var.getLsbD 2 = false)
    (hunit : (drainTile a).length % (if isAtom n.rcd.fmt.toNat then (atomFmtD n.rcd.fmt.toNat).l else 1) = 0)
    (hfit : ((drainTile a).length + lanesPerBeat n.rcd.fmt.toNat - 1) / lanesPerBeat n.rcd.fmt.toNat = blenOf n.rcd)
    {route : Nat} (hroute : m.selected = route) (hroom : s.room s.here route = true) :
    let k := m.keepAll [some a, none, none]
    let x := drainBurst k (hdrLevel a.hdr) (drainTile a)
    drainBeside s held n i = some (s, { onX ((k.setReg 3 (k.reg 3 + 1)).flag x.2) (some x.1) with route := some route, faults := fl }) := by
  have hgate : ∀ abs kept, absGate abs [some a] kept = .go [some a] := absGate_present (bs := [a]) (by simp)
  have hk : (m.keepAll [some a, none, none]).rcd = n.rcd := by rw [Node.keepAll_rcd, hrcd]
  have hcore := drainCore_plain (n := m.keepAll [some a, none, none]) (a := a) (by rw [hk, hdrop]) (by rw [hk, hunit]) (by rw [hk, hfit])
  have hsel : (if (m.reg 5).getLsbD 31 then (m.reg 5).toNat % 4096 else m.rcd.outX.toNat) = route := hroute
  simp only [drainBeside, hsteer, hia, hres, hamax, Bool.false_eq_true, if_false, kindToken_one (isData_of_data ha), hgate,
    List.getD_cons_zero, List.getD_cons_succ, List.getD_nil, Option.isSome_some, if_true, hcore, hsel, hroom, Bool.not_true, onX,
    List.append_nil]

/-- DRAIN ends its instant on the route selected, once what the DRAINs hold is known. -/
theorem fires_drain {r : NodeRec} {s : State} {n : Node} {i : Ins} {q : React} {held : List Held} (h : Ready 0x42 r s n i)
    (hheld : s.heldFor s.here s.slot n i.c = some held) (hq : i.quiet = false) (hf : drainBeside s held n i = some (s, q)) :
    Fires (.drain r) s n q :=
  firesIn_with h rfl hq (by rw [drainReact, hheld, Option.bind_some, hf])

/-! ### CONV (R176) -/

/-- CONV on data, its β brought by a burst of one beat (R176). -/
theorem convReact_data {n : Node} {i : Ins} {a b : Burst} (hia : i.a = some a) (hib : i.b = some b) (ha : IsData a) (hb : IsData b)
    (hlen : b.beats.length ≤ 1) : convReact n i = convCore n a b (max (hdrLevel a.hdr) (hdrLevel b.hdr)) := by
  have hfind : [a, b].find? isErr = none := by simp [isErr_of_data ha, isErr_of_data hb]
  have hgate : ∀ abs kept, absGate abs [some a, some b] kept = .go [some a, some b] := absGate_present (bs := [a, b]) (by simp)
  simp only [convReact, hia, hib, presentOf_cons_some, presentOf_nil, hfind, kindToken_one (isData_of_data ha), isErr_of_data hb,
    isData_of_data hb, Bool.or_true, Bool.not_true, Bool.false_eq_true, if_false, hgate, isEmpty_of_data hb, Bool.false_and,
    Bool.false_or, outLevel_false, maxLevel_two]
  exact if_neg (by simpa using hlen)

end Sys2Proof.Machine
end

section
/-!
PROOFS. The accumulators, the drains and CONV of chapter 08: O39.
-/

open Sys2Proof Sys2Proof.Machine Sys2Proof.Claim

/-- Settles O39: on inputs that agree each node runs its step (`accReact_data`, `acckReact_data`, `drainBeside_plain`,
`convReact_data`), and each case of the statement takes one branch of it. -/
theorem accumulatorNodes : Obligations.AccumulatorNodes := by
  intro r s n i a b c
  dsimp only
  intro hia
  have busy : i.quiet = false := by simp [Ins.quiet, hia]
  refine ⟨fun h ha hfit => ?acc, fun h ha hq => ?accF, fun h ha hic hc hne hlen => ?acck,
    fun rho rows z key l bad => ⟨fun hkey => hkey ▸ acckAdd_fill .., fun hkey hnew hfull => acckAdd_dropped hkey hnew hfull ..⟩,
    fun h ha hres hdrop hamax hunit hfit => ?drain, fun h ha hib hb hlen => ?conv⟩
  case acc =>
    obtain ⟨-, rfl⟩ := ready_node h
    have hstep := (accReact_data (n := n) hia ha accStep).trans (if_neg (Nat.not_lt.2 hfit))
    exact ⟨fun hopen => fires_pure h rfl busy (hstep.trans (if_neg hopen)),
      fun hcloses => fires_pure h rfl busy (hstep.trans (if_pos hcloses))⟩
  case accF =>
    obtain ⟨-, rfl⟩ := ready_node h
    have hstep := (accReact_data (n := n) hia ha accFibreStep).trans (if_neg fun hover => Nat.not_lt.2 hover.1 hq)
    exact ⟨fun hbelow => fires_pure h rfl busy (hstep.trans (if_neg (Nat.not_le.2 hbelow))),
      fun hcloses hzero => fires_pure h rfl busy (hstep.trans ((if_pos hcloses).trans (if_pos hzero))),
      fun hcloses hsome => fires_pure h rfl busy (hstep.trans ((if_pos hcloses).trans (if_neg hsome)))⟩
  case acck =>
    obtain ⟨-, rfl⟩ := ready_node h
    have hstep := (acckReact_data (n := n) hia hic ha hc).trans (if_neg (not_not_intro hlen))
    have htoks : c.beats.isEmpty = false := by simpa using hne
    simp only [htoks, Bool.false_eq_true, if_false, maxLevel_two] at hstep
    refine ⟨fun hbelow => fires_pure h rfl busy (hstep.trans (if_neg (Nat.not_le.2 hbelow))), fun hcloses hkeys => ?_⟩
    exact fires_pure h rfl busy (hstep.trans ((if_pos hcloses).trans (if_neg (by simpa using hkeys))))
  case drain =>
    obtain ⟨-, rfl⟩ := ready_node h
    refine ⟨fun hic hroom => ?_, fun held hic hkind hheld => ?_⟩
    · exact fires_drain h (by rw [hic]; rfl) busy
        (drainBeside_plain hia ha (by rw [hic]; exact s.steerFrom_none ..) rfl hres hdrop hamax hunit hfit rfl hroom)
    · have hsteer := s.steerFrom_token (held := held) (p := s.here) (id := s.slot) (n := n) hkind
      rw [← hic] at hsteer
      refine ⟨fun hok hroom => fires_drain h hheld busy ?_, fun hno hroom => fires_drain h hheld busy ?_⟩
      · exact drainBeside_plain hia ha (hsteer.trans (if_pos hok)) rfl hres hdrop hamax hunit hfit
          (Node.selected_steered _ (Nat.mod_lt _ (by decide))) hroom
      · exact drainBeside_plain hia ha (hsteer.trans (if_neg (by simp [hno]))) rfl hres hdrop hamax hunit hfit
          (by rw [Node.selected, Node.reg_setReg_self]; rfl) hroom
  case conv =>
    obtain ⟨-, rfl⟩ := ready_node h
    have hstep := convReact_data (n := n) hia hib ha hb hlen
    refine ⟨fun hfmt hfit => fires_pure h rfl busy (hstep.trans ?_), fun g hfmt hfit => fires_pure h rfl busy (hstep.trans ?_)⟩
    · simp only [convCore, isEmpty_of_data ha, hfmt, Bool.false_eq_true, if_false]
      exact if_neg (not_not_intro hfit)
    · simp only [convCore, isEmpty_of_data ha, hfmt, Bool.false_eq_true, if_false]
      exact if_neg (not_not_intro hfit)

end

section
/-!
SUPPORT. Firing, for the nodes whose instant may take several turns or begin without an input (R120, R189, R333), and what a turn that
names a number of beats does at a memory node.
-/

namespace Sys2Proof.Machine

open Claim

/-! ### The end of an instant -/

/-- A node that may take several turns ends its instant with a status on X, or in answer to a present input. -/
theorem firesIn_slow {i : Instr} {op : Nat} {r : NodeRec} {s z : State} {n : Node} {x : Ins} {always : Bool}
    {f : State → Node → Ins → State × Option React} {q : React} (h : Ready op r s n x)
    (he : exec i s = .next (s.fireSlow op r always f)) (hgo : x.quiet = false ∨ always = true)
    (hbusy : x.quiet = false ∨ q.x.isSome = true) (hf : f s n x = (z, some q)) : FiresIn i s z n q := by
  rw [FiresIn, he, fireSlow_ready h always f hgo, hf]
  rcases hbusy with hbusy | hbusy <;> simp [hbusy]

/-- A turn that does not end the instant leaves what it has performed. -/
theorem next_slow {i : Instr} {op : Nat} {r : NodeRec} {s z : State} {n : Node} {x : Ins} {always : Bool}
    {f : State → Node → Ins → State × Option React} (h : Ready op r s n x)
    (he : exec i s = .next (s.fireSlow op r always f)) (hgo : x.quiet = false ∨ always = true) (hf : f s n x = (z, none)) :
    exec i s = .next z := by
  rw [he, fireSlow_ready h always f hgo, hf]

/-- A node that reacts with no input present ends its instant with a status on X. -/
theorem firesIn_always {i : Instr} {op : Nat} {r : NodeRec} {s z : State} {n : Node} {x : Ins}
    {f : State → Node → Ins → Option (State × React)} {q : React} (h : Ready op r s n x)
    (he : exec i s = .next (s.fireWith op r true f)) (hx : q.x.isSome = true) (hf : f s n x = some (z, q)) : FiresIn i s z n q :=
  firesIn_slow h he (.inr rfl) (.inr hx) (by rw [hf])

/-- A constructive node whose instant begins and ends in one turn with a status on X (R120, R190). -/
theorem fireEarlyS_sends {op : Nat} {r : NodeRec} {s : State} {n : Node} {i : Ins} (h : Ready op r s n i) (hp : n.phase = 0)
    (early : State → Node → Inp → Inp → Inp → Option Status) (f : State → Node → Ins → State × React)
    (hx : (f s n i).2.x.isSome = true) : s.fireEarlyS op r early f = (f s n i).1.settle s.here s.slot n (f s n i).2 true := by
  obtain ⟨-, hrcd⟩ := ready_node h
  obtain ⟨hnode, hfire, hbroken, hroom, hknown, rfl⟩ := h
  have k0 := hknown 0 (by decide)
  have k1 := hknown 1 (by decide)
  have k2 := hknown 2 (by decide)
  have k3 := hknown 3 (by decide)
  have hout : s.room s.here r.outX.toNat = true := by
    simp only [State.outRoom2, Bool.and_eq_true, hrcd] at hroom
    exact hroom.1.1
  unfold State.fireEarlyS
  simp [hnode, hfire, hbroken, hout, k0, k1, k2, k3, hp, hx]

/-! ### Pieces of an instant (R333) -/

/-- A ready node could fire. -/
theorem firing_ready {op : Nat} {r : NodeRec} {s : State} {n : Node} {i : Ins} (h : Ready op r s n i) :
    s.firing s.here s.slot n = some i := by
  obtain ⟨-, hfire, hbroken, hroom, hknown, rfl⟩ := h
  have k0 := hknown 0 (by decide)
  have k1 := hknown 1 (by decide)
  have k2 := hknown 2 (by decide)
  have k3 := hknown 3 (by decide)
  simp [State.firing, hfire, hbroken, hroom, k0, k1, k2, k3]

/-- A turn that names beats performs elements of a ready tile port. -/
theorem piece_tile {op : Nat} {r : NodeRec} {s : State} {n : Node} {i : Ins} (h : Ready op r s n i)
    (hn : (s.coreAt s.here).node s.slot = some n) (hslot : s.slot < 96) (htile : op ≠ 0x86 ∧ op ≠ 0x87) (count : Nat) :
    s.piece count = s.tilePiece s.here s.slot n i (count * (64 / portWidth n.rcd.fmt.toNat)) := by
  have hcopy : s.slot ≠ whoCopy := Nat.ne_of_lt hslot
  obtain ⟨rfl, -⟩ := ready_node h
  simp only [State.piece, hcopy, hn, firing_ready h, htile, if_false, or_self]

end Sys2Proof.Machine
end

section
/-!
SUPPORT. The scratchpad under the memory nodes (R177–R187, R361): banks that no other task holds, keys that are not handed over,
elements written and read back.
-/

namespace Sys2Proof.Machine

/-! ### Banks without tags, keys kept -/

/-- Elements of a core without tagged banks are ready for its task (R361). -/
theorem State.touchAll_untagged {s : State} {p : Nat} (h : (s.coreAt p).bankTags = []) (offs : List Nat) : s.touchAll p offs = s := by
  unfold State.touchAll
  induction banksOf offs with
  | nil => rfl
  | cons b l ih => rw [List.foldl_cons, State.touch_untagged s p _ h, ih]

/-- Bytes written to the scratchpad of a core without tagged banks (R361). -/
theorem State.pokeLocal_untagged {s : State} {p : Nat} (h : (s.coreAt p).bankTags = []) (o : Nat) (bytes : List Byte) :
    s.pokeLocal p o bytes = s.poke (scratchKey p o) bytes := by
  have hspan : s.touchSpan p o bytes.length = s := by
    unfold State.touchSpan
    induction (List.range ((o + bytes.length - 1) / bankBytes + 1 - o / bankBytes)).map (fun i => (o / bankBytes + i) * bankBytes) with
    | nil => rfl
    | cons b l ih => rw [List.foldl_cons, State.touch_untagged s p _ h, ih]
  rw [State.pokeLocal, hspan]

/-- A record whose hand-over level is 0 hands no key over (R179). -/
theorem State.handOver_never {n : Node} (h : n.rcd.k1.extractLsb' 8 3 = 0) (s : State) (p id level : Nat) :
    s.handOver p id n level = (s, n) := by
  simp [State.handOver, h]

@[simp] theorem Node.used_rcd (n : Node) (banks : List Nat) : (n.used banks).rcd = n.rcd := rfl
@[simp] theorem Node.noteError_rcd (n : Node) (h : BitVec 32) : (n.noteError h).rcd = n.rcd := rfl

@[simp] theorem Node.setIndices_rcd (n : Node) (l : Nat) (idx : List Nat) : (n.setIndices l idx).rcd = n.rcd := by
  induction idx generalizing n l with
  | nil => rfl
  | cons k t ih => rw [Node.setIndices, ih, Node.setReg_rcd]

@[simp] theorem Node.setPos_rcd (n : Node) (k : Nat) : (n.setPos k).rcd = n.rcd := Node.setIndices_rcd ..

@[simp] theorem Node.readDone_rcd (n : Node) : n.readDone.rcd = n.rcd := by
  unfold Node.readDone
  dsimp only
  split <;> split <;> rfl

/-! ### Runs of a list -/

/-- Each run of a list, counted from its start. -/
theorem getElem?_chunks {α : Type} {w : Nat} (hw : 0 < w) (i : Nat) : ∀ {fuel : Nat} {l : List α}, l.length ≤ fuel →
    (chunks w fuel l)[i]? = if w * i < l.length then some ((l.drop (w * i)).take w) else none := by
  induction i with
  | zero =>
    intro fuel l hl
    cases l with
    | nil => cases fuel <;> simp [chunks]
    | cons x t =>
      obtain ⟨fuel, rfl⟩ := Nat.exists_eq_succ_of_ne_zero (Nat.ne_of_gt (Nat.lt_of_lt_of_le (Nat.succ_pos _) hl))
      simp [chunks]
  | succ i ih =>
    intro fuel l hl
    cases l with
    | nil => cases fuel <;> simp [chunks]
    | cons x t =>
      obtain ⟨fuel, rfl⟩ := Nat.exists_eq_succ_of_ne_zero (Nat.ne_of_gt (Nat.lt_of_lt_of_le (Nat.succ_pos _) hl))
      have hrest : ((x :: t).drop w).length ≤ fuel := by
        simp only [List.length_drop, List.length_cons] at hl ⊢
        omega
      simp only [chunks, List.getElem?_cons_succ, ih hrest, List.drop_drop, List.length_drop, Nat.mul_succ]
      simp only [Nat.add_comm w (w * i)]
      split <;> split <;> first | rfl | omega

/-- Run i of a list that reaches it. -/
theorem getElem?_chunk {α : Type} {w i : Nat} {l : List α} (hw : 0 < w) (hi : w * i < l.length) :
    (chunk w l)[i]? = some ((l.drop (w * i)).take w) := by
  rw [chunk, getElem?_chunks hw i (Nat.le_refl _), if_pos hi]

/-- The first run of a list that is not empty. -/
theorem chunk_of_ne_nil {α : Type} {l : List α} (h : l ≠ []) (w : Nat) : ∃ t, chunk w l = l.take w :: t := by
  obtain ⟨x, t, rfl⟩ := List.exists_cons_of_ne_nil h
  exact ⟨_, rfl⟩

/-- A run is no longer than its width. -/
theorem length_le_of_mem_chunk {α : Type} {w : Nat} {l run : List α} (h : run ∈ chunk w l) : run.length ≤ w := by
  have hall : ∀ fuel (l : List α), run ∈ chunks w fuel l → run.length ≤ w := by
    intro fuel
    induction fuel with
    | zero => intro l h; simp [chunks] at h
    | succ fuel ih =>
      intro l h
      cases l with
      | nil => simp [chunks] at h
      | cons x t =>
        rcases List.mem_cons.1 h with rfl | h
        · exact List.length_take_le ..
        · exact ih _ h
  exact hall _ _ h

/-! ### Bytes of a range -/

/-- Two memories that agree on a range read alike there. -/
theorem readBytes_congr {m m' : Memory} {a n : Nat} (h : ∀ y, a ≤ y → y < a + n → readCell m y = readCell m' y) :
    readBytes m a n = readBytes m' a n := by
  induction n generalizing a with
  | zero => rfl
  | succ n ih =>
    rw [readBytes, readBytes, h a (Nat.le_refl _) (by omega), ih fun y hlo hhi => h y (by omega) (by omega)]

/-! ### Elements written one after the other -/

/-- The memory with runs of bytes written at offsets of a scratchpad, one after the other. -/
def writeRuns (m : Memory) (p : Nat) (runs : List (Nat × List Byte)) : Memory :=
  runs.foldl (fun m x => writeBytes m (scratchKey p x.1) x.2) m

/-- Elements written are runs of the bytes, and the words they cover together are cured. -/
theorem State.writeElems_eq (s : State) (p w : Nat) (offs : List Nat) (bytes : List Byte) : s.writeElems p w offs bytes =
    ({ s with mem := writeRuns s.mem p (List.zip offs (chunk w bytes)) } : State).cure (offs.map (fun o => (scratchKey p o, w))) := by
  unfold State.writeElems writeRuns
  dsimp only
  congr 1
  induction List.zip offs (chunk w bytes) generalizing s with
  | nil => rfl
  | cons x l ih => rw [List.foldl_cons, ih, List.foldl_cons]

/-- A byte outside every run is as before. -/
theorem readCell_writeRuns_of_ne {p y : Nat} {runs : List (Nat × List Byte)} {m : Memory} (hm : Memory.wf m = true)
    (h : ∀ x ∈ runs, y < scratchKey p x.1 ∨ scratchKey p x.1 + x.2.length ≤ y) : readCell (writeRuns m p runs) y = readCell m y := by
  induction runs generalizing m with
  | nil => rfl
  | cons x l ih =>
    obtain ⟨hx, hl⟩ := List.forall_mem_cons.1 h
    exact (ih (writeBytes_wf hm) hl).trans (readCell_writeBytes_of_ne hm hx)

/-- Two runs of bytes that have no byte in common. -/
def Apart (x y : Nat × List Byte) : Prop := x.1 + x.2.length ≤ y.1 ∨ y.1 + y.2.length ≤ x.1

/-- Bytes apart from every run read as before. -/
theorem readBytes_writeRuns_of_apart {p o n : Nat} {runs : List (Nat × List Byte)} {m : Memory} (hm : Memory.wf m = true)
    (h : ∀ x ∈ runs, o + n ≤ x.1 ∨ x.1 + x.2.length ≤ o) :
    readBytes (writeRuns m p runs) (scratchKey p o) n = readBytes m (scratchKey p o) n :=
  readBytes_congr fun y hlo hhi => readCell_writeRuns_of_ne hm fun x hx => by
    have := h x hx
    simp only [scratchKey] at hlo hhi ⊢
    omega

/-- Runs that lie apart read back what was written. -/
theorem readBytes_writeRuns_of_mem {p : Nat} {runs : List (Nat × List Byte)} {m : Memory} (hm : Memory.wf m = true)
    (hapart : runs.Pairwise Apart) {x : Nat × List Byte} (hx : x ∈ runs) :
    readBytes (writeRuns m p runs) (scratchKey p x.1) x.2.length = x.2 := by
  induction runs generalizing m with
  | nil => simp at hx
  | cons y l ih =>
    obtain ⟨hy, hl⟩ := List.pairwise_cons.1 hapart
    rcases List.mem_cons.1 hx with rfl | hx
    · exact (readBytes_writeRuns_of_apart (writeBytes_wf hm) hy).trans (readBytes_writeBytes hm)
    · exact ih (writeBytes_wf hm) hl hx

/-- Elements of one width that do not overlap give runs that lie apart. -/
theorem zip_chunk_apart {w : Nat} {offs : List Nat} (h : offs.Pairwise (fun o e => o + w ≤ e ∨ e + w ≤ o)) (bytes : List Byte) :
    (List.zip offs (chunk w bytes)).Pairwise Apart := by
  refine List.pairwise_iff_getElem.2 fun i j hi hj hij => ?_
  obtain ⟨hio, hib⟩ := Nat.lt_min.1 (Nat.lt_of_lt_of_eq hi List.length_zip)
  obtain ⟨hjo, hjb⟩ := Nat.lt_min.1 (Nat.lt_of_lt_of_eq hj List.length_zip)
  have hij := List.pairwise_iff_getElem.1 h i j hio hjo hij
  have hiw := length_le_of_mem_chunk (List.getElem_mem hib)
  have hjw := length_le_of_mem_chunk (List.getElem_mem hjb)
  simp only [Apart, List.getElem_zip]
  omega

end Sys2Proof.Machine
end

section
/-!
SUPPORT. The memory nodes of chapter 08 (R104, R183–R191): what each makes of a burst of data where the keys of its banks are held, it is
its turn in the tile and no word it reads is uncorrectable.
-/

namespace Sys2Proof.Machine

open Claim

/-! ### What writing elements leaves (R180, R184, R333) -/

@[simp] theorem length_bytesOfBurst (b : Burst) : (bytesOfBurst b).length = b.beats.length * 64 := by
  unfold bytesOfBurst
  induction b.beats with
  | nil => rfl
  | cons x l ih => simp [bytesOfBeat, ih]; omega

/-- The elements of width w that a burst holds lie in its bytes. -/
theorem mul_burst_elements_le (b : Burst) (w most : Nat) : w * min (b.beats.length * 64 / w) most ≤ (bytesOfBurst b).length := by
  rw [length_bytesOfBurst]
  exact Nat.le_trans (Nat.mul_le_mul_left w (Nat.min_le_left ..)) (Nat.mul_div_le ..)

section
variable {s : State} {p w : Nat} (hs : s.Canonical)
include hs

/-- A byte of no element is as before. -/
theorem State.readCell_writeElems_of_ne {y : Nat} {offs : List Nat} {bytes : List Byte}
    (h : ∀ o ∈ offs, y < scratchKey p o ∨ scratchKey p o + w ≤ y) :
    readCell (s.writeElems p w offs bytes).mem y = readCell s.mem y := by
  rw [State.writeElems_eq]
  refine readCell_writeRuns_of_ne hs fun x hx => ?_
  obtain ⟨hoff, hrun⟩ := List.of_mem_zip hx
  have hle := length_le_of_mem_chunk hrun
  have := h x.1 hoff
  omega

/-- Bytes apart from every element read as before. -/
theorem State.peek_writeElems_of_apart {o : Nat} {offs : List Nat} {bytes : List Byte}
    (h : ∀ e ∈ offs, o + w ≤ e ∨ e + w ≤ o) :
    (s.writeElems p w offs bytes).peek (scratchKey p o) w = s.peek (scratchKey p o) w :=
  readBytes_congr fun y hlo hhi => State.readCell_writeElems_of_ne hs fun e he => by
    have := h e he
    simp only [scratchKey] at hlo hhi ⊢
    omega

/-- Elements that do not overlap read back the bytes that were cut for them. -/
theorem State.peek_writeElems {offs : List Nat} {bytes : List Byte} {j o : Nat} (hw : 0 < w)
    (hpair : offs.Pairwise (fun o e => o + w ≤ e ∨ e + w ≤ o)) (hj : offs[j]? = some o) (hlen : w * (j + 1) ≤ bytes.length) :
    (s.writeElems p w offs bytes).peek (scratchKey p o) w = (bytes.drop (w * j)).take w := by
  rw [Nat.mul_succ] at hlen
  have hrun : ((bytes.drop (w * j)).take w).length = w := by
    rw [List.length_take, List.length_drop]
    omega
  have hmem : (o, (bytes.drop (w * j)).take w) ∈ List.zip offs (chunk w bytes) :=
    List.mem_of_getElem? (i := j) (List.getElem?_zip_eq_some.2 ⟨hj, getElem?_chunk hw (by omega)⟩)
  have hread := readBytes_writeRuns_of_mem (p := p) hs (zip_chunk_apart hpair bytes) hmem
  rw [hrun] at hread
  rw [State.writeElems_eq]
  exact hread

/-- The elements of a burst written from one on: they read back the burst's bytes, those before them as before. -/
theorem State.peek_writeElems_drop {offs : List Nat} {bytes : List Byte} (prog : Nat) (hlen : w * offs.length ≤ bytes.length)
    (hpair : offs.Pairwise (fun o e => o + w ≤ e ∨ e + w ≤ o)) :
    let z := s.writeElems p w (offs.drop prog) (bytes.drop (w * prog))
    (∀ j, prog ≤ j → j < offs.length → z.peek (scratchKey p (offs.getD j 0)) w = (bytes.drop (w * j)).take w) ∧
      ∀ j, j < prog → z.peek (scratchKey p (offs.getD j 0)) w = s.peek (scratchKey p (offs.getD j 0)) w := by
  refine ⟨fun j hprog hj => ?_, fun j hj => State.peek_writeElems_of_apart hs fun e he => ?_⟩
  · obtain ⟨d, rfl⟩ := Nat.exists_eq_add_of_le hprog
    rcases Nat.eq_zero_or_pos w with rfl | hw
    · simp [State.peek, readBytes]
    · have hget : (offs.drop prog)[d]? = some (offs.getD (prog + d) 0) := by simp [hj]
      have hroom : w * (prog + d + 1) ≤ w * offs.length := Nat.mul_le_mul_left w hj
      rw [State.peek_writeElems hs hw (hpair.sublist (List.drop_sublist ..)) hget, List.drop_drop, ← Nat.mul_add]
      rw [List.length_drop]
      simp only [Nat.mul_add] at hroom ⊢
      omega
  · have hlen : j < offs.length := by
      have := List.length_pos_of_mem he
      rw [List.length_drop] at this
      omega
    rw [← List.take_append_drop prog offs] at hpair
    refine (List.pairwise_append.1 hpair).2.2 _ ?_ e he
    rw [List.getD_eq_getElem?_getD, List.getElem?_eq_getElem hlen, Option.getD_some]
    exact List.mem_take_iff_getElem.2 ⟨j, by omega, rfl⟩

end

/-! ### Ports bound to the tile (R183, R184) -/

@[simp] theorem Node.length_walk (n : Node) (k : Nat) : (n.walk k).length = k := by simp [Node.walk]

section
variable {s : State} {n : Node} (htags : (s.coreAt s.here).bankTags = []) (hkeep : n.rcd.k1.extractLsb' 8 3 = 0)
  (hbound : n.bound = true) (hplane : n.planeAt n.burst = none)
include htags hkeep hbound hplane

/-- MRD gives its next elements, those that it holds first (R183, R333). -/
theorem mrdReact_bound {k : Nat} (hk : min (perBurst n.rcd) (n.pattern.total - n.pos) = k)
    (hkeys : s.keysHeld s.here s.slot (banksOf (n.walk k)) = true)
    (hturn : s.tileTurn s.here s.slot n (spansOf (portWidth n.rcd.fmt.toNat) (n.walk k)) = true)
    (hgood : s.badElem s.here (portWidth n.rcd.fmt.toNat) ((n.walk k).drop n.prog) = none) (i : Ins) :
    mrdReact s n i = some (s, onXY (((n.setPos (n.pos + k)).readDone).used (banksOf (n.walk k)))
      (some (dataBurst 0 n.texp (beatsOfBytes (blenOf n.rcd) (s.readRest s.here (portWidth n.rcd.fmt.toNat) n (n.walk k)))))
      (some (doneToken k 0))) := by
  have hbad : s.badRead s.here (portWidth n.rcd.fmt.toNat) ((n.walk k).drop n.prog) none = none := by simp [State.badRead, hgood]
  simp only [mrdReact, hbound, hk, hplane, Option.toList_none, List.append_nil, hkeys, spansOf, List.map_nil]
  simp only [spansOf] at hturn
  simp only [hturn, Bool.not_true, Bool.or_self, Bool.false_eq_true, if_false, State.touchAll_untagged htags, hbad]
  rw [State.handOver_never (by simpa using hkeep)]

/-- MWR writes its next elements; those beyond the pattern's end are noted (R184). -/
theorem mwrReact_bound {i : Ins} {a : Burst} (hia : i.a = some a) (ha : IsData a) {k : Nat}
    (hk : min (a.beats.length * 64 / portWidth n.rcd.fmt.toNat) (n.pattern.total - n.pos) = k)
    (hkeys : s.keysHeld s.here s.slot (banksOf (n.walk k)) = true)
    (hturn : s.tileTurn s.here s.slot n (spansOf (portWidth n.rcd.fmt.toNat) (n.walk k)) = true) :
    let m : Node := { (n.setPos (n.pos + k)).used (banksOf (n.walk k)) with burst := n.burst + 1 }
    mwrReact s n i = some (s.writeRest s.here (portWidth n.rcd.fmt.toNat) n (n.walk k) (bytesOfBurst a),
      onX (if k < a.beats.length * 64 / portWidth n.rcd.fmt.toNat then m.noteError (errToken 0x28 0 (hdrLevel a.hdr)).hdr else m)
        (some (doneToken k (hdrLevel a.hdr)))) := by
  intro m
  have hkind : hdrKind a.hdr = 0 := ha
  simp only [mwrReact, hia, hkind, if_true, mwrData, hbound, hk, hplane, Option.toList_none, List.append_nil, hkeys, spansOf, List.map_nil]
  simp only [spansOf] at hturn
  simp only [hturn, Bool.not_true, Bool.or_self, Bool.false_eq_true, if_false, State.touchAll_untagged htags]
  rw [State.handOver_never (by split <;> simpa using hkeep)]

end

/-! ### Pieces of a burst (R333) -/

/-- A tile port whose keys are held and whose turn it is may perform elements before the last beat. -/
theorem mayPiece_of {s : State} {p id : Nat} {n : Node} {offs : List Nat} {most : Nat} (hmore : n.prog + most < offs.length)
    (hkeys : s.keysHeld p id (banksOf offs) = true)
    (hturn : s.tileTurn p id n (spansOf (portWidth n.rcd.fmt.toNat) offs) = true) : s.mayPiece p id n offs most = true := by
  simp only [State.mayPiece, hmore, hkeys, hturn, decide_true, Bool.and_self]

/-- A piece of a reading port's burst: its elements held (R183, R333). -/
theorem tilePiece_reads {s : State} {p id : Nat} {n : Node} {i : Ins} {offs : List Nat} {most : Nat}
    (htags : (s.coreAt p).bankTags = []) (hreads : n.reads i = some offs) (hmay : s.mayPiece p id n offs most = true) :
    let w := portWidth n.rcd.fmt.toNat
    let run := (offs.drop n.prog).take most
    s.badElem p w run = none → s.tilePiece p id n i most =
      s.setNode p id { n with prog := n.prog + most, part := n.part ++ (s.readElems p w run).map BitVec.toNat } := by
  intro w run hgood
  simp only [State.tilePiece, hreads, hmay, State.touchAll_untagged htags]
  exact if_neg (by simpa using hgood)

/-- A piece of a writing port's burst: its elements written (R184, R333). -/
theorem tilePiece_writes {s : State} {p id : Nat} {n : Node} {i : Ins} {offs : List Nat} {b : Burst} {most : Nat}
    (htags : (s.coreAt p).bankTags = []) (hreads : n.reads i = none) (hwrites : n.writes i = some (offs, b))
    (hmay : s.mayPiece p id n offs most = true) : s.tilePiece p id n i most =
      (s.writeElems p (portWidth n.rcd.fmt.toNat) ((offs.drop n.prog).take most)
        ((bytesOfBurst b).drop (portWidth n.rcd.fmt.toNat * n.prog))).setNode p id { n with prog := n.prog + most } := by
  simp only [State.tilePiece, hreads, hwrites, hmay, State.touchAll_untagged htags]
  exact if_neg (by simp)

/-! ### Indexed ports (R104, R186) -/

section
variable {s : State} {n : Node} (htags : (s.coreAt s.here).bankTags = []) (hkeep : n.rcd.k1.extractLsb' 8 3 = 0) {offs : List Nat}
  (hkeys : s.keysHeld s.here s.slot (banksOf offs) = true)
  (hturn : s.tileTurn s.here s.slot n (spansOf (portWidth n.rcd.fmt.toNat) offs) = true)
include htags hkeep hkeys hturn

/-- MIRD gives the elements that its tokens select, those that it holds first (R104, R333). -/
theorem mirdReact_selected {i : Ins} {a : Burst} (hia : i.a = some a) (ha : IsData a) (hsel : n.select a = .ok offs)
    (hfit : offs.length * portWidth n.rcd.fmt.toNat ≤ 64 * blenOf n.rcd)
    (hgood : s.badElem s.here (portWidth n.rcd.fmt.toNat) (offs.drop n.prog) = none) :
    mirdReact s n i = some (s, onXY (n.used (banksOf offs))
      (some (dataBurst (hdrLevel a.hdr) n.texp (beatsOfBytes (blenOf n.rcd) (s.readRest s.here (portWidth n.rcd.fmt.toNat) n offs))))
      (some (doneToken offs.length (hdrLevel a.hdr)))) := by
  have hkind : hdrKind a.hdr = 0 := ha
  simp only [mirdReact, hia, isErr_of_data ha, isEmpty_of_data ha, hkind, hsel, hkeys, hturn, Bool.not_true, Bool.or_self,
    Bool.false_eq_true, if_false, ne_eq, not_true_eq_false, Nat.not_lt.2 hfit, State.touchAll_untagged htags, hgood]
  rw [State.handOver_never (by simpa using hkeep)]

/-- MIWR and MRMW act on the elements that C's tokens select (R186). -/
theorem indexedWrite_selected {i : Ins} {a c : Burst} (hia : i.a = some a) (hic : i.c = some c) (ha : IsData a) (hc : IsData c)
    (hsel : n.select c = .ok offs) (hfit : offs.length * portWidth n.rcd.fmt.toNat ≤ a.beats.length * 64)
    {f : State → Node → List Nat → Burst → State × Node × Nat} {z : State} {m : Node} {count : Nat}
    (hf : f s (n.used (banksOf offs)) offs a = (z, m, count)) (hrcd : m.rcd = n.rcd) :
    indexedWrite f s n i = some (z, onX m (some (doneToken count (max (hdrLevel a.hdr) (hdrLevel c.hdr))))) := by
  have hfind : [a, c].find? isErr = none := by simp [isErr_of_data ha, isErr_of_data hc]
  have hodd : [a, c].filter (fun b => !isErr b && !isData b) = [] := by simp [isData_of_data ha, isData_of_data hc]
  have hgate : ∀ abs kept, absGate abs [some a, some c] kept = .go [some a, some c] := absGate_present (bs := [a, c]) (by simp)
  simp only [indexedWrite, hia, hic, presentOf_cons_some, presentOf_nil, hfind, hodd, hgate, isEmpty_of_data ha, isEmpty_of_data hc,
    hsel, hkeys, hturn, Bool.not_true, Bool.or_self, Bool.false_eq_true, if_false, Nat.not_lt.2 hfit, State.touchAll_untagged htags, hf,
    List.isEmpty_nil, maxLevel_two]
  rw [State.handOver_never (by rw [hrcd]; exact hkeep)]

end

/-- MRMW on one element of which nothing has been performed, in a beat without an uncorrectable word (R186). -/
theorem mrmwCore_one {s : State} {n : Node} {o : Nat} {a : Burst} (hprog : n.prog = 0) (hpart : n.part = [])
    (hgood : s.badIn (scratchKey s.here (64 * (o / 64))) 64 = false) (hw : 0 < portWidth n.rcd.fmt.toNat)
    (hfit : portWidth n.rcd.fmt.toNat ≤ a.beats.length * 64) :
    let w := portWidth n.rcd.fmt.toNat
    let v := rmwElem n (hdrBeta a.hdr) 0 (s.peekLocalNat s.here o w) (natOfBytes ((bytesOfBurst a).take w))
    mrmwCore s n [o] a = ({ s with mem := writeBytes s.mem (scratchKey s.here o) (bytesOfNat v.1 w) }, n.flag v.2, 1) := by
  intro w v
  have hne : bytesOfBurst a ≠ [] := List.ne_nil_of_length_pos (by rw [length_bytesOfBurst]; omega)
  obtain ⟨t, hrun⟩ := chunk_of_ne_nil hne w
  have hone : (((List.zip [o] (chunk w (bytesOfBurst a))).zipIdx).drop n.prog).take 1 = [((o, (bytesOfBurst a).take w), 0)] := by
    simp [hrun, hprog]
  simp only [mrmwCore, mrmwRun, List.length_singleton, hpart, List.drop_nil, List.headD_nil]
  rw [hone]
  simp only [List.foldl_cons, List.foldl_nil, rmwStep, List.contains_nil, Bool.false_eq_true, if_false, hgood]
  rfl

/-! ### FIFO and line buffer (R190, R191) -/

/-- An empty FIFO gives nothing, loses nothing and has no uncorrectable entry. -/
theorem State.fifo_empty {s : State} {p : Nat} {m : MemMode} {n : Node} (h : n.reg 5 = 0) :
    s.fifoBad p m n = none ∧ s.fifoHead p m n = none ∧ s.fifoPop p m n = n :=
  ⟨if_pos h, if_pos h, if_pos h⟩

/-- A FIFO that holds an entry gives a status. -/
theorem State.fifoHead_isSome {s : State} {p : Nat} {m : MemMode} {n : Node} (h : n.reg 5 ≠ 0) : (s.fifoHead p m n).isSome = true := by
  simp only [State.fifoHead, h, if_false]
  split <;> rfl

/-- MFIFO ends its instant in answer to A, or with its oldest entry. -/
theorem firesIn_mfifo {r : NodeRec} {s z : State} {n : Node} {i : Ins} {q : React} (h : Ready 0x88 r s n i) (hp : n.phase = 0)
    (hbusy : i.quiet = false ∨ q.x.isSome = true) (hf : mfifoReact s n i = (z, q)) : FiresIn (.mfifo r) s z n q := by
  have he : exec (.mfifo r) s = .next (s.fireEarlyS 0x88 r mfifoEarly mfifoReact) := rfl
  rw [FiresIn, he]
  rcases hbusy with hbusy | hbusy
  · rw [fireEarlyS_ready h hp _ _ hbusy, hf]
  · rw [fireEarlyS_sends h hp _ _ (by rw [hf]; exact hbusy), hf]

section
variable {s : State} {n : Node} {i : Ins} {m : MemMode} (htags : (s.coreAt s.here).bankTags = [])
  (hmode : s.modeRegion s.here 2 s.slot = some m)
include htags hmode

/-- MFIFO without A: its oldest entry goes; that of one with an uncorrectable word is recorded (R190, R405). -/
theorem mfifoReact_lost {o : Nat} (hia : i.a = none) (hbad : s.fifoBad s.here m n = some o) :
    mfifoReact s n i = (s.portFault s.here s.slot n 0x10 0 o true [], onX (s.fifoPop s.here m n) (s.fifoHead s.here m n)) := by
  simp only [mfifoReact, hmode, State.touchAll_untagged htags, hbad, hia]

/-- MFIFO without A: its oldest entry goes, nothing else changes (R190). -/
theorem mfifoReact_gives (hia : i.a = none) (hgood : s.fifoBad s.here m n = none) :
    mfifoReact s n i = (s, onX (s.fifoPop s.here m n) (s.fifoHead s.here m n)) := by
  simp only [mfifoReact, hmode, State.touchAll_untagged htags, hgood, hia]

/-- An empty MFIFO appends A (R190). -/
theorem mfifoReact_appends {a : Burst} (hia : i.a = some a) (hempty : n.reg 5 = 0) :
    mfifoReact s n i = ((s.fifoPush s.here m n a).1, onX (s.fifoPush s.here m n a).2 none) := by
  obtain ⟨hgood, hhead, hpop⟩ := State.fifo_empty (s := s) (p := s.here) (m := m) hempty
  simp only [mfifoReact, hmode, State.touchAll_untagged htags, hgood, hhead, hpop, hia]

end

/-- The bytes of a row of a line buffer: its elements, filled to whole beats (R191). -/
def MemMode.rowBytes (m : MemMode) (w : Nat) : Nat := ((m.param.extractLsb' 0 16).toNat * w + 63) / 64 * 64

/-- The rows that a line buffer keeps (R191). -/
def MemMode.rowCount (m : MemMode) : Nat := (m.param.extractLsb' 16 3).toNat + 1

/-- The package with MLINE's next row written (R191). -/
def State.lineWritten (s : State) (m : MemMode) (n : Node) (a : Burst) : State :=
  s.poke (scratchKey s.here (m.start + (n.reg 3).toNat % m.rowCount * m.rowBytes (portWidth n.rcd.fmt.toNat))) (bytesOfBurst a)

/-- The rows of a line buffer once one more has been written, oldest first. -/
def MemMode.rowOrder (m : MemMode) (rc : Nat) : List Nat := (List.range m.rowCount).map (fun k => (rc + 1 + k) % m.rowCount)

section
variable {s : State} {n : Node} {i : Ins} {m : MemMode} {a : Burst} (hmode : s.modeRegion s.here 3 s.slot = some m) (hia : i.a = some a)
  (ha : IsData a)
include hmode hia ha

/-- A row of another length than the line buffer's is a mismatch (R191). -/
theorem mlineReact_mismatch (hlen : a.beats.length * 64 ≠ m.rowBytes (portWidth n.rcd.fmt.toNat)) :
    mlineReact s n i = some (s, { failed (lineReset n (hdrLevel a.hdr)) 0x21 (hdrLevel a.hdr) with y := none }) := by
  simp only [mlineReact, hia, kindToken_one (isData_of_data ha), isEmpty_of_data ha, hmode, Bool.false_eq_true, if_false]
  exact if_pos hlen

variable (htags : (s.coreAt s.here).bankTags = []) (hlen : a.beats.length * 64 = m.rowBytes (portWidth n.rcd.fmt.toNat))
include htags hlen

/-- A row before the line buffer holds enough of them (R191). -/
theorem mlineReact_fills (hfew : (n.reg 3).toNat + 1 < m.rowCount) :
    mlineReact s n i = some (s.lineWritten m n a,
      onX (lineReset (n.setReg 3 (BitVec.ofNat 32 ((n.reg 3).toNat + 1))) (hdrLevel a.hdr)) none) := by
  simp only [mlineReact, hia, kindToken_one (isData_of_data ha), isEmpty_of_data ha, hmode, Bool.false_eq_true, if_false,
    State.pokeLocal_untagged htags]
  exact (if_neg (not_not_intro hlen)).trans (if_pos hfew)

/-- A row that completes windows (R191). -/
theorem mlineReact_windows (hfull : m.rowCount ≤ (n.reg 3).toNat + 1)
    (hgood : ∀ e ∈ m.rowOrder (n.reg 3).toNat, (s.lineWritten m n a).badIn
      (scratchKey s.here (m.start + e * m.rowBytes (portWidth n.rcd.fmt.toNat))) (m.rowBytes (portWidth n.rcd.fmt.toNat)) = false) :
    let width := (m.param.extractLsb' 0 16).toNat
    mlineReact s n i = some (s.lineWritten m n a,
      onX (lineReset (n.setReg 3 (BitVec.ofNat 32 ((n.reg 3).toNat + 1))) (hdrLevel a.hdr))
        (some (dataBurst (hdrLevel a.hdr) 0 (beatsOfBytes (blenOf n.rcd) (windowsOf ((m.rowOrder (n.reg 3).toNat).map
          (fun e => (s.lineWritten m n a).lineRow s.here m e width (portWidth n.rcd.fmt.toNat))) width
          ((m.param.extractLsb' 20 3).toNat + 1)))))) := by
  intro width
  have hfind : ((m.rowOrder (n.reg 3).toNat).map (fun e => m.start + e * m.rowBytes (portWidth n.rcd.fmt.toNat))).find?
      (fun o => (s.lineWritten m n a).badIn (scratchKey s.here o) (m.rowBytes (portWidth n.rcd.fmt.toNat))) = none :=
    List.find?_eq_none.2 fun o ho => by
      obtain ⟨e, he, rfl⟩ := List.mem_map.1 ho
      simp [hgood e he]
  simp only [mlineReact, hia, kindToken_one (isData_of_data ha), isEmpty_of_data ha, hmode, Bool.false_eq_true, if_false,
    State.pokeLocal_untagged htags]
  refine (if_neg (not_not_intro hlen)).trans ((if_neg (Nat.not_lt.2 hfull)).trans ?_)
  unfold State.lineWritten MemMode.rowOrder MemMode.rowBytes MemMode.rowCount at hfind
  rw [hfind]
  rfl

end

/-! ### Hub reads (R189) -/

/-- MGRP reads its trigger's tokens as the tokens of any one-beat burst. -/
theorem mgrpReact_tokAt1 (b : Burst) (k : Nat) : mgrpReact.tokAt1 b k = tokAt b k := by
  unfold mgrpReact.tokAt1 tokAt
  cases b.beats with
  | nil => exact BitVec.extractLsb'_zero ..
  | cons x t => rfl

/-- The hub read that a trigger of MGRP begins (R189). -/
def hubJob (n : Node) (wheel : Wheel) (a : Burst) : HubJob :=
  { wheel := some wheel, off := (tokAt a 0).toNat, beats := blenOf n.rcd, phase := (tokAt a 1).extractLsb' 0 16, dest := 0 }

/-- A trigger of MGRP begins a hub read of its wheel, whose format is the node's (R189). -/
theorem mgrpReact_begins {s : State} {n : Node} {i : Ins} {a : Burst} {wheel : Wheel} (hia : i.a = some a) (ha : IsData a)
    (hlen : a.beats.length = 1) (hres : n.hubRes = none) (hhub : n.hub = none)
    (hwheel : s.wheelAt s.here (n.rcd.k0.extractLsb' 0 4).toNat = some wheel) (hfmt : wheel.fmt = n.rcd.fmt.toNat) :
    mgrpReact s n i = (s.setNode s.here s.slot { n with hub := some (hubJob n wheel a) }, none) := by
  simp only [mgrpReact, hia, hres, hhub, kindToken_one (isData_of_data ha), hlen, hwheel, hfmt, beq_self_eq_true, Bool.not_true,
    Bool.false_eq_true, if_false, ne_eq, not_true_eq_false, mgrpReact_tokAt1]
  rfl

end Sys2Proof.Machine
end

section
/-!
PROOFS. The memory nodes of chapter 08: O40.
-/

open Sys2Proof Sys2Proof.Machine Sys2Proof.Claim

/-- Settles O40: no bank is tagged and no key handed over, so that each node does what its reaction does on data (`mrdReact_bound`,
`mwrReact_bound`, `mirdReact_selected`, `indexedWrite_selected`, …), and a turn that names beats performs a piece (`piece_tile`);
what MWR leaves in memory is what `State.peek_writeElems_drop` says of the elements from the first not yet performed on. -/
theorem memoryNodes : Obligations.MemoryNodes := by
  intro r s n i a c hs
  dsimp only
  intro htags hkeep
  refine ⟨fun h hbound hplane hfree => ?mrd, fun h hia ha hbound hplane hfree => ?mwr,
    fun h hia ha offs hsel hfit hfree hgood => ?mird, fun hia ha hic hc offs hsel hfit hfree => ⟨fun h => ?miwr, ?mrmw⟩,
    fun hbound _ => ⟨fun h => ?mgld, fun h hia ha => ?mgst⟩, fun mode h hphase hmode => ?mfifo, fun mode h hia ha hmode => ?mline,
    fun h hia ha hlen => ?mgrp⟩
  case mrd =>
    obtain ⟨hop, rfl⟩ := ready_node h
    obtain ⟨hkeys, hturn⟩ := hfree
    refine ⟨fun hgood => firesIn_always h rfl rfl (mrdReact_bound htags hkeep hbound hplane rfl hkeys hturn hgood i),
      fun count hn hslot hmore hgood => ?_⟩
    rw [piece_tile h hn hslot (by decide)]
    exact tilePiece_reads htags (by simp only [Node.reads, hop, hbound, if_true]; rfl)
      (mayPiece_of (Nat.lt_of_lt_of_eq hmore (n.length_walk _).symm) hkeys hturn) hgood
  case mwr =>
    obtain ⟨hop, rfl⟩ := ready_node h
    obtain ⟨hkeys, hturn⟩ := hfree
    have busy : i.quiet = false := by simp [Ins.quiet, hia]
    refine ⟨⟨_, firesIn_with h rfl busy (mwrReact_bound htags hkeep hbound hplane hia ha rfl hkeys hturn), ?_, fun y hy => ?_,
      fun hpair => ?_⟩, fun count hn hslot hmore => ?_⟩
    · rw [State.writeRest, State.writeElems_eq]
      rfl
    · exact State.readCell_writeElems_of_ne hs fun o ho => hy o (List.mem_of_mem_drop ho)
    · have hlen := Nat.le_trans (Nat.le_of_eq (congrArg (portWidth n.rcd.fmt.toNat * ·) (n.length_walk _)))
        (mul_burst_elements_le a (portWidth n.rcd.fmt.toNat) (n.pattern.total - n.pos))
      obtain ⟨hwritten, hkept⟩ := State.peek_writeElems_drop hs (p := s.here) n.prog hlen hpair
      exact ⟨fun j hlo hhi => hwritten j hlo (by rwa [Node.length_walk]), hkept⟩
    · rw [piece_tile h hn hslot (by decide)]
      have hkind : hdrKind a.hdr = 0 := ha
      exact tilePiece_writes htags (by simp only [Node.reads, hop])
        (by simp only [Node.writes, hop, hia, hkind, hbound]; rfl)
        (mayPiece_of (Nat.lt_of_lt_of_eq hmore (n.length_walk _).symm) hkeys hturn)
  case mird =>
    obtain ⟨-, rfl⟩ := ready_node h
    obtain ⟨hkeys, hturn⟩ := hfree
    exact firesIn_with h rfl (by simp [Ins.quiet, hia]) (mirdReact_selected htags hkeep hkeys hturn hia ha hsel hfit hgood)
  case miwr =>
    obtain ⟨-, rfl⟩ := ready_node h
    obtain ⟨hkeys, hturn⟩ := hfree
    exact firesIn_with h rfl (by simp [Ins.quiet, hia])
      (indexedWrite_selected htags hkeep hkeys hturn hia hic ha hc hsel hfit rfl rfl)
  case mrmw =>
    rintro h o rfl hprog hpart hgood hw
    obtain ⟨-, rfl⟩ := ready_node h
    obtain ⟨hkeys, hturn⟩ := hfree
    exact firesIn_with h rfl (by simp [Ins.quiet, hia])
      (indexedWrite_selected htags hkeep hkeys hturn hia hic ha hc hsel hfit
        (mrmwCore_one (n := n.used (banksOf [o])) hprog hpart hgood hw (by simpa using hfit)) rfl)
  case mgld =>
    obtain ⟨-, rfl⟩ := ready_node h
    have hbegins : (!n.bound) ≠ true := by simp [hbound]
    refine ⟨fun hdone hphase => firesIn_slow h rfl (.inr rfl) (.inr rfl) ?_, fun hstuck => next_slow h rfl (.inr rfl) ?_⟩
    · refine (if_neg hbegins).trans ((if_neg (by simp [hdone])).trans ?_)
      rw [if_neg hphase]
    · exact (if_neg hbegins).trans (if_pos hstuck)
  case mgst =>
    obtain ⟨-, rfl⟩ := ready_node h
    have hkind : hdrKind a.hdr = 0 := ha
    have busy : i.quiet = false := by simp [Ins.quiet, hia]
    refine ⟨fun hdone => firesIn_slow h rfl (.inl busy) (.inl busy) ?_, fun hstuck => next_slow h rfl (.inl busy) ?_⟩
    · simp only [mgstReact, hia, hkind, hbound, ne_eq, not_true_eq_false, Bool.not_true, Bool.false_eq_true, if_false]
      exact if_neg (by simp [hdone])
    · simp only [mgstReact, hia, hkind, hbound, ne_eq, not_true_eq_false, Bool.not_true, Bool.false_eq_true, if_false]
      exact if_pos hstuck
  case mfifo =>
    refine ⟨fun o hia hbad => ?_, fun hia hsome hgood => ?_, fun hia hempty _ => ?_⟩
    · have hsome : n.reg 5 ≠ 0 := fun hempty => by simp [(State.fifo_empty hempty).1] at hbad
      exact firesIn_mfifo h hphase (.inr (State.fifoHead_isSome hsome)) (mfifoReact_lost htags hmode hia hbad)
    · exact firesIn_mfifo h hphase (.inr (State.fifoHead_isSome hsome)) (mfifoReact_gives htags hmode hia hgood)
    · exact firesIn_mfifo h hphase (.inl (by simp [Ins.quiet, hia])) (mfifoReact_appends htags hmode hia hempty)
  case mline =>
    obtain ⟨-, rfl⟩ := ready_node h
    have busy : i.quiet = false := by simp [Ins.quiet, hia]
    exact ⟨fun hlen => firesIn_with h rfl busy (mlineReact_mismatch hmode hia ha hlen),
      fun hlen => ⟨fun hfew => firesIn_with h rfl busy (mlineReact_fills hmode hia ha htags hlen hfew),
        fun hfull hgood => firesIn_with h rfl busy (mlineReact_windows hmode hia ha htags hlen hfull hgood)⟩⟩
  case mgrp =>
    obtain ⟨-, rfl⟩ := ready_node h
    have busy : i.quiet = false := by simp [Ins.quiet, hia]
    refine ⟨fun y hy => firesIn_slow h rfl (.inl busy) (.inl busy) (by simp only [mgrpReact, hy]), fun wheel hres hhub hwheel hfmt => ?_⟩
    exact ⟨hubJob n wheel a, next_slow h rfl (.inl busy) (mgrpReact_begins hia ha hlen hres hhub hwheel hfmt), rfl, rfl, rfl, rfl⟩

end

section
/-!
SUPPORT. What a change of configurations leaves, and what a change of regions, teams and channels does: the operations that firing,
boundary records and the events of a region are made of.
-/

namespace Sys2Proof.Machine

open Claim

/-! ### Lists and tables -/

/-- A list's entries after one is changed. -/
theorem getElem?_lmod {α : Type} (f : α → α) : ∀ (l : List α) (k j : Nat), (lmod l k f)[j]? = if j = k then l[j]?.map f else l[j]?
  | [], _, _ => by simp [lmod]
  | x :: t, 0, 0 => by simp [lmod]
  | x :: t, 0, j + 1 => by simp [lmod]
  | x :: t, k + 1, 0 => by simp [lmod]
  | x :: t, k + 1, j + 1 => by simpa [lmod] using getElem?_lmod f t k j

/-- What a change of one entry leaves of all entries is what it leaves of that one. -/
theorem map_lmod {α β : Type} {h : α → β} {f : α → α} (hf : ∀ x, h (f x) = h x) : ∀ (l : List α) (k : Nat), (lmod l k f).map h = l.map h
  | [], _ => rfl
  | x :: t, 0 => by simp [lmod, hf]
  | x :: t, k + 1 => by simp [lmod, map_lmod hf t k]

/-- A relation that every step of a fold keeps. -/
theorem foldl_rel {α σ : Type} {R : σ → σ → Prop} (refl : ∀ z, R z z) (trans : ∀ {x y z}, R x y → R y z → R x z) {f : σ → α → σ}
    (hf : ∀ z a, R z (f z a)) : ∀ (l : List α) (z : σ), R z (l.foldl f z)
  | [], z => refl z
  | a :: l, z => trans (hf z a) (foldl_rel refl trans hf l (f z a))

/-! ### Configurations -/

/-- A core after a configuration is changed. -/
theorem State.coreAt_modCfg (s : State) (p q : Nat) (f : Cfg → Cfg) : (s.modCfg p f).coreAt q =
    if q = p then { s.coreAt p with cfg := (s.coreAt p).cfg.map f } else s.coreAt q := State.coreAt_modCore ..

@[simp] theorem State.coreAt_modCfg_self (s : State) (p : Nat) (f : Cfg → Cfg) :
    (s.modCfg p f).coreAt p = { s.coreAt p with cfg := (s.coreAt p).cfg.map f } := State.coreAt_modCore_self ..

@[simp] theorem State.coreAt_modCfg_ne (s : State) {p q : Nat} (f : Cfg → Cfg) (h : q ≠ p) : (s.modCfg p f).coreAt q = s.coreAt q :=
  State.coreAt_modCore_ne _ _ h

/-- Only configurations may differ. -/
def State.OnlyCfgs (s t : State) : Prop :=
  t = { s with cores := t.cores } ∧ ∀ p, t.coreAt p = { s.coreAt p with cfg := (t.coreAt p).cfg }

/-- Every node is as it was. -/
def State.SameNodes (s t : State) : Prop := ∀ p id, (t.coreAt p).node id = (s.coreAt p).node id

theorem State.OnlyCfgs.refl (s : State) : s.OnlyCfgs s := ⟨rfl, fun _ => rfl⟩

theorem State.OnlyCfgs.trans {s t u : State} (h : s.OnlyCfgs t) (g : t.OnlyCfgs u) : s.OnlyCfgs u := by
  obtain ⟨ht, hcore⟩ := h
  obtain ⟨hu, hcore'⟩ := g
  refine ⟨?_, fun p => ?_⟩
  · rw [hu, ht]
  · rw [hcore' p, hcore p]

theorem State.onlyCfgs_modCfg (s : State) (p : Nat) (f : Cfg → Cfg) : s.OnlyCfgs (s.modCfg p f) := by
  refine ⟨rfl, fun q => ?_⟩
  rw [State.coreAt_modCfg]
  split
  · next h => rw [h]
  · rfl

theorem State.SameNodes.refl (s : State) : s.SameNodes s := fun _ _ => rfl

theorem State.SameNodes.trans {s t u : State} (h : s.SameNodes t) (g : t.SameNodes u) : s.SameNodes u :=
  fun p id => (g p id).trans (h p id)

/-- A change of a configuration that leaves its nodes leaves every node. -/
theorem State.sameNodes_modCfg (s : State) (p : Nat) {f : Cfg → Cfg} (hf : ∀ g, (f g).nodes = g.nodes) : s.SameNodes (s.modCfg p f) := by
  intro q id
  rw [State.coreAt_modCfg]
  split
  · next h =>
    subst h
    cases hg : (s.coreAt q).cfg <;> simp [Core.node, hg, hf]
  · rfl

/-! ### Nodes and channels -/

/-- The node that is replaced. -/
theorem State.node_setNode_self {s : State} {p id : Nat} {m : Node} (h : (s.coreAt p).node id = some m) (n : Node) :
    ((s.setNode p id n).coreAt p).node id = some n := by
  cases hg : (s.coreAt p).cfg <;> simp_all [State.setNode, Core.node]

/-- Another node than the one replaced. -/
theorem State.node_setNode_ne (s : State) {p id c j : Nat} (h : c ≠ p ∨ j ≠ id) (n : Node) :
    ((s.setNode p id n).coreAt c).node j = (s.coreAt c).node j := by
  by_cases hc : c = p
  · subst hc
    have hj : j ≠ id := h.resolve_left (not_not_intro rfl)
    cases hg : (s.coreAt c).cfg <;> simp [State.setNode, Core.node, hg, hj]
  · rw [State.setNode, State.coreAt_modCfg_ne _ _ hc]

/-- A node that is listed is changed by replacing it. -/
theorem State.modNode_of_some {s : State} {p id : Nat} {m : Node} (h : (s.coreAt p).node id = some m) (f : Node → Node) :
    s.modNode p id f = s.setNode p id (f m) := by simp [State.modNode, h]

/-- A node that is not listed is not changed. -/
theorem State.modNode_of_none {s : State} {p id : Nat} (h : (s.coreAt p).node id = none) (f : Node → Node) :
    s.modNode p id f = s := by simp [State.modNode, h]

/-- A node after one is changed. -/
theorem State.node_modNode (s : State) (p id c j : Nat) (f : Node → Node) : ((s.modNode p id f).coreAt c).node j =
    if (c, j) = (p, id) then ((s.coreAt c).node j).map f else (s.coreAt c).node j := by
  cases h : (s.coreAt p).node id with
  | none =>
    rw [State.modNode_of_none h]
    split
    · next e => cases e; simp [h]
    · rfl
  | some m =>
    rw [State.modNode_of_some h]
    split
    · next e => cases e; rw [State.node_setNode_self h, h]; rfl
    · next e =>
      have hne : c ≠ p ∨ j ≠ id := Decidable.or_iff_not_imp_left.2 fun hc hj => e (by rw [Decidable.not_not.1 hc, hj])
      exact State.node_setNode_ne _ hne _

theorem State.onlyCfgs_modNode (s : State) (p id : Nat) (f : Node → Node) : s.OnlyCfgs (s.modNode p id f) := by
  cases h : (s.coreAt p).node id with
  | none => rw [State.modNode_of_none h]; exact .refl s
  | some m => rw [State.modNode_of_some h]; exact s.onlyCfgs_modCfg ..

/-- The channel that is changed. -/
theorem State.chanAt_modChan_self {s : State} {p ep : Nat} {c : Chan} (h : s.chanAt p ep = some c) (f : Chan → Chan) :
    (s.modChan p ep f).chanAt p ep = some (f c) := by
  cases hg : (s.coreAt p).cfg <;> simp_all [State.modChan, State.chanAt]

/-- A change of a channel leaves every node. -/
theorem State.sameNodes_modChan (s : State) (p ep : Nat) (f : Chan → Chan) : s.SameNodes (s.modChan p ep f) :=
  s.sameNodes_modCfg p fun g => by split <;> rfl

/-! ### Regions and teams -/

/-- A listed region is changed in its place. -/
theorem State.modRegion_of_some {s : State} {k : Nat} {r : Region} (h : tget s.regions k = some r) (f : Region → Region) :
    s.modRegion k f = { s with regions := tset s.regions k (f r) } := by simp [State.modRegion, h]

/-- A region changed is the only part of the package changed. -/
theorem State.modRegion_eq (s : State) (k : Nat) (f : Region → Region) : s.modRegion k f = { s with regions := (s.modRegion k f).regions } := by
  unfold State.modRegion
  split <;> rfl

@[simp] theorem State.modRegion_cores (s : State) (k : Nat) (f : Region → Region) : (s.modRegion k f).cores = s.cores := by
  rw [State.modRegion_eq]

@[simp] theorem State.modRegion_teams (s : State) (k : Nat) (f : Region → Region) : (s.modRegion k f).teams = s.teams := by
  rw [State.modRegion_eq]

@[simp] theorem State.modRegion_agenda (s : State) (k : Nat) (f : Region → Region) : (s.modRegion k f).agenda = s.agenda := by
  rw [State.modRegion_eq]

@[simp] theorem State.coreAt_modRegion (s : State) (k : Nat) (f : Region → Region) (p : Nat) : (s.modRegion k f).coreAt p = s.coreAt p := by
  simp [State.coreAt]

/-- The region that is changed. -/
theorem State.region_modRegion_self {s : State} {k : Nat} {r : Region} (h : tget s.regions k = some r) (f : Region → Region) :
    tget (s.modRegion k f).regions k = some (f r) := by simp [State.modRegion_of_some h]

/-- Another region than the one changed. -/
theorem State.region_modRegion_ne (s : State) {k j : Nat} (hj : j ≠ k) (f : Region → Region) :
    tget (s.modRegion k f).regions j = tget s.regions j := by
  unfold State.modRegion
  split <;> simp [hj]

/-- The region of a core is listed. -/
theorem State.region_of_fabricOf {s : State} {p k : Nat} {r : Region} (h : s.fabricOf p = some (k, r)) : tget s.regions k = some r := by
  unfold State.fabricOf at h
  split at h
  · obtain ⟨_, hg, e⟩ := Option.map_eq_some_iff.1 h
    cases e
    exact hg
  · cases h

/-- A core's region is found by what the core and the regions say. -/
theorem State.fabricOf_congr {s t : State} {p : Nat} (hcore : (t.coreAt p).region = (s.coreAt p).region) (hregions : t.regions = s.regions) :
    t.fabricOf p = s.fabricOf p := by simp only [State.fabricOf, hcore, hregions]

/-- A core's logical id depends on its team alone. -/
theorem State.lid_congr {s t : State} {p : Nat} (hteam : (t.coreAt p).team = (s.coreAt p).team) (hteams : t.teams = s.teams) :
    t.lid p = s.lid p := by simp only [State.lid, State.teamAt, hteam, hteams]

@[simp] theorem State.doomAt_regions (s : State) (p code : Nat) : (s.doomAt p code).regions = s.regions := by
  unfold State.doomAt State.modTeamAt
  (repeat' split) <;> rfl

@[simp] theorem State.doomAt_agenda (s : State) (p code : Nat) : (s.doomAt p code).agenda = s.agenda := by
  unfold State.doomAt State.modTeamAt
  (repeat' split) <;> rfl

@[simp] theorem State.later_regions (s : State) (t : Turn) : (s.later t).regions = s.regions := rfl

@[simp] theorem State.later_teams (s : State) (t : Turn) : (s.later t).teams = s.teams := rfl

@[simp] theorem State.later_agenda (s : State) (t : Turn) : (s.later t).agenda = s.agenda ++ [t] := rfl

/-- The first fault marked "ends faulted" is the team's (R351, R353). -/
theorem State.team_doomAt {s : State} {p k : Nat} {tm : Team} (hteam : (s.coreAt p).team = some k) (htm : tget s.teams k = some tm)
    (code : Nat) : tget (s.doomAt p code).teams k = some { tm with doom := some (tm.doom.getD (faultWord code (s.lid p) 0)) } := by
  simp [State.doomAt, State.modTeamAt, hteam, htm]

/-! ### Fault records and boundary records (R352, R394) -/

/-- What writing records leaves: all but memory, the rings, the interrupt messages, and what configurations keep of boundary guards. -/
def State.Recorded (s t : State) : Prop :=
  t = { s with mem := t.mem, bad := t.bad, cores := t.cores, parts := t.parts, irqs := t.irqs } ∧
  (∀ p, t.coreAt p = { s.coreAt p with cfg := (t.coreAt p).cfg }) ∧ s.SameNodes t

namespace State.Recorded

theorem refl (s : State) : s.Recorded s := ⟨rfl, fun _ => rfl, .refl s⟩

theorem trans {s t u : State} (h : s.Recorded t) (g : t.Recorded u) : s.Recorded u := by
  obtain ⟨ht, hcore, hnodes⟩ := h
  obtain ⟨hu, hcore', hnodes'⟩ := g
  refine ⟨?_, fun p => ?_, hnodes.trans hnodes'⟩
  · rw [hu, ht]
  · rw [hcore' p, hcore p]

variable {s t : State} (h : s.Recorded t)
include h

theorem regions : t.regions = s.regions := by rw [h.1]
theorem teams : t.teams = s.teams := by rw [h.1]
theorem agenda : t.agenda = s.agenda := by rw [h.1]
theorem team (p : Nat) : (t.coreAt p).team = (s.coreAt p).team := by rw [h.2.1 p]
theorem ctl (p : Nat) : t.ctlAt p = s.ctlAt p := by rw [State.ctlAt, h.2.1 p]; rfl
theorem nodes : s.SameNodes t := h.2.2
theorem fabric (p : Nat) : t.fabricOf p = s.fabricOf p := State.fabricOf_congr (by rw [h.2.1 p]) h.regions

end State.Recorded

/-- A change of a configuration that leaves its nodes is one that records may make. -/
theorem State.recorded_modCfg (s : State) (p : Nat) {f : Cfg → Cfg} (hf : ∀ g, (f g).nodes = g.nodes) : s.Recorded (s.modCfg p f) :=
  ⟨rfl, (s.onlyCfgs_modCfg p f).2, s.sameNodes_modCfg p hf⟩

/-- A step that records may make, made or not. -/
theorem State.Recorded.ite (c : Prop) [Decidable c] {s t : State} (h : s.Recorded t) : s.Recorded (if c then t else s) := by
  split
  · exact h
  · exact .refl s

theorem State.recorded_poke (s : State) (a : Nat) (bytes : List Byte) : s.Recorded (s.poke a bytes) := ⟨rfl, fun _ => rfl, fun _ _ => rfl⟩

theorem State.recorded_modPart (s : State) (p : Nat) (f : Part → Part) : s.Recorded (s.modPart p f) := ⟨rfl, fun _ => rfl, fun _ _ => rfl⟩

theorem State.recorded_irq (s : State) (kind part arg : Nat) : s.Recorded (s.irq kind part arg) := ⟨rfl, fun _ => rfl, fun _ _ => rfl⟩

theorem State.recorded_fault (s : State) (part : Nat) (f : FaultRec) : s.Recorded (s.fault part f) := by
  unfold State.fault
  dsimp only
  split
  · exact s.recorded_modPart ..
  · refine State.Recorded.trans ?_ (State.recorded_irq ..)
    refine State.Recorded.trans ?_ (State.recorded_modPart ..)
    exact .ite _ (s.recorded_poke ..)

/-- A fault record changes no core. -/
@[simp] theorem State.fault_cores (s : State) (part : Nat) (f : FaultRec) : (s.fault part f).cores = s.cores := by
  have hirq (z : State) (kind p arg : Nat) : (z.irq kind p arg).cores = z.cores := rfl
  have hpart (z : State) (p : Nat) (g : Part → Part) : (z.modPart p g).cores = z.cores := rfl
  have hpoke (z : State) (a : Nat) (bytes : List Byte) : (z.poke a bytes).cores = z.cores := rfl
  unfold State.fault
  dsimp only
  split
  · exact hpart ..
  · rw [hirq, hpart]
    split
    · exact hpoke ..
    · rfl

@[simp] theorem State.coreAt_fault (s : State) (part : Nat) (f : FaultRec) (p : Nat) : (s.fault part f).coreAt p = s.coreAt p := by
  simp [State.coreAt]

theorem State.recorded_guardRecord (s : State) (p route : Nat) (hdr : BitVec 32) : s.Recorded (s.guardRecord p route hdr) :=
  s.recorded_fault ..

theorem State.recorded_guardDrop (s : State) (p route : Nat) : s.Recorded (s.guardDrop p route) := by
  unfold State.guardDrop
  split
  · exact .refl s
  split
  · exact .refl s
  next x _ =>
    have herase := s.recorded_modCfg p (f := fun g => { g with egress := g.egress.erase x }) fun _ => rfl
    dsimp only
    split
    · exact herase
    split
    · refine State.Recorded.trans ?_ (State.recorded_guardRecord ..)
      refine herase.trans ?_
      exact State.recorded_modCfg _ p fun _ => rfl
    · refine herase.trans ?_
      exact State.recorded_modCfg _ p fun _ => rfl

theorem State.recorded_guardLast (s : State) (p route : Nat) : s.Recorded (s.guardLast p route) := by
  unfold State.guardLast
  split
  · exact .refl s
  next g _ =>
    have hdrops := foldl_rel State.Recorded.refl State.Recorded.trans (fun z (_ : Nat) => z.recorded_guardDrop p route)
      (List.range g.egress.length) s
    dsimp only
    split
    · exact hdrops
    · exact (hdrops.trans (State.recorded_guardRecord ..)).trans (State.recorded_modCfg _ p fun _ => rfl)

theorem State.recorded_guardClose (s : State) (r : Region) (dom : Option Nat) : s.Recorded (s.guardClose r dom) := by
  refine foldl_rel .refl .trans (fun z p => ?_) _ s
  split
  · exact .refl z
  · exact foldl_rel .refl .trans (fun y rt => .ite _ (y.recorded_guardLast p rt)) _ z

/-- A domain stopped by a fault: its region says so, and the last boundary records are written (R129, R394). -/
theorem State.recorded_stopDom (s : State) (k : Nat) (r : Region) (dom : Nat) :
    (s.modRegion k (fun g => { g with doms := lmod g.doms dom (fun d => { d with stopped := true }) })).Recorded (s.stopDom k r dom) :=
  State.recorded_guardClose ..

/-- A stopped domain's region. -/
theorem State.region_stopDom {s : State} {k : Nat} {g : Region} (h : tget s.regions k = some g) (r : Region) (dom : Nat) :
    tget (s.stopDom k r dom).regions k = some { g with doms := lmod g.doms dom (fun d => { d with stopped := true }) } := by
  rw [(s.recorded_stopDom k r dom).regions, State.region_modRegion_self h]

end Sys2Proof.Machine
end

section
/-!
PROOFS. The turns of nodes that wait for every input: O33.
-/

namespace Sys2Proof.Machine

open Claim

/-- The instruction of a strict node: it fires, once it is ready, with its own reaction, and on absence alone with absence (R120, R121). -/
def RunsStrict (op : Nat) (i : Instr) (r : NodeRec) : Prop := ∃ f, ∀ s, exec i s = .next (s.fireSlow op r false f)

/-- A node that ends its instant in one turn is strict. -/
theorem runsStrict_of_with {op : Nat} {i : Instr} {r : NodeRec} (h : ∃ f, ∀ s, exec i s = .next (s.fireWith op r false f)) :
    RunsStrict op i r := by
  obtain ⟨f, hexec⟩ := h
  exact ⟨_, hexec⟩

/-- Of the strict nodes MGRP and MGST alone may take several turns. -/
theorem runsStrict_strictNodes (r : NodeRec) : ∀ x ∈ strictNodes r, RunsStrict x.1 x.2 r := by
  have hmgrp : RunsStrict 0x85 (.mgrp r) r := ⟨_, fun _ => rfl⟩
  have hmgst : RunsStrict 0x87 (.mgst r) r := ⟨_, fun _ => rfl⟩
  simp only [strictNodes, List.forall_mem_cons, hmgrp, hmgst, true_and]
  repeat refine And.intro (runsStrict_of_with ⟨_, fun _ => rfl⟩) ?_
  exact List.forall_mem_nil _

/-- The package with the record 0x12 of a node that has lost its own state (R353, R356). -/
def State.lostRecorded (s : State) (p id : Nat) (n : Node) : State :=
  s.fault (s.partOf p) { s.recAt p 0x12 id n.dom with stopped := true, inst := n.inst }

/-- The package with that node's domain stopped too (R129). -/
def State.lostStopped (s : State) (p id : Nat) (n : Node) : State :=
  (s.fabricOf p).elim (s.lostRecorded p id n) fun x => (s.lostRecorded p id n).stopDom x.1 x.2 n.dom

theorem State.recorded_lostRecorded (s : State) (p id : Nat) (n : Node) : s.Recorded (s.lostRecorded p id n) := s.recorded_fault ..

/-- A node that has lost its own state: its record, its domain's stop, its task's end noted, and the core's failure to come. -/
theorem State.nodeLost_eq (s : State) (p id : Nat) (n : Node) :
    s.nodeLost p id n = ((s.lostStopped p id n).doomAt p 0x12).later (.event (.coreFailed p)) := by
  have hfabric := (s.recorded_lostRecorded p id n).fabric p
  unfold State.lostRecorded at hfabric
  simp only [State.nodeLost, hfabric, State.lostStopped]
  cases s.fabricOf p <;> rfl

/-- What the stop of a lost node's domain leaves of the package, regions aside. -/
theorem State.lostStopped_keeps (s : State) (p id : Nat) (n : Node) :
    (s.lostStopped p id n).agenda = s.agenda ∧ (s.lostStopped p id n).teams = s.teams ∧
    ∀ q, ((s.lostStopped p id n).coreAt q).team = (s.coreAt q).team := by
  have hrecord := s.recorded_lostRecorded p id n
  unfold State.lostStopped
  cases s.fabricOf p with
  | none => exact ⟨hrecord.agenda, hrecord.teams, hrecord.team⟩
  | some x =>
    have hstop := (s.lostRecorded p id n).recorded_stopDom x.1 x.2 n.dom
    refine ⟨?_, ?_, fun q => ?_⟩
    · simpa [hrecord.agenda] using hstop.agenda
    · simpa [hrecord.teams] using hstop.teams
    · simpa [hrecord.team] using hstop.team q

/-- The domain of a node that has lost its own state is stopped (R129, R356). -/
theorem State.region_lostStopped {s : State} {p k : Nat} {g : Region} (h : s.fabricOf p = some (k, g)) (id : Nat) (n : Node) :
    tget (s.lostStopped p id n).regions k = some { g with doms := lmod g.doms n.dom (fun d => { d with stopped := true }) } := by
  have hregion : tget (s.lostRecorded p id n).regions k = some g := by
    rw [(s.recorded_lostRecorded p id n).regions, State.region_of_fabricOf h]
  simpa [State.lostStopped, h] using State.region_stopDom hregion g n.dom

end Sys2Proof.Machine

open Sys2Proof Sys2Proof.Machine Sys2Proof.Claim

/-- Settles O33: every strict node runs `fireSlow` (`runsStrict_strictNodes`), which waits, loses the node or ends its instant in absence. -/
theorem nodeTurns : Obligations.NodeTurns := by
  intro r s x hx
  obtain ⟨f, hexec⟩ := runsStrict_strictNodes r x hx
  refine ⟨fun hwaits hsound => ?waits, fun n hn hfire hbroken => ?broken, fun n i hready hquiet => ?quiet⟩
  case waits => rw [hexec, fireSlow_waits false f hwaits hsound]
  case quiet => rw [hexec, fireSlow_quiet hready f hquiet]
  case broken =>
    obtain ⟨hagenda, hteams, hteam⟩ := s.lostStopped_keeps s.here s.slot n
    refine ⟨_, by rw [hexec, fireSlow_broken false f hn hfire hbroken, State.nodeLost_eq], ?_, fun k g d hfabric hd => ?_,
      fun k tm hk htm => ?_⟩
    · simp [hagenda]
    · have hstopped := State.region_lostStopped hfabric s.slot n
      exact ⟨_, { d with stopped := true }, by simpa using hstopped, by simp [getElem?_lmod, hd], rfl⟩
    · rw [← State.lid_congr (hteam _) hteams]
      exact State.team_doomAt (by rw [hteam, hk]) (by rw [hteams, htm]) _

end

section
/-!
SUPPORT. The end of an instant in steps (R119): inputs consumed, the node replaced, and what follows without a change to any node.
-/

namespace Sys2Proof.Machine

open Claim

/-! ### The frame of an instant -/

theorem nodeFrame_refl (s : State) : NodeFrame s s := ⟨rfl, fun _ => rfl, fun _ g hg => ⟨g, hg, rfl, rfl⟩⟩

theorem nodeFrame_trans {s t u : State} (h : NodeFrame s t) (h' : NodeFrame t u) : NodeFrame s u := by
  obtain ⟨ht, hcore, hregion⟩ := h
  obtain ⟨hu, hcore', hregion'⟩ := h'
  refine ⟨?_, fun p => ?_, fun k g hg => ?_⟩
  · rw [hu, ht]
  · rw [hcore' p, hcore p]
  · obtain ⟨h, hh, heq, hdoms⟩ := hregion k g hg
    obtain ⟨h', hh', heq', hdoms'⟩ := hregion' k h hh
    exact ⟨h', hh', by rw [heq', heq], hdoms'.trans hdoms⟩

/-- An instant may change configurations. -/
theorem State.OnlyCfgs.nodeFrame {s t : State} (h : s.OnlyCfgs t) : NodeFrame s t := by
  obtain ⟨ht, hcore⟩ := h
  refine ⟨by rw [ht], fun p => by rw [hcore p], fun k g hg => ⟨g, by rw [ht]; exact hg, rfl, rfl⟩⟩

/-- An instant may note of a region that something fired, and of its domains which instants are live. -/
theorem nodeFrame_modRegion (s : State) (k : Nat) {f : Region → Region}
    (hf : ∀ g, f g = { g with fired := (f g).fired, doms := (f g).doms } ∧
      (f g).doms.map (fun d => { d with live := [] }) = g.doms.map (fun d => { d with live := [] })) : NodeFrame s (s.modRegion k f) := by
  refine ⟨by rw [State.modRegion_eq], fun p => by simp, fun j g hg => ?_⟩
  by_cases hj : j = k
  · subst hj
    exact ⟨f g, State.region_modRegion_self hg f, hf g⟩
  · exact ⟨g, by rw [State.region_modRegion_ne s hj, hg], rfl, rfl⟩

/-! ### Consuming inputs (R119, R251) -/

/-- What consuming a node's inputs leaves: the frame of an instant, and every other node; the node stays listed. -/
def State.Consumed (p id : Nat) (s t : State) : Prop :=
  NodeFrame s t ∧ (∀ c j, c ≠ p ∨ j ≠ id → (t.coreAt c).node j = (s.coreAt c).node j) ∧
  ((t.coreAt p).node id).isSome = ((s.coreAt p).node id).isSome

theorem State.Consumed.refl {p id : Nat} (s : State) : s.Consumed p id s := ⟨nodeFrame_refl s, fun _ _ _ => rfl, rfl⟩

theorem State.Consumed.trans {p id : Nat} {s t u : State} (h : State.Consumed p id s t) (g : State.Consumed p id t u) :
    State.Consumed p id s u := by
  obtain ⟨hframe, hother, hself⟩ := h
  obtain ⟨hframe', hother', hself'⟩ := g
  exact ⟨nodeFrame_trans hframe hframe', fun c j hne => (hother' c j hne).trans (hother c j hne), hself'.trans hself⟩

theorem State.consumed_modNode (s : State) (p id : Nat) (f : Node → Node) : State.Consumed p id s (s.modNode p id f) := by
  refine ⟨(s.onlyCfgs_modNode p id f).nodeFrame, fun c j hne => ?_, ?_⟩
  · rw [State.node_modNode, if_neg (by rintro ⟨⟩; simp at hne)]
  · rw [State.node_modNode, if_pos rfl, Option.isSome_map]

theorem State.consumed_modChan (s : State) (p id ep : Nat) (f : Chan → Chan) : State.Consumed p id s (s.modChan p ep f) :=
  ⟨(s.onlyCfgs_modCfg ..).nodeFrame, fun c j _ => s.sameNodes_modChan p ep f c j, by rw [s.sameNodes_modChan p ep f]⟩

theorem State.consumed_consume (s : State) (p id : Nat) (n : Node) (i : Nat) : State.Consumed p id s (s.consume p id n i) := by
  unfold State.consume
  dsimp only
  split
  · exact .refl s
  split
  · exact .refl s
  split
  · split
    · exact (s.consumed_modNode ..).trans (State.consumed_modChan ..)
    · exact s.consumed_modNode ..
  · exact s.consumed_modChan ..

/-- A channel that neither a command nor a DRAIN fills gives its oldest status. -/
theorem State.chanAt_consume {s : State} {p id : Nat} {n : Node} {i : Nat} {c : Chan} {a : Nat} {g : Region}
    (hused : inputUsed n.op n.rcd i = true) (hc : s.chanAt p (inputEp n.rcd i) = some c) (hcmd : isCommandInput id c.ent = false)
    (hfabric : s.fabricOf p = some (a, g)) (hsteer : s.steerersOf g p (inputEp n.rcd i) = []) :
    (s.consume p id n i).chanAt p (inputEp n.rcd i) = some { c with q := c.q.drop 1 } := by
  simp [State.consume, hused, hc, hcmd, hfabric, hsteer, State.chanAt_modChan_self hc, Chan.taken]

/-- A command input gives the tokens queued up to the instant (R251). -/
theorem State.node_consume_command {s : State} {p id : Nat} {n m : Node} {i : Nat} {c : Chan} (hm : (s.coreAt p).node id = some m)
    (hused : inputUsed n.op n.rcd i = true) (hc : s.chanAt p (inputEp n.rcd i) = some c) (hcmd : isCommandInput id c.ent = true)
    (hnow : inputDelayed n.rcd i = false) : ((s.consume p id n i).coreAt p).node id =
      some { m with toks := m.toks.filter (fun t => !(t.1 == i && decide (t.2.1 ≤ n.inst))) } := by
  simp [State.consume, hused, hc, hcmd, hnow, lagOf, State.node_modNode, hm]

/-! ### What leaves every node -/

/-- The frame of an instant, with every node as it was. -/
def State.Kept (s t : State) : Prop := NodeFrame s t ∧ s.SameNodes t

theorem State.Kept.refl (s : State) : s.Kept s := ⟨nodeFrame_refl s, .refl s⟩

theorem State.Kept.trans {s t u : State} (h : s.Kept t) (g : t.Kept u) : s.Kept u := ⟨nodeFrame_trans h.1 g.1, h.2.trans g.2⟩

/-- A step that an instant may make, made or not. -/
theorem State.Kept.ite (c : Prop) [Decidable c] {s t : State} (h : s.Kept t) : s.Kept (if c then t else s) := by
  split
  · exact h
  · exact .refl s

theorem State.kept_modChan (s : State) (p ep : Nat) (f : Chan → Chan) : s.Kept (s.modChan p ep f) :=
  ⟨(s.onlyCfgs_modCfg ..).nodeFrame, s.sameNodes_modChan p ep f⟩

theorem State.kept_modCfg (s : State) (p : Nat) {f : Cfg → Cfg} (hf : ∀ g, (f g).nodes = g.nodes) : s.Kept (s.modCfg p f) :=
  ⟨(s.onlyCfgs_modCfg p f).nodeFrame, s.sameNodes_modCfg p hf⟩

/-- A status on a connected route, unless it is an absence that would cross domains (R124, R132, R393). -/
theorem State.emit_of_dest {s : State} {p route dom : Nat} {x : Status} {d : Dest} (hroute : route ≠ noRoute)
    (hd : s.destOf p route = some d) (hgo : s.crosses d dom = false ∨ x.isSome = true) (inst : Nat) : s.emit p route dom inst x =
      if s.guarded p d then s.modCfg p (fun g => { g with egress := g.egress ++ [(route, s.slot, x)] })
      else if d.remote then s.modChan d.core d.ep (fun c => { c with wire := c.wire ++ [(inst + 1, x)] })
      else s.modChan d.core d.ep (fun c => { c with q := c.q ++ [(inst + 1, x)] }) := by
  have hsent : (s.crosses d dom && x.isNone) = false := by
    rcases hgo with h | h
    · rw [h, Bool.false_and]
    · rw [Option.isNone_eq_false_iff.2 h, Bool.and_false]
  simp only [State.emit, if_neg hroute, hd, hsent, Bool.false_eq_true, if_false]

/-- An absence that would cross domains goes nowhere (R132). -/
theorem State.emit_crossing {s : State} {p route dom : Nat} {d : Dest} (hroute : route ≠ noRoute) (hd : s.destOf p route = some d)
    (hcross : s.crosses d dom = true) (inst : Nat) : s.emit p route dom inst none = s := by
  simp [State.emit, hroute, hd, hcross]

/-- A core with a connected route has a configuration. -/
theorem State.cfg_of_destOf {s : State} {p route : Nat} {d : Dest} (h : s.destOf p route = some d) : ∃ g, (s.coreAt p).cfg = some g := by
  unfold State.destOf at h
  split at h
  · next g _ _ hg _ => exact ⟨g, hg⟩
  · cases h

theorem State.kept_emit (s : State) (p route dom inst : Nat) (x : Status) : s.Kept (s.emit p route dom inst x) := by
  unfold State.emit
  split
  · exact .refl s
  split
  · exact .refl s
  split
  · exact .refl s
  split
  · exact s.kept_modCfg p fun _ => rfl
  split
  · exact s.kept_modChan ..
  · exact s.kept_modChan ..

theorem State.kept_emitX (s : State) (p : Nat) (n : Node) (r : React) : s.Kept (s.emitX p n r) := by
  unfold State.emitX
  dsimp only
  split
  · exact .refl s
  split
  · exact s.kept_emit ..
  split
  · exact (s.kept_emit ..).trans (State.kept_emit ..)
  · exact s.kept_emit ..

/-- What a region keeps of an instant that has ended (R131): that something fired, and whether the instant is live. -/
def Region.noteInstant (dom inst : Nat) (live : Bool) (g : Region) : Region :=
  { g with fired := true, doms := if live then lmod g.doms dom (fun d => d.mark inst) else g.doms }

theorem Dom.mark_live (d : Dom) (inst : Nat) : { d.mark inst with live := [] } = { d with live := [] } := by
  unfold Dom.mark
  split <;> rfl

theorem State.kept_noteInstant (s : State) (k dom inst : Nat) (live : Bool) : s.Kept (s.modRegion k (Region.noteInstant dom inst live)) := by
  refine ⟨nodeFrame_modRegion s k fun g => ⟨rfl, ?_⟩, fun p id => by simp⟩
  unfold Region.noteInstant
  cases live
  · rfl
  · exact map_lmod (fun d => d.mark_live inst) _ _

/-- A change of a core's gated tiles. -/
theorem State.kept_modCore (s : State) (p : Nat) {f : Core → Core} (hf : ∀ c, f c = { c with gated := (f c).gated }) :
    s.Kept (s.modCore p f) := by
  refine ⟨⟨rfl, fun q => ?_, fun k g hg => ⟨g, hg, rfl, rfl⟩⟩, fun q id => ?_⟩
  · rw [State.coreAt_modCore]
    split
    · next h => rw [hf, h]
    · rfl
  · rw [State.coreAt_modCore]
    split
    · next h => rw [hf, h]; rfl
    · rfl

/-! ### The end of an instant -/

/-- The node as the end of an instant leaves it, with the tokens that it then still has (R119). -/
def React.ended (r : React) (inst : Nat) (busy : Bool) (toks : List (Nat × Nat × Burst)) : Node :=
  { r.counted with
    inst := inst + 1, phase := 0, prog := 0, part := [], hub := none, hubRes := none, toks := toks,
    quiet := if busy then 0 else r.node.quiet + 1 }

/-- Of what the reaction left, the end of an instant changes the registers by BCNT alone (R77). -/
theorem React.ended_eq (r : React) (inst : Nat) (busy : Bool) (toks : List (Nat × Nat × Burst)) : r.ended inst busy toks =
    { r.node with
      regs := r.counted.regs, inst := inst + 1, phase := 0, prog := 0, part := [], hub := none, hubRes := none,
      toks := (r.ended inst busy toks).toks, quiet := if busy then 0 else r.node.quiet + 1 } := by
  unfold React.ended React.counted
  split <;> rfl

/-- The end of an instant without faults, in steps: inputs consumed, the node replaced, and what keeps every node. -/
theorem State.settle_steps (s : State) (p id : Nat) (n : Node) {r : React} (hr : r.faults = []) (busy : Bool) :
    ∃ z toks, State.Consumed p id s z ∧ (z.setNode p id (r.ended n.inst busy toks)).Kept (s.settle p id n r busy) := by
  obtain ⟨t, ht⟩ : ∃ t, t = s.settle p id n r busy := ⟨_, rfl⟩
  rw [← ht]
  unfold State.settle State.settleTaking at ht
  extract_lets z toks counted y replaced sent recorded live noted at ht
  have hconsumed : State.Consumed p id s z := foldl_rel .refl .trans (fun z i => z.consumed_consume p id n i) _ s
  have hsent : replaced.Kept sent := (replaced.kept_emitX p n r).trans (State.kept_emit ..)
  have hrecorded : recorded = sent := by simp only [recorded, hr, List.foldl_nil]
  have hnoted : recorded.Kept noted := by
    simp only [noted]
    split
    · exact recorded.kept_noteInstant ..
    · exact .refl _
  have hungated : noted.Kept t := by
    rw [ht]
    exact .ite _ (noted.kept_modCore p fun _ => rfl)
  exact ⟨z, toks, hconsumed, hsent.trans ((hrecorded ▸ hnoted).trans hungated)⟩

end Sys2Proof.Machine
end

section
/-!
PROOFS. The end of an instant, inputs and outputs: O34.
-/

open Sys2Proof Sys2Proof.Machine Sys2Proof.Claim

/-- Settles O34: the end of an instant consumes, replaces the node and keeps the rest (`State.settle_steps`); what one input and one
output do is what `State.consume` and `State.emit` do in each of their cases. -/
theorem nodeSettling : Obligations.NodeSettling := by
  intro s p id n m q busy hm
  refine ⟨fun hq => ?ended, fun k c x rest a g hused hc hcmd hfabric hsteer hqueue => ?channel,
    fun k c hused hc hcmd hnow => ?command, fun route dom inst x d c hroute hd hc => ⟨?crossing, ?sent, ?guard⟩⟩
  case ended =>
    obtain ⟨z, toks, ⟨hframe, hother, hself⟩, hkept, hnodes⟩ := s.settle_steps p id n hq busy
    have hreplaced : NodeFrame z (z.setNode p id (q.ended n.inst busy toks)) := (z.onlyCfgs_modCfg ..).nodeFrame
    have ht := nodeFrame_trans (nodeFrame_trans hframe hreplaced) hkept
    obtain ⟨y, hy⟩ := Option.isSome_iff_exists.1 (hself.trans (by rw [hm]; rfl))
    refine ⟨ht, fun a => by rw [ht.1], ⟨q.ended n.inst busy toks, ?_, q.ended_eq ..⟩, fun c j hne => ?_⟩
    · rw [hnodes, State.node_setNode_self hy]
    · rw [hnodes, State.node_setNode_ne z hne, hother c j hne]
  case channel => rw [State.chanAt_consume hused hc hcmd hfabric hsteer, hqueue]; rfl
  case command =>
    refine ⟨_, State.node_consume_command hm hused hc hcmd hnow, rfl, fun e => ?_⟩
    simp only [List.mem_filter, Bool.not_eq_true', Bool.and_eq_false_iff, beq_eq_false_iff_ne, decide_eq_false_iff_not, Nat.not_le]
  case crossing => rintro hcross rfl; exact State.emit_crossing hroute hd hcross inst
  case sent =>
    intro hgo hopen
    rw [State.emit_of_dest hroute hd hgo, hopen, if_neg Bool.false_ne_true]
    split <;> rw [State.chanAt_modChan_self hc]
  case guard =>
    intro hgo hguard
    obtain ⟨f, hf⟩ := State.cfg_of_destOf hd
    rw [State.emit_of_dest hroute hd hgo, if_pos hguard]
    exact ⟨_, by rw [State.coreAt_modCfg_self, hf]; rfl, f, hf, rfl⟩

end

section
/-!
SUPPORT. The events of a region (R110, R118, R124, R128–R131, R133): what each of them does in each of its cases.
-/

namespace Sys2Proof.Machine

open Claim

/-! ### Inboxes (R230) -/

/-- An inbox with an entry appended. -/
theorem Ctl.box_putBox_self (c : Ctl) {b : Nat} (hb : b < 8) (e : InEntry) : (c.putBox b e).box b = c.box b ++ [e] := by
  simp [Ctl.box, Ctl.putBox, hb]

/-- A token for which there is room (R230). -/
theorem Ctl.putOrDrop_of_room {c : Ctl} {b : Nat} {e : InEntry} (h : boxRoom (c.box b) e = true) : c.putOrDrop b e = c.putBox b e :=
  if_pos h

/-- A token for which there is no room is counted (R230). -/
theorem Ctl.putOrDrop_of_full {c : Ctl} {b : Nat} {e : InEntry} (h : boxRoom (c.box b) e = false) :
    c.putOrDrop b e = { c with inboxLost := lostUp c.inboxLost (b == 7) } :=
  if_neg (by simp [h])

/-! ### The end of a domain's instant (R130, R131) -/

/-- A change of one domain, as the region then shows it. -/
theorem exists_region_lmod {t : State} {k dom : Nat} {r : Region} {d : Dom} {f : Dom → Dom} (hd : r.doms[dom]? = some d)
    (h : tget t.regions k = some { r with doms := lmod r.doms dom f }) :
    ∃ g, tget t.regions k = some g ∧ g = { r with doms := g.doms } ∧ g.doms[dom]? = some (f d) ∧
      ∀ j, j ≠ dom → g.doms[j]? = r.doms[j]? :=
  ⟨_, h, rfl, by simp [getElem?_lmod, hd], fun j hj => by simp [getElem?_lmod, hj]⟩

/-- A node without queued tokens. -/
def Node.tokenless (n : Node) : Node := { n with toks := [] }

/-- The package with the tokens queued at some nodes discarded (R251). -/
def State.discardTokens (s : State) (l : List (Nat × Nat × Node)) : State := l.foldl (fun z n => z.modNode n.1 n.2.1 Node.tokenless) s

theorem State.onlyCfgs_discardTokens (s : State) (l : List (Nat × Nat × Node)) : s.OnlyCfgs (s.discardTokens l) :=
  foldl_rel .refl .trans (fun z _ => z.onlyCfgs_modNode ..) l s

/-- A node after the nodes of a list have lost their tokens. -/
theorem State.node_discardTokens (p id : Nat) : ∀ (l : List (Nat × Nat × Node)) (s : State), ((s.discardTokens l).coreAt p).node id =
    if (p, id) ∈ l.map (fun n => (n.1, n.2.1)) then ((s.coreAt p).node id).map Node.tokenless else (s.coreAt p).node id
  | [], s => rfl
  | x :: l, s => by
    have ih := State.node_discardTokens p id l (s.modNode x.1 x.2.1 Node.tokenless)
    rw [State.node_modNode] at ih
    refine ih.trans ?_
    simp only [List.map_cons, List.mem_cons]
    by_cases hx : (p, id) = (x.1, x.2.1)
    · simp only [hx, if_true, true_or]
      split
      · cases (s.coreAt p).node id <;> rfl
      · rfl
    · simp only [hx, if_false, false_or]

/-- A node of a region's core is one of its domain's. -/
theorem State.mem_domNodes {s : State} {r : Region} {p id : Nat} {n : Node} (hp : p ∈ r.cores) (hn : (s.coreAt p).node id = some n) :
    (p, id, n) ∈ s.domNodes r n.dom := by
  obtain ⟨g, hg, hget⟩ := Option.bind_eq_some_iff.1 hn
  refine List.mem_filter.2 ⟨List.mem_flatMap.2 ⟨p, hp, ?_⟩, by simp⟩
  rw [hg]
  exact List.mem_map.2 ⟨(id, n), mem_of_tget hget, rfl⟩

/-- A domain's end before its done token: what its region, the controllers and the nodes then are. -/
theorem State.domDone_eq (s : State) (k : Nat) (r : Region) (dom : Nat) (d : Dom) : s.domDone k r dom d =
    (((s.modRegion k fun g => { g with doms := lmod g.doms dom (fun d => { d with ctr := d.ctr + 1, done := true, live := [] }) }).discardTokens
      (s.domNodes r dom)).guardClose r (some dom)).modCtl (r.posOf 0) (fun c => c.putOrDrop 6 (doneEntry (d.ctr + 1) dom)) := rfl

section
variable {s : State} {k : Nat} {r : Region} (dom : Nat) (d : Dom)

/-- The region of a domain that is done. -/
theorem State.region_domDone (hr : tget s.regions k = some r) : tget (s.domDone k r dom d).regions k =
    some { r with doms := lmod r.doms dom (fun d => { d with ctr := d.ctr + 1, done := true, live := [] }) } := by
  rw [State.domDone_eq, State.modCtl_regions, (State.recorded_guardClose ..).regions, (State.onlyCfgs_discardTokens ..).1]
  exact State.region_modRegion_self hr _

/-- The leader's controller once a domain is done (R110). -/
theorem State.ctlAt_domDone : (s.domDone k r dom d).ctlAt (r.posOf 0) =
    (s.ctlAt (r.posOf 0)).putOrDrop 6 (doneEntry (d.ctr + 1) dom) := by
  rw [State.domDone_eq, State.ctlAt_modCtl_self, (State.recorded_guardClose ..).ctl, State.ctlAt, (State.onlyCfgs_discardTokens ..).2,
    State.coreAt_modRegion]
  rfl

/-- No node of a domain that is done has a token queued (R251). -/
theorem State.toks_domDone {p id : Nat} {n : Node} (hp : p ∈ r.cores) (hn : ((s.domDone k r dom d).coreAt p).node id = some n)
    (hdom : n.dom = dom) : n.toks = [] := by
  have hctl (z : State) (q : Nat) (f : Ctl → Ctl) : ((z.modCtl q f).coreAt p).node id = (z.coreAt p).node id := by
    rw [State.modCtl, State.coreAt_modCore]
    split
    · next h => rw [h]; rfl
    · rfl
  rw [State.domDone_eq, hctl, (State.recorded_guardClose ..).nodes, State.node_discardTokens, State.coreAt_modRegion] at hn
  split at hn
  · obtain ⟨m, -, rfl⟩ := Option.map_eq_some_iff.1 hn
    rfl
  · next hmem =>
    exact absurd (List.mem_map.2 ⟨_, hdom ▸ State.mem_domNodes hp hn, rfl⟩) hmem

end

section
variable {region dom : Nat} {s : State} {r : Region} {d : Dom} (hr : tget s.regions region = some r) (hd : r.doms[dom]? = some d)
include hr hd

theorem exec_domainInstantEnd_waits (h : s.instantOver r dom d = false) : exec (.domainInstantEnd region dom) s = .next s := by
  change execDomainInstantEnd region dom s = _
  simp [execDomainInstantEnd, hr, hd, h]

theorem exec_domainInstantEnd_live (h : s.instantOver r dom d = true) (hlive : d.live.contains d.ctr = true) :
    exec (.domainInstantEnd region dom) s = .next (s.modRegion region fun g =>
      { g with doms := lmod g.doms dom (fun d => { d with ctr := d.ctr + 1, live := d.live.erase d.ctr }) }) := by
  change execDomainInstantEnd region dom s = _
  simp only [execDomainInstantEnd, hr, hd, h, hlive, Bool.not_true, Bool.false_eq_true, if_false, if_true]

theorem exec_domainInstantEnd_done (h : s.instantOver r dom d = true) (hlive : d.live.contains d.ctr = false) :
    exec (.domainInstantEnd region dom) s = .next (s.domDone region r dom d) := by
  change execDomainInstantEnd region dom s = _
  simp only [execDomainInstantEnd, hr, hd, h, hlive, Bool.not_true, Bool.false_eq_true, if_false]

end

/-! ### Statuses between cores (R118, R124) -/

/-- The record of a status that reaches an endpoint: of a burst that parity lost (R118). -/
def State.lostRecord (s : State) (core ep : Nat) (x : Status) (lost : Bool) : State :=
  if lost then x.elim s fun b => s.parityRecord core ep b.hdr else s

/-- The record of a lost burst changes no channel. -/
theorem State.chanAt_lostRecord (s : State) (core ep : Nat) (x : Status) (lost : Bool) (p e : Nat) :
    (s.lostRecord core ep x lost).chanAt p e = s.chanAt p e := by
  cases lost <;> cases x <;> simp [State.lostRecord, State.parityRecord, State.chanAt]

/-- A status that parity kept, or an absence, leaves no record. -/
theorem State.lostRecord_of_kept {s : State} {core ep : Nat} {x : Status} {lost : Bool} (h : lost = false ∨ x = none) :
    s.lostRecord core ep x lost = s := by
  rcases h with rfl | rfl
  · rfl
  · cases lost <;> rfl

section
variable {s : State} {core ep : Nat} {c : Chan} (hc : s.chanAt core ep = some c)
include hc

theorem exec_remoteStatusReceive_none (hw : c.wire = []) (lost : Bool) : exec (.remoteStatusReceive core ep lost) s = .next s := by
  change execRemoteStatusReceive core ep lost s = _
  simp only [execRemoteStatusReceive, hc, hw]

/-- The oldest status under way on a remote channel reaches its consumer; one that parity lost is recorded and becomes an error
token. -/
theorem exec_remoteStatusReceive_some {x : Nat × Status} {rest : List (Nat × Status)} (hw : c.wire = x :: rest) (lost : Bool) :
    exec (.remoteStatusReceive core ep lost) s = .next ((s.lostRecord core ep x.2 lost).modChan core ep
      fun c => { c with q := c.q ++ [(x.1, x.2.map fun b => if lost then errToken 0x11 0 (hdrLevel b.hdr) else b)], wire := rest }) := by
  change execRemoteStatusReceive core ep lost s = _
  obtain ⟨i, _ | b⟩ := x <;> cases lost <;> simp only [execRemoteStatusReceive, hc, hw] <;> rfl

end

/-! ### Quiescence and causality cycles (R128, R129) -/

theorem State.recorded_cycleRecords (r : Region) (dom ctr count : Nat) : ∀ (l : List (List Nat)) (s : State) (cont : Bool),
    s.Recorded (s.cycleRecords r dom ctr count cont l)
  | [], s, _ => .refl s
  | _ :: l, s, _ => (s.recorded_fault ..).trans (State.recorded_cycleRecords r dom ctr count l _ true)

/-- The domain of a region in a causality cycle is stopped (R129). -/
theorem State.region_cycleFault {s : State} {k dom : Nat} {r g : Region} {d : Dom} (hg : tget s.regions k = some g)
    (hd : r.doms[dom]? = some d) (hcycle : s.cycleOf r dom ≠ []) : tget (s.cycleFault k r dom).regions k =
      some { g with doms := lmod g.doms dom (fun d => { d with stopped := true }) } := by
  unfold State.cycleFault
  split
  · next h => exact absurd h hcycle
  · refine State.region_stopDom ?_ r dom
    rw [(State.recorded_cycleRecords ..).regions, hg]
  · next h _ => rw [hd] at h; cases h

section
variable {region : Nat} {s : State} {r : Region} (hr : tget s.regions region = some r)
include hr

theorem exec_quiescenceSample_notes (h : s.quiescent r = false ∨ r.quiet = false) : exec (.quiescenceSample region) s =
    .next (s.modRegion region fun g => { g with fired := false, quiet := s.quiescent r }) := by
  change execQuiescenceSample region s = _
  rcases h with h | h <;> simp [execQuiescenceSample, hr, h]

theorem exec_quiescenceSample_faults (h : s.quiescent r = true) (hquiet : r.quiet = true) : exec (.quiescenceSample region) s =
    .next ((List.range r.doms.length).foldl (fun z i => z.cycleFault region r i)
      (s.modRegion region fun g => { g with fired := false, quiet := false })) := by
  change execQuiescenceSample region s = _
  simp [execQuiescenceSample, hr, h, hquiet]

end

/-! ### Clock gating (R133) -/

/-- A tile of nodes that have seen only absence for 64 instants is gated. -/
theorem exec_pathClockGate_gates {core tile : Nat} {s : State} {g : Cfg} (hg : (s.coreAt core).cfg = some g)
    (hsome : ∃ n ∈ g.nodes, n.1 < 64 ∧ tileOf n.1 = tile) (hquiet : ∀ n ∈ g.nodes, n.1 < 64 → tileOf n.1 = tile → 64 ≤ n.2.quiet)
    (hrun : tile ∉ (s.coreAt core).gated) :
    exec (.pathClockGate core tile) s = .next (s.modCore core fun c => { c with gated := c.gated ++ [tile] }) := by
  change execPathClockGate core tile s = _
  have hmine : (g.nodes.filter fun n => decide (n.1 < 64) && tileOf n.1 == tile).isEmpty = false := by
    obtain ⟨n, hn, hid, htile⟩ := hsome
    exact List.isEmpty_eq_false_iff_exists_mem.2 ⟨n, List.mem_filter.2 ⟨hn, by simp [hid, htile]⟩⟩
  have hall : (g.nodes.filter fun n => decide (n.1 < 64) && tileOf n.1 == tile).all (fun n => decide (64 ≤ n.2.quiet)) = true := by
    refine List.all_eq_true.2 fun n hn => ?_
    obtain ⟨hmem, hin⟩ := List.mem_filter.1 hn
    simp only [Bool.and_eq_true, decide_eq_true_eq, beq_iff_eq] at hin
    exact decide_eq_true (hquiet n hmem hin.1 hin.2)
  simp [execPathClockGate, hg, hmine, hall, hrun]

end Sys2Proof.Machine
end

section
/-!
PROOFS. The events of a region: O42.
-/

open Sys2Proof Sys2Proof.Machine Sys2Proof.Claim

/-- Settles O42: each event has one equation per case (`exec_domainInstantEnd_done`, `exec_remoteStatusReceive_some`,
`exec_quiescenceSample_faults`, `exec_pathClockGate_gates`), and what the state then holds is read off it. -/
theorem regionEvents : Obligations.RegionEvents := by
  refine ⟨fun region dom s r d hr hd => ?instant, fun core ep tile region lost s c x rest r d g => ⟨fun hc hw => ?nothing, fun hc hw => ?arrives,
    fun hr => ⟨fun h => ?sample, fun h hquiet hone hcycle => ?cycle⟩, fun hg hsome hquiet hrun => ?gate⟩⟩
  case instant =>
    refine ⟨fun h => exec_domainInstantEnd_waits hr hd h, fun h hlive => ⟨_, exec_domainInstantEnd_live hr hd h hlive, ?_, ?_⟩,
      fun h hlive => ⟨_, exec_domainInstantEnd_done hr hd h hlive, ?_, fun hroom => ?_, fun hfull => ?_, fun p id n hp hn hdom => ?_⟩⟩
    · rw [State.modRegion_eq]
    · exact exists_region_lmod (f := fun d => { d with ctr := d.ctr + 1, live := d.live.erase d.ctr }) hd (State.region_modRegion_self hr _)
    · exact exists_region_lmod hd (State.region_domDone dom d hr)
    · rw [State.ctlAt_domDone, Ctl.putOrDrop_of_room hroom, Ctl.box_putBox_self _ (by decide)]
    · rw [State.ctlAt_domDone, Ctl.putOrDrop_of_full hfull]
      exact ⟨rfl, rfl⟩
    · exact State.toks_domDone dom d hp hn hdom
  case nothing => exact exec_remoteStatusReceive_none hc hw lost
  case arrives =>
    have hland := State.chanAt_modChan_self ((State.chanAt_lostRecord s core ep x.2 lost core ep).trans hc)
    refine ⟨_, exec_remoteStatusReceive_some hc hw lost, fun b hb => ?_, fun hx => ?_, fun hkeep => ?_⟩
    · rw [hland, hb]; rfl
    · rw [hland, hx]; rfl
    · rw [State.lostRecord_of_kept hkeep]
      exact ⟨rfl, fun p hp => State.coreAt_modCfg_ne _ _ hp⟩
  case sample =>
    exact ⟨_, exec_quiescenceSample_notes hr h, State.modRegion_eq .., State.region_modRegion_self hr _,
      fun k hk => State.region_modRegion_ne s hk _⟩
  case cycle =>
    refine ⟨_, exec_quiescenceSample_faults hr h hquiet, ?_⟩
    simp only [hone, List.length_singleton, List.range_one, List.foldl_cons, List.foldl_nil]
    rw [State.region_cycleFault (State.region_modRegion_self hr _) (by rw [hone]; rfl) hcycle, hone]
    rfl
  case gate =>
    exact ⟨_, exec_pathClockGate_gates hg hsome hquiet hrun, rfl, s.coreAt_modCore_self .., fun p hp => s.coreAt_modCore_ne _ hp⟩

end

section
/-!
SUPPORT. The counters, walkers and index nodes of chapter 07 (R103, R141, R160–R165): what each makes of the inputs that it waits
for, where their kinds pass and their lengths fit.
-/

namespace Sys2Proof.Machine

open Claim

/-! ### Registers of a node -/

theorem Node.reg_setReg_ne (n : Node) {k j : Nat} (v : BitVec 32) (h : j ≠ k) : (n.setReg k v).reg j = n.reg j := by
  simp [Node.reg, Node.setReg, tgetD, h]

/-- Setting registers changes nothing else of a node. -/
theorem Node.setRegs_eq (n : Node) (k : Nat) (l : List (BitVec 32)) : n.setRegs k l = { n with regs := (n.setRegs k l).regs } := by
  induction l generalizing n k with
  | nil => rfl
  | cons v t ih => rw [Node.setRegs, ih]; rfl

/-- A register outside those set is as before. -/
theorem Node.reg_setRegs_of_outside (n : Node) {k j : Nat} (l : List (BitVec 32)) (h : j < k ∨ k + l.length ≤ j) :
    (n.setRegs k l).reg j = n.reg j := by
  induction l generalizing n k with
  | nil => rfl
  | cons v t ih =>
    rw [List.length_cons] at h
    rw [Node.setRegs, ih _ (by omega), Node.reg_setReg_ne _ _ (by omega)]

/-- The registers set hold the list's entries. -/
theorem Node.reg_setRegs (n : Node) (k : Nat) {i : Nat} {l : List (BitVec 32)} {v : BitVec 32} (h : l[i]? = some v) :
    (n.setRegs k l).reg (k + i) = v := by
  induction i generalizing n k l with
  | zero =>
    obtain ⟨x, t, rfl⟩ := List.exists_cons_of_ne_nil (l := l) (by rintro rfl; simp at h)
    obtain rfl : x = v := by simpa using h
    rw [Nat.add_zero, Node.setRegs, Node.reg_setRegs_of_outside _ _ (.inl (Nat.lt_succ_self _)), Node.reg_setReg_self]
  | succ i ih =>
    obtain ⟨x, t, rfl⟩ := List.exists_cons_of_ne_nil (l := l) (by rintro rfl; simp at h)
    rw [Node.setRegs, ← Nat.add_assoc, Nat.add_right_comm, ih _ _ (by simpa using h)]

/-! ### Outputs of one beat (R141) -/

/-- The kind that a header is made with. -/
theorem hdrKind_mkHdr (kind level : Nat) (beta : Int) (len aux : Nat) : hdrKind (mkHdr kind level beta len aux) = kind % 8 := by
  have hbeta := (BitVec.ofInt 6 beta).isLt
  rw [hdrKind, mkHdr, BitVec.toNat_ofNat]
  omega

theorem isData_dataBurst (level : Nat) (beta : Int) (beats : List Beat) : IsData (dataBurst level beta beats) := hdrKind_mkHdr ..

/-- Absence breaks no BLEN (R141). -/
theorem React.oneBeat_absent {n : Node} {q : React} (h : q.x = none) : q.oneBeat n = q := by
  simp [React.oneBeat, h, presentOf]

/-- An output of one beat fits a BLEN of 1 (R141). -/
theorem React.oneBeat_fits {n : Node} (h : blenOf n.rcd = 1) (q : React) : q.oneBeat n = q := by
  simp [React.oneBeat, offLength, h]

/-- Data of one beat on X is a mismatch under another BLEN (R141, R75). -/
theorem React.oneBeat_mismatch {n : Node} {q : React} {b : Burst} (h : blenOf n.rcd ≠ 1) (hx : q.x = some b) (hb : IsData b) :
    q.oneBeat n = failed n 0x21 0 := by
  have hoff : offLength n.rcd b = true := by simpa [offLength, show hdrKind b.hdr = 0 from hb] using h
  simp [React.oneBeat, hx, hoff]

/-! ### CNT (R160) -/

/-- The level of a present status. -/
theorem levelOf_some (b : Burst) : levelOf (some b) = hdrLevel b.hdr := maxLevel_one b

/-- CNT emits its coordinates for a present A, pending counts taken first. -/
theorem cntReact_data {n : Node} {i : Ins} {a : Burst} (hib : i.b = none) (hia : i.a = some a) (ha : isData a = true) :
    cntReact n i = cntEmit (cntReload n) (hdrLevel a.hdr) := by
  simp [cntReact, hib, hia, ha, isErr_of_isData ha, levelOf_some]

/-- CNT keeps a bound token beside an absent A. -/
theorem cntReact_bound {n : Node} {i : Ins} {b : Burst} (hia : i.a = none) (hib : i.b = some b) (hb : hdrKind b.hdr = 3) :
    cntReact n i = onX (cntPend n b) none := by
  simp [cntReact, hib, hia, hb]

/-- With no counts pending CNT takes none. -/
theorem cntReload_none {n : Node} (h : n.reg 12 = 0) : cntReload n = n := if_neg (by simp [h])

/-- CNT's output is data. -/
theorem cntEmit_data (n : Node) (level : Nat) : ∃ b, (cntEmit n level).x = some b ∧ IsData b := ⟨_, rfl, isData_dataBurst ..⟩

/-- CNT's step as nested loops, of coordinates below their counts: a loop ends at its count less one where those within it end,
and the level tells how many end. -/
theorem cntEmit_loops {n : Node} (hk : (n.reg 3).toNat < (n.reg 6).toNat) (hn : (n.reg 4).toNat < (n.reg 7).toNat)
    (hm : (n.reg 5).toNat < (n.reg 8).toNat) (level : Nat) :
    let lastK := decide ((n.reg 3).toNat + 1 = (n.reg 6).toNat)
    let lastN := lastK && decide ((n.reg 4).toNat + 1 = (n.reg 7).toNat)
    let lastM := lastN && decide ((n.reg 5).toNat + 1 = (n.reg 8).toNat)
    cntEmit n level = onX (n.setRegs 3 [if lastK then 0 else n.reg 3 + 1, if lastN then 0 else if lastK then n.reg 4 + 1 else n.reg 4,
        if lastM then 0 else if lastN then n.reg 5 + 1 else n.reg 5])
      (some (tokBurst [(n.reg 3).toNat, (n.reg 4).toNat, (n.reg 5).toNat] (max (lastK.toNat + lastN.toNat + lastM.toNat) level))) := by
  have last : ∀ {c t : BitVec 32}, c.toNat < t.toNat → (c = t - 1 ↔ c.toNat + 1 = t.toNat) := by bv_omega
  have succ : ∀ {c t : BitVec 32}, c.toNat < t.toNat → (c + 1#32 = t ↔ c.toNat + 1 = t.toNat) := by bv_omega
  have below : ∀ {c t : BitVec 32}, c.toNat < t.toNat → c ≠ t := fun h e => Nat.ne_of_lt h (congrArg _ e)
  simp only [cntEmit, last hk, last hn, last hm]
  by_cases hlastK : (n.reg 3).toNat + 1 = (n.reg 6).toNat
  · by_cases hlastN : (n.reg 4).toNat + 1 = (n.reg 7).toNat
    · by_cases hlastM : (n.reg 5).toNat + 1 = (n.reg 8).toNat <;> simp [hlastK, hlastN, hlastM, succ hk, succ hn, succ hm]
    · simp [hlastK, hlastN, succ hk, succ hn, below hm]
  · simp [hlastK, succ hk, below hn, below hm]

/-! ### Walkers (R103, R162) -/

/-- A coordinate is no end token. -/
theorem ne_ends_of_lt {c : BitVec 32} (h : c < tokEM) : c ≠ tokEM ∧ c ≠ tokSE := by
  unfold tokEM tokSE at *
  bv_omega

/-- A walker steps on a head pair that does not end its segment. -/
theorem walkReact_step {step : Walker → BitVec 32 → BitVec 32 → Walker × Status} {n : Node} {i : Ins} {a : Burst} (hib : i.b = none)
    (hia : i.a = some a) (ha : IsData a) (hlen : a.beats.length = 1) (hrun : tokAt a 0 ≠ tokEM) {v : Walker} {y : Status}
    (hstep : step n.walker (tokAt a 0) (tokAt a 1) = (v, y)) : walkReact step n i = onXY (n.setWalker v) (some v.pair) y := by
  have hkind : hdrKind a.hdr = 0 := ha
  have hpres : presentOf [some a, none] = [a] := rfl
  simp [walkReact, hib, hia, hpres, isErr_of_data ha, hkind, hlen, hrun, hstep]

/-- Equal coordinates advance both fibres of ISECT, and Y tells where they stood. -/
theorem isectStep_match {w : Walker} {ca cb : BitVec 32} (hca : ca < tokEM) (h : ca = cb) :
    isectStep w ca cb = ({ w with pa := w.pa + 1, pb := w.pb + 1 }, some w.pair) := by
  subst h
  simp [isectStep, ne_ends_of_lt hca]

/-- Equal coordinates advance both fibres of UNION, and Y bears both positions. -/
theorem unionStep_match {w : Walker} {ca cb : BitVec 32} (hca : ca < tokEM) (h : ca = cb) :
    unionStep w ca cb = ({ w with pa := w.pa + 1, pb := w.pb + 1 }, some (tokBurst [w.pa.toNat, w.pb.toNat, 3] 0)) := by
  subst h
  simp [unionStep, ne_ends_of_lt hca]

section
variable {w : Walker} {ca cb : BitVec 32} (hca : ca < tokEM) (hcb : cb < tokEM)
include hca hcb

/-- The lower coordinate of A advances A's fibre of ISECT. -/
theorem isectStep_left (h : ca < cb) : isectStep w ca cb = ({ w with pa := w.pa + 1 }, none) := by
  simp [isectStep, ne_ends_of_lt hca, ne_ends_of_lt hcb, h, BitVec.ne_of_lt h]

/-- The lower coordinate of B advances B's fibre of ISECT. -/
theorem isectStep_right (h : cb < ca) : isectStep w ca cb = ({ w with pb := w.pb + 1 }, none) := by
  simp [isectStep, ne_ends_of_lt hca, ne_ends_of_lt hcb, BitVec.le_of_lt h, (BitVec.ne_of_lt h).symm]

/-- The lower coordinate of A advances A's fibre of UNION, and Y bears its position. -/
theorem unionStep_left (h : ca < cb) : unionStep w ca cb = ({ w with pa := w.pa + 1 }, some (tokBurst [w.pa.toNat, 0, 1] 0)) := by
  simp [unionStep, ne_ends_of_lt hca, ne_ends_of_lt hcb, h, BitVec.ne_of_lt h]

/-- The lower coordinate of B advances B's fibre of UNION, and Y bears its position. -/
theorem unionStep_right (h : cb < ca) : unionStep w ca cb = ({ w with pb := w.pb + 1 }, some (tokBurst [0, w.pb.toNat, 2] 0)) := by
  simp [unionStep, ne_ends_of_lt hca, ne_ends_of_lt hcb, BitVec.le_of_lt h, (BitVec.ne_of_lt h).symm]

end

/-- Where both fibres end, ISECT begins A's anew beside B's next. -/
theorem isectStep_ends {w : Walker} {ca cb : BitVec 32} (hca : ca = tokSE) (hcb : cb = tokSE) (h : w.pa ≠ w.pa0) :
    isectStep w ca cb = ({ w with pae := w.pa, pa := w.pa0, pb := w.pb + 1 }, some (emptyFibre 1 0)) := by
  simp [isectStep, hca, hcb, h, show tokSE ≠ tokEM by decide]

/-- Where both fibres end, UNION begins A's anew beside B's next. -/
theorem unionStep_ends {w : Walker} {ca cb : BitVec 32} (hca : ca = tokSE) (hcb : cb = tokSE) :
    unionStep w ca cb = ({ w with pae := w.pa, pa := w.pa0, pb := w.pb + 1 }, some (emptyFibre 1 0)) := by
  simp [unionStep, hca, hcb, show tokSE ≠ tokEM by decide]

section
variable {r : NodeRec} {s : State} {n : Node} {i : Ins} {a : Burst} {v : Walker} {y : Status} (hib : i.b = none) (hia : i.a = some a)
  (ha : IsData a) (hlen : a.beats.length = 1) (hrun : tokAt a 0 ≠ tokEM)
include hib hia ha hlen hrun

/-- ISECT ends its instant with a step on the head pair that A brings. -/
theorem fires_isect (h : Ready 0x66 r s n i) (hstep : isectStep n.walker (tokAt a 0) (tokAt a 1) = (v, y)) :
    Fires (.isect r) s n (onXY (n.setWalker v) (some v.pair) y) :=
  fires_pure h rfl (by simp [Ins.quiet, hia]) (walkReact_step hib hia ha hlen hrun hstep)

/-- UNION with a BLEN of 1 ends its instant with a step on the head pair that A brings. -/
theorem fires_union (h : Ready 0x67 r s n i) (hone : blenOf r = 1)
    (hstep : unionStep n.walker (tokAt a 0) (tokAt a 1) = (v, y)) :
    Fires (.union r) s n (onXY (n.setWalker v) (some v.pair) y) := by
  obtain ⟨-, rfl⟩ := ready_node h
  exact fires_pure h rfl (by simp [Ins.quiet, hia]) ((React.oneBeat_fits hone _).trans (walkReact_step hib hia ha hlen hrun hstep))

/-- UNION with another BLEN emits no step (R141). -/
theorem fires_union_mismatch (h : Ready 0x67 r s n i) (hmany : blenOf r ≠ 1) : Fires (.union r) s n (failed n 0x21 0) := by
  obtain ⟨-, rfl⟩ := ready_node h
  exact fires_pure h rfl (by simp [Ins.quiet, hia])
    (React.oneBeat_mismatch hmany (congrArg React.x (walkReact_step hib hia ha hlen hrun rfl)) (isData_dataBurst ..))

end

/-! ### IRNG (R163) -/

/-- IRNG on a data burst of one beat whose count fits BLEN. -/
theorem irngReact_data {n : Node} {i : Ins} {a : Burst} (hia : i.a = some a) (ha : IsData a) (hlen : a.beats.length = 1)
    (hfit : (tokAt a 1).toNat ≤ 16 * blenOf n.rcd) :
    irngReact n i = if (tokAt a 1).toNat = 0 then onX (n.keepAll [some a]) (some (emptyFibre (hdrLevel a.hdr) 0))
      else onX (n.keepAll [some a]) (some (dataBurst (hdrLevel a.hdr) 0 (beatsOfElems 0x21 0 ((List.range (16 * blenOf n.rcd)).map
        (fun k => if k < (tokAt a 1).toNat then (tokAt a 0 + BitVec.ofNat 32 k * tokAt a 2).toNat else 0xFFFFFFFF))))) := by
  simp only [irngReact, hia, syncReact_one ha, List.getD_cons_zero, levelOf_some, Node.keepAll_rcd]
  exact if_neg (by omega)

/-! ### Index and predicate arithmetic (R164, R165) -/

/-- Elements that a burst holds (R140). -/
theorem length_elemsOf (fmt : Nat) (b : Burst) : (elemsOf fmt b).length = b.beats.length * (512 / elemBits fmt) := by
  unfold elemsOf
  dsimp only
  induction b.beats with
  | nil => rw [List.flatMap_nil, List.length_nil, List.length_nil, Nat.zero_mul]
  | cons x l ih =>
    rw [List.flatMap_cons, List.length_append, ih, List.length_map, List.length_range, List.length_cons, Nat.succ_mul, Nat.add_comm]

/-- Elements combined with those at the same places of an equally long list. -/
theorem map_zipIdx_getD {α β γ : Type} (g : α → β → γ) {xs : List α} {ys : List β} (h : ys.length = xs.length) (d : β) :
    xs.zipIdx.map (fun x => g x.1 (ys.getD x.2 d)) = List.zipWith g xs ys := by
  refine List.ext_getElem (by simp [h]) fun k hk _ => ?_
  have hk : k < ys.length := by simpa [h] using hk
  simp [hk]

/-- What an index operation sends, from its elements' results and their flags. -/
def indexOut (out : Nat) (m : Node) (level : Nat) (res : List (Nat × Flg)) : React :=
  onX (m.flag (orFlgs (res.map Prod.snd))) (some (dataBurst level 0 (beatsOfElems out 0 (res.map Prod.fst))))

/-- An index operation on bursts of one length, neither of them broadcast (R164). -/
theorem indexCore_two {src out : Nat} {n : Node} {a b : Burst} (hlen : b.beats.length = a.beats.length)
    (hvar : n.rcd.var.getLsbD 1 = false) (hfit : (a.beats.length * (512 / elemBits src) * elemBits out + 511) / 512 = blenOf n.rcd)
    (ident : Nat) (f : NodeRec → Nat → Nat → Nat × Flg) (level : Nat) : indexCore src out ident f n (some a) (some b) level =
      indexOut out n level (List.zipWith (f n.rcd) (elemsOf src a) (elemsOf src b)) := by
  have hreuse : (n.rcd.var.getLsbD 0 && a.beats.length == 1 && decide (1 < a.beats.length)) = false := by
    by_cases hone : a.beats.length = 1 <;> simp [hone]
  have helems : (elemsOf src b).length = (elemsOf src a).length := by rw [length_elemsOf, length_elemsOf, hlen]
  unfold indexCore
  simp only [hreuse, hvar, hlen, hfit, beq_self_eq_true, Bool.or_true, Bool.not_true, Bool.false_eq_true, if_false,
    Bool.false_or, ne_eq, not_true_eq_false, decide_false, Option.isNone_some, map_zipIdx_getD _ helems]
  rfl

/-- An index operation on a single burst (R164, R165). -/
theorem indexCore_one {src out : Nat} {n : Node} {a : Burst} (hvar : n.rcd.var.getLsbD 1 = false)
    (hfit : (a.beats.length * (512 / elemBits src) * elemBits out + 511) / 512 = blenOf n.rcd)
    (ident : Nat) (f : NodeRec → Nat → Nat → Nat × Flg) (level : Nat) : indexCore src out ident f n (some a) none level =
      indexOut out n level ((elemsOf src a).map (fun v => f n.rcd v ident)) := by
  have hmap : (elemsOf src a).zipIdx.map (fun x => f n.rcd x.1 ident) = (elemsOf src a).map (fun v => f n.rcd v ident) := by
    rw [← Function.comp_def (fun v => f n.rcd v ident) Prod.fst, ← List.map_map, List.zipIdx_map_fst]
  unfold indexCore
  simp only [hvar, hfit, Bool.not_true, Bool.false_eq_true, if_false, Bool.false_or, ne_eq, not_true_eq_false, decide_false,
    Option.isNone_none, if_true, hmap]
  rfl

/-- An index operation's instant on data bursts of one length (R164, R73). -/
theorem indexReact_data {src out : Nat} {n : Node} {i : Ins} {a b : Burst} (hia : i.a = some a) (hib : i.b = some b) (ha : IsData a)
    (hb : IsData b) (hlen : b.beats.length = a.beats.length) (hvar : n.rcd.var.getLsbD 1 = false)
    (hfit : (a.beats.length * (512 / elemBits src) * elemBits out + 511) / 512 = blenOf n.rcd) (ident : Nat)
    (f : NodeRec → Nat → Nat → Nat × Flg) : indexReact src out ident f n i = indexOut out (n.keepAll [some a, some b])
      (max (hdrLevel a.hdr) (hdrLevel b.hdr)) (List.zipWith (f n.rcd) (elemsOf src a) (elemsOf src b)) := by
  have hall : ∀ x ∈ [a, b], x.beats.length = a.beats.length := by simp [hlen]
  simp only [indexReact, hvar, Bool.false_eq_true, if_false, hia, hib, syncReact_two ha hb, List.getD_cons_zero, List.getD_cons_succ,
    presentOf_cons_some, presentOf_nil, maxBeats_eq (by simp) hall, levelUnder_eq hall, maxLevel_two]
  rw [indexCore_two hlen (by rwa [Node.keepAll_rcd]) (by rwa [Node.keepAll_rcd]), Node.keepAll_rcd]

/-- A row of `indexNodes` runs `indexReact` with its function. -/
theorem exec_indexNodes {r : NodeRec} {x : Nat × Instr × Nat × (Nat → Nat → Nat × Flg)} (hx : x ∈ indexNodes r) (s : State) :
    ∃ ident f, exec x.2.1 s = .next (s.firePure x.1 r (indexReact 0x21 x.2.2.1 ident f)) ∧ f r = x.2.2.2 := by
  simp only [indexNodes, List.mem_cons, List.not_mem_nil, or_false] at hx
  rcases hx with rfl | rfl | rfl | rfl | rfl | rfl <;> exact ⟨_, _, rfl, rfl⟩

/-- Operations that raise no flag raise none together. -/
theorem orFlgs_map_none {α : Type} (l : List α) : orFlgs (l.map fun _ => {}) = {} := by
  induction l with
  | nil => rfl
  | cons x t ih => exact ih

/-- Hashes raise no flag (R165). -/
theorem indexOut_hash (m : Node) (level : Nat) (r : NodeRec) (l : List Nat) : indexOut 0x21 m level (l.map fun v => indexHash r v 0) =
    onX (m.flag {}) (some (dataBurst level 0 (beatsOfElems 0x21 0 (l.map fun v => (indexHash r v 0).1)))) := by
  have hflags : orFlgs ((l.map fun v => indexHash r v 0).map Prod.snd) = {} := by
    rw [List.map_map]
    exact orFlgs_map_none l
  rw [indexOut, hflags, List.map_map]
  rfl

end Sys2Proof.Machine
end

section
/-!
PROOFS. The counters, walkers and index nodes of chapter 07: O36.
-/

open Sys2Proof Sys2Proof.Machine Sys2Proof.Claim

/-- Settles O36: each node runs one reaction, which on the inputs of its clause takes one branch (`cntReact_data`, `fires_isect`,
`irngReact_data`, `indexReact_data`); CNT's and UNION's output of one beat meets BLEN after it (`React.oneBeat_fits`). -/
theorem tokenNodes : Obligations.TokenNodes := by
  intro r s n i a b ca cb
  dsimp only
  have busyA : i.a = some a → i.quiet = false := fun hia => by simp [Ins.quiet, hia]
  have busyB : i.b = some b → i.quiet = false := fun hib => by simp [Ins.quiet, hib]
  refine ⟨fun h hib hia ha hlen => ?mismatch, fun h hib hia ha hlen hnone hk hn hm => ?counts, fun h hia hib hb => ?bound,
    fun hib hia ha hlen hca hcb => ?walks, fun h hia ha hlen hfit => ?irng,
    fun hia hib ha hb hlen hvar => ⟨fun x hx h hfit => ?index, fun h hfit => ?plog⟩, fun h hia ha hvar hfit => ?ihash⟩
  case mismatch =>
    obtain ⟨-, rfl⟩ := ready_node h
    obtain ⟨y, hy, hdata⟩ := cntEmit_data (cntReload n) (hdrLevel a.hdr)
    exact fires_pure h rfl (busyA hia) (React.oneBeat_mismatch hlen (by rw [cntReact_data hib hia ha, hy]) hdata)
  case counts =>
    obtain ⟨-, rfl⟩ := ready_node h
    have hstep := (congrArg (cntEmit · (hdrLevel a.hdr)) (cntReload_none hnone)).trans (cntEmit_loops hk hn hm _)
    exact ⟨_, fires_pure h rfl (busyA hia) ((React.oneBeat_fits hlen _).trans ((cntReact_data hib hia ha).trans hstep)),
      Node.reg_setRegs n 3 (i := 0) rfl, Node.reg_setRegs n 3 (i := 1) rfl, Node.reg_setRegs n 3 (i := 2) rfl, n.setRegs_eq ..,
      fun k h3 h4 h5 => n.reg_setRegs_of_outside _ (by simp only [List.length_cons, List.length_nil]; omega)⟩
  case bound =>
    have hreact : (cntReact n i).oneBeat n = onX (cntPend n b) none := by rw [cntReact_bound hia hib hb, React.oneBeat_absent rfl]
    exact ⟨_, fires_pure h rfl (busyB hib) hreact, Node.reg_setRegs n 9 (i := 0) rfl, Node.reg_setRegs n 9 (i := 1) rfl,
      Node.reg_setRegs n 9 (i := 2) rfl, Node.reg_setRegs n 9 (i := 3) rfl, n.setRegs_eq .., fun k hk =>
      n.reg_setRegs_of_outside _ (by simp only [List.length_cons, List.length_nil]; omega)⟩
  case walks =>
    subst hca hcb
    refine ⟨fun hla hlb => ?_, fun hea heb hstart => ?_⟩
    · have hrun := (ne_ends_of_lt hla).1
      exact ⟨fun h => ⟨fun he => fires_isect hib hia ha hlen hrun h (isectStep_match hla he),
          fun hlt => fires_isect hib hia ha hlen hrun h (isectStep_left hla hlb hlt),
          fun hlt => fires_isect hib hia ha hlen hrun h (isectStep_right hla hlb hlt)⟩,
        fun h hmany => fires_union_mismatch hib hia ha hlen hrun h hmany,
        fun h hone => ⟨fun he => fires_union hib hia ha hlen hrun h hone (unionStep_match hla he),
          fun hlt => fires_union hib hia ha hlen hrun h hone (unionStep_left hla hlb hlt),
          fun hlt => fires_union hib hia ha hlen hrun h hone (unionStep_right hla hlb hlt)⟩⟩
    · have hrun : tokAt a 0 ≠ tokEM := by rw [hea]; decide
      exact ⟨fun h => fires_isect hib hia ha hlen hrun h (isectStep_ends hea heb hstart),
        fun h hone => fires_union hib hia ha hlen hrun h hone (unionStep_ends hea heb)⟩
  case irng =>
    obtain ⟨-, rfl⟩ := ready_node h
    have hreact := irngReact_data hia ha hlen hfit
    exact ⟨fun hzero => fires_pure h rfl (busyA hia) (hreact.trans (if_pos hzero)),
      fun hsome => fires_pure h rfl (busyA hia) (hreact.trans (if_neg hsome))⟩
  case index =>
    obtain ⟨ident, f, he, hf⟩ := exec_indexNodes hx s
    obtain ⟨-, rfl⟩ := ready_node h
    refine fires_pure h he (busyA hia) ?_
    rw [indexReact_data (src := 0x21) hia hib ha hb hlen hvar hfit, hf]
    rfl
  case plog =>
    obtain ⟨-, rfl⟩ := ready_node h
    refine fires_pure h rfl (busyA hia) (indexReact_data hia hib ha hb hlen hvar ?_ 0 _)
    change (a.beats.length * 512 * 1 + 511) / 512 = _
    omega
  case ihash =>
    obtain ⟨-, rfl⟩ := ready_node h
    refine fires_pure h rfl (busyA hia) ?_
    dsimp only
    rw [hia, syncReact_one ha, List.getD_cons_zero, indexCore_one (by rwa [Node.keepAll_rcd]), indexOut_hash, levelOf_some,
      Node.keepAll_rcd]
    · rfl
    · rw [Node.keepAll_rcd]
      change (a.beats.length * 16 * 32 + 511) / 512 = _
      omega

end

section
/-!
SUPPORT. The endpoints of the controller, of the copy engine and of links (R144–R147, R367, R368), and RED2, SREQ and STATW
(R371–R373): what each makes of the inputs that it waits for, in the package as it stands.
-/

namespace Sys2Proof.Machine

open Claim

/-! ### Waiting for another agent -/

/-- A ready node whose reaction waits for what is not its input changes nothing. -/
theorem exec_with_waits {i : Instr} {op : Nat} {r : NodeRec} {s : State} {n : Node} {x : Ins} {always : Bool}
    {f : State → Node → Ins → Option (State × React)} (h : Ready op r s n x) (he : exec i s = .next (s.fireWith op r always f))
    (hgo : x.quiet = false ∨ always = true) (hf : f s n x = none) : exec i s = .next s :=
  next_slow h he hgo (by rw [hf])

/-! ### The controller's boxes (R144, R145) -/

/-- SRC's next status is a burst. -/
theorem srcReact_burst {s : State} {n : Node} {a : Burst} {rest : List Status} (hexh : n.exh = false)
    (hout : (s.ctlAt s.here).out (n.rcd.k0.extractLsb' 0 3).toNat = some a :: rest) (i : Ins) :
    srcReact s n i = some (s.modCtl s.here (fun c => c.popOut (n.rcd.k0.extractLsb' 0 3).toNat),
      onX { n with exh := hdrLevel a.hdr == 7 } (some a)) := by
  simp only [srcReact, hexh, hout, Bool.false_eq_true, if_false]

/-- SRC waits for an empty outbox. -/
theorem srcReact_empty {s : State} {n : Node} (hexh : n.exh = false)
    (hout : (s.ctlAt s.here).out (n.rcd.k0.extractLsb' 0 3).toNat = []) (i : Ins) : srcReact s n i = none := by
  simp only [srcReact, hexh, hout, Bool.false_eq_true, if_false]

/-- The word of a burst from SINK: bit 63 set, the header below (R229). -/
theorem sinkWord_eq (h : BitVec 32) : sinkWord h = 1#1 ++ 0#31 ++ h := by
  have htop : (1#1 ++ 0#31).toNat = 2 ^ 31 := rfl
  have hlt := h.isLt
  refine BitVec.eq_of_toNat_eq ?_
  rw [sinkWord, BitVec.toNat_ofNat, BitVec.toNat_append, htop, ← Nat.shiftLeft_add_eq_or_of_lt hlt, Nat.shiftLeft_eq]
  omega

/-- What SINK puts into its inbox for a burst. -/
def sinkEntry (a : Burst) : InEntry := { sd := 1#1 ++ 0#31 ++ a.hdr, hdr := a.hdr, beats := a.beats }

/-- SINK puts a present burst into its inbox where that has room. -/
theorem sinkReact_room {s : State} {n : Node} {i : Ins} {a : Burst} (hia : i.a = some a)
    (hroom : boxRoom ((s.ctlAt s.here).box (n.rcd.k0.extractLsb' 0 3).toNat) (sinkEntry a) = true) : sinkReact s n i =
      some (s.modCtl s.here (fun c => c.putBox (n.rcd.k0.extractLsb' 0 3).toNat (sinkEntry a)), quietReact n) := by
  unfold sinkEntry at *
  simp only [sinkReact, hia, sinkWord_eq, hroom, if_true]

/-- SINK waits while its inbox lacks room for a present burst. -/
theorem sinkReact_full {s : State} {n : Node} {i : Ins} {a : Burst} (hia : i.a = some a)
    (hfull : boxRoom ((s.ctlAt s.here).box (n.rcd.k0.extractLsb' 0 3).toNat) (sinkEntry a) = false) : sinkReact s n i = none := by
  unfold sinkEntry at hfull
  simp only [sinkReact, hia, sinkWord_eq, hfull, Bool.false_eq_true, if_false]

/-! ### ESINK (R146) -/

@[simp] theorem length_esinkReport (lid id : Nat) (n : Node) (b : Burst) : (esinkReport lid id n b).length = 64 := by
  simp [esinkReport]

/-- The place in ESINK's ring of its next report. -/
def Node.ringOffset (n : Node) : Nat := n.rcd.k0.toNat + 64 * ((n.reg 3).toNat % (n.rcd.k1.extractLsb' 0 11).toNat)

/-- ESINK writes an error token's report, in a scratchpad whose banks no other task holds. -/
theorem esinkReact_error {s : State} {n : Node} {i : Ins} {a : Burst} (hia : i.a = some a) (ha : isErr a = true)
    (htags : (s.coreAt s.here).bankTags = []) : esinkReact s n i =
      some (s.poke (scratchKey s.here n.ringOffset) (esinkReport (s.lid s.here) s.slot n a), quietReact (n.setReg 3 (n.reg 3 + 1))) := by
  simp only [esinkReact, hia, ha, if_true, State.pokeLocal_untagged htags]
  rfl

/-- ESINK drops and counts any other burst. -/
theorem esinkReact_other {s : State} {n : Node} {i : Ins} {a : Burst} (hia : i.a = some a) (ha : isErr a = false) :
    esinkReact s n i = some (s, quietReact (n.drop 1)) := by
  simp only [esinkReact, hia, ha, Bool.false_eq_true, if_false]

/-- Writing bytes changes memory and its uncorrectable words alone. -/
theorem State.poke_eq (s : State) (k : Nat) (bytes : List Byte) :
    s.poke k bytes = { s with mem := (s.poke k bytes).mem, bad := (s.poke k bytes).bad } := rfl

/-- Bytes written leave every byte outside them. -/
theorem State.bytesBut_poke {s : State} (hs : s.Canonical) (k : Nat) {n : Nat} {bytes : List Byte} (hlen : bytes.length = n) :
    BytesBut k n s (s.poke k bytes) :=
  fun _ hk => readCell_writeBytes_of_ne hs (by rwa [hlen])

/-- Bytes written are read back. -/
theorem State.peek_poke {s : State} (hs : s.Canonical) (k : Nat) {n : Nat} {bytes : List Byte} (hlen : bytes.length = n) :
    (s.poke k bytes).peek k n = bytes := by
  subst hlen
  exact readBytes_writeBytes hs

/-! ### CPYT (R147) -/

/-- CPYT on data whose template is armed: it waits while the template's queue is full. -/
theorem cpytReact_data {s : State} {n : Node} {i : Ins} {a : Burst} (hia : i.a = some a) (ha : IsData a)
    (harmed : (tget (s.coreAt s.here).ce.templates (n.rcd.k0.extractLsb' 0 4).toNat).isSome = true) :
    cpytReact s n i = let t := (n.rcd.k0.extractLsb' 0 4).toNat
      if 16 ≤ (s.coreAt s.here).ce.queued t then none
      else some (s.modCe s.here (fun e => e.place
        { tpl := some t, job := none, level := hdrLevel a.hdr, value := n.reg 3, empty := false }), quietReact (n.setReg 3 (n.reg 3 + 1))) := by
  have hkind : hdrKind a.hdr = 0 := ha
  have harmed : (tget (s.coreAt s.here).ce.templates (n.rcd.k0.extractLsb' 0 4).toNat).isNone = false := by
    rw [Option.isNone_eq_false_iff, harmed]
  simp only [cpytReact, hia, hkind, harmed, true_or, if_true, Bool.false_eq_true, if_false]
  rfl

/-! ### LTX and LRX (R367, R368, R380) -/

/-- LTX without `.S` on a present burst: dropped at a port that is down, else handed over once the port takes it. -/
theorem ltxReact_burst {s : State} {n : Node} {i : Ins} {a : Burst} (hia : i.a = some a) (hvar : n.rcd.var.getLsbD 0 = false) :
    ltxReact s n i = let q := s.portAt n.port
      let frames := q.framesOf n.vc [a]
      if q.up then
        if q.takes n.vc frames then some (s.modPort n.port (fun q => frames.foldl (fun z f => z.handFrame n.vc f) q), onX n none) else none
      else some (s, onX (n.drop 1) none) := by
  have hgate : ∀ abs kept, absGate abs [some a] kept = .go [some a] := absGate_present (bs := [a]) (by simp)
  simp only [ltxReact, hia, hvar, Bool.false_eq_true, if_false, hgate, presentOf_cons_some, presentOf_nil, List.length_singleton]
  cases (s.portAt n.port).up <;> rfl

@[simp] theorem State.portAt_modPort_self (s : State) (p : Nat) (f : Port → Port) : (s.modPort p f).portAt p = f (s.portAt p) := by
  simp [State.portAt, State.modPort, tgetD]

@[simp] theorem State.portAt_modPort_ne (s : State) {p k : Nat} (f : Port → Port) (h : k ≠ p) :
    (s.modPort p f).portAt k = s.portAt k := by
  simp [State.portAt, State.modPort, tgetD, h]

/-- An entry of an eight-entry list after it is changed. -/
theorem vget_vmod_self {α : Type} (d : α) (v : Vector α 8) {k : Nat} (hk : k < 8) (f : α → α) :
    vget d (vmod v k f) k = f (vget d v k) := by
  simp [vget, vmod, hk]

/-- The channel of a link endpoint is one of a port's eight. -/
theorem Node.vc_lt (n : Node) : n.vc < 8 := (n.rcd.k0.extractLsb' 4 3).isLt

/-- A port whose oldest frame of a channel has been taken, its slot released while the channel is enabled. -/
def Port.slotTaken (vc : Nat) (q : Port) : Port :=
  let t := { q with slots := vmod q.slots vc (fun l => l.drop 1) }
  if chanBit t.en vc then t.release vc 1 else t

/-- The frames that wait once the oldest has been taken. -/
theorem Port.slots_slotTaken (q : Port) {vc : Nat} (hvc : vc < 8) :
    vget [] (q.slotTaken vc).slots vc = (vget [] q.slots vc).drop 1 := by
  have hslots : (q.slotTaken vc).slots = vmod q.slots vc (fun l => l.drop 1) := by
    unfold Port.slotTaken
    dsimp only
    split <;> rfl
  rw [hslots, vget_vmod_self _ _ hvc]

/-- An LRX without `.S`, its port not lost, takes one frame in an instant. -/
theorem framesDue_one {n : Node} (hdown : n.down = none) (hvar : n.rcd.var.getLsbD 0 = false) : n.framesDue = 1 := by
  simp only [Node.framesDue, hdown, hvar, Bool.false_eq_true, if_false]

section
variable {s : State} {n : Node} (hexh : n.exh = false) (hdown : n.down = none) (hvar : n.rcd.var.getLsbD 0 = false)
include hexh hdown hvar

/-- An LRX without `.S`, its port not lost, takes the oldest frame. -/
theorem lrxReact_frame {a : Burst} {rest : List Burst} (hslots : vget [] (s.portAt n.port).slots n.vc = a :: rest) (i : Ins) :
    let bursts := (n.rcd.k1.extractLsb' 0 16).toNat
    lrxReact s n i = some (s.modPort n.port (Port.slotTaken n.vc), onXY { n with
      emitted := n.emitted + 1,
      exh := if bursts = 0 then hdrLevel a.hdr == 7 else decide (bursts ≤ n.emitted + 1) } (some a) none) := by
  simp only [lrxReact, hexh, framesDue_one hdown hvar, hslots, hdown, Bool.false_eq_true, if_false, List.length_cons,
    show ¬1 = 0 from nofun, show ¬rest.length + 1 < 1 by omega, show ¬1 = 2 from nofun, List.headD_cons, Option.map_none]
  rfl

/-- An LRX waits for a frame. -/
theorem lrxReact_waits (hslots : vget [] (s.portAt n.port).slots n.vc = []) (i : Ins) : lrxReact s n i = none := by
  simp [lrxReact, hexh, framesDue_one hdown hvar, hslots]

end

/-! ### RED2, SREQ and STATW (R371–R373, R384) -/

/-- RED2 on data bursts of one length whose lanes fill BLEN. -/
theorem red2React_data {n : Node} {i : Ins} {a b : Burst} (hia : i.a = some a) (hib : i.b = some b) (ha : IsData a) (hb : IsData b)
    (hlen : b.beats.length = a.beats.length) :
    let f := atomFmtD n.rcd.fmt.toNat
    let m := n.keepAll [some a, some b]
    let out := List.zipWith (red2Atom m f (hdrBeta a.hdr) (hdrBeta b.hdr)) (atomsIn f a) (atomsIn f b)
    (atomsIn f a).length * f.l = 4 * blenOf n.rcd →
      red2React n i = m.emits (orFlgs (out.map Prod.snd))
        (dataBurst (max (hdrLevel a.hdr) (hdrLevel b.hdr)) 0 (beatsOfLanes 16 (out.flatMap (fun o => o.1.map laneBits)))) := by
  intro f m out hfit
  simp only [red2React, hia, hib, syncReact_two ha hb, presentOf_cons_some, presentOf_nil, outLevel_false, maxLevel_two, Node.keepAll_rcd]
  exact if_neg (by simpa [isEmpty_of_data ha, isEmpty_of_data hb, hlen] using hfit)

/-- SREQ's atoms of a burst of lanes (R372): its groups, the rest of the last beat empty. -/
def sreqOut (n : Node) (a : Burst) : List (Nat × Flg) :=
  let f := atomFmtD n.rcd.fmt.toNat
  let groups := chunk f.l ((lanesOfBeats 16 a.beats).map (fun y => accOfLane (laneOf y)))
  (groups ++ List.replicate (blenOf n.rcd * f.perBeat - groups.length) []).zipIdx.map (fun (y : List Acc × Nat) => sreqAtom n f y.2 y.1)

/-- SREQ without status inputs on data whose lanes fill BLEN. -/
theorem sreqReact_data {n : Node} {i : Ins} {a : Burst} (hia : i.a = some a) (ha : IsData a) (hb : n.rcd.var.getLsbD 0 = false)
    (hc : n.rcd.var.getLsbD 1 = false) :
    let f := atomFmtD n.rcd.fmt.toNat
    let flags := orFlgs ((sreqOut n a).map Prod.snd)
    ((lanesOfBeats 16 a.beats).length + f.l * f.perBeat - 1) / (f.l * f.perBeat) = blenOf n.rcd →
      sreqReact n i = onXY (n.flag flags) (some (dataBurst (hdrLevel a.hdr) 0 (beatsOfLanes f.w ((sreqOut n a).map Prod.fst))))
        (some (statusBurst (flgBits flags) 0)) := by
  intro f flags hfit
  have hgate : ∀ abs kept, absGate abs [some a] kept = .go [some a] := absGate_present (bs := [a]) (by simp)
  have hnone : statusOr [] = 0 := rfl
  simp only [sreqReact, hia, hb, hc, Bool.false_eq_true, if_false, List.append_nil, presentOf_cons_some, presentOf_nil, outLevel_false,
    maxLevel_one, hgate, isErr_of_data ha, isEmpty_of_data ha, isData_of_data ha, List.any_cons, List.any_nil, Bool.not_false,
    Bool.not_true, Bool.and_false, Bool.or_self, hnone, Nat.zero_or]
  exact if_neg (by simpa using hfit)

section
variable {n : Node} {i : Ins} {a b : Burst} (hia : i.a = some a) (hib : i.b = some b) (ha : IsData a) (hb : IsData b)
  (hk0 : n.rcd.k0.getLsbD 0 = true) (hk1 : n.rcd.k0.getLsbD 1 = true) (hk2 : n.rcd.k0.getLsbD 2 = false)
include hia hib ha hb hk0 hk1 hk2

/-- STATW of A and B, both data: bursts of one length merge, others are a mismatch. -/
theorem statwReact_data : statwReact n i = if b.beats.length = a.beats.length then
      both n (some (statusBurst ((tokAt a 0).toNat ||| (tokAt b 0).toNat) (max (hdrLevel a.hdr) (hdrLevel b.hdr))))
    else failed n 0x21 (max (hdrLevel a.hdr) (hdrLevel b.hdr)) := by
  have hgate : ∀ abs kept, absGate abs [some a, some b] kept = .go [some a, some b] := absGate_present (bs := [a, b]) (by simp)
  have hor : statusOr [some a, some b] = (tokAt a 0).toNat ||| (tokAt b 0).toNat := by
    simp [statusOr, isErr_of_data ha, isErr_of_data hb, isData_of_data ha, isData_of_data hb]
  have hins : statwReact n i = if (presentOf [some a, some b]).any isEmpty || !sameLength ((presentOf [some a, some b]).filter isData) then
      failed n 0x21 (maxLevel [a, b]) else both n (some (statusBurst (statusOr [some a, some b]) (maxLevel [a, b]))) := by
    simp only [statwReact, hk0, hk1, hk2, Bool.false_eq_true, if_true, if_false, hia, hib, List.append_nil, List.singleton_append, hgate]
    simp [isData_of_data ha, isData_of_data hb]
  by_cases hlen : b.beats.length = a.beats.length <;>
    simp [hins, hor, isData_of_data ha, isData_of_data hb, isEmpty_of_data ha, isEmpty_of_data hb, sameLength, hlen]

end

end Sys2Proof.Machine
end

section
/-!
PROOFS. The endpoints of chapters 07 and 18, and RED2, SREQ and STATW: O41.
-/

open Sys2Proof Sys2Proof.Machine Sys2Proof.Claim

/-- Settles O41: each node runs one reaction, which on the inputs of its clause either ends the instant in the package it names
(`srcReact_burst`, `esinkReact_error`, `ltxReact_burst`, `lrxReact_frame`, `sreqReact_data`) or waits (`exec_with_waits`). -/
theorem endpointNodes : Obligations.EndpointNodes := by
  intro r s n i a b hcanon
  dsimp only
  refine ⟨fun rest h hexh => ?src, fun hia => ?_, fun rest h hexh hdown hvar => ?lrx⟩
  case src =>
    obtain ⟨-, rfl⟩ := ready_node h
    exact ⟨fun hout => firesIn_always h rfl rfl (srcReact_burst hexh hout i),
      fun hout => exec_with_waits h rfl (.inr rfl) (srcReact_empty hexh hout i)⟩
  case lrx =>
    obtain ⟨-, rfl⟩ := ready_node h
    refine ⟨fun hslots => ⟨_, firesIn_always h rfl rfl (lrxReact_frame hexh hdown hvar hslots i), rfl, ?_,
      fun k hk => s.portAt_modPort_ne _ hk⟩, fun hslots => exec_with_waits h rfl (.inr rfl) (lrxReact_waits hexh hdown hvar hslots i)⟩
    refine (congrArg (fun q : Port => vget [] q.slots n.vc) (s.portAt_modPort_self n.port _)).trans ?_
    exact (Port.slots_slotTaken _ n.vc_lt).trans (congrArg (List.drop 1) hslots)
  have busy : i.quiet = false := by simp [Ins.quiet, hia]
  refine ⟨fun h => ?sink, fun h htags => ?esink, fun h ha harmed => ?cpyt, fun h hvar => ?ltx, fun h hib ha hb hlen hfit => ?red2,
    fun h ha hb hc hfit => ?sreq, fun h hib ha hb hk0 hk1 hk2 hlen => ?mismatch, fun h hib ha hb hk0 hk1 hk2 hlen => ?statw⟩
  case sink =>
    obtain ⟨-, rfl⟩ := ready_node h
    exact ⟨fun hroom => firesIn_with h rfl busy (sinkReact_room hia hroom),
      fun hfull => exec_with_waits h rfl (.inl busy) (sinkReact_full hia hfull)⟩
  case esink =>
    obtain ⟨-, rfl⟩ := ready_node h
    exact ⟨fun herra => ⟨_, firesIn_with h rfl busy (esinkReact_error hia herra htags), s.poke_eq ..,
      State.bytesBut_poke hcanon _ (length_esinkReport ..), State.peek_poke hcanon _ (length_esinkReport ..)⟩,
      fun hother => firesIn_with h rfl busy (esinkReact_other hia hother)⟩
  case cpyt =>
    obtain ⟨-, rfl⟩ := ready_node h
    have hreact := cpytReact_data hia ha harmed
    exact ⟨fun hroom => firesIn_with h rfl busy (hreact.trans (if_neg (Nat.not_le.2 hroom))),
      fun hfull => exec_with_waits h rfl (.inl busy) (hreact.trans (if_pos hfull))⟩
  case ltx =>
    obtain ⟨-, rfl⟩ := ready_node h
    have hreact := ltxReact_burst (s := s) hia hvar
    exact ⟨fun hup htakes => firesIn_with h rfl busy (hreact.trans ((if_pos hup).trans (if_pos htakes))),
      fun hup hfull => exec_with_waits h rfl (.inl busy) (hreact.trans ((if_pos hup).trans (if_neg (Bool.eq_false_iff.1 hfull)))),
      fun hdown => firesIn_with h rfl busy (hreact.trans (if_neg (Bool.eq_false_iff.1 hdown)))⟩
  case red2 =>
    obtain ⟨-, rfl⟩ := ready_node h
    exact fires_pure h rfl busy (red2React_data hia hib ha hb hlen hfit)
  case sreq =>
    obtain ⟨-, rfl⟩ := ready_node h
    exact fires_pure h rfl busy (sreqReact_data hia ha hb hc (by simpa using hfit))
  case mismatch =>
    obtain ⟨-, rfl⟩ := ready_node h
    exact fires_pure h rfl busy ((statwReact_data hia hib ha hb hk0 hk1 hk2).trans (if_neg hlen))
  case statw =>
    obtain ⟨-, rfl⟩ := ready_node h
    exact fires_pure h rfl busy ((statwReact_data hia hib ha hb hk0 hk1 hk2).trans (if_pos hlen))

end

section
/-!
SUPPORT. The events of memory (R265, R288, R289, R291, R365, R366): the walk of a page table after an entry's COW bit is cleared,
what a drain leaves of the package, and what each event does.
-/

namespace Sys2Proof.Machine

open Claim

/-! ### Walks of a page table (R286–R288) -/

/-- The entry at an address of a page table. -/
def State.entryAt (s : State) (a : Nat) : BitVec 64 := BitVec.ofNat 64 (s.peekNat a 8)

/-- One level of a walk (R288). -/
theorem walkFrom_succ (s : State) (va fuel level a : Nat) : walkFrom s va (fuel + 1) level a =
    if s.badIn a 8 || !pteValid (s.entryAt a) || pteMalformed level (s.entryAt a) then none
    else if pteLeaf (s.entryAt a) then some (a, s.entryAt a, pageSize level)
    else walkFrom s va fuel (level + 1) (pteAddr (s.entryAt a) + 8 * pageIndex va (level + 1)) := rfl

/-- A walk reads memory and its uncorrectable words alone. -/
theorem walkFrom_congr {s t : State} (hmem : t.mem = s.mem) (hbad : t.bad = s.bad) (va : Nat) :
    ∀ fuel level a, walkFrom t va fuel level a = walkFrom s va fuel level a
  | 0, _, _ => rfl
  | fuel + 1, level, a => by
    have hentry : t.entryAt a = s.entryAt a := by simp only [State.entryAt, State.peekNat, hmem]
    have hword : t.badIn a 8 = s.badIn a 8 := by simp only [State.badIn, hbad]
    rw [walkFrom_succ, walkFrom_succ, hentry, hword, walkFrom_congr hmem hbad va fuel]

/-- The walk of a partition's table starts at its PTROOT. -/
theorem State.walkTable_congr {s t : State} {part : Nat} (hmem : t.mem = s.mem) (hbad : t.bad = s.bad)
    (hroot : (t.partAt part).ptroot = (s.partAt part).ptroot) (va : Nat) : t.walkTable part va = s.walkTable part va := by
  rw [State.walkTable, State.walkTable, hroot, walkFrom_congr hmem hbad]

/-- Every entry lies on 8 bytes: the tables below a level are aligned (R286). -/
theorem entry_aligned (e : BitVec 64) (i : Nat) : (pteAddr e + 8 * i) % 8 = 0 := by
  rw [pteAddr]; omega

theorem root_aligned (n i : Nat) : (n * 2 ^ 17 + 8 * i) % 8 = 0 := by omega

/-- Where a walk ends: at an aligned leaf entry without an uncorrectable word. -/
theorem walkFrom_leaf {s : State} {va : Nat} {x : Nat × BitVec 64 × Nat} : ∀ {fuel level a : Nat}, a % 8 = 0 →
    walkFrom s va fuel level a = some x → x.1 % 8 = 0 ∧ s.badIn x.1 8 = false ∧ x.2.1 = s.entryAt x.1 ∧ pteLeaf x.2.1 = true
  | 0, _, _, _, h => nomatch h
  | fuel + 1, level, a, ha, h => by
    rw [walkFrom_succ] at h
    split at h
    · cases h
    · next hok =>
      split at h
      · next hleaf =>
        cases h
        exact ⟨ha, by simp_all, rfl, hleaf⟩
      · exact walkFrom_leaf (entry_aligned ..) h

theorem State.walkTable_leaf {s : State} {part va : Nat} {x : Nat × BitVec 64 × Nat} (h : s.walkTable part va = some x) :
    x.1 % 8 = 0 ∧ s.badIn x.1 8 = false ∧ x.2.1 = s.entryAt x.1 ∧ pteLeaf x.2.1 = true :=
  walkFrom_leaf (root_aligned ..) h

/-! ### COW cleared (R287, R365) -/

/-- An entry with COW clear. -/
def uncow (e : BitVec 64) : BitVec 64 := e &&& ~~~BitVec.twoPow 64 55

theorem getLsbD_uncow (e : BitVec 64) (k : Nat) : (uncow e).getLsbD k = (e.getLsbD k && !decide (k = 55)) := by
  have hbit : (BitVec.twoPow 64 55).getLsbD k = decide (k = 55) := by rw [BitVec.getLsbD_twoPow]; simp [eq_comm]
  by_cases hk : k < 64
  · rw [uncow, BitVec.getLsbD_and, BitVec.getLsbD_not, hbit]
    simp [hk]
  · simp [BitVec.getLsbD_of_ge _ _ (Nat.le_of_not_lt hk)]

theorem getLsbD_uncow_ne (e : BitVec 64) {k : Nat} (h : k ≠ 55) : (uncow e).getLsbD k = e.getLsbD k := by simp [getLsbD_uncow, h]

@[simp] theorem pteCow_uncow (e : BitVec 64) : pteCow (uncow e) = false := (getLsbD_uncow e 55).trans (Bool.and_false _)

@[simp] theorem pteValid_uncow (e : BitVec 64) : pteValid (uncow e) = pteValid e := getLsbD_uncow_ne e (by decide)

@[simp] theorem pteLeaf_uncow (e : BitVec 64) : pteLeaf (uncow e) = pteLeaf e := getLsbD_uncow_ne e (by decide)

/-- A field of an entry that COW is no bit of. -/
theorem bitsOf_uncow (e : BitVec 64) {hi lo : Nat} (h : hi < 55 ∨ 55 < lo) : bitsOf (uncow e).toNat hi lo = bitsOf e.toNat hi lo := by
  refine Nat.eq_of_testBit_eq fun i => ?_
  simp only [bitsOf, Nat.testBit_mod_two_pow, Nat.testBit_div_two_pow, BitVec.testBit_toNat, getLsbD_uncow]
  by_cases hi' : i < hi + 1 - lo
  · have : i + lo ≠ 55 := by omega
    simp [this]
  · simp [hi']

/-- A leaf is malformed or not whatever its COW bit is (R287). -/
theorem pteMalformed_uncow {e : BitVec 64} (h : pteLeaf e = true) (level : Nat) : pteMalformed level (uncow e) = pteMalformed level e := by
  have haddr : pteAddr (uncow e) = pteAddr e := congrArg (· * 256) (bitsOf_uncow e (.inl (by decide)))
  have hhome : pteHome (uncow e) = pteHome e := bitsOf_uncow e (.inr (by decide))
  rw [pteMalformed, pteMalformed, getLsbD_uncow_ne e (by decide), getLsbD_uncow_ne e (by decide), haddr, hhome, pteLeaf_uncow, if_pos h, if_pos h]

/-- An entry read after COW is cleared in the entry at an aligned address. -/
theorem State.entryAt_markCow {s : State} (hs : s.Canonical) {a b : Nat} (ha : a % 8 = 0) (hb : b % 8 = 0) :
    (s.markCow a false).entryAt b = if b = a then uncow (s.entryAt a) else s.entryAt b := by
  split
  · next heq =>
    subst heq
    have hread : readBytes (s.markCow b false).mem b 8 = bytesOfNat (uncow (s.entryAt b)).toNat 8 := by
      have := readBytes_writeBytes (a := b) (l := bytesOfNat (uncow (s.entryAt b)).toNat 8) hs
      rwa [length_bytesOfNat] at this
    rw [State.entryAt, State.peekNat, readNat, hread, natOfBytes_bytesOfNat, Nat.mod_eq_of_lt (BitVec.isLt _), BitVec.ofNat_toNat,
      BitVec.setWidth_eq]
  · next hne =>
    have hread : readBytes (s.markCow a false).mem b 8 = readBytes s.mem b 8 :=
      readBytes_congr fun y hlo hhi => readCell_writeBytes_of_ne hs (by rw [length_bytesOfNat]; omega)
    rw [State.entryAt, State.peekNat, readNat, hread]
    rfl

/-- Clearing COW in an entry without an uncorrectable word cures none. -/
theorem State.markCow_bad {s : State} {a : Nat} (h : s.badIn a 8 = false) (on : Bool) : (s.markCow a on).bad = s.bad := by
  refine List.filter_eq_self.mpr fun w hw => ?_
  have := List.any_eq_false.mp h w hw
  simp only [length_bytesOfNat, Bool.not_eq_true', Bool.and_eq_false_iff, decide_eq_false_iff_not, Bool.not_eq_true] at this ⊢
  omega

/-- A state in which COW is cleared in entries that walks for granules of a set end at, from the state before. -/
structure State.Thaws (part : Nat) (gs : Nat → Prop) (s z : State) : Prop where
  frame : z = { s with mem := z.mem }
  form : z.Canonical
  walks : ∀ va x, z.walkTable part va = some x → ∃ e, s.walkTable part va = some (x.1, e, x.2.2) ∧ (pteCow e = false → pteCow x.2.1 = false)
  bytes : ∀ k, (∀ g x, gs g → s.walkTable part (65536 * g) = some x → k < x.1 ∨ x.1 + 8 ≤ k) → readCell z.mem k = readCell s.mem k

theorem State.Thaws.refl {part : Nat} {gs : Nat → Prop} {s : State} (hs : s.Canonical) : State.Thaws part gs s s :=
  ⟨rfl, hs, fun _ x h => ⟨x.2.1, h, id⟩, fun _ _ => rfl⟩

theorem State.Thaws.trans {part : Nat} {gs : Nat → Prop} {s y z : State} (h : State.Thaws part gs s y) (h' : State.Thaws part gs y z) :
    State.Thaws part gs s z where
  frame := by rw [h'.frame, h.frame]
  form := h'.form
  walks va x hx := by
    obtain ⟨e, he, hcow⟩ := h'.walks va x hx
    obtain ⟨d, hd, hcow'⟩ := h.walks va _ he
    exact ⟨d, hd, hcow ∘ hcow'⟩
  bytes k hk := by
    refine (h'.bytes k fun g x hg hx => ?_).trans (h.bytes k hk)
    obtain ⟨e, he, -⟩ := h.walks _ x hx
    exact hk g (x.1, e, x.2.2) hg he

theorem State.Thaws.partAt {part : Nat} {gs : Nat → Prop} {s z : State} (h : State.Thaws part gs s z) (p : Nat) : z.partAt p = s.partAt p := by
  rw [h.frame]; rfl

theorem State.Thaws.agents {part : Nat} {gs : Nat → Prop} {s z : State} (h : State.Thaws part gs s z) :
    z.cores = s.cores ∧ z.teams = s.teams := by
  rw [h.frame]; exact ⟨rfl, rfl⟩

/-- Where entries differ from those before in the COW bit of leaves at most, walks end at the same entries. -/
theorem walkFrom_uncow {s z : State} (hbad : z.bad = s.bad) (hentry : ∀ b, b % 8 = 0 → z.entryAt b = s.entryAt b ∨
      pteLeaf (s.entryAt b) = true ∧ z.entryAt b = uncow (s.entryAt b)) {va : Nat} {x : Nat × BitVec 64 × Nat} :
    ∀ {fuel level a : Nat}, a % 8 = 0 → walkFrom z va fuel level a = some x →
      ∃ e, walkFrom s va fuel level a = some (x.1, e, x.2.2) ∧ (pteCow e = false → pteCow x.2.1 = false)
  | 0, _, _, _, h => nomatch h
  | fuel + 1, level, a, ha, h => by
    have hword : z.badIn a 8 = s.badIn a 8 := by simp only [State.badIn, hbad]
    rw [walkFrom_succ, hword] at h
    rw [walkFrom_succ]
    rcases hentry a ha with heq | ⟨hleaf, heq⟩
    · rw [heq] at h
      split at h
      · cases h
      · next hok =>
        rw [if_neg hok]
        split at h
        · next hleaf => cases h; exact ⟨_, if_pos hleaf, id⟩
        · next hleaf => rw [if_neg hleaf]; exact walkFrom_uncow hbad hentry (entry_aligned ..) h
    · rw [heq, pteValid_uncow, pteLeaf_uncow, pteMalformed_uncow hleaf, if_pos hleaf] at h
      rw [if_pos hleaf]
      split at h
      · cases h
      · next hok => cases h; exact ⟨_, if_neg hok, fun _ => pteCow_uncow _⟩

/-- COW cleared in the entry that the walk for a granule ends at. -/
theorem State.thaws_markCow {s : State} (hs : s.Canonical) {part g : Nat} {gs : Nat → Prop} (hg : gs g) {x : Nat × BitVec 64 × Nat}
    (h : s.walkTable part (65536 * g) = some x) : State.Thaws part gs s (s.markCow x.1 false) := by
  obtain ⟨halign, hgood, hentry, hleaf⟩ := State.walkTable_leaf h
  refine ⟨?_, State.markCow_wf _ _ _ hs, fun va y hy => walkFrom_uncow (State.markCow_bad hgood _) (fun b hb => ?_) (root_aligned ..) hy,
    fun k hk => readCell_writeBytes_of_ne hs (by rw [length_bytesOfNat]; exact hk g x hg h)⟩
  · rw [← State.markCow_bad hgood false]; rfl
  · rw [State.entryAt_markCow hs halign hb]
    split
    · next heq => subst heq; exact .inr ⟨hentry ▸ hleaf, rfl⟩
    · exact .inl rfl

/-- Whether another slot than the k-th freezes a granule that its drain has not passed (R365). -/
def Part.freezes (pt : Part) (k g : Nat) : Bool :=
  pt.slots.any (fun x => x.1 != k && decide (x.2.base ≤ g) && decide (g < x.2.base + x.2.pages) && !(x.2.drain.any (fun d => d.streamed)))

theorem Part.freezes_eq_false {pt : Part} {k g : Nat} (h : ∀ x ∈ pt.slots, ¬(x.1 ≠ k ∧ x.2.base ≤ g ∧ g < x.2.base + x.2.pages ∧
    x.2.drain.any (fun d => d.streamed) = false)) : pt.freezes k g = false := by
  refine List.any_eq_false.mpr fun x hx hfrozen => h x hx ?_
  simpa [and_assoc] using hfrozen

/-- COW cleared in the entry of one granule of a slot (R365). -/
def State.thawPage (s : State) (part k g : Nat) : State :=
  if (s.partAt part).freezes k g then s
  else match s.walkTable part (65536 * g) with
    | some (a, e, _) => if pteCow e then s.markCow a false else s
    | none => s

theorem State.thaw_eq (s : State) (part k : Nat) (sl : Slot) : s.thaw part k sl =
    (List.range sl.pages).foldl (fun z i => z.thawPage part k (sl.base + i)) s := rfl

theorem State.thaws_thawPage {s : State} (hs : s.Canonical) {part k g : Nat} {gs : Nat → Prop} (hg : gs g) :
    State.Thaws part gs s (s.thawPage part k g) := by
  unfold State.thawPage
  split
  · exact .refl hs
  · split
    · next hwalk =>
      split
      · exact State.thaws_markCow hs hg hwalk
      · exact .refl hs
    · exact .refl hs

/-- After its turn the entry of a granule that no other slot freezes has COW clear. -/
theorem State.pteCow_thawPage {s : State} (hs : s.Canonical) {part k g : Nat} (hfree : (s.partAt part).freezes k g = false)
    {x : Nat × BitVec 64 × Nat} (h : (s.thawPage part k g).walkTable part (65536 * g) = some x) : pteCow x.2.1 = false := by
  obtain ⟨e, he, hkeep⟩ := (State.thaws_thawPage (k := k) (gs := (· = g)) hs rfl).walks _ x h
  cases hcow : pteCow e with
  | false => exact hkeep hcow
  | true =>
    have hpage : s.thawPage part k g = s.markCow x.1 false := by simp [State.thawPage, hfree, he, hcow]
    rw [hpage] at h
    obtain ⟨halign, -, hentry, -⟩ := State.walkTable_leaf h
    rw [hentry, State.entryAt_markCow hs halign halign, if_pos rfl]
    exact pteCow_uncow _

/-- Granules thawed one after the other. -/
theorem State.thaws_foldl {part k base : Nat} {gs : Nat → Prop} : ∀ {l : List Nat} {s : State}, s.Canonical → (∀ i ∈ l, gs (base + i)) →
    State.Thaws part gs s (l.foldl (fun z i => z.thawPage part k (base + i)) s)
  | [], _, hs, _ => .refl hs
  | i :: l, s, hs, hl => by
    have hfirst : State.Thaws part gs s (s.thawPage part k (base + i)) := State.thaws_thawPage hs (hl i (by simp))
    exact hfirst.trans (State.thaws_foldl hfirst.form fun j hj => hl j (List.mem_cons_of_mem _ hj))

theorem State.pteCow_foldl {part k base i : Nat} {x : Nat × BitVec 64 × Nat} : ∀ {l : List Nat} {s : State}, s.Canonical → i ∈ l →
    (s.partAt part).freezes k (base + i) = false →
    (l.foldl (fun z i => z.thawPage part k (base + i)) s).walkTable part (65536 * (base + i)) = some x → pteCow x.2.1 = false
  | j :: l, s, hs, hi, hfree, h => by
    have hfirst : State.Thaws part (fun _ => True) s (s.thawPage part k (base + j)) := State.thaws_thawPage hs trivial
    rw [List.foldl_cons] at h
    rcases List.mem_cons.mp hi with rfl | hi
    · obtain ⟨e, he, hkeep⟩ := (State.thaws_foldl (k := k) (gs := fun _ => True) (l := l) hfirst.form fun _ _ => trivial).walks _ x h
      exact hkeep (State.pteCow_thawPage (x := (x.1, e, x.2.2)) hs hfree he)
    · refine State.pteCow_foldl hfirst.form hi ?_ h
      rwa [hfirst.partAt]

/-- The pages of a slot thawed (R365). -/
theorem State.thaws_thaw {s : State} (hs : s.Canonical) (part k : Nat) (sl : Slot) :
    State.Thaws part (fun g => ∃ i < sl.pages, g = sl.base + i) s (s.thaw part k sl) :=
  State.thaws_foldl hs fun i hi => ⟨i, List.mem_range.mp hi, rfl⟩

theorem State.pteCow_thaw {s : State} (hs : s.Canonical) {part k i : Nat} {sl : Slot} (hi : i < sl.pages)
    (hfree : (s.partAt part).freezes k (sl.base + i) = false) {x : Nat × BitVec 64 × Nat}
    (h : (s.thaw part k sl).walkTable part (65536 * (sl.base + i)) = some x) : pteCow x.2.1 = false :=
  State.pteCow_foldl hs (List.mem_range.mpr hi) hfree h

/-! ### The pages of a slot streamed (R365) -/

/-- Only memory, its uncorrectable words and the partitions may differ. -/
def State.Streamed (s z : State) : Prop := z = { s with mem := z.mem, bad := z.bad, parts := z.parts }

theorem State.Streamed.trans {s y z : State} (h : s.Streamed y) (h' : y.Streamed z) : s.Streamed z := by
  unfold State.Streamed at *
  rw [h', h]

theorem State.streamed_shadowsFor {part va pa : Nat} : ∀ {l : List (Nat × Slot)} {s z : State}, s.shadowsFor part va pa l = some z → s.Streamed z
  | [], _, _, h => by cases h; rfl
  | x :: l, s, z, h => by
    unfold State.shadowsFor at h
    split at h
    · cases h
    · next y hy =>
      refine State.Streamed.trans ?_ (State.streamed_shadowsFor h)
      unfold State.shadowFor at hy
      split at hy <;> cases hy
      rfl

theorem State.streamed_writeGlobal {part : Nat} : ∀ {fuel va : Nat} {l : List Byte} {bad : List Nat} {s z : State},
    s.writeGlobal part fuel va l bad = some z → s.Streamed z
  | 0, _, _, _, _, _, h => by
    simp only [State.writeGlobal] at h
    split at h <;> cases h
    rfl
  | fuel + 1, va, l, bad, s, z, h => by
    simp only [State.writeGlobal] at h
    split at h
    · cases h; rfl
    · split at h
      · next pa pte _ =>
        split at h
        · cases h
        · next y hy =>
          have hready : s.Streamed y := by
            split at hy
            · exact State.streamed_shadowsFor hy
            · cases hy; rfl
          refine hready.trans (State.Streamed.trans ?_ (State.streamed_writeGlobal h))
          rfl
      · cases h

theorem State.streamed_streamSlot {part : Nat} {sl : Slot} {dest : Nat} : ∀ {n i : Nat} {s z : State},
    s.streamSlot part sl dest n i = some z → s.Streamed z
  | 0, _, _, _, h => by cases h; rfl
  | n + 1, i, s, z, h => by
    simp only [State.streamSlot] at h
    split at h
    · cases h
    · split at h
      · cases h
      · next hw => exact (State.streamed_writeGlobal hw).trans (State.streamed_streamSlot h)

/-- A whole page written to a target that is not copy-on-write. -/
theorem State.writeGlobal_page {s : State} {part va pa : Nat} {pte : BitVec 64} {l : List Byte} (hlen : l.length = 65536)
    (hva : va % 65536 = 0) (hxlat : s.xlatTable part va .write = .ok pa pte) (hcow : pteCow pte = false) (fuel : Nat) (bad : List Nat) :
    ∃ y, s.writeGlobal part (fuel + 2) va l bad = some y ∧ y.mem = (s.poke pa l).mem := by
  have hne : l.isEmpty = false := by cases l <;> simp_all
  have hrun : min l.length (65536 - va % 65536) = l.length := by omega
  rw [State.writeGlobal]
  simp only [hne, hxlat, hcow, hrun, List.take_length, List.drop_length, Bool.false_eq_true, if_false]
  rw [State.writeGlobal]
  exact ⟨_, rfl, rfl⟩

/-- A slot of one page streamed. -/
theorem State.streamSlot_page {s : State} (hs : s.Canonical) {part dest from_ to_ : Nat} {sl : Slot} {pte : BitVec 64} (hdest : dest % 65536 = 0)
    (hfrom : s.frozenAt part sl sl.base = some from_) (hxlat : s.xlatTable part dest .write = .ok to_ pte) (hcow : pteCow pte = false) :
    ∃ y, s.streamSlot part sl dest 1 0 = some y ∧ y.peek to_ 65536 = s.peek from_ 65536 ∧ BytesBut to_ 65536 s y := by
  have hlen : (s.peek from_ 65536).length = 65536 := length_readBytes
  obtain ⟨y, hy, hmem⟩ := State.writeGlobal_page hlen hdest hxlat hcow 1
    (s.bad.filterMap fun w => if from_ ≤ w ∧ w < from_ + 65536 then some (w - from_) else none)
  refine ⟨y, ?_, ?_, fun k hk => ?_⟩
  · simp only [State.streamSlot, Nat.add_zero, Nat.mul_zero, hfrom, hy]
  · rw [State.peek, hmem]; exact State.peek_poke hs to_ hlen
  · rw [hmem]; exact State.bytesBut_poke hs to_ hlen k hk

/-! ### The entry of a drain (R230, R265, R366) -/

theorem Ctl.box_putBox_ne (c : Ctl) {b k : Nat} (h : k ≠ b) (e : InEntry) : (c.putBox b e).box k = c.box k := by
  by_cases hk : k < 8 <;> simp [Ctl.box, Ctl.putBox, hk, h]

/-- Delivery asks for a team and its cores alone, and changes nothing else. -/
theorem State.deliver_congr {s t : State} (hcores : t.cores = s.cores) (hteams : t.teams = s.teams) (team core box : Nat) (e : InEntry) :
    t.deliver team core box e = (s.deliver team core box e).map (fun y => { t with cores := y.cores, teams := y.teams }) := by
  have hctl (p : Nat) : t.ctlAt p = s.ctlAt p := by simp only [State.ctlAt, State.coreAt, hcores]
  have hput (p : Nat) (f : Ctl → Ctl) : t.modCtl p f = { t with cores := (s.modCtl p f).cores } := by
    simp only [State.modCtl, State.modCore, State.setCore, State.coreAt, hcores]
  simp only [State.deliver, hteams, hctl, hput]
  (repeat' split) <;> simp [← hcores, ← hteams]

theorem State.deliver_eq {s y : State} {team core box : Nat} {e : InEntry} (h : s.deliver team core box e = some y) :
    y = { s with cores := y.cores, teams := y.teams } := by
  have := State.deliver_congr (s := s) rfl rfl team core box e
  rw [h] at this
  simpa using this

theorem State.deliver_gone {s : State} {team : Nat} (h : tget s.teams team = none) (core box : Nat) (e : InEntry) :
    s.deliver team core box e = some s := by simp only [State.deliver, h]

section
variable {s : State} {team : Nat} {tm : Team} (htm : tget s.teams team = some tm)
include htm

theorem State.deliver_running (hsave : tm.save = none) (core box : Nat) (e : InEntry) : s.deliver team core box e =
    if boxRoom ((s.ctlAt (tm.posOf core)).box box) e then some (s.modCtl (tm.posOf core) (fun c => c.putBox box e)) else none := by
  simp only [State.deliver, htm, hsave]

theorem State.deliver_saved {sv : Saved} (hsave : tm.save = some sv) {core : Nat} {c : Core} (hc : sv.cores[core]? = some c)
    (box : Nat) (e : InEntry) :
    s.deliver team core box e = if boxRoom (c.ctl.box box) e then
      some { s with teams := tset s.teams team { tm with save := some { sv with
        cores := lmod sv.cores core (fun c => { c with ctl := c.ctl.putBox box e }) } } } else none := by
  simp only [State.deliver, htm, hsave, hc]

end

/-! ### The end of a drain -/

theorem State.drainEnd_some {s y : State} {part k : Nat} {sl : Slot} {d : Drain}
    (h : s.deliver d.team d.core d.box (drainEntry sl.pages k d.engine) = some y) :
    s.drainEnd part k sl d = y.modPart part (fun pt => { pt with slots := terase pt.slots k }) := by simp only [State.drainEnd, h]

theorem State.drainEnd_none {s : State} {part k : Nat} {sl : Slot} {d : Drain}
    (h : s.deliver d.team d.core d.box (drainEntry sl.pages k d.engine) = none) : s.drainEnd part k sl d = s := by
  simp only [State.drainEnd, h]

theorem State.partAt_modPart_self (s : State) (p : Nat) (f : Part → Part) : (s.modPart p f).partAt p = f (s.partAt p) := by
  rw [State.partAt_modPart, if_pos rfl]

/-- With its entry delivered a drain gives its slot up. -/
theorem State.slot_drainEnd {s : State} {part k : Nat} {sl : Slot} {d : Drain}
    (h : (s.deliver d.team d.core d.box (drainEntry sl.pages k d.engine)).isSome = true) :
    tget ((s.drainEnd part k sl d).partAt part).slots k = none := by
  obtain ⟨y, hy⟩ := Option.isSome_iff_exists.mp h
  rw [State.drainEnd_some hy, State.partAt_modPart_self]
  simp [tget_terase]

/-- The end of a drain leaves uncorrectable words, and its partition's page table and pool. -/
theorem State.drainEnd_keeps (s : State) (part k : Nat) (sl : Slot) (d : Drain) : (s.drainEnd part k sl d).bad = s.bad ∧
    ((s.drainEnd part k sl d).partAt part).ptroot = (s.partAt part).ptroot ∧
    ((s.drainEnd part k sl d).partAt part).pool = (s.partAt part).pool := by
  cases h : s.deliver d.team d.core d.box (drainEntry sl.pages k d.engine) with
  | none => rw [State.drainEnd_none h]; exact ⟨rfl, rfl, rfl⟩
  | some y =>
    rw [State.drainEnd_some h, State.partAt_modPart_self, State.deliver_eq h]
    exact ⟨rfl, rfl, rfl⟩

/-! ### PAGE_WALK_COMPLETE (R288, R289) -/

theorem tlbPut_head? (cap pick : Nat) (l : List TlbEnt) (e : TlbEnt) : (tlbPut cap pick l e).head? = some e := by
  unfold tlbPut; split <;> rfl

/-- A translation put into a die's buffer stands first in it. -/
theorem State.head?_dieTlbPut (s : State) (die : Nat) (e : TlbEnt) : (tgetD [] (s.dieTlbPut die e).dieTlb die).head? = some e := by
  simp only [State.dieTlbPut, State.draw, tgetD, tget_tset_self, Option.getD_some, tlbPut_head?]

/-- The accesses that joined a walk each receive its fault. -/
def State.failWalk (s : State) (page : Nat) (l : List Agent) : State :=
  l.foldl (fun z a => z.modCore a.core (fun c => { c with walkBad := c.walkBad ++ [(a.who, page)] })) s

theorem State.failWalk_eq (page : Nat) : ∀ (l : List Agent) (s : State), s.failWalk page l = { s with cores := (s.failWalk page l).cores }
  | [], _ => rfl
  | a :: l, s => State.failWalk_eq page l (s.modCore a.core fun c => { c with walkBad := c.walkBad ++ [(a.who, page)] })

/-- A fault once received stays until it is taken. -/
theorem State.walkFailed_failWalk {p who page : Nat} : ∀ {l : List Agent} {s : State},
    s.walkFailed p who page = true ∨ { core := p, who := who } ∈ l → (s.failWalk page l).walkFailed p who page = true
  | [], _, h => h.elim id fun h => nomatch h
  | a :: l, s, h => by
    refine State.walkFailed_failWalk (l := l) (s := s.modCore a.core fun c => { c with walkBad := c.walkBad ++ [(a.who, page)] }) ?_
    simp only [State.walkFailed, State.coreAt_modCore, List.contains_iff_mem, List.mem_cons] at h ⊢
    rcases h with h | rfl | h
    · left
      split
      · next heq => subst heq; simp [h]
      · exact h
    · left; simp
    · exact .inr h

section
variable {s : State} {die part page : Nat} {w : Walk} (hfind : s.walks.find? (fun w => w.die == die && w.part == part && w.page == page) = some w)
include hfind

/-- A walk that ends at a leaf. -/
theorem exec_pageWalkComplete_mapped {a size : Nat} {pte : BitVec 64} (h : s.walkTable part (65536 * page) = some (a, pte, size)) :
    exec (.pageWalkComplete die part page) s = .next (({ s with walks := s.walks.erase w } : State).dieTlbPut die
      { part := part, page := 65536 * page / size * size, size := size, pte := pte }) := by
  have hwalk : ({ s with walks := s.walks.erase w } : State).walkTable part (65536 * page) = some (a, pte, size) :=
    (State.walkTable_congr rfl rfl rfl _).trans h
  change execPageWalkComplete die part page s = _
  simp only [execPageWalkComplete, hfind, hwalk]

/-- A walk that ends in a translation fault. -/
theorem exec_pageWalkComplete_unmapped (h : s.walkTable part (65536 * page) = none) :
    exec (.pageWalkComplete die part page) s = .next (({ s with walks := s.walks.erase w } : State).failWalk page w.joined) := by
  have hwalk : ({ s with walks := s.walks.erase w } : State).walkTable part (65536 * page) = none :=
    (State.walkTable_congr rfl rfl rfl _).trans h
  change execPageWalkComplete die part page s = _
  simp only [execPageWalkComplete, hfind, hwalk]
  rfl

end

/-! ### TLB_INVALIDATION (R289, R291) -/

/-- The partition of a core: its team's, else its tag. -/
def State.ownerPart (s : State) (c : Core) : Nat :=
  match c.team with
  | some t => ((tget s.teams t).map Team.part).getD c.tag
  | none => c.tag

theorem State.ownerPart_of_team {s : State} {c : Core} {k : Nat} {tm : Team} (hk : c.team = some k) (htm : tget s.teams k = some tm) :
    s.ownerPart c = tm.part := by simp [State.ownerPart, hk, htm]

/-- A core without a partition's translations, and without its held copy where the core is the partition's. -/
def State.invalidated (s : State) (part : Nat) (c : Core) : Core :=
  { c with
    tlb := c.tlb.filter (fun t => t.part != part)
    ce := if s.ownerPart c == part then { c.ce with hold := none } else c.ce }

theorem State.invalidated_reset (s : State) (part : Nat) : s.invalidated part Core.reset = Core.reset := by
  unfold State.invalidated
  split <;> rfl

theorem State.tlbInvalidate_cores (s : State) (part : Nat) :
    (s.tlbInvalidate part).cores = s.cores.map (fun c => (c.1, s.invalidated part c.2)) := by
  simp only [State.tlbInvalidate, State.retryCopies, State.tlbDrop, List.map_map]
  refine List.map_congr_left fun c _ => Prod.ext rfl ?_
  change (if (s.ownerPart c.2 == part) = true then (_ : Core) else _) = s.invalidated part c.2
  unfold State.invalidated
  split <;> rfl

theorem State.coreAt_tlbInvalidate (s : State) (part k : Nat) : (s.tlbInvalidate part).coreAt k = s.invalidated part (s.coreAt k) := by
  rw [State.coreAt, State.coreAt, State.tlbInvalidate_cores, tgetD, tget_map, tgetD]
  cases tget s.cores k with
  | none => exact (s.invalidated_reset part).symm
  | some c => rfl

theorem State.dieTlb_tlbInvalidate (s : State) (part k : Nat) :
    tgetD [] (s.tlbInvalidate part).dieTlb k = (tgetD [] s.dieTlb k).filter (fun t => t.part != part) := by
  change tgetD [] (s.dieTlb.map _) k = _
  rw [tgetD, tget_map, tgetD]
  cases tget s.dieTlb k <;> rfl

/-! ### CHECKPOINT_DRAIN_COMPLETE (R265, R365, R366) -/

/-- The partition after a slot's pages are streamed and thawed: the slot's shadows are in the pool, and the entry of its drain is due. -/
def Part.freed (k : Nat) (sl : Slot) (d : Drain) (shadows : List Nat) (pt : Part) : Part :=
  { pt with pool := pt.pool ++ shadows, slots := tset pt.slots k { sl with shadows := [], drain := some { d with streamed := true } } }

/-- The shadows of a slot. -/
def Part.shadowsOf (pt : Part) (k : Nat) : List Nat := ((tget pt.slots k).map (fun x => x.shadows.map Prod.snd)).getD []

/-- The state after a slot's pages are thawed and its shadows given back, before the entry is delivered. -/
def State.slotFreed (z : State) (part k : Nat) (sl : Slot) (d : Drain) : State :=
  (z.thaw part k sl).modPart part (Part.freed k sl d ((z.partAt part).shadowsOf k))

section
variable {s : State} {part slot : Nat} {sl : Slot} {d : Drain} (hslot : tget (s.partAt part).slots slot = some sl) (hdrain : sl.drain = some d)
include hslot hdrain

/-- A drain whose pages are streamed. -/
theorem exec_checkpointDrainComplete_streamed (h : d.streamed = true) :
    exec (.checkpointDrainComplete part slot) s = .next (s.drainEnd part slot sl d) := by
  change execCheckpointDrainComplete part slot s = _
  simp only [execCheckpointDrainComplete, hslot, hdrain, h, if_true]

/-- A drain whose target cannot be written. -/
theorem exec_checkpointDrainComplete_waits (h : d.streamed = false) (hstream : s.streamSlot part sl d.dest sl.pages 0 = none) :
    exec (.checkpointDrainComplete part slot) s = .next s := by
  change execCheckpointDrainComplete part slot s = _
  simp only [execCheckpointDrainComplete, hslot, hdrain, h, hstream, Bool.false_eq_true, if_false]

/-- A drain whose pages are streamed now. -/
theorem exec_checkpointDrainComplete_streams (h : d.streamed = false) {z : State} (hstream : s.streamSlot part sl d.dest sl.pages 0 = some z) :
    exec (.checkpointDrainComplete part slot) s = .next ((z.slotFreed part slot sl d).drainEnd part slot
      { sl with shadows := [], drain := some { d with streamed := true } } { d with streamed := true }) := by
  change execCheckpointDrainComplete part slot s = _
  simp only [execCheckpointDrainComplete, hslot, hdrain, h, hstream, Bool.false_eq_true, if_false, State.slotFreed, Part.shadowsOf]
  cases tget (z.partAt part).slots slot <;> rfl

end

section
variable {z : State} (hz : z.Canonical) (part k : Nat) (sl : Slot) (d : Drain)
include hz

/-- A slot freed is thawed in memory, and its partition has its shadows back. -/
theorem State.slotFreed_parts : (z.slotFreed part k sl d).partAt part = Part.freed k sl d ((z.partAt part).shadowsOf k) (z.partAt part) := by
  rw [State.slotFreed, State.partAt_modPart_self, (State.thaws_thaw hz part k sl).partAt]

/-- Freeing a slot moves no core and no team. -/
theorem State.slotFreed_agents : (z.slotFreed part k sl d).cores = z.cores ∧ (z.slotFreed part k sl d).teams = z.teams := by
  obtain ⟨hcores, hteams⟩ := (State.thaws_thaw hz part k sl).agents
  exact ⟨hcores, hteams⟩

/-- What a freed slot's drain ends in has the page table of the thawed state. -/
theorem State.walkTable_drainEnd_slotFreed (sl' : Slot) (d' : Drain) (va : Nat) :
    ((z.slotFreed part k sl d).drainEnd part k sl' d').walkTable part va = (z.thaw part k sl).walkTable part va := by
  obtain ⟨hbad, hroot, -⟩ := (z.slotFreed part k sl d).drainEnd_keeps part k sl' d'
  have hfreed : ((z.slotFreed part k sl d).partAt part).ptroot = ((z.thaw part k sl).partAt part).ptroot := by
    rw [State.slotFreed_parts hz, (State.thaws_thaw hz part k sl).partAt]
    rfl
  calc ((z.slotFreed part k sl d).drainEnd part k sl' d').walkTable part va
    _ = (z.slotFreed part k sl d).walkTable part va := State.walkTable_congr (State.drainEnd_mem ..) hbad hroot va
    _ = (z.thaw part k sl).walkTable part va := State.walkTable_congr (State.modPart_mem ..) rfl hfreed va

end

end Sys2Proof.Machine
end

section
/-!
PROOFS. The events of memory: O45.
-/

open Sys2Proof Sys2Proof.Machine Sys2Proof.Claim

/-- Settles O45: a walk ends at the leaf its table has or fails for all that joined it, an invalidation filters every buffer, and a
drain is streaming (`streamSlot_page`), thawing (`thaws_thaw`, `pteCow_thaw`) and the delivery of an entry (`deliver_running`,
`deliver_saved`), where the entries that walks end at stay the same while COW is cleared in them. -/
theorem memoryEvents : Obligations.MemoryEvents := by
  intro die part page slot s w at_ size pte sl d z
  refine ⟨fun hfind => ⟨fun hleaf => ?mapped, fun hfault => ?unmapped⟩, ?invalidation, fun hslot hdrain hs => ?drain⟩
  case mapped =>
    exact ⟨_, exec_pageWalkComplete_mapped hfind hleaf, rfl, State.head?_dieTlbPut ..⟩
  case unmapped =>
    exact ⟨_, exec_pageWalkComplete_unmapped hfind hfault, State.failWalk_eq .., fun a ha => State.walkFailed_failWalk (.inr ha)⟩
  case invalidation =>
    refine ⟨s.tlbInvalidate part, rfl, rfl, fun k => ?_⟩
    rw [State.ctlAt, State.coreAt_tlbInvalidate, State.dieTlb_tlbInvalidate]
    refine ⟨fun e he => ?_, fun e he => ?_, rfl, fun x tm hteam htm hpart => ?_⟩
    · simpa using (List.mem_filter.mp he).2
    · simpa using (List.mem_filter.mp he).2
    · simp [State.invalidated, State.ownerPart_of_team hteam htm, hpart]
  case drain =>
    dsimp only
    refine ⟨fun hstreamed => ⟨fun y hy => ?gives, fun hfull => ?waits⟩, fun hgone => State.deliver_gone hgone _ _ _,
      fun tm htm hbox => ⟨fun hsave => ⟨fun hroom => ?running, fun hfull => ?runningFull⟩,
        fun sv c hsave hc => ⟨fun hroom => ?saved, fun hfull => ?savedFull⟩⟩,
      fun from_ to_ pte hone hdest hfrom hxlat hcow => ?page, fun hstreamed => ⟨fun hnone => ?unwritable, fun hz => ?streams⟩⟩
    case gives =>
      refine ⟨_, exec_checkpointDrainComplete_streamed hslot hdrain hstreamed, State.slot_drainEnd (by rw [hy]; rfl), fun a => ?_, ?_⟩
      · rw [State.drainEnd_mem]
      · rw [State.drainEnd_some hy]; exact ⟨rfl, rfl⟩
    case waits =>
      rw [exec_checkpointDrainComplete_streamed hslot hdrain hstreamed, State.drainEnd_none hfull]
    case running =>
      refine ⟨_, (State.deliver_running htm hsave ..).trans (if_pos hroom), rfl, ?_, fun q b hqb => ?_⟩
      · rw [State.ctlAt_modCtl_self, Ctl.box_putBox_self _ hbox]
      · by_cases hq : q = tm.posOf d.core
        · subst hq
          rw [State.ctlAt_modCtl_self, Ctl.box_putBox_ne _ (hqb.resolve_left (absurd rfl))]
        · rw [State.ctlAt_modCtl_ne _ _ hq]
    case runningFull => exact (State.deliver_running htm hsave ..).trans (if_neg (by simp [hfull]))
    case saved =>
      refine ⟨_, _, _, { c with ctl := c.ctl.putBox d.box (drainEntry sl.pages slot d.engine) },
        (State.deliver_saved htm hsave hc ..).trans (if_pos hroom), rfl, tget_tset_self .., rfl, ?_, Ctl.box_putBox_self c.ctl hbox _⟩
      rw [getElem?_lmod, if_pos rfl, hc, Option.map_some]
    case savedFull => exact (State.deliver_saved htm hsave hc ..).trans (if_neg (by simp [hfull]))
    case page =>
      rw [hone]
      exact State.streamSlot_page hs hdest hfrom hxlat hcow
    case unwritable => exact exec_checkpointDrainComplete_waits hslot hdrain hstreamed hnone
    case streams =>
      have hcanon : z.Canonical := State.streamSlot_wf _ _ _ _ _ _ _ hs hz
      have hthaw := State.thaws_thaw hcanon part slot sl
      have hframe : s.Streamed z := State.streamed_streamSlot hz
      obtain ⟨hcores, hteams⟩ := State.slotFreed_agents hcanon part slot sl d
      have hdeliver := State.deliver_congr (s := s) (t := z.slotFreed part slot sl d)
        (hcores.trans (by rw [hframe])) (hteams.trans (by rw [hframe]))
        d.team d.core d.box (drainEntry sl.pages slot d.engine)
      refine ⟨_, exec_checkpointDrainComplete_streams hslot hdrain hstreamed hz, fun k hk => ?bytes, fun i x hi hfree hx => ?cow, fun x hx => ?pool,
        fun hroom => ?gone, fun hfull => ?kept⟩
      case bytes =>
        rw [State.drainEnd_mem]
        refine hthaw.bytes k fun g x hg hx => ?_
        obtain ⟨i, hi, rfl⟩ := hg
        exact hk i x hi hx
      case cow =>
        rw [State.walkTable_drainEnd_slotFreed hcanon] at hx
        exact State.pteCow_thaw hcanon hi (Part.freezes_eq_false hfree) hx
      case pool =>
        obtain ⟨-, -, hpool⟩ := (z.slotFreed part slot sl d).drainEnd_keeps part slot
          { sl with shadows := [], drain := some { d with streamed := true } } { d with streamed := true }
        rw [hpool, State.slotFreed_parts hcanon]
        simp [Part.freed, Part.shadowsOf, hx]
      case gone =>
        refine State.slot_drainEnd ?_
        rw [hdeliver, Option.isSome_map]
        exact hroom
      case kept =>
        rw [State.drainEnd_none (by rw [hdeliver, hfull]; rfl), State.slotFreed_parts hcanon]
        exact tget_tset_self ..

end

section
/-!
SUPPORT. Error events (R353–R357, R405): what a fault record leaves in memory and in configurations' node lists, the state after
each count of a corrected error, and what the stops of a failed core's domains leave and change.
-/

namespace Sys2Proof.Machine

open Claim

/-! ### Fault records in memory (R277, R352) -/

/-- A record that is written whole is 64 bytes. -/
@[simp] theorem FaultRec.length_bytes (f : FaultRec) (lost : Bool) (part : Nat) : (f.bytes lost part).length = 64 := by
  simp [FaultRec.bytes]

/-- The populated physical ranges end far below the scratchpads' keys. -/
theorem lt_of_physOk {a : Nat} (h : physOk a = true) : a < 2 ^ 46 := by
  simp only [physOk, Bool.or_eq_true, Bool.and_eq_true, decide_eq_true_eq] at h
  omega

/-- A fault record, which goes to host memory, leaves every scratchpad byte. -/
theorem State.readCell_fault {s : State} (hs : s.Canonical) (part : Nat) (f : FaultRec) {k : Nat} (hk : 2 ^ 52 ≤ k) :
    readCell (s.fault part f).mem k = readCell s.mem k := by
  unfold State.fault
  dsimp only
  split
  · rfl
  · rw [State.irq_mem, State.modPart_mem]
    split
    · next hok =>
      have ha := lt_of_physOk hok
      exact State.bytesBut_poke hs _ (FaultRec.length_bytes ..) k (.inr (by omega))
    · rfl

/-! ### Node lists under records (R352, R394) -/

/-- Every configuration lists the nodes that it did: of a list with a number twice this says more than `SameNodes`. -/
def State.SameNodeLists (s t : State) : Prop := ∀ p, (t.coreAt p).cfg.map Cfg.nodes = (s.coreAt p).cfg.map Cfg.nodes

theorem State.SameNodeLists.refl (s : State) : s.SameNodeLists s := fun _ => rfl

theorem State.SameNodeLists.trans {s t u : State} (h : s.SameNodeLists t) (g : t.SameNodeLists u) : s.SameNodeLists u :=
  fun p => (g p).trans (h p)

/-- A region's nodes are found by the node lists. -/
theorem State.SameNodeLists.nodesOf {s t : State} (h : s.SameNodeLists t) (r : Region) : t.nodesOf r = s.nodesOf r := by
  refine congrArg (r.cores.flatMap ·) (funext fun p => ?_)
  have hp := h p
  cases hcfg : (s.coreAt p).cfg with
  | none =>
    rw [hcfg, Option.map_none, Option.map_eq_none_iff] at hp
    rw [hp]
  | some g =>
    rw [hcfg, Option.map_some, Option.map_eq_some_iff] at hp
    obtain ⟨g', hg', hnodes⟩ := hp
    rw [hg']
    exact congrArg (List.map _) hnodes

/-- Cores whose configurations are as they were list their nodes as they did. -/
theorem State.sameNodeLists_of_cfg {s t : State} (h : ∀ p, (t.coreAt p).cfg = (s.coreAt p).cfg) : s.SameNodeLists t :=
  fun p => by rw [h p]

theorem State.sameNodeLists_fault (s : State) (part : Nat) (f : FaultRec) : s.SameNodeLists (s.fault part f) :=
  State.sameNodeLists_of_cfg fun p => by rw [State.coreAt_fault]

/-- A step that leaves the node lists, made or not. -/
theorem State.SameNodeLists.ite (c : Prop) [Decidable c] {s t : State} (h : s.SameNodeLists t) : s.SameNodeLists (if c then t else s) := by
  split
  · exact h
  · exact .refl s

theorem State.sameNodeLists_modCfg (s : State) (p : Nat) {f : Cfg → Cfg} (hf : ∀ g, (f g).nodes = g.nodes) :
    s.SameNodeLists (s.modCfg p f) := by
  have hnodes : Cfg.nodes ∘ f = Cfg.nodes := funext hf
  intro q
  rw [State.coreAt_modCfg]
  split
  · next h => rw [h, Option.map_map, hnodes]
  · rfl

theorem State.sameNodeLists_guardDrop (s : State) (p route : Nat) : s.SameNodeLists (s.guardDrop p route) := by
  unfold State.guardDrop
  split
  · exact .refl s
  split
  · exact .refl s
  next x _ =>
    have herase := s.sameNodeLists_modCfg p (f := fun g => { g with egress := g.egress.erase x }) fun _ => rfl
    dsimp only
    split
    · exact herase
    · refine herase.trans ?_
      split
      · refine State.SameNodeLists.trans ?_ (State.sameNodeLists_fault _ _ _)
        exact State.sameNodeLists_modCfg _ p fun _ => rfl
      · exact State.sameNodeLists_modCfg _ p fun _ => rfl

theorem State.sameNodeLists_guardLast (s : State) (p route : Nat) : s.SameNodeLists (s.guardLast p route) := by
  unfold State.guardLast
  split
  · exact .refl s
  next g _ =>
    have hdrops := foldl_rel .refl .trans (fun z (_ : Nat) => z.sameNodeLists_guardDrop p route) (List.range g.egress.length) s
    dsimp only
    split
    · exact hdrops
    · exact (hdrops.trans (State.sameNodeLists_fault _ _ _)).trans (State.sameNodeLists_modCfg _ p fun _ => rfl)

theorem State.sameNodeLists_guardClose (s : State) (r : Region) (dom : Option Nat) : s.SameNodeLists (s.guardClose r dom) := by
  refine foldl_rel .refl .trans (fun z p => ?_) _ s
  split
  · exact .refl z
  · exact foldl_rel .refl .trans (fun y rt => .ite _ (y.sameNodeLists_guardLast p rt)) _ z

theorem State.sameNodeLists_stopDom (s : State) (k : Nat) (r : Region) (dom : Nat) : s.SameNodeLists (s.stopDom k r dom) :=
  (State.sameNodeLists_of_cfg fun p => by rw [State.coreAt_modRegion]).trans (State.sameNodeLists_guardClose _ _ _)

/-! ### The domains of a failed core (R353, R357) -/

/-- What the stops of domains leave: teams, cores but for what configurations keep of boundary guards, node lists; and a domain of
region k that was stopped stays so. -/
structure State.DomsStop (k : Nat) (s t : State) : Prop where
  teams : t.teams = s.teams
  core : ∀ p, t.coreAt p = { s.coreAt p with cfg := (t.coreAt p).cfg }
  nodes : s.SameNodeLists t
  doms : ∀ g, tget s.regions k = some g → ∃ g', tget t.regions k = some g' ∧
    ∀ (i : Nat) d, g.doms[i]? = some d → ∃ e, g'.doms[i]? = some e ∧ (d.stopped = true → e.stopped = true)

theorem State.DomsStop.refl {k : Nat} (s : State) : s.DomsStop k s :=
  ⟨rfl, fun _ => rfl, .refl s, fun g hg => ⟨g, hg, fun _ d hd => ⟨d, hd, id⟩⟩⟩

theorem State.DomsStop.trans {k : Nat} {s t u : State} (h : s.DomsStop k t) (h' : t.DomsStop k u) : s.DomsStop k u := by
  refine ⟨h'.teams.trans h.teams, fun p => by rw [h'.core p, h.core p], h.nodes.trans h'.nodes, fun g hg => ?_⟩
  obtain ⟨g', hg', hdoms⟩ := h.doms g hg
  obtain ⟨g'', hg'', hdoms'⟩ := h'.doms g' hg'
  refine ⟨g'', hg'', fun i d hd => ?_⟩
  obtain ⟨e, he, hstop⟩ := hdoms i d hd
  obtain ⟨e', he', hstop'⟩ := hdoms' i e he
  exact ⟨e', he', hstop' ∘ hstop⟩

theorem State.domsStop_fault {k : Nat} (s : State) (part : Nat) (f : FaultRec) : s.DomsStop k (s.fault part f) where
  teams := (s.recorded_fault part f).teams
  core := (s.recorded_fault part f).2.1
  nodes := s.sameNodeLists_fault part f
  doms g hg := ⟨g, by rw [(s.recorded_fault part f).regions, hg], fun _ d hd => ⟨d, hd, id⟩⟩

theorem State.domsStop_stopDom (s : State) (k : Nat) (r : Region) (dom : Nat) : s.DomsStop k (s.stopDom k r dom) where
  teams := by simpa using (s.recorded_stopDom k r dom).teams
  core p := by simpa using (s.recorded_stopDom k r dom).2.1 p
  nodes := s.sameNodeLists_stopDom k r dom
  doms g hg := by
    refine ⟨_, State.region_stopDom hg r dom, fun i d hd => ?_⟩
    rw [getElem?_lmod, hd]
    split
    · exact ⟨_, rfl, fun _ => rfl⟩
    · exact ⟨d, rfl, id⟩

theorem State.domsStop_stopDomain (s : State) (k : Nat) (r : Region) (core dom : Nat) : s.DomsStop k (s.stopDomain k r core dom) := by
  unfold State.stopDomain
  split
  · exact .refl s
  · dsimp only
    split
    · exact .refl s
    · exact (s.domsStop_fault ..).trans (State.domsStop_stopDom ..)

/-- Domain i of region k, which is listed, is stopped. -/
def State.DomStopped (s : State) (k i : Nat) : Prop := ∃ g e, tget s.regions k = some g ∧ g.doms[i]? = some e ∧ e.stopped = true

/-- A stopped domain stays stopped while others stop. -/
theorem State.DomsStop.domStopped {s t : State} {k i : Nat} (h : s.DomsStop k t) (hi : s.DomStopped k i) : t.DomStopped k i := by
  obtain ⟨g, d, hg, hd, hstopped⟩ := hi
  obtain ⟨g', hg', hdoms⟩ := h.doms g hg
  obtain ⟨e, he, hstop⟩ := hdoms i d hd
  exact ⟨g', e, hg', he, hstop hstopped⟩

section
variable {s z : State} {k core i : Nat} {r : Region} {d : Dom} (hr : tget s.regions k = some r) (hd : r.doms[i]? = some d)
  (hdone : d.done = false) (hnode : ∃ y ∈ s.nodesOf r, y.1 = core ∧ y.2.2.dom = i)
include hr hd hdone hnode

/-- A domain with a node on the core is stopped, if it was not (R357); others may have been stopped before it. -/
theorem State.domStopped_stopDomain (h : s.DomsStop k z) : (z.stopDomain k r core i).DomStopped k i := by
  obtain ⟨g, hg, hdoms⟩ := h.doms r hr
  obtain ⟨e, he, hkept⟩ := hdoms i d hd
  have hany : (z.nodesOf r).any (fun n => n.1 == core && n.2.2.dom == i) = true := by
    simpa [h.nodes.nodesOf r] using hnode
  simp only [State.stopDomain, hd, hdone, hany, Bool.false_or, Bool.not_true, Bool.or_false]
  split
  · next hstopped => exact ⟨g, e, hg, he, hkept hstopped⟩
  · have hregion := State.region_stopDom (s := z.fault r.part { z.recAt core 0x13 0xFF i with stopped := true, inst := d.ctr })
      (k := k) (g := g) (by rw [(State.recorded_fault ..).regions, hg]) r i
    exact ⟨_, _, hregion, by rw [getElem?_lmod, if_pos rfl, he]; rfl, rfl⟩

/-- Of the domains gone through, each with a node on the core is stopped. -/
theorem State.domStopped_foldl {l : List Nat} (hi : i ∈ l) : (l.foldl (fun z j => z.stopDomain k r core j) s).DomStopped k i := by
  obtain ⟨before, after, rfl⟩ := List.append_of_mem hi
  rw [List.foldl_append, List.foldl_cons]
  have hbefore : s.DomsStop k (before.foldl (fun z j => z.stopDomain k r core j) s) :=
    foldl_rel .refl .trans (fun z j => z.domsStop_stopDomain k r core j) before s
  have hafter (z : State) : z.DomsStop k (after.foldl (fun z j => z.stopDomain k r core j) z) :=
    foldl_rel .refl .trans (fun z j => z.domsStop_stopDomain k r core j) after z
  exact (hafter _).domStopped (State.domStopped_stopDomain hr hd hdone hnode hbefore)

end

/-! ### CORE_FAILED (R351, R357) -/

/-- A core marked failed, the controller of a bound one halted. -/
def Core.markFailed (c : Core) : Core :=
  { c with
    failed := true, repaired := false,
    ctl := if c.team.isSome then { c.ctl with run := .halted, pend := .none, kept := [] } else c.ctl }

/-- The domains of its region with a node on a core stopped, where the region runs. -/
def State.stopDomains (s : State) (core : Nat) : State :=
  match s.fabricOf core with
  | some (k, r) => if r.configured && r.team.isSome then (List.range r.doms.length).foldl (fun z i => z.stopDomain k r core i) s else s
  | none => s

/-- The package after CORE_FAILED on a core in service, but for the firmware calls and page questions that are dropped with it. -/
def State.failCore (s : State) (core : Nat) : State := ((s.modCore core Core.markFailed).stopDomains core).doomAt core 0x13

theorem exec_coreFailed_again {s : State} {core : Nat} (h : (s.coreAt core).failed = true) : exec (.coreFailed core) s = .next s :=
  if_pos h

theorem exec_coreFailed {s : State} {core : Nat} (h : (s.coreAt core).failed = false) : ∃ calls asks,
    exec (.coreFailed core) s = .next { s.failCore core with calls := calls, pageAsks := asks } :=
  ⟨_, _, if_neg (by simp [h])⟩

/-- The stops leave teams, and of every core all but its configuration. -/
theorem State.stopDomains_keeps (s : State) (core : Nat) : (s.stopDomains core).teams = s.teams ∧
    ∀ p, (s.stopDomains core).coreAt p = { s.coreAt p with cfg := ((s.stopDomains core).coreAt p).cfg } := by
  unfold State.stopDomains
  split
  · next k r _ =>
    split
    · have hstop : s.DomsStop k _ := foldl_rel .refl .trans (fun z i => z.domsStop_stopDomain k r core i) (List.range r.doms.length) s
      exact ⟨hstop.teams, hstop.core⟩
    · exact ⟨rfl, fun _ => rfl⟩
  · exact ⟨rfl, fun _ => rfl⟩

@[simp] theorem State.coreAt_doomAt (s : State) (p code q : Nat) : (s.doomAt p code).coreAt q = s.coreAt q := by
  unfold State.doomAt State.modTeamAt
  (repeat' split) <;> rfl

/-- The failed core is as marked. -/
theorem State.coreAt_failCore (s : State) (core : Nat) :
    (s.failCore core).coreAt core = { (s.coreAt core).markFailed with cfg := ((s.failCore core).coreAt core).cfg } := by
  obtain ⟨-, hcore⟩ := (s.modCore core Core.markFailed).stopDomains_keeps core
  simpa [State.failCore] using hcore core

/-- The task of a failed core's team will end faulted (R351). -/
theorem State.team_failCore {s : State} {core k : Nat} {tm : Team} (hteam : (s.coreAt core).team = some k) (htm : tget s.teams k = some tm) :
    tget (s.failCore core).teams k = some { tm with doom := some (tm.doom.getD (faultWord 0x13 (s.lid core) 0)) } := by
  obtain ⟨hteams, hcore⟩ := (s.modCore core Core.markFailed).stopDomains_keeps core
  have hbound : (((s.modCore core Core.markFailed).stopDomains core).coreAt core).team = (s.coreAt core).team := by
    rw [hcore core, State.coreAt_modCore_self]
    rfl
  rw [← State.lid_congr hbound hteams]
  exact State.team_doomAt (by rw [hbound, hteam]) (by rw [hteams, State.modCore_teams, htm]) 0x13

/-- Marking a core failed leaves every configuration and every core's region. -/
theorem State.coreAt_markFailed (s : State) (core p : Nat) :
    ((s.modCore core Core.markFailed).coreAt p).cfg = (s.coreAt p).cfg ∧
    ((s.modCore core Core.markFailed).coreAt p).region = (s.coreAt p).region := by
  rw [State.coreAt_modCore]
  split
  · next h => subst h; exact ⟨rfl, rfl⟩
  · exact ⟨rfl, rfl⟩

/-- The domains with a node on a failed core are stopped (R357). -/
theorem State.domStopped_failCore {s : State} {core k i : Nat} {r : Region} {d : Dom} (hfabric : s.fabricOf core = some (k, r))
    (hconf : r.configured = true) (hteam : r.team.isSome = true) (hd : r.doms[i]? = some d) (hdone : d.done = false)
    (hnode : ∃ y ∈ s.nodesOf r, y.1 = core ∧ y.2.2.dom = i) : (s.failCore core).DomStopped k i := by
  have hmarked := s.coreAt_markFailed core
  have hfabric' : (s.modCore core Core.markFailed).fabricOf core = some (k, r) := by
    rw [State.fabricOf_congr (hmarked core).2 (State.modCore_regions ..), hfabric]
  have hlists : s.SameNodeLists (s.modCore core Core.markFailed) := State.sameNodeLists_of_cfg fun p => (hmarked p).1
  have hrange : i ∈ List.range r.doms.length := List.mem_range.2 (List.getElem?_eq_some_iff.1 hd).1
  have hstopped := State.domStopped_foldl (State.region_of_fabricOf hfabric') hd hdone (by rwa [hlists.nodesOf r]) hrange
  have hdoms : (s.failCore core).regions = ((List.range r.doms.length).foldl (fun z j => z.stopDomain k r core j)
      (s.modCore core Core.markFailed)).regions := by
    simp only [State.failCore, State.doomAt_regions, State.stopDomains, hfabric', hconf, hteam, Bool.and_self, if_true]
  unfold State.DomStopped at *
  rwa [hdoms]

/-! ### CORRECTED_ERROR, ERROR_WINDOW_END, BANK_RETIRE (R354–R356, R405) -/

/-- A core with a corrected error of a bank counted. -/
def Core.countBank (c : Core) (b : Nat) : Core := { c with bankErr := tset c.bankErr b (tgetD 0 c.bankErr b + 1) }

/-- A core with a corrected error of a cache way counted; above the threshold the way is given up. -/
def Core.countWay (c : Core) (threshold way : Nat) : Core :=
  let w := tgetD 0 c.wayErr way + 1
  { c with wayErr := tset c.wayErr way w, lostWays := if threshold < w then c.lostWays ||| (1 <<< (way % 16)) else c.lostWays }

section
variable {s : State} {core tile bank : Nat}

/-- Below the threshold, and again above it, the error is only counted. -/
theorem exec_correctedError_counts (h : tgetD 0 (s.coreAt core).bankErr (16 * tile + bank) + 1 ≠ s.threshold core + 1) :
    exec (.correctedError (.bank core tile bank)) s = .next (s.modCore core (fun c => c.countBank (16 * tile + bank))) := by
  change Host.Outcome.next _ = _
  rw [State.bankError, if_pos h]
  rfl

/-- The count that first exceeds the threshold starts the bank's copy into a free spare. -/
theorem exec_correctedError_copies (h : tgetD 0 (s.coreAt core).bankErr (16 * tile + bank) + 1 = s.threshold core + 1)
    (hspare : (s.coreAt core).spareTaken ((16 * tile + bank) / 16) = false) : exec (.correctedError (.bank core tile bank)) s =
      .next ((s.modCore core (fun c => c.countBank (16 * tile + bank))).modCore core
        (fun c => { c with copying := c.copying ++ [16 * tile + bank] })) := by
  change Host.Outcome.next _ = _
  rw [State.bankError, if_neg (not_not_intro h), if_neg (by simp [hspare])]
  rfl

/-- Where the spare is taken, that count writes record 0x51 and puts the core's failure on the agenda. -/
theorem exec_correctedError_fails (h : tgetD 0 (s.coreAt core).bankErr (16 * tile + bank) + 1 = s.threshold core + 1)
    (hspare : (s.coreAt core).spareTaken ((16 * tile + bank) / 16) = true) : exec (.correctedError (.bank core tile bank)) s =
      .next (((s.modCore core (fun c => c.countBank (16 * tile + bank))).bankRecord core 0x51 (16 * tile + bank)
        (tgetD 0 (s.coreAt core).bankErr (16 * tile + bank) + 1)).later (.event (.coreFailed core))) := by
  change Host.Outcome.next _ = _
  rw [State.bankError, if_neg (not_not_intro h), if_pos hspare]
  rfl

/-- A cache way's error is counted, and the way given up above the threshold. -/
theorem exec_correctedError_way (s : State) (core way : Nat) : exec (.correctedError (.way core way)) s =
    .next (s.modCore core (fun c => c.countWay (s.threshold core) way)) := rfl

/-- A bank that is being copied is retired to its tile's spare. -/
theorem exec_bankRetire (h : bank ∈ (s.coreAt core).copying) : exec (.bankRetire core bank) s =
    .next ((s.modCore core (fun c => { c with copying := c.copying.erase bank, spare := tset c.spare (bank / 16) bank })).bankRecord
      core 0x50 bank (tgetD 0 (s.coreAt core).bankErr bank)) :=
  if_pos (List.contains_iff_mem.2 h)

/-- A bank that is not being copied is not retired. -/
theorem exec_bankRetire_idle (h : bank ∉ (s.coreAt core).copying) : exec (.bankRetire core bank) s = .next s :=
  if_neg (mt List.contains_iff_mem.1 h)

end

@[simp] theorem State.coreAt_bankRecord (s : State) (core code bank count p : Nat) :
    (s.bankRecord core code bank count).coreAt p = s.coreAt p := State.coreAt_fault ..

@[simp] theorem State.bankRecord_agenda (s : State) (core code bank count : Nat) :
    (s.bankRecord core code bank count).agenda = s.agenda := (State.recorded_fault ..).agenda

/-- The record of a retirement leaves every scratchpad byte (R405). -/
theorem State.readCell_bankRecord {s : State} (hs : s.Canonical) (core code bank count : Nat) {k : Nat} (hk : 2 ^ 52 ≤ k) :
    readCell (s.bankRecord core code bank count).mem k = readCell s.mem k := State.readCell_fault hs _ _ hk

/-- A core with its counts of corrected errors at 0. -/
def Core.clearCounts (c : Core) : Core := { c with bankErr := [], wayErr := [] }

/-- The end of a window clears the counts of every core, listed or at reset (R355). -/
theorem exec_errorWindowEnd (s : State) : ∃ t, exec .errorWindowEnd s = .next t ∧ t = { s with cores := t.cores } ∧
    ∀ p, t.coreAt p = (s.coreAt p).clearCounts := by
  refine ⟨{ s with cores := s.cores.map (fun c => (c.1, c.2.clearCounts)) }, rfl, rfl, fun p => ?_⟩
  simp only [State.coreAt, tgetD, tget_map]
  cases tget s.cores p <;> rfl

end Sys2Proof.Machine
end

section
/-!
PROOFS. Corrected errors and failed cores: O49.
-/

open Sys2Proof Sys2Proof.Machine Sys2Proof.Claim

/-- Settles O49: each count of a corrected error changes its core or channel alone, but for the record and the failure that follow
where the spare is taken; a retirement's record goes to host memory (`readCell_fault`); and of the domains that CORE_FAILED goes
through each with a node on the core is stopped (`domStopped_foldl`) and stays so (`DomsStop`). -/
theorem errorEvents : Obligations.ErrorEvents := by
  intro core tile bank way ch x s c b n w only counted
  have only_modCore (f : Core → Core) : only (f c) (s.modCore core f) :=
    ⟨rfl, State.coreAt_modCore_self .., fun _ hp => State.coreAt_modCore_ne _ _ hp⟩
  refine ⟨fun hn => ?counts, fun hn hspare => ?copies, fun hn hspare => ?fails, ?way, ?channel, rfl, ?window,
    fun hcopy hs => ?retires, exec_bankRetire_idle, exec_coreFailed_again, fun hsound => ?failed⟩
  case counts => exact ⟨_, exec_correctedError_counts hn, only_modCore _⟩
  case copies =>
    refine ⟨_, exec_correctedError_copies hn hspare, rfl, ?_, fun p hp => ?_⟩
    · rw [State.coreAt_modCore_self, State.coreAt_modCore_self]
      rfl
    · rw [State.coreAt_modCore_ne _ _ hp, State.coreAt_modCore_ne _ _ hp]
  case fails =>
    refine ⟨_, exec_correctedError_fails hn hspare, ?_, ?_⟩
    · rw [State.later_agenda, State.bankRecord_agenda, State.modCore_agenda]
    · change ((State.bankRecord _ core _ _ _).coreAt core) = _
      rw [State.coreAt_bankRecord, State.coreAt_modCore_self]
      rfl
  case way => exact ⟨_, exec_correctedError_way s core way, only_modCore _⟩
  case channel => exact ⟨_, rfl, rfl, by simp [tgetD]⟩
  case window => exact exec_errorWindowEnd s
  case retires =>
    refine ⟨_, exec_bankRetire hcopy, ?_, ?_, fun k hk => ?_⟩
    · rw [State.coreAt_bankRecord, State.coreAt_modCore_self, tget_tset_self]
    · rw [State.coreAt_bankRecord, State.coreAt_modCore_self]
    · exact State.readCell_bankRecord (s := s.modCore core _) hs _ _ _ _ hk
  case failed =>
    obtain ⟨calls, asks, hexec⟩ := exec_coreFailed hsound
    have hcore := s.coreAt_failCore core
    refine ⟨_, hexec, ?failedMark, ?repairedMark, ?run, fun k tm hk htm => State.team_failCore hk htm,
      fun k r i d hfabric hconf hteam hd hdone hnode => State.domStopped_failCore hfabric hconf hteam hd hdone hnode⟩
    case failedMark => exact congrArg Core.failed hcore
    case repairedMark => exact congrArg Core.repaired hcore
    case run =>
      refine (congrArg (fun z => z.ctl.run) hcore).trans ?_
      exact apply_ite Ctl.run ..

end

section
/-!
SUPPORT. Peer ports (R377–R381): eight-entry lists, a flit taken in sequence, a replay asked for, credits, a port that goes down.
-/

namespace Sys2Proof.Machine

/-! ### Eight-entry lists -/

/-- An entry of an eight-entry list after one is changed. -/
theorem vget_vmod {α : Type} (d : α) (v : Vector α 8) (k : Nat) {j : Nat} (hj : j < 8) (f : α → α) :
    vget d (vmod v k f) j = if j = k then f (vget d v j) else vget d v j := by
  simp [vget, vmod, hj]

/-! ### A flit in sequence (R378, R381) -/

/-- The channel that a data flit names is one of a port's eight. -/
theorem flit_channel_lt (f : BitVec 512) : flitByte f 0 / 16 % 8 < 8 := Nat.mod_lt _ (by decide)

/-- The bytes of a flit's channel once it has joined them. -/
def Port.bytesWith (q : Port) (f : BitVec 512) : List Byte :=
  vget [] q.partials (flitByte f 0 / 16 % 8) ++ bytesOfNat (flitNat f 4 60) (min 60 (flitByte f 1))

/-- A port to which the next sequence is due, with no replay asked for. -/
def Port.advanced (q : Port) : Port := { q with rxSeq := (q.rxSeq + 1) % 65536, asking := false }

/-- A port that a flit in sequence has joined, before it is acknowledged. -/
def Port.joined (q : Port) (f : BitVec 512) : Port :=
  if 128 ≤ flitByte f 0 then q.advanced.deliver (flitByte f 0 / 16 % 8) (q.bytesWith f)
  else { q.advanced with partials := vmod q.partials (flitByte f 0 / 16 % 8) (fun _ => q.bytesWith f) }

/-- An acknowledgement is sent and noted; what the port receives stays. -/
theorem Port.takeFlit_joined (q : Port) (f : BitVec 512) : (q.takeFlit f).partials = (q.joined f).partials ∧
    (q.takeFlit f).slots = (q.joined f).slots ∧ (q.takeFlit f).rxSeq = (q.joined f).rxSeq ∧
    (q.takeFlit f).asking = (q.joined f).asking := by
  have h : q.takeFlit f =
      if flitByte f 0 < 128 ∧ ((q.joined f).rxSeq + 65536 - (q.joined f).rxAcked) % 65536 < 64 then q.joined f
      else { (q.joined f).send [seqFlit 2 (((q.joined f).rxSeq + 65535) % 65536)] with rxAcked := (q.joined f).rxSeq } := rfl
  rw [h]
  split <;> exact ⟨rfl, rfl, rfl, rfl⟩

section
variable (q : Port) (vc : Nat) (fr : List Byte)

/-- A whole frame changes neither the sequence nor whether a replay is asked for. -/
theorem Port.deliver_seq : (q.deliver vc fr).rxSeq = q.rxSeq ∧ (q.deliver vc fr).asking = q.asking := by
  unfold Port.deliver
  dsimp only
  split <;> exact ⟨rfl, rfl⟩

/-- A whole frame leaves no bytes of its channel. -/
theorem Port.deliver_partials : (q.deliver vc fr).partials = vmod q.partials vc (fun _ => []) := by
  unfold Port.deliver
  dsimp only
  split <;> rfl

/-- A whole frame of an enabled channel takes a slot. -/
theorem Port.deliver_slots (hen : chanBit q.en vc = true) :
    (q.deliver vc fr).slots = vmod q.slots vc (fun l => l ++ [burstOfFrame (vget 0 q.rxFrames vc) fr]) := by
  simp only [Port.deliver, hen, if_true]

end

section
variable (q : Port) (f : BitVec 512)

/-- The next sequence is due, and no replay is asked for any more. -/
theorem Port.takeFlit_seq : (q.takeFlit f).rxSeq = (q.rxSeq + 1) % 65536 ∧ (q.takeFlit f).asking = false := by
  obtain ⟨-, -, hseq, hasking⟩ := q.takeFlit_joined f
  rw [hseq, hasking]
  unfold Port.joined
  split
  · exact q.advanced.deliver_seq ..
  · exact ⟨rfl, rfl⟩

/-- A flit that does not end its frame joins the bytes of its channel. -/
theorem Port.takeFlit_more (h : flitByte f 0 < 128) :
    vget [] (q.takeFlit f).partials (flitByte f 0 / 16 % 8) = q.bytesWith f ∧ (q.takeFlit f).slots = q.slots := by
  obtain ⟨hpartials, hslots, -, -⟩ := q.takeFlit_joined f
  rw [hpartials, hslots, Port.joined, if_neg (Nat.not_le.mpr h)]
  refine ⟨?_, rfl⟩
  dsimp only
  rw [vget_vmod_self _ _ (flit_channel_lt f)]

/-- The last flit of a frame leaves no bytes of its channel, and fills a slot while the channel is enabled. -/
theorem Port.takeFlit_last (h : 128 ≤ flitByte f 0) :
    vget [] (q.takeFlit f).partials (flitByte f 0 / 16 % 8) = [] ∧ (chanBit q.en (flitByte f 0 / 16 % 8) = true →
      vget [] (q.takeFlit f).slots (flitByte f 0 / 16 % 8) = vget [] q.slots (flitByte f 0 / 16 % 8) ++
        [burstOfFrame (vget 0 q.rxFrames (flitByte f 0 / 16 % 8)) (q.bytesWith f)]) := by
  obtain ⟨hpartials, hslots, -, -⟩ := q.takeFlit_joined f
  rw [hpartials, hslots, Port.joined, if_pos h]
  refine ⟨?_, fun hen => ?_⟩
  · rw [Port.deliver_partials, vget_vmod_self _ _ (flit_channel_lt f)]
  · rw [q.advanced.deliver_slots _ _ hen, vget_vmod_self _ _ (flit_channel_lt f)]
    rfl

end

/-! ### Credits (R377, R378) -/

/-- A channel's credits after a release: added on its own channel, at most eight. -/
theorem Port.credits_credit (q : Port) (vc k : Nat) {v : Nat} (hv : v < 8) : vget 0 (q.credit vc k).credits v =
    if v = vc ∧ k ≠ 0 then min 8 (vget 0 q.credits v + k) else vget 0 q.credits v := by
  unfold Port.credit
  split
  case isTrue hk => simp [hk]
  case isFalse hk => rw [vget_vmod _ _ _ hv]; simp [hk]

/-- The channels that the far end is known to have enabled after a release. -/
theorem Port.farEn_credit (q : Port) (vc k : Nat) {v : Nat} (hv : v < 8) :
    chanBit (q.credit vc k).farEn v = (chanBit q.farEn v || decide (v = vc ∧ k ≠ 0)) := by
  unfold Port.credit
  split
  case isTrue hk => simp [hk]
  case isFalse hk =>
    have hbit : (BitVec.ofNat 8 (2 ^ vc)).getLsbD v = decide (v = vc) := by
      rw [BitVec.getLsbD_ofNat, Nat.testBit_two_pow]
      simp [hv, eq_comm]
    simp only [chanBit, BitVec.getLsbD_or, hbit, hk, ne_eq, not_false_eq_true, and_true]

section
variable (k : Nat → Nat) {v : Nat} (hv : v < 8)
include hv

/-- Credits released for each channel of a list without repetition. -/
theorem Port.credits_foldl_credit {l : List Nat} (hl : l.Nodup) (q : Port) :
    vget 0 (l.foldl (fun z c => z.credit c (k c)) q).credits v =
      if v ∈ l ∧ k v ≠ 0 then min 8 (vget 0 q.credits v + k v) else vget 0 q.credits v := by
  induction l generalizing q with
  | nil => simp
  | cons c l ih =>
    obtain ⟨hc, hl'⟩ := List.nodup_cons.mp hl
    rw [List.foldl_cons, ih hl', Port.credits_credit _ _ _ hv]
    by_cases hvc : v = c
    · subst hvc; simp [hc]
    · simp [hvc]

/-- The channels known to be enabled after releases for each channel of a list. -/
theorem Port.farEn_foldl_credit (l : List Nat) (q : Port) : chanBit (l.foldl (fun z c => z.credit c (k c)) q).farEn v =
    (chanBit q.farEn v || decide (v ∈ l ∧ k v ≠ 0)) := by
  induction l generalizing q with
  | nil => simp
  | cons c l ih =>
    rw [List.foldl_cons, ih, Port.farEn_credit _ _ _ hv]
    by_cases hvc : v = c
    · subst hvc
      by_cases hk : k v = 0 <;> simp [hk]
    · simp [hvc]

end

/-! ### Ports that go down (R380) -/

/-- What a port keeps when it goes down. -/
def Port.lost (q : Port) : Port := { Port.reset with ever := true, slots := q.slots, sent := q.sent, badTypes := q.badTypes }

/-- A fault record changes no port. -/
@[simp] theorem State.portAt_fault (s : State) (part : Nat) (f : FaultRec) (k : Nat) : (s.fault part f).portAt k = s.portAt k := by
  have hports : (s.fault part f).ports = s.ports := by rw [(s.recorded_fault part f).1]
  rw [State.portAt, hports, State.portAt]

/-- Records for partitions, each written or not, change no port. -/
theorem State.portAt_foldl_fault (k : Nat) (skip : State → Nat → Prop) [∀ z t, Decidable (skip z t)] (f : State → Nat → FaultRec)
    (l : List Nat) (s : State) : (l.foldl (fun z t => if skip z t then z else z.fault t (f z t)) s).portAt k = s.portAt k := by
  induction l generalizing s with
  | nil => rfl
  | cons t l ih =>
    rw [List.foldl_cons, ih]
    split
    · rfl
    · exact s.portAt_fault ..

/-- The ports after one goes down: the cores and the saves that are told of it change none. -/
theorem State.portAt_portFails {s : State} {p : Nat} (h : (s.portAt p).up = true) (k : Nat) :
    (s.portFails p).portAt k = (s.modPort p Port.lost).portAt k := by
  unfold State.portFails
  simp only [h, Bool.not_true, Bool.false_eq_true, if_false]
  exact State.portAt_foldl_fault k (fun z t => (z.partAt t).grant p = 0) _ _ _

/-- A port is down once it has failed. -/
theorem State.portFails_down (s : State) (p : Nat) : ((s.portFails p).portAt p).up = false := by
  cases h : (s.portAt p).up with
  | true => rw [State.portAt_portFails h, State.portAt_modPort_self]; rfl
  | false => simp only [State.portFails, h, Bool.not_false, if_true]

/-! ### The events of a port that is up -/

/-- A port that has asked for a replay of the first sequence lacking (R379). -/
def Port.asked (q : Port) : Port :=
  { q with sent := q.sent ++ [seqFlit 3 q.rxSeq], asking := true, lastAsk := q.rxSeq, askRun := runOf q.lastAsk q.askRun q.rxSeq }

/-- A port whose flits up to the sequence of an acknowledgement are released (R379). -/
def Port.acknowledged (f : BitVec 512) (q : Port) : Port :=
  let k := (flitNat f 4 2 + 65536 - q.oldest + 1) % 65536
  if k ≤ q.unacked.length then { q with unacked := q.unacked.drop k } else q

/-- An acknowledgement changes the flits kept alone. -/
theorem Port.acknowledged_eq (f : BitVec 512) (q : Port) : q.acknowledged f = { q with
    unacked := if (flitNat f 4 2 + 65536 - q.oldest + 1) % 65536 ≤ q.unacked.length
      then q.unacked.drop ((flitNat f 4 2 + 65536 - q.oldest + 1) % 65536) else q.unacked } := by
  unfold Port.acknowledged
  dsimp only
  split <;> rfl

/-- Fewer than eight requests in a row for one sequence leave the port up. -/
theorem State.askReplay_below {s : State} {p : Nat}
    (h : runOf (s.portAt p).lastAsk (s.portAt p).askRun (s.portAt p).rxSeq < 8) : s.askReplay p = s.modPort p Port.asked :=
  if_neg (Nat.not_le.mpr h)

section
variable {s : State} {port : Nat} {flit : BitVec 512} (hup : (s.portAt port).up = true)
include hup

theorem exec_dataFlitReceive_damaged : exec (.dataFlitReceive port flit true) s = .next (s.askReplay port) := by
  simp [exec, execDataFlitReceive, hup]

theorem exec_dataFlitReceive_late (h : flitNat flit 2 2 ≠ (s.portAt port).rxSeq) : exec (.dataFlitReceive port flit false) s =
    .next (if (s.portAt port).asking then s else s.askReplay port) := by
  simp [exec, execDataFlitReceive, hup, h]

theorem exec_dataFlitReceive_taken (h : flitNat flit 2 2 = (s.portAt port).rxSeq) :
    exec (.dataFlitReceive port flit false) s = .next (s.modPort port (fun q => q.takeFlit flit)) := by
  simp [exec, execDataFlitReceive, hup, h]

theorem exec_ackReceive : exec (.ackReceive port flit) s = .next (s.modPort port (Port.acknowledged flit)) :=
  congrArg Host.Outcome.next (if_neg (by simp [hup]))

theorem exec_creditReceive : exec (.creditReceive port flit) s =
    .next (s.modPort port (fun q => (List.range 8).foldl (fun z v => z.credit v (flitByte flit (4 + v))) q)) :=
  congrArg Host.Outcome.next (if_neg (by simp [hup]))

theorem exec_unknownFlitTypeReceive : exec (.unknownFlitTypeReceive port flit) s =
    .next (s.modPort port (fun q => { q with badTypes := q.badTypes + 1 })) :=
  congrArg Host.Outcome.next (if_neg (by simp [hup]))

/-- The flits kept from a sequence on are sent again and counted, and a run of eight requests brings the port down
(R379, R380). -/
theorem exec_replayRequestReceive : exec (.replayRequestReceive port flit) s =
    let q := s.portAt port
    let again := q.unacked.drop ((flitNat flit 4 2 + 65536 - q.oldest) % 65536)
    let run := runOf q.lastReq q.reqRun (flitNat flit 4 2)
    let s1 := s.modPort port (fun q =>
      { q.send again with replays := min (q.replays + again.length) (2 ^ 31 - 1), lastReq := flitNat flit 4 2, reqRun := run })
    .next (if 8 ≤ run then s1.portFails port else s1) := by
  simp [exec, execReplayRequestReceive, hup]

end

theorem exec_portRetrain {s : State} {port : Nat} (hdown : (s.portAt port).up = false) :
    exec (.portRetrain port) s = .next (s.modPort port Port.retrained) :=
  congrArg Host.Outcome.next (if_neg (by simp [hdown]))

/-- A port that is down takes nothing and does not go down again (R380). -/
theorem exec_of_portDown {s : State} {port : Nat} (hdown : (s.portAt port).up = false) (flit : BitVec 512) (damaged : Bool) :
    ∀ i ∈ [Instr.dataFlitReceive port flit damaged, .ackReceive port flit, .replayRequestReceive port flit,
      .creditReceive port flit, .unknownFlitTypeReceive port flit, .portDown port], exec i s = .next s := by
  simp [exec, execDataFlitReceive, execAckReceive, execReplayRequestReceive, execCreditReceive, execUnknownFlitTypeReceive,
    execPortDown, State.portFails, hdown]

end Sys2Proof.Machine
end

section
/-!
PROOFS. Peer ports: O50.
-/

open Sys2Proof Sys2Proof.Machine Sys2Proof.Claim

/-- Settles O50: each event of a port that is up changes that port alone (`State.modPort`) as its lemma says (`takeFlit_more`,
`takeFlit_last`, `askReplay_below`, `credits_foldl_credit`), or brings it down (`portFails_down`). -/
theorem linkEvents : Obligations.LinkEvents := by
  intro port flit damaged s p only vc bytes seq again run
  have only_modPort (f : Port → Port) : only (f p) (s.modPort port f) :=
    ⟨rfl, State.portAt_modPort_self .., fun _ hk => State.portAt_modPort_ne _ _ hk⟩
  have only_self (f : Port → Port) : only ((s.modPort port f).portAt port) (s.modPort port f) :=
    ⟨rfl, rfl, fun _ hk => State.portAt_modPort_ne _ _ hk⟩
  refine ⟨fun hup => ⟨?taken, ?asks, ?late, ?acked, ?replays, ?fails, ?credits, ?unknown, ?down, ?retrain⟩, fun hdown =>
    ⟨exec_of_portDown hdown flit damaged, ?comesUp⟩⟩
  case taken =>
    rintro rfl hseq
    refine ⟨_, exec_dataFlitReceive_taken hup hseq, only_modPort _, ?_⟩
    rw [State.portAt_modPort_self]
    obtain ⟨hrx, hasking⟩ := p.takeFlit_seq flit
    exact ⟨hrx, hasking, p.takeFlit_more flit, p.takeFlit_last flit⟩
  case asks =>
    intro h hrun
    refine ⟨s.askReplay port, ?_, ?_⟩
    · cases damaged with
      | true => exact exec_dataFlitReceive_damaged hup
      | false =>
        obtain ⟨hseq, hasking⟩ := h.resolve_left Bool.false_ne_true
        rw [exec_dataFlitReceive_late hup hseq, if_neg (by rw [hasking]; exact Bool.false_ne_true)]
    · rw [State.askReplay_below hrun]
      exact only_modPort Port.asked
  case late =>
    rintro rfl hseq hasking
    rw [exec_dataFlitReceive_late hup hseq, if_pos hasking]
  case acked =>
    refine ⟨_, exec_ackReceive hup, ?_⟩
    rw [← Port.acknowledged_eq flit p]
    exact only_modPort _
  case replays =>
    intro hrun
    refine ⟨_, exec_replayRequestReceive hup, ?_⟩
    rw [if_neg (Nat.not_le.mpr hrun)]
    exact only_modPort _
  case fails =>
    intro hrun
    refine ⟨_, exec_replayRequestReceive hup, ?_⟩
    rw [if_pos hrun]
    exact State.portFails_down ..
  case credits =>
    refine ⟨_, exec_creditReceive hup, only_self _, fun v hv => ?_⟩
    rw [State.portAt_modPort_self, Port.credits_foldl_credit (fun c => flitByte flit (4 + c)) hv List.nodup_range,
      Port.farEn_foldl_credit (fun c => flitByte flit (4 + c)) hv]
    simp [hv, p]
  case unknown => exact ⟨_, exec_unknownFlitTypeReceive hup, only_modPort _⟩
  case down =>
    refine ⟨_, rfl, State.portFails_down .., ?_⟩
    rw [State.portAt_portFails hup, State.portAt_modPort_self]
    exact ⟨rfl, rfl, rfl, fun k hk => by rw [State.portAt_portFails hup, State.portAt_modPort_ne _ _ hk]⟩
  case retrain => exact congrArg Host.Outcome.next (if_pos hup)
  case comesUp =>
    refine ⟨_, exec_portRetrain hdown, only_self _, ?_⟩
    rw [State.portAt_modPort_self]
    exact ⟨rfl, rfl, rfl⟩

end

section
/-!
SUPPORT. A package whose shadow pool (R365) names a place in a scratchpad. The pool is given from outside any step, and the state does
not bound it, so that the copy of a granule that is made before a tagged bank is evicted may land in a scratchpad zeroed before.
-/

namespace Sys2Proof.Machine

/-! ### The package (R361, R365) -/

/-- A save whose one core stood at position 1, with its bank resident there under its handle: its save area starts at 0xF0000, so
that bank 0 of its core belongs at 0x100000 (R363). -/
def poolSave : Saved :=
  { part := 0, area := some 0xF0000, handle := 0x4005, deep := false, unloaded := true, resident := true, row := 0, col := 1,
    cores := [], scratch := [[]], bad := [[]], wheels := [],
    region := { row := 0, col := 1, h := 1, w := 1, part := 0, configured := false, ident := 0, image := 0, doms := [], detail := 0,
                begun := false, fired := false, quiet := false, team := none, kept := [] } }

/-- A partition whose table is at 0x20000, with a checkpoint slot over its first 64 pages. Its one shadow granule is no physical
memory (R277) but the start of core 0's scratchpad. -/
def poolPart : Part :=
  { Part.reset with
    ptroot := 0x20000, pool := [scratchKey 0 0], slots := [(1, { base := 0, pages := 64, shadows := [], drain := none })] }

/-- Two cores of partition 0 that no team is bound to, core 1 with a bank that `poolSave` owns. Memory holds the table's two
entries, the second a leaf of 1 GiB with COW set, and a byte of the granule at 0x100000. -/
def poolState : State :=
  { State.reset with
    booted := true, areas := [(0, poolSave)], parts := [(0, poolPart)],
    mem := [(0x20000, 1), (0x20002, 3), (0x30000, 1), (0x30006, 0xF0), (0x30007, 0x20), (0x100000, 7)],
    cores := [(0, { Core.reset with assigned := true }), (1, { Core.reset with assigned := true, bankTags := [(0, 0x4005)] })] }

/-! ### What it comes to -/

/-- The reset zeroes core 0's scratchpad before core 1's bank is evicted (R395). -/
theorem readCell_partitionReset_pool :
    ∃ t, exec (.partitionReset 0) poolState = .next t ∧ readCell t.mem (scratchKey 0 0) = 7 := by
  refine ⟨poolState.resetPart 0, rfl, ?_⟩
  decide +kernel

/-- A write of tag 1 for cores 0 and 1 into the core map: core 0 is retagged before core 1's bank is evicted (R390, R392). -/
theorem readCell_registerWrite_pool :
    ∃ t, exec (.registerWrite 0x03000000 0x0101 true) poolState = .next t ∧ readCell t.mem (scratchKey 0 0) = 7 := by
  refine ⟨_, rfl, ?_⟩
  decide +kernel

/-- A byte that reads 7 in the next state does not read 0 in it. -/
theorem not_zero_of_next {o : Answer} {k : Nat} (h : ∃ t, o = .next t ∧ readCell t.mem k = 7) {t : State} (ht : o = .next t) :
    readCell t.mem k ≠ 0 := by
  obtain ⟨u, hu, hbyte⟩ := h
  obtain rfl : t = u := Host.Outcome.next.inj (ht.symm.trans hu)
  rw [hbyte]
  decide

end Sys2Proof.Machine
end

section
/-!
PROOFS. Partitions and the register aperture: O51 and O52.
-/

open Sys2Proof Sys2Proof.Machine Sys2Proof.Claim

/-- Refutes O51: in `poolState` both cores are of partition 0, and its reset leaves 7, not 0, in the first byte of core 0's
scratchpad, since the granule of the save area that core 1's tagged bank goes to is copied there. -/
theorem not_partitionEvents : ¬ Obligations.PartitionEvents := by
  intro h
  obtain ⟨⟨t, ht, -, -, hzero, -⟩, -⟩ := h 0 0 0 0 0 0 0 false false false 0 0 poolState
    { nodes := [], chans := [], routes := [], sched := [], modes := [], keys := [], moves := [], drops := [], egress := [] } (0, 0, none)
  exact not_zero_of_next readCell_partitionReset_pool ht (hzero 0 0 (by decide) (by decide) rfl rfl)

/-- Refutes O52: in `poolState` a privileged write to the core map retags core 0, whose scratchpad's first byte then reads 7, not
0, since the granule of the save area that core 1's tagged bank goes to is copied there. -/
theorem not_powerAndRegisterEvents : ¬ Obligations.PowerAndRegisterEvents := by
  intro h
  obtain ⟨-, -, -, hbooted⟩ := h.2 0 0 0 0 0x0101 poolState
  obtain ⟨-, hmap, -⟩ := hbooted rfl
  obtain ⟨t, ht, hentry⟩ := hmap 0 (by decide)
  obtain ⟨-, -, hzero⟩ := (hentry 0 (by decide)).2 rfl
  exact not_zero_of_next readCell_registerWrite_pool ht (hzero (.inl (by decide +kernel)) 0 (by decide))

end
